-- ==== Sys2Proof/Word.lean ====
section
/-! DEFINITION. The word types of the Limen LX9 (spec 00_scope R2, R3, R5): names for bit vectors of the widths the
manual uses. Bit-field, sign-extension and byte-order helpers stand in Sys2Proof/Machine/Ops.lean. -/
namespace Sys2Proof

/-- One byte; the smallest addressable unit of every memory (R3). -/
abbrev Byte := BitVec 8

/-- An 8-bit operand field of an instruction word (R71): 0 to 191 name vector registers, 192 to 255 name g0 to g63. -/
abbrev Field8 := BitVec 8

/-- A 32-bit register value (R68). -/
abbrev Word32 := BitVec 32

/-- A 64-bit value: uniform registers, pairs, system registers (R68, R69). -/
abbrev Word64 := BitVec 64

/-- The fields of an instruction word (R118) and its 64 extension bits (R116, R120, R121): for a 96-bit form the low half of
ext is IMM32 and the high half the pad; for a 64-bit form ext is 0. -/
structure Raw where
  fn : BitVec 12
  c : BitVec 8
  lc : Bool
  lb : Bool
  la : Bool
  b : BitVec 8
  a : BitVec 8
  d : BitVec 8
  setf : BitVec 2
  guard : BitVec 5
  op : BitVec 8
  len : BitVec 2
  ext : BitVec 64
  deriving DecidableEq, Repr

/-- The decode-class faults, in the order of their codes 0x01 to 0x09 (R132). -/
inductive DecodeFault where
  | fetchCross | badClause | illegalOpcode | privileged | reservedBit | reservedFn | flagSlot | registerPair | windowRange
  deriving DecidableEq, Repr

/-- Privilege (R132): CTX_STATE.PRIV of the context, and whether the issuing strand is a handler strand. -/
structure Privilege where
  priv : Bool
  handler : Bool
  deriving DecidableEq, Repr

end Sys2Proof
end

