-- ==== Sys2Proof/Syntax.lean ====
section
/-! DEFINITION. The instructions of the Limen LX9 as data: one constructor of Instr per row of spec/opcode_table.json.
Rows 0 to 201 are instruction words (05_encoding R116 to R137 and the instruction chapters); their operands are the fields
the spec gives each word, with every reserved value left out of the types. Rows 202 to 299 are the steps that the array,
home slices, engines, scheduler, metering, clocks, host and fabric take (95_what_each_step_holds); their arguments name
what the step acts on or what the outside supplies. -/
namespace Sys2Proof

/-- Integer types TY (R136), in code order. -/
inductive IntTy where
  | s32 | z32 | s64 | z64
  deriving DecidableEq, Repr

/-- Rounding modes RM (R98); codes 0 to 3 and 7. -/
inductive Rm where
  | rne | rtz | rup | rdn | dyn
  deriving DecidableEq, Repr

/-- Memory and conversion formats FMT (R89), in code order. -/
inductive Fmt where
  | z8 | s8 | z16 | s16 | z32 | s32 | z64 | s64 | f16 | bf16 | f32
  deriving DecidableEq, Repr

/-- Eviction priority EP (R136). -/
inductive Ep where
  | normal | first | last
  deriving DecidableEq, Repr

/-- Scopes SC (R136, R275). -/
inductive Scope where
  | skein | hank | device | group | system
  deriving DecidableEq, Repr

/-- ORD of an atomic (R201). -/
inductive MemOrd where
  | relaxed | acquire | release | acqRel
  deriving DecidableEq, Repr

/-- AOP of ATOM and RATOM (R201), in code order. -/
inductive AtomOp where
  | add | min | max | and | or | xor | exch | cas | inc | dec
  deriving DecidableEq, Repr

/-- AOP of ATOMF (R203), in code order. -/
inductive AtomFOp where
  | fadd | fmin | fmax | hadd2 | hadd2bf
  deriving DecidableEq, Repr

/-- COND of ICMP (R179), in code order. -/
inductive Cond where
  | eq | ne | lt | le | gt | ge
  deriving DecidableEq, Repr

/-- COMB of ICMP and FCMP (R179). -/
inductive Comb where
  | set | and | or
  deriving DecidableEq, Repr

/-- COND of FCMP (R187), in code order. -/
inductive FCond where
  | eq | ne | lt | le | gt | ge | ltq | leq | gtq | geq | un | ord
  deriving DecidableEq, Repr

/-- MODE of VOTE (R163). -/
inductive VoteMode where
  | all | any | eq | ballot
  deriving DecidableEq, Repr

/-- MODE of SHFL (R164). -/
inductive ShflMode where
  | idx | up | down | xor
  deriving DecidableEq, Repr

/-- SEL of FID (R160), in code order. -/
inductive FidSel where
  | fibre | rank | skeins | hank | hanks | spindle | frame | mill | slot | fmax | window | package
  deriving DecidableEq, Repr

/-- OFMT of SDRAIN (R231). -/
inductive DrainFmt where
  | f32 | f16 | bf16
  deriving DecidableEq, Repr

/-- SEL of JREAD (R259). -/
inductive JSel where
  | acc | mlo | mhi | bkt
  deriving DecidableEq, Repr

/-- KIND of an invalidation (R264, R355). -/
inductive InvKind where
  | page | range | all
  deriving DecidableEq, Repr

/-- What every instruction word carries (R118): GUARD (bit 4 negates, bits 3:0 select p0 to p15) and SETF (bit 0 slot A, bit 1 slot B). -/
structure Ctl where
  guard : BitVec 5
  setf : BitVec 2
  deriving DecidableEq, Repr

/-- A register source: its operand field and its last-use bit (R71, R85). -/
structure Src where
  reg : Field8
  last : Bool
  deriving DecidableEq, Repr

/-- What the C field carries in an integer instruction that uses it (R136, R151): a register, or with CI = 1 an
8-bit immediate. -/
inductive CSrc where
  | reg (s : Src)
  | imm (v : BitVec 8)
  deriving DecidableEq, Repr

/-- The operation of RED: an integer one with its type, or with FL = 1 a float one (R201, R203). -/
inductive RedOp where
  | int (op : AtomOp) (ty : IntTy)
  | flt (op : AtomFOp)
  deriving DecidableEq, Repr

/-- COP of CCTL (R206); only .pri carries EPV. -/
inductive CctlOp where
  | wb | invl1 | wbinv
  | pri (epv : Ep)
  deriving DecidableEq, Repr

/-- Operands of an instruction that names nothing beside GUARD and SETF. -/
structure OpC where
  c : Ctl
  deriving DecidableEq, Repr

/-- BRA and BRC: IMM32, the signed target offset in 32-byte units (R120, R152). -/
structure OpBranchImm where
  c : Ctl
  imm : BitVec 32
  deriving DecidableEq, Repr

/-- CALL: D receives the link (R152). -/
structure OpCall where
  c : Ctl
  d : Field8
  imm : BitVec 32
  deriving DecidableEq, Repr

/-- BRX and RET: A holds the 64-bit target (R152). -/
structure OpBranchReg where
  c : Ctl
  a : Src
  deriving DecidableEq, Repr

/-- CALLX: D receives the link, A holds the target (R152). -/
structure OpCallReg where
  c : Ctl
  d : Field8
  a : Src
  deriving DecidableEq, Repr

/-- FSPAWN (R156): D result, A count, B first register copied, K registers copied, IMM32 target. -/
structure OpSpawn where
  c : Ctl
  d : Field8
  a : Src
  b : Src
  k : BitVec 6
  imm : BitVec 32
  deriving DecidableEq, Repr

/-- FID (R160). -/
structure OpFid where
  c : Ctl
  d : Field8
  sel : FidSel
  deriving DecidableEq, Repr

/-- BARA (R161): D and the scope bit FN<0> (1: hank). -/
structure OpBara where
  c : Ctl
  d : Field8
  hank : Bool
  deriving DecidableEq, Repr

/-- BARW (R161): A and the scope bit. -/
structure OpBarw where
  c : Ctl
  a : Src
  hank : Bool
  deriving DecidableEq, Repr

/-- VOTE (R163). -/
structure OpVote where
  c : Ctl
  mode : VoteMode
  d : Field8
  a : Src
  ps : BitVec 4
  pn : Bool
  deriving DecidableEq, Repr

/-- SHFL, 64-bit form (R164). -/
structure OpShfl where
  c : Ctl
  d : Field8
  a : Src
  b : Src
  mode : ShflMode
  pv : BitVec 4
  deriving DecidableEq, Repr

/-- SHFL, 96-bit form (R164). -/
structure OpShflImm where
  c : Ctl
  d : Field8
  a : Src
  imm : BitVec 32
  mode : ShflMode
  pv : BitVec 4
  deriving DecidableEq, Repr

/-- LIVE (R165): X<47:0>. -/
structure OpLive where
  c : Ctl
  mask : BitVec 48
  deriving DecidableEq, Repr

/-- PSET, 64-bit form (R166). -/
structure OpPset where
  c : Ctl
  a : Src
  b : Src
  deriving DecidableEq, Repr

/-- PSET, 96-bit form (R166): IMM32<14:0> is the mask. -/
structure OpPsetImm where
  c : Ctl
  a : Src
  mask : BitVec 15
  deriving DecidableEq, Repr

/-- An instruction with a destination only (PMOV R167, IDEM R256). -/
structure OpD where
  c : Ctl
  d : Field8
  deriving DecidableEq, Repr

/-- PMOV, 96-bit form (R167): VAL and MASK. -/
structure OpPmovImm where
  c : Ctl
  val : BitVec 15
  mask : BitVec 15
  deriving DecidableEq, Repr

/-- PLOP (R168). -/
structure OpPlop where
  c : Ctl
  d : BitVec 4
  a : BitVec 4
  b : BitVec 4
  x : BitVec 4
  lut : BitVec 8
  deriving DecidableEq, Repr

/-- Integer, one source (R170). -/
structure OpInt1 where
  c : Ctl
  d : Field8
  a : Src
  ty : IntTy
  sat : Bool
  deriving DecidableEq, Repr

/-- Integer, two register sources (R170). -/
structure OpInt2 where
  c : Ctl
  d : Field8
  a : Src
  b : Src
  ty : IntTy
  sat : Bool
  deriving DecidableEq, Repr

/-- Integer, IMM32 in place of B (R120, R170). -/
structure OpInt2Imm where
  c : Ctl
  d : Field8
  a : Src
  imm : BitVec 32
  ty : IntTy
  sat : Bool
  deriving DecidableEq, Repr

/-- Integer, sources A, B and C (R170). -/
structure OpInt3 where
  c : Ctl
  d : Field8
  a : Src
  b : Src
  x : CSrc
  ty : IntTy
  sat : Bool
  deriving DecidableEq, Repr

/-- Integer, sources A, IMM32 and C (R170). -/
structure OpInt3Imm where
  c : Ctl
  d : Field8
  a : Src
  imm : BitVec 32
  x : CSrc
  ty : IntTy
  sat : Bool
  deriving DecidableEq, Repr

/-- LOP3, register form (R170): OPX is the truth table. -/
structure OpLop3 where
  c : Ctl
  d : Field8
  a : Src
  b : Src
  x : CSrc
  ty : IntTy
  lut : BitVec 8
  deriving DecidableEq, Repr

/-- LOP3, immediate form (R170). -/
structure OpLop3Imm where
  c : Ctl
  d : Field8
  a : Src
  imm : BitVec 32
  x : CSrc
  ty : IntTy
  lut : BitVec 8
  deriving DecidableEq, Repr

/-- IADDC, register form (R172). -/
structure OpAddc where
  c : Ctl
  d : Field8
  a : Src
  b : Src
  ty : IntTy
  pco : BitVec 4
  pci : BitVec 4
  deriving DecidableEq, Repr

/-- IADDC, immediate form (R172). -/
structure OpAddcImm where
  c : Ctl
  d : Field8
  a : Src
  imm : BitVec 32
  ty : IntTy
  pco : BitVec 4
  pci : BitVec 4
  deriving DecidableEq, Repr

/-- SEL, register form (R177). -/
structure OpSel where
  c : Ctl
  d : Field8
  a : Src
  b : Src
  ty : IntTy
  ps : BitVec 4
  pn : Bool
  deriving DecidableEq, Repr

/-- SEL, immediate form (R177). -/
structure OpSelImm where
  c : Ctl
  d : Field8
  a : Src
  imm : BitVec 32
  ty : IntTy
  ps : BitVec 4
  pn : Bool
  deriving DecidableEq, Repr

/-- MOVI, 96-bit form (R176). -/
structure OpMoviImm where
  c : Ctl
  d : Field8
  imm : BitVec 32
  ty : IntTy
  deriving DecidableEq, Repr

/-- MOVI, 128-bit form (R176): TY is s64 or z64, so one bit tells them apart (1: z64). -/
structure OpMoviX where
  c : Ctl
  d : Field8
  x : BitVec 64
  z : Bool
  deriving DecidableEq, Repr

/-- MOVW (R176): imm16 and the quarter k. -/
structure OpMovw where
  c : Ctl
  d : Field8
  imm : BitVec 16
  ty : IntTy
  k : BitVec 2
  deriving DecidableEq, Repr

/-- LEA, register form (R178). -/
structure OpLea where
  c : Ctl
  d : Field8
  a : Src
  b : Src
  ty : IntTy
  sh : BitVec 3
  deriving DecidableEq, Repr

/-- LEA, immediate form (R178). -/
structure OpLeaImm where
  c : Ctl
  d : Field8
  a : Src
  imm : BitVec 32
  ty : IntTy
  sh : BitVec 3
  deriving DecidableEq, Repr

/-- ICMP, register form (R179): D is a predicate field. -/
structure OpIcmp where
  c : Ctl
  d : BitVec 4
  a : Src
  b : Src
  ty : IntTy
  cond : Cond
  comb : Comb
  deriving DecidableEq, Repr

/-- ICMP, immediate form (R179). -/
structure OpIcmpImm where
  c : Ctl
  d : BitVec 4
  a : Src
  imm : BitVec 32
  ty : IntTy
  cond : Cond
  comb : Comb
  deriving DecidableEq, Repr

/-- Float, one source (R182). -/
structure OpF1 where
  c : Ctl
  d : Field8
  a : Src
  rm : Rm
  na : Bool
  deriving DecidableEq, Repr

/-- Float, two register sources (R182). -/
structure OpF2 where
  c : Ctl
  d : Field8
  a : Src
  b : Src
  rm : Rm
  na : Bool
  nb : Bool
  deriving DecidableEq, Repr

/-- Float, IMM32 in place of B (R182). -/
structure OpF2Imm where
  c : Ctl
  d : Field8
  a : Src
  imm : BitVec 32
  rm : Rm
  na : Bool
  nb : Bool
  deriving DecidableEq, Repr

/-- Float, sources A, B and C (R182). -/
structure OpF3 where
  c : Ctl
  d : Field8
  a : Src
  b : Src
  x : Src
  rm : Rm
  na : Bool
  nb : Bool
  nc : Bool
  deriving DecidableEq, Repr

/-- Float, sources A, IMM32 and C (R182). -/
structure OpF3Imm where
  c : Ctl
  d : Field8
  a : Src
  imm : BitVec 32
  x : Src
  rm : Rm
  na : Bool
  nb : Bool
  nc : Bool
  deriving DecidableEq, Repr

/-- FCMP, register form (R187). -/
structure OpFcmp where
  c : Ctl
  d : BitVec 4
  a : Src
  b : Src
  na : Bool
  nb : Bool
  cond : FCond
  comb : Comb
  deriving DecidableEq, Repr

/-- FCMP, immediate form (R187). -/
structure OpFcmpImm where
  c : Ctl
  d : BitVec 4
  a : Src
  imm : BitVec 32
  na : Bool
  nb : Bool
  cond : FCond
  comb : Comb
  deriving DecidableEq, Repr

/-- Packed, two register sources (R189): PT 1 is bf16 (H forms) or z16 (V forms). -/
structure OpP2 where
  c : Ctl
  d : Field8
  a : Src
  b : Src
  rm : Rm
  pt : Bool
  sat : Bool
  deriving DecidableEq, Repr

/-- Packed, IMM32 in place of B (R189). -/
structure OpP2Imm where
  c : Ctl
  d : Field8
  a : Src
  imm : BitVec 32
  rm : Rm
  pt : Bool
  sat : Bool
  deriving DecidableEq, Repr

/-- HFMA2, register form (R189). -/
structure OpP3 where
  c : Ctl
  d : Field8
  a : Src
  b : Src
  x : Src
  rm : Rm
  pt : Bool
  deriving DecidableEq, Repr

/-- HFMA2, immediate form (R189). -/
structure OpP3Imm where
  c : Ctl
  d : Field8
  a : Src
  imm : BitVec 32
  x : Src
  rm : Rm
  pt : Bool
  deriving DecidableEq, Repr

/-- ACS2 (R190). -/
structure OpAcs2 where
  c : Ctl
  d : Field8
  a : Src
  b : Src
  x : Src
  pd0 : BitVec 4
  pd1 : BitVec 4
  swb : Bool
  max : Bool
  deriving DecidableEq, Repr

/-- CVT (R137, R191). -/
structure OpCvt where
  c : Ctl
  d : Field8
  a : Src
  dst : Fmt
  src : Fmt
  sat : Bool
  rm : Rm
  deriving DecidableEq, Repr

/-- CVTB (R192): BW 0 to 6; DIR (1: bfp to f32); EMASK. -/
structure OpCvtb where
  c : Ctl
  d : Field8
  a : Src
  bw : BitVec 3
  dir : Bool
  emask : BitVec 16
  deriving DecidableEq, Repr

/-- LD, LDS and LDC, 64-bit form (R193). -/
structure OpLoad where
  c : Ctl
  d : Field8
  a : Src
  fmt : Fmt
  ep : Ep
  noal : Bool
  deriving DecidableEq, Repr

/-- LD, LDS and LDC with byte offset (R193). -/
structure OpLoadImm where
  c : Ctl
  d : Field8
  a : Src
  fmt : Fmt
  ep : Ep
  noal : Bool
  imm : BitVec 32
  deriving DecidableEq, Repr

/-- ST and STS, 64-bit form (R193). -/
structure OpStore where
  c : Ctl
  a : Src
  b : Src
  fmt : Fmt
  ep : Ep
  noal : Bool
  deriving DecidableEq, Repr

/-- ST and STS with byte offset (R193). -/
structure OpStoreImm where
  c : Ctl
  a : Src
  b : Src
  fmt : Fmt
  ep : Ep
  noal : Bool
  imm : BitVec 32
  deriving DecidableEq, Repr

/-- LDAQ, 64-bit form (R248). -/
structure OpLdaq where
  c : Ctl
  d : Field8
  a : Src
  fmt : Fmt
  ep : Ep
  noal : Bool
  sc : Scope
  deriving DecidableEq, Repr

/-- LDAQ with byte offset (R248). -/
structure OpLdaqImm where
  c : Ctl
  d : Field8
  a : Src
  fmt : Fmt
  ep : Ep
  noal : Bool
  sc : Scope
  imm : BitVec 32
  deriving DecidableEq, Repr

/-- STRL, 64-bit form (R248). -/
structure OpStrl where
  c : Ctl
  a : Src
  b : Src
  fmt : Fmt
  ep : Ep
  noal : Bool
  sc : Scope
  deriving DecidableEq, Repr

/-- STRL with byte offset (R248). -/
structure OpStrlImm where
  c : Ctl
  a : Src
  b : Src
  fmt : Fmt
  ep : Ep
  noal : Bool
  sc : Scope
  imm : BitVec 32
  deriving DecidableEq, Repr

/-- ATOM, 64-bit form (R201): C is used by CAS only. -/
structure OpAtom where
  c : Ctl
  d : Field8
  a : Src
  b : Src
  x : Src
  op : AtomOp
  ty : IntTy
  sc : Scope
  ord : MemOrd
  deriving DecidableEq, Repr

/-- ATOM with byte offset (R201). -/
structure OpAtomImm where
  c : Ctl
  d : Field8
  a : Src
  b : Src
  x : Src
  op : AtomOp
  ty : IntTy
  sc : Scope
  ord : MemOrd
  imm : BitVec 32
  deriving DecidableEq, Repr

/-- ATOMF, 64-bit form (R203). -/
structure OpAtomf where
  c : Ctl
  d : Field8
  a : Src
  b : Src
  op : AtomFOp
  sc : Scope
  ord : MemOrd
  deriving DecidableEq, Repr

/-- ATOMF with byte offset (R203). -/
structure OpAtomfImm where
  c : Ctl
  d : Field8
  a : Src
  b : Src
  op : AtomFOp
  sc : Scope
  ord : MemOrd
  imm : BitVec 32
  deriving DecidableEq, Repr

/-- RED, 64-bit form (R201, R203): FL selects the operation's kind. -/
structure OpRed where
  c : Ctl
  a : Src
  b : Src
  op : RedOp
  sc : Scope
  ord : MemOrd
  deriving DecidableEq, Repr

/-- RED with byte offset (R201, R203). -/
structure OpRedImm where
  c : Ctl
  a : Src
  b : Src
  op : RedOp
  sc : Scope
  ord : MemOrd
  imm : BitVec 32
  deriving DecidableEq, Repr

/-- PFT (R205). -/
structure OpPft where
  c : Ctl
  a : Src
  b : Src
  x : Src
  el : Bool
  l1 : Bool
  e2 : BitVec 16
  e1 : BitVec 16
  e0 : BitVec 20
  deriving DecidableEq, Repr

/-- CCTL, 64-bit form (R206). -/
structure OpCctl where
  c : Ctl
  a : Src
  cop : CctlOp
  deriving DecidableEq, Repr

/-- CCTL with byte offset (R206). -/
structure OpCctlImm where
  c : Ctl
  a : Src
  cop : CctlOp
  imm : BitVec 32
  deriving DecidableEq, Repr

/-- CPIN and CUNPIN, 64-bit form (R207). -/
structure OpPin where
  c : Ctl
  d : Field8
  a : Src
  b : Src
  deriving DecidableEq, Repr

/-- CPIN and CUNPIN with the length in IMM32 (R207). -/
structure OpPinImm where
  c : Ctl
  d : Field8
  a : Src
  imm : BitVec 32
  deriving DecidableEq, Repr

/-- ICINV, 64-bit form (R209). -/
structure OpIcinv where
  c : Ctl
  a : Src
  b : Src
  deriving DecidableEq, Repr

/-- ICINV with the length in IMM32 (R209). -/
structure OpIcinvImm where
  c : Ctl
  a : Src
  imm : BitVec 32
  deriving DecidableEq, Repr

/-- TLD and TST (R214): r is the tile register. -/
structure OpTileXfer where
  c : Ctl
  r : BitVec 4
  a : Src
  b : Src
  sp : Bool
  tr : Bool
  ep : Ep
  noal : Bool
  off : BitVec 32
  cols : BitVec 4
  rows : BitVec 4
  deriving DecidableEq, Repr

/-- ALD and AST (R214): r is the accumulator. -/
structure OpAccXfer where
  c : Ctl
  r : BitVec 3
  a : Src
  b : Src
  sp : Bool
  tr : Bool
  ep : Ep
  noal : Bool
  off : BitVec 32
  cols : BitVec 4
  rows : BitVec 4
  deriving DecidableEq, Repr

/-- TZERO (R216). -/
structure OpTzero where
  c : Ctl
  d : BitVec 4
  deriving DecidableEq, Repr

/-- TMOV (R216). -/
structure OpTmov where
  c : Ctl
  d : BitVec 4
  a : BitVec 4
  tr : Bool
  deriving DecidableEq, Repr

/-- ACLR (R216): with ALL, D is 0. -/
structure OpAclr where
  c : Ctl
  d : BitVec 3
  all : Bool
  deriving DecidableEq, Repr

/-- TMMA (R217). -/
structure OpTmma where
  c : Ctl
  d : BitVec 3
  a : BitVec 4
  b : BitVec 4
  bf : Bool
  zc : Bool
  depth : BitVec 4
  cols : BitVec 4
  rows : BitVec 4
  deriving DecidableEq, Repr

/-- ACVT (R218). -/
structure OpAcvt where
  c : Ctl
  d : BitVec 4
  a : BitVec 3
  rm : Rm
  bf : Bool
  deriving DecidableEq, Repr

/-- AFRAG (R219): DIR 1 is .in. -/
structure OpAfrag where
  c : Ctl
  d : BitVec 3
  a : Src
  cb : BitVec 3
  dir : Bool
  deriving DecidableEq, Repr

/-- WLD (R224). -/
structure OpWld where
  c : Ctl
  a : Src
  ep : Ep
  noal : Bool
  boff : BitVec 15
  len : BitVec 15
  deriving DecidableEq, Repr

/-- WLATCH (R226). -/
structure OpWlatch where
  c : Ctl
  d : Field8
  a : Src
  bw : BitVec 3
  cmp : Bool
  new : Bool
  kb : BitVec 8
  n0 : BitVec 7
  nc : BitVec 7
  deriving DecidableEq, Repr

/-- SBUILD (R230). -/
structure OpSbuild where
  c : Ctl
  a : Src
  b : Src
  x : Src
  bw : BitVec 3
  klast : BitVec 4
  deriving DecidableEq, Repr

/-- SSTEP (R228). -/
structure OpSstep where
  c : Ctl
  a : Src
  b : Src
  rows : BitVec 8
  kb : BitVec 8
  klast : BitVec 4
  nc : BitVec 7
  zero : Bool
  abw : BitVec 3
  orow : BitVec 12
  deriving DecidableEq, Repr

/-- SLUT (R228). -/
structure OpSlut where
  c : Ctl
  a : Src
  b : Src
  rows : BitVec 8
  kb : BitVec 8
  nc : BitVec 7
  zero : Bool
  orow : BitVec 12
  deriving DecidableEq, Repr

/-- SDRAIN (R231). -/
structure OpSdrain where
  c : Ctl
  a : Src
  b : Src
  ofmt : DrainFmt
  clr : Bool
  rm : Rm
  orow : BitVec 12
  rows : BitVec 8
  nc : BitVec 7
  deriving DecidableEq, Repr

/-- SCLASS (R222). -/
structure OpSclass where
  c : Ctl
  d : Field8
  cls : BitVec 2
  wg : BitVec 5
  deriving DecidableEq, Repr

/-- QPUT and FEEDPUT (R236, R254): B names g0 to g56. -/
structure OpQput where
  c : Ctl
  d : Field8
  a : Src
  b : Src
  deriving DecidableEq, Repr

/-- CWAIT and CTEST (R242). -/
structure OpCwait where
  c : Ctl
  d : Field8
  a : Src
  b : Src
  w : BitVec 24
  deriving DecidableEq, Repr

/-- SLEEP and SLEEPUNTIL (R243, R244): flag is MON or CHK; B is used only with it. -/
structure OpSleep where
  c : Ctl
  a : Src
  b : Src
  flag : Bool
  deriving DecidableEq, Repr

/-- FENCE (R246). -/
structure OpFence where
  c : Ctl
  sc : Scope
  deriving DecidableEq, Repr

/-- FENCEX (R247): path sets, bits LS BT AR GA CP from bit 0. -/
structure OpFencex where
  c : Ctl
  src : BitVec 5
  dst : BitVec 5
  deriving DecidableEq, Repr

/-- RSTF (R249). -/
structure OpRstf where
  c : Ctl
  a : Src
  b : Src
  x : Src
  fmt : Fmt
  ep : Ep
  noal : Bool
  sc : Scope
  off : BitVec 32
  inc : BitVec 16
  deriving DecidableEq, Repr

/-- RATOM (R250). -/
structure OpRatom where
  c : Ctl
  d : Field8
  a : Src
  b : Src
  x : Src
  op : AtomOp
  ty : IntTy
  sc : Scope
  ord : MemOrd
  off : BitVec 32
  deriving DecidableEq, Repr

/-- An instruction with source A only (PUBLISH R251). -/
structure OpA where
  c : Ctl
  a : Src
  deriving DecidableEq, Repr

/-- LAUNCH (R252). -/
structure OpLaunch where
  c : Ctl
  d : Field8
  a : Src
  b : Src
  x : Src
  pw : BitVec 32
  pwv : Bool
  deriving DecidableEq, Repr

/-- FEEDPOP (R255). -/
structure OpFeedpop where
  c : Ctl
  d : Field8
  a : Src
  hold : Bool
  deriving DecidableEq, Repr

/-- JREAD (R259). -/
structure OpJread where
  c : Ctl
  d : Field8
  sel : JSel
  deriving DecidableEq, Repr

/-- A destination and source A (OPREQ R260). -/
structure OpDA where
  c : Ctl
  d : Field8
  a : Src
  deriving DecidableEq, Repr

/-- TRAP (R262): the 10-bit code. -/
structure OpTrap where
  c : Ctl
  code : BitVec 10
  deriving DecidableEq, Repr

/-- TRET (R262). -/
structure OpTret where
  c : Ctl
  nxt : Bool
  deriving DecidableEq, Repr

/-- SYSRD (R263). -/
structure OpSysrd where
  c : Ctl
  d : Field8
  sel : BitVec 12
  deriving DecidableEq, Repr

/-- SYSWR (R263). -/
structure OpSyswr where
  c : Ctl
  a : Src
  sel : BitVec 12
  deriving DecidableEq, Repr

/-- TLBINV (R264). -/
structure OpTlbinv where
  c : Ctl
  a : Src
  b : Src
  kind : InvKind
  deriving DecidableEq, Repr

/-- RAMODE (R264). -/
structure OpRamode where
  c : Ctl
  on : Bool
  deriving DecidableEq, Repr

/-- A clock region (18 R398): a frame of a mill, the L2 network of a mill, a fabric port, the host and CP region of I/O
die 0, or the GTB reference. -/
inductive Region where
  | frame (mill n : Nat) | l2net (mill : Nat) | port (n : Nat) | hostCp | gtbRef
  deriving DecidableEq, Repr

/-- UNIT of an error log entry (16 R368), in code order. -/
inductive ErrUnit where
  | pool | shadow | weight | l1 | icache | l2 | array | devmem
  deriving DecidableEq, Repr

/-- Where an SRAM or memory error stands, as its log entry records it (16 R368): the mill that logs it, the unit, the
logical spindle if any, the unit offset or system physical address, the syndrome, and whether the copy hit is clean. -/
structure ErrSite where
  mill : Nat
  unit : ErrUnit
  spindle : Option Nat
  addr : Nat
  syndrome : BitVec 32
  clean : Bool
  deriving DecidableEq, Repr

/-- A CP firmware image (18 R407): its header fields, whether every reserved byte is zero, KEY, BODY and SIG. -/
structure FwImage where
  format : BitVec 32
  version : BitVec 32
  svn : BitVec 32
  entry : BitVec 32
  reservedZero : Bool
  key : List Byte
  body : List Byte
  sig : List Byte
  deriving DecidableEq, Repr

/-- What bring-up meets (18 R408): the image in module flash, the image in the host window, the logical spindles that
fail built-in test, and the stacks whose training fails. -/
structure BootInput where
  flash : Option FwImage
  host : Option FwImage
  failed : List Nat
  lost : List Nat
  deriving DecidableEq, Repr

/-- What a fabric packet asks of this package's memory: a write of bytes; an integer or a float atomic (08 R204; 10 R250); the data of an RSTF, with its
flag, the increment and whether the flag waits for global completion (10 R249); a read of bytes (11 R280); or traffic whose content this package does not act on
here. -/
inductive FabBody where
  | store (addr : Nat) (bytes : List Byte)
  | atom (addr : Nat) (op : AtomOp) (ty : IntTy) (val cmp : BitVec 64)
  | atomf (addr : Nat) (op : AtomFOp) (val : BitVec 32)
  | rstf (data : List (Nat × List Byte)) (flag inc : Nat) (wide : Bool)
  | read (addr n : Nat)
  | other
  deriving DecidableEq, Repr

/-- A fabric packet (17 R393): source package, tenant code, sequence number, length in flits, whether its CRC holds. -/
structure FabPacket where
  src : BitVec 10
  tenant : BitVec 5
  seq : BitVec 12
  flits : Nat
  crcOk : Bool
  body : FabBody
  deriving DecidableEq, Repr

/-- PCIe AtomicOps (08 R204, 17 R388). -/
inductive HostAtomOp where
  | fetchAdd | swap | cas
  deriving DecidableEq, Repr

/-- A fault queue (16 R363): a VD's own, or the host's. -/
inductive FltQueue where
  | vd (n : Nat) | host
  deriving DecidableEq, Repr

/-- A register that software writes and that has no row of its own in the table (00 R6, 17 R389, R391): of a VD, of a
context (by selector through its descriptor, or a bucket register, or PRIV of CTX_STATE), of a mill, of the command
processor, of the fabric, of device memory; an entry of a domain's weight table (14 R301); the point that the CP sets
for a shared partition (14 R318, 18 R405); the source of power grants that the fabric manager registers (14 R320); or any register
without write access. -/
inductive RegName where
  | vdSave (vd : Nat) | vdMem (vd : Nat) | vdS2base (vd : Nat) | vdInvaddr (vd : Nat) | vdInvlen (vd : Nat)
  | vdDlog (vd : Nat) | vdDlogHead (vd : Nat) | vdErrq (vd : Nat) | vdErrqHead (vd : Nat)
  | vdBte (vd : Nat) | vdBtesel (vd : Nat) | bktVdRefill (vd : Nat) | bktVdCeil (vd : Nat)
  | vdMtrcfg (vd : Nat) | vdMtrivl (vd : Nat) | vdMtrack (vd : Nat)
  | ctxSel (vd ctx : Nat) (sel : BitVec 12) | ctxPriv (vd ctx : Nat)
  | bktCtxRefill (vd ctx : Nat) | bktCtxCeil (vd ctx : Nat)
  | millJceil (mill : Nat) | millSched (mill : Nat) | millArraywd (mill : Nat) | millSpare (mill : Nat)
  | millMargin (mill : Nat) | millMarginth (mill : Nat)
  | cprQslot (n : Nat) | cprBoot | cprFwaddr
  | fabPsafe | fabPeersel | fabRxq (port : Nat) | fabRxqsel (port : Nat) | fabPkgid | fabGrpsel | fabGrp
  | fabMargin | fabTsync | hbmCmpmeta (n : Nat)
  | weight (dom row cls : Nat) | point (pid : Nat) | grantSource | readOnly
  deriving DecidableEq, Repr

/-- The instructions and steps of the device: one constructor per row of spec/opcode_table.json: instructions, then steps that the engines take by
themselves, then events that the outside brings. -/
inductive Instr where
  | nop (o : OpC)
  | bra (o : OpBranchImm)
  | brc (o : OpBranchImm)
  | brx (o : OpBranchReg)
  | call (o : OpCall)
  | callx (o : OpCallReg)
  | ret (o : OpBranchReg)
  | fspawn (o : OpSpawn)
  | fend (o : OpC)
  | fyield (o : OpC)
  | fid (o : OpFid)
  | barSk (o : OpC)
  | barHk (o : OpC)
  | bara (o : OpBara)
  | barw (o : OpBarw)
  | vote (o : OpVote)
  | shfl (o : OpShfl)
  | shflImm32 (o : OpShflImm)
  | live (o : OpLive)
  | pset (o : OpPset)
  | psetImm32 (o : OpPsetImm)
  | plop (o : OpPlop)
  | pmov (o : OpD)
  | pmovImm32 (o : OpPmovImm)
  | iadd (o : OpInt2)
  | iaddImm32 (o : OpInt2Imm)
  | iadd3 (o : OpInt3)
  | iaddc (o : OpAddc)
  | iaddcImm32 (o : OpAddcImm)
  | isub (o : OpInt2)
  | isubImm32 (o : OpInt2Imm)
  | imul (o : OpInt2)
  | imulImm32 (o : OpInt2Imm)
  | imulh (o : OpInt2)
  | imulhImm32 (o : OpInt2Imm)
  | imad (o : OpInt3)
  | imadImm32 (o : OpInt3Imm)
  | idiv (o : OpInt2)
  | idivImm32 (o : OpInt2Imm)
  | irem (o : OpInt2)
  | iremImm32 (o : OpInt2Imm)
  | imin (o : OpInt2)
  | iminImm32 (o : OpInt2Imm)
  | imax (o : OpInt2)
  | imaxImm32 (o : OpInt2Imm)
  | iabs (o : OpInt1)
  | ineg (o : OpInt1)
  | isad (o : OpInt3)
  | isadImm32 (o : OpInt3Imm)
  | and (o : OpInt2)
  | andImm32 (o : OpInt2Imm)
  | or (o : OpInt2)
  | orImm32 (o : OpInt2Imm)
  | xor (o : OpInt2)
  | xorImm32 (o : OpInt2Imm)
  | not (o : OpInt1)
  | lop3 (o : OpLop3)
  | lop3Imm32 (o : OpLop3Imm)
  | shl (o : OpInt2)
  | shlImm32 (o : OpInt2Imm)
  | shr (o : OpInt2)
  | shrImm32 (o : OpInt2Imm)
  | sra (o : OpInt2)
  | sraImm32 (o : OpInt2Imm)
  | rotl (o : OpInt2)
  | rotlImm32 (o : OpInt2Imm)
  | bfe (o : OpInt2)
  | bfeImm32 (o : OpInt2Imm)
  | bfi (o : OpInt3)
  | bfiImm32 (o : OpInt3Imm)
  | popc (o : OpInt1)
  | clz (o : OpInt1)
  | ctz (o : OpInt1)
  | brev (o : OpInt1)
  | sel (o : OpSel)
  | selImm32 (o : OpSelImm)
  | mov (o : OpInt1)
  | moviImm32 (o : OpMoviImm)
  | moviX64 (o : OpMoviX)
  | movw (o : OpMovw)
  | lea (o : OpLea)
  | leaImm32 (o : OpLeaImm)
  | icmp (o : OpIcmp)
  | icmpImm32 (o : OpIcmpImm)
  | fadd (o : OpF2)
  | faddImm32 (o : OpF2Imm)
  | fsub (o : OpF2)
  | fsubImm32 (o : OpF2Imm)
  | fmul (o : OpF2)
  | fmulImm32 (o : OpF2Imm)
  | ffma (o : OpF3)
  | ffmaImm32 (o : OpF3Imm)
  | fdiv (o : OpF2)
  | fdivImm32 (o : OpF2Imm)
  | fmin (o : OpF2)
  | fminImm32 (o : OpF2Imm)
  | fmax (o : OpF2)
  | fmaxImm32 (o : OpF2Imm)
  | fabs (o : OpF1)
  | fneg (o : OpF1)
  | frcp (o : OpF1)
  | frsq (o : OpF1)
  | fsqrt (o : OpF1)
  | fexp2 (o : OpF1)
  | flog2 (o : OpF1)
  | fsin (o : OpF1)
  | fcos (o : OpF1)
  | frnd (o : OpF1)
  | fcmp (o : OpFcmp)
  | fcmpImm32 (o : OpFcmpImm)
  | fclass (o : OpF1)
  | hadd2 (o : OpP2)
  | hadd2Imm32 (o : OpP2Imm)
  | hmul2 (o : OpP2)
  | hmul2Imm32 (o : OpP2Imm)
  | hfma2 (o : OpP3)
  | hfma2Imm32 (o : OpP3Imm)
  | hmin2 (o : OpP2)
  | hmin2Imm32 (o : OpP2Imm)
  | hmax2 (o : OpP2)
  | hmax2Imm32 (o : OpP2Imm)
  | vadd2 (o : OpP2)
  | vadd2Imm32 (o : OpP2Imm)
  | vsub2 (o : OpP2)
  | vsub2Imm32 (o : OpP2Imm)
  | vmin2 (o : OpP2)
  | vmin2Imm32 (o : OpP2Imm)
  | vmax2 (o : OpP2)
  | vmax2Imm32 (o : OpP2Imm)
  | acs2 (o : OpAcs2)
  | cvt (o : OpCvt)
  | cvtb (o : OpCvtb)
  | ld (o : OpLoad)
  | ldImm32 (o : OpLoadImm)
  | st (o : OpStore)
  | stImm32 (o : OpStoreImm)
  | lds (o : OpLoad)
  | ldsImm32 (o : OpLoadImm)
  | sts (o : OpStore)
  | stsImm32 (o : OpStoreImm)
  | ldc (o : OpLoad)
  | ldcImm32 (o : OpLoadImm)
  | atom (o : OpAtom)
  | atomImm32 (o : OpAtomImm)
  | atomf (o : OpAtomf)
  | atomfImm32 (o : OpAtomfImm)
  | red (o : OpRed)
  | redImm32 (o : OpRedImm)
  | pft (o : OpPft)
  | cctl (o : OpCctl)
  | cctlImm32 (o : OpCctlImm)
  | cpin (o : OpPin)
  | cpinImm32 (o : OpPinImm)
  | cunpin (o : OpPin)
  | cunpinImm32 (o : OpPinImm)
  | icinv (o : OpIcinv)
  | icinvImm32 (o : OpIcinvImm)
  | tld (o : OpTileXfer)
  | tst (o : OpTileXfer)
  | tzero (o : OpTzero)
  | tmov (o : OpTmov)
  | tmma (o : OpTmma)
  | ald (o : OpAccXfer)
  | ast (o : OpAccXfer)
  | aclr (o : OpAclr)
  | acvt (o : OpAcvt)
  | afrag (o : OpAfrag)
  | wld (o : OpWld)
  | wlatch (o : OpWlatch)
  | sbuild (o : OpSbuild)
  | sstep (o : OpSstep)
  | slut (o : OpSlut)
  | sdrain (o : OpSdrain)
  | sclass (o : OpSclass)
  | qput (o : OpQput)
  | cwait (o : OpCwait)
  | ctest (o : OpCwait)
  | sleep (o : OpSleep)
  | sleepuntil (o : OpSleep)
  | fence (o : OpFence)
  | fencex (o : OpFencex)
  | ldaq (o : OpLdaq)
  | ldaqImm32 (o : OpLdaqImm)
  | strl (o : OpStrl)
  | strlImm32 (o : OpStrlImm)
  | rstf (o : OpRstf)
  | ratom (o : OpRatom)
  | publish (o : OpA)
  | launch (o : OpLaunch)
  | feedput (o : OpQput)
  | feedpop (o : OpFeedpop)
  | idem (o : OpD)
  | commit (o : OpC)
  | jread (o : OpJread)
  | opreq (o : OpDA)
  | trap (o : OpTrap)
  | ebrk (o : OpC)
  | tret (o : OpTret)
  | sysrd (o : OpSysrd)
  | syswr (o : OpSyswr)
  | tlbinv (o : OpTlbinv)
  | ramode (o : OpRamode)
  | loadDataReturn (id : Nat) (lanes : List Nat)
  | writeComplete (id : Nat) (lanes : List Nat)
  | globallyComplete (strand : Nat)
  | cacheOpComplete (id : Nat)
  | arTransferComplete (id : Nat)
  | fairnessPromotion (spindle : Nat)
  | runaheadEntry (strand : Nat)
  | runaheadExit (strand : Nat)
  | sleepWake (strand : Nat)
  | sleepuntilWake (strand : Nat)
  | cwaitSatisfied (strand : Nat)
  | feedpopReissue (strand : Nat)
  | arrayStep (spindle : Nat)
  | skeinRetire (skein : Nat)
  | slotConsume (slot : Nat)
  | copy (pkt chunk : Nat)
  | copyArray (pkt chunk : Nat)
  | followOnArrayCommand (pkt : Nat)
  | gather (pkt chunk : Nat)
  | fill (pkt chunk : Nat)
  | decomp (pkt chunk : Nat)
  | remoteCopy (pkt chunk : Nat)
  | signal (pkt : Nat)
  | waitSatisfied (slot : Nat)
  | halt (hank : Nat)
  | resume (hank : Nat)
  | tickClose (em : List (Option Nat))
  | readingForm (vd : Nat)
  | voltageStepEnd (pid : Nat)
  | frequencyStepEnd (pid : Nat)
  | invalidationComplete (inv : Nat)
  | arrayWatchdog (spindle : Nat)
  | uncorrectableError (err : ErrSite)
  | correctedError (err : ErrSite)
  | parityCommit (stripe : Nat)
  | shrinkComplete (vd : Nat)
  | pinwinComplete (vd win : Nat)
  | cmpwinZeroComplete (win : Nat)
  | fabricReplayTimeout (port tenant : Nat)
  | schedulerRun
  | grantLapse
  | relevelComplete
  | registerFill (skein block quad : Nat)
  | launchPacket (slot : Nat)
  | feedPacket (slot : Nat)
  | ib (slot : Nat)
  | waitPacket (slot : Nat)
  | cprPreemptGo (value : BitVec 64)
  | powerGrant (source : BitVec 10) (flit : List Byte)
  | vdOpreq (vd : Nat) (value : BitVec 64)
  | millOpcap (mill : Nat) (value : BitVec 64)
  | millOpfloor (mill : Nat) (value : BitVec 64)
  | vdOpallow (vd : Nat) (value : BitVec 64)
  | millPart (mill : Nat) (value : BitVec 64)
  | supplyDroop (region : Region)
  | marginWarning (region : Region)
  | powerOnReset (boot : BootInput)
  | deviceReset (boot : BootInput)
  | cpReset (boot : BootInput)
  | cpWatchdog
  | tsyncLost
  | fabricPacketReceive (port : Nat) (pkt : FabPacket)
  | fabricNack (port tenant : Nat) (seq : BitVec 12)
  | fabricAck (port tenant : Nat) (seq : BitVec 12)
  | coherenceInvalidate (line : Nat)
  | backInvalidation (line : Nat)
  | switchFailure (lines : List Nat)
  | homeonlyClear (value : BitVec 64)
  | capabilityAdvertise (pkg : BitVec 10) (schemes : Option (BitVec 8))
  | vdInvcmdGo (vd : Nat) (value : BitVec 64)
  | vdRunGo (vd : Nat) (value : BitVec 64)
  | vdFltres (vd : Nat) (value : BitVec 64)
  | cprHfltres (value : BitVec 64)
  | faultQueueHead (queue : FltQueue) (base : Bool) (value : BitVec 64)
  | thawResume (value : BitVec 64)
  | thawEnd (value : BitVec 64)
  | cprQkick (value : BitVec 64)
  | cprAreset (value : BitVec 64)
  | spindleLost (spindle : Nat)
  | millEinj (mill : Nat) (value : BitVec 64)
  | stackLost (stack : Nat)
  | hbmRelevelGo (value : BitVec 64)
  | hbmCmpwin (win : Nat) (value : BitVec 64)
  | vdL2share (vd : Nat) (value : BitVec 64)
  | vdPinwin (vd win : Nat) (value : BitVec 64)
  | contextCreate (vd ctx : Nat)
  | contextEnd (vd ctx : Nat)
  | bktAdj (vd : Nat) (ctx : Option Nat) (delta : BitVec 64)
  | ctxSchedWeight (vd ctx : Nat) (value : BitVec 64)
  | ldBind (ld : Nat)
  | ldUnbind (ld : Nat)
  | hostAtomic (op : HostAtomOp) (addr : Nat) (wide : Bool) (val cmp : BitVec 64)
  | hostMemoryAccess (addr : Nat) (write : Option (List Byte))
  | registerWrite (reg : RegName) (value : BitVec 64) (fm : Bool)
  | portDegrade (port : Nat) (lanes : BitVec 4)
  | powerLoss
  | droopPasses (region : Region)
  | podTimebaseMessage (gtb : BitVec 64)
  deriving DecidableEq, Repr

end Sys2Proof
end

