-- ==== Sys2Proof/WellFormed.lean ====
section
/-! DEFINITION. Which instruction terms stand for an instruction word: the operand types of Syntax leave out most reserved
values already; Instr.wf says the rest (fields that one form of a shared operand shape does not use, and values that
05_encoding and the instruction chapters reserve). Events of the machine (rows 202 to 299) are no words and are all well formed. -/
namespace Sys2Proof

/-- A source field that is res0 (R119). -/
def Src.unused (s : Src) : Bool := s.reg == 0 && !s.last

/-- Conversions that R104 makes exact: any integer to any integer, a float to itself or to f32 (R191). -/
def Fmt.isFloat : Fmt → Bool
  | .f16 | .bf16 | .f32 => true
  | _ => false

/-- A conversion whose RM must be 0 (R137, R191). -/
def cvtExact (dst src : Fmt) : Bool :=
  if dst.isFloat then src.isFloat && (src == dst || dst == .f32) else !src.isFloat

/-- TY of 64 bits (R136). -/
def IntTy.wide : IntTy → Bool
  | .s64 | .z64 => true
  | _ => false

/-- Selectors of SYSRD (R263, R391): every register it lists, readable by someone. (DEDUCED, log 11.) -/
def selReadable (sel : BitVec 12) : Bool :=
  decide (sel.toNat ≤ 0x13) || (decide (0x100 ≤ sel.toNat) && decide (sel.toNat ≤ 0x103)) ||
    (decide (0x200 ≤ sel.toNat) && decide (sel.toNat ≤ 0x204))

/-- Selectors that someone may write (R263): CTX_FPCTL, CTX_PIN, trap EPC, CTX_TVEC, 0x100 to 0x103, CTX_LEASE,
CTX_SCHED, CTX_SAVE, CTX_PTBASE. CTX_VJ is read only (R333). -/
def selWritable (sel : BitVec 12) : Bool :=
  [0x001, 0x00D, 0x010, 0x011, 0x100, 0x101, 0x102, 0x103, 0x200, 0x201, 0x203, 0x204].contains sel.toNat

def OpInt1.wf (sat : Bool) (o : OpInt1) : Bool := sat || !o.sat
def OpInt2.wf (sat : Bool) (o : OpInt2) : Bool := sat || !o.sat
def OpInt2Imm.wf (sat : Bool) (o : OpInt2Imm) : Bool := sat || !o.sat
def OpInt3.wf (sat : Bool) (o : OpInt3) : Bool := sat || !o.sat
def OpInt3Imm.wf (sat : Bool) (o : OpInt3Imm) : Bool := sat || !o.sat

/-- R182: which of RM and NEGA a one-source float instruction uses. -/
def OpF1.wf (rm : Bool) (o : OpF1) : Bool := rm || (o.rm == .rne && !o.na)
def OpF2.wf (rm : Bool) (o : OpF2) : Bool := rm || o.rm == .rne
def OpF2Imm.wf (rm : Bool) (o : OpF2Imm) : Bool := rm || o.rm == .rne
/-- R136, R189: RM is res0 in the V forms, SATV outside VADD2 and VSUB2. -/
def OpP2.wf (rm sat : Bool) (o : OpP2) : Bool := (rm || o.rm == .rne) && (sat || !o.sat)
def OpP2Imm.wf (rm sat : Bool) (o : OpP2Imm) : Bool := (rm || o.rm == .rne) && (sat || !o.sat)

/-- R193: EP and NOAL are res0 in LDS and STS. -/
def OpLoad.wf (hint : Bool) (o : OpLoad) : Bool := hint || (o.ep == .normal && !o.noal)
def OpLoadImm.wf (hint : Bool) (o : OpLoadImm) : Bool := hint || (o.ep == .normal && !o.noal)
def OpStore.wf (hint : Bool) (o : OpStore) : Bool := hint || (o.ep == .normal && !o.noal)
def OpStoreImm.wf (hint : Bool) (o : OpStoreImm) : Bool := hint || (o.ep == .normal && !o.noal)

/-- R201: C and LC serve CAS only. -/
def OpAtom.wf (o : OpAtom) : Bool := o.op == .cas || o.x.unused
def OpAtomImm.wf (o : OpAtomImm) : Bool := o.op == .cas || o.x.unused
def OpRatom.wf (o : OpRatom) : Bool := o.op == .cas || o.x.unused
/-- R201: EXCH and CAS are reserved in RED. -/
def RedOp.wf : RedOp → Bool
  | .int .exch _ => false
  | .int .cas _ => false
  | _ => true

/-- R156: K at most 32; with K = 0, B and LB are res0. -/
def OpSpawn.wf (o : OpSpawn) : Bool := decide (o.k.toNat ≤ 32) && (o.k != 0 || o.b.unused)

/-- R163: D is a predicate field but in BALLOT; A is used by EQ only; PS and PN by the others. -/
def OpVote.wf (o : OpVote) : Bool :=
  (o.mode == .ballot || decide (o.d.toNat < 16)) &&
    (if o.mode == .eq then o.ps == 0 && !o.pn else o.a.unused)

/-- R176: with w = 32 only quarters 0 and 1. -/
def OpMovw.wf (o : OpMovw) : Bool := o.ty.wide || decide (o.k.toNat < 2)

/-- R137, R191. -/
def OpCvt.wf (o : OpCvt) : Bool :=
  (!cvtExact o.dst o.src || o.rm == .rne) && (!o.sat || (!o.dst.isFloat && !o.src.isFloat))

/-- R95: BW 7 is reserved. -/
def bwOk (bw : BitVec 3) : Bool := bw != 7

/-- R214: EP and NOAL are res0 with SP = 1. -/
def OpTileXfer.wf (o : OpTileXfer) : Bool := !o.sp || (o.ep == .normal && !o.noal)
def OpAccXfer.wf (o : OpAccXfer) : Bool := !o.sp || (o.ep == .normal && !o.noal)

/-- R264: the page form names A, the range form A and B, the all form neither. -/
def OpTlbinv.wf (o : OpTlbinv) : Bool :=
  match o.kind with
  | .page => o.b.unused
  | .range => true
  | .all => o.a.unused && o.b.unused

/-- R243, R244: B only with MON or CHK. -/
def OpSleep.wf (o : OpSleep) : Bool := o.flag || o.b.unused

/-- Well-formed instruction terms. -/
def Instr.wf : Instr → Bool
  | .nop o => o.c.setf == 0
  | .fyield o => o.c.setf == 0
  | .fspawn o => o.wf
  | .vote o => o.wf
  | .iadd o => o.wf true
  | .iaddImm32 o => o.wf true
  | .iadd3 o => o.wf true
  | .isub o => o.wf true
  | .isubImm32 o => o.wf true
  | .imul o => o.wf true
  | .imulImm32 o => o.wf true
  | .imulh o => o.wf false
  | .imulhImm32 o => o.wf false
  | .imad o => o.wf true
  | .imadImm32 o => o.wf true
  | .idiv o => o.wf true
  | .idivImm32 o => o.wf true
  | .irem o => o.wf false
  | .iremImm32 o => o.wf false
  | .imin o => o.wf false
  | .iminImm32 o => o.wf false
  | .imax o => o.wf false
  | .imaxImm32 o => o.wf false
  | .iabs o => o.wf true
  | .ineg o => o.wf true
  | .isad o => o.wf false
  | .isadImm32 o => o.wf false
  | .and o => o.wf false
  | .andImm32 o => o.wf false
  | .or o => o.wf false
  | .orImm32 o => o.wf false
  | .xor o => o.wf false
  | .xorImm32 o => o.wf false
  | .not o => o.wf false
  | .shl o => o.wf false
  | .shlImm32 o => o.wf false
  | .shr o => o.wf false
  | .shrImm32 o => o.wf false
  | .sra o => o.wf false
  | .sraImm32 o => o.wf false
  | .rotl o => o.wf false
  | .rotlImm32 o => o.wf false
  | .bfe o => o.wf false
  | .bfeImm32 o => o.wf false
  | .bfi o => o.wf false
  | .bfiImm32 o => o.wf false
  | .popc o => o.wf false
  | .clz o => o.wf false
  | .ctz o => o.wf false
  | .brev o => o.wf false
  | .mov o => o.wf false
  | .movw o => o.wf
  | .fmin o => o.wf false
  | .fminImm32 o => o.wf false
  | .fmax o => o.wf false
  | .fmaxImm32 o => o.wf false
  | .fabs o => o.wf false
  | .fneg o => o.wf false
  | .fclass o => o.wf false
  | .hadd2 o => o.wf true false
  | .hadd2Imm32 o => o.wf true false
  | .hmul2 o => o.wf true false
  | .hmul2Imm32 o => o.wf true false
  | .hmin2 o => o.wf true false
  | .hmin2Imm32 o => o.wf true false
  | .hmax2 o => o.wf true false
  | .hmax2Imm32 o => o.wf true false
  | .vadd2 o => o.wf false true
  | .vadd2Imm32 o => o.wf false true
  | .vsub2 o => o.wf false true
  | .vsub2Imm32 o => o.wf false true
  | .vmin2 o => o.wf false false
  | .vmin2Imm32 o => o.wf false false
  | .vmax2 o => o.wf false false
  | .vmax2Imm32 o => o.wf false false
  | .cvt o => o.wf
  | .cvtb o => bwOk o.bw
  | .lds o => o.wf false
  | .ldsImm32 o => o.wf false
  | .sts o => o.wf false
  | .stsImm32 o => o.wf false
  | .atom o => o.wf
  | .atomImm32 o => o.wf
  | .ratom o => o.wf
  | .red o => o.op.wf
  | .redImm32 o => o.op.wf
  | .tld o => o.wf
  | .tst o => o.wf
  | .ald o => o.wf
  | .ast o => o.wf
  | .aclr o => !o.all || o.d == 0
  | .wlatch o => bwOk o.bw
  | .sbuild o => bwOk o.bw
  | .sstep o => bwOk o.abw
  | .sdrain o => o.ofmt != .f32 || o.rm == .rne
  | .sclass o => decide (o.wg.toNat ≤ 16)
  | .sleep o => o.wf
  | .sleepuntil o => o.wf
  | .fencex o => o.src != 0 && o.dst != 0
  | .sysrd o => selReadable o.sel
  | .syswr o => selWritable o.sel
  | .tlbinv o => o.wf
  | _ => true

end Sys2Proof
end

