-- ==== Sys2Proof/Decode.lean ====
section
/-! DEFINITION. The words of instructions (05_encoding R116 to R121, R134 to R139, and the encoding tables of the
instruction chapters): the fields of a word, the encoder, and the decoder. The decoder is total. It finds the row of the
grid of R134 by (OP, LEN), reads the operands, and refuses by name in the order of R132: a pair the grid does not mark
(ILLEGAL-OPCODE); a privileged form without privilege; a word that differs from the encoding of what was read outside FN
(RESERVED-BIT: an unused field, last-use bit, pad, extension bit or upper bit of a short field); one that differs in FN
(RESERVED-FN: a reserved value or an undefined FN bit). The checks that need the clause header or W (FLAG-SLOT,
REGISTER-PAIR, WINDOW-RANGE) are made at issue. -/
namespace Sys2Proof

/- Codes of the enumerated fields. -/
def tyCode : IntTy → BitVec 2
  | .s32 => 0 | .z32 => 1 | .s64 => 2 | .z64 => 3
def tyOf (v : BitVec 2) : IntTy := if v = 0 then .s32 else if v = 1 then .z32 else if v = 2 then .s64 else .z64
def rmCode : Rm → BitVec 3
  | .rne => 0 | .rtz => 1 | .rup => 2 | .rdn => 3 | .dyn => 7
/-- R98; 4 to 6 are reserved and read as 0, so that they differ from the encoding. -/
def rmOf (v : BitVec 3) : Rm := if v = 1 then .rtz else if v = 2 then .rup else if v = 3 then .rdn else if v = 7 then .dyn else .rne
def fmtCode : Fmt → BitVec 4
  | .z8 => 0 | .s8 => 1 | .z16 => 2 | .s16 => 3 | .z32 => 4 | .s32 => 5 | .z64 => 6 | .s64 => 7 | .f16 => 8 | .bf16 => 9 | .f32 => 10
def fmtOf (v : BitVec 4) : Fmt :=
  if v = 1 then .s8 else if v = 2 then .z16 else if v = 3 then .s16 else if v = 4 then .z32 else if v = 5 then .s32
  else if v = 6 then .z64 else if v = 7 then .s64 else if v = 8 then .f16 else if v = 9 then .bf16 else if v = 10 then .f32 else .z8
def epCode : Ep → BitVec 2
  | .normal => 0 | .first => 1 | .last => 2
def epOf (v : BitVec 2) : Ep := if v = 1 then .first else if v = 2 then .last else .normal
def scCode : Scope → BitVec 3
  | .skein => 0 | .hank => 1 | .device => 2 | .group => 3 | .system => 4
def scOf (v : BitVec 3) : Scope :=
  if v = 1 then .hank else if v = 2 then .device else if v = 3 then .group else if v = 4 then .system else .skein
def ordCode : MemOrd → BitVec 2
  | .relaxed => 0 | .acquire => 1 | .release => 2 | .acqRel => 3
def ordOf (v : BitVec 2) : MemOrd := if v = 0 then .relaxed else if v = 1 then .acquire else if v = 2 then .release else .acqRel
def aopCode : AtomOp → BitVec 4
  | .add => 0 | .min => 1 | .max => 2 | .and => 3 | .or => 4 | .xor => 5 | .exch => 6 | .cas => 7 | .inc => 8 | .dec => 9
def aopOf (v : BitVec 4) : AtomOp :=
  if v = 1 then .min else if v = 2 then .max else if v = 3 then .and else if v = 4 then .or else if v = 5 then .xor
  else if v = 6 then .exch else if v = 7 then .cas else if v = 8 then .inc else if v = 9 then .dec else .add
def afopCode : AtomFOp → BitVec 4
  | .fadd => 0 | .fmin => 1 | .fmax => 2 | .hadd2 => 3 | .hadd2bf => 4
def afopOf (v : BitVec 4) : AtomFOp :=
  if v = 1 then .fmin else if v = 2 then .fmax else if v = 3 then .hadd2 else if v = 4 then .hadd2bf else .fadd
def condCode : Cond → BitVec 4
  | .eq => 0 | .ne => 1 | .lt => 2 | .le => 3 | .gt => 4 | .ge => 5
def condOf (v : BitVec 4) : Cond :=
  if v = 1 then .ne else if v = 2 then .lt else if v = 3 then .le else if v = 4 then .gt else if v = 5 then .ge else .eq
def combCode : Comb → BitVec 2
  | .set => 0 | .and => 1 | .or => 2
def combOf (v : BitVec 2) : Comb := if v = 1 then .and else if v = 2 then .or else .set
def fcondCode : FCond → BitVec 4
  | .eq => 0 | .ne => 1 | .lt => 2 | .le => 3 | .gt => 4 | .ge => 5 | .ltq => 6 | .leq => 7 | .gtq => 8 | .geq => 9 | .un => 10 | .ord => 11
def fcondOf (v : BitVec 4) : FCond :=
  if v = 1 then .ne else if v = 2 then .lt else if v = 3 then .le else if v = 4 then .gt else if v = 5 then .ge
  else if v = 6 then .ltq else if v = 7 then .leq else if v = 8 then .gtq else if v = 9 then .geq else if v = 10 then .un
  else if v = 11 then .ord else .eq
def voteCode : VoteMode → BitVec 2
  | .all => 0 | .any => 1 | .eq => 2 | .ballot => 3
def voteOf (v : BitVec 2) : VoteMode := if v = 0 then .all else if v = 1 then .any else if v = 2 then .eq else .ballot
def shflCode : ShflMode → BitVec 2
  | .idx => 0 | .up => 1 | .down => 2 | .xor => 3
def shflOf (v : BitVec 2) : ShflMode := if v = 0 then .idx else if v = 1 then .up else if v = 2 then .down else .xor
def fidCode : FidSel → BitVec 4
  | .fibre => 0 | .rank => 1 | .skeins => 2 | .hank => 3 | .hanks => 4 | .spindle => 5 | .frame => 6 | .mill => 7 | .slot => 8
  | .fmax => 9 | .window => 10 | .package => 11
def fidOf (v : BitVec 4) : FidSel :=
  if v = 1 then .rank else if v = 2 then .skeins else if v = 3 then .hank else if v = 4 then .hanks else if v = 5 then .spindle
  else if v = 6 then .frame else if v = 7 then .mill else if v = 8 then .slot else if v = 9 then .fmax else if v = 10 then .window
  else if v = 11 then .package else .fibre
def drainCode : DrainFmt → BitVec 2
  | .f32 => 0 | .f16 => 1 | .bf16 => 2
def drainOf (v : BitVec 2) : DrainFmt := if v = 1 then .f16 else if v = 2 then .bf16 else .f32
def jselCode : JSel → BitVec 2
  | .acc => 0 | .mlo => 1 | .mhi => 2 | .bkt => 3
def jselOf (v : BitVec 2) : JSel := if v = 0 then .acc else if v = 1 then .mlo else if v = 2 then .mhi else .bkt
def invCode : InvKind → BitVec 3
  | .page => 0 | .range => 1 | .all => 2
def invOf (v : BitVec 3) : InvKind := if v = 0 then .page else if v = 1 then .range else .all
/-- COP of CCTL (R206). -/
def copCode : CctlOp → BitVec 3
  | .wb => 0 | .invl1 => 1 | .wbinv => 2 | .pri _ => 3
def epvCode : CctlOp → BitVec 2
  | .pri e => epCode e
  | _ => 0
def copOf (v : BitVec 3) (e : BitVec 2) : CctlOp :=
  if v = 1 then .invl1 else if v = 2 then .wbinv else if v = 3 then .pri (epOf e) else .wb

/-- A Bool as one bit. -/
def bit (b : Bool) : BitVec 1 := BitVec.ofBool b

/-- A base word with OP, LEN, GUARD and SETF, all else zero (R118). -/
def rawBase (op : BitVec 8) (len : BitVec 2) (c : Ctl) : Raw :=
  { fn := 0, c := 0, lc := false, lb := false, la := false, b := 0, a := 0, d := 0,
    setf := c.setf, guard := c.guard, op := op, len := len, ext := 0 }

def Raw.setA (r : Raw) (s : Src) : Raw := { r with a := s.reg, la := s.last }
def Raw.setB (r : Raw) (s : Src) : Raw := { r with b := s.reg, lb := s.last }
def Raw.setC (r : Raw) (s : Src) : Raw := { r with c := s.reg, lc := s.last }
def Raw.setD (r : Raw) (d : Field8) : Raw := { r with d := d }
def Raw.setFn (r : Raw) (fn : BitVec 12) : Raw := { r with fn := fn }
/-- IMM32 in bits 95:64; the pad is zero (R116, R120). -/
def Raw.setImm (r : Raw) (imm : BitVec 32) : Raw := { r with ext := (0#32 ++ imm : BitVec 64) }
def Raw.setX (r : Raw) (x : BitVec 64) : Raw := { r with ext := x }

def Raw.ctl (r : Raw) : Ctl := { guard := r.guard, setf := r.setf }
def Raw.srcA (r : Raw) : Src := { reg := r.a, last := r.la }
def Raw.srcB (r : Raw) : Src := { reg := r.b, last := r.lb }
def Raw.srcC (r : Raw) : Src := { reg := r.c, last := r.lc }
def Raw.imm (r : Raw) : BitVec 32 := r.ext.extractLsb' 0 32
/-- FN bits lo + n − 1 to lo. -/
def Raw.f (r : Raw) (lo n : Nat) : BitVec n := r.fn.extractLsb' lo n
def Raw.fb (r : Raw) (i : Nat) : Bool := r.fn.getLsbD i
/-- Extension bits lo + n − 1 to lo. -/
def Raw.x (r : Raw) (lo n : Nat) : BitVec n := r.ext.extractLsb' lo n
def Raw.xb (r : Raw) (i : Nat) : Bool := r.ext.getLsbD i
/-- A short register field: its low bits (R71). -/
def low4 (v : Field8) : BitVec 4 := v.extractLsb' 0 4
def low3 (v : Field8) : BitVec 3 := v.extractLsb' 0 3
def up4 (v : BitVec 4) : Field8 := (0#4 ++ v : BitVec 8)
def up3 (v : BitVec 3) : Field8 := (0#5 ++ v : BitVec 8)

/-- C and CI of an integer instruction (R73, R136). -/
def Raw.setCS (r : Raw) : CSrc → Raw
  | .reg s => r.setC s
  | .imm v => { r with c := v }
def csImm : CSrc → Bool
  | .reg _ => false
  | .imm _ => true
def Raw.getCS (r : Raw) : CSrc := if r.fb 2 then .imm r.c else .reg r.srcC

/-- FN of the integer family (R136). -/
def intFn (opx : BitVec 8) (sat ci : Bool) (ty : IntTy) : BitVec 12 := (opx ++ bit sat ++ bit ci ++ tyCode ty : BitVec 12)
def Raw.ty (r : Raw) : IntTy := tyOf (r.f 0 2)
/-- FN of the float family (R136). -/
def fltFn (opx : BitVec 6) (nc nb na : Bool) (rm : BitVec 3) : BitVec 12 := (opx ++ bit nc ++ bit nb ++ bit na ++ rm : BitVec 12)
/-- FN of the packed family (R136). -/
def pkFn (sat pt : Bool) (rm : Rm) : BitVec 12 := (0#7 ++ bit sat ++ bit pt ++ rmCode rm : BitVec 12)
/-- FN of the memory family (R136). -/
def memFn (sc : BitVec 3) (noal : Bool) (ep : Ep) (f : Fmt) : BitVec 12 := (0#2 ++ sc ++ bit noal ++ epCode ep ++ fmtCode f : BitVec 12)
/-- FN of the atomics (R201). -/
def atomFn (fl : Bool) (o : MemOrd) (sc : Scope) (ty : BitVec 2) (aop : BitVec 4) : BitVec 12 :=
  (bit fl ++ ordCode o ++ scCode sc ++ ty ++ aop : BitVec 12)

/- Operand shapes: what each writes into a word, and how it is read back. -/

def encC (op : BitVec 8) (o : OpC) : Raw := rawBase op 1 o.c
def getC (r : Raw) : OpC := { c := r.ctl }
/-- R139, R159: SETF is res0 too. -/
def getC0 (r : Raw) : OpC := { c := { guard := r.guard, setf := 0 } }

def encBranchImm (op : BitVec 8) (o : OpBranchImm) : Raw := (rawBase op 2 o.c).setImm o.imm
def getBranchImm (r : Raw) : OpBranchImm := { c := r.ctl, imm := r.imm }

def encCall (op : BitVec 8) (o : OpCall) : Raw := ((rawBase op 2 o.c).setD o.d).setImm o.imm
def getCall (r : Raw) : OpCall := { c := r.ctl, d := r.d, imm := r.imm }

def encBranchReg (op : BitVec 8) (o : OpBranchReg) : Raw := (rawBase op 1 o.c).setA o.a
def getBranchReg (r : Raw) : OpBranchReg := { c := r.ctl, a := r.srcA }

def encCallReg (op : BitVec 8) (o : OpCallReg) : Raw := ((rawBase op 1 o.c).setD o.d).setA o.a
def getCallReg (r : Raw) : OpCallReg := { c := r.ctl, d := r.d, a := r.srcA }

def encSpawn (op : BitVec 8) (o : OpSpawn) : Raw :=
  (((((rawBase op 2 o.c).setD o.d).setA o.a).setB o.b).setFn (0#6 ++ o.k : BitVec 12)).setImm o.imm
/-- R156: a K above 32 reads as 32, with K = 0 the B field is not used. -/
def getSpawn (r : Raw) : OpSpawn :=
  { c := r.ctl, d := r.d, a := r.srcA, b := if r.f 0 6 = 0#6 then { reg := 0, last := false } else r.srcB,
    k := if (r.f 0 6).toNat ≤ 32 then r.f 0 6 else 32, imm := r.imm }

def encFid (op : BitVec 8) (o : OpFid) : Raw := ((rawBase op 1 o.c).setD o.d).setFn (0#8 ++ fidCode o.sel : BitVec 12)
def getFid (r : Raw) : OpFid := { c := r.ctl, d := r.d, sel := fidOf (r.f 0 4) }

def encBara (op : BitVec 8) (o : OpBara) : Raw := ((rawBase op 1 o.c).setD o.d).setFn (0#11 ++ bit o.hank : BitVec 12)
def getBara (r : Raw) : OpBara := { c := r.ctl, d := r.d, hank := r.fb 0 }

def encBarw (op : BitVec 8) (o : OpBarw) : Raw := ((rawBase op 1 o.c).setA o.a).setFn (0#11 ++ bit o.hank : BitVec 12)
def getBarw (r : Raw) : OpBarw := { c := r.ctl, a := r.srcA, hank := r.fb 0 }

def encVote (op : BitVec 8) (o : OpVote) : Raw :=
  (((rawBase op 1 o.c).setD o.d).setA o.a).setFn (0#5 ++ bit o.pn ++ o.ps ++ voteCode o.mode : BitVec 12)
/-- R163: by MODE, D is a predicate or a register, A is used or not, PS and PN are used or not. -/
def getVote (r : Raw) : OpVote :=
  let m := voteOf (r.f 0 2)
  { c := r.ctl, mode := m, d := if m = .ballot then r.d else up4 (low4 r.d),
    a := if m = .eq then r.srcA else { reg := 0, last := false },
    ps := if m = .eq then 0 else r.f 2 4, pn := m ≠ .eq && r.fb 6 }

def encShfl (op : BitVec 8) (o : OpShfl) : Raw :=
  ((((rawBase op 1 o.c).setD o.d).setA o.a).setB o.b).setFn (0#6 ++ o.pv ++ shflCode o.mode : BitVec 12)
def getShfl (r : Raw) : OpShfl := { c := r.ctl, d := r.d, a := r.srcA, b := r.srcB, mode := shflOf (r.f 0 2), pv := r.f 2 4 }
def encShflImm (op : BitVec 8) (o : OpShflImm) : Raw :=
  ((((rawBase op 2 o.c).setD o.d).setA o.a).setFn (0#6 ++ o.pv ++ shflCode o.mode : BitVec 12)).setImm o.imm
def getShflImm (r : Raw) : OpShflImm := { c := r.ctl, d := r.d, a := r.srcA, imm := r.imm, mode := shflOf (r.f 0 2), pv := r.f 2 4 }

def encLive (op : BitVec 8) (o : OpLive) : Raw := (rawBase op 3 o.c).setX (0#16 ++ o.mask : BitVec 64)
def getLive (r : Raw) : OpLive := { c := r.ctl, mask := r.x 0 48 }

def encPset (op : BitVec 8) (o : OpPset) : Raw := ((rawBase op 1 o.c).setA o.a).setB o.b
def getPset (r : Raw) : OpPset := { c := r.ctl, a := r.srcA, b := r.srcB }
def encPsetImm (op : BitVec 8) (o : OpPsetImm) : Raw := ((rawBase op 2 o.c).setA o.a).setImm (0#17 ++ o.mask : BitVec 32)
def getPsetImm (r : Raw) : OpPsetImm := { c := r.ctl, a := r.srcA, mask := r.x 0 15 }

def encD (op : BitVec 8) (o : OpD) : Raw := (rawBase op 1 o.c).setD o.d
def getD (r : Raw) : OpD := { c := r.ctl, d := r.d }

def encPmovImm (op : BitVec 8) (o : OpPmovImm) : Raw :=
  (rawBase op 2 o.c).setImm (0#1 ++ o.mask ++ 0#1 ++ o.val : BitVec 32)
def getPmovImm (r : Raw) : OpPmovImm := { c := r.ctl, val := r.x 0 15, mask := r.x 16 15 }

def encPlop (op : BitVec 8) (o : OpPlop) : Raw :=
  { rawBase op 1 o.c with d := up4 o.d, a := up4 o.a, b := up4 o.b, c := up4 o.x, fn := (0#4 ++ o.lut : BitVec 12) }
def getPlop (r : Raw) : OpPlop := { c := r.ctl, d := low4 r.d, a := low4 r.a, b := low4 r.b, x := low4 r.c, lut := r.f 0 8 }

def encInt1 (op : BitVec 8) (o : OpInt1) : Raw := (((rawBase op 1 o.c).setD o.d).setA o.a).setFn (intFn 0 o.sat false o.ty)
def getInt1 (sat : Bool) (r : Raw) : OpInt1 := { c := r.ctl, d := r.d, a := r.srcA, ty := r.ty, sat := sat && r.fb 3 }
def encInt2 (op : BitVec 8) (o : OpInt2) : Raw :=
  ((((rawBase op 1 o.c).setD o.d).setA o.a).setB o.b).setFn (intFn 0 o.sat false o.ty)
def getInt2 (sat : Bool) (r : Raw) : OpInt2 := { c := r.ctl, d := r.d, a := r.srcA, b := r.srcB, ty := r.ty, sat := sat && r.fb 3 }
def encInt2Imm (op : BitVec 8) (o : OpInt2Imm) : Raw :=
  ((((rawBase op 2 o.c).setD o.d).setA o.a).setFn (intFn 0 o.sat false o.ty)).setImm o.imm
def getInt2Imm (sat : Bool) (r : Raw) : OpInt2Imm := { c := r.ctl, d := r.d, a := r.srcA, imm := r.imm, ty := r.ty, sat := sat && r.fb 3 }
def encInt3 (op : BitVec 8) (o : OpInt3) : Raw :=
  (((((rawBase op 1 o.c).setD o.d).setA o.a).setB o.b).setCS o.x).setFn (intFn 0 o.sat (csImm o.x) o.ty)
def getInt3 (sat : Bool) (r : Raw) : OpInt3 :=
  { c := r.ctl, d := r.d, a := r.srcA, b := r.srcB, x := r.getCS, ty := r.ty, sat := sat && r.fb 3 }
def encInt3Imm (op : BitVec 8) (o : OpInt3Imm) : Raw :=
  (((((rawBase op 2 o.c).setD o.d).setA o.a).setCS o.x).setFn (intFn 0 o.sat (csImm o.x) o.ty)).setImm o.imm
def getInt3Imm (sat : Bool) (r : Raw) : OpInt3Imm :=
  { c := r.ctl, d := r.d, a := r.srcA, imm := r.imm, x := r.getCS, ty := r.ty, sat := sat && r.fb 3 }

def encLop3 (op : BitVec 8) (o : OpLop3) : Raw :=
  (((((rawBase op 1 o.c).setD o.d).setA o.a).setB o.b).setCS o.x).setFn (intFn o.lut false (csImm o.x) o.ty)
def getLop3 (r : Raw) : OpLop3 := { c := r.ctl, d := r.d, a := r.srcA, b := r.srcB, x := r.getCS, ty := r.ty, lut := r.f 4 8 }
def encLop3Imm (op : BitVec 8) (o : OpLop3Imm) : Raw :=
  (((((rawBase op 2 o.c).setD o.d).setA o.a).setCS o.x).setFn (intFn o.lut false (csImm o.x) o.ty)).setImm o.imm
def getLop3Imm (r : Raw) : OpLop3Imm := { c := r.ctl, d := r.d, a := r.srcA, imm := r.imm, x := r.getCS, ty := r.ty, lut := r.f 4 8 }

def encAddc (op : BitVec 8) (o : OpAddc) : Raw :=
  ((((rawBase op 1 o.c).setD o.d).setA o.a).setB o.b).setFn (intFn (o.pci ++ o.pco : BitVec 8) false false o.ty)
def getAddc (r : Raw) : OpAddc := { c := r.ctl, d := r.d, a := r.srcA, b := r.srcB, ty := r.ty, pco := r.f 4 4, pci := r.f 8 4 }
def encAddcImm (op : BitVec 8) (o : OpAddcImm) : Raw :=
  ((((rawBase op 2 o.c).setD o.d).setA o.a).setFn (intFn (o.pci ++ o.pco : BitVec 8) false false o.ty)).setImm o.imm
def getAddcImm (r : Raw) : OpAddcImm := { c := r.ctl, d := r.d, a := r.srcA, imm := r.imm, ty := r.ty, pco := r.f 4 4, pci := r.f 8 4 }

def encSel (op : BitVec 8) (o : OpSel) : Raw :=
  ((((rawBase op 1 o.c).setD o.d).setA o.a).setB o.b).setFn (intFn (0#3 ++ bit o.pn ++ o.ps : BitVec 8) false false o.ty)
def getSel (r : Raw) : OpSel := { c := r.ctl, d := r.d, a := r.srcA, b := r.srcB, ty := r.ty, ps := r.f 4 4, pn := r.fb 8 }
def encSelImm (op : BitVec 8) (o : OpSelImm) : Raw :=
  ((((rawBase op 2 o.c).setD o.d).setA o.a).setFn (intFn (0#3 ++ bit o.pn ++ o.ps : BitVec 8) false false o.ty)).setImm o.imm
def getSelImm (r : Raw) : OpSelImm := { c := r.ctl, d := r.d, a := r.srcA, imm := r.imm, ty := r.ty, ps := r.f 4 4, pn := r.fb 8 }

def encMoviImm (op : BitVec 8) (o : OpMoviImm) : Raw := (((rawBase op 2 o.c).setD o.d).setFn (intFn 0 false false o.ty)).setImm o.imm
def getMoviImm (r : Raw) : OpMoviImm := { c := r.ctl, d := r.d, imm := r.imm, ty := r.ty }
/-- R176: TY is s64 (2) or z64 (3). -/
def encMoviX (op : BitVec 8) (o : OpMoviX) : Raw :=
  (((rawBase op 3 o.c).setD o.d).setFn (0#10 ++ 1#1 ++ bit o.z : BitVec 12)).setX o.x
def getMoviX (r : Raw) : OpMoviX := { c := r.ctl, d := r.d, x := r.ext, z := r.fb 0 }
/-- R176: imm16 = B<7:0> : A<7:0>. -/
def encMovw (op : BitVec 8) (o : OpMovw) : Raw :=
  { rawBase op 1 o.c with d := o.d, a := o.imm.extractLsb' 0 8, b := o.imm.extractLsb' 8 8,
                          fn := intFn (0#6 ++ o.k : BitVec 8) false false o.ty }
/-- R176: with w = 32 a k of 2 or 3 is reserved and reads as 0 or 1. -/
def getMovw (r : Raw) : OpMovw :=
  { c := r.ctl, d := r.d, imm := (r.b ++ r.a : BitVec 16), ty := r.ty,
    k := if r.ty.wide then r.f 4 2 else (0#1 ++ r.f 4 1 : BitVec 2) }

def encLea (op : BitVec 8) (o : OpLea) : Raw :=
  ((((rawBase op 1 o.c).setD o.d).setA o.a).setB o.b).setFn (intFn (0#5 ++ o.sh : BitVec 8) false false o.ty)
def getLea (r : Raw) : OpLea := { c := r.ctl, d := r.d, a := r.srcA, b := r.srcB, ty := r.ty, sh := r.f 4 3 }
def encLeaImm (op : BitVec 8) (o : OpLeaImm) : Raw :=
  ((((rawBase op 2 o.c).setD o.d).setA o.a).setFn (intFn (0#5 ++ o.sh : BitVec 8) false false o.ty)).setImm o.imm
def getLeaImm (r : Raw) : OpLeaImm := { c := r.ctl, d := r.d, a := r.srcA, imm := r.imm, ty := r.ty, sh := r.f 4 3 }

def encIcmp (op : BitVec 8) (o : OpIcmp) : Raw :=
  ((((rawBase op 1 o.c).setD (up4 o.d)).setA o.a).setB o.b).setFn
    (intFn (0#2 ++ combCode o.comb ++ condCode o.cond : BitVec 8) false false o.ty)
def getIcmp (r : Raw) : OpIcmp :=
  { c := r.ctl, d := low4 r.d, a := r.srcA, b := r.srcB, ty := r.ty, cond := condOf (r.f 4 4), comb := combOf (r.f 8 2) }
def encIcmpImm (op : BitVec 8) (o : OpIcmpImm) : Raw :=
  ((((rawBase op 2 o.c).setD (up4 o.d)).setA o.a).setFn
    (intFn (0#2 ++ combCode o.comb ++ condCode o.cond : BitVec 8) false false o.ty)).setImm o.imm
def getIcmpImm (r : Raw) : OpIcmpImm :=
  { c := r.ctl, d := low4 r.d, a := r.srcA, imm := r.imm, ty := r.ty, cond := condOf (r.f 4 4), comb := combOf (r.f 8 2) }

def encF1 (op : BitVec 8) (o : OpF1) : Raw := (((rawBase op 1 o.c).setD o.d).setA o.a).setFn (fltFn 0 false false o.na (rmCode o.rm))
def getF1 (rm : Bool) (r : Raw) : OpF1 :=
  { c := r.ctl, d := r.d, a := r.srcA, rm := if rm then rmOf (r.f 0 3) else .rne, na := rm && r.fb 3 }
def encF2 (op : BitVec 8) (o : OpF2) : Raw :=
  ((((rawBase op 1 o.c).setD o.d).setA o.a).setB o.b).setFn (fltFn 0 false o.nb o.na (rmCode o.rm))
def getF2 (rm : Bool) (r : Raw) : OpF2 :=
  { c := r.ctl, d := r.d, a := r.srcA, b := r.srcB, rm := if rm then rmOf (r.f 0 3) else .rne, na := r.fb 3, nb := r.fb 4 }
def encF2Imm (op : BitVec 8) (o : OpF2Imm) : Raw :=
  ((((rawBase op 2 o.c).setD o.d).setA o.a).setFn (fltFn 0 false o.nb o.na (rmCode o.rm))).setImm o.imm
def getF2Imm (rm : Bool) (r : Raw) : OpF2Imm :=
  { c := r.ctl, d := r.d, a := r.srcA, imm := r.imm, rm := if rm then rmOf (r.f 0 3) else .rne, na := r.fb 3, nb := r.fb 4 }
def encF3 (op : BitVec 8) (o : OpF3) : Raw :=
  (((((rawBase op 1 o.c).setD o.d).setA o.a).setB o.b).setC o.x).setFn (fltFn 0 o.nc o.nb o.na (rmCode o.rm))
def getF3 (r : Raw) : OpF3 :=
  { c := r.ctl, d := r.d, a := r.srcA, b := r.srcB, x := r.srcC, rm := rmOf (r.f 0 3), na := r.fb 3, nb := r.fb 4, nc := r.fb 5 }
def encF3Imm (op : BitVec 8) (o : OpF3Imm) : Raw :=
  (((((rawBase op 2 o.c).setD o.d).setA o.a).setC o.x).setFn (fltFn 0 o.nc o.nb o.na (rmCode o.rm))).setImm o.imm
def getF3Imm (r : Raw) : OpF3Imm :=
  { c := r.ctl, d := r.d, a := r.srcA, imm := r.imm, x := r.srcC, rm := rmOf (r.f 0 3), na := r.fb 3, nb := r.fb 4, nc := r.fb 5 }

def encFcmp (op : BitVec 8) (o : OpFcmp) : Raw :=
  ((((rawBase op 1 o.c).setD (up4 o.d)).setA o.a).setB o.b).setFn (fltFn (combCode o.comb ++ fcondCode o.cond : BitVec 6) false o.nb o.na 0)
def getFcmp (r : Raw) : OpFcmp :=
  { c := r.ctl, d := low4 r.d, a := r.srcA, b := r.srcB, na := r.fb 3, nb := r.fb 4, cond := fcondOf (r.f 6 4), comb := combOf (r.f 10 2) }
def encFcmpImm (op : BitVec 8) (o : OpFcmpImm) : Raw :=
  ((((rawBase op 2 o.c).setD (up4 o.d)).setA o.a).setFn (fltFn (combCode o.comb ++ fcondCode o.cond : BitVec 6) false o.nb o.na 0)).setImm o.imm
def getFcmpImm (r : Raw) : OpFcmpImm :=
  { c := r.ctl, d := low4 r.d, a := r.srcA, imm := r.imm, na := r.fb 3, nb := r.fb 4, cond := fcondOf (r.f 6 4), comb := combOf (r.f 10 2) }

def encP2 (op : BitVec 8) (o : OpP2) : Raw := ((((rawBase op 1 o.c).setD o.d).setA o.a).setB o.b).setFn (pkFn o.sat o.pt o.rm)
def getP2 (rm sat : Bool) (r : Raw) : OpP2 :=
  { c := r.ctl, d := r.d, a := r.srcA, b := r.srcB, rm := if rm then rmOf (r.f 0 3) else .rne, pt := r.fb 3, sat := sat && r.fb 4 }
def encP2Imm (op : BitVec 8) (o : OpP2Imm) : Raw := ((((rawBase op 2 o.c).setD o.d).setA o.a).setFn (pkFn o.sat o.pt o.rm)).setImm o.imm
def getP2Imm (rm sat : Bool) (r : Raw) : OpP2Imm :=
  { c := r.ctl, d := r.d, a := r.srcA, imm := r.imm, rm := if rm then rmOf (r.f 0 3) else .rne, pt := r.fb 3, sat := sat && r.fb 4 }
def encP3 (op : BitVec 8) (o : OpP3) : Raw :=
  (((((rawBase op 1 o.c).setD o.d).setA o.a).setB o.b).setC o.x).setFn (pkFn false o.pt o.rm)
def getP3 (r : Raw) : OpP3 := { c := r.ctl, d := r.d, a := r.srcA, b := r.srcB, x := r.srcC, rm := rmOf (r.f 0 3), pt := r.fb 3 }
def encP3Imm (op : BitVec 8) (o : OpP3Imm) : Raw :=
  (((((rawBase op 2 o.c).setD o.d).setA o.a).setC o.x).setFn (pkFn false o.pt o.rm)).setImm o.imm
def getP3Imm (r : Raw) : OpP3Imm := { c := r.ctl, d := r.d, a := r.srcA, imm := r.imm, x := r.srcC, rm := rmOf (r.f 0 3), pt := r.fb 3 }

def encAcs2 (op : BitVec 8) (o : OpAcs2) : Raw :=
  (((((rawBase op 1 o.c).setD o.d).setA o.a).setB o.b).setC o.x).setFn (0#2 ++ bit o.max ++ bit o.swb ++ o.pd1 ++ o.pd0 : BitVec 12)
def getAcs2 (r : Raw) : OpAcs2 :=
  { c := r.ctl, d := r.d, a := r.srcA, b := r.srcB, x := r.srcC, pd0 := r.f 0 4, pd1 := r.f 4 4, swb := r.fb 8, max := r.fb 9 }

def encCvt (op : BitVec 8) (o : OpCvt) : Raw :=
  (((rawBase op 1 o.c).setD o.d).setA o.a).setFn (fmtCode o.dst ++ fmtCode o.src ++ bit o.sat ++ rmCode o.rm : BitVec 12)
/-- R137, R191: RM and SATC are read where they are in use. -/
def getCvt (r : Raw) : OpCvt :=
  let dst := fmtOf (r.f 8 4)
  let src := fmtOf (r.f 4 4)
  { c := r.ctl, d := r.d, a := r.srcA, dst := dst, src := src, sat := !dst.isFloat && !src.isFloat && r.fb 3,
    rm := if cvtExact dst src then .rne else rmOf (r.f 0 3) }

/-- BW (R95); 7 is reserved and reads as 0. -/
def bwOf (v : BitVec 3) : BitVec 3 := if v = 7 then 0 else v

def encCvtb (op : BitVec 8) (o : OpCvtb) : Raw :=
  ((((rawBase op 3 o.c).setD o.d).setA o.a).setFn (0#8 ++ o.bw ++ bit o.dir : BitVec 12)).setX (0#48 ++ o.emask : BitVec 64)
def getCvtb (r : Raw) : OpCvtb := { c := r.ctl, d := r.d, a := r.srcA, bw := bwOf (r.f 1 3), dir := r.fb 0, emask := r.x 0 16 }

def encLoad (op : BitVec 8) (o : OpLoad) : Raw := (((rawBase op 1 o.c).setD o.d).setA o.a).setFn (memFn 0 o.noal o.ep o.fmt)
def getLoad (hint : Bool) (r : Raw) : OpLoad :=
  { c := r.ctl, d := r.d, a := r.srcA, fmt := fmtOf (r.f 0 4), ep := if hint then epOf (r.f 4 2) else .normal, noal := hint && r.fb 6 }
def encLoadImm (op : BitVec 8) (o : OpLoadImm) : Raw :=
  ((((rawBase op 2 o.c).setD o.d).setA o.a).setFn (memFn 0 o.noal o.ep o.fmt)).setImm o.imm
def getLoadImm (hint : Bool) (r : Raw) : OpLoadImm :=
  { c := r.ctl, d := r.d, a := r.srcA, fmt := fmtOf (r.f 0 4), ep := if hint then epOf (r.f 4 2) else .normal, noal := hint && r.fb 6, imm := r.imm }
def encStore (op : BitVec 8) (o : OpStore) : Raw := (((rawBase op 1 o.c).setA o.a).setB o.b).setFn (memFn 0 o.noal o.ep o.fmt)
def getStore (hint : Bool) (r : Raw) : OpStore :=
  { c := r.ctl, a := r.srcA, b := r.srcB, fmt := fmtOf (r.f 0 4), ep := if hint then epOf (r.f 4 2) else .normal, noal := hint && r.fb 6 }
def encStoreImm (op : BitVec 8) (o : OpStoreImm) : Raw :=
  ((((rawBase op 2 o.c).setA o.a).setB o.b).setFn (memFn 0 o.noal o.ep o.fmt)).setImm o.imm
def getStoreImm (hint : Bool) (r : Raw) : OpStoreImm :=
  { c := r.ctl, a := r.srcA, b := r.srcB, fmt := fmtOf (r.f 0 4), ep := if hint then epOf (r.f 4 2) else .normal, noal := hint && r.fb 6, imm := r.imm }

def encLdaq (op : BitVec 8) (o : OpLdaq) : Raw := (((rawBase op 1 o.c).setD o.d).setA o.a).setFn (memFn (scCode o.sc) o.noal o.ep o.fmt)
def getLdaq (r : Raw) : OpLdaq :=
  { c := r.ctl, d := r.d, a := r.srcA, fmt := fmtOf (r.f 0 4), ep := epOf (r.f 4 2), noal := r.fb 6, sc := scOf (r.f 7 3) }
def encLdaqImm (op : BitVec 8) (o : OpLdaqImm) : Raw :=
  ((((rawBase op 2 o.c).setD o.d).setA o.a).setFn (memFn (scCode o.sc) o.noal o.ep o.fmt)).setImm o.imm
def getLdaqImm (r : Raw) : OpLdaqImm :=
  { c := r.ctl, d := r.d, a := r.srcA, fmt := fmtOf (r.f 0 4), ep := epOf (r.f 4 2), noal := r.fb 6, sc := scOf (r.f 7 3), imm := r.imm }
def encStrl (op : BitVec 8) (o : OpStrl) : Raw := (((rawBase op 1 o.c).setA o.a).setB o.b).setFn (memFn (scCode o.sc) o.noal o.ep o.fmt)
def getStrl (r : Raw) : OpStrl :=
  { c := r.ctl, a := r.srcA, b := r.srcB, fmt := fmtOf (r.f 0 4), ep := epOf (r.f 4 2), noal := r.fb 6, sc := scOf (r.f 7 3) }
def encStrlImm (op : BitVec 8) (o : OpStrlImm) : Raw :=
  ((((rawBase op 2 o.c).setA o.a).setB o.b).setFn (memFn (scCode o.sc) o.noal o.ep o.fmt)).setImm o.imm
def getStrlImm (r : Raw) : OpStrlImm :=
  { c := r.ctl, a := r.srcA, b := r.srcB, fmt := fmtOf (r.f 0 4), ep := epOf (r.f 4 2), noal := r.fb 6, sc := scOf (r.f 7 3), imm := r.imm }

/-- R201: C and LC are read for CAS only. -/
def Raw.casC (r : Raw) (op : AtomOp) : Src := if op = .cas then r.srcC else { reg := 0, last := false }

def encAtom (op : BitVec 8) (o : OpAtom) : Raw :=
  (((((rawBase op 1 o.c).setD o.d).setA o.a).setB o.b).setC o.x).setFn (atomFn false o.ord o.sc (tyCode o.ty) (aopCode o.op))
def getAtom (r : Raw) : OpAtom :=
  { c := r.ctl, d := r.d, a := r.srcA, b := r.srcB, x := r.casC (aopOf (r.f 0 4)), op := aopOf (r.f 0 4), ty := tyOf (r.f 4 2),
    sc := scOf (r.f 6 3), ord := ordOf (r.f 9 2) }
def encAtomImm (op : BitVec 8) (o : OpAtomImm) : Raw :=
  ((((((rawBase op 2 o.c).setD o.d).setA o.a).setB o.b).setC o.x).setFn (atomFn false o.ord o.sc (tyCode o.ty) (aopCode o.op))).setImm o.imm
def getAtomImm (r : Raw) : OpAtomImm :=
  { c := r.ctl, d := r.d, a := r.srcA, b := r.srcB, x := r.casC (aopOf (r.f 0 4)), op := aopOf (r.f 0 4), ty := tyOf (r.f 4 2),
    sc := scOf (r.f 6 3), ord := ordOf (r.f 9 2), imm := r.imm }
def encAtomf (op : BitVec 8) (o : OpAtomf) : Raw :=
  ((((rawBase op 1 o.c).setD o.d).setA o.a).setB o.b).setFn (atomFn false o.ord o.sc 0 (afopCode o.op))
def getAtomf (r : Raw) : OpAtomf :=
  { c := r.ctl, d := r.d, a := r.srcA, b := r.srcB, op := afopOf (r.f 0 4), sc := scOf (r.f 6 3), ord := ordOf (r.f 9 2) }
def encAtomfImm (op : BitVec 8) (o : OpAtomfImm) : Raw :=
  (((((rawBase op 2 o.c).setD o.d).setA o.a).setB o.b).setFn (atomFn false o.ord o.sc 0 (afopCode o.op))).setImm o.imm
def getAtomfImm (r : Raw) : OpAtomfImm :=
  { c := r.ctl, d := r.d, a := r.srcA, b := r.srcB, op := afopOf (r.f 0 4), sc := scOf (r.f 6 3), ord := ordOf (r.f 9 2), imm := r.imm }

def redFl : RedOp → Bool
  | .int _ _ => false
  | .flt _ => true
def redTy : RedOp → BitVec 2
  | .int _ t => tyCode t
  | .flt _ => 0
def redAop : RedOp → BitVec 4
  | .int a _ => aopCode a
  | .flt a => afopCode a
/-- R201: EXCH and CAS are reserved in RED and read as ADD. -/
def redOf (fl : Bool) (ty : BitVec 2) (aop : BitVec 4) : RedOp :=
  if fl then .flt (afopOf aop)
  else if aop = 6 ∨ aop = 7 then .int .add (tyOf ty) else .int (aopOf aop) (tyOf ty)
def encRed (op : BitVec 8) (o : OpRed) : Raw :=
  (((rawBase op 1 o.c).setA o.a).setB o.b).setFn (atomFn (redFl o.op) o.ord o.sc (redTy o.op) (redAop o.op))
def getRed (r : Raw) : OpRed :=
  { c := r.ctl, a := r.srcA, b := r.srcB, op := redOf (r.fb 11) (r.f 4 2) (r.f 0 4), sc := scOf (r.f 6 3), ord := ordOf (r.f 9 2) }
def encRedImm (op : BitVec 8) (o : OpRedImm) : Raw :=
  ((((rawBase op 2 o.c).setA o.a).setB o.b).setFn (atomFn (redFl o.op) o.ord o.sc (redTy o.op) (redAop o.op))).setImm o.imm
def getRedImm (r : Raw) : OpRedImm :=
  { c := r.ctl, a := r.srcA, b := r.srcB, op := redOf (r.fb 11) (r.f 4 2) (r.f 0 4), sc := scOf (r.f 6 3), ord := ordOf (r.f 9 2), imm := r.imm }

def encPft (op : BitVec 8) (o : OpPft) : Raw :=
  ((((rawBase op 3 o.c).setA o.a).setB o.b).setC o.x).setX (0#10 ++ bit o.el ++ bit o.l1 ++ o.e2 ++ o.e1 ++ o.e0 : BitVec 64)
def getPft (r : Raw) : OpPft :=
  { c := r.ctl, a := r.srcA, b := r.srcB, x := r.srcC, el := r.xb 53, l1 := r.xb 52, e2 := r.x 36 16, e1 := r.x 20 16, e0 := r.x 0 20 }

def encCctl (op : BitVec 8) (o : OpCctl) : Raw :=
  ((rawBase op 1 o.c).setA o.a).setFn (0#7 ++ epvCode o.cop ++ copCode o.cop : BitVec 12)
def getCctl (r : Raw) : OpCctl := { c := r.ctl, a := r.srcA, cop := copOf (r.f 0 3) (r.f 3 2) }
def encCctlImm (op : BitVec 8) (o : OpCctlImm) : Raw :=
  (((rawBase op 2 o.c).setA o.a).setFn (0#7 ++ epvCode o.cop ++ copCode o.cop : BitVec 12)).setImm o.imm
def getCctlImm (r : Raw) : OpCctlImm := { c := r.ctl, a := r.srcA, cop := copOf (r.f 0 3) (r.f 3 2), imm := r.imm }

def encPin (op : BitVec 8) (o : OpPin) : Raw := (((rawBase op 1 o.c).setD o.d).setA o.a).setB o.b
def getPin (r : Raw) : OpPin := { c := r.ctl, d := r.d, a := r.srcA, b := r.srcB }
def encPinImm (op : BitVec 8) (o : OpPinImm) : Raw := (((rawBase op 2 o.c).setD o.d).setA o.a).setImm o.imm
def getPinImm (r : Raw) : OpPinImm := { c := r.ctl, d := r.d, a := r.srcA, imm := r.imm }
def encIcinv (op : BitVec 8) (o : OpIcinv) : Raw := ((rawBase op 1 o.c).setA o.a).setB o.b
def getIcinv (r : Raw) : OpIcinv := { c := r.ctl, a := r.srcA, b := r.srcB }
def encIcinvImm (op : BitVec 8) (o : OpIcinvImm) : Raw := ((rawBase op 2 o.c).setA o.a).setImm o.imm
def getIcinvImm (r : Raw) : OpIcinvImm := { c := r.ctl, a := r.srcA, imm := r.imm }

/-- FN and X of the tile and accumulator transfers (R214). -/
def xferFn (sp tr : Bool) (ep : Ep) (noal : Bool) : BitVec 12 := (0#5 ++ bit noal ++ epCode ep ++ 0#2 ++ bit tr ++ bit sp : BitVec 12)
def xferX (off : BitVec 32) (cols rows : BitVec 4) : BitVec 64 := (off ++ 0#24 ++ cols ++ rows : BitVec 64)
/-- The register stands in D for loads and in C for stores (R214). -/
def Raw.setReg (r : Raw) (store : Bool) (v : Field8) : Raw := if store then { r with c := v } else { r with d := v }
def Raw.regOf (r : Raw) (store : Bool) : Field8 := if store then r.c else r.d
def encTileXfer (op : BitVec 8) (store : Bool) (o : OpTileXfer) : Raw :=
  (((((rawBase op 3 o.c).setReg store (up4 o.r)).setA o.a).setB o.b).setFn (xferFn o.sp o.tr o.ep o.noal)).setX (xferX o.off o.cols o.rows)
def getTileXfer (store : Bool) (r : Raw) : OpTileXfer :=
  { c := r.ctl, r := low4 (r.regOf store), a := r.srcA, b := r.srcB, sp := r.fb 0, tr := r.fb 1,
    ep := if r.fb 0 then .normal else epOf (r.f 4 2), noal := !r.fb 0 && r.fb 6, off := r.x 32 32, cols := r.x 4 4, rows := r.x 0 4 }
def encAccXfer (op : BitVec 8) (store : Bool) (o : OpAccXfer) : Raw :=
  (((((rawBase op 3 o.c).setReg store (up3 o.r)).setA o.a).setB o.b).setFn (xferFn o.sp o.tr o.ep o.noal)).setX (xferX o.off o.cols o.rows)
def getAccXfer (store : Bool) (r : Raw) : OpAccXfer :=
  { c := r.ctl, r := low3 (r.regOf store), a := r.srcA, b := r.srcB, sp := r.fb 0, tr := r.fb 1,
    ep := if r.fb 0 then .normal else epOf (r.f 4 2), noal := !r.fb 0 && r.fb 6, off := r.x 32 32, cols := r.x 4 4, rows := r.x 0 4 }

def encTzero (op : BitVec 8) (o : OpTzero) : Raw := (rawBase op 1 o.c).setD (up4 o.d)
def getTzero (r : Raw) : OpTzero := { c := r.ctl, d := low4 r.d }
def encTmov (op : BitVec 8) (o : OpTmov) : Raw :=
  { rawBase op 1 o.c with d := up4 o.d, a := up4 o.a, fn := (0#11 ++ bit o.tr : BitVec 12) }
def getTmov (r : Raw) : OpTmov := { c := r.ctl, d := low4 r.d, a := low4 r.a, tr := r.fb 0 }
def encAclr (op : BitVec 8) (o : OpAclr) : Raw := ((rawBase op 1 o.c).setD (up3 o.d)).setFn (0#11 ++ bit o.all : BitVec 12)
/-- R216: with ALL, D must be 0. -/
def getAclr (r : Raw) : OpAclr := { c := r.ctl, d := if r.fb 0 then 0 else low3 r.d, all := r.fb 0 }
def encTmma (op : BitVec 8) (o : OpTmma) : Raw :=
  { rawBase op 3 o.c with d := up3 o.d, a := up4 o.a, b := up4 o.b, fn := (0#10 ++ bit o.zc ++ bit o.bf : BitVec 12),
                          ext := (0#52 ++ o.depth ++ o.cols ++ o.rows : BitVec 64) }
def getTmma (r : Raw) : OpTmma :=
  { c := r.ctl, d := low3 r.d, a := low4 r.a, b := low4 r.b, bf := r.fb 0, zc := r.fb 1, depth := r.x 8 4, cols := r.x 4 4, rows := r.x 0 4 }
def encAcvt (op : BitVec 8) (o : OpAcvt) : Raw :=
  { rawBase op 1 o.c with d := up4 o.d, a := up3 o.a, fn := (0#8 ++ bit o.bf ++ rmCode o.rm : BitVec 12) }
def getAcvt (r : Raw) : OpAcvt := { c := r.ctl, d := low4 r.d, a := low3 r.a, rm := rmOf (r.f 0 3), bf := r.fb 3 }
def encAfrag (op : BitVec 8) (o : OpAfrag) : Raw :=
  (((rawBase op 1 o.c).setD (up3 o.d)).setA o.a).setFn (0#8 ++ bit o.dir ++ o.cb : BitVec 12)
def getAfrag (r : Raw) : OpAfrag := { c := r.ctl, d := low3 r.d, a := r.srcA, cb := r.f 0 3, dir := r.fb 3 }

def encWld (op : BitVec 8) (o : OpWld) : Raw :=
  (((rawBase op 3 o.c).setA o.a).setFn (0#5 ++ bit o.noal ++ epCode o.ep ++ 0#4 : BitVec 12)).setX (0#34 ++ o.len ++ o.boff : BitVec 64)
def getWld (r : Raw) : OpWld := { c := r.ctl, a := r.srcA, ep := epOf (r.f 4 2), noal := r.fb 6, boff := r.x 0 15, len := r.x 15 15 }
def encWlatch (op : BitVec 8) (o : OpWlatch) : Raw :=
  ((((rawBase op 2 o.c).setD o.d).setA o.a).setFn (0#7 ++ bit o.new ++ bit o.cmp ++ o.bw : BitVec 12)).setImm
    (0#10 ++ o.nc ++ o.n0 ++ o.kb : BitVec 32)
def getWlatch (r : Raw) : OpWlatch :=
  { c := r.ctl, d := r.d, a := r.srcA, bw := bwOf (r.f 0 3), cmp := r.fb 3, new := r.fb 4, kb := r.x 0 8, n0 := r.x 8 7, nc := r.x 15 7 }
def encSbuild (op : BitVec 8) (o : OpSbuild) : Raw :=
  ((((rawBase op 1 o.c).setA o.a).setB o.b).setC o.x).setFn (0#5 ++ o.klast ++ o.bw : BitVec 12)
def getSbuild (r : Raw) : OpSbuild := { c := r.ctl, a := r.srcA, b := r.srcB, x := r.srcC, bw := bwOf (r.f 0 3), klast := r.f 3 4 }
def encSstep (op : BitVec 8) (o : OpSstep) : Raw :=
  (((rawBase op 3 o.c).setA o.a).setB o.b).setX
    (0#20 ++ o.orow ++ 0#1 ++ o.abw ++ bit o.zero ++ o.nc ++ o.klast ++ o.kb ++ o.rows : BitVec 64)
def getSstep (r : Raw) : OpSstep :=
  { c := r.ctl, a := r.srcA, b := r.srcB, rows := r.x 0 8, kb := r.x 8 8, klast := r.x 16 4, nc := r.x 20 7, zero := r.xb 27,
    abw := bwOf (r.x 28 3), orow := r.x 32 12 }
def encSlut (op : BitVec 8) (o : OpSlut) : Raw :=
  (((rawBase op 3 o.c).setA o.a).setB o.b).setX
    (0#20 ++ o.orow ++ 0#4 ++ bit o.zero ++ o.nc ++ 0#4 ++ o.kb ++ o.rows : BitVec 64)
def getSlut (r : Raw) : OpSlut :=
  { c := r.ctl, a := r.srcA, b := r.srcB, rows := r.x 0 8, kb := r.x 8 8, nc := r.x 20 7, zero := r.xb 27, orow := r.x 32 12 }
def encSdrain (op : BitVec 8) (o : OpSdrain) : Raw :=
  ((((rawBase op 2 o.c).setA o.a).setB o.b).setFn (0#6 ++ rmCode o.rm ++ bit o.clr ++ drainCode o.ofmt : BitVec 12)).setImm
    (0#5 ++ o.nc ++ o.rows ++ o.orow : BitVec 32)
/-- R231: RM is res0 with OFMT = 0. -/
def getSdrain (r : Raw) : OpSdrain :=
  { c := r.ctl, a := r.srcA, b := r.srcB, ofmt := drainOf (r.f 0 2), clr := r.fb 2,
    rm := if drainOf (r.f 0 2) = .f32 then .rne else rmOf (r.f 3 3), orow := r.x 0 12, rows := r.x 12 8, nc := r.x 20 7 }
def encSclass (op : BitVec 8) (o : OpSclass) : Raw := ((rawBase op 1 o.c).setD o.d).setFn (0#5 ++ o.wg ++ o.cls : BitVec 12)
/-- R222: WG of 17 to 31 is reserved. -/
def getSclass (r : Raw) : OpSclass :=
  { c := r.ctl, d := r.d, cls := r.f 0 2, wg := if (r.f 2 5).toNat ≤ 16 then r.f 2 5 else 0 }

def encQput (op : BitVec 8) (o : OpQput) : Raw := (((rawBase op 1 o.c).setD o.d).setA o.a).setB o.b
def getQput (r : Raw) : OpQput := { c := r.ctl, d := r.d, a := r.srcA, b := r.srcB }
def encCwait (op : BitVec 8) (o : OpCwait) : Raw :=
  ((((rawBase op 2 o.c).setD o.d).setA o.a).setB o.b).setImm (0#8 ++ o.w : BitVec 32)
def getCwait (r : Raw) : OpCwait := { c := r.ctl, d := r.d, a := r.srcA, b := r.srcB, w := r.x 0 24 }
def encSleep (op : BitVec 8) (o : OpSleep) : Raw := (((rawBase op 1 o.c).setA o.a).setB o.b).setFn (0#11 ++ bit o.flag : BitVec 12)
def getSleep (r : Raw) : OpSleep :=
  { c := r.ctl, a := r.srcA, b := if r.fb 0 then r.srcB else { reg := 0, last := false }, flag := r.fb 0 }
def encFence (op : BitVec 8) (o : OpFence) : Raw := (rawBase op 1 o.c).setFn (0#9 ++ scCode o.sc : BitVec 12)
def getFence (r : Raw) : OpFence := { c := r.ctl, sc := scOf (r.f 0 3) }
def encFencex (op : BitVec 8) (o : OpFencex) : Raw := (rawBase op 1 o.c).setFn (0#2 ++ o.dst ++ o.src : BitVec 12)
/-- R247: a FROM or TO of zero is reserved and reads as LS. -/
def getFencex (r : Raw) : OpFencex :=
  { c := r.ctl, src := if r.f 0 5 = 0#5 then 1 else r.f 0 5, dst := if r.f 5 5 = 0#5 then 1 else r.f 5 5 }
def encRstf (op : BitVec 8) (o : OpRstf) : Raw :=
  (((((rawBase op 3 o.c).setA o.a).setB o.b).setC o.x).setFn (memFn (scCode o.sc) o.noal o.ep o.fmt)).setX (0#16 ++ o.inc ++ o.off : BitVec 64)
def getRstf (r : Raw) : OpRstf :=
  { c := r.ctl, a := r.srcA, b := r.srcB, x := r.srcC, fmt := fmtOf (r.f 0 4), ep := epOf (r.f 4 2), noal := r.fb 6, sc := scOf (r.f 7 3),
    off := r.x 0 32, inc := r.x 32 16 }
def encRatom (op : BitVec 8) (o : OpRatom) : Raw :=
  ((((((rawBase op 3 o.c).setD o.d).setA o.a).setB o.b).setC o.x).setFn (atomFn false o.ord o.sc (tyCode o.ty) (aopCode o.op))).setX
    (0#32 ++ o.off : BitVec 64)
def getRatom (r : Raw) : OpRatom :=
  { c := r.ctl, d := r.d, a := r.srcA, b := r.srcB, x := r.casC (aopOf (r.f 0 4)), op := aopOf (r.f 0 4), ty := tyOf (r.f 4 2),
    sc := scOf (r.f 6 3), ord := ordOf (r.f 9 2), off := r.x 0 32 }
def encA (op : BitVec 8) (o : OpA) : Raw := (rawBase op 1 o.c).setA o.a
def getA (r : Raw) : OpA := { c := r.ctl, a := r.srcA }
def encLaunch (op : BitVec 8) (o : OpLaunch) : Raw :=
  (((((rawBase op 3 o.c).setD o.d).setA o.a).setB o.b).setC o.x).setX (0#31 ++ bit o.pwv ++ o.pw : BitVec 64)
def getLaunch (r : Raw) : OpLaunch :=
  { c := r.ctl, d := r.d, a := r.srcA, b := r.srcB, x := r.srcC, pw := r.x 0 32, pwv := r.xb 32 }
def encFeedpop (op : BitVec 8) (o : OpFeedpop) : Raw := (((rawBase op 1 o.c).setD o.d).setA o.a).setFn (0#11 ++ bit o.hold : BitVec 12)
def getFeedpop (r : Raw) : OpFeedpop := { c := r.ctl, d := r.d, a := r.srcA, hold := r.fb 0 }
def encJread (op : BitVec 8) (o : OpJread) : Raw := ((rawBase op 1 o.c).setD o.d).setFn (0#10 ++ jselCode o.sel : BitVec 12)
def getJread (r : Raw) : OpJread := { c := r.ctl, d := r.d, sel := jselOf (r.f 0 2) }
def encDA (op : BitVec 8) (o : OpDA) : Raw := ((rawBase op 1 o.c).setD o.d).setA o.a
def getDA (r : Raw) : OpDA := { c := r.ctl, d := r.d, a := r.srcA }
def encTrap (op : BitVec 8) (o : OpTrap) : Raw := (rawBase op 1 o.c).setFn (o.code ++ 0#2 : BitVec 12)
def encEbrk (op : BitVec 8) (o : OpC) : Raw := (rawBase op 1 o.c).setFn 1
def encTret (op : BitVec 8) (o : OpTret) : Raw := (rawBase op 1 o.c).setFn (0#9 ++ bit o.nxt ++ 2#2 : BitVec 12)
/-- The cell 0xFC (R135): FN<1:0> of 3 is reserved and reads as a TRAP. -/
def getTrapCell (r : Raw) : Instr :=
  if r.f 0 2 = 1#2 then .ebrk { c := r.ctl } else if r.f 0 2 = 2#2 then .tret { c := r.ctl, nxt := r.fb 2 }
  else .trap { c := r.ctl, code := r.f 2 10 }
def encSysrd (op : BitVec 8) (o : OpSysrd) : Raw := ((rawBase op 1 o.c).setD o.d).setFn o.sel
def getSysrd (r : Raw) : OpSysrd := { c := r.ctl, d := r.d, sel := r.fn }
def encSyswr (op : BitVec 8) (o : OpSyswr) : Raw := ((rawBase op 1 o.c).setA o.a).setFn o.sel
def getSyswr (r : Raw) : OpSyswr := { c := r.ctl, a := r.srcA, sel := r.fn }
def encTlbinv (op : BitVec 8) (o : OpTlbinv) : Raw :=
  (((rawBase op 1 o.c).setA o.a).setB o.b).setFn (0#8 ++ invCode o.kind ++ 0#1 : BitVec 12)
/-- R264: A and B are read where KIND uses them. -/
def getTlbinv (r : Raw) : OpTlbinv :=
  let k := invOf (r.f 1 3)
  { c := r.ctl, a := if k = .all ∧ r.f 1 3 = 2#3 then { reg := 0, last := false } else r.srcA,
    b := if k = .page ∨ r.f 1 3 = 2#3 then { reg := 0, last := false } else r.srcB, kind := k }
def encRamode (op : BitVec 8) (o : OpRamode) : Raw := (rawBase op 1 o.c).setFn (0#10 ++ bit o.on ++ 1#1 : BitVec 12)
/-- The cell 0xFF (R135). -/
def getFFCell (r : Raw) : Instr := if r.fb 0 then .ramode { c := r.ctl, on := r.fb 1 } else .tlbinv (getTlbinv r)

/-- The word of an instruction; none for an event (rows 202 to 299), which is no word. -/
def encode : Instr → Option Raw
  | .nop o => some (encC 0x00 o)
  | .bra o => some (encBranchImm 0x01 o)
  | .brc o => some (encBranchImm 0x02 o)
  | .brx o => some (encBranchReg 0x03 o)
  | .call o => some (encCall 0x04 o)
  | .callx o => some (encCallReg 0x05 o)
  | .ret o => some (encBranchReg 0x06 o)
  | .fspawn o => some (encSpawn 0x08 o)
  | .fend o => some (encC 0x09 o)
  | .fyield o => some (encC 0x0A o)
  | .fid o => some (encFid 0x0B o)
  | .barSk o => some (encC 0x10 o)
  | .barHk o => some (encC 0x11 o)
  | .bara o => some (encBara 0x12 o)
  | .barw o => some (encBarw 0x13 o)
  | .vote o => some (encVote 0x18 o)
  | .shfl o => some (encShfl 0x19 o)
  | .shflImm32 o => some (encShflImm 0x19 o)
  | .live o => some (encLive 0x1C o)
  | .pset o => some (encPset 0x20 o)
  | .psetImm32 o => some (encPsetImm 0x20 o)
  | .plop o => some (encPlop 0x21 o)
  | .pmov o => some (encD 0x22 o)
  | .pmovImm32 o => some (encPmovImm 0x22 o)
  | .iadd o => some (encInt2 0x40 o)
  | .iaddImm32 o => some (encInt2Imm 0x40 o)
  | .iadd3 o => some (encInt3 0x41 o)
  | .iaddc o => some (encAddc 0x42 o)
  | .iaddcImm32 o => some (encAddcImm 0x42 o)
  | .isub o => some (encInt2 0x43 o)
  | .isubImm32 o => some (encInt2Imm 0x43 o)
  | .imul o => some (encInt2 0x44 o)
  | .imulImm32 o => some (encInt2Imm 0x44 o)
  | .imulh o => some (encInt2 0x45 o)
  | .imulhImm32 o => some (encInt2Imm 0x45 o)
  | .imad o => some (encInt3 0x46 o)
  | .imadImm32 o => some (encInt3Imm 0x46 o)
  | .idiv o => some (encInt2 0x47 o)
  | .idivImm32 o => some (encInt2Imm 0x47 o)
  | .irem o => some (encInt2 0x48 o)
  | .iremImm32 o => some (encInt2Imm 0x48 o)
  | .imin o => some (encInt2 0x49 o)
  | .iminImm32 o => some (encInt2Imm 0x49 o)
  | .imax o => some (encInt2 0x4A o)
  | .imaxImm32 o => some (encInt2Imm 0x4A o)
  | .iabs o => some (encInt1 0x4B o)
  | .ineg o => some (encInt1 0x4C o)
  | .isad o => some (encInt3 0x4D o)
  | .isadImm32 o => some (encInt3Imm 0x4D o)
  | .and o => some (encInt2 0x50 o)
  | .andImm32 o => some (encInt2Imm 0x50 o)
  | .or o => some (encInt2 0x51 o)
  | .orImm32 o => some (encInt2Imm 0x51 o)
  | .xor o => some (encInt2 0x52 o)
  | .xorImm32 o => some (encInt2Imm 0x52 o)
  | .not o => some (encInt1 0x53 o)
  | .lop3 o => some (encLop3 0x54 o)
  | .lop3Imm32 o => some (encLop3Imm 0x54 o)
  | .shl o => some (encInt2 0x58 o)
  | .shlImm32 o => some (encInt2Imm 0x58 o)
  | .shr o => some (encInt2 0x59 o)
  | .shrImm32 o => some (encInt2Imm 0x59 o)
  | .sra o => some (encInt2 0x5A o)
  | .sraImm32 o => some (encInt2Imm 0x5A o)
  | .rotl o => some (encInt2 0x5B o)
  | .rotlImm32 o => some (encInt2Imm 0x5B o)
  | .bfe o => some (encInt2 0x60 o)
  | .bfeImm32 o => some (encInt2Imm 0x60 o)
  | .bfi o => some (encInt3 0x61 o)
  | .bfiImm32 o => some (encInt3Imm 0x61 o)
  | .popc o => some (encInt1 0x62 o)
  | .clz o => some (encInt1 0x63 o)
  | .ctz o => some (encInt1 0x64 o)
  | .brev o => some (encInt1 0x65 o)
  | .sel o => some (encSel 0x68 o)
  | .selImm32 o => some (encSelImm 0x68 o)
  | .mov o => some (encInt1 0x69 o)
  | .moviImm32 o => some (encMoviImm 0x6A o)
  | .moviX64 o => some (encMoviX 0x6A o)
  | .movw o => some (encMovw 0x6B o)
  | .lea o => some (encLea 0x6C o)
  | .leaImm32 o => some (encLeaImm 0x6C o)
  | .icmp o => some (encIcmp 0x70 o)
  | .icmpImm32 o => some (encIcmpImm 0x70 o)
  | .fadd o => some (encF2 0x80 o)
  | .faddImm32 o => some (encF2Imm 0x80 o)
  | .fsub o => some (encF2 0x81 o)
  | .fsubImm32 o => some (encF2Imm 0x81 o)
  | .fmul o => some (encF2 0x82 o)
  | .fmulImm32 o => some (encF2Imm 0x82 o)
  | .ffma o => some (encF3 0x83 o)
  | .ffmaImm32 o => some (encF3Imm 0x83 o)
  | .fdiv o => some (encF2 0x84 o)
  | .fdivImm32 o => some (encF2Imm 0x84 o)
  | .fmin o => some (encF2 0x85 o)
  | .fminImm32 o => some (encF2Imm 0x85 o)
  | .fmax o => some (encF2 0x86 o)
  | .fmaxImm32 o => some (encF2Imm 0x86 o)
  | .fabs o => some (encF1 0x87 o)
  | .fneg o => some (encF1 0x88 o)
  | .frcp o => some (encF1 0x90 o)
  | .frsq o => some (encF1 0x91 o)
  | .fsqrt o => some (encF1 0x92 o)
  | .fexp2 o => some (encF1 0x93 o)
  | .flog2 o => some (encF1 0x94 o)
  | .fsin o => some (encF1 0x95 o)
  | .fcos o => some (encF1 0x96 o)
  | .frnd o => some (encF1 0x98 o)
  | .fcmp o => some (encFcmp 0x99 o)
  | .fcmpImm32 o => some (encFcmpImm 0x99 o)
  | .fclass o => some (encF1 0x9A o)
  | .hadd2 o => some (encP2 0xA0 o)
  | .hadd2Imm32 o => some (encP2Imm 0xA0 o)
  | .hmul2 o => some (encP2 0xA1 o)
  | .hmul2Imm32 o => some (encP2Imm 0xA1 o)
  | .hfma2 o => some (encP3 0xA2 o)
  | .hfma2Imm32 o => some (encP3Imm 0xA2 o)
  | .hmin2 o => some (encP2 0xA3 o)
  | .hmin2Imm32 o => some (encP2Imm 0xA3 o)
  | .hmax2 o => some (encP2 0xA4 o)
  | .hmax2Imm32 o => some (encP2Imm 0xA4 o)
  | .vadd2 o => some (encP2 0xA5 o)
  | .vadd2Imm32 o => some (encP2Imm 0xA5 o)
  | .vsub2 o => some (encP2 0xA6 o)
  | .vsub2Imm32 o => some (encP2Imm 0xA6 o)
  | .vmin2 o => some (encP2 0xA7 o)
  | .vmin2Imm32 o => some (encP2Imm 0xA7 o)
  | .vmax2 o => some (encP2 0xA8 o)
  | .vmax2Imm32 o => some (encP2Imm 0xA8 o)
  | .acs2 o => some (encAcs2 0xA9 o)
  | .cvt o => some (encCvt 0xAC o)
  | .cvtb o => some (encCvtb 0xAD o)
  | .ld o => some (encLoad 0xB0 o)
  | .ldImm32 o => some (encLoadImm 0xB0 o)
  | .st o => some (encStore 0xB1 o)
  | .stImm32 o => some (encStoreImm 0xB1 o)
  | .lds o => some (encLoad 0xB2 o)
  | .ldsImm32 o => some (encLoadImm 0xB2 o)
  | .sts o => some (encStore 0xB3 o)
  | .stsImm32 o => some (encStoreImm 0xB3 o)
  | .ldc o => some (encLoad 0xB4 o)
  | .ldcImm32 o => some (encLoadImm 0xB4 o)
  | .atom o => some (encAtom 0xB8 o)
  | .atomImm32 o => some (encAtomImm 0xB8 o)
  | .atomf o => some (encAtomf 0xB9 o)
  | .atomfImm32 o => some (encAtomfImm 0xB9 o)
  | .red o => some (encRed 0xBA o)
  | .redImm32 o => some (encRedImm 0xBA o)
  | .pft o => some (encPft 0xC0 o)
  | .cctl o => some (encCctl 0xC1 o)
  | .cctlImm32 o => some (encCctlImm 0xC1 o)
  | .cpin o => some (encPin 0xC2 o)
  | .cpinImm32 o => some (encPinImm 0xC2 o)
  | .cunpin o => some (encPin 0xC3 o)
  | .cunpinImm32 o => some (encPinImm 0xC3 o)
  | .icinv o => some (encIcinv 0xC4 o)
  | .icinvImm32 o => some (encIcinvImm 0xC4 o)
  | .tld o => some (encTileXfer 0xD0 false o)
  | .tst o => some (encTileXfer 0xD1 true o)
  | .tzero o => some (encTzero 0xD2 o)
  | .tmov o => some (encTmov 0xD3 o)
  | .tmma o => some (encTmma 0xD4 o)
  | .ald o => some (encAccXfer 0xD8 false o)
  | .ast o => some (encAccXfer 0xD9 true o)
  | .aclr o => some (encAclr 0xDA o)
  | .acvt o => some (encAcvt 0xDB o)
  | .afrag o => some (encAfrag 0xDC o)
  | .wld o => some (encWld 0xE0 o)
  | .wlatch o => some (encWlatch 0xE1 o)
  | .sbuild o => some (encSbuild 0xE2 o)
  | .sstep o => some (encSstep 0xE3 o)
  | .slut o => some (encSlut 0xE4 o)
  | .sdrain o => some (encSdrain 0xE5 o)
  | .sclass o => some (encSclass 0xE6 o)
  | .qput o => some (encQput 0xE8 o)
  | .cwait o => some (encCwait 0xE9 o)
  | .ctest o => some (encCwait 0xEA o)
  | .sleep o => some (encSleep 0xEB o)
  | .sleepuntil o => some (encSleep 0xEC o)
  | .fence o => some (encFence 0xED o)
  | .fencex o => some (encFencex 0xEE o)
  | .ldaq o => some (encLdaq 0xEF o)
  | .ldaqImm32 o => some (encLdaqImm 0xEF o)
  | .strl o => some (encStrl 0xF0 o)
  | .strlImm32 o => some (encStrlImm 0xF0 o)
  | .rstf o => some (encRstf 0xF1 o)
  | .ratom o => some (encRatom 0xF2 o)
  | .publish o => some (encA 0xF3 o)
  | .launch o => some (encLaunch 0xF4 o)
  | .feedput o => some (encQput 0xF5 o)
  | .feedpop o => some (encFeedpop 0xF6 o)
  | .idem o => some (encD 0xF7 o)
  | .commit o => some (encC 0xF8 o)
  | .jread o => some (encJread 0xF9 o)
  | .opreq o => some (encDA 0xFA o)
  | .trap o => some (encTrap 0xFC o)
  | .ebrk o => some (encEbrk 0xFC o)
  | .tret o => some (encTret 0xFC o)
  | .sysrd o => some (encSysrd 0xFD o)
  | .syswr o => some (encSyswr 0xFE o)
  | .tlbinv o => some (encTlbinv 0xFF o)
  | .ramode o => some (encRamode 0xFF o)
  | _ => none

/-- What each (OP, LEN) pair of the grid of R134 stands for; the key is OP × 4 + LEN. -/
def opRow0 : List (Nat × (Raw → Instr)) :=
  [(0x00 * 4 + 1, fun r => .nop (getC0 r)),
   (0x01 * 4 + 2, fun r => .bra (getBranchImm r)),
   (0x02 * 4 + 2, fun r => .brc (getBranchImm r)),
   (0x03 * 4 + 1, fun r => .brx (getBranchReg r)),
   (0x04 * 4 + 2, fun r => .call (getCall r)),
   (0x05 * 4 + 1, fun r => .callx (getCallReg r)),
   (0x06 * 4 + 1, fun r => .ret (getBranchReg r)),
   (0x08 * 4 + 2, fun r => .fspawn (getSpawn r)),
   (0x09 * 4 + 1, fun r => .fend (getC r)),
   (0x0A * 4 + 1, fun r => .fyield (getC0 r)),
   (0x0B * 4 + 1, fun r => .fid (getFid r))]

def opRow1 : List (Nat × (Raw → Instr)) :=
  [(0x10 * 4 + 1, fun r => .barSk (getC r)),
   (0x11 * 4 + 1, fun r => .barHk (getC r)),
   (0x12 * 4 + 1, fun r => .bara (getBara r)),
   (0x13 * 4 + 1, fun r => .barw (getBarw r)),
   (0x18 * 4 + 1, fun r => .vote (getVote r)),
   (0x19 * 4 + 1, fun r => .shfl (getShfl r)),
   (0x19 * 4 + 2, fun r => .shflImm32 (getShflImm r)),
   (0x1C * 4 + 3, fun r => .live (getLive r))]

def opRow2 : List (Nat × (Raw → Instr)) :=
  [(0x20 * 4 + 1, fun r => .pset (getPset r)),
   (0x20 * 4 + 2, fun r => .psetImm32 (getPsetImm r)),
   (0x21 * 4 + 1, fun r => .plop (getPlop r)),
   (0x22 * 4 + 1, fun r => .pmov (getD r)),
   (0x22 * 4 + 2, fun r => .pmovImm32 (getPmovImm r))]

def opRow4 : List (Nat × (Raw → Instr)) :=
  [(0x40 * 4 + 1, fun r => .iadd (getInt2 true r)),
   (0x40 * 4 + 2, fun r => .iaddImm32 (getInt2Imm true r)),
   (0x41 * 4 + 1, fun r => .iadd3 (getInt3 true r)),
   (0x42 * 4 + 1, fun r => .iaddc (getAddc r)),
   (0x42 * 4 + 2, fun r => .iaddcImm32 (getAddcImm r)),
   (0x43 * 4 + 1, fun r => .isub (getInt2 true r)),
   (0x43 * 4 + 2, fun r => .isubImm32 (getInt2Imm true r)),
   (0x44 * 4 + 1, fun r => .imul (getInt2 true r)),
   (0x44 * 4 + 2, fun r => .imulImm32 (getInt2Imm true r)),
   (0x45 * 4 + 1, fun r => .imulh (getInt2 false r)),
   (0x45 * 4 + 2, fun r => .imulhImm32 (getInt2Imm false r)),
   (0x46 * 4 + 1, fun r => .imad (getInt3 true r)),
   (0x46 * 4 + 2, fun r => .imadImm32 (getInt3Imm true r)),
   (0x47 * 4 + 1, fun r => .idiv (getInt2 true r)),
   (0x47 * 4 + 2, fun r => .idivImm32 (getInt2Imm true r)),
   (0x48 * 4 + 1, fun r => .irem (getInt2 false r)),
   (0x48 * 4 + 2, fun r => .iremImm32 (getInt2Imm false r)),
   (0x49 * 4 + 1, fun r => .imin (getInt2 false r)),
   (0x49 * 4 + 2, fun r => .iminImm32 (getInt2Imm false r)),
   (0x4A * 4 + 1, fun r => .imax (getInt2 false r)),
   (0x4A * 4 + 2, fun r => .imaxImm32 (getInt2Imm false r)),
   (0x4B * 4 + 1, fun r => .iabs (getInt1 true r)),
   (0x4C * 4 + 1, fun r => .ineg (getInt1 true r)),
   (0x4D * 4 + 1, fun r => .isad (getInt3 false r)),
   (0x4D * 4 + 2, fun r => .isadImm32 (getInt3Imm false r))]

def opRow5 : List (Nat × (Raw → Instr)) :=
  [(0x50 * 4 + 1, fun r => .and (getInt2 false r)),
   (0x50 * 4 + 2, fun r => .andImm32 (getInt2Imm false r)),
   (0x51 * 4 + 1, fun r => .or (getInt2 false r)),
   (0x51 * 4 + 2, fun r => .orImm32 (getInt2Imm false r)),
   (0x52 * 4 + 1, fun r => .xor (getInt2 false r)),
   (0x52 * 4 + 2, fun r => .xorImm32 (getInt2Imm false r)),
   (0x53 * 4 + 1, fun r => .not (getInt1 false r)),
   (0x54 * 4 + 1, fun r => .lop3 (getLop3 r)),
   (0x54 * 4 + 2, fun r => .lop3Imm32 (getLop3Imm r)),
   (0x58 * 4 + 1, fun r => .shl (getInt2 false r)),
   (0x58 * 4 + 2, fun r => .shlImm32 (getInt2Imm false r)),
   (0x59 * 4 + 1, fun r => .shr (getInt2 false r)),
   (0x59 * 4 + 2, fun r => .shrImm32 (getInt2Imm false r)),
   (0x5A * 4 + 1, fun r => .sra (getInt2 false r)),
   (0x5A * 4 + 2, fun r => .sraImm32 (getInt2Imm false r)),
   (0x5B * 4 + 1, fun r => .rotl (getInt2 false r)),
   (0x5B * 4 + 2, fun r => .rotlImm32 (getInt2Imm false r))]

def opRow6 : List (Nat × (Raw → Instr)) :=
  [(0x60 * 4 + 1, fun r => .bfe (getInt2 false r)),
   (0x60 * 4 + 2, fun r => .bfeImm32 (getInt2Imm false r)),
   (0x61 * 4 + 1, fun r => .bfi (getInt3 false r)),
   (0x61 * 4 + 2, fun r => .bfiImm32 (getInt3Imm false r)),
   (0x62 * 4 + 1, fun r => .popc (getInt1 false r)),
   (0x63 * 4 + 1, fun r => .clz (getInt1 false r)),
   (0x64 * 4 + 1, fun r => .ctz (getInt1 false r)),
   (0x65 * 4 + 1, fun r => .brev (getInt1 false r)),
   (0x68 * 4 + 1, fun r => .sel (getSel r)),
   (0x68 * 4 + 2, fun r => .selImm32 (getSelImm r)),
   (0x69 * 4 + 1, fun r => .mov (getInt1 false r)),
   (0x6A * 4 + 2, fun r => .moviImm32 (getMoviImm r)),
   (0x6A * 4 + 3, fun r => .moviX64 (getMoviX r)),
   (0x6B * 4 + 1, fun r => .movw (getMovw r)),
   (0x6C * 4 + 1, fun r => .lea (getLea r)),
   (0x6C * 4 + 2, fun r => .leaImm32 (getLeaImm r))]

def opRow7 : List (Nat × (Raw → Instr)) :=
  [(0x70 * 4 + 1, fun r => .icmp (getIcmp r)),
   (0x70 * 4 + 2, fun r => .icmpImm32 (getIcmpImm r))]

def opRow8 : List (Nat × (Raw → Instr)) :=
  [(0x80 * 4 + 1, fun r => .fadd (getF2 true r)),
   (0x80 * 4 + 2, fun r => .faddImm32 (getF2Imm true r)),
   (0x81 * 4 + 1, fun r => .fsub (getF2 true r)),
   (0x81 * 4 + 2, fun r => .fsubImm32 (getF2Imm true r)),
   (0x82 * 4 + 1, fun r => .fmul (getF2 true r)),
   (0x82 * 4 + 2, fun r => .fmulImm32 (getF2Imm true r)),
   (0x83 * 4 + 1, fun r => .ffma (getF3 r)),
   (0x83 * 4 + 2, fun r => .ffmaImm32 (getF3Imm r)),
   (0x84 * 4 + 1, fun r => .fdiv (getF2 true r)),
   (0x84 * 4 + 2, fun r => .fdivImm32 (getF2Imm true r)),
   (0x85 * 4 + 1, fun r => .fmin (getF2 false r)),
   (0x85 * 4 + 2, fun r => .fminImm32 (getF2Imm false r)),
   (0x86 * 4 + 1, fun r => .fmax (getF2 false r)),
   (0x86 * 4 + 2, fun r => .fmaxImm32 (getF2Imm false r)),
   (0x87 * 4 + 1, fun r => .fabs (getF1 false r)),
   (0x88 * 4 + 1, fun r => .fneg (getF1 false r))]

def opRow9 : List (Nat × (Raw → Instr)) :=
  [(0x90 * 4 + 1, fun r => .frcp (getF1 true r)),
   (0x91 * 4 + 1, fun r => .frsq (getF1 true r)),
   (0x92 * 4 + 1, fun r => .fsqrt (getF1 true r)),
   (0x93 * 4 + 1, fun r => .fexp2 (getF1 true r)),
   (0x94 * 4 + 1, fun r => .flog2 (getF1 true r)),
   (0x95 * 4 + 1, fun r => .fsin (getF1 true r)),
   (0x96 * 4 + 1, fun r => .fcos (getF1 true r)),
   (0x98 * 4 + 1, fun r => .frnd (getF1 true r)),
   (0x99 * 4 + 1, fun r => .fcmp (getFcmp r)),
   (0x99 * 4 + 2, fun r => .fcmpImm32 (getFcmpImm r)),
   (0x9A * 4 + 1, fun r => .fclass (getF1 false r))]

def opRowA : List (Nat × (Raw → Instr)) :=
  [(0xA0 * 4 + 1, fun r => .hadd2 (getP2 true false r)),
   (0xA0 * 4 + 2, fun r => .hadd2Imm32 (getP2Imm true false r)),
   (0xA1 * 4 + 1, fun r => .hmul2 (getP2 true false r)),
   (0xA1 * 4 + 2, fun r => .hmul2Imm32 (getP2Imm true false r)),
   (0xA2 * 4 + 1, fun r => .hfma2 (getP3 r)),
   (0xA2 * 4 + 2, fun r => .hfma2Imm32 (getP3Imm r)),
   (0xA3 * 4 + 1, fun r => .hmin2 (getP2 true false r)),
   (0xA3 * 4 + 2, fun r => .hmin2Imm32 (getP2Imm true false r)),
   (0xA4 * 4 + 1, fun r => .hmax2 (getP2 true false r)),
   (0xA4 * 4 + 2, fun r => .hmax2Imm32 (getP2Imm true false r)),
   (0xA5 * 4 + 1, fun r => .vadd2 (getP2 false true r)),
   (0xA5 * 4 + 2, fun r => .vadd2Imm32 (getP2Imm false true r)),
   (0xA6 * 4 + 1, fun r => .vsub2 (getP2 false true r)),
   (0xA6 * 4 + 2, fun r => .vsub2Imm32 (getP2Imm false true r)),
   (0xA7 * 4 + 1, fun r => .vmin2 (getP2 false false r)),
   (0xA7 * 4 + 2, fun r => .vmin2Imm32 (getP2Imm false false r)),
   (0xA8 * 4 + 1, fun r => .vmax2 (getP2 false false r)),
   (0xA8 * 4 + 2, fun r => .vmax2Imm32 (getP2Imm false false r)),
   (0xA9 * 4 + 1, fun r => .acs2 (getAcs2 r)),
   (0xAC * 4 + 1, fun r => .cvt (getCvt r)),
   (0xAD * 4 + 3, fun r => .cvtb (getCvtb r))]

def opRowB : List (Nat × (Raw → Instr)) :=
  [(0xB0 * 4 + 1, fun r => .ld (getLoad true r)),
   (0xB0 * 4 + 2, fun r => .ldImm32 (getLoadImm true r)),
   (0xB1 * 4 + 1, fun r => .st (getStore true r)),
   (0xB1 * 4 + 2, fun r => .stImm32 (getStoreImm true r)),
   (0xB2 * 4 + 1, fun r => .lds (getLoad false r)),
   (0xB2 * 4 + 2, fun r => .ldsImm32 (getLoadImm false r)),
   (0xB3 * 4 + 1, fun r => .sts (getStore false r)),
   (0xB3 * 4 + 2, fun r => .stsImm32 (getStoreImm false r)),
   (0xB4 * 4 + 1, fun r => .ldc (getLoad true r)),
   (0xB4 * 4 + 2, fun r => .ldcImm32 (getLoadImm true r)),
   (0xB8 * 4 + 1, fun r => .atom (getAtom r)),
   (0xB8 * 4 + 2, fun r => .atomImm32 (getAtomImm r)),
   (0xB9 * 4 + 1, fun r => .atomf (getAtomf r)),
   (0xB9 * 4 + 2, fun r => .atomfImm32 (getAtomfImm r)),
   (0xBA * 4 + 1, fun r => .red (getRed r)),
   (0xBA * 4 + 2, fun r => .redImm32 (getRedImm r))]

def opRowC : List (Nat × (Raw → Instr)) :=
  [(0xC0 * 4 + 3, fun r => .pft (getPft r)),
   (0xC1 * 4 + 1, fun r => .cctl (getCctl r)),
   (0xC1 * 4 + 2, fun r => .cctlImm32 (getCctlImm r)),
   (0xC2 * 4 + 1, fun r => .cpin (getPin r)),
   (0xC2 * 4 + 2, fun r => .cpinImm32 (getPinImm r)),
   (0xC3 * 4 + 1, fun r => .cunpin (getPin r)),
   (0xC3 * 4 + 2, fun r => .cunpinImm32 (getPinImm r)),
   (0xC4 * 4 + 1, fun r => .icinv (getIcinv r)),
   (0xC4 * 4 + 2, fun r => .icinvImm32 (getIcinvImm r))]

def opRowD : List (Nat × (Raw → Instr)) :=
  [(0xD0 * 4 + 3, fun r => .tld (getTileXfer false r)),
   (0xD1 * 4 + 3, fun r => .tst (getTileXfer true r)),
   (0xD2 * 4 + 1, fun r => .tzero (getTzero r)),
   (0xD3 * 4 + 1, fun r => .tmov (getTmov r)),
   (0xD4 * 4 + 3, fun r => .tmma (getTmma r)),
   (0xD8 * 4 + 3, fun r => .ald (getAccXfer false r)),
   (0xD9 * 4 + 3, fun r => .ast (getAccXfer true r)),
   (0xDA * 4 + 1, fun r => .aclr (getAclr r)),
   (0xDB * 4 + 1, fun r => .acvt (getAcvt r)),
   (0xDC * 4 + 1, fun r => .afrag (getAfrag r))]

def opRowE : List (Nat × (Raw → Instr)) :=
  [(0xE0 * 4 + 3, fun r => .wld (getWld r)),
   (0xE1 * 4 + 2, fun r => .wlatch (getWlatch r)),
   (0xE2 * 4 + 1, fun r => .sbuild (getSbuild r)),
   (0xE3 * 4 + 3, fun r => .sstep (getSstep r)),
   (0xE4 * 4 + 3, fun r => .slut (getSlut r)),
   (0xE5 * 4 + 2, fun r => .sdrain (getSdrain r)),
   (0xE6 * 4 + 1, fun r => .sclass (getSclass r)),
   (0xE8 * 4 + 1, fun r => .qput (getQput r)),
   (0xE9 * 4 + 2, fun r => .cwait (getCwait r)),
   (0xEA * 4 + 2, fun r => .ctest (getCwait r)),
   (0xEB * 4 + 1, fun r => .sleep (getSleep r)),
   (0xEC * 4 + 1, fun r => .sleepuntil (getSleep r)),
   (0xED * 4 + 1, fun r => .fence (getFence r)),
   (0xEE * 4 + 1, fun r => .fencex (getFencex r)),
   (0xEF * 4 + 1, fun r => .ldaq (getLdaq r)),
   (0xEF * 4 + 2, fun r => .ldaqImm32 (getLdaqImm r))]

def opRowF : List (Nat × (Raw → Instr)) :=
  [(0xF0 * 4 + 1, fun r => .strl (getStrl r)),
   (0xF0 * 4 + 2, fun r => .strlImm32 (getStrlImm r)),
   (0xF1 * 4 + 3, fun r => .rstf (getRstf r)),
   (0xF2 * 4 + 3, fun r => .ratom (getRatom r)),
   (0xF3 * 4 + 1, fun r => .publish (getA r)),
   (0xF4 * 4 + 3, fun r => .launch (getLaunch r)),
   (0xF5 * 4 + 1, fun r => .feedput (getQput r)),
   (0xF6 * 4 + 1, fun r => .feedpop (getFeedpop r)),
   (0xF7 * 4 + 1, fun r => .idem (getD r)),
   (0xF8 * 4 + 1, fun r => .commit (getC r)),
   (0xF9 * 4 + 1, fun r => .jread (getJread r)),
   (0xFA * 4 + 1, fun r => .opreq (getDA r)),
   (0xFC * 4 + 1, fun r => getTrapCell r),
   (0xFD * 4 + 1, fun r => .sysrd (getSysrd r)),
   (0xFE * 4 + 1, fun r => .syswr (getSyswr r)),
   (0xFF * 4 + 1, fun r => getFFCell r)]


/-- The grid of R134. -/
def opTable : List (Nat × (Raw → Instr)) :=
  opRow0 ++ opRow1 ++ opRow2 ++ opRow4 ++ opRow5 ++ opRow6 ++ opRow7 ++ opRow8 ++ opRow9 ++ opRowA ++ opRowB ++ opRowC ++ opRowD ++ opRowE ++ opRowF

/-- The instruction that the pair (OP, LEN) of a word stands for, with the operands its fields give; none where the grid marks nothing (R135). -/
def lookup (r : Raw) : Option Instr :=
  match opTable.find? (fun e => e.1 == r.op.toNat * 4 + r.len.toNat) with
  | some e => some (e.2 r)
  | none => none

/-- The privilege of the issuing strand (R132): CTX_STATE.PRIV of its context, and whether it is a handler strand. (DEDUCED, log 11.) -/
def needPriv (p : Privilege) : Instr → Bool
  | .tlbinv _ => !p.priv
  | .ramode _ => !p.priv
  | .tret _ => !p.handler
  | .sysrd o => decide (0x100 ≤ o.sel.toNat) && !p.priv && (decide (0x200 ≤ o.sel.toNat) || selReadable o.sel)
  | .syswr o =>
    if o.sel = 0x010 then !p.handler
    else if o.sel = 0x00D then !p.priv
    else decide (0x100 ≤ o.sel.toNat) && !p.priv && (decide (0x200 ≤ o.sel.toNat) || selReadable o.sel)
  | _ => false

/-- R263: an undefined selector, or a write to one without write access, is a reserved FN value. -/
def selOk : Instr → Bool
  | .sysrd o => selReadable o.sel
  | .syswr o => selWritable o.sel
  | _ => true

/-- The extension bits whose reserved values R228 puts under RESERVED-FN: ABW of SSTEP. -/
def fnExt (op : BitVec 8) : BitVec 64 := if op = 0xE3 then 0x70000000 else 0

/-- Whether two words agree in every bit that R132 puts under RESERVED-BIT. -/
def sameBits (e r : Raw) : Bool :=
  e.c == r.c && e.lc == r.lc && e.lb == r.lb && e.la == r.la && e.b == r.b && e.a == r.a && e.d == r.d &&
    e.setf == r.setf && e.guard == r.guard && (e.ext ||| fnExt r.op) == (r.ext ||| fnExt r.op)

/-- Decoding the fields of a word, in the order of R132. -/
def decodeRaw (p : Privilege) (r : Raw) : Except DecodeFault Instr :=
  match lookup r with
  | none => .error .illegalOpcode
  | some i =>
    if needPriv p i then .error .privileged
    else
      match encode i with
      | none => .error .illegalOpcode
      | some e =>
        if !sameBits e r then .error .reservedBit
        else if e == r && selOk i then .ok i
        else .error .reservedFn

/-- Bytes of code a word occupies, from its LEN (R116). -/
def lenBytes (len : BitVec 2) : Nat := if len = 2 ∨ len = 3 then 16 else 8

/-- The fields of the base word w and the extension x (R118); x is 0 for a 64-bit instruction. -/
def rawOf (w x : Nat) : Raw :=
  { len := BitVec.ofNat 2 w, op := BitVec.ofNat 8 (w / 2 ^ 2), guard := BitVec.ofNat 5 (w / 2 ^ 10),
    setf := BitVec.ofNat 2 (w / 2 ^ 15), d := BitVec.ofNat 8 (w / 2 ^ 17), a := BitVec.ofNat 8 (w / 2 ^ 25),
    b := BitVec.ofNat 8 (w / 2 ^ 33), la := w / 2 ^ 41 % 2 == 1, lb := w / 2 ^ 42 % 2 == 1, lc := w / 2 ^ 43 % 2 == 1,
    c := BitVec.ofNat 8 (w / 2 ^ 44), fn := BitVec.ofNat 12 (w / 2 ^ 52),
    ext := BitVec.ofNat 64 (if lenBytes (BitVec.ofNat 2 w) = 16 then x else 0) }

/-- The base word of the fields (R118). -/
def Raw.word (r : Raw) : Nat :=
  r.len.toNat + 2 ^ 2 * r.op.toNat + 2 ^ 10 * r.guard.toNat + 2 ^ 15 * r.setf.toNat + 2 ^ 17 * r.d.toNat + 2 ^ 25 * r.a.toNat +
    2 ^ 33 * r.b.toNat + 2 ^ 41 * r.la.toNat + 2 ^ 42 * r.lb.toNat + 2 ^ 43 * r.lc.toNat + 2 ^ 44 * r.c.toNat + 2 ^ 52 * r.fn.toNat

/-- The value of bytes, the first least significant (R3). -/
def leNat : List Byte → Nat
  | [] => 0
  | b :: bs => b.toNat + 256 * leNat bs

/-- The n lowest bytes of v, least significant first (R3). -/
def leBytes : Nat → Nat → List Byte
  | 0, _ => []
  | n + 1, v => BitVec.ofNat 8 v :: leBytes n (v / 256)

/-- The bytes of code of a word: 8, or 16 with the extension or the immediate and its pad (R116). -/
def Raw.bytes (r : Raw) : List Byte :=
  leBytes 8 r.word ++ (if lenBytes r.len = 16 then leBytes 8 r.ext.toNat else [])

/-- The bytes of a well-formed instruction; none for an event, which is no word. -/
def encodeBytes (i : Instr) : Option (List Byte) := (encode i).map Raw.bytes

/-- Decoding the instruction whose bytes stand first in bs; bytes missing at the end read as zero. The caller has checked
FETCH-CROSS. A word with LEN 00 is a header where no header may stand (R132). -/
def decode (p : Privilege) (bs : List Byte) : Except DecodeFault Instr :=
  let w := leNat (bs.take 8)
  if w % 4 = 0 then .error .badClause
  else decodeRaw p (rawOf w (leNat ((bs.drop 8).take 8)))

/-- The host's question: the instruction the decoder reads from a word whose bits are w, numbered as the opcode table
numbers them. The longest word has 128 bits; every bit above nbits is 0. Privilege is granted. -/
def decodeTableWord (nbits w : Nat) : Option Instr :=
  match decode { priv := true, handler := true } (leBytes 16 (w % 2 ^ nbits)) with
  | .ok i => some i
  | .error _ => none

end Sys2Proof
end

