-- ==== Sys2Proof/Config.lean ====
section
/-! DEFINITION. What the manual leaves open and what an implementation fixes. The opaque constants are free values: nothing
in Lean can evaluate them, so a statement holds whatever they are. Their arguments are a counter of the state and a number
for the place that asks. The standard functions that the manual names without giving them (SHAKE256, SLH-DSA) are opaque
functions of their real arguments (18 R407, R408; 14 R316). -/
namespace Sys2Proof.Config

/-- GTB ticks that pass during a step (00 R8: how long anything takes is open). (DESIGN CHOICE, log 14.) -/
opaque elapsed : Nat → Nat

/-- Which of several steps that may come next comes next (first argument: the step counter). -/
opaque next : Nat → Nat

/-- A free choice: step counter, place. -/
opaque choice : Nat → Nat → Nat

/-- The distance of a write's GWCT from the earliest that 11 R270 allows. -/
opaque gwct : Nat → Nat → Nat

/-- SKTOKEN of a skein (10 R238, R263): the manual gives no value. (DESIGN CHOICE, log 12.) -/
opaque skToken : Nat → BitVec 32

/-- CAUSE of a handler strand whose skein has been imported: no byte of an image holds it (15 R343). (DEDUCED, log 67.) -/
opaque lostCause : Nat → BitVec 64

/-- EPC of such a handler strand. (DEDUCED, log 67.) -/
opaque lostEpc : Nat → BitVec 64

/-- The token of a Parked strand whose skein has been imported: no byte of an image holds it (15 R343). (DEDUCED, log 67.) -/
opaque lostToken : Nat → BitVec 64

/-- TOKEN of a fault record (16 R362): the manual gives no value. (DESIGN CHOICE, log 13.) -/
opaque token : Nat → BitVec 64

/-- How many operand reads of an instruction the operand cache serves (03 R84): it changes energy charges only. (DESIGN CHOICE, log 18.) -/
opaque operandHits : Nat → Nat

/-- Stored size of a compressed block in 128-byte units, 0 plain (17 R381): the encoder of ply streams is not given. (DESIGN CHOICE, log 117.) -/
opaque blockForm : Nat → Nat → BitVec 3

/-- Ticks after which a write to a host window has reached the host's ordering point (10 R246): first argument the step counter, second the line. (DESIGN CHOICE, log 133.) -/
opaque hostOrder : Nat → Nat → Nat

/-- The steps after which a thing that can come next is passed by no longer (02 R57): progress is promised, its bound is not stated. (DESIGN CHOICE, log 134.) -/
opaque patience : Nat

/-- Core cycles of a spindle, beside the one that ends, that have passed since it last ended one (02 R41): first argument the step counter. (DESIGN CHOICE, log 14.) -/
opaque cycles : Nat → Nat

/-- Core cycles of a spindle that pass during a step (18 R405): step counter, spindle. (DESIGN CHOICE, log 14.) -/
opaque spindleCycles : Nat → Nat → Nat

/-- Core cycles that a mill's regions were stretched during a step (18 R400), and the crossing-FIFO occupancy sampled at a tick (19 R415). (DEDUCED, log 122.) -/
opaque stretched : Nat → Nat → BitVec 64
/-- DEDUCED, log 122. -/
opaque fifo : Nat → Nat → Nat

/-- Whether an address of a peer's memory lies in one of its compression windows (17 R382): the manual gives no way to know. (DESIGN CHOICE, log 118.) -/
opaque peerWindow : Nat → Bool

/-- What a domain's sensors measure over a tick (14 R304): first argument the step counter; none: the reading is lost. (DESIGN CHOICE, log 68.) -/
opaque sensor : Nat → Nat → Option Nat

/-- What a byte of device memory that had been written holds after a device reset (18 R406): step counter, address. (DESIGN CHOICE, log 80.) -/
opaque afterReset : Nat → Nat → Byte

/-- A byte that another package or the host has put where this package cannot see it being put: step counter, place. (DESIGN CHOICE, log 98.) -/
opaque foreign : Nat → Nat → Byte

/-- The bits that an injected error flips (16 R369), and the syndrome logged. (DESIGN CHOICE, log 92.) -/
opaque flip : Nat → Nat
/-- DESIGN CHOICE, log 92. -/
opaque syndrome : Nat → BitVec 32

/-- SHAKE256 with 32 bytes of output. (DESIGN CHOICE, log 119.) -/
opaque shake256 : List Byte → BitVec 256

/-- SLH-DSA-SHAKE-256f, pure mode, empty context string: verification (public key, message, signature), the public key derived
from a device secret, the signature of a message under that secret's key. (DESIGN CHOICE, log 119.) -/
opaque slhVerify : List Byte → List Byte → List Byte → Bool
/-- DESIGN CHOICE, log 119. -/
opaque slhPublic : BitVec 256 → BitVec 512
/-- DESIGN CHOICE, log 119. -/
opaque slhSign : BitVec 256 → List Byte → List Byte

/-- The package's certificate parts that the manual leaves to Tarund (18 R410): serial number and signature. (DESIGN CHOICE, log 119.) -/
opaque certSerial : BitVec 64
/-- DESIGN CHOICE, log 119. -/
opaque certSig : List Byte

/-! What the manual fixes. -/

/-- Metering tick in GTB ticks (00 R8). -/
def tickLen : Nat := 10000

/-- Largest distance of a GWCT from its Tp: local, and remote within the coherent group (11 R270). -/
def gwctLocal : Nat := 4096
def gwctRemote : Nat := 4146

/-- What an address of memory that nothing has written reads as (log 1). -/
def unlistedByte : Byte := 0

/-- Core voltage in mV and frequency in MHz of the twelve operating points (18 R401). -/
def volts : List Nat := [450, 480, 510, 540, 560, 580, 600, 620, 660, 700, 750, 800]
def freqs : List Nat := [600, 750, 900, 1000, 1100, 1200, 1300, 1400, 1450, 1500, 1550, 1600]

end Sys2Proof.Config
end

