-- ==== Sys2Proof/Machine/State.lean ====
section
/-! DEFINITION. The state of the package as plain data: every piece of state the manual names (INVENTORY.md, heading State),
the reasons a step can stop, and the state right after power-on. Lists that stand for things with identity (strands,
skeins, hanks, lots, packets, accesses in flight) are found by a key, a natural number handed out once; the list of
strands stands in age order, oldest first (02 R39), so a strand's place is its age stamp. -/
namespace Sys2Proof.Machine

/-- Why a step stops the machine. The manual gives every failure of the device a continuation (a trap, a parked strand, an
ended hank, a frozen master), so one reason is left: an access to a system physical address that the manual says does not
exist, made by an agent for which it describes no failure. Raised by HOST_MEMORY_ACCESS and HOST_ATOMIC. Safe: the machine stops. -/
inductive Fault where
  | noSuchAddress (spa : Nat)
  deriving DecidableEq, Repr

/-- Why a step gives no meaning. All are safe: nothing is claimed of what follows. -/
inductive Refusal where
  /-- No meaning written yet: raised by an arm of exec only. -/
  | notModelled (mnemonic : String)
  /-- exec of an instruction word in a state in which no strand is issuing; step never raises it. -/
  | noIssuingStrand
  deriving DecidableEq, Repr

/-- A sparse store: (key, value) pairs, keys strictly rising, no value zero; an unlisted key reads 0. -/
abbrev SMap (w : Nat) := List (Nat × BitVec w)

/-! ### Fibres and skeins -/

/-- One combined translation as a TLB entry or a last-page register holds it (16 R348 to R354): the virtual page and its size
as a power of two, the system physical address of the page's first byte, the effective permissions, the memory type,
the ENG bit, whether each stage's leaf has DT set and where the two leaves stand; whether every leaf used has A set; the virtual page of the
stage-1 leaf, and the guest pages of the stage-2 leaves through which tables were reached, each with its size as a power of two. -/
structure Trans where
  vd : Nat
  ctx : Nat
  vpage : Nat
  lg : Nat
  spage : Nat
  r : Bool
  w : Bool
  x : Bool
  uncached : Bool
  eng : Bool
  dt : Bool
  leaf1 : Nat
  leaf2 : Nat
  gpage : Nat
  lg2 : Nat
  acc : Bool
  lpage : Nat
  llg : Nat
  tabs : List (Nat × Nat)
  deriving DecidableEq, Repr

/-- A fibre (02 R29; 03 R78, R83; 16 R354). Its PC is the PC of its strand (R35). -/
structure Fibre where
  id : Nat
  preds : BitVec 16
  regs : SMap 32
  live : BitVec 48
  rel : BitVec 192
  lastPage : Option Trans
  deriving DecidableEq, Repr

/-- A barrier (02 R44, R45; 07 R162): generation G; the expected set and the arrivals of the open generation as
(skein key, fibre id) pairs; not open: expected is empty. -/
structure Barrier where
  g : BitVec 32
  opened : Bool
  expected : List (Nat × Nat)
  arrived : List (Nat × Nat)
  deriving DecidableEq, Repr

/-- A latch record (09 R220): share offset and length in bytes, first column, columns, compression bit, and the columns it still supplies. -/
structure LatchRec where
  off : Nat
  len : Nat
  n0 : Nat
  nc : Nat
  cmp : Bool
  cols : List Nat
  deriving DecidableEq, Repr

/-- The latch (09 R220): width m, depth in blocks, records. -/
structure Latch where
  m : Nat
  kb : Nat
  recs : List LatchRec
  deriving DecidableEq, Repr

/-- States of a register line (03 R79); Invalid lines are not listed. -/
inductive LineState where
  | clean | dirty | pinned | checkpoint | runahead
  deriving DecidableEq, Repr

/-- What a register line holds: a quad of a block of 32 fibres, a tile register, the uniform registers, or 256 predicate words (03 R76 to R79). -/
inductive LineKey where
  | vec (block quad : Nat) | tile (n : Nat) | uni | pred (n : Nat)
  deriving DecidableEq, Repr

structure RegLine where
  key : LineKey
  st : LineState
  strand : Nat
  deriving DecidableEq, Repr

/-- Operand-cache entry of a strand (03 R84): a register, dirty or not. -/
structure OpcEntry where
  strand : Nat
  reg : Nat
  dirty : Bool
  deriving DecidableEq, Repr

/-- A skein (01 R14; 02 R27 to R35; 03 R68, R76, R79; 09 R220; 10 R238). Tiles are keyed by 256 t + 16 i + j, accumulators
likewise, output rows by 128 o + n, scratchpad and share by byte offset; register lines stand least recently used first, and `written` are the
lines that have been written at all (the others still hold the zeros of R31); `gw` is the
largest GWCT of its completed writes (R34), `l1From` the GTB at which its last save began (11 R272). -/
structure Skein where
  id : Nat
  hank : Nat
  rank : Nat
  spindle : Nat
  vd : Nat
  ctx : Nat
  token : BitVec 32
  part : BitVec 32
  w : Nat
  fmax : Nat
  finit : Nat
  entry : BitVec 64
  base : BitVec 64
  fibres : List Fibre
  g : SMap 64
  tiles : SMap 16
  accs : SMap 32
  scr : SMap 8
  out : SMap 32
  cls : BitVec 2
  wg : Nat
  share : SMap 8
  latch : Option Latch
  bar : Barrier
  lines : List RegLine
  written : List LineKey
  opc : List OpcEntry
  retired : Bool
  gw : BitVec 64
  l1From : BitVec 64
  deriving DecidableEq, Repr

/-- The clause in force (05 R123): start, SIZE, FA, FB, RASTOP. -/
structure Clause where
  start : BitVec 64
  size : BitVec 2
  fa : BitVec 4
  fb : BitVec 4
  rastop : Bool
  deriving DecidableEq, Repr

/-- States of a strand (02 R43). -/
inductive StrandState where
  | ready | held | runahead | raStopped | barrier | sleeping | parked | trap
  deriving DecidableEq, Repr

/-- What a stalled or sleeping strand waits for at its PC; when it is over the instruction issues again (10 R234 "stall"). -/
inductive Wait where
  /-- A fence at a scope (R246), for FENCE and for the forms that wait as FENCE does. -/
  | fence (sc : Scope)
  /-- FENCEX (R247): the accesses and array work it waits for by key; whether it waits for writes to be globally complete. -/
  | fencex (ids : List Nat) (ls : Bool)
  /-- A completion flag held 255 times (05 R125). -/
  | flagFull (flag : Nat)
  /-- All region buffers of the skein in use (01 R17). -/
  | regionBuf
  /-- Earlier skein instructions must complete (09 R211, R222, R224): by keys of accesses and array work. -/
  | skeinWork (ids : List Nat)
  /-- 64 memory instructions of the skein that have not been sent from the spindle (15 R342). -/
  | unsent
  /-- An acquire that has not been performed (10 R248, 11 R273): the access key. -/
  | acquire (id : Nat)
  /-- CWAIT (R242): bitmap word and STATUS addresses, mask; its status once it is satisfied. -/
  | cwait (word stat : Nat) (mask : BitVec 64) (status : Option (BitVec 32))
  /-- SLEEP (R243): deadline, monitored line, whether a write has been performed there; whether it has woken. -/
  | sleep (until_ : Option Nat) (mon : Option Nat) (hit woke : Bool)
  /-- SLEEPUNTIL (R244): time, STATUS address with CHK; once it has woken, the GTB at wake and whether the promise was missed. -/
  | sleepUntil (t : BitVec 64) (chk : Option Nat) (woke : Option (BitVec 64 × Bool))
  /-- Barrier (02 R44 to R46): hank or skein; whether it only waits (BARW); fibres that wait for a generation to complete; fibres still to arrive, and BARA's destination
  with values so far; BARW's marked registers and the active fibres. -/
  | barrier (hank waits : Bool) (gens : List (Nat × BitVec 32)) (todo : List Nat) (bara : Option (Field8 × List (Nat × BitVec 32))) (rel act : List Nat)
  /-- FEEDPOP on an empty feed (02 R54): descriptor address (SPA), access key, fibres still waiting, woken by an append. -/
  | feed (desc : Nat) (id : Nat) (fibres : List Nat) (woken : Bool)
  /-- LAUNCH before the parser's decision (10 R252): queue descriptor SPA, slot; the decided status once there; its word and operand values (15 R342). -/
  | launch (desc : Nat) (slot : Nat) (status : Option (BitVec 32)) (word : List Byte) (ops : List (Nat × BitVec 64 × BitVec 64 × BitVec 64))
  /-- OPREQ being served (10 R260): request key; the decided status once there. -/
  | opreq (req : Nat) (status : Option (BitVec 32))
  /-- TLBINV (16 R356): invalidation key. -/
  | invalidation (inv : Nat)
  /-- EBRK or a page fault: the fault record's token (10 R262, 16 R363). -/
  | token (t : BitVec 64)
  deriving DecidableEq, Repr

/-- A handler strand's record (10 R261): CAUSE, EPC, whether EPC was written, the trapped strand's key. -/
structure TrapRec where
  cause : BitVec 64
  epc : BitVec 64
  epcWritten : Bool
  trapped : Nat
  deriving DecidableEq, Repr

/-- A store held in a region buffer (10 R257): fibre, virtual address, bytes, and the instruction that made it (its order, under which it holds its
completion flags), the scope of a STRL, the arithmetic flags it raises when it completes (04 R110; 05 R128). -/
structure BufStore where
  seq : Nat
  fibre : Nat
  va : BitVec 64
  bytes : List Byte
  ep : Ep
  noal : Bool
  sc : Option Scope
  flags : BitVec 6
  deriving DecidableEq, Repr

/-- An open idempotent region (10 R256, R257): start PC, clause of the start, buffered stores oldest first, bytes used, destination of IDEM and
the fibres that executed it; the key that was next when it opened, by which accesses issued before are told. -/
structure IdemRegion where
  opened : Nat
  start : BitVec 64
  clause : Clause
  dest : Field8
  act : List Nat
  used : Nat
  stores : List BufStore
  deriving DecidableEq, Repr

/-- A feed record held by FEEDPOP.hold (10 R255): feed descriptor SPA and virtual address, index. -/
structure HeldRec where
  desc : Nat
  va : BitVec 64
  idx : Nat
  deriving DecidableEq, Repr

/-- A fibre's registers at runahead entry (02 R59). -/
structure SavedFibre where
  id : Nat
  preds : BitVec 16
  regs : SMap 32
  live : BitVec 48
  rel : BitVec 192
  deriving DecidableEq, Repr

/-- A strand's runahead view (02 R58 to R63): the checkpoint, INV marks on (fibre, register), (fibre, predicate) and uniform
registers, strand-local uniform copies, poisoned fibres, the held clause's PC and WAIT, energy since entry, lines allocated. -/
structure RaView where
  saved : List SavedFibre
  invR : List (Nat × Nat)
  invP : List (Nat × Nat)
  invG : List Nat
  g : SMap 64
  gSet : List Nat
  poisoned : List Nat
  pc : BitVec 64
  clause : Option Clause
  waits : BitVec 12
  spent : Nat
  lines : Nat
  dirty : Nat
  deriving DecidableEq, Repr

/-- A strand (02 R35 to R43, R126; 05 R125; 10 R245, R256, R261). `fibres` are ids, rising; `clause` is none while the
strand stands at a clause start whose header has not been passed; `holds` are (flag, key of an access that holds it);
`arith` are the flags of completed typed loads and stores whose ARITH-TRAP is still to be taken, oldest first (04 R109); `ras` is the
return-address stack, newest first (07 R154); `acks` are its fabric writes (port, tenant, number) whose acknowledgement a fence may wait for, and `hostAt` the
time at which its writes to host windows have reached the host's ordering point (10 R246); `block` the fetch block it is executing, by code address (11 R283); `faulted` the key under which an instruction that has met a page fault goes on holding
its flags while the strand is parked (05 R129). -/
structure Strand where
  id : Nat
  skein : Nat
  fibres : List Nat
  st : StrandState
  pc : BitVec 64
  clause : Option Clause
  waits : BitVec 12
  waitCount : Nat
  due : Bool
  dueCycles : Nat
  inPlace : List Nat
  holds : List (Nat × Nat)
  h : BitVec 64
  wait : Option Wait
  again : Bool
  trap : Option TrapRec
  region : Option IdemRegion
  held : List HeldRec
  ra : Option RaView
  active : Bool
  arith : List (BitVec 6)
  ras : List (BitVec 64)
  acks : List (Nat × Nat × BitVec 12)
  hostAt : BitVec 64
  block : Option (BitVec 64 × List Byte)
  faulted : Option Nat
  deriving DecidableEq, Repr

/-! ### Accesses in flight -/

/-- One fibre's part of an access: its bytes at system physical address spa (scratchpad: the offset in skein scrSkein); the
data to be written or the operand; done once performed; bytes it takes from the strand's region buffer, by offset (10 R257); the
translation it went through (16 R356). -/
structure Lane where
  fibre : Nat
  va : BitVec 64
  spa : Nat
  size : Nat
  data : List Byte
  cmp : BitVec 64
  elem : Nat
  uncached : Bool
  done : Bool
  fwd : List (Nat × Byte)
  tr : Option Trans
  deriving DecidableEq, Repr

/-- What an access in flight does when it is performed. -/
inductive Acc where
  /-- LD, LDC (const), LDAQ (scope) (08 R195, R199; 10 R248). -/
  | load (d : Field8) (fmt : Fmt) (const : Bool) (acq : Bool) (ep : Ep) (noal : Bool)
  /-- LDS (08 R200), from scratchpad of a skein per lane. -/
  | lds (d : Field8) (fmt : Fmt)
  /-- ST, STRL (08 R196). -/
  | store (ep : Ep) (noal : Bool)
  /-- STS (08 R200). -/
  | sts
  /-- ATOM, RATOM, RED of integers (08 R201, R202). -/
  | atom (d : Option Field8) (op : AtomOp) (ty : IntTy) (acq : Bool)
  /-- ATOMF, RED of floats (08 R203). -/
  | atomf (d : Option Field8) (op : AtomFOp) (acq : Bool)
  /-- RSTF (10 R249): the flag's address, the increment, the scope. -/
  | rstf (flag : Nat) (inc : Nat) (sc : Scope) (ep : Ep) (noal : Bool)
  /-- FEEDPOP (10 R255): destination run, HOLD, feed descriptor SPA; lanes carry the records as they come. -/
  | feedpop (d : Field8) (hold : Bool) (desc : Nat)
  /-- TLD, ALD (09 R214): acc: accumulator or tile; register; region; scratchpad or memory; hints. -/
  | mload (acc : Bool) (r : Nat) (rows cols : Nat) (sp : Bool) (ep : Ep) (noal : Bool)
  /-- TST, AST: accumulator or tile; register; scratchpad or memory; hints. -/
  | mstore (acc : Bool) (r : Nat) (sp : Bool) (ep : Ep) (noal : Bool)
  /-- WLD (09 R224): share offset, hints. -/
  | wld (off : Nat) (ep : Ep) (noal : Bool)
  /-- SBUILD (09 R230): source and destination places, blocks, width, KLAST. -/
  | sbuild (src dst : Nat) (kb : Nat) (ma : Nat) (klast : Nat)
  /-- SDRAIN (09 R231): the place of each row, format, CLR, rounding mode code, first output row, columns. -/
  | sdrain (dst : List Nat) (ofmt : DrainFmt) (clr : Bool) (mode : Nat) (orow nc : Nat)
  /-- PFT (08 R205): to L1 also, evict last, distinct descriptors (base, stride of rows, stride of planes), counts. -/
  | pft (l1 el : Bool) (descs : List (BitVec 64 × BitVec 64 × BitVec 64)) (e0 e1 e2 : Nat)
  /-- CCTL (08 R206): lanes are lines. -/
  | cctl (cop : CctlOp)
  /-- CPIN, CUNPIN (08 R207): a part per fibre, its length in cmp. -/
  | pin (unpin : Bool) (d : Field8)
  /-- ICINV (08 R209): a part per fibre, its length in cmp. -/
  | icinv
  /-- PUBLISH (10 R251). -/
  | publish
  /-- COMMIT (10 R258): lanes are the buffered stores in program order. -/
  | commitStore (stores : List BufStore)
  deriving DecidableEq, Repr

/-- An access in flight (05 R127, R128; 11 R267): key (keys rise in issue order), the strands that follow it (copied at a
split, united at a merge), its skein, spindle, account, PC, what it does, its parts, whether an L2 or TLB miss is known
(02 R58), whether it is known to have left the spindle (15 R341), whether it is held by a full dirty log (16 R358), the largest GWCT of its performed writes, the flags it raises at completion, and those of them that can
trap (03 R75; 04 R109); its word and the values of A, B and C that each active fibre had at issue (05 R127; 15 R342). -/
structure Pending where
  id : Nat
  strands : List Nat
  skein : Nat
  spindle : Nat
  vd : Nat
  ctx : Nat
  acc : Acc
  lanes : List Lane
  miss : Bool
  sent : Bool
  dlogHeld : Bool
  gwct : BitVec 64
  pc : BitVec 64
  flags : BitVec 6
  tflags : BitVec 6
  word : List Byte
  ops : List (Nat × BitVec 64 × BitVec 64 × BitVec 64)
  deriving DecidableEq, Repr

/-- What array work does (09 R217, R228): TMMA's registers and counts; SSTEP's and SLUT's rows by place, blocks, columns, output row. -/
inductive ArrayOp where
  | tmma (d a b : Nat) (bf zc : Bool) (rows cols depth : Nat)
  | sstep (src : List Nat) (kb klast nc : Nat) (zero : Bool) (ma : Nat) (orow : Nat)
  | slut (src : List Nat) (kb nc : Nat) (zero : Bool) (orow : Nat)
  deriving DecidableEq, Repr

/-- Pending work of the array (09 R223): key in issue order, the strands that follow it, skein, the instruction; next row and block; the sums of
the row in progress; the BTE packet it belongs to; whether a step has been taken, whether one has begun, and the GTB at which it began; PC, word and operand values, as for an access;
the flags it has raised so far. -/
structure ArrayWork where
  id : Nat
  strands : List Nat
  skein : Nat
  spindle : Nat
  op : ArrayOp
  r : Nat
  b : Nat
  sums : List (BitVec 32)
  pkt : Option Nat
  started : Bool
  begun : Bool
  startGtb : BitVec 64
  pc : BitVec 64
  word : List Byte
  ops : List (Nat × BitVec 64 × BitVec 64 × BitVec 64)
  flags : BitVec 6
  deriving DecidableEq, Repr

/-- A replay entry (15 R341, R342): whether it is array work; the key and the flags' holder it had, skein, the strands that follow it, word, PC, each active fibre's A, B and C; for
array work the next (r, b) and the flags raised so far (the sums of the row in progress stand in its output row); the stores that a COMMIT has still to
perform; the token of a page fault met when it was issued again. -/
structure Replay where
  id : Nat
  array : Bool
  skein : Nat
  strands : List Nat
  word : List Byte
  pc : BitVec 64
  ops : List (Nat × BitVec 64 × BitVec 64 × BitVec 64)
  r : Nat
  b : Nat
  flags : BitVec 6
  stores : List BufStore
  token : Option (BitVec 64)
  deriving DecidableEq, Repr

/-- What is put back after the step that issues a replay entry: the strand and the skein as they stood, the entry's key, and whether the strand stands in only
for that step, none that follows the entry being left. -/
structure Undo where
  strand : Strand
  skein : Skein
  replay : Nat
  ghost : Bool
  deriving DecidableEq, Repr

/-! ### Caches -/

/-- A copy of a line in a spindle's L1 (11 R269): bytes, lease end and grant time, whether in the constant partition, eviction priority. -/
structure L1Copy where
  line : Nat
  bytes : List Byte
  granted : BitVec 64
  leaseEnd : BitVec 64
  const : Bool
  ep : Ep
  deriving DecidableEq, Repr

/-- A fetch block in a spindle's instruction cache (11 R283). -/
structure ICBlock where
  vd : Nat
  spa : Nat
  bytes : List Byte
  deriving DecidableEq, Repr

/-- What belongs to one spindle by logical number (01 R12): L1 copies, instruction cache, TLB entries, the skein whose latch
is in the cells (09 R223), whether it is draining before its removal (16 R371), counted uncorrectable errors, an array reset in progress until a GTB,
the strands that have taken one of its four pipes in the present core cycle (02 R39). -/
structure Spindle where
  num : Nat
  l1 : List L1Copy
  ic : List ICBlock
  tlb : List Trans
  cells : Option Nat
  errs : Nat
  draining : Bool
  resetUntil : Option (BitVec 64)
  cycle : List Nat
  deriving DecidableEq, Repr

/-- A line present in L2 (08 R206, R207; 02 R65; 17 R384 to R386): dirty, VD and context that last wrote it (no context once that has ended), VD charged with its room, contexts that
pin it, eviction priority, filled by runahead and not yet used. -/
structure L2Line where
  line : Nat
  dirty : Bool
  writer : Option (Nat × Option Nat)
  vd : Nat
  pins : List (Nat × Nat)
  ep : Ep
  ra : Bool
  deriving DecidableEq, Repr

/-! ### Hanks, lots, queues, packets -/

/-- States of a hank (02 R28, 15 R340 to R347): placed; quiescing; halted with its image kept. A hank whose last
skein has retired, or that was ended, leaves the list. -/
inductive HankState where
  | placed | quiescing | saved
  deriving DecidableEq, Repr

/-- Why a hank is being removed, for what follows its halt: pre-emption, a freeze (16 R365), the end of its context (17 R390). -/
inductive HaltWhy where
  | preempt | freeze | ending
  deriving DecidableEq, Repr

/-- A hank (02 R27, R48; 15 R340 to R345): lot, index, frame, skein keys in rank order, hank barrier, backing slot, where its saved
image is (in the shadow banks of its spindles, or in a save slot), order of first placement, GTB of the request, GTB up to which its
residency is accounted for (14 R307). -/
structure Hank where
  id : Nat
  lot : Nat
  index : Nat
  frame : Nat
  skeins : List Nat
  bar : Barrier
  slot : Nat
  st : HankState
  why : HaltWhy
  saveSlot : Nat
  inShadow : Bool
  first : Nat
  tq : BitVec 64
  since : BitVec 64
  mig : Bool
  failed : Bool
  deriving DecidableEq, Repr

/-- One skein record of a program descriptor (15 R327). -/
structure SkeinRec where
  entry : BitVec 64
  pw : BitVec 32
  fmax : Nat
  finit : Nat
  w : Nat
  deriving DecidableEq, Repr

/-- A lot (02 R51; 15 R326 to R329), with the LAUNCH packet as parsed (19 R419). -/
structure Lot where
  id : Nat
  vd : Nat
  ctx : Nat
  desc : Nat
  seq : Nat
  recs : List SkeinRec
  args : List (BitVec 64)
  hanks : Nat
  next : Nat
  live : Nat
  retired : Nat
  failHank : Option Nat
  code : BitVec 8
  detail : BitVec 8
  cmpl : BitVec 64
  sigAddr : BitVec 64
  sigVal : BitVec 64
  sigAdd : Bool
  backBase : BitVec 64
  nback : Nat
  used : List Nat
  packet : List Byte
  deriving DecidableEq, Repr

/-- One level of an indirect buffer being parsed (15 R330): address of the next packet, packets left. -/
structure IbLevel where
  addr : BitVec 64
  left : Nat
  deriving DecidableEq, Repr

/-- A queue front end (15 R323 to R332; 10 R235 to R237): descriptor SPA; indirect buffers in progress, innermost first; WAIT in
force; sequence number of the next packet; sequence numbers of packets begun and not complete; paused on a fault token;
whether the IB at the slot is to be skipped (R330); promises made at claims, by slot (10 R241);
records of the FEED packet at the head appended so far;
the largest GWCT of the writes made for the queue; whether the packet in the slot at RIDX has been consumed and the slot has still to be zeroed (R324). -/
structure QueueFE where
  desc : Nat
  ibs : List IbLevel
  wait : Option (BitVec 64 × BitVec 64)
  seq : Nat
  open_ : List Nat
  token : Option (BitVec 64)
  skipIb : Bool
  promises : List (Nat × BitVec 64)
  fed : Nat
  gw : BitVec 64
  zero : Bool
  deriving DecidableEq, Repr

/-- Where a BTE packet stands (10 R237 to R241, 15 R343, 16 R365): waiting for ORD or SIGNAL order or accepted; moving; paused on a
page fault; frozen by a violation; copy landed and the array command outstanding; a replay entry of a stopped VD. -/
inductive PktState where
  | waiting | moving | paused (token : BitVec 64) | frozen (cause : BitVec 8) | arrayCmd | arrayWait | replay
  deriving DecidableEq, Repr

/-- A BTE packet in progress: its 64 bytes, queue descriptor, slot index, order in its queue, owner, mill and BTE, whether the host appended it, chunks done, chunks whose
bytes have moved but are not yet globally complete with their GWCT (10 R239), bytes moved, an expanded stream, the skein of a COPY+ARRAY, and the
final STATUS once it is decided but not yet written. -/
structure BtePkt where
  id : Nat
  desc : Nat
  slot : Nat
  seq : Nat
  vd : Nat
  ctx : Nat
  mill : Nat
  bte : Nat
  host : Bool
  bytes : List Byte
  accepted : Bool
  promise : BitVec 64
  st : PktState
  done : List Nat
  landed : List (Nat × BitVec 64)
  chunks : Nat
  moved : Nat
  data : List Byte
  skein : Option Nat
  fin : Option (BitVec 32)
  deriving DecidableEq, Repr

/-! ### Faults, invalidations, messages -/

/-- Classes of fault records (16 R362), in code order from 1. -/
inductive FltClass where
  | decode | execute | page1 | page2 | violation | debug | data | arrayReset | regionAbort
  deriving DecidableEq, Repr

/-- What a fault record says of a failure (16 R362): class, code, ACCESS, LEVEL, fibre, PC, VA, GPA, DETAIL; of a data error, the poisoned line. -/
structure Flt where
  cls : FltClass
  code : Nat
  access : Nat
  level : Nat
  fibre : Nat
  pc : BitVec 64
  va : BitVec 64
  gpa : Nat
  detail : Nat
  line : Option Nat := none
  deriving DecidableEq, Repr

/-- What a fault record's token resumes, or what waits for the record to be written (16 R361, R363). -/
inductive Stopped where
  | nothing
  | strand (id : Nat)
  | packet (id : Nat)
  | queue (desc : Nat)
  | write (id : Nat)
  deriving DecidableEq, Repr

/-- A fault record on its way to a queue (16 R362, R363): its 64 bytes, the queue, what its token resumes, the strand that goes on as it is written. -/
structure FltWait where
  queue : FltQueue
  bytes : List Byte
  stops : Stopped
  after : Option Nat
  deriving DecidableEq, Repr

/-- A token that resumes something (16 R363): its value, stage 2 or not, what it resumes. -/
structure Token where
  value : BitVec 64
  host : Bool
  stops : Stopped
  deriving DecidableEq, Repr

/-- An invalidation in progress (16 R355, R356): key, VD, stage, the context of a stage-1 invalidation (none: every context of the VD), range
(no length: everything), whether VD_INVCMD started it. -/
structure Inv where
  id : Nat
  vd : Nat
  stage2 : Bool
  ctx : Option Nat
  lo : Nat
  len : Option Nat
  reg : Bool
  deriving DecidableEq, Repr

/-- A write on the CP path (15 R329, R346; 16 R424): key, account's VD and context, queue, virtual address, bytes or an 8-byte value
to store or add; whether it is an append of the CP's own to the feed at the address (02 R52); withheld while its VD is stopped; waiting on a token, or
until GTB has passed a GWCT (a release). -/
structure CpWrite where
  id : Nat
  vd : Nat
  ctx : Nat
  desc : Nat
  va : BitVec 64
  bytes : List Byte
  add : Option (BitVec 64)
  feed : Bool
  token : Option (BitVec 64)
  after : BitVec 64
  deriving DecidableEq, Repr

/-- A write of the device's own that a full dirty-page log holds (16 R358): context, whether its address is guest physical, mill, address, bytes. -/
structure OwnWrite where
  ctx : Option Nat
  gpa : Bool
  mill : Nat
  va : BitVec 64
  bytes : List Byte
  deriving DecidableEq, Repr

/-- A request for an operating point (14 R319; 18 R404): partition, point, from a strand's OPREQ (key of the request) or a VD's register, the asking VD. -/
structure OpReq where
  id : Nat
  pid : Nat
  vd : Nat
  point : Nat
  strand : Option Nat
  fromReg : Bool
  deriving DecidableEq, Repr

/-- A change of operating point in progress (18 R402 to R404): partition, p, q, whether the step in progress is the voltage
step, whether it is the first of the two, the request it serves, the mills that it moves: those that were in the partition as it began; whether it
brings some of them to the point of the others (14 R425). -/
structure OpChange where
  pid : Nat
  mills : List Nat
  gather : Bool
  from_ : Nat
  target : Nat
  volt : Bool
  first : Bool
  req : Option OpReq
  deriving DecidableEq, Repr

/-- What the device has sent out: interrupts to the host, flits and coherence messages on the fabric, PCIe AtomicOps and completions,
notices to the CP. -/
inductive Msg where
  | hostIrq (vd : Nat)
  | flit (bytes : List Byte)
  | ack (port tenant : Nat) (seq : BitVec 12)
  | nack (port tenant : Nat) (seq : BitVec 12)
  | replay (port tenant : Nat) (seq : BitVec 12)
  | invAck (line : Nat) (lease : BitVec 64)
  | writeback (line : Nat)
  | invGroup (line : Nat)
  | myCap
  | cpNotice (mill : Nat)
  | atomicResult (old : BitVec 64)
  | readData (bytes : List Byte)
  | unsupported
  | eccReport (mill : Nat)
  deriving DecidableEq, Repr

/-! ### Registers -/

/-- A bucket's registers (14 R309). -/
structure Bucket where
  lvl : BitVec 64
  refill : BitVec 64
  ceil : BitVec 64
  adj : BitVec 64
  deriving DecidableEq, Repr

/-- A context's runahead counters (02 R65). -/
structure RaCounters where
  epi : BitVec 64
  ins : BitVec 64
  pfl : BitVec 64
  wlk : BitVec 64
  use : BitVec 64
  stp : BitVec 64
  cap : BitVec 64
  fj : BitVec 64
  deriving DecidableEq, Repr

/-- A context (14 R299): its VD and number, CTX_STATE, CTX_ registers, account, meter and bucket. `est` is e(x, d) of the open
tick by domain and `gran` its granule-residency by mill. -/
structure Ctx where
  vd : Nat
  num : Nat
  st : BitVec 2
  priv : Bool
  fpctl : BitVec 64
  ractl : BitVec 64
  ra : RaCounters
  regFill : BitVec 64
  regSpill : BitVec 64
  stale : BitVec 64
  dbg : BitVec 64
  fair : BitVec 64
  pin : BitVec 64
  array : BitVec 64
  tvec : BitVec 64
  lease : BitVec 64
  sched : BitVec 64
  vb : BitVec 64
  ab : BitVec 64
  vtop : BitVec 64
  save : BitVec 64
  ptbase : BitVec 64
  jacc : BitVec 64
  mtr : BitVec 128
  foldAt : BitVec 64
  bkt : Bucket
  stopped : Bool
  runnable : Bool
  ending : Bool
  est : List (Nat × Nat)
  gran : List (Nat × Nat)
  deriving DecidableEq, Repr

/-- A ring of records in memory (16 R357, R363; 15 R331): its configuration register, HEAD and TAIL. -/
structure Ring where
  cfg : BitVec 64
  head : BitVec 64
  tail : BitVec 64
  deriving DecidableEq, Repr

/-- What a meter reading covers (14 R315): SEQ of the last one, its METER, the first tick not yet covered, the GTB of the last one,
and the sums over the ticks since. -/
structure Reading where
  seq : BitVec 64
  prev : BitVec 128
  first : BitVec 64
  last : BitVec 64
  formedAt : BitVec 64
  adj : Int
  leak : Nat
  cmin : BitVec 32
  cmax : BitVec 32
  nclamp : Nat
  lost : Bool
  final : Bool
  deriving DecidableEq, Repr

/-- A VD's BTE bandwidth on one mill (10 R240): RATE, signed level, bytes moved and borrowed in the tick, in debt after the refill. -/
structure BteBkt where
  mill : Nat
  rate : Nat
  lvl : Int
  moved : Nat
  borrowed : Nat
  debt : Bool
  deriving DecidableEq, Repr

/-- A virtual device (14 R298; 17 R388 to R390) with its registers. -/
structure Vd where
  num : Nat
  bound : Bool
  stopped : Bool
  ldFrozen : Bool
  ending : Bool
  run : BitVec 64
  exit : BitVec 64
  save : BitVec 64
  mem : BitVec 64
  s2base : BitVec 64
  invcmd : BitVec 64
  invaddr : BitVec 64
  invlen : BitVec 64
  dlog : Ring
  fltq : Ring
  fltres : BitVec 64
  errq : Ring
  errLost : BitVec 64
  bte : List BteBkt
  btesel : BitVec 64
  jacc : BitVec 64
  mtr : BitVec 128
  foldAt : BitVec 64
  bkt : Bucket
  empty : Bool
  unmapped : List Nat
  mtrcfg : BitVec 64
  mtrivl : BitVec 64
  mtrack : BitVec 64
  reading : Reading
  opallow : BitVec 64
  opreq : BitVec 64
  l2share : BitVec 64
  ways : List Nat
  pinwin : SMap 64
  pinold : List (Nat × BitVec 64)
  est : List (Nat × Nat)
  withheld : List CpWrite
  ownHeld : List OwnWrite
  deriving DecidableEq, Repr

/-- A mill (01 R12) with its registers. `rows` are (weight row, GTB ticks in force) of the open tick; `flipped` is the injection whose bits a write has stored and no access has met yet (16 R369); `overTicks` counts consecutive
ticks over the ceiling; `volt` and `freq` are the points whose voltage and frequency are held; `busy` and `mstall` count core cycles (18 R405);
`reserved` are frames cleared for a waiting hank: logical frame, VDID * 1024 + CTX (15 R337). -/
structure Mill where
  num : Nat
  part : BitVec 64
  opfloor : BitVec 64
  opcap : BitVec 64
  jceil : BitVec 64
  sched : BitVec 64
  afr : BitVec 64
  arraywd : BitVec 64
  elogidx : BitVec 64
  elog : SMap 256
  einj : BitVec 64
  flipped : Option (BitVec 64)
  spare : BitVec 64
  offline : BitVec 128
  margin : BitVec 64
  marginth : BitVec 64
  stretch : BitVec 64
  oppt : BitVec 64
  volt : Nat
  freq : Nat
  row : Nat
  rows : List (Nat × Nat)
  stall : BitVec 64
  busy : Nat
  mstall : Nat
  xfocc : BitVec 64
  overTicks : Nat
  reserved : List (Nat × Nat)
  deriving DecidableEq, Repr

/-- An energy domain (14 R301 to R305): last tick's statistics; the weight table in force, keyed 40 p + k, and the one that takes effect at the next tick. -/
structure Dom where
  num : Nat
  meas : BitVec 64
  est : BitVec 64
  c : BitVec 64
  unatt : BitVec 64
  weights : SMap 32
  nextW : SMap 32
  deriving DecidableEq, Repr

/-- The fuses (18 R408). -/
structure Fuses where
  keyHash : BitVec 256
  svn : BitVec 32
  secret : BitVec 256
  deriving DecidableEq, Repr

/-- The command processor's registers and memory, and the always-on domain (15 R332, R339; 16 R363 to R370; 17 R392; 18 R406 to R408). -/
structure Cp where
  qslot : SMap 64
  turn : Nat
  preempt : BitVec 64
  preemptHanks : List Nat
  thaw : BitVec 64
  hfltq : Ring
  hfltres : BitVec 64
  areset : BitVec 64
  bboxIdx : BitVec 64
  bbox : SMap 256
  cpstat : BitVec 64
  reset : BitVec 64
  boot : BitVec 64
  fwaddr : BitVec 64
  tcm : SMap 8
  entry : BitVec 32
  fwid : BitVec 256
  devid : BitVec 256
  meterPub : BitVec 512
  fuses : Fuses
  bootCount : BitVec 64
  power : Bool
  gtbRun : Bool
  deriving DecidableEq, Repr

/-- One tenant on one port (17 R393 to R395): next number expected; whether a negative acknowledgement stands; flits held against the quota
and the pool; next number to send and packets sent and not acknowledged, with the GTB they were sent. -/
structure Link where
  port : Nat
  tenant : Nat
  next : BitVec 12
  gap : Bool
  quota : Nat
  pool : Nat
  sendNext : BitVec 12
  unacked : List (BitVec 12 × BitVec 64)
  deriving DecidableEq, Repr

/-- A grant waiting for its START (14 R320). -/
structure Grant where
  amount : BitVec 64
  start : BitVec 64
  expire : BitVec 64
  deriving DecidableEq, Repr

/-- A packet that has been taken and whose acknowledgement is still due: it follows once GTB is above `after`; before that the flag of an RSTF, at
an address and by an amount, is to be incremented (10 R249; 11 R280). -/
structure LateAck where
  port : Nat
  tenant : Nat
  seq : BitVec 12
  after : BitVec 64
  flag : Option (Nat × Nat)
  deriving DecidableEq, Repr

/-- The fabric's registers and link state (14 R320, R321; 17 R383, R393 to R397, R426; 18 R400, R409). Quotas are keyed 32 port + n;
`invs` are lines under an invalidation of the switches that is still to be acknowledged, with true for a back-invalidation; `late` are packets taken and
not yet acknowledged, in the order of their arrival; `hostGw` is the latest GWCT of the host's writes (11 R281). -/
structure Fab where
  pgrant : BitVec 64
  pgexp : BitVec 64
  psafe : BitVec 64
  lastSeq : BitVec 32
  grants : List Grant
  source : Option (BitVec 10)
  peersel : BitVec 64
  peercap : SMap 64
  mycap : BitVec 64
  port : List (Nat × BitVec 64)
  rxq : SMap 64
  rxqsel : SMap 64
  links : List Link
  recov : BitVec 64
  homeOnly : List Nat
  pkgid : BitVec 64
  grpsel : BitVec 64
  grp : SMap 64
  tsync : BitVec 64
  margin : BitVec 64
  invs : List (Nat × Bool)
  late : List LateAck
  hostGw : BitVec 64
  deriving DecidableEq, Repr

/-- The HBM registers (17 R379 to R383); `parity` are stripes locked by a write whose parity commit is pending (R378). -/
structure Hbm where
  stack : BitVec 64
  layout : BitVec 64
  relevel : BitVec 64
  cmpwin : SMap 64
  cmpmeta : SMap 64
  cmpnew : SMap 64
  parity : List Nat
  deriving DecidableEq, Repr

/-- A region stretched by a droop (18 R398). -/
abbrev Droops := List Region

/-- Memory and what is known of its lines: bytes by system physical address (17 R373; remote and host spaces included),
poisoned lines, and the syndromes of the errors that poisoned them (16 R362, R367), lines present in L2, VDs that are owed ways of it, in the order in which
the shares were granted (17 R384), the latest lease end granted on each line (11 R270). -/
structure Mem where
  bytes : SMap 8
  poison : List Nat
  synd : SMap 32
  l2 : List L2Line
  owed : List Nat
  leases : SMap 64
  deriving DecidableEq, Repr

/-- A thing that may come next: a strand's turn, a replay entry's, or an engine's step. -/
inductive Turn where
  | strand (k : Nat)
  | replay (r : Replay)
  | event (i : Instr)
  deriving DecidableEq, Repr

/-- The state of the package. `steps` counts steps and gives the free values their argument; `inputs` are the events that the
outside and the engines bring next, oldest first; `cur` is the strand that is issuing and `word` what it issues; `undo` is set only within a step
that issues a replay entry; `key` is the next free key; `passed` are the things that could come next and have been passed by since, the longest-waiting first,
with the steps that each has waited (02 R57). These seven are the model's own. `requeued` are feed records that are to be delivered again (02 R56): descriptor, index, and the token that says when their pages are resident. -/
structure State where
  steps : Nat
  inputs : List Instr
  cur : Option Nat
  word : List Byte
  undo : Option Undo
  key : Nat
  gtb : BitVec 64
  tick : BitVec 64
  mem : Mem
  spindles : List Spindle
  strands : List Strand
  skeins : List Skein
  hanks : List Hank
  pend : List Pending
  array : List ArrayWork
  replays : List Replay
  lots : List Lot
  queues : List QueueFE
  pkts : List BtePkt
  writes : List CpWrite
  flts : List FltWait
  tokens : List Token
  invs : List Inv
  opreqs : List OpReq
  changes : List OpChange
  ctxs : List Ctx
  vds : List Vd
  mills : List Mill
  doms : List Dom
  cp : Cp
  fab : Fab
  hbm : Hbm
  droops : Droops
  requeued : List (Nat × Nat × Option (BitVec 64))
  passed : List (Turn × Nat)
  sent : List Msg
  deriving DecidableEq, Repr

/-! ### Reset values -/

def Barrier.reset : Barrier := { g := 0, opened := false, expected := [], arrived := [] }
def Bucket.reset : Bucket := { lvl := 0, refill := 0, ceil := 0, adj := 0 }
def RaCounters.reset : RaCounters := { epi := 0, ins := 0, pfl := 0, wlk := 0, use := 0, stp := 0, cap := 0, fj := 0 }
def Ring.reset : Ring := { cfg := 0, head := 0, tail := 0 }
def Reading.reset : Reading :=
  { seq := 0, prev := 0, first := 0, last := 0, formedAt := 0, adj := 0, leak := 0, cmin := 0, cmax := 0, nclamp := 0, lost := false, final := false }

/-- A context right after its creation (14 R299): CTX_ registers at their reset values, account and meter zero, bucket empty. -/
def Ctx.create (vd num : Nat) : Ctx :=
  { vd := vd, num := num, st := 1, priv := false, fpctl := 0, ractl := 0x0100000000000000, ra := RaCounters.reset, regFill := 0,
    regSpill := 0, stale := 0, dbg := 0, fair := 0x200, pin := 0, array := 0, tvec := 0, lease := 0x400, sched := 0x10000, vb := 0,
    ab := 0, vtop := 0, save := 1, ptbase := 0, jacc := 0, mtr := 0, foldAt := 0, bkt := Bucket.reset, stopped := true,
    runnable := false, ending := false, est := [], gran := [] }

def BteBkt.reset (mill : Nat) : BteBkt := { mill := mill, rate := 0, lvl := 0, moved := 0, borrowed := 0, debt := false }

def Vd.reset (num : Nat) : Vd :=
  { num := num, bound := false, stopped := false, ldFrozen := false, ending := false, run := 1, exit := 0, save := 0, mem := 0, s2base := 0,
    invcmd := 0, invaddr := 0, invlen := 0, dlog := { Ring.reset with cfg := 0x800 }, fltq := Ring.reset, fltres := 0,
    errq := Ring.reset, errLost := 0, bte := [BteBkt.reset 0, BteBkt.reset 1, BteBkt.reset 2, BteBkt.reset 3, BteBkt.reset 4,
      BteBkt.reset 5, BteBkt.reset 6, BteBkt.reset 7], btesel := 0, jacc := 0, mtr := 0, foldAt := 0, bkt := Bucket.reset,
    empty := true, unmapped := [], mtrcfg := 0, mtrivl := 0x3E8, mtrack := 0, reading := Reading.reset, opallow := 0, opreq := 0,
    l2share := 0, ways := [], pinwin := [], pinold := [], est := [], withheld := [], ownHeld := [] }

def Mill.reset (num : Nat) : Mill :=
  { num := num, part := 0x100, opfloor := 0, opcap := 0xB, jceil := 0, sched := 0x3B9ACA00, afr := 0x138800000000, arraywd := 0x10000,
    elogidx := 0, elog := [], einj := 0, flipped := none, spare := 0x404, offline := 0, margin := 0, marginth := 0x28, stretch := 0, oppt := 0, volt := 0,
    freq := 0, row := 0, rows := [], stall := 0, busy := 0, mstall := 0, xfocc := 8, overTicks := 0, reserved := [] }

def Dom.reset (num : Nat) : Dom :=
  { num := num, meas := 0, est := 0, c := 0x100000, unatt := 0, weights := [], nextW := [] }

def Fuses.reset : Fuses := { keyHash := 0, svn := 0, secret := 0 }

def Cp.resetRegs : Cp :=
  { qslot := [], turn := 0, preempt := 0, preemptHanks := [], thaw := 0, hfltq := Ring.reset, hfltres := 0, areset := 0, bboxIdx := 0, bbox := [],
    cpstat := 0, reset := 0, boot := 0, fwaddr := 0, tcm := [], entry := 0, fwid := 0, devid := 0, meterPub := 0, fuses := Fuses.reset,
    bootCount := 0, power := true, gtbRun := false }

/-- Ports 0 to 35 at reset: WIDTH 4 (17 R393). -/
def portsReset : Nat → List (Nat × BitVec 64)
  | 0 => []
  | n + 1 => portsReset n ++ [(n, 0x40)]

def Fab.reset : Fab :=
  { pgrant := 0, pgexp := 0, psafe := 0x12309CE54000, lastSeq := 0, grants := [], source := none, peersel := 0, peercap := [],
    mycap := 1, port := portsReset 36, rxq := [], rxqsel := [], links := [], recov := 0, homeOnly := [], pkgid := 0, grpsel := 0, grp := [],
    tsync := 0, margin := 0, invs := [], late := [], hostGw := 0 }

def Hbm.reset : Hbm :=
  { stack := 0, layout := 0, relevel := 0, cmpwin := [], cmpmeta := [], cmpnew := [], parity := [] }

def Mem.reset : Mem := { bytes := [], poison := [], synd := [], l2 := [], owed := [], leases := [] }

/-- The package right after power-on (18 R406), before bring-up: registers at their reset values, memory with nothing listed, no
context, no queue mapped, READY 0. Bring-up is the event POWER_ON_RESET. -/
def State.reset : State :=
  { steps := 0, inputs := [], cur := none, word := [], undo := none, key := 0, gtb := 0, tick := 0, mem := Mem.reset, spindles := [], strands := [], skeins := [],
    hanks := [], pend := [], array := [], replays := [], lots := [], queues := [], pkts := [], writes := [], flts := [], tokens := [], invs := [],
    opreqs := [], changes := [], ctxs := [],
    vds := [Vd.reset 0, Vd.reset 1, Vd.reset 2, Vd.reset 3, Vd.reset 4, Vd.reset 5, Vd.reset 6, Vd.reset 7, Vd.reset 8, Vd.reset 9,
      Vd.reset 10, Vd.reset 11, Vd.reset 12, Vd.reset 13, Vd.reset 14, Vd.reset 15],
    mills := [Mill.reset 0, Mill.reset 1, Mill.reset 2, Mill.reset 3, Mill.reset 4, Mill.reset 5, Mill.reset 6, Mill.reset 7],
    doms := [Dom.reset 0, Dom.reset 1, Dom.reset 2, Dom.reset 3, Dom.reset 4, Dom.reset 5, Dom.reset 6, Dom.reset 7, Dom.reset 8,
      Dom.reset 9, Dom.reset 10, Dom.reset 11],
    cp := Cp.resetRegs, fab := Fab.reset, hbm := Hbm.reset, droops := [], requeued := [], passed := [], sent := [] }

end Sys2Proof.Machine
end

