-- ==== Sys2Proof/Machine/Maps.lean ====
section
/-! DEFINITION. Sparse stores in canonical form (keys strictly rising, no zero value), lists found by key, and the bit-field,
sign-extension and byte-order helpers of the machine. -/
namespace Sys2Proof.Machine

/-! ### Sparse stores -/

/-- The value at a key; 0 where none is listed. (DESIGN CHOICE, log 1.) -/
def mget {w : Nat} : SMap w → Nat → BitVec w
  | [], _ => 0
  | (a, v) :: t, k => if k = a then v else mget t k

/-- Removing a key. -/
def mdel {w : Nat} : SMap w → Nat → SMap w
  | [], _ => []
  | (a, v) :: t, k => if k = a then mdel t k else (a, v) :: mdel t k

/-- Inserting a non-zero value in order. -/
def mins {w : Nat} : SMap w → Nat → BitVec w → SMap w
  | [], k, x => [(k, x)]
  | (a, v) :: t, k, x => if k < a then (k, x) :: (a, v) :: t else if k = a then (a, x) :: t else (a, v) :: mins t k x

/-- Writing a value; a zero is not listed. -/
def mset {w : Nat} (m : SMap w) (k : Nat) (x : BitVec w) : SMap w := if x = 0 then mdel m k else mins m k x

/-- Zeroing every key from lo to hi − 1. -/
def mclear {w : Nat} (m : SMap w) (lo hi : Nat) : SMap w := m.filter (fun e => decide (e.1 < lo) || decide (hi ≤ e.1))

/-- Writing values at rising keys from k. -/
def msetAll {w : Nat} : SMap w → Nat → List (BitVec w) → SMap w
  | m, _, [] => m
  | m, k, x :: xs => msetAll (mset m k x) (k + 1) xs

/-- Reading n values at rising keys from k. -/
def mgetAll {w : Nat} (m : SMap w) : Nat → Nat → List (BitVec w)
  | _, 0 => []
  | k, n + 1 => mget m k :: mgetAll m (k + 1) n

/-- Keys strictly rising above lo. -/
def mrising {w : Nat} : Nat → SMap w → Bool
  | _, [] => true
  | lo, (a, v) :: t => decide (lo < a + 1) && v != 0 && mrising (a + 1) t

/-- The canonical form. -/
def mwf {w : Nat} (m : SMap w) : Bool := mrising 0 m

/-! ### Lists found by key -/

/-- Replacing the elements that p holds of. -/
def updIf {α : Type} (p : α → Bool) (f : α → α) (l : List α) : List α := l.map (fun x => if p x then f x else x)

/-- Adding n to the number listed under a key. -/
def addAt : List (Nat × Nat) → Nat → Nat → List (Nat × Nat)
  | [], k, n => [(k, n)]
  | (a, v) :: t, k, n => if a = k then (a, v + n) :: t else (a, v) :: addAt t k n

def getAt : List (Nat × Nat) → Nat → Nat
  | [], _ => 0
  | (a, v) :: t, k => if a = k then v else getAt t k

/-- Inserting into a rising list of numbers, once. -/
def insNat : Nat → List Nat → List Nat
  | x, [] => [x]
  | x, y :: ys => if x < y then x :: y :: ys else if x = y then y :: ys else y :: insNat x ys

/-- A rising list of the numbers of l, each once. -/
def sortNat (l : List Nat) : List Nat := l.foldr insNat []

/-- Numbers lo, lo + 1, … (n of them). -/
def upTo : Nat → Nat → List Nat
  | _, 0 => []
  | lo, n + 1 => lo :: upTo (lo + 1) n

/-- The first element of a list that is least under a rank. -/
def leastBy {α : Type} (rank : α → Nat) : List α → Option α
  | [] => none
  | x :: xs =>
    match leastBy rank xs with
    | none => some x
    | some y => if rank y < rank x then some y else some x

/-- Insertion sort by a Bool order (stable). -/
def insertBy {α : Type} (le : α → α → Bool) (x : α) : List α → List α
  | [] => [x]
  | y :: ys => if le x y then x :: y :: ys else y :: insertBy le x ys
def sortBy {α : Type} (le : α → α → Bool) (l : List α) : List α := l.foldr (insertBy le) []

/-! ### Words and bytes -/

/-- sext(x, n) (00 Pseudocode). -/
def sext {w : Nat} (x : BitVec w) (n : Nat) : BitVec n := x.signExtend n

/-- Bits lo + n − 1 to lo. -/
def bits {w : Nat} (x : BitVec w) (lo n : Nat) : BitVec n := x.extractLsb' lo n

/-- Setting bits lo + n − 1 to lo. -/
def setBits {w n : Nat} (x : BitVec w) (lo : Nat) (v : BitVec n) : BitVec w :=
  (x &&& ~~~((BitVec.allOnes n).setWidth w <<< lo)) ||| (v.setWidth w <<< lo)

/-- A 32-bit word as its two elements (04 R92): element 0 in bits 15:0. -/
def el (x : BitVec 32) (e : Nat) : BitVec 16 := x.extractLsb' (16 * e) 16

/-- n bytes of a number, least significant first (00 R3). -/
def toBytes (n : Nat) (v : Nat) : List Byte :=
  match n with
  | 0 => []
  | k + 1 => BitVec.ofNat 8 v :: toBytes k (v / 256)

/-- The number of bytes, least significant first (00 R3). -/
def ofBytes : List Byte → Nat
  | [] => 0
  | b :: bs => b.toNat + 256 * ofBytes bs

/-- Bytes lo to lo + n − 1 of a list, as a number; missing bytes read 0. -/
def fieldOf (bs : List Byte) (lo n : Nat) : Nat := ofBytes ((bs.drop lo).take n)

/-- Distinct elements in first-occurrence order. -/
def dedup {α : Type} [BEq α] (l : List α) : List α := l.foldl (fun acc a => if acc.contains a then acc else acc ++ [a]) []

/-- Dividing up. -/
def divUp (a b : Nat) : Nat := (a + b - 1) / b

/-- A 64-bit value as a signed number. -/
def s64 (x : BitVec 64) : Int := x.toInt

/-- A list of n zero bytes. -/
def zeros (n : Nat) : List Byte := List.replicate n 0

/-- R23: bits 63:57 equal bit 56. -/
def canonical (a : BitVec 64) : Bool := a == sext (a.extractLsb' 0 57) 64

end Sys2Proof.Machine
end

