-- ==== Sys2Proof/Machine/Ops.lean ====
section
/-! DEFINITION. Named operations over the state: finding and replacing its parts, charging energy (14 R300 to R302, R310),
reading and writing registers, and memory at its home slices. -/
namespace Sys2Proof.Machine

/-! ### Parts of the state -/

def strand? (s : State) (k : Nat) : Option Strand := s.strands.find? (fun t => t.id == k)
def setStrand (s : State) (t : Strand) : State := { s with strands := updIf (fun u => u.id == t.id) (fun _ => t) s.strands }
def delStrand (s : State) (k : Nat) : State := { s with strands := s.strands.filter (fun u => u.id != k) }
def skein? (s : State) (k : Nat) : Option Skein := s.skeins.find? (fun x => x.id == k)
def setSkein (s : State) (x : Skein) : State := { s with skeins := updIf (fun u => u.id == x.id) (fun _ => x) s.skeins }
def hank? (s : State) (k : Nat) : Option Hank := s.hanks.find? (fun x => x.id == k)
def setHank (s : State) (x : Hank) : State := { s with hanks := updIf (fun u => u.id == x.id) (fun _ => x) s.hanks }
def lot? (s : State) (k : Nat) : Option Lot := s.lots.find? (fun x => x.id == k)
def setLot (s : State) (x : Lot) : State := { s with lots := updIf (fun u => u.id == x.id) (fun _ => x) s.lots }
def pend? (s : State) (k : Nat) : Option Pending := s.pend.find? (fun x => x.id == k)
def setPend (s : State) (x : Pending) : State := { s with pend := updIf (fun u => u.id == x.id) (fun _ => x) s.pend }
def pkt? (s : State) (k : Nat) : Option BtePkt := s.pkts.find? (fun x => x.id == k)
def setPkt (s : State) (x : BtePkt) : State := { s with pkts := updIf (fun u => u.id == x.id) (fun _ => x) s.pkts }
def queue? (s : State) (desc : Nat) : Option QueueFE := s.queues.find? (fun x => x.desc == desc)
def setQueue (s : State) (x : QueueFE) : State := { s with queues := updIf (fun u => u.desc == x.desc) (fun _ => x) s.queues }
def ctx? (s : State) (vd n : Nat) : Option Ctx := s.ctxs.find? (fun c => c.vd == vd && c.num == n)
def setCtx (s : State) (c : Ctx) : State :=
  { s with ctxs := updIf (fun u => u.vd == c.vd && u.num == c.num) (fun _ => c) s.ctxs }
def vdOf (s : State) (n : Nat) : Vd := (s.vds.find? (fun v => v.num == n)).getD (Vd.reset n)
def setVd (s : State) (v : Vd) : State := { s with vds := updIf (fun u => u.num == v.num) (fun _ => v) s.vds }
def millOf (s : State) (n : Nat) : Mill := (s.mills.find? (fun m => m.num == n)).getD (Mill.reset n)
def setMill (s : State) (m : Mill) : State := { s with mills := updIf (fun u => u.num == m.num) (fun _ => m) s.mills }
def domOf (s : State) (n : Nat) : Dom := (s.doms.find? (fun d => d.num == n)).getD (Dom.reset n)
def setDom (s : State) (d : Dom) : State := { s with doms := updIf (fun u => u.num == d.num) (fun _ => d) s.doms }

/-- A spindle of which nothing is known yet. -/
def Spindle.empty (n : Nat) : Spindle :=
  { num := n, l1 := [], ic := [], tlb := [], cells := none, errs := 0, draining := false, resetUntil := none, cycle := [] }
def spindleOf (s : State) (n : Nat) : Spindle := (s.spindles.find? (fun x => x.num == n)).getD (Spindle.empty n)
def setSpindle (s : State) (x : Spindle) : State :=
  if s.spindles.any (fun u => u.num == x.num) then
    { s with spindles := updIf (fun u => u.num == x.num) (fun _ => x) s.spindles }
  else { s with spindles := s.spindles ++ [x] }

/-- The next free key. -/
def bumpKey (s : State) : State := { s with key := s.key + 1 }

/-- A free choice below n, for place p. (DESIGN CHOICE, log 3.) -/
def choose (s : State) (p n : Nat) : Nat := if n ≤ 1 then 0 else Config.choice s.steps p % n

/-- Replacing a fibre of a skein. -/
def Skein.fibre? (x : Skein) (f : Nat) : Option Fibre := x.fibres.find? (fun y => y.id == f)
def Skein.setFibre (x : Skein) (f : Fibre) : Skein := { x with fibres := updIf (fun y => y.id == f.id) (fun _ => f) x.fibres }

/-- Logical spindle numbers (01 R12): mill, frame within the mill, slot within the frame. -/
def millOfSpindle (n : Nat) : Nat := n / 72
def frameOfSpindle (n : Nat) : Nat := n % 72 / 8
def slotOfSpindle (n : Nat) : Nat := n % 8

/-- Ranks and skeins of a strand. -/
def skeinOf (s : State) (t : Strand) : Option Skein := skein? s t.skein

/-- The context of a skein. -/
def ctxOf (s : State) (x : Skein) : Option Ctx := ctx? s x.vd x.ctx

/-- Privilege of a strand (05 R132). -/
def privOf (s : State) (t : Strand) (x : Skein) : Privilege :=
  { priv := (match ctxOf s x with | some c => c.priv | none => false), handler := t.trap.isSome }

/-! ### Virtual energy and charges -/

/-- V as CTX_VJ computes it (15 R333): never below the highest value it has had. -/
def Ctx.weight (c : Ctx) : Nat := (bits c.sched 8 16).toNat
def Ctx.vj (c : Ctx) : BitVec 64 :=
  let v : BitVec 64 := c.vb + BitVec.ofInt 64 ((s64 (c.jacc - c.ab)) * 256 / (c.weight : Int))
  if v.toNat < c.vtop.toNat then c.vtop else v
/-- The account moves by a signed amount; V follows (14 R302; 15 R333). -/
def Ctx.moveAcc (c : Ctx) (d : Int) : Ctx :=
  let c1 := { c with jacc := c.jacc + BitVec.ofInt 64 d }
  { c1 with vtop := c1.vj }
/-- A bucket is debited by a signed amount (14 R310). -/
def Bucket.debit (b : Bucket) (d : Int) : Bucket := { b with lvl := b.lvl - BitVec.ofInt 64 d }

/-- An account: a context of a VD, or the VD's own (14 R302). -/
abbrev Acct := Nat × Option Nat

/-- Debiting or crediting an account's account register and buckets. -/
def debitAcct (s : State) (a : Acct) (d : Int) : State :=
  match a with
  | (v, some c) =>
    { s with
      ctxs := updIf (fun u => u.vd == v && u.num == c) (fun u => { u.moveAcc d with bkt := u.bkt.debit d }) s.ctxs,
      vds := updIf (fun u => u.num == v) (fun u => { u with bkt := u.bkt.debit d }) s.vds }
  | (v, none) =>
    { s with vds := updIf (fun u => u.num == v) (fun u => { u with jacc := u.jacc + BitVec.ofInt 64 d, bkt := u.bkt.debit d }) s.vds }

/-- Adding an estimated charge to e(x, d) of the open tick (14 R306). -/
def addEst (s : State) (a : Acct) (dom n : Nat) : State :=
  match a with
  | (v, some c) => { s with ctxs := updIf (fun u => u.vd == v && u.num == c) (fun u => { u with est := addAt u.est dom n }) s.ctxs }
  | (v, none) => { s with vds := updIf (fun u => u.num == v) (fun u => { u with est := addAt u.est dom n }) s.vds }

/-- Whether a mill's partition serves a VD (14 R425). -/
def servesVd (m : Mill) (vd : Nat) : Bool := (bits m.part 16 16).getLsbD vd
/-- The mill whose row weighs an account's accesses at a home slice of a mill (classes 16 to 19): that mill, when its partition serves the account's VD; else
the mill that the VD's hanks stand on, or the lowest that serves it, so that another partition's change of point changes no weight of the account
(01 R26; 14 R301). (DEDUCED, log 131.) -/
def rowMill (s : State) (a : Acct) (dom : Nat) : Mill :=
  if servesVd (millOf s dom) a.1 then millOf s dom
  else
    match s.hanks.find? (fun h => h.st != .saved && (match lot? s h.lot with | some l => l.vd == a.1 && (a.2 == none || a.2 == some l.ctx) | none => false)) with
    | some h => millOf s (h.frame / 9)
    | none => (s.mills.find? (fun m => servesVd m a.1)).getD (millOf s dom)
/-- The row of a domain's weight table that a charge to an account uses (14 R301). -/
def rowOf (s : State) (a : Acct) (dom cls : Nat) : Nat :=
  if 8 ≤ dom then 0 else if 16 ≤ cls ∧ cls ≤ 19 then (rowMill s a dom).row else (millOf s dom).row

/-- The weight of a class in a domain, in the row in force (14 R301). -/
def weightOf (s : State) (a : Acct) (dom cls : Nat) : Nat := (mget (domOf s dom).weights (40 * rowOf s a dom cls + cls)).toNat

/-- A charge of n units of a class in a domain to an account (14 R300, R302, R310). -/
def charge (s : State) (a : Acct) (dom cls n : Nat) : State :=
  let amt := n * weightOf s a dom cls
  if amt = 0 then s else addEst (debitAcct s a (amt : Int)) a dom amt

/-- The estimated fJ of n units, for the runahead cap (02 R64). -/
def amountOf (s : State) (a : Acct) (dom cls n : Nat) : Nat := n * weightOf s a dom cls

/-- Account of a skein. -/
def acctOf (x : Skein) : Acct := (x.vd, some x.ctx)

/-- Adding to one of a context's counters. -/
def updCtx (s : State) (v c : Nat) (f : Ctx → Ctx) : State :=
  { s with ctxs := updIf (fun u => u.vd == v && u.num == c) f s.ctxs }
def updVd (s : State) (v : Nat) (f : Vd → Vd) : State := { s with vds := updIf (fun u => u.num == v) f s.vds }
def updMill (s : State) (m : Nat) (f : Mill → Mill) : State := { s with mills := updIf (fun u => u.num == m) f s.mills }
def updSkein (s : State) (k : Nat) (f : Skein → Skein) : State := { s with skeins := updIf (fun u => u.id == k) f s.skeins }
def updStrand (s : State) (k : Nat) (f : Strand → Strand) : State := { s with strands := updIf (fun u => u.id == k) f s.strands }

/-! ### System physical addresses -/

/-- Own package number (17 R426). -/
def ownPkg (s : State) : Nat := s.fab.pkgid.toNat % 1024

/-- The package's own number in the remote space names its local memory (17 R373). -/
def normSpa (s : State) (a : Nat) : Nat :=
  if a / 2 ^ 50 = 1 ∧ a / 2 ^ 40 % 1024 = ownPkg s then a % 2 ^ 40 else a

/-- Spaces (17 R373). -/
inductive Space where
  | local_ | group (pkg : Nat) | beyond (pkg : Nat) | host
  deriving DecidableEq, Repr

/-- Whether a package is in the coherent group (17 R426); the package itself always is. -/
def inGroup (s : State) (pkg : Nat) : Bool :=
  pkg == ownPkg s || (mget s.fab.grp (pkg / 64)).getLsbD (pkg % 64)

def spaceOf (s : State) (a : Nat) : Space :=
  if a / 2 ^ 50 = 0 then .local_
  else if a / 2 ^ 50 = 1 then (if inGroup s (a / 2 ^ 40 % 1024) then .group (a / 2 ^ 40 % 1024) else .beyond (a / 2 ^ 40 % 1024))
  else .host

/-- Usable capacity of local device memory in bytes (17 R376). -/
def capacity (s : State) : Nat := if s.hbm.layout.getLsbD 0 then 896 * 2 ^ 30 else 960 * 2 ^ 30

/-- Whether a local address lies in a VD's assigned memory (17 R374, R390); remote and host frames are checked by their owners. -/
def inVdMem (s : State) (vd a : Nat) : Bool :=
  let m := (vdOf s vd).mem
  let base := (bits m 30 10).toNat * 2 ^ 30
  let size := (bits m 40 20).toNat * 2 ^ 30
  if a / 2 ^ 50 = 0 then decide (base ≤ a) && decide (a < base + size) && decide (a < capacity s) else true

/-- The 7-bit groups of a line number XORed together (17 R377); line numbers of the local form have at most 45 bits. -/
def foldLine (l : Nat) : Nat :=
  let g := fun (i : Nat) => l / 2 ^ (7 * i) % 128
  Nat.xor (g 0) (Nat.xor (g 1) (Nat.xor (g 2) (Nat.xor (g 3) (Nat.xor (g 4) (Nat.xor (g 5) (g 6))))))

/-- The window registers of a VD as they are in force: while BUSY, as they were before (17 R387). -/
def Vd.pinMap (v : Vd) : List (BitVec 64) :=
  v.pinwin.map (fun e => match v.pinold.find? (fun o => o.1 == e.1) with | some o => o.2 | none => e.2)
/-- The pinning window that covers a local line, over all VDs, lowest-numbered first (17 R387). -/
def pinWindow (s : State) (line : Nat) : Option (BitVec 64) :=
  (s.vds.flatMap (fun v => v.pinMap)).find? (fun r =>
    r.getLsbD 63 && decide ((bits r 19 19).toNat * 2 ^ 21 ≤ line * 128) &&
      decide (line * 128 < (bits r 19 19).toNat * 2 ^ 21 + (bits r 38 20).toNat * 2 ^ 21))

/-- The home slice of a line, 0 to 127 (17 R377, R387); a remote line takes that of its local form. -/
def homeSlice (s : State) (line : Nat) : Nat :=
  let n := foldLine (line % 2 ^ 33)
  match pinWindow s line with
  | some r => ((bits r 0 7).toNat + n % 2 ^ (bits r 16 3).toNat) % 128
  | none => n

/-- The mill of a line's home slice (17 R377: slice n mod 16 of mill n div 16). -/
def homeMill (s : State) (line : Nat) : Nat := homeSlice s line / 16

/-- Whether registers beyond those of the command processor answer: not once a step of bring-up has failed (18 R408), nor without power. -/
def regsAnswer (s : State) : Bool := s.cp.power && (s.cp.boot.getLsbD 0 || bits s.cp.boot 8 8 == 0)
/-- What a write of such a register brings. -/
def answering (s u : State) : Host.Outcome State Fault Refusal := .next (if regsAnswer s then u else s)

/-- The state of a stack (17 R379). -/
def stackState (s : State) (n : Nat) : Nat := (bits s.hbm.stack (2 * n) 2).toNat
/-- Whether a local address is placed in the 14 + 1 layout: after re-levelling, or during it below PROG (17 R380). -/
def newLayout (s : State) (a : Nat) : Bool :=
  s.hbm.layout.getLsbD 0 || (s.hbm.relevel.getLsbD 61 && decide (a / 4096 / 14 < (bits s.hbm.relevel 1 24).toNat))
/-- The stacks of the 14 + 1 layout, in ascending order (17 R376): all but the removed one, or the one that is being removed. -/
def liveStacks (s : State) : List Nat := (upTo 0 16).filter (fun n => stackState s n != (if s.hbm.layout.getLsbD 0 then 2 else 1))
/-- Data units of a stripe; the stripe, the parity stack and the data stack of a local address, and the offset in either (17 R375, R376, R380). -/
def stripeUnits (s : State) (a : Nat) : Nat := if newLayout s a then 14 else 15
def stripeOf (s : State) (a : Nat) : Nat := if newLayout s a then a / 4096 / 14 else a / 4096 / 15
def parityOf (s : State) (a : Nat) : Nat := if newLayout s a then (liveStacks s).getD (a / 4096 / 14 % 15) 0 else a / 4096 / 15 % 16
def stackOf (s : State) (a : Nat) : Nat :=
  let u := a / 4096
  if newLayout s a then (liveStacks s).getD ((u / 14 % 15 + 1 + u % 14) % 15) 0 else (u / 15 % 16 + 1 + u % 15) % 16
def stackOffset (s : State) (a : Nat) : Nat := stripeOf s a * 4096 + a % 4096
/-- The data bytes of an address's stripe at the address's place in their units; the byte that the parity unit holds there once the stripe's commits are
made; and what a reconstruction read gives: the XOR of that byte and of the other units' (17 R375, R379). -/
def stripeByte (s : State) (a k : Nat) : Byte := mget s.mem.bytes ((stripeOf s a * stripeUnits s a + k) * 4096 + a % 4096)
def parityByte (s : State) (a : Nat) : Byte := (upTo 0 (stripeUnits s a)).foldl (fun v k => v ^^^ stripeByte s a k) 0
def rebuiltByte (s : State) (a : Nat) : Byte :=
  (upTo 0 (stripeUnits s a)).foldl (fun v k => if k = a / 4096 % stripeUnits s a then v else v ^^^ stripeByte s a k) (parityByte s a)
/-- Whether a local address lies on a lost stack; whether its bytes are lost with it: a second stack is lost and no copy is in L2 (17 R379). -/
def onLost (s : State) (a : Nat) : Bool := decide (a < 2 ^ 50) && stackState s (stackOf s a) == 1
def unitLost (s : State) (a : Nat) : Bool :=
  onLost s a && decide (2 ≤ ((upTo 0 16).filter (fun n => stackState s n == 1)).length) && !s.mem.l2.any (fun x => x.line == a / 128)
/-- The energy domain of a stack: stacks 0 to 7 on I/O die 0, 8 to 15 on I/O die 1 (log 5). -/
def hbmDom (stack : Nat) : Nat := if stack < 8 then 8 else 9

/-! ### The fabric's sending side (17 R393, R395) -/

/-- The energy domain of a port: ports 0 to 17 are on I/O die 0 (18, The module). -/
def portDom (p : Nat) : Nat := if p < 18 then 10 else 11
/-- The link of a tenant on a port. -/
def linkOf (s : State) (port tenant : Nat) : Link :=
  (s.fab.links.find? (fun l => l.port == port && l.tenant == tenant)).getD
    { port := port, tenant := tenant, next := 0, gap := false, quota := 0, pool := 0, sendNext := 0, unacked := [] }
def setLink (s : State) (l : Link) : State :=
  { s with fab := { s.fab with links := s.fab.links.filter (fun k => !(k.port == l.port && k.tenant == l.tenant)) ++ [l] } }
/-- The port through which a tenant's next packet leaves: a free one of those that hold fewer than 2,048 of its packets (17 R395). -/
def freePort (s : State) (tenant : Nat) : Nat :=
  let c := choose s 974 36
  ((upTo 0 36).map (fun i => (c + i) % 36)).find? (fun p => decide ((linkOf s p tenant).unacked.length < 2048)) |>.getD c
/-- A packet of n flits leaves for a VD through some port; it is held until it is acknowledged, at most 2,048 of a tenant at a time. (DESIGN CHOICE, log 97.) -/
def fabSend (s : State) (a : Acct) (n : Nat) : State × Nat :=
  let port := freePort s a.1
  let l := linkOf s port a.1
  let s1 := charge s a (portDom port) 36 n
  (if l.unacked.length < 2048 then setLink s1 { l with sendNext := l.sendNext + 1, unacked := l.unacked ++ [(l.sendNext, s.gtb)] } else s1, port)
/-- The packets sent between two states: port, tenant, number. -/
def newPackets (s s1 : State) : List (Nat × Nat × BitVec 12) :=
  s1.fab.links.flatMap (fun l => (l.unacked.drop (linkOf s l.port l.tenant).unacked.length).map (fun u => (l.port, l.tenant, u.1)))
/-- A request and its answer over the fabric. -/
def fabTrip (s : State) (a : Acct) : State :=
  let r := fabSend s a 1
  charge r.1 a (portDom r.2) 37 1

/-! ### L2 and memory -/

def l2Find (s : State) (line : Nat) : Option L2Line := s.mem.l2.find? (fun x => x.line == line)
def updL2 (s : State) (line : Nat) (f : L2Line → L2Line) : State :=
  { s with mem := { s.mem with l2 := updIf (fun x => x.line == line) f s.mem.l2 } }

/-- A compression window that covers a local address (17 R381). -/
def cmpWindow (s : State) (a : Nat) : Option Nat :=
  (s.hbm.cmpwin.map (fun e => e.1)).find? (fun n =>
    let r := mget s.hbm.cmpwin n
    decide (0 < (bits r 2 19).toNat) && decide ((bits r 21 19).toNat * 2 ^ 21 ≤ a) && decide (a < (bits r 21 19).toNat * 2 ^ 21 + (bits r 2 19).toNat * 2 ^ 21))

/-- A line of local device memory is read from its stack; on a lost stack, from every other stack of the stripe at the same offset (17 R379). -/
def hbmRead (s : State) (a : Acct) (line : Nat) : State :=
  let addr := line * 128
  if onLost s addr then
    ((if newLayout s addr then liveStacks s else upTo 0 16).filter (fun n => n != stackOf s addr)).foldl (fun u n => charge u a (hbmDom n) 32 2) s
  else charge s a (hbmDom (stackOf s addr)) 32 2

/-- A line of local device memory is written to its stack: bursts, parity read-modify-write and its stripe's lock, and the side-table
entry of a compressed block (17 R378, R379, R381; 14 R300). One of a whole stripe that is written at once has no read-modify-write and no lock: the parity
that was computed is written once, here with the stripe's last unit (R378). A lost stack takes neither data nor parity. (DESIGN CHOICE, log 117.) (DESIGN CHOICE, log 142.) -/
def hbmPut (s : State) (a : Acct) (line : Nat) (full : Bool) : State :=
  let addr := line * 128
  let s0 := if onLost s addr then s else charge s a (hbmDom (stackOf s addr)) 33 2
  let s2 := if stackState s (parityOf s addr) = 1 then s0
    else if full then (if addr / 4096 % stripeUnits s addr + 1 = stripeUnits s addr then charge s0 a (hbmDom (parityOf s addr)) 33 2 else s0) else
    let s1 := charge s0 a (hbmDom (parityOf s addr)) 34 1
    { s1 with hbm := { s1.hbm with parity := insNat (stripeOf s addr) s1.hbm.parity } }
  match cmpWindow s addr with
  | none => s2
  | some n =>
    let base := (bits (mget s.hbm.cmpwin n) 21 19).toNat * 2 ^ 21
    let ent := (bits (mget s.hbm.cmpmeta n) 12 40).toNat * 4096 + (addr - base) / 1024
    { s2 with mem := { s2.mem with bytes := mset s2.mem.bytes ent ((Config.blockForm s.steps line).setWidth 8) } }

def hbmWrite (s : State) (a : Acct) (line : Nat) : State := hbmPut s a line false

/-- The account of the context that last wrote a line, or its VD's own when that context has ended (14 R302; 17 R386). -/
def L2Line.owner (x : L2Line) : Acct := match x.writer with | some a => a | none => (x.vd, none)

/-- A dirty line is written back (14 R300 class 18), charged to the account for which it is done (01 R25, R26). -/
def writeBack (s : State) (a : Acct) (x : L2Line) : State :=
  if x.dirty then
    let s1 := charge s a (homeMill s x.line) 18 1
    let s2 := if x.line / 2 ^ 43 = 0 then hbmWrite s1 a x.line else (fabSend s1 a 1).1
    updL2 s2 x.line (fun y => { y with dirty := false })
  else s

/-- A line leaves L2: its pins are the caller's affair. -/
def l2Drop (s : State) (line : Nat) : State := { s with mem := { s.mem with l2 := s.mem.l2.filter (fun x => x.line != line) } }

/-- Ways a VD may allocate into (17 R384). -/
def waysOf (s : State) (vd : Nat) : Nat := Nat.min (bits (vdOf s vd).l2share 0 5).toNat (vdOf s vd).ways.length

/-- The set of a line in its home slice: the manual gives no function (log 6). -/
def l2Set (line : Nat) : Nat := Config.choice 0 (line + 1000) % 2048

/-- A line takes a hint: it stands last among the lines of its priority (08 R198). -/
def hintL2 (s : State) (line : Nat) (ep : Ep) : State :=
  if ep = .normal then s
  else { s with mem := { s.mem with
    l2 := s.mem.l2.filter (fun x => x.line != line) ++ (s.mem.l2.filter (fun x => x.line == line)).map (fun x => { x with ep := ep }) } }

/-- The next victim among lines without pins, by their hints: the one that was last made next victim, else one of normal replacement by free choice,
else of those made last victim the one that has been so longest (08 R198). (DESIGN CHOICE, log 6.) -/
def nextVictim (s : State) (p : Nat) (free : List L2Line) : Option L2Line :=
  match (free.filter (fun x => x.ep == .first)).getLast? with
  | some v => some v
  | none =>
    let cands := free.filter (fun x => x.ep == .normal)
    match cands with
    | [] => free.head?
    | c :: _ => some ((cands[choose s p cands.length]?).getD c)

/-- The line that leaves when a line comes into its VD's ways, when they are full in its set; none when there is room, or when every line there is pinned
(08 R198; 17 R384, R385). (DESIGN CHOICE, log 6.) -/
def l2Victim (s : State) (vd line : Nat) : Option L2Line :=
  let same := s.mem.l2.filter (fun x => x.vd == vd && homeSlice s x.line == homeSlice s line && l2Set x.line == l2Set line)
  if same.length < waysOf s vd then none else nextVictim s (2 + line) (same.filter (fun x => x.pins.isEmpty))

/-- Whether a VD can take a line in: a way of its own that is free, or holds a line without pins (17 R384, R385). -/
def l2Room (s : State) (vd line : Nat) : Bool :=
  let same := s.mem.l2.filter (fun x => x.vd == vd && homeSlice s x.line == homeSlice s line && l2Set x.line == l2Set line)
  decide (same.length < waysOf s vd) || (waysOf s vd != 0 && same.any (fun x => x.pins.isEmpty))

/-- Room for a line that comes in for an account. -/
def l2Evict (s : State) (a : Acct) (line : Nat) : State :=
  match l2Victim s a.1 line with
  | none => s
  | some x => l2Drop (writeBack s a x) x.line

/-- A line that its home slice does not hold is filled from its memory (14 R300 class 17) and installed unless NOAL, the page is uncached or the VD
has no room; a line that is lost with its stack is not installed (17 R379). -/
def l2Fill (s : State) (a : Acct) (line : Nat) (noal : Bool) (ep : Ep) (ra : Bool) : State :=
  let isLocal := line / 2 ^ 43 = 0
  if noal || s.fab.homeOnly.contains line || !l2Room s a.1 line || unitLost s (line * 128) then
    (if isLocal then hbmRead s a line else fabTrip s a)
  else
    let s1 := l2Evict s a line
    let s2 := if isLocal then hbmRead (charge s1 a (homeMill s line) 17 1) a line else fabTrip s1 a
    let x : L2Line := { line := line, dirty := false, writer := none, vd := a.1, pins := [], ep := ep, ra := ra }
    { s2 with mem := { s2.mem with l2 := s2.mem.l2 ++ [x] } }

/-- A line that an atomic is to change is there first. (DEDUCED, log 107.) -/
def l2Ensure (s : State) (a : Acct) (line : Nat) (noal : Bool) : State :=
  if (l2Find s line).isSome ∨ line / 2 ^ 43 ≠ 0 then s else l2Fill s a line noal .normal false

/-- A line is accessed at its home slice (14 R300 class 16); a read fills it on a miss; a write needs no fill (19 R413): it installs the line and marks it
dirty, or goes to its memory. Gives the new state and whether it hit. -/
def l2Access (s : State) (a : Acct) (line : Nat) (write noal : Bool) (ep : Ep) (ra : Bool) : State × Bool :=
  let s1 := charge s a (homeMill s line) 16 1
  match l2Find s1 line with
  | some x =>
    let s2 := if x.ra && !ra then
        (match a with | (v, some c) => updCtx s1 v c (fun u => { u with ra := { u.ra with use := u.ra.use + 1 } }) | _ => s1)
      else s1
    (hintL2 (updL2 s2 line (fun y => { y with dirty := y.dirty || write, writer := if write then some a else y.writer, ra := y.ra && ra })) line ep, true)
  | none =>
    if !write then (l2Fill s1 a line noal ep ra, false)
    else if noal || s1.fab.homeOnly.contains line || !l2Room s1 a.1 line then
      (if line / 2 ^ 43 = 0 then hbmWrite s1 a line else fabTrip s1 a, false)
    else
      let s2 := l2Evict s1 a line
      let s3 := if line / 2 ^ 43 = 0 then s2 else fabTrip s2 a
      -- what a lost stack held of the line is gone until all of it is written (17 R379; 16 R367)
      let lost := if unitLost s (line * 128) then insNat line s3.mem.poison else s3.mem.poison
      let x : L2Line := { line := line, dirty := true, writer := some a, vd := a.1, pins := [], ep := ep, ra := ra }
      ({ s3 with mem := { s3.mem with l2 := s3.mem.l2 ++ [x], poison := lost } }, false)

/-- Reading bytes at their home slices. -/
def readSpa (s : State) (a n : Nat) : List Byte := mgetAll s.mem.bytes (normSpa s a) n

/-- Whether any of n bytes from a lies on a poisoned line (16 R367), or on a unit lost with a second stack (17 R379). -/
def poisoned (s : State) (a n : Nat) : Bool :=
  unitLost s (normSpa s a) || unitLost s (normSpa s (a + n - 1)) || s.mem.poison.any (fun l => decide (normSpa s a / 128 ≤ l) && decide (l ≤ (normSpa s a + n - 1) / 128))

/-- The line that makes the reading of n bytes from a a data error. -/
def badLine (s : State) (a n : Nat) : Nat :=
  let l := normSpa s a / 128
  if poisoned s (l * 128) 128 then l else normSpa s (a + n - 1) / 128

/-- Strands that monitor one of the lines written are woken (10 R243). -/
def wakeMonitors (s : State) (lo hi : Nat) : State :=
  { s with strands := s.strands.map (fun t =>
      match t.wait with
      | some (.sleep u (some l) h w) => { t with wait := some (.sleep u (some l) (h || (decide (lo ≤ l) && decide (l ≤ hi))) w) }
      | _ => t) }

/-- Writing bytes at their home slices: monitors wake, a whole line written clears its poison (10 R243; 16 R367). -/
def writeSpa (s : State) (a0 : Nat) (bs : List Byte) : State :=
  if bs.isEmpty then s else
  let a := normSpa s a0
  let hi := (a + bs.length - 1) / 128
  let s1 := { s with mem := { s.mem with
    bytes := msetAll s.mem.bytes a bs,
    poison := s.mem.poison.filter (fun l => !(decide (a ≤ l * 128) && decide (l * 128 + 128 ≤ a + bs.length))) } }
  wakeMonitors s1 (a / 128) hi

/-- Writing some of the bytes from a, the others left as they are: monitors wake, a line of which every byte is written loses its poison. -/
def writeSome (s : State) (a0 : Nat) (bs : List (Option Byte)) : State :=
  if bs.all (fun b => b.isNone) then s else
  let a := normSpa s a0
  let whole := fun (l : Nat) => decide (a ≤ l * 128) && decide (l * 128 + 128 ≤ a + bs.length) && ((bs.drop (l * 128 - a)).take 128).all (fun b => b.isSome)
  let s1 := { s with mem := { s.mem with
    bytes := msetAll s.mem.bytes a (((mgetAll s.mem.bytes a bs.length).zip bs).map (fun p => p.2.getD p.1)),
    poison := s.mem.poison.filter (fun l => !whole l) } }
  wakeMonitors s1 (a / 128) ((a + bs.length - 1) / 128)

/-- The number in n bytes at a. -/
def readNat (s : State) (a n : Nat) : Nat := ofBytes (readSpa s a n)

/-- The GWCT of a write performed now on a line (11 R270, R279): at least now and every lease granted on it here, and within the
bound of its space, where what the sharers in other packages answer lies too. (DESIGN CHOICE, log 121.) -/
def gwctOf (s : State) (line : Nat) : BitVec 64 :=
  let now := s.gtb.toNat
  let lo := Nat.max now (mget s.mem.leases line).toNat
  let hi := now + (if line / 2 ^ 43 = 0 then Config.gwctLocal else Config.gwctRemote)
  BitVec.ofNat 64 (if lo ≤ hi then lo + Config.gwct s.steps line % (hi - lo + 1) else lo)

/-- A line whose accesses wait: it is being moved by a pinning window (17 R387), or lies in a compression window that is being zeroed (R383), or in the
stripe that re-levelling copies (R380), or is to be reconstructed from a locked stripe (R378), or is
being back-invalidated (R396). -/
def lineBusy (s : State) (line : Nat) : Bool :=
  let a := line * 128
  let covers := fun (base size : Nat) => decide (base * 2 ^ 21 ≤ a) && decide (a < (base + size) * 2 ^ 21)
  s.vds.any (fun v => v.pinwin.any (fun w => w.2.getLsbD 62 && covers (bits w.2 19 19).toNat (bits w.2 38 20).toNat) ||
      v.pinold.any (fun w => covers (bits w.2 19 19).toNat (bits w.2 38 20).toNat)) ||
    s.hbm.cmpnew.any (fun w => covers (bits w.2 21 19).toNat (bits w.2 2 19).toNat) ||
    (s.hbm.relevel.getLsbD 61 && decide (a < 2 ^ 50) && a / 4096 / 14 == (bits s.hbm.relevel 1 24).toNat) ||
    (onLost s a && s.hbm.parity.contains (stripeOf s a) && !s.mem.l2.any (fun x => x.line == line)) ||
    s.fab.invs.any (fun i => i.1 == line && i.2)

/-- Raised flags are ORed into FLAGS (04 R110). -/
def raise (s : State) (vd ctx : Nat) (f : BitVec 6) : State :=
  if f = 0 then s else updCtx s vd ctx (fun c => { c with fpctl := c.fpctl ||| f.setWidth 64 })

/-- An access completes: every strand's flags held by it are let go (02 R37; 05 R125). -/
def releaseFlags (s : State) (id : Nat) : State :=
  { s with strands := s.strands.map (fun t => if t.holds.any (fun h => h.2 == id) then { t with holds := t.holds.filter (fun h => h.2 != id) } else t) }

/-- A spindle's own copy of a line is dropped (11 R272). -/
def dropL1 (s : State) (sp line : Nat) : State :=
  { s with spindles := updIf (fun x => x.num == sp) (fun x => { x with l1 := x.l1.filter (fun c => c.line != line) }) s.spindles }

end Sys2Proof.Machine
end

