-- ==== Sys2Proof/Machine/Faults.lean ====
section
/-! DEFINITION. What follows a failure: fault records and their queues (16 R361 to R364), parked strands, ended hanks, frozen
contexts (R365), the dirty-page log (R357, R358), the black box (R370), the VD error queue (15 R331), taking a trap and
returning from one (10 R261, R262), and the request to halt a hank (15 R339, R340). -/
namespace Sys2Proof.Machine

/-! ### Records, rings and the black box -/

/-- The system physical address of a host address (17 R373). -/
def hostSpa (a : Nat) : Nat := 2 ^ 51 + a % 2 ^ 51

/-- An entry of the black box (16 R370): GTB, or the boot count while the GTB is not running; event; 23 bytes of its record. -/
def bbox (s : State) (event : Nat) (rec : List Byte) : State :=
  let time := if s.cp.gtbRun then s.gtb else s.cp.bootCount
  let e := toBytes 8 time.toNat ++ [BitVec.ofNat 8 event] ++ (rec ++ zeros 23).take 23
  let n := s.cp.bboxIdx.toNat
  { s with cp := { s.cp with bbox := mset s.cp.bbox (n % 2048) (BitVec.ofNat 256 (ofBytes e)), bboxIdx := s.cp.bboxIdx + 1 } }

/-- An entry for an event whose own record the manual does not lay down: 23 free bytes. (DESIGN CHOICE, log 79.) -/
def bboxFree (s : State) (event : Nat) : State := bbox s event (toBytes 23 (Config.choice s.steps (900 + event)))

/-- Entries of a ring whose configuration register has the layout of VD_ERRQ (15 R331). -/
def Ring.size (r : Ring) : Nat := 2 ^ (bits r.cfg 8 4).toNat
def Ring.baseAddr (r : Ring) : Nat := (bits r.cfg 12 52).toNat * 4096
def Ring.full (r : Ring) : Bool := r.baseAddr == 0 || decide (r.size ≤ (r.tail - r.head).toNat)
/-- Writing the next entry of n bytes of a ring in host memory. -/
def ringWrite (s : State) (r : Ring) (n : Nat) (bs : List Byte) : State :=
  writeSpa s (hostSpa (r.baseAddr + n * (r.tail.toNat % r.size))) bs

/-- A host interrupt for a VD. (DESIGN CHOICE, log 9.) -/
def hostIrq (s : State) (vd : Nat) : State := { s with sent := s.sent ++ [.hostIrq vd] }

/-- An entry of a VD's error queue (15 R331): an entry that finds no room counts in LOST; BASE 0 disables the queue. -/
def errqPut (s : State) (vd code qid slot detail : Nat) : State :=
  let v := vdOf s vd
  if v.errq.baseAddr = 0 then s
  else if v.errq.full then updVd s vd (fun u => { u with errLost := u.errLost + 1 })
  else
    let e := toBytes 1 code ++ zeros 1 ++ toBytes 2 qid ++ zeros 4 ++ toBytes 8 slot ++ toBytes 8 s.gtb.toNat ++ toBytes 8 detail
    updVd (ringWrite s v.errq 32 e) vd (fun u => { u with errq := { u.errq with tail := u.errq.tail + 1 } })

/-- UNIT. -/
def ErrUnit.code : ErrUnit → Nat
  | .pool => 0 | .shadow => 1 | .weight => 2 | .l1 => 3 | .icache => 4 | .l2 => 5 | .array => 6 | .devmem => 7

/-- An entry of a mill's error log, and of the black box (16 R368). (DESIGN CHOICE, log 125.) -/
def elogPut (s : State) (mill unit kind spindle syndrome addr owner : Nat) : State :=
  let e := toBytes 8 s.gtb.toNat ++ toBytes 1 unit ++ toBytes 1 kind ++ toBytes 2 spindle ++ toBytes 4 syndrome ++ toBytes 8 addr ++ toBytes 2 owner ++ zeros 6
  bbox (updMill s mill (fun m => { m with elog := mset m.elog (m.elogidx.toNat % 64) (BitVec.ofNat 256 (ofBytes e)), elogidx := m.elogidx + 1 })) 2 (e.take 23)

/-- What an entry says of an owner: VDID × 1,024 + CTX, or 0xFFFF. -/
def ownerCode : Option (Nat × Nat) → Nat
  | some (v, c) => v * 1024 + c
  | none => 0xFFFF
/-- The owner of a line: the context that last wrote it, where it is held in L2 (16 R368). (DESIGN CHOICE, log 125.) -/
def lineOwner (s : State) (line : Nat) : Option (Nat × Nat) :=
  match (l2Find s line).bind (fun x => x.writer) with
  | some (v, some c) => some (v, c)
  | _ => none

/-- A data error that is delivered is entered in the error log of its line's home slice too (16 R361): UNIT 5 while L2 holds the line, 7 otherwise. (DESIGN CHOICE, log 125.) -/
def logData (s : State) (f : Flt) : State :=
  match f.line with
  | none => s
  | some l => elogPut s (homeMill s l) (if (l2Find s l).isSome then ErrUnit.code .l2 else ErrUnit.code .devmem) 1 0xFFFF (mget s.mem.synd l).toNat (l * 128)
      (ownerCode (lineOwner s l))

/-- Class codes of fault records (16 R362). -/
def FltClass.code : FltClass → Nat
  | .decode => 1 | .execute => 2 | .page1 => 3 | .page2 => 4 | .violation => 5 | .debug => 6 | .data => 7 | .arrayReset => 8 | .regionAbort => 9

/-- What a record says of its master (16 R362): MASTER, VD, context, SKTOKEN, ID. -/
structure Master where
  kind : Nat
  vd : Nat
  ctx : Nat
  token : BitVec 32
  ident : Nat
  deriving DecidableEq, Repr

/-- The master of a failure of a skein's strand. -/
def Master.ofSkein (x : Skein) : Master := { kind := 1, vd := x.vd, ctx := x.ctx, token := x.token, ident := 0 }

/-- DETAIL: of a data error that has no other, the syndrome of the error that poisoned its line. -/
def Flt.detailOf (s : State) (f : Flt) : Nat :=
  match f.line with
  | some l => if f.detail = 0 then (mget s.mem.synd l).toNat else f.detail
  | none => f.detail

/-- The 64 bytes of a fault record (16 R362). -/
def fltBytes (s : State) (m : Master) (f : Flt) (token : BitVec 64) : List Byte :=
  toBytes 1 f.cls.code ++ toBytes 1 f.code ++ toBytes 1 f.access ++ toBytes 1 f.level ++ toBytes 1 m.vd ++ toBytes 1 m.kind ++
    toBytes 2 m.ctx ++ toBytes 4 m.token.toNat ++ toBytes 2 f.fibre ++ toBytes 2 m.ident ++ toBytes 8 f.pc.toNat ++ toBytes 8 f.va.toNat ++
    toBytes 8 f.gpa ++ toBytes 8 s.gtb.toNat ++ toBytes 8 token.toNat ++ toBytes 8 (f.detailOf s)

/-- A fault with no page, level or detail to report. -/
def Flt.plain (cls : FltClass) (code fibre : Nat) (pc : BitVec 64) : Flt :=
  { cls := cls, code := code, access := 0, level := 0xFF, fibre := fibre, pc := pc, va := 0, gpa := 0, detail := 0 }

/-- The ring of a fault queue. -/
def fltRing (s : State) : FltQueue → Ring
  | .vd n => (vdOf s n).fltq
  | .host => s.cp.hfltq
def setFltRing (s : State) (q : FltQueue) (r : Ring) : State :=
  match q with
  | .vd n => updVd s n (fun u => { u with fltq := r })
  | .host => { s with cp := { s.cp with hfltq := r } }

/-- Writing a record into a queue that has room; from then on its token, when it has one, resumes what it stopped, and a
strand that only waits for its record goes on (16 R363). -/
def fltWrite (s : State) (w : FltWait) : State :=
  let r := fltRing s w.queue
  let s1 := setFltRing (ringWrite s r 64 w.bytes) w.queue { r with tail := r.tail + 1 }
  let tok := BitVec.ofNat 64 (fieldOf w.bytes 48 8)
  let s2 := match w.after with
    | some k => updStrand s1 k (fun t => if t.wait == some (.token 0) then { t with st := .ready, wait := none } else t)
    | none => s1
  if tok = 0 then s2 else { s2 with tokens := s2.tokens ++ [{ value := tok, host := w.queue == .host, stops := w.stops }] }

/-- A record goes to its queue; one that finds the queue full, or earlier records waiting, waits; VD_EXIT.REASON says so for the host queue (16 R363). (DEDUCED, log 104.) -/
def fltPost (s : State) (vd : Nat) (w : FltWait) : State :=
  let s0 := bbox s 1 (w.bytes.take 23)
  if (fltRing s0 w.queue).full || s0.flts.any (fun u => u.queue == w.queue) then
    let s1 := { s0 with flts := s0.flts ++ [w] }
    match w.queue with
    | .host => bboxFree (updVd s1 vd (fun u => { u with exit := 3 })) 9
    | .vd _ => s1
  else fltWrite s0 w

/-- Waiting records of a queue are written, oldest first, while it has room (16 R363); n bounds their number. -/
def fltDrain (s : State) (q : FltQueue) : Nat → State
  | 0 => s
  | n + 1 =>
    match s.flts.find? (fun u => u.queue == q) with
    | none => s
    | some w => if (fltRing s q).full then s else fltDrain (fltWrite { s with flts := s.flts.erase w } w) q n

/-- Whether a record of a master still waits for room in its queue; the master stays stopped until it is written (16 R363). (DEDUCED, log 104.) -/
def recordWaits (s : State) (cls kind vd ctx ident : Nat) : Bool :=
  s.flts.any (fun w => fieldOf w.bytes 5 1 == kind && fieldOf w.bytes 4 1 == vd && (cls == 0 || fieldOf w.bytes 0 1 == cls) &&
    (kind != 1 || fieldOf w.bytes 6 2 == ctx) && fieldOf w.bytes 14 2 == ident)

/-- Values in use as resume tokens. -/
def tokensUsed (s : State) : List (BitVec 64) := s.tokens.map (fun t => t.value) ++ s.flts.map (fun w => BitVec.ofNat 64 (fieldOf w.bytes 48 8))

/-- A resume token (16 R362): free, not 0 and not in use. (DESIGN CHOICE, log 13.) -/
def freshToken (s : State) : Nat → BitVec 64
  | 0 => BitVec.ofNat 64 (1 + ((tokensUsed s).map (fun v => v.toNat)).foldl Nat.max 0)
  | n + 1 =>
    let v := Config.token (s.steps * 64 + n)
    if v = 0 ∨ v ∈ tokensUsed s then freshToken s n else v
/-- DESIGN CHOICE, log 13. -/
def newToken (s : State) : BitVec 64 := freshToken s 4

/-! ### Runahead ends -/

/-- A skein after an episode of a strand is thrown away (02 R63): its fibres' registers, predicate words and masks as at entry; its runahead
lines gone and its checkpoint lines ordinary again. -/
def raRestoreSkein (x : Skein) (t : Strand) (v : RaView) : Skein :=
  { x with
    fibres := x.fibres.map (fun f =>
      match v.saved.find? (fun y => y.id == f.id) with
      | some y => { f with preds := y.preds, regs := y.regs, live := y.live, rel := y.rel }
      | none => f),
    lines := (x.lines.filter (fun l => !(l.st == .runahead && l.strand == t.id))).map (fun l =>
      if l.st == .checkpoint && l.strand == t.id then { l with st := .dirty } else l) }

/-- An episode exits (02 R63, R66): the strand stands at the held clause's header again, in the state given. -/
def raEnd (s : State) (t : Strand) (st : StrandState) : State :=
  match t.ra with
  | none => s
  | some v =>
    setStrand (updSkein s t.skein (fun x => raRestoreSkein x t v))
      { t with ra := none, st := st, pc := v.pc, clause := none, waits := v.waits, wait := none }

/-! ### Halting hanks -/

/-- Strands of a hank. -/
def strandsOfHank (s : State) (h : Hank) : List Strand := s.strands.filter (fun t => h.skeins.contains t.skein)

/-- A stronger reason stands. -/
def whyRank : HaltWhy → Nat
  | .preempt => 0 | .freeze => 1 | .ending => 2

/-- A hank's runahead episodes end at once (02 R66). -/
def endEpisodes (s : State) (h : Hank) : State :=
  (strandsOfHank s h).foldl (fun u t => raEnd u t .held) s

/-- A request to halt a hank reaches its spindles (15 R339, R340): no strand of it issues from now on; a second request joins the first (R347). -/
def haltHank (s : State) (id : Nat) (why : HaltWhy) (mig : Bool) : State :=
  match hank? s id with
  | none => s
  | some h =>
    let why' := if whyRank h.why < whyRank why then why else h.why
    match h.st with
    | .placed => endEpisodes (setHank s { h with st := .quiescing, why := why, tq := s.gtb, mig := mig }) h
    | .quiescing => setHank s { h with why := why', mig := h.mig || mig }
    | .saved => setHank s { h with why := why', mig := h.mig || mig }

/-- The hanks of a context. -/
def hanksOf (s : State) (vd ctx : Nat) : List Nat :=
  (s.hanks.filter (fun h => match lot? s h.lot with | some l => l.vd == vd && l.ctx == ctx | none => false)).map (fun h => h.id)
def hanksOfVd (s : State) (vd : Nat) : List Nat :=
  (s.hanks.filter (fun h => match lot? s h.lot with | some l => l.vd == vd | none => false)).map (fun h => h.id)

/-- Every hank of a context or of a VD is asked to halt. -/
def haltCtx (s : State) (vd ctx : Nat) (why : HaltWhy) : State := (hanksOf s vd ctx).foldl (fun u h => haltHank u h why false) s
def haltVd (s : State) (vd : Nat) (why : HaltWhy) (mig : Bool) : State := (hanksOfVd s vd).foldl (fun u h => haltHank u h why mig) s

/-- The contexts of a VD that has been stopped are not runnable (15 R334). -/
def restCtxs (s : State) (vd : Nat) : State := { s with ctxs := updIf (fun c => c.vd == vd) (fun c => { c with runnable := false }) s.ctxs }

/-- A VD is stopped as by CPR_PREEMPT with VD = 1, and VD_EXIT says why (16 R358, R365). (DEDUCED, log 59.) -/
def stopVd (s : State) (vd reason : Nat) : State :=
  let s1 := haltVd (restCtxs (updVd s vd (fun u => { u with stopped := true, run := 0, exit := BitVec.ofNat 64 reason })) vd) vd .preempt false
  hostIrq (bboxFree s1 9) vd

/-! ### Freezing and ending -/

/-- A violation freezes a context (16 R365). (DEDUCED, log 114.) -/
def freezeCtx (s : State) (vd ctx : Nat) : State :=
  haltCtx (bboxFree (updCtx s vd ctx (fun c => { c with st := 2, runnable := false })) 3) vd ctx .freeze

/-- A hank ends with a fault (16 R364): its strands issue nothing more; array work and what is not yet sent will be discarded when its
skeins retire; its lot places no further hank and will complete with the code, the detail and the first failing index (02 R51). (DEDUCED, log 25; DEDUCED, log 104.) -/
def endHank (s : State) (id code detail : Nat) : State :=
  match hank? s id with
  | none => s
  | some h =>
    if h.failed then
      (if code = 7 then
        { s with lots := updIf (fun l => l.id == h.lot && l.failHank == some h.index) (fun l => { l with code := 7, detail := BitVec.ofNat 8 detail }) s.lots }
       else s)
    else
      let s1 := { s with
        hanks := updIf (fun u => u.id == id) (fun u => { u with failed := true }) s.hanks,
        strands := s.strands.filter (fun t => !(h.skeins.contains t.skein)),
        array := s.array.filter (fun a => !(h.skeins.contains a.skein)),
        replays := s.replays.filter (fun r => !(h.skeins.contains r.skein)),
        skeins := updIf (fun x => x.hank == id) (fun x => { x with fibres := [] }) s.skeins }
      let note := fun (l : Lot) => { l with failHank := some h.index, code := BitVec.ofNat 8 code, detail := BitVec.ofNat 8 detail }
      { s1 with lots := updIf (fun l => l.id == h.lot && l.failHank == none) note s1.lots }

/-- A record of a strand's failure for the VD fault queue, without a token. -/
def postPlain (s : State) (x : Skein) (f : Flt) : State :=
  fltPost s x.vd { queue := .vd x.vd, bytes := fltBytes s (Master.ofSkein x) f 0, stops := .nothing, after := none }

/-- A decode, execute or data fault of a strand ends its hank; a data error is logged too (16 R361, R364). -/
def failHank (s : State) (x : Skein) (f : Flt) : State :=
  endHank (postPlain (logData s f) x f) x.hank 6 f.code

/-! ### Traps (10 R261, R262) -/

/-- Codes of CAUSE. -/
inductive TrapCause where
  | promiseMissed | uniformDivergentWrite | arithTrap | staleRead | userTrap
  deriving DecidableEq, Repr
def TrapCause.code : TrapCause → Nat
  | .promiseMissed => 1 | .uniformDivergentWrite => 2 | .arithTrap => 3 | .staleRead => 4 | .userTrap => 5

/-- CAUSE: INFO in bits 63:32, CODE in bits 7:0. -/
def causeWord (c : TrapCause) (info : Nat) : BitVec 64 := BitVec.ofNat 64 (info % 2 ^ 32 * 2 ^ 32 + c.code)

/-- Inserting a strand after the strand with a key. (DEDUCED, log 27.) -/
def insertAfter (l : List Strand) (k : Nat) (n : Strand) : List Strand :=
  match l with
  | [] => [n]
  | t :: ts => if t.id = k then t :: n :: ts else t :: insertAfter ts k n

/-- Held feed records go back to their feeds, ahead of every record not yet popped, to be delivered once a token, if there is one, says that their pages
are resident (02 R56). -/
def requeueHeld (s : State) (held : List HeldRec) (token : Option (BitVec 64)) : State :=
  { s with requeued := s.requeued ++ held.map (fun h => (h.desc, h.idx, token)) }

/-- The stores that an open region has buffered are discarded: the flags they raised are set and the completion flags they hold go idle (04 R106;
05 R129; 10 R258). -/
def discardStores (s : State) (t : Strand) (x : Skein) : State :=
  match t.region with
  | none => s
  | some r => r.stores.foldl (fun u b => releaseFlags (raise u x.vd x.ctx b.flags) b.seq) s

/-- A failure ends an open region: its stores are discarded and its held records requeued (10 R258). -/
def failRegion (s : State) (t : Strand) (x : Skein) : State :=
  requeueHeld (discardStores s t x) (if t.region.isSome then t.held else []) none

/-- Taking a trap: the strand is suspended in the Trap state at its PC; a handler strand with the same fibres starts at CTX_TVEC with idle flags
and a trap record of CAUSE and EPC; an open region goes with it (R258). With CTX_TVEC 0, or in a handler, the fault is execute-class TRAP-UNHANDLED. (DEDUCED, log 27.) -/
def takeTrap (s : State) (t : Strand) (x : Skein) (c : TrapCause) (info : Nat) (epc : BitVec 64) : State :=
  let tvec := match ctxOf s x with | some u => u.tvec | none => 0
  if tvec = 0 ∨ t.trap.isSome then
    failHank (failRegion s t x) x (Flt.plain .execute 0x1E (t.fibres.headD 0xFFFF) t.pc)
  else
    let h : Strand := { t with
      id := s.key, st := .ready, pc := tvec, clause := none, waits := 0, waitCount := 0, due := false, dueCycles := 0, inPlace := [],
      holds := [], wait := none, again := false, trap := some { cause := causeWord c info, epc := epc, epcWritten := false, trapped := t.id },
      ra := none, active := false, arith := [], ras := [], block := none, faulted := none }
    let s1 := setStrand s { t with st := .trap, region := none, held := [], wait := none, again := false }
    let follow := fun (l : List Nat) => if l.contains t.id then l ++ [s.key] else l
    { s1 with key := s1.key + 1, strands := insertAfter s1.strands t.id h, pend := s1.pend.map (fun p => { p with strands := follow p.strands }),
              array := s1.array.map (fun a => { a with strands := follow a.strands }) }

/-! ### Parking (16 R361, R363; 10 R258, R262) -/

/-- What stops, and which queue its record goes to, for a page fault of stage 1 or 2. -/
def pageQueue (vd : Nat) : FltClass → FltQueue
  | .page2 => .host
  | _ => .vd vd

/-- The strand parks with a token (16 R361). -/
def parkStrand (s : State) (t : Strand) (x : Skein) (f : Flt) : State :=
  let tok := newToken s
  let w : FltWait := { queue := pageQueue x.vd f.cls, bytes := fltBytes s (Master.ofSkein x) f tok, stops := .strand t.id, after := none }
  fltPost (setStrand s { t with st := .parked, wait := some (.token tok), again := false }) x.vd w

/-- The PC and clause after a word of len bytes (05 R122): the last word of a clause is followed by a clause start. -/
def Strand.advance (t : Strand) (len : Nat) : Strand :=
  let p := t.pc + BitVec.ofNat 64 len
  match t.clause with
  | none => { t with pc := p }
  | some c => if p = c.start + BitVec.ofNat 64 (32 * (c.size.toNat + 1)) then { t with pc := p, clause := none } else { t with pc := p }

/-- The address of the word after a word of len bytes. -/
def Strand.nextPc (t : Strand) (len : Nat) : BitVec 64 := t.pc + BitVec.ofNat 64 len

/-- A strand goes to a clause start. -/
def Strand.goto (t : Strand) (pc : BitVec 64) : Strand := { t with pc := pc, clause := none }

/-- Writing a 32-bit register of a fibre (03 R83, R86): the register is live and no longer released; the other registers of a quad that was dead
read as zero. -/
def Fibre.write (f : Fibre) (n : Nat) (v : BitVec 32) : Fibre :=
  let q := n / 4
  let f1 : Fibre := if f.live.getLsbD q then f
    else { f with regs := mclear f.regs (4 * q) (4 * q + 4), live := f.live ||| BitVec.ofNat 48 (2 ^ q), rel := f.rel &&& ~~~(BitVec.ofNat 192 (15 * 2 ^ (4 * q))) }
  { f1 with regs := mset f1.regs n v, rel := f1.rel &&& ~~~(BitVec.ofNat 192 (2 ^ n)) }

/-- Writing a 32-bit value through a D field (03 R71, R72) in the given fibres: a uniform register takes the value with zeros above. -/
def Skein.put32 (x : Skein) (d : Field8) (fs : List Nat) (v : Nat → BitVec 32) : Skein :=
  if d.toNat < 192 then { x with fibres := x.fibres.map (fun f => if fs.contains f.id then f.write d.toNat (v f.id) else f) }
  else match fs with
    | [] => x
    | f :: _ => { x with g := mset x.g (d.toNat - 192) ((v f).setWidth 64) }

/-- Writing a 64-bit value through a D field: a pair, or a uniform register (03 R69). -/
def Skein.put64 (x : Skein) (d : Field8) (fs : List Nat) (v : Nat → BitVec 64) : Skein :=
  if d.toNat < 192 then
    { x with fibres := x.fibres.map (fun f =>
        if fs.contains f.id then (f.write d.toNat (bits (v f.id) 0 32)).write (d.toNat + 1) (bits (v f.id) 32 32) else f) }
  else match fs with
    | [] => x
    | f :: _ => { x with g := mset x.g (d.toNat - 192) (v f) }

/-- The strand as it stands now, or as it stood. -/
def nowStrandOf (s : State) (t : Strand) : Strand := { t with holds := ((strand? s t.id).getD t).holds }

/-- A page fault inside an open region (10 R258): the buffered stores are discarded. With no held records the strand parks and will restart at
IDEM; with held records they are requeued at once, to be delivered again when the record's token says that the pages are resident, and the strand
continues after IDEM with its destination 1, the fault record being delivered. (DEDUCED, log 23.) -/
def abortRegion (s : State) (t : Strand) (x : Skein) (r : IdemRegion) (f : Flt) : State :=
  let back : Strand := { nowStrandOf (discardStores s t x) t with region := none, pc := r.start, clause := some r.clause }
  if t.held.isEmpty then parkStrand (discardStores s t x) back x f
  else
    -- until its record is written the strand is stopped (16 R363)
    let tok := newToken s
    let s1 := setStrand (discardStores s t x) { back.advance 8 with held := [], again := false, st := .parked, wait := some (.token 0) }
    let s2 := updSkein (requeueHeld s1 t.held (some tok)) x.id (fun y => y.put32 r.dest r.act (fun _ => 1))
    fltPost s2 x.vd { queue := pageQueue x.vd f.cls, bytes := fltBytes s (Master.ofSkein x) { f with cls := .regionAbort } tok, stops := .nothing, after := some t.id }

/-- Delivery of a strand's failure under its class (16 R361, R365). (DEDUCED, log 114.) -/
def deliver (s : State) (t : Strand) (x : Skein) (f : Flt) : State :=
  match f.cls with
  | .page1 | .page2 =>
    match t.region with
    | some r => abortRegion s t x r f
    | none => parkStrand s t x f
  | .violation =>
    let s1 := setStrand (failRegion s t x)
      { nowStrandOf (failRegion s t x) t with region := none, held := if t.region.isSome then [] else t.held, again := false }
    let m := Master.ofSkein x
    let s2 := fltPost s1 x.vd { queue := .host, bytes := fltBytes s m f 0, stops := .nothing, after := none }
    freezeCtx (fltPost s2 x.vd { queue := .vd x.vd, bytes := fltBytes s m f 0, stops := .nothing, after := none }) x.vd x.ctx
  | _ => failHank (failRegion s t x) x f

end Sys2Proof.Machine
end

