-- ==== Sys2Proof/Machine/Buckets.lean ====
section
/-! DEFINITION. What an empty bucket brings about (14 R312; 15 R332, R346): contexts stop, their hanks quiesce, a VD's queues are
unmapped; and what a level above zero again brings back. -/
namespace Sys2Proof.Machine

/-- A signed level is zero or below (14 R309). -/
def Bucket.isEmpty (b : Bucket) : Bool := decide (s64 b.lvl ≤ 0)

/-- The slots of CPR_QSLOT that are mapped: number and descriptor address (15 R332). -/
def mappedSlots (s : State) : List (Nat × Nat) :=
  (s.cp.qslot.filter (fun e => e.2.getLsbD 0)).map (fun e => (e.1, (bits e.2 6 58).toNat * 64))
/-- VD and context of a queue, from its descriptor (15 R323). -/
def descVd (s : State) (desc : Nat) : Nat := readNat s (desc + 34) 1
def descCtx (s : State) (desc : Nat) : Nat := readNat s (desc + 36) 2
def descQid (s : State) (desc : Nat) : Nat := readNat s (desc + 32) 2
/-- FLAGS of a descriptor, written by the device (15 R323): bit 0 FROZEN, bit 1 MAPPED. -/
def setDescFlag (s : State) (desc bit : Nat) (v : Bool) : State :=
  let b := BitVec.ofNat 8 (readNat s (desc + 35) 1)
  let m : Byte := BitVec.ofNat 8 (2 ^ bit)
  writeSpa s (desc + 35) [if v then b ||| m else b &&& ~~~m]
def descFlag (s : State) (desc bit : Nat) : Bool := (BitVec.ofNat 8 (readNat s (desc + 35) 1)).getLsbD bit

/-- A VD's queues are unmapped: VALID and MAPPED are cleared; the slots are remembered (15 R332). -/
def unmapVd (s : State) (vd : Nat) : State :=
  let mine := (mappedSlots s).filter (fun e => descVd s e.2 == vd)
  let s1 := mine.foldl (fun (u : State) e =>
    let v := mget u.cp.qslot e.1
    setDescFlag { u with cp := { u.cp with qslot := mset u.cp.qslot e.1 (v &&& ~~~1) } } e.2 1 false) s
  updVd s1 vd (fun u => { u with unmapped := u.unmapped ++ mine.map (fun e => e.1) })

/-- The slots cleared at an emptying become valid again (14 R312). -/
def remapVd (s : State) (vd : Nat) : State :=
  let s1 := (vdOf s vd).unmapped.foldl (fun (u : State) n =>
    let v := mget u.cp.qslot n
    setDescFlag { u with cp := { u.cp with qslot := mset u.cp.qslot n (v ||| 1) } } ((bits v 6 58).toNat * 64) 1 true) s
  updVd s1 vd (fun u => { u with unmapped := [] })

/-- A VD's level has come to zero or below: every context of it stops and its queues are unmapped (14 R312). -/
def emptyVd (s : State) (vd : Nat) : State :=
  let s1 := updVd (unmapVd s vd) vd (fun u => { u with empty := true })
  haltVd { s1 with ctxs := updIf (fun c => c.vd == vd) (fun c => { c with stopped := true, runnable := false }) s1.ctxs } vd .preempt false

/-- A context's level has come to zero or below (14 R312). -/
def emptyCtx (s : State) (vd n : Nat) : State :=
  haltCtx (updCtx s vd n (fun c => { c with stopped := true, runnable := false })) vd n .preempt

/-- After a step: the levels that its debits left at zero or below stop what they govern (14 R312). -/
def bucketSettle (s : State) : State :=
  let s1 := (s.vds.filter (fun v => !v.empty && v.bkt.isEmpty)).foldl (fun u v => emptyVd u v.num) s
  (s1.ctxs.filter (fun c => !c.stopped && c.bkt.isEmpty)).foldl (fun u c => emptyCtx u c.vd c.num) s1

end Sys2Proof.Machine
end

