-- ==== Sys2Proof/Machine/Xlat.lean ====
section
/-! DEFINITION. Address translation (16 R348 to R359): the nested walk, permissions, accessed and dirty bits with the dirty-page
log, last-page registers and TLB entries. -/
namespace Sys2Proof.Machine

/-- A failed translation: class, code, walk level of the failing entry (0xFF none), guest physical address. -/
structure XErr where
  cls : FltClass
  code : Nat
  level : Nat
  gpa : Nat
  line : Option Nat := none
  deriving DecidableEq, Repr

/-- What asks for a translation: VD and context, the mill whose walker works, the account, the virtual address, whether it reads, writes or
fetches (an atomic reads and writes), whether it is the device's own traffic (16 R350), whether it is a prefetch, a PFT or in runahead (R352),
whether its write goes to a region buffer, so that the dirty bits are left to COMMIT (10 R258). -/
structure XReq where
  vd : Nat
  ctx : Nat
  mill : Nat
  acct : Acct
  va : BitVec 64
  read : Bool
  write : Bool
  fetch : Bool
  own : Bool
  pf : Bool
  buf : Bool
  deriving DecidableEq, Repr

/-! ### Table entries (16 R349) -/

abbrev Pte := BitVec 64
def Pte.v (e : Pte) : Bool := BitVec.getLsbD e 0
def Pte.leaf (e : Pte) : Bool := BitVec.getLsbD e 1
def Pte.r (e : Pte) : Bool := BitVec.getLsbD e 2
def Pte.w (e : Pte) : Bool := BitVec.getLsbD e 3
def Pte.x (e : Pte) : Bool := BitVec.getLsbD e 4
def Pte.dt (e : Pte) : Bool := BitVec.getLsbD e 6
def Pte.apf (e : Pte) : Bool := BitVec.getLsbD e 7
def Pte.c64 (e : Pte) : Bool := BitVec.getLsbD e 8
def Pte.eng (e : Pte) : Bool := BitVec.getLsbD e 9
def Pte.mt (e : Pte) : Nat := (BitVec.extractLsb' 10 2 e).toNat
/-- ADDR as the address it stands for. -/
def Pte.addr (e : Pte) : Nat := (BitVec.extractLsb' 12 40 e).toNat * 4096

/-- Size of a leaf at a level, as a power of two (16 R348). -/
def leafLg (level : Nat) (e : Pte) : Nat := if level = 0 then (if e.c64 then 16 else 12) else if level = 1 then 21 else 30

/-- A bad entry (16 R349) at a level of stage 1 or 2. -/
def Pte.bad (e : Pte) (stage1 : Bool) (level : Nat) : Bool :=
  BitVec.extractLsb' 52 12 e != 0 || (stage1 && BitVec.extractLsb' 48 4 e != 0) || decide (2 ≤ e.mt) || (e.leaf && decide (3 ≤ level)) ||
    (!e.leaf && level == 0) || (e.leaf && level == 2 && BitVec.extractLsb' 12 18 e != 0) ||
    (e.leaf && level == 1 && BitVec.extractLsb' 12 9 e != 0) || (e.c64 && !(level == 0 && e.leaf))

/-- An entry at an address. -/
def pteAt (s : State) (a : Nat) : Pte := BitVec.ofNat 64 (readNat s a 8)

/-- Whether the sixteen entries of a group are equal but for ADDR bits 15:12, which equal the entry's index (16 R349). (DESIGN CHOICE, log 19.) -/
def groupEqual (s : State) (base : Nat) (e : Pte) : Bool :=
  (upTo 0 16).all (fun i => setBits e 12 (BitVec.ofNat 4 i) == pteAt s (base + 8 * i))

/-- The entry that an access to a page with a C64 leaf goes through: its own, or, in an unequal group, any one of the sixteen (16 R349). (DESIGN CHOICE, log 19.) -/
def pickC64 (s : State) (a : Nat) (e : Pte) : Nat × Pte :=
  let base := a - a % 128
  if e.c64 && e.leaf && !groupEqual s base e then
    let b := base + 8 * choose s (100 + a) 16
    (b, pteAt s b)
  else (a, e)

/-- A leaf that a walk has found: the entry, where it stands, its level, its size. -/
structure Leaf where
  e : Pte
  at_ : Nat
  level : Nat
  lg : Nat
  deriving DecidableEq, Repr

/-- The page frame of a leaf. -/
def Leaf.frame (l : Leaf) : Nat := l.e.addr / 2 ^ l.lg * 2 ^ l.lg

/-- Stage 2 from a level down (16 R348): walk steps, and the leaf or the failure (orders 4 and 5 of R359). The first argument is the level plus one. -/
def walk2 (s : State) (gpa : Nat) : Nat → Nat → Nat × Except XErr Leaf
  | 0, _ => (0, .error { cls := .page2, code := 0x20, level := 0, gpa := gpa })
  | n + 1, table =>
    let a0 := table + 8 * (gpa / 2 ^ (12 + 9 * n) % 512)
    if poisoned s a0 8 then (1, .error { cls := .data, code := 0x40, level := n, gpa := gpa, line := some (badLine s a0 8) })
    else
      let e0 := pteAt s a0
      let ae := if e0.v && n == 0 then pickC64 s a0 e0 else (a0, e0)
      let a := ae.1
      let e := ae.2
      if !e.v then (1, .error { cls := .page2, code := 0x20, level := n, gpa := gpa })
      else if e.bad false n then (1, .error { cls := .violation, code := 0x31, level := n, gpa := gpa })
      else if e.leaf then (1, .ok { e := e, at_ := a, level := n, lg := if e0.c64 && n == 0 then 16 else leafLg n e })
      else
        let r := walk2 s gpa n e.addr
        (r.1 + 1, r.2)

/-- The root of a VD's stage 2 (16 R351). -/
def s2root (s : State) (vd : Nat) : Nat := (bits (vdOf s vd).s2base 12 40).toNat * 4096

/-- What a walk leaves: steps, the stage-2 leaves used to reach tables (place, guest page, size), and the two leaves with the guest address or the failure. -/
structure WalkOut where
  steps : Nat
  used : List (Nat × Nat × Nat)
  out : Except XErr (Leaf × Leaf × Nat)

/-- Stage 1 from a level down, every table translated by stage 2 (16 R348, R359). The first argument is the level plus one. -/
def walk1 (s : State) (vd : Nat) (va : Nat) : Nat → Nat → WalkOut
  | 0, _ => { steps := 0, used := [], out := .error { cls := .page1, code := 0x20, level := 0, gpa := 0 } }
  | n + 1, table =>
    let g := table + 8 * (va / 2 ^ (12 + 9 * n) % 512)
    match walk2 s g 4 (s2root s vd) with
    | (k, .error err) => { steps := k, used := [], out := .error err }
    | (k, .ok l2) =>
      if !l2.e.r then { steps := k, used := [], out := .error { cls := .violation, code := 0x30, level := l2.level, gpa := g } }
      else if !inVdMem s vd (normSpa s l2.frame) then
        { steps := k, used := [], out := .error { cls := .violation, code := 0x33, level := n, gpa := table } }
      else
        let a0 := l2.frame + g % 2 ^ l2.lg
        let u2 := (l2.at_, g / 2 ^ l2.lg * 2 ^ l2.lg, l2.lg)
        if poisoned s a0 8 then { steps := k + 1, used := [u2], out := .error { cls := .data, code := 0x40, level := n, gpa := 0, line := some (badLine s a0 8) } }
        else
          let e0 := pteAt s a0
          let ae := if e0.v && n == 0 then pickC64 s a0 e0 else (a0, e0)
          let a := ae.1
          let e := ae.2
          if !e.v then { steps := k + 1, used := [u2], out := .error { cls := .page1, code := 0x20, level := n, gpa := 0 } }
          else if e.bad true n then { steps := k + 1, used := [u2], out := .error { cls := .execute, code := 0x21, level := n, gpa := 0 } }
          else if e.leaf then
            let l1 : Leaf := { e := e, at_ := a, level := n, lg := if e0.c64 && n == 0 then 16 else leafLg n e }
            let gpa := l1.frame + va % 2 ^ l1.lg
            match walk2 s gpa 4 (s2root s vd) with
            | (k2, .error err) => { steps := k + 1 + k2, used := [u2], out := .error err }
            | (k2, .ok d2) => { steps := k + 1 + k2, used := [u2], out := .ok (l1, d2, gpa) }
          else
            let r := walk1 s vd va n (e.addr % 2 ^ 48)
            { r with steps := k + 1 + r.steps, used := u2 :: r.used }

/-- Orders 6 to 8 of R359 for the data page, with R350. -/
def finalCheck (s : State) (q : XReq) (l1 l2 : Leaf) (gpa : Nat) : Option XErr :=
  let ok := fun (e : Pte) (fetchR : Bool) => (!q.read || e.r) && (!q.write || e.w) && (!q.fetch || (e.x && (!fetchR || e.r)))
  if !ok l2.e true then some { cls := .violation, code := 0x30, level := l2.level, gpa := gpa }
  else if !ok l1.e false || (l1.e.eng && !q.own) then some { cls := .execute, code := 0x12, level := l1.level, gpa := 0 }
  else if !inVdMem s q.vd (normSpa s (l2.frame + gpa % 2 ^ l2.lg)) then some { cls := .violation, code := 0x33, level := l2.level, gpa := gpa }
  else none

/-- The combined translation of two leaves (16 R350). -/
def transOf (q : XReq) (l1 l2 : Leaf) (gpa : Nat) (used : List (Nat × Nat × Nat)) : Trans :=
  let lg := Nat.min l1.lg l2.lg
  let spa := l2.frame + gpa % 2 ^ l2.lg
  { vd := q.vd, ctx := q.ctx, vpage := q.va.toNat / 2 ^ lg * 2 ^ lg, lg := lg, spage := spa / 2 ^ lg * 2 ^ lg, r := l1.e.r && l2.e.r,
    w := l1.e.w && l2.e.w, x := l1.e.x && l2.e.x && l2.e.r, uncached := l1.e.mt == 1 || l2.e.mt == 1, eng := l1.e.eng,
    dt := l1.e.dt && l2.e.dt, leaf1 := l1.at_, leaf2 := l2.at_, gpage := gpa / 2 ^ l2.lg * 2 ^ l2.lg, lg2 := l2.lg,
    acc := false, lpage := q.va.toNat / 2 ^ l1.lg * 2 ^ l1.lg, llg := l1.lg, tabs := dedup (used.map (fun u => u.2)) }

/-! ### Accessed and dirty bits, the dirty log -/

/-- An atomic OR of one bit of an entry at its home slice (16 R352). -/
def pteSet (s : State) (a bit : Nat) : State :=
  let e := pteAt s a
  if e.getLsbD bit then s else writeSpa s a (toBytes 8 (e.toNat + 2 ^ bit))

/-- The A bit of a leaf used; for a prefetch only with APF (16 R352). -/
def pteAccess (s : State) (pf : Bool) (a : Nat) : State := if pf && !(pteAt s a).apf then s else pteSet s a 5

/-- The size code of a log entry (16 R357). -/
def lgCode (lg : Nat) : Nat := if lg = 12 then 0 else if lg = 16 then 1 else if lg = 21 then 2 else 3

/-- The dirty bit of a stage-2 leaf, with the log entry that comes before the write (16 R357, R358). The answer says whether the write is held
because the log is full; the VD is then stopped. (DEDUCED, log 8.) -/
def s2Dirty (s : State) (vd leaf2 gpage lg2 : Nat) : State × Bool :=
  if (pteAt s leaf2).dt then (s, false)
  else
    let v := vdOf s vd
    if !v.dlog.cfg.getLsbD 0 then (pteSet s leaf2 6, false)
    else if v.dlog.size ≤ (v.dlog.tail - v.dlog.head).toNat then (if v.stopped then s else stopVd s vd 1, true)
    else
      let s1 := ringWrite (pteSet s leaf2 6) v.dlog 8 (toBytes 8 (gpage + lgCode lg2))
      (updVd s1 vd (fun u => { u with dlog := { u.dlog with tail := u.dlog.tail + 1 } }), false)

/-! ### Translating -/

/-- What a translation gives: the system physical address, the translation, whether the write is held by a full dirty log, whether a walk was made. -/
inductive XOut where
  | ok (spa : Nat) (t : Trans) (held walked : Bool)
  | err (e : XErr)

/-- Whether a cached translation covers an address. -/
def Trans.covers (t : Trans) (vd ctx : Nat) (va : BitVec 64) : Bool := t.vd == vd && t.ctx == ctx && va.toNat / 2 ^ t.lg * 2 ^ t.lg == t.vpage

/-- Whether a cached translation serves a request as it stands: permitted, dirty already if it writes, and, unless the request is a prefetch, with A set in
every leaf it uses: one that a prefetch installed without setting A does not serve an ordinary access, which walks again and sets A (R352). (DEDUCED, log 126.) -/
def Trans.serves (t : Trans) (q : XReq) : Bool :=
  (!q.read || t.r) && (!q.write || (t.w && (t.dt || q.pf || q.buf))) && (!q.fetch || t.x) && (!t.eng || q.own) && (t.acc || q.pf)

/-- The address within a translation. -/
def Trans.spa (t : Trans) (va : BitVec 64) : Nat := t.spage + va.toNat % 2 ^ t.lg

/-- A fresh walk without its effects. -/
def walkOf (s : State) (q : XReq) : WalkOut :=
  match ctx? s q.vd q.ctx with
  | none => { steps := 0, used := [], out := .error { cls := .page1, code := 0x20, level := 4, gpa := 0 } }
  | some c => walk1 s q.vd q.va.toNat 5 ((bits c.ptbase 12 36).toNat * 4096)

/-- A walk whose tables may lie on a lost stack waits until no stripe is locked (17 R378). (DESIGN CHOICE, log 142.) -/
def walkLocks (s : State) : State := if (upTo 0 16).any (fun n => stackState s n == 1) then { s with hbm := { s.hbm with parity := [] } } else s

/-- A translation with whether A is set in every leaf that its walk used. -/
def Trans.seen (t : Trans) (s : State) (leaves : List Nat) : Trans := { t with acc := leaves.all (fun a => (pteAt s a).getLsbD 5) }

/-- The end of a walk that succeeds: A of the leaves, DT of a page written. -/
def walkEnd (s : State) (q : XReq) (used : List (Nat × Nat × Nat)) (l1 l2 : Leaf) (gpa : Nat) : State × XOut :=
  let s1 := pteAccess (pteAccess s q.pf l1.at_) q.pf l2.at_
  let t := (transOf q l1 l2 gpa used).seen s1 (l1.at_ :: l2.at_ :: used.map (fun u => u.1))
  if q.write && !q.pf && !q.buf then
    match s2Dirty s1 q.vd l2.at_ t.gpage l2.lg with
    | (s2, true) => (s2, .ok (t.spa q.va) t true true)
    | (s2, false) => (pteSet s2 l1.at_ 6, .ok (t.spa q.va) { t with dt := true } false true)
  else (s1, .ok (t.spa q.va) t false true)

/-- A walk with its charges and its bits (16 R352), then the checks of the data page. -/
def walkIn (s : State) (q : XReq) : State × XOut :=
  let w := walkOf s q
  let s1 := w.used.foldl (fun u a => pteAccess u q.pf a.1) (charge s q.acct q.mill 20 w.steps)
  match w.out with
  | .error e => (s1, .err e)
  | .ok (l1, l2, gpa) =>
    match finalCheck s q l1 l2 gpa with
    | some e => (s1, .err e)
    | none => walkEnd s1 q w.used l1 l2 gpa
def walk (s : State) (q : XReq) : State × XOut := walkIn (walkLocks s) q

/-- A spindle's TLB entry for an address. -/
def tlbFind (s : State) (sp vd ctx : Nat) (va : BitVec 64) : Option Trans := (spindleOf s sp).tlb.find? (fun t => t.covers vd ctx va)

/-- Installing a translation in a spindle's TLB in place of any entry it overlaps. -/
def tlbPut (s : State) (sp : Nat) (t : Trans) : State :=
  let x := spindleOf s sp
  setSpindle s { x with tlb := x.tlb.filter (fun u => !(u.covers t.vd t.ctx (BitVec.ofNat 64 t.vpage) || t.covers u.vd u.ctx (BitVec.ofNat 64 u.vpage))) ++ [t] }

/-- Translation through a last-page register, a spindle's TLB, or a walk (16 R353, R354). A last-page register that hits is used. A TLB entry
that disagrees with the tables, which may be so until an invalidation completes, is used or not by free choice. (DESIGN CHOICE, log 18.) -/
def xlate (s : State) (q : XReq) (last : Option Trans) (sp : Option Nat) : State × XOut :=
  if !canonical q.va then (s, .err { cls := .execute, code := 0x11, level := 0xFF, gpa := 0 })
  else
    match last.filter (fun t => t.covers q.vd q.ctx q.va && t.serves q) with
    | some t => (charge s q.acct q.mill 14 1, .ok (t.spa q.va) t false false)
    | none =>
      match sp with
      | none => walk s q
      | some n =>
        match (tlbFind s n q.vd q.ctx q.va).filter (fun t => t.serves q) with
        | some t =>
          let same := match (walkOf s q).out with
            | .ok (l1, l2, gpa) => (finalCheck s q l1 l2 gpa).isNone && (transOf q l1 l2 gpa []).spa q.va == t.spa q.va &&
                (transOf q l1 l2 gpa []).uncached == t.uncached
            | .error _ => false
          if same || choose s 50 2 == 0 then (s, .ok (t.spa q.va) t false false)
          else
            match walk s q with
            | (s1, .ok a t1 h w) => (tlbPut s1 n t1, .ok a t1 h w)
            | r => r
        | none =>
          match walk s q with
          | (s1, .ok a t1 h w) => (tlbPut s1 n t1, .ok a t1 h w)
          | r => r

/-- Whether a translation was made by a walk: one that fails for another reason than its address's form has walked (R359). -/
def XOut.walked (o : XOut) (va : BitVec 64) : Bool := match o with | .ok _ _ _ w => w | .err _ => canonical va

/-- A failed translation as a fault of a strand (16 R359, R362). The device's own traffic fails as BACKING-FAULT. -/
def XErr.flt (e : XErr) (q : XReq) (path fibre : Nat) (atomic : Bool) (pc : BitVec 64) : Flt :=
  { cls := if q.own then .violation else e.cls, code := if q.own then 0x32 else e.code,
    access := (if q.read then 1 else 0) + (if q.write then 2 else 0) + (if q.fetch then 4 else 0) + (if atomic then 8 else 0) + 32 * path,
    level := e.level, fibre := fibre, pc := pc, va := q.va, gpa := e.gpa, detail := 0, line := if q.own then none else e.line }

end Sys2Proof.Machine
end

