-- ==== Sys2Proof/Machine/CpPath.lean ====
section
/-! DEFINITION. What the engines and the command processor share: fault records of engines and queues (16 R362, R424), frozen queues (16 R365),
and the writes of the CP path (15 R329, R346): completion records, signals and feed results, each made when the ones before it for its
queue are globally complete, withheld while its VD is stopped or its bucket is empty. -/
namespace Sys2Proof.Machine

/-- The state of a queue's front end; a queue of which nothing is known yet. -/
def QueueFE.fresh (d : Nat) : QueueFE :=
  { desc := d, ibs := [], wait := none, seq := 0, open_ := [], token := none, skipIb := false, promises := [], fed := 0, gw := 0, zero := false }
def queueOf (s : State) (d : Nat) : QueueFE := (queue? s d).getD (QueueFE.fresh d)
def putQueue (s : State) (q : QueueFE) : State :=
  if (queue? s q.desc).isSome then setQueue s q else { s with queues := s.queues ++ [q] }


/-! ### Records of engines and queues -/

/-- The masters of queues and of BTE channels (16 R362). -/
def Master.queue (s : State) (d : Nat) : Master := { kind := 2, vd := descVd s d, ctx := descCtx s d, token := 0, ident := descQid s d }
def Master.bte (vd ctx mill bte : Nat) : Master := { kind := 3, vd := vd, ctx := ctx, token := 0, ident := mill * 8 + bte }

/-- A record without a token, for the VD fault queue; a violation's also goes to the host fault queue; a data error is logged too (16 R361, R424). -/
def postEngine (s0 : State) (m : Master) (f : Flt) : State :=
  let s := logData s0 f
  let s1 := fltPost s m.vd { queue := .vd m.vd, bytes := fltBytes s m f 0, stops := .nothing, after := none }
  if f.cls = .violation then fltPost s1 m.vd { queue := .host, bytes := fltBytes s m f 0, stops := .nothing, after := none } else s1
/-- A page fault's record, with the token that resumes what stopped. -/
def postPage (s : State) (m : Master) (f : Flt) (st : Stopped) : State × BitVec 64 :=
  let tok := newToken s
  (fltPost s m.vd { queue := pageQueue m.vd f.cls, bytes := fltBytes s m f tok, stops := st, after := none }, tok)

/-- FROZEN is set (16 R365). -/
def freezeQueue (s : State) (d : Nat) : State := bboxFree (setDescFlag s d 0 true) 3

/-- The account of a queue's traffic: its context, or its VD for what the host appended or when the context has ended (14 R302). -/
def queueAcct (s : State) (vd ctx : Nat) (host : Bool) : Acct := if host || (ctx? s vd ctx).isNone then (vd, none) else (vd, some ctx)

/-- The request of an engine or a consumer for a queue's context (10 R423). (DEDUCED, log 39.) -/
def engineReq (vd ctx mill : Nat) (acct : Acct) (va : BitVec 64) (write : Bool) : XReq :=
  { vd := vd, ctx := ctx, mill := mill, acct := acct, va := va, read := !write, write := write, fetch := false, own := false, pf := false, buf := false }

/-- MISALIGNED of an engine's access. -/
def engineMis (va : BitVec 64) (write : Bool) (path : Nat) : Flt :=
  { Flt.plain .execute 0x10 0xFFFF 0 with va := va, access := (if write then 2 else 1) + 32 * path }

/-- Pieces of a range that do not cross a line: address and length. The last argument bounds them. -/
def pieces (va : BitVec 64) (n : Nat) : Nat → List (BitVec 64 × Nat)
  | 0 => []
  | k + 1 =>
    if n = 0 then []
    else
      let m := Nat.min n (128 - va.toNat % 128)
      (va, m) :: pieces (va + BitVec.ofNat 64 m) (n - m) k
/-- All pieces of a range. -/
def piecesOf (va : BitVec 64) (n : Nat) : List (BitVec 64 × Nat) := pieces va n (n / 128 + 2)

/-- How an engine's translation of pieces comes out: their system physical addresses, or the failure. -/
inductive PiecesOut where
  | ok (s : State) (spas : List (Nat × Nat)) (uncached : Bool)
  | held (s : State)
  | bad (s : State) (f : Flt)
/-- Pieces translated in order. (DEDUCED, log 39.) -/
def xlatePieces (q : BitVec 64 → XReq) (path : Nat) : State → List (BitVec 64 × Nat) → PiecesOut
  | s, [] => .ok s [] false
  | s, (va, n) :: ps =>
    match xlate s (q va) none none with
    | (s1, .err e) => .bad s1 (e.flt (q va) path 0xFFFF false 0)
    | (s1, .ok a t held _) =>
      if held then .held s1
      else
        match xlatePieces q path s1 ps with
        | .ok s2 rest u => .ok s2 ((normSpa s1 a, n) :: rest) (u || t.uncached)
        | r => r

/-- A line accessed for an engine, with its charges. -/
def engineLine (s : State) (a : Acct) (line : Nat) (write uncached : Bool) : State :=
  match spaceOf s (line * 128) with
  | .host => charge s a 10 38 1
  | .beyond _ => fabTrip s a
  | _ => (l2Access s a line write uncached .normal false).1

/-- Bytes written over translated pieces; the largest GWCT. (DEDUCED, log 31.) -/
def writePieces (a : Acct) (uncached : Bool) : State → List (Nat × Nat) → List Byte → BitVec 64 → State × BitVec 64
  | s, [], _, g => (s, g)
  | s, (spa, n) :: ps, bs, g =>
    let g1 := gwctOf s (spa / 128)
    writePieces a uncached (writeSpa (engineLine s a (spa / 128) true uncached) spa (bs.take n)) ps (bs.drop n) (if g.toNat < g1.toNat then g1 else g)
/-- A line of a stripe that is written whole, at its home slice and its stack: a copy in L2 is clean then (17 R378). (DESIGN CHOICE, log 142.) -/
def stripeLine (s : State) (a : Acct) (line : Nat) : State :=
  updL2 (hbmPut (charge s a (homeMill s line) 16 1) a line true) line (fun x => { x with dirty := false, writer := some a })
/-- Bytes written over translated pieces as `writePieces` does, but for the lines of whole stripes. -/
def writeFull (a : Acct) (uncached : Bool) (full : List Nat) : State → List (Nat × Nat) → List Byte → BitVec 64 → State × BitVec 64
  | s, [], _, g => (s, g)
  | s, (spa, n) :: ps, bs, g =>
    let g1 := gwctOf s (spa / 128)
    let s1 := if full.contains (spa / 128) then stripeLine s a (spa / 128) else engineLine s a (spa / 128) true uncached
    writeFull a uncached full (writeSpa s1 spa (bs.take n)) ps (bs.drop n) (if g.toNat < g1.toNat then g1 else g)
/-- The data error of an engine's read: the first poisoned line of what it reads. -/
def engineData (s : State) (ps : List (Nat × Nat)) (va : BitVec 64) (access : Nat) : Flt :=
  { Flt.plain .data 0x40 0xFFFF 0 with va := va, access := access, line := (ps.find? (fun p => poisoned s p.1 p.2)).map (fun p => badLine s p.1 p.2) }
/-- Bytes read over translated pieces; none when one lies on a poisoned line. -/
def readPieces (a : Acct) (uncached : Bool) : State → List (Nat × Nat) → State × Option (List Byte)
  | s, [] => (s, some [])
  | s, (spa, n) :: ps =>
    let s1 := engineLine s a (spa / 128) false uncached
    if poisoned s spa n then (s1, none)
    else
      match readPieces a uncached s1 ps with
      | (s2, some bs) => (s2, some (readSpa s spa n ++ bs))
      | (s2, none) => (s2, none)

/-! ### Rings and feeds, by the system physical address of their descriptor (10 R235, R253) -/

def qBase (s : State) (d : Nat) : Nat := readNat s d 8
def qLog (s : State) (d : Nat) : Nat := readNat s (d + 8) 1
/-- The offset of slot or record i in a ring of 2^k. -/
def slotOff (i k : Nat) : Nat := 64 * (i % 2 ^ k)

def fTail (s : State) (d : Nat) : Nat := readNat s (d + 16) 8
def fHead (s : State) (d : Nat) : Nat := readNat s (d + 24) 8
def fFree (s : State) (d : Nat) : Nat := readNat s (d + 32) 8
/-- Well formed (10 R253): BASE 4 KiB-aligned, LOG2N from 4 to 20, every reserved byte zero. -/
def feedOk (s : State) (d : Nat) : Bool :=
  qBase s d % 4096 == 0 && decide (4 ≤ qLog s d) && decide (qLog s d ≤ 20) && readNat s (d + 9) 7 == 0 && readNat s (d + 40) 24 == 0
/-- An append fits. -/
def feedRoom (s : State) (d : Nat) : Bool := decide ((fTail s d + 2 ^ 64 - fFree s d) % 2 ^ 64 < 2 ^ qLog s d)

/-- Whether a strand's hank is placed. -/
def isPlaced (s : State) (t : Strand) : Bool :=
  match (skein? s t.skein).bind (fun x => hank? s x.hank) with | some h => h.st == .placed | none => false

/-- An append wakes the oldest sleeping worker of the feed that none has woken yet (02 R54); one whose hank is saved issues again when it is resumed. -/
def wakeWorker (s : State) (d : Nat) : State :=
  match s.strands.find? (fun t => match t.wait with | some (.feed d2 _ _ false) => d2 == d && t.st == .sleeping && isPlaced s t | _ => false) with
  | none => s
  | some t => updStrand s t.id (fun u => match u.wait with | some (.feed a b c _) => { u with wait := some (.feed a b c true) } | _ => u)

/-- A record is appended at TAIL, indivisibly, and a worker is woken. -/
def feedAppend (s : State) (d spa : Nat) (bs : List Byte) : State :=
  wakeWorker (writeSpa (writeSpa s spa bs) (d + 16) (toBytes 8 ((fTail s d + 1) % 2 ^ 64))) d

/-! ### Writes of the CP path -/

/-- What a write's address must be a multiple of: a completion record 64, a signal 8. -/
def CpWrite.align (w : CpWrite) : Nat := if w.add.isSome ∨ w.bytes.length = 8 then 8 else if w.bytes.length = 64 then 64 else 1

/-- The largest GWCT of a queue's writes. (DEDUCED, log 38.) -/
def noteGw (s : State) (d : Nat) (g : BitVec 64) : State :=
  let q := queueOf s d
  putQueue s { q with gw := if q.gw.toNat < g.toNat then g else q.gw }

/-- Every write that the CP is to make for a queue comes after a time: a release (10 R237). -/
def writesAfter (s : State) (d : Nat) (g : BitVec 64) : State :=
  let f := fun (l : List CpWrite) => updIf (fun (x : CpWrite) => x.desc == d) (fun x => { x with after := if x.after.toNat < g.toNat then g else x.after }) l
  { s with writes := f s.writes, vds := s.vds.map (fun v => { v with withheld := f v.withheld }) }

/-- A write leaves the lists. -/
def dropWrite (s : State) (w : CpWrite) : State :=
  { s with writes := s.writes.filter (fun u => u.id != w.id),
           vds := updIf (fun v => v.num == w.vd) (fun v => { v with withheld := v.withheld.filter (fun u => u.id != w.id) }) s.vds }

/-- A write that cannot be made now comes back, first of its VD's where it was withheld, else in its place. -/
def writeStays (s0 s : State) (w : CpWrite) : State :=
  if s0.writes.any (fun u => u.id == w.id) then
    { s with writes := s.writes.filter (fun u => decide (u.id < w.id)) ++ w :: s.writes.filter (fun u => decide (w.id < u.id)) }
  else updVd s w.vd (fun v => { v with withheld := w :: v.withheld })

/-- The CP appends a record to a feed of its own accord (02 R52), with the fates of 16 R424; one that does not fit, or a feed that is malformed, leaves
the feed as it is (02 R55). (DESIGN CHOICE, log 140.) -/
def tryAppend (s0 : State) (w : CpWrite) : State :=
  let s := dropWrite s0 w
  let acct := queueAcct s w.vd w.ctx false
  let m : Master := { kind := 2, vd := w.vd, ctx := w.ctx, token := 0, ident := 0xFFFF }
  let req := fun (va : BitVec 64) => { engineReq w.vd w.ctx 0 acct va true with read := true }
  let bad := fun (u : State) (f : Flt) => match f.cls with
    | .page1 | .page2 => let r := postPage u m f (.write w.id); writeStays s0 r.1 { w with token := some r.2 }
    | _ => postEngine u m f
  let back := fun (u : State) => updVd u w.vd (fun v => { v with withheld := w :: v.withheld })
  if w.va.toNat % 64 ≠ 0 then postEngine s m (engineMis w.va true 4)
  else
    match xlatePieces req 4 s [(w.va, 64)] with
    | .held s1 => back s1
    | .bad s1 f => bad s1 f
    | .ok s1 ps _ =>
      let fd := (ps.headD (0, 0)).1
      if !feedOk s1 fd || !feedRoom s1 fd then s1
      else
        match xlatePieces req 4 s1 [(BitVec.ofNat 64 (qBase s1 fd + slotOff (fTail s1 fd) (qLog s1 fd)), 64)] with
        | .held s2 => back s2
        | .bad s2 f => bad s2 f
        | .ok s2 rs _ =>
          let spa := (rs.headD (0, 0)).1
          feedAppend (engineLine (engineLine s2 acct (spa / 128) true false) acct (fd / 128) true false) fd spa w.bytes

/-- A write is tried (16 R424): made; or it waits on a page fault, or for a full dirty log; or it is not made, a violation freezing its queue. (DEDUCED, log 38.) -/
def tryWrite (s0 : State) (w : CpWrite) : State :=
  let s := dropWrite s0 w
  let acct := queueAcct s w.vd w.ctx false
  let q := fun (va : BitVec 64) => { engineReq w.vd w.ctx (readNat s (w.desc + 10) 1 % 8) acct va true with read := w.add.isSome }
  let m := Master.queue s w.desc
  let n := match w.add with | some _ => 8 | none => w.bytes.length
  if w.va.toNat % w.align ≠ 0 then postEngine s m (engineMis w.va true 4)
  else
    match xlatePieces q 4 s (piecesOf w.va n) with
    | .held s1 => updVd s1 w.vd (fun v => { v with withheld := w :: v.withheld })
    | .bad s1 f =>
      (match f.cls with
      | .page1 | .page2 =>
        let r := postPage s1 m f (.write w.id)
        writeStays s0 r.1 { w with token := some r.2 }
      | .violation => freezeQueue (postEngine s1 m f) w.desc
      | _ => postEngine s1 m f)
    | .ok s1 spas u =>
      let bs := match w.add with
        | some v => toBytes 8 ((readNat s1 ((spas.headD (0, 0)).1) 8 + v.toNat) % 2 ^ 64)
        | none => w.bytes
      let s2 := if w.add.isSome then l2Ensure s1 acct ((spas.headD (0, 0)).1 / 128) u else s1
      let r := writePieces acct u s2 spas bs 0
      let g := r.2
      noteGw (writesAfter r.1 w.desc g) w.desc g

/-- Whether a VD is being stopped with MIG and every hank of it has halted: its withheld writes are made then (19 R418). -/
def migrating (s : State) (vd : Nat) : Bool :=
  s.cp.preempt.getLsbD 23 && s.cp.preempt.getLsbD 22 && s.cp.preempt.getLsbD 21 && s.cp.preemptHanks.isEmpty && (bits s.cp.preempt 17 4).toNat == vd
/-- Whether the CP makes writes for a VD now (15 R346). -/
def mayWrite (s : State) (v : Vd) : Bool := (!v.stopped && !v.empty) || migrating s v.num

/-- Writes that the CP has still to make for a VD that is stopped or empty are withheld from then on, in the order in which they arose (15 R346). -/
def withhold (s : State) : State :=
  if s.writes.all (fun w => mayWrite s (vdOf s w.vd)) then s
  else
    let late := fun (v : Vd) => s.writes.filter (fun w => w.vd == v.num && !mayWrite s v)
    { s with writes := s.writes.filter (fun w => mayWrite s (vdOf s w.vd)), vds := s.vds.map (fun v => { v with withheld := late v ++ v.withheld }) }

/-- The next write that can be made: of a VD's withheld ones the oldest; else the oldest of a queue. -/
def nextWrite (s : State) : Option CpWrite :=
  let can := fun (w : CpWrite) => w.token.isNone && decide (w.after.toNat < s.gtb.toNat)
  let first := fun (w : CpWrite) => match s.writes.find? (fun u => u.desc == w.desc) with | some u => u.id == w.id | none => false
  match s.vds.findSome? (fun v => if mayWrite s v then v.withheld.head?.filter can else none) with
  | some w => some w
  | none => s.writes.find? (fun w => can w && first w)

/-- Writes that can be made are tried, oldest first, one queue's in order; n bounds their number. (DEDUCED, log 38.) -/
def settleWrites (s : State) : Nat → State
  | 0 => s
  | n + 1 =>
    match nextWrite s with
    | none => s
    | some w => settleWrites (if w.feed then tryAppend s w else tryWrite s w) n

/-- Once every withheld write of a VD that runs again has been made, the slots cleared at its emptying become valid again (14 R312; 15 R332). -/
def remapReady (s : State) : State :=
  (s.vds.filter (fun v => !v.stopped && !v.empty && v.withheld.isEmpty && !v.unmapped.isEmpty)).foldl (fun u v => remapVd u v.num) s

/-- The CP's writes at the end of a step. -/
def settleCp (s0 : State) : State :=
  let s := withhold s0
  remapReady (settleWrites s ((s.writes ++ s.vds.flatMap (fun v => v.withheld)).length))

/-- A write that the CP is to make for a queue (15 R329, R346): withheld while the VD is stopped or empty, and behind withheld ones. -/
def cpWrite (s : State) (d : Nat) (va : BitVec 64) (bs : List Byte) (add : Option (BitVec 64)) : State :=
  let vd := descVd s d
  let w : CpWrite := { id := s.key, vd := vd, ctx := descCtx s d, desc := d, va := va, bytes := bs, add := add, feed := false, token := none, after := (queueOf s d).gw }
  let s1 := { s with key := s.key + 1 }
  let v := vdOf s vd
  if !mayWrite s v || !v.withheld.isEmpty then updVd s1 vd (fun u => { u with withheld := u.withheld ++ [w] }) else { s1 with writes := s1.writes ++ [w] }

/-- What the CP's own program appends to a feed joins the writes it is to make. (DESIGN CHOICE, log 140.) -/
def cpAppend (s : State) (vd ctx : Nat) (feed : BitVec 64) (record : List Byte) : State :=
  { s with key := s.key + 1, writes := s.writes ++ [{ id := s.key, vd := vd, ctx := ctx, desc := 0, va := feed, bytes := (record ++ zeros 64).take 64, add := none,
                                                      feed := true, token := none, after := 0 }] }

end Sys2Proof.Machine
end

