-- ==== Sys2Proof/Machine/Numbers.lean ====
section
/-! DEFINITION. Number formats and arithmetic (04_numbers): decoding of f32, f16 and bf16 into exact values, the one rounding routine
(R98 to R100), special values (R101 to R103), conversions (R104 to R106) and block floating point (R93 to R97). -/
namespace Sys2Proof.Machine

/-- The sticky flags of R107: bit 0 NV, 1 DZ, 2 OF, 3 UF, 4 NX, 5 SAT. -/
abbrev Flags := BitVec 6
def flagNV : Flags := 1
def flagDZ : Flags := 2
def flagOF : Flags := 4
def flagUF : Flags := 8
def flagNX : Flags := 16
def flagSAT : Flags := 32

/-- Rounding modes in force (R98). -/
inductive Mode where
  | rne | rtz | rup | rdn
  deriving DecidableEq, Repr

/-- CTX_FPCTL.RM, codes 0 to 3. -/
def Mode.ofCode : Nat → Mode
  | 1 => .rtz
  | 2 => .rup
  | 3 => .rdn
  | _ => .rne

end Sys2Proof.Machine

namespace Sys2Proof
open Sys2Proof.Machine

/-- The mode an RM field names; DYN is CTX_FPCTL.RM at issue (R98). -/
def Rm.mode (dyn : Mode) : Rm → Mode
  | .rne => .rne
  | .rtz => .rtz
  | .rup => .rup
  | .rdn => .rdn
  | .dyn => dyn

end Sys2Proof

namespace Sys2Proof.Machine

/-- The floating-point formats (R90). -/
inductive FF where
  | f32 | f16 | bf16
  deriving DecidableEq, Repr
/-- Fraction width, bias, whole width. -/
def FF.frac : FF → Nat
  | .f32 => 23 | .f16 => 10 | .bf16 => 7
def FF.bias : FF → Nat
  | .f32 => 127 | .f16 => 15 | .bf16 => 127
def FF.width : FF → Nat
  | .f32 => 32 | .f16 => 16 | .bf16 => 16
/-- Exponent field of all ones. -/
def FF.emax : FF → Nat
  | .f32 => 255 | .f16 => 31 | .bf16 => 255
/-- The patterns of R90: infinity, canonical quiet NaN, largest finite, sign bit. -/
def FF.infBits (k : FF) : Nat := k.emax * 2 ^ k.frac
def FF.nanBits (k : FF) : Nat := k.infBits + 2 ^ (k.frac - 1)
def FF.maxBits (k : FF) : Nat := k.infBits - 1
def FF.signBit (k : FF) : Nat := 2 ^ (k.width - 1)
def FF.signed (k : FF) (neg : Bool) (mag : Nat) : Nat := if neg then k.signBit + mag else mag

/-- A decoded value: a NaN (signalling or not), an infinity, or a finite value (-1)^neg * num / den with den positive. -/
inductive FV where
  | nan (sig : Bool)
  | inf (neg : Bool)
  | fin (neg : Bool) (num den : Nat)
  deriving DecidableEq, Repr

/-- The magnitude mant * 2^(e) as a fraction. -/
def pow2frac (mant : Nat) (e : Int) : Nat × Nat :=
  if 0 ≤ e then (mant * 2 ^ e.toNat, 1) else (mant, 2 ^ (-e).toNat)

/-- Decoding a pattern (R90). -/
def FF.decode (k : FF) (b : Nat) : FV :=
  let neg := b / k.signBit % 2 == 1
  let e := b / 2 ^ k.frac % (k.emax + 1)
  let t := b % 2 ^ k.frac
  if e = k.emax then (if t = 0 then .inf neg else .nan (t < 2 ^ (k.frac - 1)))
  else
    let m := if e = 0 then t else 2 ^ k.frac + t
    let ex : Int := (if e = 0 then 1 else (e : Int)) - (k.bias : Int) - (k.frac : Int)
    let p := pow2frac m ex
    .fin neg p.1 p.2

/-- bf16 arithmetic reads a subnormal as a zero of its sign (R100). -/
def FF.decodeFlush (k : FF) (b : Nat) : FV :=
  if k = .bf16 ∧ b / 2 ^ k.frac % (k.emax + 1) = 0 then .fin (b / k.signBit % 2 == 1) 0 1 else k.decode b

/-- num/den (and a little more when sticky) rounded to an integer of the sign given; the answer says whether it was inexact (R98). -/
def roundInt (mode : Mode) (neg : Bool) (num den : Nat) (sticky : Bool) : Nat × Bool :=
  let q := num / den
  let r := num % den
  let inexact := r != 0 || sticky
  let up := match mode with
    | .rne => decide (den < 2 * r) || (2 * r == den && (sticky || q % 2 == 1))
    | .rtz => false
    | .rup => inexact && !neg
    | .rdn => inexact && neg
  (if up then q + 1 else q, inexact)

/-- floor(log2(num/den)) of a positive fraction. -/
def log2frac (num den : Nat) : Int :=
  let e : Int := (Nat.log2 num : Int) - (Nat.log2 den : Int)
  let below := if 0 ≤ e then decide (num < den * 2 ^ e.toNat) else decide (num * 2 ^ (-e).toNat < den)
  if below then e - 1 else e

/-- Rounding num/den in units of 2^e. -/
def roundUnits (mode : Mode) (neg : Bool) (num den : Nat) (sticky : Bool) (e : Int) : Nat × Bool :=
  if 0 ≤ e then roundInt mode neg num (den * 2 ^ e.toNat) sticky else roundInt mode neg (num * 2 ^ (-e).toNat) den sticky

/-- Overflow (R99). -/
def overflowTo (k : FF) (mode : Mode) (neg : Bool) : Nat :=
  let toInf := match mode with
    | .rne => true
    | .rtz => false
    | .rup => !neg
    | .rdn => neg
  k.signed neg (if toInf then k.infBits else k.maxBits)

/-- Round(x, format, mode) of a positive magnitude (R98 to R100), with bf16 arithmetic's flush of tiny results. -/
def FF.round (k : FF) (flush : Bool) (mode : Mode) (neg : Bool) (num den : Nat) (sticky : Bool) : Nat × Flags :=
  if num = 0 ∧ !sticky then (k.signed neg 0, 0)
  else
    let e := log2frac num den
    let r := roundUnits mode neg num den sticky (e - (k.frac : Int))
    let carry := r.1 == 2 ^ (k.frac + 1)
    let ea : Int := if carry then e + 1 else e
    let emin : Int := 1 - (k.bias : Int)
    if ea < emin then
      if flush then (k.signed neg 0, flagUF ||| flagNX)
      else
        let g := roundUnits mode neg num den sticky (emin - (k.frac : Int))
        (k.signed neg g.1, if g.2 then flagUF ||| flagNX else 0)
    else if (k.bias : Int) < ea then (overflowTo k mode neg, flagOF ||| flagNX)
    else
      let m := if carry then 2 ^ k.frac else r.1
      (k.signed neg ((ea + (k.bias : Int)).toNat * 2 ^ k.frac + (m - 2 ^ k.frac)), if r.2 then flagNX else 0)

/-- Rounding a signed fraction n/den; an exact zero gets the sign given. -/
def FF.roundSigned (k : FF) (flush : Bool) (mode : Mode) (n : Int) (den : Nat) (zeroNeg : Bool) : Nat × Flags :=
  if n = 0 then (k.signed zeroNeg 0, 0) else k.round flush mode (decide (n < 0)) n.natAbs den false

/-! ### Arithmetic (R101 to R103) -/

def FV.isNan : FV → Bool
  | .nan _ => true
  | _ => false
def FV.isSig : FV → Bool
  | .nan s => s
  | _ => false
def FV.isInf : FV → Bool
  | .inf _ => true
  | _ => false
def FV.isZero : FV → Bool
  | .fin _ 0 _ => true
  | _ => false
def FV.neg? : FV → Bool
  | .nan _ => false
  | .inf n => n
  | .fin n _ _ => n
/-- The signed numerator of a finite value. -/
def FV.sn : FV → Int
  | .fin n m _ => if n then -(m : Int) else (m : Int)
  | _ => 0
def FV.den : FV → Nat
  | .fin _ _ d => d
  | _ => 1
def FV.negate : FV → FV
  | .nan s => .nan s
  | .inf n => .inf !n
  | .fin n m d => .fin (!n) m d

/-- NV for a signalling NaN among the inputs (R102). -/
def sigFlag (vs : List FV) : Flags := if vs.any FV.isSig then flagNV else 0

/-- The canonical quiet NaN with flags. -/
def FF.nan (k : FF) (f : Flags) : Nat × Flags := (k.nanBits, f)

/-- a + b of values that are not NaN, exactly rounded (R101). -/
def FF.addV (k : FF) (flush : Bool) (mode : Mode) (a b : FV) : Nat × Flags :=
  match a, b with
  | .inf x, .inf y => if x = y then (k.signed x k.infBits, 0) else k.nan flagNV
  | .inf x, _ => (k.signed x k.infBits, 0)
  | _, .inf y => (k.signed y k.infBits, 0)
  | _, _ =>
    let zeroNeg := if a.isZero && b.isZero && a.neg? == b.neg? then a.neg? else mode == .rdn
    k.roundSigned flush mode (a.sn * (b.den : Int) + b.sn * (a.den : Int)) (a.den * b.den) zeroNeg

def FF.add (k : FF) (flush : Bool) (mode : Mode) (a b : FV) : Nat × Flags :=
  if a.isNan || b.isNan then k.nan (sigFlag [a, b]) else k.addV flush mode a b

/-- a * b as an exact value, none for 0 times infinity; NaNs are the caller's. -/
def mulV (a b : FV) : Option FV :=
  let n := a.neg? != b.neg?
  match a, b with
  | .fin _ m d, .fin _ m' d' => some (.fin n (m * m') (d * d'))
  | _, _ => if a.isZero || b.isZero then none else some (.inf n)

def FF.mul (k : FF) (flush : Bool) (mode : Mode) (a b : FV) : Nat × Flags :=
  if a.isNan || b.isNan then k.nan (sigFlag [a, b])
  else match mulV a b with
    | none => k.nan flagNV
    | some (.fin n m d) => k.round flush mode n m d false
    | some v => (k.signed v.neg? k.infBits, 0)

/-- a * b + c with one rounding; 0 times infinity sets NV also beside a NaN c (R102). -/
def FF.fma (k : FF) (flush : Bool) (mode : Mode) (a b c : FV) : Nat × Flags :=
  if a.isNan || b.isNan then k.nan (sigFlag [a, b, c])
  else match mulV a b with
    | none => k.nan (flagNV ||| sigFlag [c])
    | some p => if c.isNan then k.nan (sigFlag [c]) else k.addV flush mode p c

/-- a / b (R102, R103). -/
def FF.div (k : FF) (flush : Bool) (mode : Mode) (a b : FV) : Nat × Flags :=
  let n := a.neg? != b.neg?
  if a.isNan || b.isNan then k.nan (sigFlag [a, b])
  else match a, b with
    | .inf _, .inf _ => k.nan flagNV
    | .inf _, _ => (k.signed n k.infBits, 0)
    | _, .inf _ => (k.signed n 0, 0)
    | .fin _ m d, .fin _ m' d' =>
      if m' = 0 then (if m = 0 then k.nan flagNV else (k.signed n k.infBits, flagDZ))
      else k.round flush mode n (m * d') (d * m') false
    | _, _ => k.nan 0

/-- A rank that orders values that are not NaN, with −0 below +0 (R102). -/
def FV.less (a b : FV) : Bool :=
  match a, b with
  | .inf x, .inf y => x && !y
  | .inf x, _ => x
  | _, .inf y => !y
  | _, _ =>
    let l := a.sn * (b.den : Int)
    let r := b.sn * (a.den : Int)
    decide (l < r) || (l == r && a.neg? && !b.neg? && a.isZero)

/-- Numerical order: −0 equals +0. -/
def FV.lt (a b : FV) : Bool :=
  match a, b with
  | .inf x, .inf y => x && !y
  | .inf x, _ => x
  | _, .inf y => !y
  | _, _ => decide (a.sn * (b.den : Int) < b.sn * (a.den : Int))
def FV.eqv (a b : FV) : Bool := !a.isNan && !b.isNan && !a.lt b && !b.lt a

/-- Minimum or maximum of two patterns, as read (R102): the other operand for one NaN, the canonical NaN for two. -/
def FF.minmax (k : FF) (flush max : Bool) (x y : Nat) : Nat × Flags :=
  let rd := fun (b : Nat) => if flush then k.decodeFlush b else k.decode b
  let a := rd x
  let b := rd y
  let out := fun (v : FV) (raw : Nat) => if flush && v.isZero then k.signed v.neg? 0 else raw
  let f := sigFlag [a, b]
  if a.isNan && b.isNan then k.nan f
  else if a.isNan then (out b y, f)
  else if b.isNan then (out a x, f)
  else if max then (if a.less b then (out b y, f) else (out a x, f))
  else (if b.less a then (out b y, f) else (out a x, f))

/-- The integer square root of n: bits from k down to 0, greedily. -/
def isqrtGo (n : Nat) : Nat → Nat → Nat
  | 0, acc => if (acc + 1) * (acc + 1) ≤ n then acc + 1 else acc
  | k + 1, acc => if (acc + 2 ^ (k + 1)) * (acc + 2 ^ (k + 1)) ≤ n then isqrtGo n k (acc + 2 ^ (k + 1)) else isqrtGo n k acc
def isqrt (n : Nat) : Nat := isqrtGo n (Nat.log2 n / 2 + 1) 0

/-- Round(sqrt(num/den)). -/
def FF.sqrtFrac (k : FF) (mode : Mode) (num den : Nat) : Nat × Flags :=
  let t := num * 2 ^ 240 / den
  let s := isqrt t
  k.round false mode false s (2 ^ 120) (s * s * den != num * 2 ^ 240)

/-! ### Conversions (R104 to R106) -/

end Sys2Proof.Machine

namespace Sys2Proof
open Sys2Proof.Machine

/-- FMT as a float format. -/
def Fmt.ff : Fmt → FF
  | .f16 => .f16
  | .bf16 => .bf16
  | _ => .f32
/-- Width in bits and signedness of a format (R89). -/
def Fmt.bits : Fmt → Nat
  | .z8 | .s8 => 8
  | .z16 | .s16 | .f16 | .bf16 => 16
  | .z32 | .s32 | .f32 => 32
  | .z64 | .s64 => 64
def Fmt.signed : Fmt → Bool
  | .s8 | .s16 | .s32 | .s64 => true
  | _ => false
def Fmt.size (f : Fmt) : Nat := f.bits / 8
/-- Whether a value of the format occupies a 64-bit register operand. -/
def Fmt.wide : Fmt → Bool
  | .z64 | .s64 => true
  | _ => false

/-- Least and greatest value of an integer format. -/
def Fmt.lo (f : Fmt) : Int := if f.signed then -(2 ^ (f.bits - 1) : Int) else 0
def Fmt.hi (f : Fmt) : Int := if f.signed then 2 ^ (f.bits - 1) - 1 else 2 ^ f.bits - 1
/-- The value of a register pattern read as an integer format. -/
def Fmt.intVal (f : Fmt) (b : Nat) : Int :=
  let m := b % 2 ^ f.bits
  if f.signed && decide (2 ^ (f.bits - 1) ≤ m) then (m : Int) - 2 ^ f.bits else m
end Sys2Proof

namespace Sys2Proof.Machine

/-- A number as a pattern of n bits. -/
def wrapBits (n : Nat) (v : Int) : Nat := (v % (2 ^ n : Int)).toNat

/-- A float value in another float format, with bf16 subnormals preserved (R104, R105, R106). -/
def FF.convert (dst : FF) (mode : Mode) (v : FV) : Nat × Flags :=
  match v with
  | .nan s => (dst.nanBits, if s then flagNV else 0)
  | .inf n => (dst.signed n dst.infBits, 0)
  | .fin n m d => dst.round false mode n m d false

/-- A float value rounded and clamped to an integer format (R104). -/
def toIntFmt (f : Fmt) (mode : Mode) (v : FV) : Int × Flags :=
  match v with
  | .nan _ => (0, flagNV)
  | .inf n => (if n then f.lo else f.hi, flagNV)
  | .fin n m d =>
    let r := roundInt mode n m d false
    let i : Int := if n then -(r.1 : Int) else (r.1 : Int)
    if i < f.lo then (f.lo, flagNV) else if f.hi < i then (f.hi, flagNV) else (i, if r.2 then flagNX else 0)

/-- CVT (R104, R137): source format, destination format, saturating form, mode, source pattern; the pattern of the destination as a register
holds it: sign-extended for a signed destination narrower than 32 bits, zero-extended otherwise. -/
def cvt (dst src : Fmt) (sat : Bool) (mode : Mode) (b : Nat) : Nat × Flags :=
  let ext := fun (i : Int) => wrapBits (if dst.wide then 64 else 32) i
  if src.isFloat then
    let v := src.ff.decode (b % 2 ^ src.bits)
    if dst.isFloat then dst.ff.convert mode v
    else
      let r := toIntFmt dst mode v
      (ext r.1, r.2)
  else
    let i := src.intVal b
    if dst.isFloat then dst.ff.roundSigned false mode i 1 false
    else if sat then
      let c := if i < dst.lo then dst.lo else if dst.hi < i then dst.hi else i
      (ext c, if c = i then 0 else flagSAT)
    else (ext (dst.intVal (wrapBits dst.bits i)), 0)

/-- A typed load's register value (R105). -/
def loadReg (f : Fmt) (b : Nat) : Nat × Flags :=
  match f with
  | .f16 | .bf16 => FF.f32.convert .rne (f.ff.decode (b % 2 ^ 16))
  | .s8 | .s16 => (wrapBits 32 (f.intVal b), 0)
  | _ => (b % 2 ^ f.bits, 0)

/-- A typed store's memory value (R106). -/
def storeMem (f : Fmt) (mode : Mode) (b : Nat) : Nat × Flags :=
  match f with
  | .f16 | .bf16 => f.ff.convert mode (FF.f32.decode (b % 2 ^ 32))
  | _ => (b % 2 ^ f.bits, 0)

/-! ### Block floating point (R93 to R97) -/

/-- A bfp block: E and the sixteen mantissas. -/
structure Bfp where
  e : Nat
  q : List Int
  deriving DecidableEq, Repr

/-- The record of a block of width m (R94): 2m + 2 bytes. -/
def Bfp.bytes (m : Nat) (x : Bfp) : List Byte :=
  let packed := (x.q.foldr (fun q acc => acc * 2 ^ m + wrapBits m q) 0)
  toBytes 1 x.e ++ [0] ++ toBytes (2 * m) packed

/-- n mantissas of width m from a packed number. -/
def unpackQ (m : Nat) : Nat → Nat → List Int
  | 0, _ => []
  | n + 1, v =>
    let u := v % 2 ^ m
    (if 2 ^ (m - 1) ≤ u then (u : Int) - 2 ^ m else (u : Int)) :: unpackQ m n (v / 2 ^ m)
def Bfp.ofBytes (m : Nat) (bs : List Byte) : Bfp := { e := fieldOf bs 0 1, q := unpackQ m 16 (fieldOf bs 2 (2 * m)) }

/-- The value of a mantissa of a block that is not a NaN block (R93): qi * 2^(E − 127 − (m − 2)). -/
def bfpVal (m e : Nat) (q : Int) : Int × Nat :=
  let ex : Int := (e : Int) - 127 - ((m : Int) - 2)
  if 0 ≤ ex then (q * 2 ^ ex.toNat, 1) else (q, 2 ^ (-ex).toNat)

/-- Conversion into a block of width m (R96); masked-off elements contribute nothing and are written zero. -/
def toBfp (m : Nat) (xs : List (Option FV)) : Bfp × Flags :=
  let vs := xs.filterMap id
  if vs.any (fun v => v.isNan || v.isInf) then
    ({ e := 255, q := List.replicate 16 0 }, if vs.any (fun v => v.isSig || v.isInf) then flagNV else 0)
  else
    let mags := vs.filter (fun v => !v.isZero)
    match mags with
    | [] => ({ e := 0, q := List.replicate 16 0 }, 0)
    | _ =>
      let e0 := mags.foldl (fun (acc : Int) v => let l := log2frac v.sn.natAbs v.den; if acc < l then l else acc) (-126)
      let one := fun (x : Option FV) =>
        match x with
        | none => ((0 : Int), (0 : Flags))
        | some v =>
          let r := roundUnits .rne v.neg? v.sn.natAbs v.den false (e0 - ((m : Int) - 2))
          let t : Int := if v.neg? then -(r.1 : Int) else (r.1 : Int)
          let nx := if r.2 then flagNX else 0
          if (2 ^ (m - 1) : Int) - 1 < t then ((2 ^ (m - 1) : Int) - 1, nx ||| flagSAT)
          else if t < -(2 ^ (m - 1) : Int) then (-(2 ^ (m - 1) : Int), nx ||| flagSAT)
          else (t, nx)
      let rs := xs.map one
      let f := rs.foldl (fun acc r => acc ||| r.2) 0
      let q := rs.map (fun r => r.1)
      if q.all (fun t => t == 0) then ({ e := 0, q := q }, f) else ({ e := (e0 + 127).toNat, q := q }, f)

/-- One element of a block as f32 (R97). -/
def bfpToF32 (m : Nat) (x : Bfp) (i : Nat) : Nat × Flags :=
  if x.e = 255 then (FF.f32.nanBits, 0)
  else
    let v := bfpVal m x.e (x.q.getD i 0)
    FF.f32.roundSigned false .rne v.1 v.2 false

end Sys2Proof.Machine
end

