-- ==== Sys2Proof/Machine/Operands.lean ====
section
/-! DEFINITION. Operands (03_registers; 05 R125 to R132): reading the register space, guards, the decode-class checks that need the
skein, uniform writes, stale reads and last uses, register lines with their fills and spills, and operand caches. -/
namespace Sys2Proof.Machine

/-- How many registers an operand field names: one, a 64-bit pair, or a run. -/
inductive Wid where
  | one | two | run (n : Nat)
  deriving DecidableEq, Repr
def Wid.len : Wid → Nat
  | .one => 1
  | .two => 2
  | .run n => n

/-- A source operand: field, width, last-use bit. -/
structure Rd where
  reg : Field8
  wid : Wid
  last : Bool
  deriving DecidableEq, Repr
/-- A destination operand. -/
structure Wr where
  reg : Field8
  wid : Wid
  deriving DecidableEq, Repr

/-- A source as the operand of a 32-bit or 64-bit instruction. -/
def Rd.of (s : Src) (w : Wid) : Rd := { reg := s.reg, wid := w, last := s.last }
/-- The width of an operand of an integer type. -/
def tyWid (ty : IntTy) : Wid := if ty.wide then .two else .one
/-- The register a C operand reads, if it reads one. -/
def cRds (c : CSrc) (w : Wid) : List Rd :=
  match c with
  | .reg s => [Rd.of s w]
  | .imm _ => []

/-- What an executing instruction sees: the state, its strand and skein, its active fibres in ascending order. -/
structure Env where
  s : State
  t : Strand
  x : Skein
  act : List Nat

/-! ### Predicates and guards -/

/-- A predicate bit of a fibre; p15 reads 1 (R70). -/
def Fibre.pred (f : Fibre) (p : BitVec 4) : Bool := p == 15 || f.preds.getLsbD p.toNat
/-- Writing a predicate bit; a write to p15 is discarded (R70). -/
def Fibre.setPred (f : Fibre) (p : BitVec 4) (v : Bool) : Fibre :=
  if p = 15 then f else { f with preds := if v then f.preds ||| BitVec.ofNat 16 (2 ^ p.toNat) else f.preds &&& ~~~(BitVec.ofNat 16 (2 ^ p.toNat)) }
/-- The guard of a fibre (05 R130). -/
def Fibre.guard (f : Fibre) (g : BitVec 5) : Bool := f.pred (bits g 0 4) != g.getLsbD 4
/-- The active fibres of an instruction, ascending (05 R130). -/
def activeOf (t : Strand) (x : Skein) (g : BitVec 5) : List Nat :=
  t.fibres.filter (fun i => match x.fibre? i with | some f => f.guard g | none => false)

/-! ### Reading registers -/

/-- Whether reading v n is a stale read: released, or of a quad whose liveness bit is 0 (03 R86). -/
def Fibre.stale (f : Fibre) (n : Nat) : Bool := f.rel.getLsbD n || !f.live.getLsbD (n / 4)
/-- v n as read: a stale read returns zero (03 R86). -/
def Fibre.read (f : Fibre) (n : Nat) : BitVec 32 := if f.stale n then 0 else mget f.regs n

/-- g n: in runahead the strand's own copy where it has one (02 R61). -/
def uniformOf (t : Strand) (x : Skein) (n : Nat) : BitVec 64 :=
  match t.ra with
  | some v => if v.gSet.contains n then mget v.g n else mget x.g n
  | none => mget x.g n

/-- A 32-bit read through an operand field (03 R71, R72). -/
def Env.r32 (e : Env) (f : Nat) (r : Field8) : BitVec 32 :=
  if r.toNat < 192 then (match e.x.fibre? f with | some y => y.read r.toNat | none => 0)
  else bits (uniformOf e.t e.x (r.toNat - 192)) 0 32
/-- A 64-bit read: a pair or a uniform register (03 R69). -/
def Env.r64 (e : Env) (f : Nat) (r : Field8) : BitVec 64 :=
  if r.toNat < 192 then (match e.x.fibre? f with | some y => y.read (r.toNat + 1) ++ y.read r.toNat | none => 0)
  else uniformOf e.t e.x (r.toNat - 192)
/-- A predicate read. -/
def Env.pred (e : Env) (f : Nat) (p : BitVec 4) : Bool := match e.x.fibre? f with | some y => y.pred p | none => p == 15
/-- The lead fibre: the lowest-numbered active fibre. -/
def Env.lead (e : Env) : Nat := e.act.headD 0
/-- CTX_FPCTL of the context. -/
def Env.fpctl (e : Env) : BitVec 64 := match ctxOf e.s e.x with | some c => c.fpctl | none => 0

/-! ### Decode-class checks with the skein and the clause (05 R132, codes 0x07 to 0x09) -/

/-- SETF names a slot that the clause header assigns 15 (05 R125). -/
def flagSlotBad (t : Strand) (setf : BitVec 2) : Bool :=
  match t.clause with
  | none => setf != 0
  | some c => (setf.getLsbD 0 && c.fa == 15) || (setf.getLsbD 1 && c.fb == 15)

/-- An odd vector register in a 64-bit field (03 R69). -/
def pairBad (l : List (Field8 × Wid)) : Bool := l.any (fun o => o.2 == .two && decide (o.1.toNat < 192) && o.1.toNat % 2 == 1)

/-- A vector field from W to 191 (02 R30); a run must lie below v(W) and cannot be uniform. -/
def windowBad (w : Nat) (l : List (Field8 × Wid)) : Bool :=
  l.any (fun o => match o.2 with
    | .run n => decide (Nat.min w 192 < o.1.toNat + n)
    | _ => decide (w ≤ o.1.toNat) && decide (o.1.toNat < 192))

/-! ### Uniform writes, stale reads, last uses -/

/-- A uniform write by part of the skein's living fibres (03 R74). -/
def divergentWrite (x : Skein) (act : List Nat) (ws : List Wr) : Bool :=
  ws.any (fun w => decide (192 ≤ w.reg.toNat)) && !(x.fibres.all (fun f => act.contains f.id))

/-- Whether reading an operand in a fibre is a stale read. (DESIGN CHOICE, log 138.) -/
def staleOperand (x : Skein) (f : Nat) (r : Rd) : Bool :=
  decide (r.reg.toNat < 192) && (match x.fibre? f with | some y => (upTo r.reg.toNat r.wid.len).any y.stale | none => false)

/-- Registers of the vector operands named. -/
def vecRegs (l : List (Field8 × Wid)) : List Nat := l.flatMap (fun o => if o.1.toNat < 192 then upTo o.1.toNat o.2.len else [])

/-- Releasing registers in the active fibres (03 R85). -/
def Skein.release (x : Skein) (act : List Nat) (regs : List Nat) : Skein :=
  if regs.isEmpty then x
  else
    let mask := regs.foldl (fun (m : BitVec 192) n => m ||| BitVec.ofNat 192 (2 ^ n)) 0
    { x with fibres := x.fibres.map (fun f => if act.contains f.id then { f with rel := f.rel ||| mask } else f) }

/-! ### Register lines (03 R75 to R82) -/

/-- Lines of the register region (01 R16). -/
def Skein.lineCap (x : Skein) : Nat := 128 * Nat.max 1 (bits x.part 0 6).toNat

/-- The line key of v n of a fibre. -/
def lineKey (f n : Nat) : LineKey := .vec (f / 32) (n / 4)

/-- A dead line: its quad's liveness bit is 0 in every fibre of its block (03 R83). -/
def Skein.dead (x : Skein) (k : LineKey) : Bool :=
  match k with
  | .vec b q => x.fibres.all (fun f => f.id / 32 != b || !f.live.getLsbD q)
  | _ => false

/-- A skein's registers as they stand outside runahead: those of a strand in runahead as they were at its entry (02 R59, R63, R67). -/
def archSkein (s : State) (x : Skein) : Skein :=
  let views := s.strands.filterMap (fun t => if t.skein == x.id then t.ra else none)
  if views.isEmpty then x
  else { x with fibres := x.fibres.map (fun f =>
    match views.findSome? (fun v => v.saved.find? (fun y => y.id == f.id)) with
    | some y => { f with preds := y.preds, regs := y.regs, live := y.live, rel := y.rel }
    | none => f) }

/-- Whether a strand of the active set holds a fibre of a line's block. A clean line that has no fibre block, a tile line, counts with group 4 of
R80. (DESIGN CHOICE, log 127.) -/
def blockActive (s : State) (x : Skein) (k : LineKey) : Bool :=
  match k with
  | .vec b _ => s.strands.any (fun t => t.skein == x.id && t.active && t.fibres.any (fun f => f / 32 == b))
  | _ => true

/-- The offset of a line in the backing area (03 R77). -/
def Skein.lineOff (x : Skein) : LineKey → Nat
  | .vec b q => 0x20000 + (b * (x.w / 4) + q) * 512
  | .tile n => 0x1000 + 512 * n
  | .uni => 0
  | .pred n => 0x200 + 512 * n

/-- What a line gives to the backing area (03 R77, R85): the bytes of its registers; none for those of a released register, of an id that no
living fibre holds, and of the tail of a partial last block, which are not written. (DESIGN CHOICE, log 127.) -/
def Skein.lineData (x : Skein) : LineKey → List (Option Byte)
  | .vec b q => (upTo 0 4).flatMap (fun i => (upTo 0 32).flatMap (fun j =>
      match x.fibre? (32 * b + j) with
      | some f => if f.rel.getLsbD (4 * q + i) then List.replicate 4 none else (toBytes 4 (mget f.regs (4 * q + i)).toNat).map some
      | none => List.replicate 4 none))
  | .tile n => (mgetAll x.tiles (256 * n) 256).flatMap (fun v => (toBytes 2 v.toNat).map some)
  | .uni => (mgetAll x.g 0 64).flatMap (fun v => (toBytes 8 v.toNat).map some)
  | .pred n => (upTo (256 * n) 256).flatMap (fun f => (toBytes 2 (match x.fibre? f with | some y => (y.preds ||| 0x8000) | none => 0x8000).toNat).map some)

/-- The device's own access to a skein's backing area at an offset: four lines at their home slices; a failure is BACKING-FAULT (03 R76). -/
def backing (s : State) (x : Skein) (off : Nat) (data : Option (List (Option Byte))) : Except Flt State :=
  let q : XReq := { vd := x.vd, ctx := x.ctx, mill := millOfSpindle x.spindle, acct := acctOf x, va := x.base + BitVec.ofNat 64 off, read := data.isNone,
                    write := data.isSome, fetch := false, own := true, pf := false, buf := false }
  match xlate s q none (some x.spindle) with
  | (_, .err e) => .error (e.flt q 0 0xFFFF false 0)
  | (s1, .ok spa _ _ _) =>
    let s2 := (upTo 0 4).foldl (fun u i => (l2Access u (acctOf x) (spa / 128 + i) data.isSome false .normal false).1) s1
    .ok (match data with | some bs => writeSome s2 spa bs | none => s2)

/-- The line that gives way (03 R80): groups in order, least recently used first in each. (DEDUCED, log 21.) -/
def victim (s : State) (x : Skein) (ra : Bool) : Option RegLine :=
  let vec := fun (l : RegLine) => l.st == .clean || l.st == .dirty
  match x.lines.find? (fun l => vec l && x.dead l.key) with
  | some l => some l
  | none =>
    match x.lines.find? (fun l => l.st == .clean && !blockActive s x l.key) with
    | some l => some l
    | none =>
      match x.lines.find? (fun l => l.st == .dirty) with
      | some l => some l
      | none =>
        match x.lines.find? (fun l => l.st == .clean) with
        | some l => some l
        | none => if ra then none else x.lines.find? (fun l => l.st == .runahead)

/-- A counter of a context. -/
def countCtx (s : State) (x : Skein) (f : Ctx → Ctx) : State := updCtx s x.vd x.ctx f

/-- Room for one more line: the victim leaves, written back when dirty and not dead; a runahead line's registers become INV (03 R79, R80). (DEDUCED, log 21.) -/
def makeRoom (s : State) (xk : Nat) (ra : Bool) : Except Flt (State × Bool) :=
  match skein? s xk with
  | none => .ok (s, false)
  | some x =>
    if x.lines.length < x.lineCap then .ok (s, true)
    else
      match victim s (archSkein s x) ra with
      | none => .ok (s, false)
      | some l =>
        let s1 := updSkein s xk (fun y => { y with lines := y.lines.erase l })
        match l.st with
        | .dirty =>
          if (archSkein s x).dead l.key then .ok (s1, true)
          else
            match backing s1 x (x.lineOff l.key) (some ((archSkein s x).lineData l.key)) with
            | .error e => .error e
            | .ok s2 => .ok (countCtx (charge s2 (acctOf x) (millOfSpindle x.spindle) 9 1) x (fun c => { c with regSpill := c.regSpill + 1 }), true)
        | .runahead =>
          let lost := match l.key with
            | .vec b q => (upTo (32 * b) 32).flatMap (fun f => (upTo (4 * q) 4).map (fun n => (f, n)))
            | _ => []
          .ok (updStrand s1 l.strand (fun t => match t.ra with
            | some v => { t with ra := some { v with invR := v.invR ++ lost, lines := v.lines - 1 } }
            | none => t), true)
        | _ => .ok (s1, true)

/-- A line comes into the register region, last in the order of use. -/
def addLine (s : State) (xk : Nat) (k : LineKey) (write : Bool) : State :=
  updSkein s xk (fun y => { y with lines := y.lines ++ [{ key := k, st := if write then .dirty else .clean, strand := 0 }] })

/-- A line that is not there comes in, room having been made: filled from the backing area unless it will be written whole (03 R80). -/
def bringLine (s : State) (x : Skein) (k : LineKey) (write whole : Bool) : Except Flt State :=
  if whole then .ok (addLine s x.id k write)
  else
    match backing s x (x.lineOff k) none with
    | .error e => .error e
    | .ok s1 =>
      .ok (addLine (countCtx (charge s1 (acctOf x) (millOfSpindle x.spindle) 9 1) x (fun c => { c with regFill := c.regFill + 1 })) x.id k write)

/-- A line is used: found and made most recent, or brought in; a line written is noted as such. Room can always be had for a strand that is not in
runahead (03 R80). (DEDUCED, log 21.) -/
def touchLine (s0 : State) (xk : Nat) (k : LineKey) (write whole : Bool) : Except Flt State :=
  let s := if write then updSkein s0 xk (fun y => if y.written.contains k then y else { y with written := y.written ++ [k] }) else s0
  match skein? s xk with
  | none => .ok s
  | some x =>
    match x.lines.find? (fun l => l.key == k && l.st != .runahead) with
    | some l =>
      let l1 := if write && l.st == .clean then { l with st := .dirty } else l
      .ok (updSkein s xk (fun y => { y with lines := y.lines.erase l ++ [l1] }))
    | none =>
      match makeRoom s xk false with
      | .error e => .error e
      | .ok (s1, false) => .ok s1
      | .ok (s1, true) => bringLine s1 x k write whole

/-- Lines used one after another. -/
def touchAll (s : State) (xk : Nat) (write : Bool) : List (LineKey × Bool) → Except Flt State
  | [] => .ok s
  | (k, whole) :: ks =>
    match touchLine s xk k write whole with
    | .error e => .error e
    | .ok s1 => touchAll s1 xk write ks

/-- Line keys of registers in fibres, with whether the write covers the whole line. -/
def keysOf (x : Skein) (fs regs : List Nat) : List (LineKey × Bool) :=
  (dedup (fs.flatMap (fun f => regs.map (fun n => lineKey f n)))).map (fun k =>
    match k with
    | .vec b q => (k, (upTo (4 * q) 4).all regs.contains && x.fibres.all (fun f => f.id / 32 != b || fs.contains f.id))
    | _ => (k, false))

/-! ### Operand caches (03 R84) -/

/-- Lines a register of a strand lies in. -/
def blocksOf (fs : List Nat) : Nat := (dedup (fs.map (fun f => f / 32))).length

/-- A register enters a strand's operand cache; when six are held one of them, by free choice, leaves, written to its lines when dirty. A strand outside the
active set has no operand cache: what it writes goes to its lines. -/
def opcPut (s : State) (t : Strand) (x : Skein) (r : Nat) (dirty : Bool) : State :=
  match skein? s x.id with
  | none => s
  | some y =>
    match y.opc.find? (fun o => o.strand == t.id && o.reg == r) with
    | some o => if dirty then updSkein s x.id (fun z => { z with opc := updIf (fun p => p == o) (fun p => { p with dirty := true }) z.opc }) else s
    | none =>
      let mine := y.opc.filter (fun o => o.strand == t.id)
      let put := fun (u : State) => updSkein u x.id (fun z => { z with opc := z.opc ++ [{ strand := t.id, reg := r, dirty := dirty }] })
      if !(s.strands.any (fun u => u.id == t.id && u.active)) then
        (if dirty then charge s (acctOf x) (millOfSpindle x.spindle) 8 (blocksOf t.fibres) else s)
      else if mine.length < 6 then put s
      else
        match mine[choose s (60 + r) mine.length]? with
        | none => put s
        | some o =>
          let s1 := updSkein s x.id (fun z => { z with opc := z.opc.erase o })
          put (if o.dirty then charge s1 (acctOf x) (millOfSpindle x.spindle) 8 (blocksOf t.fibres) else s1)

/-- A source register is delivered: from the operand cache (class 6) or from its lines (class 7). -/
def opcRead (s : State) (t : Strand) (x : Skein) (r : Nat) : State :=
  let m := millOfSpindle x.spindle
  match (skein? s x.id).bind (fun y => y.opc.find? (fun o => o.strand == t.id && o.reg == r)) with
  | some _ => charge s (acctOf x) m 6 1
  | none => opcPut (charge s (acctOf x) m 7 (blocksOf t.fibres)) t x r false

/-- A strand leaves the active set: its dirty entries are written to their lines and its cache is emptied. -/
def leaveActive (s : State) (t : Strand) : State :=
  match skein? s t.skein with
  | none => updStrand s t.id (fun u => { u with active := false })
  | some x =>
    let dirty := (x.opc.filter (fun o => o.strand == t.id && o.dirty)).length
    let s1 := updSkein s x.id (fun y => { y with opc := y.opc.filter (fun o => o.strand != t.id) })
    updStrand (charge s1 (acctOf x) (millOfSpindle x.spindle) 8 (dirty * blocksOf t.fibres)) t.id (fun u => { u with active := false })

/-- A strand that issues joins the active set of its spindle; when the set is full it displaces the youngest there if that is younger than
itself, and else stays outside (03 R84). (DEDUCED, log 113.) -/
def joinActive (s : State) (t : Strand) (x : Skein) : State :=
  if t.active then s
  else
    let here := s.strands.filter (fun u => (u.active || u.id == t.id) && (match skein? s u.skein with | some y => y.spindle == x.spindle | none => false))
    let join := fun (u : State) => updStrand u t.id (fun v => { v with active := true })
    if here.length ≤ 16 then join s
    else match here.getLast? with
      | some u => if u.id = t.id then s else leaveActive (join s) u
      | none => s

/-- Delivery of an instruction's sources and room for its destinations: lines (R80), then operand-cache and line charges (R84). -/
def deliverOperands (s : State) (t : Strand) (x : Skein) (act : List Nat) (readFibres : List Nat) (reads : List Rd) (writes : List Wr) : Except Flt State :=
  let rregs := dedup (vecRegs (reads.map (fun r => (r.reg, r.wid))))
  let wregs := dedup (vecRegs (writes.map (fun w => (w.reg, w.wid))))
  match touchAll s x.id false ((keysOf x readFibres rregs).map (fun k => (k.1, false))) with
  | .error e => .error e
  | .ok s1 =>
    match touchAll s1 x.id true (keysOf x act wregs) with
    | .error e => .error e
    | .ok s2 =>
      let s3 := rregs.foldl (fun u r => opcRead u t x r) s2
      let uni := ((reads.filter (fun r => decide (192 ≤ r.reg.toNat))).length)
      let s4 := charge s3 (acctOf x) (millOfSpindle x.spindle) 7 uni
      .ok (wregs.foldl (fun u r => opcPut u t x r true) s4)

end Sys2Proof.Machine
end

