-- ==== Sys2Proof/Machine/Flags.lean ====
section
/-! DEFINITION. Flags: the sticky arithmetic flags of a context and ARITH-TRAP (04 R107 to R110), and the completion flags of a
strand (05 R125 to R129). -/
namespace Sys2Proof.Machine

/-! ### Arithmetic flags -/

/-- TE of CTX_FPCTL (R108). -/
def fpTe (v : BitVec 64) : Flags := bits v 8 6
/-- CTX_FPCTL.RM as a mode (R108). -/
def fpMode (v : BitVec 64) : Mode := Mode.ofCode (bits v 24 2).toNat
def Env.dyn (e : Env) : Mode := fpMode e.fpctl

/-- CAUSE takes exactly the raised flags (R109). -/
def setCause (s : State) (vd ctx : Nat) (f : Flags) : State := updCtx s vd ctx (fun c => { c with fpctl := setBits c.fpctl 16 f })

/-- Whether raised flags meet TE (R109). -/
def trapsOn (s : State) (vd ctx : Nat) (f : Flags) : Bool :=
  match ctx? s vd ctx with
  | some c => f &&& fpTe c.fpctl != 0
  | none => false

/-- ARITH-TRAP of a strand whose next instruction is at its PC (R109). INFO of its CAUSE is 0. (DESIGN CHOICE, log 128.) -/
def arithTrap (s : State) (t : Strand) (x : Skein) (f : Flags) : State := takeTrap (setCause s x.vd x.ctx f) t x .arithTrap 0 t.pc

/-! ### Completion flags -/

/-- The flags that SETF selects through the clause in force (R125). -/
def flagsOf (t : Strand) (setf : BitVec 2) : List Nat :=
  match t.clause with
  | none => []
  | some c => dedup ((if setf.getLsbD 0 && c.fa != 15 then [c.fa.toNat] else []) ++ (if setf.getLsbD 1 && c.fb != 15 then [c.fb.toNat] else []))

/-- A flag is busy while something holds it (R125). -/
def Strand.busy (t : Strand) (f : Nat) : Bool := t.holds.any (fun h => h.1 == f)
/-- How many instructions hold a flag. -/
def Strand.holders (t : Strand) (f : Nat) : Nat := (t.holds.filter (fun h => h.1 == f)).length
/-- A flag that an instruction would hold as the 256th (R125). -/
def fullFlag (t : Strand) (setf : BitVec 2) : Option Nat := (flagsOf t setf).find? (fun f => decide (255 ≤ t.holders f))
/-- Whether every flag of a WAIT field is idle (R126). -/
def Strand.waitMet (t : Strand) (w : BitVec 12) : Bool := (upTo 0 12).all (fun f => !w.getLsbD f || !t.busy f)

/-- An access with a key holds the flags in the issuing strand. -/
def holdFlags (s : State) (k : Nat) (fs : List Nat) (id : Nat) : State :=
  updStrand s k (fun t => { t with holds := t.holds ++ fs.map (fun f => (f, id)) })

end Sys2Proof.Machine
end

