-- ==== Sys2Proof/Machine/Issue.lean ====
section
/-! DEFINITION. The issue of an instruction by the strand that the state names: the checks in the order of 05 R131 and R132, the
charge, the effect, last uses, the next PC; and what issue means in runahead (02 R60 to R64). Every meaning of an
instruction word goes through here. -/
namespace Sys2Proof.Machine

abbrev Out := Host.Outcome State Fault Refusal

/-- What an instruction's effect comes to. Each carries the state with the effect; the wrapper does the rest. -/
inductive Res where
  /-- Done; the strand goes to the next word. -/
  | ok (s : State)
  /-- Done, having raised flags, of which some may take ARITH-TRAP. -/
  | flags (s : State) (f kept : Flags)
  /-- Done; the instruction has set the PC, or the strand, itself. -/
  | moved (s : State)
  /-- The strand stays at the instruction and waits. -/
  | stall (s : State) (st : StrandState) (w : Wait)
  /-- A failure under its class. -/
  | fault (s : State) (f : Flt)
  /-- A user-recoverable fault: EPC is the next word or this one. -/
  | trap (s : State) (c : TrapCause) (info : Nat) (nxt : Bool)

/-- What an instruction means in runahead (02 R60). -/
inductive RaRes where
  | stop
  | next (s : State)
  | moved (s : State)

/-- What the issue of an instruction needs to know of it: bytes of code, GUARD and SETF, sources, destinations, predicates read and written,
the class of its issue (14 R300), whether it is privileged, whether it is forbidden in an open region (10 R257), whether its
destinations are written only at completion, whether its flags can trap (04 R109), a further WINDOW-RANGE condition on W, the fibres whose
register each source names, in the order of the active fibres, and whether it is a memory instruction that becomes a replay entry (15 R341). -/
structure Shape where
  len : Nat
  ctl : Ctl
  reads : List Rd
  writes : List Wr
  psrc : List (BitVec 4)
  pdst : List (BitVec 4)
  cls : Nat
  priv : Privilege → Bool
  noIdem : Bool
  late : Bool
  traps : Bool
  window : Nat → Bool
  readAt : Env → Nat → List Nat
  access : Bool

/-- A shape with nothing beside its control fields. -/
def Shape.plain (len : Nat) (c : Ctl) (cls : Nat) : Shape :=
  { len := len, ctl := c, reads := [], writes := [], psrc := [], pdst := [], cls := cls, priv := fun _ => false, noIdem := false, late := false,
    traps := false, window := fun _ => false, readAt := fun e _ => e.act, access := false }

/-- The first decode-class fault that needs more than the word (05 R132). -/
def decodeCheck (sh : Shape) (p : Privilege) (t : Strand) (x : Skein) : Option DecodeFault :=
  let ops := sh.reads.map (fun r => (r.reg, r.wid)) ++ sh.writes.map (fun w => (w.reg, w.wid))
  if sh.priv p then some .privileged
  else if flagSlotBad t sh.ctl.setf then some .flagSlot
  else if pairBad ops then some .registerPair
  else if windowBad x.w ops || sh.window x.w then some .windowRange
  else none

/-- Codes of the decode-class faults (05 R132). -/
def decodeCode : DecodeFault → Nat
  | .fetchCross => 1 | .badClause => 2 | .illegalOpcode => 3 | .privileged => 4 | .reservedBit => 5 | .reservedFn => 6 | .flagSlot => 7
  | .registerPair => 8 | .windowRange => 9

/-- An episode stops (02 R62). -/
def raStop (s : State) (t : Strand) (cap : Bool) : State :=
  let s1 := updStrand s t.id (fun u => { u with st := .raStopped })
  updCtx s1 ((skeinOf s t).elim 0 (fun x => x.vd)) ((skeinOf s t).elim 0 (fun x => x.ctx)) (fun c =>
    if cap then { c with ra := { c.ra with cap := c.ra.cap + 1 } } else { c with ra := { c.ra with stp := c.ra.stp + 1 } })

/-- A decode-class fault at a strand's PC, or a stop in runahead (05 R133; 02 R61). -/
def decodeFail (s : State) (t : Strand) (x : Skein) (d : DecodeFault) : State :=
  if t.ra.isSome then raStop s t false
  else failHank s x { Flt.plain .decode (decodeCode d) (t.fibres.headD 0xFFFF) t.pc with access := 4 }

/-- The class of an issue: an integer instruction of uniform operands alone, with a uniform destination, takes the scalar path (03 R75). -/
def issueClass (sh : Shape) : Nat :=
  if sh.cls = 1 ∧ !sh.writes.isEmpty ∧ sh.writes.all (fun w => decide (192 ≤ w.reg.toNat)) ∧ sh.reads.all (fun r => decide (192 ≤ r.reg.toNat)) then 0
  else sh.cls

/-- The issue is charged and the strand joins the active set, unless it is in runahead; a re-issue of the same instruction is not a second issue. -/
def chargeIssue (s : State) (sh : Shape) (t : Strand) (x : Skein) : State :=
  if t.again then s
  else
    let s1 := charge s (acctOf x) (millOfSpindle x.spindle) (issueClass sh) 1
    if t.ra.isSome then s1 else joinActive s1 t x

/-- Stale reads of an issue: one per active fibre and operand (03 R86). -/
def staleCount (sh : Shape) (e : Env) : Nat :=
  (upTo 0 sh.reads.length).foldl (fun n i =>
    match sh.reads[i]? with
    | some r => n + ((sh.readAt e i).filter (fun f => staleOperand e.x f r)).length
    | none => n) 0

/-- CTX_DBG.STALE. -/
def staleTraps (s : State) (x : Skein) : Bool := match ctxOf s x with | some c => c.dbg.getLsbD 0 | none => false

/-- The registers that last-use marks name; those of them that are released: not those that the instruction itself has written (03 R85). -/
def markedRegs (sh : Shape) : List Nat := vecRegs ((sh.reads.filter (fun r => r.last)).map (fun r => (r.reg, r.wid)))
def released (sh : Shape) : List Nat :=
  let kept := if sh.late then [] else vecRegs (sh.writes.map (fun w => (w.reg, w.wid)))
  (markedRegs sh).filter (fun r => !kept.contains r)

/-- A skein in which registers have been released by a strand, with their operand-cache entries (03 R85). -/
def Skein.free (x : Skein) (regs act : List Nat) (strand : Nat) : Skein :=
  let y := x.release act regs
  { y with opc := y.opc.filter (fun o => !(o.strand == strand && regs.contains o.reg)) }
/-- A skein whose marked sources have been released. -/
def Skein.used (x : Skein) (sh : Shape) (act : List Nat) (strand : Nat) : Skein := x.free (released sh) act strand

/-- After the effect the marked sources are released (03 R85). -/
def afterUse (sh : Shape) (e : Env) (s : State) : State :=
  if (markedRegs sh).isEmpty then s else updSkein s e.x.id (fun x => x.used sh e.act e.t.id)

/-- The strand goes to the word after this one. -/
def advanceStrand (s : State) (k len : Nat) : State := updStrand s k (fun t => { t.advance len with wait := none, again := false, st := .ready })

/-- The strand as it stands now, or as it stood. -/
def nowStrand (s : State) (t : Strand) : Strand := (strand? s t.id).getD t
def nowSkein (s : State) (x : Skein) : Skein := (skein? s x.id).getD x

/-! ### Accesses that meet a failure at issue -/

/-- The values that the A, B and C fields of the issuing word name, in each active fibre (15 R342): 64 bits of a uniform register or of an even
vector register's pair, 32 of an odd one. -/
def operandsNow (e : Env) (word : List Byte) : List (Nat × BitVec 64 × BitVec 64 × BitVec 64) :=
  let r := rawOf (leNat (word.take 8)) 0
  let v := fun (f : Nat) (n : Field8) => if n.toNat < 192 ∧ n.toNat % 2 = 1 then (e.r32 f n).setWidth 64 else e.r64 f n
  e.act.map (fun f => (f, v f r.a, v f r.b, v f r.c))

/-- A memory instruction that takes a violation becomes a replay entry and its strand goes on behind it (16 R365). (DEDUCED, log 114.) -/
def recordAccess (sh : Shape) (e : Env) (s : State) : State :=
  let r : Replay := { id := s.key, array := false, skein := e.x.id, strands := [e.t.id], word := s.word, pc := e.t.pc, ops := operandsNow e s.word, r := 0,
                      b := 0, flags := 0, stores := [], token := none }
  let s1 := holdFlags { s with replays := s.replays ++ [r], key := s.key + 1 } e.t.id (flagsOf e.t sh.ctl.setf) s.key
  advanceStrand (afterUse sh e s1) e.t.id sh.len

/-- A page fault of an instruction: when it parks the strand, the flags that the instruction holds stay busy until it completes (05 R129). -/
def settlePage (sh : Shape) (e : Env) (s : State) (f : Flt) : State :=
  let s1 := deliver s (nowStrand s e.t) (nowSkein s e.x) f
  if e.t.region.isSome || (flagsOf e.t sh.ctl.setf).isEmpty then s1
  else updStrand (holdFlags { s1 with key := s1.key + 1 } e.t.id (flagsOf e.t sh.ctl.setf) s1.key) e.t.id (fun u => { u with faulted := some s1.key })

/-- A failure of an instruction. A memory instruction that takes a violation outside a region is recorded first (16 R365). -/
def settleFault (sh : Shape) (e : Env) (s : State) (f : Flt) : State :=
  match f.cls with
  | .page1 | .page2 => settlePage sh e s f
  | .violation =>
    if sh.access && s.undo.isNone && e.t.region.isNone then
      let s1 := recordAccess sh e s
      deliver s1 (nowStrand s1 e.t) (nowSkein s1 e.x) f
    else deliver s (nowStrand s e.t) (nowSkein s e.x) f
  | _ => deliver s (nowStrand s e.t) (nowSkein s e.x) f

/-- The flags that a parked instruction has held are let go as it issues again, to be held by it anew. -/
def dropFaulted (s : State) (t : Strand) : State :=
  match t.faulted with
  | none => s
  | some k => updStrand (releaseFlags s k) t.id (fun u => { u with faulted := none })

/-- Memory instructions and array work of a skein that would be replay entries if it were halted now: none of their parts performed, and not known to
have been sent (15 R341, R342). -/
def Pending.unsent (p : Pending) : Bool := !p.sent && p.lanes.all (fun l => !l.done)
def unsentOf (s : State) (x : Skein) : Nat :=
  (s.pend.filter (fun p => p.skein == x.id && p.unsent)).length + (s.array.filter (fun a => a.skein == x.id)).length + (s.replays.filter (fun r => r.skein == x.id)).length

/-- A memory instruction that finds 64 unsent ones stalls, or the oldest of those has been sent meanwhile, by free choice (15 R342). (DESIGN CHOICE, log 34.) -/
def sendOldest (s : State) (x : Skein) : Option State :=
  match s.pend.find? (fun p => p.skein == x.id && p.unsent) with
  | some p => if choose s 45 2 = 0 then none else some (setPend s { p with sent := true })
  | none => none

/-- What follows an effect. -/
def settle (sh : Shape) (e : Env) (r : Res) : State :=
  match r with
  | .ok s => advanceStrand (afterUse sh e s) e.t.id sh.len
  | .flags s f kept =>
    let s1 := advanceStrand (afterUse sh e (raise s e.x.vd e.x.ctx f)) e.t.id sh.len
    if sh.traps && trapsOn s1 e.x.vd e.x.ctx kept then arithTrap s1 (nowStrand s1 e.t) (nowSkein s1 e.x) kept else s1
  | .moved s => afterUse sh e s
  | .stall s st w => updStrand s e.t.id (fun t => { t with st := st, wait := some w, again := true })
  | .fault s f => settleFault sh e s f
  | .trap s c info nxt =>
    let t := nowStrand s e.t
    takeTrap (if nxt then afterUse sh e s else s) t (nowSkein s e.x) c info (if nxt then t.nextPc sh.len else t.pc)

/-- What an instruction sees as it issues. -/
def issueEnv (sh : Shape) (t : Strand) (x : Skein) (s : State) : Env := { s := s, t := t, x := x, act := activeOf t x sh.ctl.guard }

/-- The state that an instruction takes effect in: its issue charged, its operands delivered, its stale reads counted; or the failure of a line. -/
def issueState (sh : Shape) (t : Strand) (x : Skein) (s0 : State) : Except Flt State :=
  let s := chargeIssue s0 sh t x
  let e := issueEnv sh t x s0
  if t.again then .ok s
  else
    match deliverOperands s t x e.act (dedup ((upTo 0 sh.reads.length).flatMap (sh.readAt e))) sh.reads (if sh.late then [] else sh.writes) with
    | .error f => .error f
    | .ok s1 =>
      let n := staleCount sh e
      .ok (if n = 0 then s1 else countCtx s1 x (fun c => { c with stale := c.stale + BitVec.ofNat 64 n }))

/-- Issue outside runahead, after decode. -/
def issueReal (sh : Shape) (body : Env → State → Res) (t : Strand) (x : Skein) (s0 : State) : State :=
  let s := chargeIssue s0 sh t x
  let e := issueEnv sh t x s0
  if e.act.isEmpty then advanceStrand s t.id sh.len
  else if divergentWrite x e.act sh.writes then takeTrap s t x .uniformDivergentWrite 0 t.pc
  else if staleTraps s x && decide (0 < staleCount sh e) then takeTrap s t x .staleRead 0 t.pc
  else
    match issueState sh t x s0 with
    | .error f => deliver s t x { f with pc := t.pc }
    | .ok s2 =>
      match fullFlag t sh.ctl.setf with
      | some f => settle sh e (.stall s2 .ready (.flagFull f))
      | none =>
        if sh.noIdem && t.region.isSome then deliver s2 t x (Flt.plain .execute 0x1B e.lead t.pc)
        else if sh.access && s2.undo.isNone && decide (64 ≤ unsentOf s2 x) then
          (match sendOldest s2 x with
           | none => settle sh e (.stall s2 .ready .unsent)
           | some s3 => settle sh e (body e s3))
        else settle sh e (body e s2)

/-! ### Runahead -/

/-- INV marks of a view (02 R61). -/
def RaView.invReg (v : RaView) (f : Nat) (r : Field8) (w : Wid) : Bool :=
  if r.toNat < 192 then (upTo r.toNat w.len).any (fun n => v.invR.contains (f, n)) else v.invG.contains (r.toNat - 192)
def RaView.invPred (v : RaView) (f : Nat) (p : BitVec 4) : Bool := p != 15 && v.invP.contains (f, p.toNat)
/-- Whether a source of an instruction, its guard, or the fibre itself is INV. -/
def RaView.inv (v : RaView) (sh : Shape) (f : Nat) : Bool :=
  v.poisoned.contains f || v.invPred f (bits sh.ctl.guard 0 4) || sh.reads.any (fun r => v.invReg f r.reg r.wid) || sh.psrc.any (v.invPred f)

/-- Setting or clearing marks of what an instruction writes in a fibre. -/
def RaView.mark (v : RaView) (ws : List Wr) (ps : List (BitVec 4)) (f : Nat) (inv : Bool) : RaView :=
  let regs := vecRegs (ws.map (fun w => (w.reg, w.wid)))
  let keep := v.invR.filter (fun m => !(m.1 == f && regs.contains m.2))
  let keepP := v.invP.filter (fun m => !(m.1 == f && ps.any (fun p => p.toNat == m.2)))
  if inv then { v with invR := keep ++ regs.map (fun n => (f, n)), invP := keepP ++ ps.map (fun p => (f, p.toNat)) }
  else { v with invR := keep, invP := keepP }

/-- A runahead line for each line written, each charged as one line write (02 R67, 13 R292; DEDUCED); the answer says whether all could be had
(02 R59). (DEDUCED, log 110.) -/
def raLines (s : State) (k xk : Nat) : List LineKey → State × Bool
  | [] => (s, true)
  | key :: ks =>
    match skein? s xk with
    | none => (s, false)
    | some x =>
      if x.lines.any (fun l => l.key == key && l.st == .runahead && l.strand == k) then raLines s k xk ks
      else
        match makeRoom s xk true with
        | .ok (s1, true) =>
          let s2 := charge (updSkein s1 xk (fun y => { y with lines := y.lines ++ [{ key := key, st := .runahead, strand := k }] })) (acctOf x)
            (millOfSpindle x.spindle) 8 1
          raLines (updStrand s2 k (fun t => { t with ra := t.ra.map (fun v => { v with lines := v.lines + 1 }) })) k xk ks
        | .ok (s1, false) => (s1, false)
        | .error _ => (s, false)

/-- The lines of the sources of an instruction in runahead: where the strand has no runahead line of its own, the line as it stands outside
runahead, filled when it is not there (03 R80); the answer says whether each could be had (02 R59). -/
def raSources (s : State) (k xk : Nat) : List LineKey → Except Flt (State × Bool)
  | [] => .ok (s, true)
  | key :: ks =>
    match skein? s xk with
    | none => .ok (s, false)
    | some x =>
      if x.lines.any (fun l => l.key == key && (l.st != .runahead || l.strand == k)) then raSources s k xk ks
      else
        match makeRoom s xk true with
        | .error e => .error e
        | .ok (s1, false) => .ok (s1, false)
        | .ok (s1, true) =>
          match bringLine s1 x key false false with
          | .error e => .error e
          | .ok s2 => raSources s2 k xk ks

/-- A walk that a translation made in runahead is counted (02 R65). -/
def countWalk (s : State) (x : Skein) (va : BitVec 64) (o : XOut) : State :=
  if o.walked va then countCtx s x (fun c => { c with ra := { c.ra with wlk := c.ra.wlk + 1 } }) else s

/-- What an instruction computes in one fibre: its destinations' 32-bit words in order, its predicates in order, its flags. -/
structure FOut where
  words : List (BitVec 32)
  preds : List Bool
  flags : Flags

/-- One 32-bit result; one 64-bit result. -/
def FOut.w32 (v : BitVec 32) : FOut := { words := [v], preds := [], flags := 0 }
def FOut.w64 (v : BitVec 64) : FOut := { words := [bits v 0 32, bits v 32 32], preds := [], flags := 0 }

/-- Destinations take their words (03 R71, R72). -/
def Skein.putWords (x : Skein) (fs : List Nat) (v : Nat → List (BitVec 32)) : List Wr → Nat → Skein
  | [], _ => x
  | w :: ws, at_ =>
    let y := match w.wid with
      | .one => x.put32 w.reg fs (fun f => (v f).getD at_ 0)
      | .two => x.put64 w.reg fs (fun f => (v f).getD (at_ + 1) 0 ++ (v f).getD at_ 0)
      | .run n => (upTo 0 n).foldl (fun z i => z.put32 (w.reg + BitVec.ofNat 8 i) fs (fun f => (v f).getD (at_ + i) 0)) x
    y.putWords fs v ws (at_ + w.wid.len)

/-- Predicate destinations take their bits. -/
def Skein.putPreds (x : Skein) (fs : List Nat) (v : Nat → List Bool) (ps : List (BitVec 4)) : Skein :=
  if ps.isEmpty then x
  else { x with fibres := x.fibres.map (fun f =>
    if fs.contains f.id then ((upTo 0 ps.length).foldl (fun (y : Fibre) i => y.setPred (ps.getD i 15) ((v f.id).getD i false)) f) else f) }

/-- The result of a fibre among results. -/
def outOf (outs : List (Nat × FOut)) (f : Nat) : FOut := ((outs.find? (fun o => o.1 == f)).map (fun o => o.2)).getD { words := [], preds := [], flags := 0 }

/-- Writing results into a skein. -/
def Skein.putOuts (x : Skein) (sh : Shape) (fs : List Nat) (outs : List (Nat × FOut)) : Skein :=
  (x.putWords fs (fun f => (outOf outs f).words) sh.writes 0).putPreds fs (fun f => (outOf outs f).preds) sh.pdst

/-- The flags of the results that are kept: of a uniform destination, those of the lowest-numbered active fibre; the results of other fibres are
discarded and raise nothing (03 R75). -/
def keptFlags (sh : Shape) (outs : List (Nat × FOut)) (all : Flags) : Flags :=
  if !sh.writes.isEmpty && sh.writes.all (fun w => decide (192 ≤ w.reg.toNat)) then (match outs with | o :: _ => o.2.flags | [] => 0) else all

/-- The effect of an instruction that computes in every active fibre; on the scalar path every fibre's result is the lead fibre's (07 R180). -/
def compute (sh : Shape) (f : Env → Nat → FOut) (e : Env) (s : State) : Res :=
  let scalar := issueClass sh == 0
  let outs := e.act.map (fun i => (i, f e (if scalar then e.lead else i)))
  let fl := outs.foldl (fun (acc : Flags) o => acc ||| o.2.flags) 0
  .flags (updSkein s e.x.id (fun x => x.putOuts sh e.act outs)) fl (keptFlags sh outs fl)

/-- Results written in runahead: the fibres listed get valid results, every other active fibre INV; uniform results go to the strand's own copies;
without a line for each result the episode stops (02 R59, R61). -/
def raPut (sh : Shape) (e : Env) (s : State) (outs : List (Nat × FOut)) : RaRes :=
  let keys := (keysOf e.x e.act (vecRegs (sh.writes.map (fun w => (w.reg, w.wid))))).map (fun k => k.1)
  match raLines s e.t.id e.x.id keys with
  | (_, false) => .stop
  | (s1, true) =>
    let good := outs.map (fun o => o.1)
    let vws := sh.writes.filter (fun w => decide (w.reg.toNat < 192))
    let s2 := if vws.length = sh.writes.length then updSkein s1 e.x.id (fun x => x.putOuts sh good outs)
      else updSkein s1 e.x.id (fun x => x.putPreds good (fun i => (outOf outs i).preds) sh.pdst)
    let lead := e.act.headD 0
    let uni := fun (u : RaView) =>
      (sh.writes.filter (fun w => decide (192 ≤ w.reg.toNat))).foldl (fun (u : RaView) w =>
        let n := w.reg.toNat - 192
        if !good.contains lead then { u with invG := insNat n u.invG, gSet := insNat n u.gSet }
        else
          let ws := (outOf outs lead).words
          let val := if w.wid = .two then ws.getD 1 0 ++ ws.getD 0 0 else (ws.getD 0 0).setWidth 64
          { u with invG := u.invG.filter (fun m => m != n), gSet := insNat n u.gSet, g := mset u.g n val }) u
    let marks := fun (u : RaView) => e.act.foldl (fun (u : RaView) i => u.mark sh.writes sh.pdst i (!good.contains i)) u
    .next (updStrand s2 e.t.id (fun t => { t with ra := t.ra.map (fun u => uni (marks u)) }))

/-- The effect of a computing instruction in runahead: INV in the fibres in which its result is INV, as told by the view (02 R61). -/
def raCompute (sh : Shape) (inv : RaView → Env → Nat → Bool) (f : Env → Nat → FOut) (e : Env) (s : State) : RaRes :=
  match e.t.ra with
  | none => .stop
  | some v => raPut sh e s ((e.act.filter (fun i => !inv v e i)).map (fun i => (i, f e i)))
/-- The result of an instruction that reads only the fibre's own sources is INV when one of them is, or the guard, or the fibre. -/
def ownInv (sh : Shape) : RaView → Env → Nat → Bool := fun v _ i => v.inv sh i

/-- Issue in runahead: a fibre whose guard is INV counts as active; a stop leaves the instruction unexecuted (02 R60 to R62). What the instruction
charges is added up, and the energy cap applied, at the end of the step. (DEDUCED, log 110.) -/
def issueRa (sh : Shape) (ra : Env → State → RaRes) (t : Strand) (x : Skein) (s0 : State) : State :=
  match t.ra with
  | none => s0
  | some v =>
    let act := t.fibres.filter (fun i => v.invPred i (bits sh.ctl.guard 0 4) || (match x.fibre? i with | some f => f.guard sh.ctl.guard | none => false))
    let s := updCtx (chargeIssue s0 sh t x) x.vd x.ctx (fun c => { c with ra := { c.ra with ins := c.ra.ins + 1 } })
    let e : Env := { s := s, t := t, x := x, act := act }
    let from_ := dedup ((upTo 0 sh.reads.length).flatMap (sh.readAt e))
    match raSources s t.id x.id ((keysOf x from_ (dedup (vecRegs (sh.reads.map (fun r => (r.reg, r.wid)))))).map (fun k => k.1)) with
    | .error f => deliver s0 t x { f with pc := t.pc }
    | .ok (_, false) => raStop s0 t false
    | .ok (s1, true) =>
      match (if act.isEmpty then (match ra e s1 with | .stop => RaRes.stop | _ => .next s1) else ra e s1) with
      | .stop => raStop s0 t false
      | .next s2 => updStrand s2 t.id (fun u => u.advance sh.len)
      | .moved s2 => s2

/-- Instructions that stop an episode, and those without effect in it (02 R60). -/
def raStops : Env → State → RaRes := fun _ _ => .stop
/-- DEDUCED, log 40. -/
def raNothing : Env → State → RaRes := fun _ s => .next s

/-- The issue of an instruction by the strand s.cur (05 R131 to R133). -/
def issue (sh : Shape) (ra : Env → State → RaRes) (body : Env → State → Res) (s : State) : Out :=
  match s.cur.bind (strand? s) with
  | none => .refused .noIssuingStrand
  | some t =>
    match skein? s t.skein with
    | none => .refused .noIssuingStrand
    | some x =>
      .next (match decodeCheck sh (privOf s t x) t x with
        | some d => decodeFail s t x d
        | none => if t.ra.isSome then issueRa sh ra t x s else issueReal sh body t x s)

/-- The issue of an instruction that computes in every active fibre from that fibre's own sources. -/
def issueCompute (sh : Shape) (f : Env → Nat → FOut) (s : State) : Out :=
  issue sh (raCompute sh (ownInv sh) f) (compute sh f) s

end Sys2Proof.Machine
end

