-- ==== Sys2Proof/Machine/Run.lean ====
section
/-! DEFINITION. Which strand issues next and what it meets before its instruction executes: readiness and age (02 R39 to R43),
clause headers (05 R122, R123, R126), merging (02 R38), fetch through the instruction cache (11 R283), decoding (05 R132), the
wait counts and promotion (R41), and what every step does at its end. -/
namespace Sys2Proof.Machine

/-! ### Readiness -/

/-- Whether a strand's context, VD and hank let it issue; a VD's withheld writes are made first (15 R346). -/
def mayRun (s : State) (x : Skein) : Bool :=
  (match hank? s x.hank with | some h => h.st == .placed && !h.failed | none => false) &&
    (match ctxOf s x with | some c => c.st == 1 && !c.stopped | none => false) && !recordWaits s 5 1 x.vd x.ctx 0 &&
    !(vdOf s x.vd).stopped && !(vdOf s x.vd).empty && (vdOf s x.vd).withheld.isEmpty

/-- Accesses and array work still outstanding under given keys. -/
def outstanding (s : State) (ids : List Nat) : Bool := s.pend.any (fun p => ids.contains p.id) || s.array.any (fun a => ids.contains a.id)
/-- Region buffers of a skein that are held (01 R17). -/
def regionsHeld (s : State) (x : Skein) : Nat := (s.strands.filter (fun t => t.skein == x.id && t.region.isSome)).length
/-- Region buffers a skein has (01 R16). -/
def regionCap (x : Skein) : Nat := 4 * (bits x.part 18 6).toNat

/-- Whether an access in flight is a write, to memory or to scratchpad, or an atomic. -/
def Acc.writes : Acc → Bool
  | .store .. | .sts | .atom .. | .atomf .. | .rstf .. | .mstore .. | .commitStore .. | .publish => true
  | _ => false
/-- Whether it loads from memory, and whether it writes memory, in the sense of 11 R267; an atomic does both. -/
def Acc.memLoad : Acc → Bool
  | .load .. | .atom .. | .atomf .. => true
  | .mload _ _ _ _ sp _ _ => !sp
  | _ => false
def Acc.memWrite : Acc → Bool
  | .store .. | .atom .. | .atomf .. | .rstf .. | .commitStore .. | .publish => true
  | .mstore _ _ sp _ _ => !sp
  | _ => false
/-- Whether it accesses scratchpad for a fibre (11 R267). -/
def Acc.scratch : Acc → Bool
  | .lds .. | .sts => true
  | .mload _ _ _ _ sp _ _ => sp
  | .mstore _ _ sp _ _ => sp
  | _ => false

/-- Whether every fabric write of a strand has been acknowledged by its target package (10 R246, 11 R275). -/
def fabAcked (s : State) (t : Strand) : Bool := t.acks.all (fun a => !(linkOf s a.1 a.2.1).unacked.any (fun u => u.1 == a.2.2))

/-- Scopes that order scratchpad and completed writes only (11 R275). -/
def isNarrow : Scope → Bool
  | .skein | .hank => true
  | _ => false
/-- What a release waits for beside the completion of earlier writes: at device scope or wider GTB has passed the strand's horizon; at the scope of
the group its fabric writes are acknowledged; at system scope its writes to host windows have reached the host's ordering point (10 R246; 11 R275, R279).
(DESIGN CHOICE, log 133.) -/
def scopeMet (s : State) (t : Strand) (sc : Scope) : Bool :=
  (isNarrow sc || decide (t.h.toNat < s.gtb.toNat)) && (isNarrow sc || sc == .device || fabAcked s t) && (sc != .system || decide (t.hostAt.toNat < s.gtb.toNat))
/-- FENCE's condition (10 R246). -/
def fenceMet (s : State) (t : Strand) (sc : Scope) : Bool :=
  !s.pend.any (fun p => p.strands.contains t.id && p.acc.writes) && scopeMet s t sc

/-- Whether an access lies on one of the paths of a set: bits LS, BT, AR, GA, CP from bit 0 (10 R247, 11 R277). -/
def Acc.onPath (a : Acc) (m : BitVec 5) : Bool :=
  match a with
  | .wld .. | .sbuild .. | .sdrain .. => m.getLsbD 2
  | _ => m.getLsbD 0

/-- FENCEX's condition (10 R247): the accesses it names have been performed, and the writes of its strand and skein are globally complete. -/
def fencexMet (s : State) (t : Strand) (x : Skein) (ids : List Nat) (ls : Bool) : Bool :=
  !outstanding s ids && (!ls || (decide (t.h.toNat < s.gtb.toNat) && decide (x.gw.toNat < s.gtb.toNat)))

/-- Whether what a stalled strand waits for has come about, so that its instruction can issue again. Barriers and tokens end in
steps of their own. -/
def waitOver (s : State) (t : Strand) (x : Skein) : Wait → Bool
  | .fence sc => fenceMet s t sc
  | .fencex ids ls => fencexMet s t x ids ls
  | .cwait _ _ _ st => st.isSome
  | .sleep _ _ _ woke => woke
  | .sleepUntil _ _ woke => woke.isSome
  | .flagFull f => decide (t.holders f < 255)
  | .regionBuf => decide (regionsHeld s x < regionCap x)
  | .skeinWork ids => !outstanding s ids
  | .acquire id => !outstanding s [id]
  | .unsent => decide (unsentOf s x < 64)
  | .launch _ _ st _ _ => st.isSome
  | .opreq _ st => st.isSome
  | .feed _ _ _ woken => woken
  | .invalidation inv => !s.invs.any (fun i => i.id == inv)
  | _ => false

/-- The acquire, not yet performed, that holds back every later access of its strand (10 R248). -/
def acquiring (s : State) (t : Strand) : Option Pending :=
  s.pend.find? (fun p => p.strands.contains t.id && (match p.acc with | .load _ _ _ acq _ _ => acq | .atom _ _ _ acq => acq | .atomf _ _ acq => acq | _ => false))

/-- A skein whose replay entries are still to be issued again issues nothing new (15 R342). -/
def replaying (s : State) (x : Skein) : Bool := s.replays.any (fun r => r.skein == x.id)

/-- Whether a strand can issue now (02 R39, R43): Ready with its wait over; Held with its flags idle; or in runahead. -/
def ready (s : State) (t : Strand) : Bool :=
  match skein? s t.skein with
  | none => false
  | some x =>
    mayRun s x && !replaying s x &&
      (match t.st with
      | .ready => (match t.wait with | none => true | some w => waitOver s t x w)
      | .held => t.waitMet t.waits
      | .runahead => (match t.ra with | some v => !t.waitMet v.waits | none => false)
      | _ => false)

/-- The ready strands of a spindle, oldest first, that have not taken a pipe in the present core cycle. Any strand can use any of the four pipes
(01 R19). -/
def readyOn (s : State) (sp : Nat) : List Strand :=
  s.strands.filter (fun t => (match skein? s t.skein with | some x => x.spindle == sp | none => false) && ready s t && !(spindleOf s sp).cycle.contains t.id)

/-- The strand that the next free pipe of a spindle takes: the oldest ready one, one in runahead only when no other is ready (02 R39). -/
def oldestOn (s : State) (sp : Nat) : Option Strand :=
  let here := readyOn s sp
  match here.find? (fun t => t.st != .runahead) with
  | some t => some t
  | none => here.head?

/-- The spindles that hold strands. -/
def liveSpindles (s : State) : List Nat := dedup (s.strands.filterMap (fun t => (skein? s t.skein).map (fun x => x.spindle)))
/-- The strands that may issue next, one of each spindle. -/
def candidates (s : State) : List Nat := (liveSpindles s).filterMap (fun sp => (oldestOn s sp).map (fun t => t.id))

/-! ### Fetch (05 R117; 11 R283) -/

/-- A fetch block's bytes at a code address: translated for fetch, then from the instruction cache or its home slice; a cached block that
differs from memory, and may have been replaced meanwhile, is used or not by free choice. No failure and no bytes: the line's accesses wait. (DEDUCED, log 17; DESIGN CHOICE, log 18.) -/
def fetchBlock (s : State) (t : Strand) (x : Skein) (pc : BitVec 64) : State × Except (Option Flt) (List Byte) :=
  let q : XReq := { vd := x.vd, ctx := x.ctx, mill := millOfSpindle x.spindle, acct := acctOf x, va := pc &&& ~~~31, read := false, write := false,
                    fetch := true, own := false, pf := t.ra.isSome, buf := false }
  let r := xlate s q none (some x.spindle)
  let s1 := if t.ra.isSome then countWalk r.1 x q.va r.2 else r.1
  match r.2 with
  | .err e => (s1, .error (some { (e.flt q 0 (t.fibres.headD 0xFFFF) false pc) with va := pc }))
  | .ok spa0 tr _ _ =>
    let spa := normSpa s1 spa0
    let s2 := if pc.toNat % 32 = 0 ∧ !t.again then charge s1 (acctOf x) (millOfSpindle x.spindle) 12 1 else s1
    let sp := spindleOf s2 x.spindle
    let now := readSpa s2 spa 32
    let hit := (sp.ic.find? (fun b => b.vd == x.vd && b.spa == spa)).filter (fun b => b.bytes == now || choose s2 40 2 == 0)
    match hit with
    | some b => (s2, .ok b.bytes)
    | none =>
      if lineBusy s2 (spa / 128) then (s, .error none)
      else
        let s3 := engineLine (charge s2 (acctOf x) (millOfSpindle x.spindle) 13 1) (acctOf x) (spa / 128) false tr.uncached
        if poisoned s2 spa 32 then (s3, .error (some { Flt.plain .data 0x40 (t.fibres.headD 0xFFFF) pc with access := 4, va := pc, line := some (badLine s2 spa 32) }))
        else
          let others := sp.ic.filter (fun b => !(b.vd == x.vd && b.spa == spa))
          let kept := if others.length < 2048 then others else others.eraseIdx (choose s2 41 2048)
          (setSpindle s3 { spindleOf s3 x.spindle with ic := kept ++ [{ vd := x.vd, spa := spa, bytes := now }] }, .ok now)

/-- The block that a strand is executing, when it has been fetched: it is executed as fetched (08 R209; 11 R283). -/
def Strand.heldBlock (t : Strand) (pc : BitVec 64) : Option (List Byte) :=
  match t.block with
  | some b => if b.1 = pc &&& ~~~31 then some b.2 else none
  | none => none

/-- Bytes from a code address to the end of its fetch block. -/
def fetchFrom (pc : BitVec 64) (block : List Byte) : List Byte := block.drop (pc.toNat % 32)

/-! ### Clause headers -/

/-- A clause header's fields (05 R123); none for a malformed header or a word that is none. -/
def headerOf (pc : BitVec 64) (w : BitVec 64) : Option (Clause × BitVec 12 × Bool) :=
  let fa := bits w 16 4
  let fb := bits w 20 4
  let badSlot := fun (v : BitVec 4) => decide (12 ≤ v.toNat) && decide (v.toNat ≤ 14)
  if bits w 0 2 != 0 || bits w 26 38 != 0 || badSlot fa || badSlot fb then none
  else some ({ start := pc, size := bits w 2 2, fa := fa, fb := fb, rastop := w.getLsbD 25 }, bits w 4 12, w.getLsbD 24)

/-- Whether two strands at one clause start may merge (02 R38). -/
def canMerge (t u : Strand) : Bool :=
  t.id != u.id && t.skein == u.skein && u.pc == t.pc && u.clause.isNone && (u.st == .ready || u.st == .held) && u.wait.isNone &&
    decide (t.fibres.length + u.fibres.length ≤ 32) && t.ra.isNone && u.ra.isNone && t.trap.isNone && u.trap.isNone && t.region.isNone && u.region.isNone

/-- Two strands become one: the older's stamp, the union of fibres, a flag busy in either, the larger horizon (02 R38); the larger wait count, and what
either has issued in place of. (DEDUCED, log 123.) -/
def mergeInto (s : State) (old young : Strand) : State :=
  let s0 := if young.active then leaveActive s young else s
  let m : Strand := { old with
    fibres := sortNat (old.fibres ++ young.fibres), st := .ready, holds := dedup (old.holds ++ young.holds),
    h := if old.h.toNat < young.h.toNat then young.h else old.h, held := old.held ++ young.held, acks := dedup (old.acks ++ young.acks),
    hostAt := if old.hostAt.toNat < young.hostAt.toNat then young.hostAt else old.hostAt, block := none, arith := old.arith ++ young.arith,
    due := old.due || young.due, waitCount := Nat.max old.waitCount young.waitCount, dueCycles := Nat.max old.dueCycles young.dueCycles,
    inPlace := dedup (old.inPlace ++ young.inPlace) }
  let ren := fun (l : List Nat) => if l.contains young.id then dedup (l.map (fun k => if k == young.id then old.id else k)) else l
  let s1 := delStrand (setStrand s0 m) young.id
  { s1 with pend := s1.pend.map (fun p => { p with strands := ren p.strands }), array := s1.array.map (fun a => { a with strands := ren a.strands }),
            strands := s1.strands.map (fun t => { t with inPlace := ren t.inPlace }) }

/-- A strand that reaches a clause start merges with the oldest strand there that qualifies (02 R38); the answer is the strand that goes on. (DEDUCED, log 16.) -/
def mergeAt (s : State) (t : Strand) : State × Strand :=
  match s.strands.find? (canMerge t) with
  | none => (s, t)
  | some u =>
    let older := (s.strands.find? (fun v => v.id == t.id || v.id == u.id)).getD t
    let younger := if older.id = t.id then u else t
    let s1 := mergeInto s older younger
    (s1, nowStrand s1 older)

/-- Q of a context (02 R42). -/
def quantumOf (s : State) (x : Skein) : Nat := match ctxOf s x with | some c => (bits c.fair 0 14).toNat | none => 512

/-- Promotion of every due strand of a spindle together, their order kept; their counts return to zero only as they issue (02 R41). -/
def promoteSpindle (s : State) (sp : Nat) : State :=
  let here := fun (t : Strand) => (match skein? s t.skein with | some x => x.spindle == sp | none => false) && t.due
  let reset := fun (t : Strand) => { t with due := false, dueCycles := 0, inPlace := [] }
  { s with strands := (s.strands.filter here).map reset ++ s.strands.filter (fun t => !here t) }

/-- Whether a promotion takes effect when a strand reaches a clause start (02 R41): it has issued in place of a due strand, and the header has
YIELD, or Q further cycles have passed. (DEDUCED, log 123.) -/
def promotionDue (s : State) (t : Strand) (sp : Nat) (yields : Bool) : Bool :=
  s.strands.any (fun u => (match skein? s u.skein with | some x => x.spindle == sp && u.due && u.inPlace.contains t.id && (yields || decide (quantumOf s x ≤ u.dueCycles)) | none => false))

/-- What a strand comes to at a clause start: a failure (the state after it), a wait, or the clause's first word. (DEDUCED, log 16; DEDUCED, log 123.) -/
def passHeader (s : State) (t0 : Strand) (x : Skein) : State × Option Strand :=
  match fetchBlock s t0 x t0.pc with
  | (s1, .error none) => (s1, none)
  | (s1, .error (some f)) => (if t0.ra.isSome then raStop s1 t0 false else deliver s1 t0 x f, none)
  | (s1, .ok block) =>
    let got := some (t0.pc &&& ~~~31, block)
    let w := BitVec.ofNat 64 (fieldOf (fetchFrom t0.pc block) 0 8)
    match headerOf t0.pc w with
    | none => (decodeFail s1 t0 x .badClause, none)
    | some (c, waits, yields) =>
      if t0.ra.isSome then
        if c.rastop then (raStop s1 t0 false, none)
        else
          let t1 := { t0 with clause := some c, pc := t0.pc + 8, block := got }
          (setStrand s1 t1, some t1)
      else
        let m := mergeAt s1 t0
        let s2 := if promotionDue m.1 m.2 x.spindle yields then promoteSpindle m.1 x.spindle else m.1
        let t := nowStrand s2 m.2
        if t.waitMet waits then
          let t1 := { t with clause := some c, pc := t.pc + 8, st := .ready, waits := 0, block := got }
          (setStrand s2 t1, some t1)
        else (setStrand s2 { t with st := .held, waits := waits }, none)

/-! ### Decoding -/

/-- The fetch block at a strand's PC: the one it is executing, or fetched now. -/
def blockAt (s : State) (t : Strand) (x : Skein) : State × Except (Option Flt) (List Byte) :=
  match t.heldBlock t.pc with
  | some bs => (s, .ok bs)
  | none =>
    match fetchBlock s t x t.pc with
    | (s1, .ok bs) => (updStrand s1 t.id (fun u => { u with block := some (t.pc &&& ~~~31, bs) }), .ok bs)
    | r => r

/-- The instruction at a strand's PC, or what its failure leads to (05 R117, R132, R133). -/
def fetchDecode (s : State) (t : Strand) (x : Skein) : State × Option Instr :=
  match blockAt s t x with
  | (s1, .error none) => (s1, none)
  | (s1, .error (some f)) => (if t.ra.isSome then raStop s1 t false else deliver s1 t x f, none)
  | (s1, .ok block) =>
    let bs := fetchFrom t.pc block
    let w := leNat (bs.take 8)
    if bs.length < lenBytes (BitVec.ofNat 2 w) then (decodeFail s1 t x .fetchCross, none)
    else match decode (privOf s1 t x) bs with
      | .error d => (decodeFail s1 t x d, none)
      | .ok i => ({ s1 with word := bs.take (lenBytes (BitVec.ofNat 2 w)) }, some i)

/-- The estimated energy that a strand's turn has charged to its context: the account's advance (02 R64, R65). -/
def spentBetween (s s1 : State) (x : Skein) : Nat :=
  match ctxOf s x, ctxOf s1 x with
  | some a, some b => (b.jacc - a.jacc).toNat
  | _, _ => 0

/-- After the turn of a strand in runahead: all it charged, the fetch and its walk with it, is counted, and an episode that has passed its cap stops
(02 R64, R65). -/
def raSettle (before s : State) (k : Nat) : State :=
  match strand? before k with
  | none => s
  | some t =>
    match t.ra, skein? before t.skein with
    | some v, some x =>
      let n := spentBetween before s x
      let s1 := updCtx s x.vd x.ctx (fun c => { c with ra := { c.ra with fj := c.ra.fj + BitVec.ofNat 64 n } })
      let s2 := updStrand s1 k (fun u => { u with ra := u.ra.map (fun w => { w with spent := w.spent + n }) })
      let cap := match ctxOf s x with | some c => (bits c.ractl 32 32).toNat | none => 0
      match strand? s2 k with
      | some u => if u.st = .runahead && decide (cap ≠ 0) && decide (cap < v.spent + n) then raStop s2 u true else s2
      | none => s2
    | _, _ => s

/-- What a step turns out to do. -/
inductive Pick where
  /-- An instruction or an event is executed in a state. -/
  | exec (i : Instr) (s : State)
  /-- Nothing more is executed. -/
  | done (s : State)

/-- A strand that issues waits no longer (02 R41). -/
def noWait (s : State) (k : Nat) : State := updStrand s k (fun t => { t with waitCount := 0, due := false, dueCycles := 0, inPlace := [] })

/-- A strand takes its turn: a trap that a completed access left it (04 R109), then the clause header if it stands at one, then its instruction. (DEDUCED, log 22.) -/
def turn (s : State) (k : Nat) : Pick :=
  match strand? s k with
  | none => .done s
  | some t0 =>
    match skein? s t0.skein with
    | none => .done s
    | some x =>
      match (if t0.ra.isNone then t0.arith else []) with
      | f :: rest =>
        let u := { t0 with arith := rest }
        .done (arithTrap (setStrand s u) u x f)
      | [] =>
        let a := match t0.clause with
          | none => passHeader s t0 x
          | some _ => (s, some t0)
        match a with
        | (s1, none) => .done (raSettle s s1 k)
        | (s1, some t1) =>
          match fetchDecode s1 t1 (nowSkein s1 x) with
          | (s2, none) => .done (raSettle s s2 k)
          | (s2, some i) => .exec i (noWait (dropFaulted { s2 with cur := some t1.id } t1) t1.id)

/-! ### Replay entries (15 R342) -/

/-- Whether a page fault of an entry is still to be resolved. -/
def Replay.waits (s : State) (r : Replay) : Bool := match r.token with | some v => (tokensUsed s).contains v | none => false

/-- The entries that may be issued again now: the first of each skein that may run. (DEDUCED, log 64.) -/
def nextReplays (s : State) : List Replay :=
  s.replays.filter (fun r => (s.replays.find? (fun q => q.skein == r.skein)) == some r && !r.waits s &&
    (match skein? s r.skein with | some x => mayRun s x | none => false))

/-- The word of an entry with its guard true and no completion flag: its active fibres and its flags are recorded. -/
def Replay.plainWord (r : Replay) : List Byte :=
  let u := rawOf (leNat (r.word.take 8)) 0
  leBytes 8 (Raw.word { u with guard := 15, setf := 0 }) ++ r.word.drop 8

/-- The registers that an operand field names take a recorded value. -/
def Fibre.recall (f : Fibre) (n : Field8) (v : BitVec 64) : Fibre :=
  if 192 ≤ n.toNat then f
  else if n.toNat % 2 = 1 then f.write n.toNat (bits v 0 32)
  else (f.write n.toNat (bits v 0 32)).write (n.toNat + 1) (bits v 32 32)
def recallG (g : SMap 64) (n : Field8) (v : BitVec 64) : SMap 64 := if n.toNat < 192 then g else mset g (n.toNat - 192) v

/-- The skein as an entry sees it: its active fibres alone, with the recorded operands. -/
def Replay.view (r : Replay) (x : Skein) : Skein :=
  let u := rawOf (leNat (r.word.take 8)) 0
  let fs := r.ops.map (fun o =>
    let f := (x.fibre? o.1).getD { id := o.1, preds := 0, regs := [], live := BitVec.allOnes 48, rel := 0, lastPage := none }
    ((f.recall u.a o.2.1).recall u.b o.2.2.1).recall u.c o.2.2.2)
  let g := match r.ops with
    | o :: _ => recallG (recallG (recallG x.g u.a o.2.1) u.b o.2.2.1) u.c o.2.2.2
    | [] => x.g
  { x with fibres := fs, g := g }

/-- A strand at its creation. -/
def freshStrand (key skein : Nat) (fs : List Nat) (pc : BitVec 64) : Strand :=
  { id := key, skein := skein, fibres := fs, st := .ready, pc := pc, clause := none, waits := 0, waitCount := 0, due := false, dueCycles := 0, inPlace := [],
    holds := [], h := 0, wait := none, again := false, trap := none, region := none, held := [], ra := none, active := false, arith := [], ras := [], acks := [], hostAt := 0, block := none,
    faulted := none }

/-- The strand that issues an entry: the first of those that follow it, or, none of them being left, one that stands in for them (02 R33: what a fibre has
issued is performed also when the fibre has ended). -/
def Replay.strand (s : State) (r : Replay) : State × Strand × Bool :=
  match (r.strands.find? (fun k => (strand? s k).isSome)).bind (strand? s) with
  | some t => (s, t, false)
  | none =>
    let t := freshStrand s.key r.skein (r.ops.map (fun o => o.1)) r.pc
    ({ s with key := s.key + 1, strands := s.strands ++ [t] }, t, true)

/-- The region that an entry acts in: of a COMMIT, the stores that it performs (10 R258); else its strand's open region as it stood when the access was
issued, if it was open then (10 R257). -/
def Replay.region (r : Replay) (t : Strand) (c : Clause) : Option IdemRegion :=
  if r.stores.isEmpty then (t.region.filter (fun g => decide (g.opened ≤ r.id))).map (fun g => { g with stores := g.stores.filter (fun b => decide (b.seq < r.id)) })
  else some { opened := r.id, start := r.pc, clause := c, dest := 0, act := [], used := 0, stores := r.stores }

/-- An entry's word is read as one clause of its own. -/
def Replay.clause (r : Replay) : Clause := { start := r.pc, size := 3, fa := 15, fb := 15, rastop := false }

/-- An entry takes its turn: its word is executed by its strand over the recorded operands. (DEDUCED, log 64.) -/
def replayTurn (s0 : State) (r : Replay) : Pick :=
  match skein? s0 r.skein, decode { priv := true, handler := true } r.plainWord with
  | some x, .ok i =>
    match r.strand s0 with
    | (s, t, ghost) =>
      let t1 : Strand := { t with fibres := r.ops.map (fun o => o.1), pc := r.pc, clause := some r.clause, st := .ready, wait := none, again := true, arith := [],
                                  faulted := none, region := r.region t r.clause }
      let s1 := setStrand (setSkein s (r.view x)) t1
      .exec i { s1 with cur := some t.id, word := r.word, undo := some { strand := t, skein := x, replay := r.id, ghost := ghost } }
  | _, _ => .done (releaseFlags { s0 with replays := s0.replays.filter (fun q => q.id != r.id) } r.id)

/-- The sums of the row that array work is in the middle of, as they stand in its output row (09 R232). -/
def ArrayWork.resumed (x : Skein) (w : ArrayWork) (r : Replay) : ArrayWork :=
  let sums := match w.op with
    | .sstep _ _ _ nc _ _ orow | .slut _ _ nc _ orow => if r.b = 0 then [] else mgetAll x.out (128 * (orow + r.r)) nc
    | .tmma .. => []
  { w with strands := r.strands, r := r.r, b := r.b, sums := sums, flags := r.flags }

/-- After the step that issued an entry: what it put in flight takes the entry's key, so that it holds the entry's flags and keeps its place in issue order,
and follows the entry's strands; the strand and the registers stand as they did before. An entry that waits or has met a page fault stays; a region that its
fault has ended stays ended. -/
def replayDone (before s : State) (u : Undo) : State :=
  match s.replays.find? (fun r => r.id == u.replay), strand? s u.strand.id with
  | some r, some t =>
    let freshP := fun (p : Pending) => decide (before.key ≤ p.id) && p.skein == u.skein.id
    let freshA := fun (a : ArrayWork) => decide (before.key ≤ a.id) && a.skein == u.skein.id
    let fresh := s.pend.any freshP || s.array.any freshA
    let ended := r.stores.isEmpty && (r.region u.strand r.clause).isSome && t.region.isNone
    let closed := fresh || t.pc != r.pc || ended
    let s1 : State := { s with
      pend := s.pend.map (fun p => if freshP p then { p with id := r.id, strands := r.strands } else p),
      array := s.array.map (fun a => if freshA a then { a.resumed u.skein r with id := r.id } else a),
      skeins := updIf (fun x => x.id == u.skein.id) (fun x => { x with fibres := u.skein.fibres, g := u.skein.g }) s.skeins }
    let s2 := match (if u.ghost then none else if ended then u.strand.region else none) with
      | some g =>
        let back : Strand := { t with fibres := u.strand.fibres, holds := u.strand.holds, arith := u.strand.arith }
        if t.st == StrandState.parked then setStrand s1 back else updSkein (setStrand s1 back) u.skein.id (fun x => x.put32 g.dest g.act (fun _ => 1))
      | none => if u.ghost then { s1 with strands := s1.strands.filter (fun v => v.id != u.strand.id) } else setStrand s1 u.strand
    if closed then (let s3 := { s2 with replays := s2.replays.filter (fun q => q.id != r.id) }
                  if fresh then s3 else releaseFlags s3 r.id)
    else
      let tok := match t.wait with | some (.token v) => some v | _ => none
      { s2 with replays := updIf (fun q => q.id == r.id) (fun q => { q with token := tok }) s2.replays }
  | _, _ => s

/-! ### The end of a step -/

/-- At the end of a core cycle of a spindle the wait count of every strand that was ready and took none of its pipes goes up by one; one that reaches Q
is due, and the strands that have taken the pipes have issued in its place (02 R41). -/
def countWaits (s : State) (sp : Nat) (took : List Nat) : State :=
  { s with strands := s.strands.map (fun t =>
      match skein? s t.skein with
      | some x =>
        if x.spindle == sp then
          let u := if t.due then { t with dueCycles := t.dueCycles + 1 + Config.cycles s.steps } else t
          if !took.contains t.id && t.st != .runahead && ready s t then
            let due := t.due || (decide (t.waitCount < quantumOf s x) && decide (quantumOf s x ≤ t.waitCount + 1))
            { u with waitCount := t.waitCount + 1, due := due, inPlace := if due then dedup (t.inPlace ++ took) else t.inPlace }
          else u
        else t
      | none => t) }

/-- A strand has taken a pipe of its spindle; when the four are taken, or no other strand is ready, the core cycle ends (02 R39). (DEDUCED, log 15.) -/
def takePipe (s : State) (k sp : Nat) : State :=
  let took := (spindleOf s sp).cycle ++ [k]
  let s1 := setSpindle s { spindleOf s sp with cycle := took }
  if decide (took.length < 4) && !(readyOn s1 sp).isEmpty then s1
  else countWaits (setSpindle s { spindleOf s sp with cycle := [] }) sp took

/-- Strands that are no longer Ready leave the active set (03 R84). (DEDUCED, log 113.) -/
def settleActive (s : State) : State := (s.strands.filter (fun t => t.active && t.st != .ready)).foldl leaveActive s

/-- The end of every step: wait counts, active sets, writes of the CP path that can be made, empty buckets; then time passes (00 R8). (DESIGN CHOICE, log 3.) -/
def finish (before : State) (after : State) : State :=
  let s := match after.undo with
    | some u => replayDone before after u
    | none => (match after.cur with | some k => raSettle before after k | none => after)
  let s0 := match s.cur with
    | some k =>
      (match (strand? before k).bind (fun t => skein? before t.skein) with
       | some x => takePipe s k x.spindle
       | none => s)
    | none => s
  let s1 := bucketSettle (settleCp (settleActive s0))
  { s1 with cur := none, word := [], undo := none, steps := s1.steps + 1, gtb := if s1.cp.gtbRun then s1.gtb + BitVec.ofNat 64 (Config.elapsed s1.steps) else s1.gtb }

end Sys2Proof.Machine
end

