-- ==== Sys2Proof/Machine/Control.lean ====
section
/-! DEFINITION. Control, fibre, barrier, vote, shuffle and liveness instructions (07 R152 to R165; 05 R139; 02 R32 to R37, R44 to R47). -/
namespace Sys2Proof.Machine

/-! ### Splitting (02 R36, R37) -/

/-- What follows a strand's accesses also follows a strand split from it. -/
def copyFollowers (s : State) (k new : Nat) : State :=
  let f := fun (l : List Nat) => if l.contains k then l ++ [new] else l
  { s with pend := s.pend.map (fun p => { p with strands := f p.strands }), array := s.array.map (fun a => { a with strands := f a.strands }) }

/-- A strand as a group of its fibres goes somewhere: the next word, or a clause start with a return-address stack. -/
def placeGroup (t : Strand) (ras : List (BitVec 64)) (len : Nat) (g : Option (BitVec 64) × List Nat) : Strand :=
  match g.1 with
  | none => { t.advance len with fibres := g.2, wait := none, again := false }
  | some pc => { t.goto pc with fibres := g.2, wait := none, again := false, ras := ras }

/-- Children after the first: stamps just younger than the parent's, in order; each a copy of the parent with a key of its own. -/
def addChildren (s : State) (t : Strand) (ras : List (BitVec 64)) (len : Nat) (after : Nat) : List (Option (BitVec 64) × List Nat) → State
  | [] => s
  | g :: gs =>
    let k := s.key
    let c : Strand := { placeGroup t ras len g with id := k, active := false, held := [], arith := [] }
    let s1 := copyFollowers { s with key := k + 1, strands := insertAfter s.strands after c } t.id k
    addChildren s1 t ras len k gs

/-- Fibres grouped by target, in order of lowest fibre id; the fall-through group first. -/
def groupTargets (all : List Nat) (targets : List (Nat × BitVec 64)) : List (Option (BitVec 64) × List Nat) :=
  let stay := all.filter (fun f => !targets.any (fun p => p.1 == f))
  let tgts := dedup (targets.map (fun p => p.2))
  (if stay.isEmpty then [] else [(none, stay)]) ++ tgts.map (fun a => (some a, (targets.filter (fun p => p.2 == a)).map (fun p => p.1)))

/-- A branch is taken by the fibres listed, with the return-address stack that it leaves; the strand splits where directions differ (02 R36; 07 R154). -/
def branchTo (e : Env) (ras : List (BitVec 64)) (len : Nat) (targets : List (Nat × BitVec 64)) (s : State) : Res :=
  match groupTargets e.t.fibres targets with
  | [] => .moved s
  | [g] => .moved (setStrand s (placeGroup (nowStrand s e.t) ras len g))
  | g :: gs =>
    let t := nowStrand s e.t
    .moved (addChildren (setStrand s (placeGroup t ras len g)) t ras len t.id gs)

/-! ### Branches and calls (07 R152 to R155) -/

/-- S: the start of the clause that holds the instruction; N: the next clause start (07 R151). -/
def clauseStart (t : Strand) : BitVec 64 := match t.clause with | some c => c.start | none => t.pc
def nextClause (t : Strand) : BitVec 64 := match t.clause with | some c => c.start + BitVec.ofNat 64 (32 * (c.size.toNat + 1)) | none => t.pc
/-- The target of an IMM32 branch (05 R124). -/
def immTarget (t : Strand) (imm : BitVec 32) : BitVec 64 := clauseStart t + sext imm 64 * 32

/-- Fields of a branch: where it takes its target from, the link destination if any, whether it is a return. -/
structure BranchOp where
  target : Env → Nat → BitVec 64
  reg : Bool
  link : Option Field8
  ret : Bool

/-- The return-address stack of the fibres that take a branch: a call pushes N on 16 entries, of which the oldest is lost; RET takes the newest (07 R154). (DEDUCED, log 120.) -/
def BranchOp.stack (b : BranchOp) (t : Strand) : List (BitVec 64) :=
  if b.ret then t.ras.tail else if b.link.isSome then (nextClause t :: t.ras).take 16 else t.ras

/-- Targets of a return that its strand's stack did not foretell: each costs the refetch of its block, and nothing else (07 R154). An empty stack foretells
nothing and costs nothing. (DESIGN CHOICE, log 135.) -/
def BranchOp.missed (b : BranchOp) (t : Strand) (targets : List (Nat × BitVec 64)) : Nat :=
  if !b.ret then 0
  else match t.ras with
    | [] => 0
    | p :: _ => ((dedup (targets.map (fun q => q.2))).filter (fun q => q != p)).length

/-- The effect of a branch or call: BAD-TARGET, then TRANSLATION-FAULT, then the link and the move (07 R153); REGION-SPLIT before the link (10 R257). -/
def branch (b : BranchOp) (len : Nat) (e : Env) (s : State) : Res :=
  let ts := e.act.map (fun f => (f, b.target e f))
  match (if b.reg then ts.find? (fun p => bits p.2 0 5 != 0) else none) with
  | some p => .fault s { Flt.plain .execute 0x14 p.1 e.t.pc with va := p.2 }
  | none =>
    match ts.find? (fun p => !canonical p.2) with
    | some p => .fault s { Flt.plain .execute 0x11 p.1 e.t.pc with access := 4, va := p.2 }
    | none =>
      if e.t.region.isSome && decide (2 ≤ (groupTargets e.t.fibres ts).length) then .fault s (Flt.plain .execute 0x1D e.lead e.t.pc)
      else
        let s1 := match b.link with
          | some d => updSkein s e.x.id (fun x => x.put64 d e.act (fun _ => nextClause e.t))
          | none => s
        let n := b.missed e.t ts
        branchTo e (b.stack e.t) len ts (if n = 0 then s1 else charge s1 (acctOf e.x) (millOfSpindle e.x.spindle) 12 n)

/-- Fibres poisoned for the rest of an episode (02 R61). -/
def poison (s : State) (k : Nat) (fs : List Nat) : State :=
  updStrand s k (fun t => { t with ra := t.ra.map (fun v => { v with poisoned := dedup (v.poisoned ++ fs) }) })

/-- A branch in runahead (02 R61): no split; the path of the leading fibre is followed, and the fibres that
disagree are poisoned; a fibre with an INV guard falls through; an INV target in the leading fibre of an indirect branch, RET included, stops; a
target that would fault is not taken. The leading fibre is the lowest-numbered active one that is not poisoned and whose guard is valid. A link is
written as any result is: valid in the fibres that take the path, INV in the others. (DESIGN CHOICE, log 129.) -/
def raBranch (b : BranchOp) (sh : Shape) (e : Env) (s : State) : RaRes :=
  match e.t.ra with
  | none => .stop
  | some v =>
    let takers := e.act.filter (fun f => !v.invPred f (bits sh.ctl.guard 0 4) && !v.poisoned.contains f)
    let invT := fun (f : Nat) => b.reg && sh.reads.any (fun r => v.invReg f r.reg r.wid)
    match takers with
    | [] => raPut sh e s []
    | lead :: _ =>
      if invT lead then .stop
      else
        let pc := b.target e lead
        if (b.reg && bits pc 0 5 != 0) || !canonical pc then raPut sh e s []
        else
          let good := takers.filter (fun f => !invT f && b.target e f == pc)
          match raPut sh e (poison s e.t.id (e.t.fibres.filter (fun f => !good.contains f))) (good.map (fun f => (f, FOut.w64 (nextClause e.t)))) with
          | .next s1 => .moved (updStrand s1 e.t.id (fun t => t.goto pc))
          | r => r

/-- The issue of a branch. -/
def issueBranch (sh : Shape) (b : BranchOp) (s : State) : Out := issue sh (raBranch b sh) (branch b sh.len) s

/-- Every fibre is active whatever GUARD says (BRA, CALL). -/
def allGuard (c : Ctl) : Ctl := { c with guard := 0x0F }

def immBranch (imm : BitVec 32) (link : Option Field8) : BranchOp := { target := fun e _ => immTarget e.t imm, reg := false, link := link, ret := false }
def regBranch (a : Src) (link : Option Field8) : BranchOp := { target := fun e f => e.r64 f a.reg, reg := true, link := link, ret := false }

/-- Shapes of the branches and calls. -/
def shBra (o : OpBranchImm) : Shape := Shape.plain 16 (allGuard o.c) 5
def shBrc (o : OpBranchImm) : Shape := Shape.plain 16 o.c 5
def shBrx (o : OpBranchReg) : Shape := { Shape.plain 8 o.c 5 with reads := [Rd.of o.a .two] }
def shCall (o : OpCall) : Shape := { Shape.plain 16 (allGuard o.c) 5 with writes := [{ reg := o.d, wid := .two }] }
def shCallx (o : OpCallReg) : Shape := { Shape.plain 8 o.c 5 with reads := [Rd.of o.a .two], writes := [{ reg := o.d, wid := .two }] }

/-- DEDUCED, log 26. -/
def execBra (o : OpBranchImm) (s : State) : Out := issueBranch (shBra o) (immBranch o.imm none) s
/-- DEDUCED, log 26. -/
def execBrc (o : OpBranchImm) (s : State) : Out := issueBranch (shBrc o) (immBranch o.imm none) s
/-- DEDUCED, log 26. -/
def execBrx (o : OpBranchReg) (s : State) : Out := issueBranch (shBrx o) (regBranch o.a none) s
def execCall (o : OpCall) (s : State) : Out := issueBranch (shCall o) (immBranch o.imm (some o.d)) s
def execCallx (o : OpCallReg) (s : State) : Out := issueBranch (shCallx o) (regBranch o.a (some o.d)) s
/-- DEDUCED, log 120. -/
def execRet (o : OpBranchReg) (s : State) : Out := issueBranch (shBrx o) { regBranch o.a none with ret := true } s

/-- NOP: one issue, nothing else, whatever its guard (05 R139). -/
def shNop (o : OpC) : Shape := Shape.plain 8 (allGuard o.c) 5
def execNop (o : OpC) (s : State) : Out := issue (shNop o) raNothing (fun _ s => .ok s) s

/-! ### Fibres (07 R156 to R160) -/

/-- A fibre as it is created (02 R31, R32). -/
def newFibre (id : Nat) : Fibre := { id := id, preds := 0, regs := [], live := BitVec.allOnes 48, rel := 0, lastPage := none }

/-- The lowest free ids below FMAX, at most n of them (02 R32). -/
def freeIds (x : Skein) (n : Nat) : List Nat := ((upTo 0 x.fmax).filter (fun i => (x.fibre? i).isNone)).take n

/-- Groups of at most 32; n bounds their number. -/
def chunks32 (l : List Nat) : Nat → List (List Nat)
  | 0 => []
  | n + 1 => if l.isEmpty then [] else l.take 32 :: chunks32 (l.drop 32) n

/-- New strands of a skein at a clause start. Their age stamps make them younger than every other strand. (DESIGN CHOICE, log 130.) -/
def spawnStrands (s : State) (xk : Nat) (pc : BitVec 64) : List (List Nat) → State
  | [] => s
  | fs :: rest =>
    let t : Strand := { id := s.key, skein := xk, fibres := fs, st := .ready, pc := pc, clause := none, waits := 0, waitCount := 0, due := false,
                        dueCycles := 0, inPlace := [], holds := [], h := 0, wait := none, again := false, trap := none, region := none, held := [],
                        ra := none, active := false, arith := [], ras := [], acks := [], hostAt := 0, block := none, faulted := none }
    spawnStrands { s with key := s.key + 1, strands := s.strands ++ [t] } xk pc rest

/-- One active fibre's creations (07 R156): the skein with the new fibres, the result, the new ids. -/
def spawnOne (e : Env) (o : OpSpawn) (x : Skein) (f : Nat) : Skein × List Nat :=
  let ids := freeIds x (e.r32 f o.a.reg).toNat
  let copy := (upTo 0 o.k.toNat).map (fun i => e.r32 f (o.b.reg + BitVec.ofNat 8 i))
  let mk := fun (id : Nat) => (upTo 0 o.k.toNat).foldl (fun (y : Fibre) i => y.write i (copy.getD i 0)) (newFibre id)
  let y := { x with fibres := ids.foldl (fun l id => insertBy (fun (a b : Fibre) => decide (a.id ≤ b.id)) (mk id) l) x.fibres }
  (y.put32 o.d [f] (fun _ => BitVec.ofNat 32 (ids.length * 65536 + (ids.headD 0xFFFF))), ids)

/-- The register lines that the windows of new fibres dirty (03 R79, R80): those that take copied registers, and those of their blocks that have been
written before, where zeros replace what stood there. -/
def spawnKeys (x : Skein) (o : OpSpawn) (ids : List Nat) : List (LineKey × Bool) :=
  let copied := (keysOf x ids (upTo 0 o.k.toNat)).map (fun k => k.1)
  (dedup (ids.map (fun f => f / 32))).flatMap (fun b => (upTo 0 (x.w / 4)).filterMap (fun q =>
    if copied.contains (.vec b q) || x.written.contains (.vec b q) then some (.vec b q, x.fibres.all (fun f => f.id / 32 != b || ids.contains f.id)) else none))

/-- The skein with the fibres that FSPAWN makes and its results, and their ids; a uniform destination takes the lowest-numbered active fibre's result
(03 R75). -/
def spawnAll (o : OpSpawn) (e : Env) (s : State) : Skein × List Nat :=
  let r := e.act.foldl (fun (acc : Skein × List Nat) f => let q := spawnOne e o acc.1 f; (q.1, acc.2 ++ q.2)) (nowSkein s e.x, [])
  (if 192 ≤ o.d.toNat then { r.1 with g := (spawnOne e o (nowSkein s e.x) e.lead).1.g } else r.1, r.2)

/-- FSPAWN (07 R156, 02 R32; 05 R124). -/
def spawn (o : OpSpawn) (e : Env) (s : State) : Res :=
  match e.act.find? (fun f => let n := (e.r32 f o.a.reg).toNat; n == 0 || decide (1024 < n)) with
  | some f => .fault s (Flt.plain .execute 0x15 f e.t.pc)
  | none =>
    let pc := immTarget e.t o.imm
    if !canonical pc then .fault s { Flt.plain .execute 0x11 e.lead e.t.pc with access := 4, va := pc } else
    let r := spawnAll o e s
    match touchAll (setSkein s r.1) e.x.id true (spawnKeys r.1 o r.2) with
    | .error f => .fault s { f with pc := e.t.pc }
    | .ok s1 => .moved (spawnStrands (advanceStrand s1 e.t.id 16) e.x.id pc (chunks32 (sortNat r.2) r.2.length))

def shSpawn (o : OpSpawn) : Shape :=
  { Shape.plain 16 o.c 5 with
    reads := Rd.of o.a .one :: (if o.k = 0 then [] else [Rd.of o.b (.run o.k.toNat)]), writes := [{ reg := o.d, wid := .one }], noIdem := true }
def execFspawn (o : OpSpawn) (s : State) : Out := issue (shSpawn o) raStops (spawn o) s

/-! ### Barriers (02 R44 to R47; 07 R161, R162) -/

/-- The barrier of a scope. -/
def barrierOf (s : State) (x : Skein) (hank : Bool) : Barrier :=
  if hank then (match hank? s x.hank with | some h => h.bar | none => Barrier.reset) else (nowSkein s x).bar
def setBarrier (s : State) (x : Skein) (hank : Bool) (b : Barrier) : State :=
  if hank then { s with hanks := updIf (fun h => h.id == x.hank) (fun h => { h with bar := b }) s.hanks } else updSkein s x.id (fun y => { y with bar := b })

/-- The living fibres that a generation expects when it opens (02 R45). -/
def livingOf (s : State) (x : Skein) (hank : Bool) : List (Nat × Nat) :=
  ((s.skeins.filter (fun y => if hank then y.hank == x.hank else y.id == x.id)).flatMap (fun y => y.fibres.map (fun f => (y.id, f.id))))

/-- A fibre arrives: the generation opens at its first arrival; a fibre that is not expected, or has arrived already, waits for the next one
(02 R45, R46). The answer is the generation arrived in. -/
def arriveFibre (s : State) (x : Skein) (hank : Bool) (f : Nat) : State × Option (BitVec 32) :=
  let b := barrierOf s x hank
  let b1 := if b.opened then b else { b with opened := true, expected := livingOf s x hank, arrived := [] }
  if !b1.expected.contains (x.id, f) || b1.arrived.contains (x.id, f) then (s, none)
  else (setBarrier s x hank { b1 with arrived := (x.id, f) :: b1.arrived }, some b1.g)

/-- A generation completes when every expected fibre has arrived (02 R44). -/
def completeBarrier (s : State) (x : Skein) (hank : Bool) : State × Bool :=
  let b := barrierOf s x hank
  if b.opened && b.expected.all b.arrived.contains then
    (setBarrier s x hank { g := b.g + 1, opened := false, expected := [], arrived := [] }, true)
  else (s, false)

/-- Whether generation g has completed when the counter stands at G (07 R162). -/
def genPassed (G g : BitVec 32) : Bool := let d := (G - g).toNat; decide (1 ≤ d) && decide (d ≤ 2 ^ 31)

/-- A waiting strand's fibres that have still to arrive try to. -/
def arriveWaiting (s : State) (k : Nat) (hank : Bool) : State :=
  match strand? s k with
  | none => s
  | some t =>
    match t.wait, skein? s t.skein with
    | some (.barrier hk ow gens todo bara rel act), some x =>
      if hk != hank then s
      else
        let r := todo.foldl (fun (acc : State × List (Nat × BitVec 32) × List Nat) f =>
          match arriveFibre acc.1 x hank f with
          | (u, some g) => (u, acc.2.1 ++ [(f, g)], acc.2.2)
          | (u, none) => (u, acc.2.1, acc.2.2 ++ [f])) (s, [], [])
        let w : Wait := match bara with
          | some (d, vals) => .barrier hk ow gens r.2.2 (some (d, vals ++ r.2.1)) rel act
          | none => .barrier hk ow (gens ++ r.2.1) r.2.2 none rel act
        updStrand r.1 k (fun u => { u with wait := some w })
    | _, _ => s

/-- A waiting strand's fibres pass, each at its own condition (07 R162); when all have arrived and passed the strand goes on. -/
def passBarrier (s : State) (k : Nat) : State :=
  match strand? s k with
  | none => s
  | some t =>
    match t.wait, skein? s t.skein with
    | some (.barrier hk ow gens0 todo bara rel act), some x =>
      let G := (barrierOf s x hk).g
      let gens := gens0.filter (fun p => !genPassed G p.2)
      if todo.isEmpty && gens.isEmpty then
        let s1 := match bara with
          | some (d, vals) => updSkein s x.id (fun y => y.put32 d (sortNat (vals.map (fun p => p.1))) (fun f => ((vals.find? (fun p => p.1 == f)).map (fun p => p.2)).getD 0))
          | none => s
        advanceStrand (updSkein s1 x.id (fun y => y.free rel act k)) k 8
      else updStrand s k (fun u => { u with wait := some (.barrier hk ow gens todo bara rel act) })
    | _, _ => s

/-- Strands that wait on a barrier. -/
def barrierWaiters (s : State) (x : Skein) (hank : Bool) : List Nat :=
  (s.strands.filter (fun t => (match t.wait with | some (.barrier hk _ _ _ _ _ _) => hk == hank | _ => false) && t.st == .barrier &&
    (match skein? s t.skein with | some y => if hank then y.hank == x.hank else y.id == x.id | none => false))).map (fun t => t.id)

/-- Arrivals, completions and the strands they let go, until nothing more follows; n bounds the rounds. -/
def runBarrier (s : State) (x : Skein) (hank : Bool) : Nat → State
  | 0 => s
  | n + 1 =>
    let ks := barrierWaiters s x hank
    let s1 := ks.foldl (fun u k => arriveWaiting u k hank) s
    match completeBarrier s1 x hank with
    | (s2, true) => runBarrier (ks.foldl passBarrier s2) x hank n
    | (s2, false) => ks.foldl passBarrier s2

/-- A barrier instruction: arrival is a release at the barrier's scope, so earlier writes complete first (02 R47); then the fibres arrive or wait. -/
def barrierInstr (hank : Bool) (w : Env → Wait) (arrives : Bool) (e : Env) (s : State) : Res :=
  if arrives && !fenceMet s e.t (if hank then .hank else .skein) then .stall s .ready (.fence (if hank then .hank else .skein))
  else
    let s1 := updStrand s e.t.id (fun t => { t with st := .barrier, wait := some (w e), again := true })
    .moved (runBarrier s1 e.x hank (s.strands.length + 2))

/-- Shapes of the barrier instructions and of FEND. -/
def shBar (o : OpC) : Shape := { Shape.plain 8 o.c 5 with noIdem := true }
def shBara (o : OpBara) : Shape := { Shape.plain 8 o.c 5 with writes := [{ reg := o.d, wid := .one }], noIdem := true }
def shBarw (o : OpBarw) : Shape := { Shape.plain 8 o.c 5 with reads := [{ (Rd.of o.a .one) with last := false }], noIdem := true }

def execBarSk (o : OpC) (s : State) : Out :=
  issue (shBar o) raStops (barrierInstr false (fun e => .barrier false false [] e.act none [] e.act) true) s
def execBarHk (o : OpC) (s : State) : Out :=
  issue (shBar o) raStops (barrierInstr true (fun e => .barrier true false [] e.act none [] e.act) true) s
def execBara (o : OpBara) (s : State) : Out :=
  issue (shBara o) raStops
    (barrierInstr o.hank (fun e => .barrier o.hank false [] e.act (some (o.d, [])) [] e.act) true) s
def execBarw (o : OpBarw) (s : State) : Out :=
  issue (shBarw o) raStops
    (barrierInstr o.hank (fun e => .barrier o.hank true (e.act.map (fun f => (f, e.r32 f o.a.reg))) [] none
      (if o.a.last then vecRegs [(o.a.reg, .one)] else []) e.act) false) s

/-- Recorded operands after fibres have ended: theirs stand under ids that no fibre has. -/
def endedOps (fs : List Nat) (ops : List (Nat × BitVec 64 × BitVec 64 × BitVec 64)) : List (Nat × BitVec 64 × BitVec 64 × BitVec 64) :=
  ops.map (fun o => if fs.contains o.1 then (o.1 + 65536, o.2) else o)

/-- Fibres end (02 R33): their ids become free, they leave every expected set and every strand; a load of theirs writes nothing. -/
def endFibres (s : State) (x : Skein) (fs : List Nat) : State :=
  let gone := fun (p : Nat × Nat) => p.1 == x.id && fs.contains p.2
  let leave := fun (b : Barrier) => { b with expected := b.expected.filter (fun p => !gone p), arrived := b.arrived.filter (fun p => !gone p) }
  let lives := fun (k : Nat) => s.strands.any (fun t => t.id == k && t.fibres.any (fun f => !fs.contains f))
  let s1 := updSkein s x.id (fun y => { y with fibres := y.fibres.filter (fun f => !fs.contains f.id), bar := leave y.bar, opc := y.opc.filter (fun o => lives o.strand) })
  let s2 := { s1 with
    hanks := updIf (fun h => h.id == x.hank) (fun h => { h with bar := leave h.bar }) s1.hanks,
    strands := (s1.strands.map (fun t => if t.skein == x.id then { t with fibres := t.fibres.filter (fun f => !fs.contains f) } else t)).filter
      (fun t => t.skein != x.id || !t.fibres.isEmpty),
    pend := s1.pend.map (fun p => if p.skein == x.id then
      { p with lanes := p.lanes.map (fun l => if fs.contains l.fibre then { l with fibre := l.fibre + 65536 } else l), ops := endedOps fs p.ops } else p),
    array := s1.array.map (fun a => if a.skein == x.id then { a with ops := endedOps fs a.ops } else a),
    replays := s1.replays.map (fun r => if r.skein == x.id then { r with ops := endedOps fs r.ops } else r) }
  runBarrier (runBarrier s2 x false (s.strands.length + 2)) x true (s.strands.length + 2)

def execFend (o : OpC) (s : State) : Out :=
  issue (shBar o) raStops (fun e s => .ok (endFibres s e.x e.act)) s

/-- FYIELD: the strand becomes the youngest of its spindle (07 R159). -/
def shFyield (o : OpC) : Shape := Shape.plain 8 o.c 5
def execFyield (o : OpC) (s : State) : Out :=
  issue (shFyield o) raNothing (fun e s =>
    let t := { nowStrand s e.t with waitCount := 0 }
    .ok { s with strands := s.strands.filter (fun u => u.id != t.id) ++ [t] }) s

/-- What FID reads (07 R160). -/
def fidValue (e : Env) (f : Nat) (sel : FidSel) : Nat :=
  let h := hank? e.s e.x.hank
  match sel with
  | .fibre => f
  | .rank => e.x.rank
  | .skeins => match h with | some k => k.skeins.length | none => 0
  | .hank => match h with | some k => k.index | none => 0
  | .hanks => match h.bind (fun k => lot? e.s k.lot) with | some l => l.hanks | none => 0
  | .spindle => e.x.spindle
  | .frame => frameOfSpindle e.x.spindle
  | .mill => millOfSpindle e.x.spindle
  | .slot => slotOfSpindle e.x.spindle
  | .fmax => e.x.fmax
  | .window => e.x.w
  | .package => ownPkg e.s

def shFid (o : OpFid) : Shape := { Shape.plain 8 o.c 5 with writes := [{ reg := o.d, wid := .one }] }
def execFid (o : OpFid) (s : State) : Out :=
  issueCompute (shFid o) (fun e f => FOut.w32 (BitVec.ofNat 32 (fidValue e f o.sel))) s

/-! ### Vote, shuffle, liveness (07 R163 to R165) -/

/-- One predicate result. -/
def FOut.p (b : Bool) : FOut := { words := [], preds := [b], flags := 0 }

/-- VOTE's result in a fibre (07 R163). -/
def voteValue (o : OpVote) (e : Env) (f : Nat) : FOut :=
  let q := fun (i : Nat) => e.pred i o.ps != o.pn
  match o.mode with
  | .all => .p (e.act.all q)
  | .any => .p (e.act.any q)
  | .eq => .p (e.act.all (fun i => e.r32 i o.a.reg == e.r32 e.lead o.a.reg))
  | .ballot => .w32 ((e.act.filter (fun i => i / 32 == f / 32 && q i)).foldl (fun (acc : BitVec 32) i => acc ||| BitVec.ofNat 32 (2 ^ (i % 32))) 0)

def shVote (o : OpVote) : Shape :=
  { Shape.plain 8 o.c 5 with
    reads := (match o.mode with | .eq => [Rd.of o.a .one] | _ => []), writes := (match o.mode with | .ballot => [{ reg := o.d, wid := .one }] | _ => []),
    psrc := (match o.mode with | .eq => [] | _ => [o.ps]), pdst := (match o.mode with | .ballot => [] | _ => [bits o.d 0 4]) }
/-- Whether VOTE's result in a fibre is INV (02 R61): a source of a contributing fibre is; to a ballot only the fibres of the reader's block contribute. -/
def voteInv (o : OpVote) : RaView → Env → Nat → Bool := fun v e f =>
  v.inv (shVote o) f || ((match o.mode with | .ballot => e.act.filter (fun i => i / 32 == f / 32) | _ => e.act).any (v.inv (shVote o)))
def execVote (o : OpVote) (s : State) : Out :=
  issue (shVote o) (raCompute (shVote o) (voteInv o) (voteValue o)) (compute (shVote o) (voteValue o)) s

/-- The fibre that SHFL reads for fibre f, if it is active (07 R164). -/
def shflFrom (mode : ShflMode) (e : Env) (f : Nat) (v : BitVec 32) : Option Nat :=
  let j : Int := (f % 32 : Nat)
  let n : Int := v.toNat
  let src : Int := match mode with
    | .idx => n
    | .up => j - n
    | .down => j + n
    | .xor => ((f % 32).xor v.toNat : Nat)
  if 0 ≤ src ∧ src ≤ 31 then (let i := f / 32 * 32 + src.toNat; if e.act.contains i then some i else none) else none

/-- What SHFL gives fibre f, its source operand as v gives it: the chosen fibre's A, or its own. -/
def shflValue (a : Src) (mode : ShflMode) (v : Env → Nat → BitVec 32) (e : Env) (f : Nat) : FOut :=
  { words := [e.r32 ((shflFrom mode e f (v e f)).getD f) a.reg], preds := [(shflFrom mode e f (v e f)).isSome], flags := 0 }
/-- SHFL of either form. -/
def shShfl (len : Nat) (c : Ctl) (d : Field8) (a : Src) (b : List Rd) (mode : ShflMode) (pv : BitVec 4) (v : Env → Nat → BitVec 32) : Shape :=
  { Shape.plain len c 5 with
    reads := Rd.of a .one :: b, writes := [{ reg := d, wid := .one }], pdst := [pv],
    readAt := fun e i => if i = 0 then e.act.map (fun f => (shflFrom mode e f (v e f)).getD f) else e.act }
/-- Whether SHFL's result in a fibre is INV (02 R61): its guard, its own B, or the A that it gets is; its own A counts only when that is what it gets. -/
def shflInv (a : Src) (b : List Rd) (mode : ShflMode) (v : Env → Nat → BitVec 32) (sh : Shape) : RaView → Env → Nat → Bool := fun r e f =>
  r.poisoned.contains f || r.invPred f (bits sh.ctl.guard 0 4) || b.any (fun o => r.invReg f o.reg o.wid) ||
    r.invReg ((shflFrom mode e f (v e f)).getD f) a.reg .one
def shfl (len : Nat) (c : Ctl) (d : Field8) (a : Src) (b : List Rd) (mode : ShflMode) (pv : BitVec 4) (v : Env → Nat → BitVec 32) (s : State) : Out :=
  let sh := shShfl len c d a b mode pv v
  issue sh (raCompute sh (shflInv a b mode v sh) (shflValue a mode v)) (compute sh (shflValue a mode v)) s

def execShfl (o : OpShfl) (s : State) : Out :=
  shfl 8 o.c o.d o.a [Rd.of o.b .one] o.mode o.pv (fun e f => e.r32 f o.b.reg) s
def execShflImm32 (o : OpShflImm) (s : State) : Out := shfl 16 o.c o.d o.a [] o.mode o.pv (fun _ _ => o.imm) s

/-- A fibre's liveness mask is set (07 R165): a quad that becomes live reads as zero and is no longer released. -/
def Fibre.setLive (f : Fibre) (mask : BitVec 48) (w : Nat) : Fibre :=
  (upTo 0 48).foldl (fun (y : Fibre) q =>
    let new := mask.getLsbD q && decide (q < w / 4)
    if new && !y.live.getLsbD q then
      { y with live := y.live ||| BitVec.ofNat 48 (2 ^ q), regs := mclear y.regs (4 * q) (4 * q + 4), rel := y.rel &&& ~~~(BitVec.ofNat 192 (15 * 2 ^ (4 * q))) }
    else if new then y
    else { y with live := y.live &&& ~~~(BitVec.ofNat 48 (2 ^ q)) }) f

def shLive (o : OpLive) : Shape := Shape.plain 16 o.c 5
/-- The lines of quads that LIVE makes live in an active fibre: their zeros are newer than the backing area (03 R79). -/
def liveKeys (o : OpLive) (x : Skein) (act : List Nat) : List (LineKey × Bool) :=
  let born := x.fibres.flatMap (fun f => if act.contains f.id then
    (upTo 0 (x.w / 4)).filterMap (fun q => if o.mask.getLsbD q && !f.live.getLsbD q then some (f.id, q) else none) else [])
  (dedup (born.map (fun p => (p.1 / 32, p.2)))).map (fun k =>
    (.vec k.1 k.2, x.fibres.all (fun f => f.id / 32 != k.1 || born.contains (f.id, k.2))))
def execLive (o : OpLive) (s : State) : Out :=
  issue (shLive o) raNothing (fun e s =>
    match touchAll s e.x.id true (liveKeys o e.x e.act) with
    | .error f => .fault s { f with pc := e.t.pc }
    | .ok s1 => .ok (updSkein s1 e.x.id (fun x => { x with fibres := x.fibres.map (fun f => if e.act.contains f.id then f.setLive o.mask x.w else f) }))) s

end Sys2Proof.Machine
end

