-- ==== Sys2Proof/Machine/Convert.lean ====
section
/-! DEFINITION. Conversions CVT and CVTB (08 R191, R192). -/
namespace Sys2Proof.Machine

def fmtWid (f : Fmt) : Wid := if f.wide then .two else .one

def shCvt (o : OpCvt) : Shape :=
  { Shape.plain 8 o.c 4 with reads := [Rd.of o.a (fmtWid o.src)], writes := [{ reg := o.d, wid := fmtWid o.dst }], traps := true }
def execCvt (o : OpCvt) (s : State) : Out :=
  issueCompute (shCvt o) (fun e f =>
    let b := if o.src.wide then (e.r64 f o.a.reg).toNat else (e.r32 f o.a.reg).toNat
    let r := cvt o.dst o.src o.sat (o.rm.mode e.dyn) b
    { (if o.dst.wide then FOut.w64 (BitVec.ofNat 64 r.1) else FOut.w32 (BitVec.ofNat 32 r.1)) with flags := r.2 }) s

/-- Mantissa width m of a BW field (04 R95); registers of a record, L (08 R192). -/
def bwM (bw : BitVec 3) : Nat := bw.toNat + 2
def recRegs (m : Nat) : Nat := divUp (2 * m + 2) 4
/-- Words of n registers that hold bytes. -/
def wordsOf (bs : List Byte) (n : Nat) : List (BitVec 32) := (upTo 0 n).map (fun i => BitVec.ofNat 32 (fieldOf bs (4 * i) 4))
/-- A run of registers read as bytes. -/
def runBytes (e : Env) (f : Nat) (r : Field8) (n : Nat) : List Byte := (upTo 0 n).flatMap (fun i => toBytes 4 (e.r32 f (r + BitVec.ofNat 8 i)).toNat)

/-- CVTB with DIR 0: sixteen f32 values to a record. -/
def shCvtbTo (o : OpCvtb) : Shape :=
  { Shape.plain 16 o.c 4 with reads := [Rd.of o.a (.run 16)], writes := [{ reg := o.d, wid := .run (recRegs (bwM o.bw)) }], traps := true }
def cvtbTo (o : OpCvtb) (s : State) : Out :=
  let m := bwM o.bw
  issueCompute (shCvtbTo o) (fun e f =>
    let xs := (upTo 0 16).map (fun i => if o.emask.getLsbD i then some (FF.f32.decode (e.r32 f (o.a.reg + BitVec.ofNat 8 i)).toNat) else none)
    let r := toBfp m xs
    { words := wordsOf (r.1.bytes m) (recRegs m), preds := [], flags := r.2 }) s

/-- CVTB with DIR 1: a record to the values that EMASK names; the registers of masked elements are not written. -/
def maskEls (o : OpCvtb) : List Nat := (upTo 0 16).filter (fun i => o.emask.getLsbD i)
def shCvtbFrom (o : OpCvtb) : Shape :=
  { Shape.plain 16 o.c 4 with reads := [Rd.of o.a (.run (recRegs (bwM o.bw)))],
                              writes := (maskEls o).map (fun i => { reg := o.d + BitVec.ofNat 8 i, wid := .one }), traps := true,
                              window := fun w => decide (Nat.min w 192 < o.d.toNat + 16) }
def cvtbFrom (o : OpCvtb) (s : State) : Out :=
  let m := bwM o.bw
  issueCompute (shCvtbFrom o) (fun e f =>
    let x := Bfp.ofBytes m (runBytes e f o.a.reg (recRegs m))
    let rs := (maskEls o).map (fun i => bfpToF32 m x i)
    { words := rs.map (fun r => BitVec.ofNat 32 r.1), preds := [], flags := rs.foldl (fun (a : Flags) r => a ||| r.2) 0 }) s

def execCvtb (o : OpCvtb) (s : State) : Out := if o.dir then cvtbFrom o s else cvtbTo o s

end Sys2Proof.Machine
end

