-- ==== Sys2Proof/Machine/Access.lean ====
section
/-! DEFINITION. What the accesses of an instruction share (08 R194 to R200; 10 R245 to R248, R257; 11 R267): addresses, the checks of every
active fibre, scratchpad addresses, the access put in flight with the flags it holds, and stores held in a region buffer. -/
namespace Sys2Proof.Machine

/-! ### Addresses -/

/-- Addr(f): a pair or uniform register plus the offset (08 R193). -/
def Env.addr (e : Env) (a : Src) (off : BitVec 32) (f : Nat) : BitVec 64 := e.r64 f a.reg + sext off 64
/-- SAddr(f): a single register plus the offset. -/
def Env.saddr (e : Env) (a : Src) (off : BitVec 32) (f : Nat) : BitVec 32 := e.r32 f a.reg + off

/-- The skein and the offset a scratchpad address names (01 R18), when an access of size bytes there is within range. -/
def scrTarget (s : State) (x : Skein) (a : BitVec 32) (size : Nat) : Option (Skein × Nat) :=
  let off := (bits a 0 21).toNat
  let target : Option Skein := if a.getLsbD 24 then
      (hank? s x.hank).bind (fun h => (h.skeins[(bits a 21 3).toNat]?).bind (skein? s))
    else skein? s x.id
  if bits a 25 7 != 0 then none
  else target.filter (fun y => decide (off + size ≤ (bits y.part 6 6).toNat * 65536)) |>.map (fun y => (y, off))

/-- A scratchpad byte's place among all scratchpads: skein key and offset. -/
def scrPlace (sk off : Nat) : Nat := sk * 2 ^ 32 + off
def scrRead (s : State) (place n : Nat) : List Byte :=
  match skein? s (place / 2 ^ 32) with
  | some y => mgetAll y.scr (place % 2 ^ 32) n
  | none => zeros n
/-- A write to a retired skein's scratchpad is accepted and never observed (02 R48). -/
def scrWrite (s : State) (place : Nat) (bs : List Byte) : State :=
  updSkein s (place / 2 ^ 32) (fun y => if y.retired then y else { y with scr := msetAll y.scr (place % 2 ^ 32) bs })

/-- The charge of an instruction's scratchpad accesses: distinct aligned 128-byte units, its own skein's and those through the crossbar (14 R300). -/
def chargeScr (s : State) (x : Skein) (places : List (Nat × Nat)) : State :=
  let units := dedup (places.flatMap (fun p => if p.2 = 0 then [] else (upTo (p.1 / 128) ((p.1 + p.2 - 1) / 128 - p.1 / 128 + 1))))
  let own := units.filter (fun u => u / 2 ^ 25 == x.id)
  let m := millOfSpindle x.spindle
  charge (charge s (acctOf x) m 10 own.length) (acctOf x) m 11 (units.length - own.length)

/-! ### Lanes -/

/-- A lane before its translation. -/
def Lane.mk0 (f : Nat) (va : BitVec 64) (size : Nat) : Lane :=
  { fibre := f, va := va, spa := 0, size := size, data := [], cmp := 0, elem := 0, uncached := false, done := false, fwd := [], tr := none }

/-- How an instruction accesses memory: what it needs of a page, its ACCESS bits, and the space check of an atomic (08 R204). -/
structure Need where
  read : Bool
  write : Bool
  atomic : Bool
  buf : Bool
  path : Nat
  space : State → Nat → Option Nat

/-- A need with no space check. -/
def Need.plain (read write : Bool) : Need := { read := read, write := write, atomic := false, buf := false, path := 0, space := fun _ _ => none }

/-- ACCESS of a fault record for a need (16 R362). -/
def Need.access (n : Need) : Nat := (if n.read then 1 else 0) + (if n.write then 2 else 0) + (if n.atomic then 8 else 0) + 32 * n.path

/-- An execute-class failure of an access. -/
def accFlt (n : Need) (code f : Nat) (pc va : BitVec 64) : Flt := { Flt.plain .execute code f pc with access := n.access, va := va }

/-- The request that a skein's access makes. -/
def skeinReq (x : Skein) (n : Need) (va : BitVec 64) (pf : Bool) : XReq :=
  { vd := x.vd, ctx := x.ctx, mill := millOfSpindle x.spindle, acct := acctOf x, va := va, read := n.read, write := n.write, fetch := false,
    own := false, pf := pf, buf := n.buf }

/-- One fibre's device address through its last-page register, the TLB or a walk; the last-page register then holds the translation (16 R354). -/
def xlateFibre (s : State) (xk f : Nat) (q : XReq) : State × XOut :=
  match skein? s xk with
  | none => (s, .err { cls := .page1, code := 0x20, level := 4, gpa := 0 })
  | some x =>
    match xlate s q ((x.fibre? f).bind (fun y => y.lastPage)) (some x.spindle) with
    | (s1, .ok a t h w) =>
      (updSkein s1 xk (fun y => { y with fibres := updIf (fun z => z.id == f) (fun z => { z with lastPage := some t }) y.fibres }), .ok a t h w)
    | r => r

/-- The second check of R194 over lanes, in order; the lanes come back with their system physical addresses, and with whether a dirty log holds the
write and whether a walk was started. -/
def xlateLanes (n : Need) (xk : Nat) (x : Skein) (pc : BitVec 64) : State → List Lane → State × Except Flt (List Lane × Bool × Bool)
  | s, [] => (s, .ok ([], false, false))
  | s, l :: ls =>
    let q := skeinReq x n l.va false
    match xlateFibre s xk l.fibre q with
    | (s1, .err er) => (s1, .error (er.flt q n.path l.fibre n.atomic pc))
    | (s1, .ok a t held walked) =>
      match n.space s1 (normSpa s1 a) with
      | some code => (s1, .error (accFlt n code l.fibre pc l.va))
      | none =>
        match xlateLanes n xk x pc s1 ls with
        | (s2, .error f) => (s2, .error f)
        | (s2, .ok (rest, h, w)) => (s2, .ok ({ l with spa := normSpa s2 a, uncached := t.uncached, tr := some t } :: rest, h || held, w || walked))

/-- The checks of R194 over lanes: alignment of every lane, then the translation of every lane; the first check that fails, and its lowest fibre. (DEDUCED, log 105.) -/
def checkLanes (n : Need) (xk : Nat) (x : Skein) (pc : BitVec 64) (s : State) (ls : List Lane) : State × Except Flt (List Lane × Bool × Bool) :=
  match ls.find? (fun l => l.size != 0 && l.va.toNat % l.size != 0) with
  | some l => (s, .error (accFlt n 0x10 l.fibre pc l.va))
  | none => xlateLanes n xk x pc s ls

/-- The third check of R194, over scratchpad addresses in order. -/
def rangeScr (s : State) (x : Skein) (pc : BitVec 64) (write : Bool) : List (Lane × BitVec 32) → Except Flt (List Lane)
  | [] => .ok []
  | (l, a) :: ls =>
    match scrTarget s x a l.size with
    | none => .error (accFlt (Need.plain (!write) write) 0x13 l.fibre pc (a.setWidth 64))
    | some (y, off) =>
      match rangeScr s x pc write ls with
      | .error f => .error f
      | .ok rest => .ok ({ l with spa := scrPlace y.id off, va := a.setWidth 64 } :: rest)

/-- The checks of R194 over scratchpad addresses: alignment of every one, then the range of every one. -/
def checkScr (s : State) (x : Skein) (pc : BitVec 64) (write : Bool) (ls : List (Lane × BitVec 32)) : Except Flt (List Lane) :=
  match ls.find? (fun e => e.2.toNat % e.1.size != 0) with
  | some e => .error (accFlt (Need.plain (!write) write) 0x10 e.1.fibre pc (e.2.setWidth 64))
  | none => rangeScr s x pc write ls

/-! ### Putting an access in flight -/

/-- An access of the issuing strand is put in flight and holds the flags that SETF selects; the key is the state's next. -/
def inFlight (s : State) (e : Env) (setf : BitVec 2) (acc : Acc) (lanes : List Lane) (miss held : Bool) (flags : Flags) : State :=
  let p : Pending := { id := s.key, strands := [e.t.id], skein := e.x.id, spindle := e.x.spindle, vd := e.x.vd, ctx := e.x.ctx, acc := acc, lanes := lanes,
                       miss := miss, sent := false, dlogHeld := held, gwct := 0, pc := e.t.pc, flags := flags, tflags := flags, word := s.word, ops := operandsNow e s.word }
  holdFlags { s with pend := s.pend ++ [p], key := s.key + 1 } e.t.id (flagsOf e.t setf) s.key

/-- A later access of a strand waits for an acquire of it that has not been performed (10 R248). -/
def afterAcquire (e : Env) (s : State) (k : State → Res) : Res :=
  match acquiring s e.t with
  | some p => .stall s .ready (.acquire p.id)
  | none => k s

/-- The loads of a strand that have still to be performed. -/
def loadsOf (s : State) (t : Strand) : List Nat :=
  (s.pend.filter (fun p => p.strands.contains t.id && p.acc.memLoad && p.lanes.any (fun l => !l.done))).map (fun p => p.id)
/-- A form that writes memory as it issues waits until every earlier load of its strand has been performed (11 R267). -/
def afterLoads (e : Env) (s : State) (k : State → Res) : Res :=
  if (loadsOf s e.t).isEmpty then k s else .stall s .ready (.skeinWork (loadsOf s e.t))

/-- A form that waits as FENCE at a scope does before its own access (11 R273). -/
def afterFence (e : Env) (sc : Scope) (s : State) (k : State → Res) : Res :=
  if fenceMet s e.t sc then k s else .stall s .ready (.fence sc)

/-- The lines of lanes. -/
def laneLines (ls : List Lane) : List Nat := dedup (ls.map (fun l => l.spa / 128))

/-- The issuing spindle's own copies of lines written are dropped (11 R272). -/
def dropLines (s : State) (sp : Nat) (ls : List Lane) : State := (laneLines ls).foldl (fun u l => dropL1 u sp l) s

/-! ### Region buffers (10 R257) -/

/-- The buffered bytes that a load takes, by offset: the latest store to each byte. -/
def bufferedAt (stores : List BufStore) (va : BitVec 64) (n : Nat) : List (Nat × Byte) :=
  (upTo 0 n).filterMap (fun i =>
    let a := va.toNat + i
    ((stores.filter (fun b => decide (b.va.toNat ≤ a) && decide (a < b.va.toNat + b.bytes.length))).getLast?).bind (fun b =>
      (b.bytes[a - b.va.toNat]?).map (fun v => (i, v))))

/-- The buffered stores of a strand's open region. -/
def regionStores (t : Strand) : List BufStore := match t.region with | some r => r.stores | none => []

/-- A store of the strand goes to its open region's buffer, counting bytes as the rule says; it holds its flags until it is performed or discarded
(05 R128). None when it would pass 16 KiB. -/
def bufferStores (s : State) (e : Env) (setf : BitVec 2) (count : Nat) (ep : Ep) (noal : Bool) (sc : Option Scope) (flags : Nat → Flags) (lanes : List Lane) :
    Option State :=
  match e.t.region with
  | none => none
  | some r =>
    if 16384 < r.used + count then none
    else
      let bs := lanes.map (fun l =>
        ({ seq := s.key, fibre := l.fibre, va := l.va, bytes := l.data, ep := ep, noal := noal, sc := sc, flags := flags l.fibre } : BufStore))
      let s1 := updStrand (bumpKey s) e.t.id (fun t => { t with region := some { r with used := r.used + count, stores := r.stores ++ bs } })
      some (if bs.isEmpty then s1 else holdFlags s1 e.t.id (flagsOf e.t setf) s.key)

end Sys2Proof.Machine
end

