-- ==== Sys2Proof/Machine/LoadStore.lean ====
section
/-! DEFINITION. Loads and stores as they issue (08 R193 to R200): LD, ST, LDS, STS, LDC, LDAQ, STRL. Their effects on memory and registers come
about in LOAD_DATA_RETURN and WRITE_COMPLETE. -/
namespace Sys2Proof.Machine

/-! ### Shapes -/

/-- A load's operands, with or without an offset. -/
structure LoadOp where
  len : Nat
  c : Ctl
  d : Field8
  a : Src
  fmt : Fmt
  ep : Ep
  noal : Bool
  off : BitVec 32

def LoadOp.of (o : OpLoad) : LoadOp := { len := 8, c := o.c, d := o.d, a := o.a, fmt := o.fmt, ep := o.ep, noal := o.noal, off := 0 }
def LoadOp.ofImm (o : OpLoadImm) : LoadOp := { len := 16, c := o.c, d := o.d, a := o.a, fmt := o.fmt, ep := o.ep, noal := o.noal, off := o.imm }
def LoadOp.ofAq (o : OpLdaq) : LoadOp := { len := 8, c := o.c, d := o.d, a := o.a, fmt := o.fmt, ep := o.ep, noal := o.noal, off := 0 }
def LoadOp.ofAqImm (o : OpLdaqImm) : LoadOp := { len := 16, c := o.c, d := o.d, a := o.a, fmt := o.fmt, ep := o.ep, noal := o.noal, off := o.imm }

/-- A store's operands. -/
structure StoreOp where
  len : Nat
  c : Ctl
  a : Src
  b : Src
  fmt : Fmt
  ep : Ep
  noal : Bool
  off : BitVec 32

def StoreOp.of (o : OpStore) : StoreOp := { len := 8, c := o.c, a := o.a, b := o.b, fmt := o.fmt, ep := o.ep, noal := o.noal, off := 0 }
def StoreOp.ofImm (o : OpStoreImm) : StoreOp := { len := 16, c := o.c, a := o.a, b := o.b, fmt := o.fmt, ep := o.ep, noal := o.noal, off := o.imm }
def StoreOp.ofRl (o : OpStrl) : StoreOp := { len := 8, c := o.c, a := o.a, b := o.b, fmt := o.fmt, ep := o.ep, noal := o.noal, off := 0 }
def StoreOp.ofRlImm (o : OpStrlImm) : StoreOp := { len := 16, c := o.c, a := o.a, b := o.b, fmt := o.fmt, ep := o.ep, noal := o.noal, off := o.imm }

/-- The shape of a load; of its address, aw is the width. -/
def LoadOp.shape (o : LoadOp) (aw : Wid) : Shape :=
  { Shape.plain o.len o.c 5 with reads := [Rd.of o.a aw], writes := [{ reg := o.d, wid := fmtWid o.fmt }], late := true, access := true }
def StoreOp.shape (o : StoreOp) (aw : Wid) (noIdem traps : Bool) : Shape :=
  { Shape.plain o.len o.c 5 with reads := [Rd.of o.a aw, Rd.of o.b (fmtWid o.fmt)], noIdem := noIdem, traps := traps, access := true }

/-- The register result of a typed load of bytes (04 R105). -/
def loadOut (fmt : Fmt) (bs : List Byte) : FOut :=
  let r := loadReg fmt (ofBytes bs)
  { (if fmt.wide then FOut.w64 (BitVec.ofNat 64 r.1) else FOut.w32 (BitVec.ofNat 32 r.1)) with flags := r.2 }

/-- The memory result of a typed store in a fibre, rounded under CTX_FPCTL.RM at issue, with its flags (04 R106). -/
def storeBytes (e : Env) (b : Src) (fmt : Fmt) (f : Nat) : List Byte × Flags :=
  let v := if fmt.wide then (e.r64 f b.reg).toNat else (e.r32 f b.reg).toNat
  let r := storeMem fmt e.dyn v
  (toBytes fmt.size r.1, r.2)

/-! ### Loads -/

/-- A load from device virtual memory: the checks, then the access in flight (08 R194, R195). -/
def loadBody (o : LoadOp) (const acq : Bool) (e : Env) (s : State) : Res :=
  afterAcquire e s (fun s =>
    let lanes := e.act.map (fun f => Lane.mk0 f (e.addr o.a o.off f) o.fmt.size)
    match checkLanes (Need.plain true false) e.x.id e.x e.t.pc s lanes with
    | (s1, .error fl) => .fault s1 fl
    | (s1, .ok (ls, _, walked)) =>
      let ls1 := ls.map (fun l => { l with fwd := bufferedAt (regionStores e.t) l.va l.size })
      .ok (inFlight s1 e o.c.setf (.load o.d o.fmt const acq o.ep o.noal) ls1 walked false 0))

/-- A copy of a line that a spindle may read now (11 R269, R272): its lease has not run out, and it was granted after the skein's last save began. (DESIGN CHOICE, log 18.) -/
def l1Usable (s : State) (x : Skein) (line : Nat) : Option L1Copy :=
  (spindleOf s x.spindle).l1.find? (fun c => c.line == line && decide (s.gtb.toNat < c.leaseEnd.toNat) && decide (x.l1From.toNat ≤ c.granted.toNat))

/-- A load in runahead, one fibre after another (02 R60): an L1 hit gives its data; a miss prefetches its line; everything else is INV. The fibre's
last-page register serves it as it serves any load (16 R354). -/
def raLoadFibre (o : LoadOp) (e : Env) (acc : State × List (Nat × FOut) × List Nat) (f : Nat) : State × List (Nat × FOut) × List Nat :=
  let va := e.addr o.a o.off f
  let s := acc.1
  if va.toNat % o.fmt.size ≠ 0 then acc
  else
    let r := xlate s (skeinReq e.x (Need.plain true false) va true) ((e.x.fibre? f).bind (fun y => y.lastPage)) (some e.x.spindle)
    let s2 := countWalk r.1 e.x va r.2
    match r.2 with
    | .err _ => (s2, acc.2)
    | .ok a t _ _ =>
      let spa := normSpa s2 a
      if t.uncached || spaceOf s2 spa != .local_ then (s2, acc.2)
      else
        match l1Usable s2 e.x (spa / 128) with
        | some c =>
          let fw := bufferedAt (regionStores e.t) va o.fmt.size
          let bs := (upTo 0 o.fmt.size).map (fun i => match fw.find? (fun p => p.1 == i) with | some p => p.2 | none => c.bytes.getD (spa % 128 + i) 0)
          let s3 := if acc.2.2.contains (spa / 128) then s2 else charge s2 (acctOf e.x) (millOfSpindle e.x.spindle) 14 1
          (s3, acc.2.1 ++ [(f, loadOut o.fmt bs)], acc.2.2 ++ [spa / 128])
        | none =>
          if acc.2.2.contains (spa / 128) then (s2, acc.2)
          else
            let s3 := (l2Access s2 (acctOf e.x) (spa / 128) false o.noal o.ep true).1
            (countCtx s3 e.x (fun c => { c with ra := { c.ra with pfl := c.ra.pfl + 1 } }), acc.2.1, acc.2.2 ++ [spa / 128])

/-- Fibres whose sources are valid in the runahead view. -/
def raValid (sh : Shape) (e : Env) : List Nat := match e.t.ra with | some v => e.act.filter (fun f => !v.inv sh f) | none => []

/-- DEDUCED, log 32; DEDUCED, log 110. -/
def raLoad (o : LoadOp) (e : Env) (s : State) : RaRes :=
  let r := (raValid (o.shape .two) e).foldl (raLoadFibre o e) (s, [], [])
  raPut (o.shape .two) e r.1 r.2.1

/-- The issue of a load from device virtual memory. -/
def issueLoad (o : LoadOp) (const : Bool) (s : State) : Out := issue (o.shape .two) (raLoad o) (loadBody o const false) s

def execLd (o : OpLoad) (s : State) : Out := issueLoad (LoadOp.of o) false s
def execLdImm32 (o : OpLoadImm) (s : State) : Out := issueLoad (LoadOp.ofImm o) false s
def execLdc (o : OpLoad) (s : State) : Out := issueLoad (LoadOp.of o) true s
def execLdcImm32 (o : OpLoadImm) (s : State) : Out := issueLoad (LoadOp.ofImm o) true s
/-- LDAQ: a load that every later access of the strand waits for (10 R248). -/
def execLdaq (o : OpLdaq) (s : State) : Out := issue ((LoadOp.ofAq o).shape .two) raStops (loadBody (LoadOp.ofAq o) false true) s
def execLdaqImm32 (o : OpLdaqImm) (s : State) : Out := issue ((LoadOp.ofAqImm o).shape .two) raStops (loadBody (LoadOp.ofAqImm o) false true) s

/-- A load from scratchpad (08 R195, R200). -/
def ldsBody (o : LoadOp) (e : Env) (s : State) : Res :=
  afterAcquire e s (fun s =>
    match checkScr s e.x e.t.pc false (e.act.map (fun f => (Lane.mk0 f 0 o.fmt.size, e.saddr o.a o.off f))) with
    | .error fl => .fault s fl
    | .ok ls => .ok (inFlight (chargeScr s e.x (ls.map (fun l => (l.spa, l.size)))) e o.c.setf (.lds o.d o.fmt) ls false false 0))

/-- LDS in runahead: scratchpad is read at once (02 R60). (DEDUCED, log 40.) -/
def raLds (o : LoadOp) (e : Env) (s : State) : RaRes :=
  let ok := (raValid (o.shape .one) e).filterMap (fun f =>
    let a := e.saddr o.a o.off f
    if a.toNat % o.fmt.size ≠ 0 then none else (scrTarget s e.x a o.fmt.size).map (fun p => (f, scrPlace p.1.id p.2)))
  raPut (o.shape .one) e (chargeScr s e.x (ok.map (fun p => (p.2, o.fmt.size)))) (ok.map (fun p => (p.1, loadOut o.fmt (scrRead s p.2 o.fmt.size))))

def issueLds (o : LoadOp) (s : State) : Out := issue (o.shape .one) (raLds o) (ldsBody o) s
def execLds (o : OpLoad) (s : State) : Out := issueLds (LoadOp.of o) s
def execLdsImm32 (o : OpLoadImm) (s : State) : Out := issueLds (LoadOp.ofImm o) s

/-! ### Stores -/

/-- The flags that a store's conversions raise over its active fibres. -/
def storeFlags (o : StoreOp) (e : Env) : Flags := e.act.foldl (fun (a : Flags) f => a ||| (storeBytes e o.b o.fmt f).2) 0

/-- A store to device virtual memory: to the region buffer when a region is open, else in flight, the spindle's own copies dropped (08 R196;
10 R257), where the scope of a STRL is kept with it. Its flags are raised at completion, or at once when the access faults (04 R106, R110). -/
def storeBody (o : StoreOp) (sc : Option Scope) (e : Env) (s : State) : Res :=
  afterAcquire e s (fun s =>
    let fl := storeFlags o e
    let lanes := e.act.map (fun f => { Lane.mk0 f (e.addr o.a o.off f) o.fmt.size with data := (storeBytes e o.b o.fmt f).1 })
    match checkLanes { Need.plain false true with buf := e.t.region.isSome } e.x.id e.x e.t.pc s lanes with
    | (s1, .error f) => .fault (raise s1 e.x.vd e.x.ctx fl) f
    | (s1, .ok (ls, held, _)) =>
      if e.t.region.isSome then
        match bufferStores s1 e o.c.setf (ls.length * 8) o.ep o.noal sc (fun f => (storeBytes e o.b o.fmt f).2) ls with
        | none => .fault (raise s1 e.x.vd e.x.ctx fl) { Flt.plain .execute 0x1C e.lead e.t.pc with access := 2 }
        | some s2 => .ok s2
      else .ok (inFlight (dropLines s1 e.x.spindle ls) e o.c.setf (.store o.ep o.noal) ls false held fl))

def issueStore (o : StoreOp) (s : State) : Out := issue (o.shape .two false true) raNothing (storeBody o none) s
def execSt (o : OpStore) (s : State) : Out := issueStore (StoreOp.of o) s
def execStImm32 (o : OpStoreImm) (s : State) : Out := issueStore (StoreOp.ofImm o) s

/-- STRL waits as FENCE at its scope, then stores (10 R248). -/
def issueStrl (o : StoreOp) (sc : Scope) (s : State) : Out :=
  issue (o.shape .two false true) raStops (fun e s => afterAcquire e s (fun s => afterFence e sc s (storeBody o (some sc) e))) s
def execStrl (o : OpStrl) (s : State) : Out := issueStrl (StoreOp.ofRl o) o.sc s
def execStrlImm32 (o : OpStrlImm) (s : State) : Out := issueStrl (StoreOp.ofRlImm o) o.sc s

/-- A store to scratchpad (08 R196, R200). -/
def stsBody (o : StoreOp) (e : Env) (s : State) : Res :=
  afterAcquire e s (fun s =>
    let fl := storeFlags o e
    let lanes := e.act.map (fun f => ({ Lane.mk0 f 0 o.fmt.size with data := (storeBytes e o.b o.fmt f).1 }, e.saddr o.a o.off f))
    match checkScr s e.x e.t.pc true lanes with
    | .error f => .fault (raise s e.x.vd e.x.ctx fl) f
    | .ok ls => .ok (inFlight (chargeScr s e.x (ls.map (fun l => (l.spa, l.size)))) e o.c.setf .sts ls false false fl))

def issueSts (o : StoreOp) (s : State) : Out := issue (o.shape .one true false) raNothing (stsBody o) s
def execSts (o : OpStore) (s : State) : Out := issueSts (StoreOp.of o) s
def execStsImm32 (o : OpStoreImm) (s : State) : Out := issueSts (StoreOp.ofImm o) s

end Sys2Proof.Machine
end

