-- ==== Sys2Proof/Machine/Atomic.lean ====
section
/-! DEFINITION. Atomics, release stores to a flag and publication as they issue (08 R201 to R204; 10 R249 to R251). -/
namespace Sys2Proof.Machine

/-! ### What an atomic computes -/

/-- The new memory value of an integer atomic (08 R201): old value o, operand b, compare value c, as w-bit patterns. -/
def atomNew (op : AtomOp) (ty : IntTy) (o b c : Nat) : Nat :=
  let m := 2 ^ (if ty.wide then 64 else 32)
  let signed : Bool := match ty with | .s32 | .s64 => true | _ => false
  let val := fun (v : Nat) => if signed && decide (m / 2 ≤ v) then (v : Int) - m else (v : Int)
  match op with
  | .add => (o + b) % m
  | .min => if val b < val o then b else o
  | .max => if val o < val b then b else o
  | .and => Nat.land o b
  | .or => Nat.lor o b
  | .xor => Nat.xor o b
  | .exch => b
  | .cas => if o = c then b else o
  | .inc => if b ≤ o then 0 else o + 1
  | .dec => if o = 0 ∨ b < o then b else o - 1

/-- The new memory value of a float atomic, with its flags (08 R203). -/
def atomfNew (op : AtomFOp) (o b : Nat) : Nat × Flags :=
  let two := fun (k : FF) (flush : Bool) =>
    let dec := fun (v : Nat) => if flush then k.decodeFlush v else k.decode v
    let lo := k.add flush .rne (dec (o % 65536)) (dec (b % 65536))
    let hi := k.add flush .rne (dec (o / 65536)) (dec (b / 65536))
    (hi.1 * 65536 + lo.1, hi.2 ||| lo.2)
  match op with
  | .fadd => FF.f32.add false .rne (FF.f32.decode o) (FF.f32.decode b)
  | .fmin => FF.f32.minmax false false o b
  | .fmax => FF.f32.minmax false true o b
  | .hadd2 => two .f16 false
  | .hadd2bf => two .bf16 true

/-- The space check of an integer atomic (08 R204), of a float one, and of RATOM (10 R250): the code of ATOMIC-SPACE, or none. -/
def atomSpace (op : AtomOp) (s : State) (spa : Nat) : Option Nat :=
  match spaceOf s spa with
  | .local_ | .group _ => none
  | .beyond _ => some 0x18
  | .host => (match op with | .add | .exch | .cas => none | _ => some 0x18)
def atomfSpace (s : State) (spa : Nat) : Option Nat :=
  match spaceOf s spa with
  | .local_ | .group _ => none
  | _ => some 0x18
def ratomSpace (s : State) (spa : Nat) : Option Nat :=
  match spaceOf s spa with
  | .host => some 0x18
  | _ => none

/-! ### Issue -/

/-- ORD (08 R202). -/
def MemOrdAcq : MemOrd → Bool
  | .acquire | .acqRel => true
  | _ => false
def MemOrdRel : MemOrd → Bool
  | .release | .acqRel => true
  | _ => false

/-- Operands of an atomic. -/
structure AtomicOp where
  len : Nat
  c : Ctl
  d : Option Field8
  a : Src
  b : Src
  x : Option Src
  wide : Bool
  sc : Scope
  ord : MemOrd
  off : BitVec 32
  space : State → Nat → Option Nat
  acc : Acc

/-- The width of an atomic's operands. -/
def AtomicOp.wid (o : AtomicOp) : Wid := if o.wide then .two else .one
def AtomicOp.shape (o : AtomicOp) : Shape :=
  { Shape.plain o.len o.c 5 with
    reads := [Rd.of o.a .two, Rd.of o.b o.wid] ++ (match o.x with | some x => [Rd.of x o.wid] | none => []),
    writes := (match o.d with | some d => [{ reg := d, wid := o.wid }] | none => []), late := true, noIdem := true,
    access := true }
/-- A w-bit operand of a fibre. -/
def AtomicOp.val (o : AtomicOp) (e : Env) (f : Nat) (r : Field8) : Nat := if o.wide then (e.r64 f r).toNat else (e.r32 f r).toNat

/-- The effect of an atomic at issue: with ORD 2 or 3 the wait of a FENCE; the checks; the access in flight (08 R202). -/
def atomicBody (o : AtomicOp) (e : Env) (s : State) : Res :=
  let go := fun (s : State) =>
    let n := if o.wide then 8 else 4
    let lanes := e.act.map (fun f =>
      { Lane.mk0 f (e.addr o.a o.off f) n with
        data := toBytes n (o.val e f o.b.reg), cmp := BitVec.ofNat 64 (match o.x with | some x => o.val e f x.reg | none => 0) })
    match checkLanes { Need.plain true true with atomic := true, space := o.space } e.x.id e.x e.t.pc s lanes with
    | (s1, .error f) => Res.fault s1 f
    | (s1, .ok (ls, held, walked)) => .ok (inFlight (dropLines s1 e.x.spindle ls) e o.c.setf o.acc ls walked held 0)
  afterAcquire e s (fun s => if MemOrdRel o.ord then afterFence e o.sc s go else go s)

def issueAtomic (o : AtomicOp) (s : State) : Out := issue o.shape raStops (atomicBody o) s

/-- Operands of ATOM: C is read by CAS only. -/
def AtomicOp.ofAtom (len : Nat) (c : Ctl) (d : Option Field8) (a b x : Src) (op : AtomOp) (ty : IntTy) (sc : Scope) (ord : MemOrd) (off : BitVec 32) : AtomicOp :=
  { len := len, c := c, d := d, a := a, b := b, x := if op = .cas then some x else none, wide := ty.wide, sc := sc, ord := ord, off := off,
    space := atomSpace op, acc := .atom d op ty (MemOrdAcq ord) }
def AtomicOp.ofAtomf (len : Nat) (c : Ctl) (d : Option Field8) (a b : Src) (op : AtomFOp) (sc : Scope) (ord : MemOrd) (off : BitVec 32) : AtomicOp :=
  { len := len, c := c, d := d, a := a, b := b, x := none, wide := false, sc := sc, ord := ord, off := off, space := atomfSpace,
    acc := .atomf d op (MemOrdAcq ord) }
def noSrc : Src := { reg := 0, last := false }
def AtomicOp.ofRed (len : Nat) (c : Ctl) (a b : Src) (op : RedOp) (sc : Scope) (ord : MemOrd) (off : BitVec 32) : AtomicOp :=
  match op with
  | .int op ty => AtomicOp.ofAtom len c none a b noSrc op ty sc ord off
  | .flt op => AtomicOp.ofAtomf len c none a b op sc ord off

def execAtom (o : OpAtom) (s : State) : Out := issueAtomic (AtomicOp.ofAtom 8 o.c (some o.d) o.a o.b o.x o.op o.ty o.sc o.ord 0) s
def execAtomImm32 (o : OpAtomImm) (s : State) : Out := issueAtomic (AtomicOp.ofAtom 16 o.c (some o.d) o.a o.b o.x o.op o.ty o.sc o.ord o.imm) s
def execAtomf (o : OpAtomf) (s : State) : Out := issueAtomic (AtomicOp.ofAtomf 8 o.c (some o.d) o.a o.b o.op o.sc o.ord 0) s
def execAtomfImm32 (o : OpAtomfImm) (s : State) : Out := issueAtomic (AtomicOp.ofAtomf 16 o.c (some o.d) o.a o.b o.op o.sc o.ord o.imm) s
def execRed (o : OpRed) (s : State) : Out := issueAtomic (AtomicOp.ofRed 8 o.c o.a o.b o.op o.sc o.ord 0) s
def execRedImm32 (o : OpRedImm) (s : State) : Out := issueAtomic (AtomicOp.ofRed 16 o.c o.a o.b o.op o.sc o.ord o.imm) s

/-- RATOM: ATOM with the space check of any package's memory (10 R250). -/
def execRatom (o : OpRatom) (s : State) : Out :=
  issueAtomic { AtomicOp.ofAtom 16 o.c (some o.d) o.a o.b o.x o.op o.ty o.sc o.ord o.off with space := ratomSpace } s

/-! ### RSTF and PUBLISH -/

/-- The package whose memory holds an address. -/
def pkgOf (s : State) (spa : Nat) : Option Nat :=
  match spaceOf s spa with
  | .local_ => some (ownPkg s)
  | .group p | .beyond p => some p
  | .host => none

/-- Store operands of RSTF. -/
def StoreOp.ofRstf (o : OpRstf) : StoreOp := { len := 16, c := o.c, a := o.a, b := o.b, fmt := o.fmt, ep := o.ep, noal := o.noal, off := o.off }

/-- RSTF at issue (10 R249): every data address, then the flag from the lead fibre, then RSTF-SPACE; the data and the flag go in flight. (DEDUCED, log 29.) -/
def rstfBody (o : OpRstf) (e : Env) (s : State) : Res :=
  afterAcquire e s (fun s =>
    let st := StoreOp.ofRstf o
    let fl := storeFlags st e
    let bad := fun (s : State) (f : Flt) => Res.fault (raise s e.x.vd e.x.ctx fl) f
    let lanes := e.act.map (fun f => { Lane.mk0 f (e.addr o.a o.off f) o.fmt.size with data := (storeBytes e o.b o.fmt f).1 })
    let n := Need.plain false true
    match checkLanes n e.x.id e.x e.t.pc s lanes with
    | (s1, .error f) => bad s1 f
    | (s1, .ok (ls, held, _)) =>
      match checkLanes n e.x.id e.x e.t.pc s1 [Lane.mk0 e.lead (e.r64 e.lead o.x.reg) 8] with
      | (s2, .error f) => bad s2 f
      | (s2, .ok (fs, held2, _)) =>
        let flag := match fs with | l :: _ => l.spa | [] => 0
        let pk := pkgOf s2 flag
        if pk.isNone || ls.any (fun l => pkgOf s2 l.spa != pk) then bad s2 (accFlt n 0x19 e.lead e.t.pc (e.r64 e.lead o.x.reg))
        else
          let s3 := dropL1 (dropLines s2 e.x.spindle ls) e.x.spindle (flag / 128)
          .ok (inFlight s3 e o.c.setf (.rstf flag (o.inc.toNat + 1) o.sc o.ep o.noal) ls false (held || held2) fl))

def shRstf (o : OpRstf) : Shape :=
  { Shape.plain 16 o.c 5 with
    reads := [Rd.of o.a .two, Rd.of o.b (fmtWid o.fmt), Rd.of o.x .two], noIdem := true, readAt := fun e i => if i = 2 then [e.lead] else e.act,
    access := true }
def execRstf (o : OpRstf) (s : State) : Out := issue (shRstf o) raStops (rstfBody o) s

/-- PUBLISH (10 R251): the wait of a FENCE at system scope, the checks, then the add in flight. -/
def publishBody (o : OpA) (e : Env) (s : State) : Res :=
  afterAcquire e s (fun s => afterFence e .system s (fun s =>
    let n : Need := { Need.plain true true with atomic := true, space := fun s spa => if spaceOf s spa = .host then none else some 0x18 }
    match checkLanes n e.x.id e.x e.t.pc s [Lane.mk0 e.lead (e.r64 e.lead o.a.reg) 8] with
    | (s1, .error f) => .fault s1 f
    | (s1, .ok (ls, held, _)) => .ok (inFlight s1 e o.c.setf .publish ls false held 0)))

/-- A strand instruction reads its sources from the lead fibre (10 R233). -/
def leadShape (len : Nat) (c : Ctl) (reads : List Rd) (writes : List Wr) (noIdem : Bool) : Shape :=
  { Shape.plain len c 5 with reads := reads, writes := writes, noIdem := noIdem, readAt := fun e _ => [e.lead] }

def shPublish (o : OpA) : Shape := { leadShape 8 o.c [Rd.of o.a .two] [] true with access := true }
def execPublish (o : OpA) (s : State) : Out := issue (shPublish o) raStops (publishBody o) s

end Sys2Proof.Machine
end

