-- ==== Sys2Proof/Machine/Landing.lean ====
section
/-! DEFINITION. Accesses in flight taking effect: LOAD_DATA_RETURN, WRITE_COMPLETE and GLOBALLY_COMPLETE (05 R127, R128; 08 R195 to R204;
11 R267 to R282). -/
namespace Sys2Proof.Machine

/-! ### When a part may be performed (11 R267) -/

/-- Whether two parts are of one fibre and overlap. -/
def Lane.clash (a b : Lane) : Bool := a.fibre == b.fibre && decide (a.spa < b.spa + b.size) && decide (b.spa < a.spa + a.size)

/-- The flag of an RSTF that is still to be incremented, as a part of its own: of the fibre that its address is read from (10 R249). -/
def flagPart (q : Pending) : List Lane :=
  match q.acc with
  | .rstf flag .. => [{ Lane.mk0 ((q.lanes.head?).elim 0 (fun l => l.fibre)) 0 8 with spa := flag }]
  | _ => []

/-- Whether an earlier access of the same strand holds back a part of a later one. -/
def holdsBack (q p : Pending) (l : Lane) : Bool :=
  let undone := q.lanes.filter (fun m => !m.done)
  decide (q.id < p.id) && q.strands.any p.strands.contains &&
    ((q.acc.memLoad && p.acc.memWrite && !undone.isEmpty) ||
      ((q.acc.memLoad || q.acc.memWrite) && (p.acc.memLoad || p.acc.memWrite) && (undone ++ flagPart q).any (fun m => m.clash l)) ||
      (q.acc.scratch && p.acc.scratch && undone.any (fun m => m.fibre == l.fibre)))

/-- Whether a part may be performed now. -/
def mayPerform (s : State) (p : Pending) (l : Lane) : Bool :=
  !p.dlogHeld && !l.done && !s.pend.any (fun q => holdsBack q p l) && (p.acc.scratch || !lineBusy s (l.spa / 128))

/-- The parts that are performed together with those asked for: every undone part on the same lines (08 R195, R196); of a COMMIT, the first undone
part, with those of the same instruction on its line (10 R258). -/
def together (p : Pending) (sel : List Nat) : List Nat :=
  let idx := upTo 0 p.lanes.length
  let undone := idx.filter (fun i => match p.lanes[i]? with | some l => !l.done | none => false)
  let line := fun (i : Nat) => (p.lanes[i]?).map (fun l => l.spa / 128)
  match p.acc with
  | .commitStore stores =>
    let seq := fun (i : Nat) => (stores[i]?).map (fun b => b.seq)
    (match undone with
    | [] => []
    | i :: _ => undone.filter (fun j => seq j == seq i && line j == line i))
  | _ =>
    let lines := sel.filterMap line
    undone.filter (fun i => match line i with | some l => lines.contains l | none => false)

/-- Whether a STRL that a region has buffered may be performed: it waits as FENCE at its scope does, over the stores before it (10 R248, R258). -/
def releaseMet (s : State) (p : Pending) (i : Nat) : Bool :=
  match p.acc with
  | .commitStore stores =>
    (match (stores[i]?).bind (fun b => b.sc) with
    | none => true
    | some sc =>
      !s.pend.any (fun q => decide (q.id < p.id) && q.strands.any p.strands.contains && q.acc.writes) &&
        (isNarrow sc || decide (p.gwct.toNat < s.gtb.toNat)) && p.strands.all (fun k => match strand? s k with | some t => scopeMet s t sc | none => true))
  | _ => true

/-- The parts performed by an event that names some of them: none unless every one may be. -/
def performing (s : State) (p : Pending) (sel : List Nat) : List (Nat × Lane) :=
  let ls := (together p sel).filterMap (fun i => (p.lanes[i]?).map (fun l => (i, l)))
  if ls.all (fun l => mayPerform s p l.2 && releaseMet s p l.1) then ls else []

/-- Parts marked as performed. -/
def markDone (s : State) (id : Nat) (is : List Nat) : State :=
  { s with pend := updIf (fun p => p.id == id) (fun p =>
      { p with lanes := (upTo 0 p.lanes.length).filterMap (fun i => (p.lanes[i]?).map (fun l => if is.contains i then { l with done := true } else l)) }) s.pend }
def Pending.allDone (p : Pending) : Bool := p.lanes.all (fun l => l.done)

/-! ### Lines at L1 and at their home slices -/

/-- The account of an access in flight. -/
def Pending.acct (p : Pending) : Acct := (p.vd, some p.ctx)

/-- A line accessed at its home slice, in remote memory or in the host window, with its charges. -/
def homeAccess (s : State) (a : Acct) (line : Nat) (write noal uncached : Bool) (ep : Ep) : State :=
  match spaceOf s (line * 128) with
  | .host => charge s a 10 38 1
  | .beyond _ => fabTrip s a
  | _ => (l2Access s a line write (noal || uncached) (if uncached then .normal else ep) false).1

/-- Whether a line may be copied into L1: not uncached, not in a host window, not beyond the coherent group (08 R198; 11 R280). -/
def copyable (s : State) (line : Nat) (uncached : Bool) : Bool :=
  !uncached && !s.fab.homeOnly.contains line && (match spaceOf s (line * 128) with | .local_ | .group _ => true | _ => false)

/-- A lease on a line (11 R269): the latest end granted is kept at the home slice. -/
def grantLease (s : State) (line : Nat) (e : BitVec 64) : State :=
  if (mget s.mem.leases line).toNat < e.toNat then { s with mem := { s.mem with leases := mset s.mem.leases line e } } else s

/-- The next victim of an L1 partition: the copy that was last made next victim, else one of normal replacement by free choice, else of those made last
victim the one that has been so longest (08 R198). (DESIGN CHOICE, log 6.) -/
def victimL1 (s : State) (p : Nat) (part : List L1Copy) : Option L1Copy :=
  match (part.filter (fun c => c.ep == .first)).getLast? with
  | some v => some v
  | none =>
    let cands := part.filter (fun c => c.ep == .normal)
    match cands with
    | [] => part.head?
    | c :: _ => some ((cands[choose s p cands.length]?).getD c)

/-- A line fills a spindle's L1 under a lease of the context's length, in place of any copy; a full part loses its next victim. -/
def fillL1 (s : State) (sp vd ctx line : Nat) (const : Bool) (ep : Ep) : State :=
  let len := match ctx? s vd ctx with | some c => bits c.lease 0 13 | none => 0x400
  let e := s.gtb + len.setWidth 64
  let x := spindleOf s sp
  let part := x.l1.filter (fun c => c.const == const && c.line != line)
  let kept := if part.length < (if const then 128 else 896) then x.l1
    else match victimL1 s (700 + sp) part with
      | some v => x.l1.erase v
      | none => x.l1
  let copy : L1Copy := { line := line, bytes := readSpa s (line * 128) 128, granted := s.gtb, leaseEnd := e, const := const, ep := ep }
  let s1 := setSpindle s { x with l1 := kept.filter (fun c => c.line != line) ++ [copy] }
  charge (grantLease s1 line e) (vd, some ctx) (millOfSpindle sp) 15 1

/-- A hit takes a hint: the copy stands last among those of its priority (08 R198). -/
def hintL1 (s : State) (sp line : Nat) (ep : Ep) : State :=
  if ep = .normal then s
  else { s with spindles := updIf (fun (z : Spindle) => z.num == sp) (fun z =>
    { z with l1 := z.l1.filter (fun d => d.line != line) ++ (z.l1.filter (fun d => d.line == line)).map (fun d => { d with ep := ep }) }) s.spindles }

/-- Whether a write to a line that issued on a spindle has still to be performed, an RSTF's flag among them (11 R272). -/
def writesPending (s : State) (sp line : Nat) : Bool :=
  s.pend.any (fun q => q.spindle == sp && q.acc.memWrite && (q.lanes.any (fun l => !l.done && l.spa / 128 == line) || (flagPart q).any (fun l => l.spa / 128 == line)))

/-- A load reads a line for its skein: from the L1 copy when one may be used (a copy that differs from the home slice may also have been replaced,
by free choice), else at the home slice, filling L1 unless the hints or a write from the spindle not yet performed forbid it; a copy that is older than what
is read leaves (11 R271). None: poisoned. (DESIGN CHOICE, log 18.) -/
def loadLine (s : State) (p : Pending) (x : Skein) (line : Nat) (uncached const noal : Bool) (ep : Ep) : State × Option (List Byte) :=
  let now := readSpa s (line * 128) 128
  let copy := if copyable s line uncached then (l1Usable s x line).filter (fun c => c.bytes == now || choose s (800 + line) 2 == 0) else none
  match copy with
  | some c => (charge (hintL1 s x.spindle line ep) p.acct (millOfSpindle x.spindle) 14 1, some c.bytes)
  | none =>
    let s0 := if (spindleOf s x.spindle).l1.any (fun c => c.line == line && c.bytes != now) then dropL1 s x.spindle line else s
    let s1 := homeAccess s0 p.acct line false noal uncached ep
    if poisoned s (line * 128) 128 then (s1, none)
    else (if copyable s1 line uncached && !noal && !writesPending s1 x.spindle line then fillL1 s1 x.spindle p.vd p.ctx line const ep else s1, some now)

/-- A write that has left the package, or gone to a host window, is noted with the strands of its access: a fence at the scope of the group waits for the
acknowledgement of the one, a fence at system scope for the host's ordering point of the other (10 R246; 11 R275). (DESIGN CHOICE, log 133.) -/
def noteFar (s s1 : State) (p : Pending) (line : Nat) : State :=
  match spaceOf s (line * 128) with
  | .local_ => s1
  | .host =>
    let at_ := s.gtb + BitVec.ofNat 64 (Config.hostOrder s.steps line)
    { s1 with strands := s1.strands.map (fun t => if p.strands.contains t.id && decide (t.hostAt.toNat < at_.toNat) then { t with hostAt := at_ } else t) }
  | _ =>
    let new := newPackets s s1
    { s1 with strands := s1.strands.map (fun t =>
      if p.strands.contains t.id then { t with acks := t.acks.filter (fun a => (linkOf s1 a.1 a.2.1).unacked.any (fun u => u.1 == a.2.2)) ++ new } else t) }

/-- A write performed at the home slice of its line, some of the bytes from an address: charge, bytes, GWCT into the access; one to a host window has none
(11 R270). An atomic on a line of another package of the coherent group is done at that package's home slice (08 R204). (DEDUCED, log 107.) -/
def homeWrite (s : State) (p : Pending) (line at_ : Nat) (bs : List (Option Byte)) (noal uncached far : Bool) (ep : Ep) : State :=
  let g := gwctOf s line
  let s1 := noteFar s (if far then fabTrip s p.acct else homeAccess s p.acct line true noal uncached ep) p line
  let s2 := writeSome s1 at_ bs
  if spaceOf s (line * 128) = .host then s2
  else { s2 with pend := updIf (fun q => q.id == p.id) (fun q => { q with gwct := if q.gwct.toNat < g.toNat then g else q.gwct }) s2.pend }

/-- The lines that the bytes of a part lie on: one, of a part that is aligned. -/
def Lane.lines (l : Lane) : List Nat := upTo (l.spa / 128) ((l.spa % 128 + l.data.length - 1) / 128 + 1)

/-- The bytes that parts give a line, a later part over an earlier one (08 R196). -/
def linePatch (line : Nat) (ls : List Lane) : List (Option Byte) :=
  (upTo (line * 128) 128).map (fun a =>
    ((ls.filter (fun l => decide (l.spa ≤ a) && decide (a < l.spa + l.data.length))).getLast?).bind (fun l => l.data[a - l.spa]?))

/-! ### Destinations -/

/-- The strand that holds a fibre of a skein. -/
def holderOf (s : State) (xk f : Nat) : Option Strand := s.strands.find? (fun t => t.skein == xk && t.fibres.contains f)

/-- The words of a result written into a fibre's registers from v r. -/
def Fibre.writeAll (f : Fibre) (r : Nat) (ws : List (BitVec 32)) : Fibre :=
  (upTo 0 ws.length).foldl (fun (y : Fibre) i => y.write (r + i) (ws.getD i 0)) f

/-- Results of fibres land in their registers, all from register r on (03 R82): in the checkpoint of a strand in runahead (02 R59, R67), in the lines
otherwise, each line used and charged once; nothing is written for a fibre that has ended (02 R33). -/
def landVecs (s : State) (xk r : Nat) (outs : List (Nat × List (BitVec 32))) : State :=
  let live := outs.filter (fun o => (holderOf s xk o.1).isSome)
  match skein? s xk, live with
  | some x, o :: _ =>
    let keys := keysOf x (live.map (fun q => q.1)) (upTo r o.2.length)
    (match touchAll s xk true keys with
    | .error e => match holderOf s xk o.1 with | some t => deliver s t x { e with pc := t.pc } | none => s
    | .ok s1 =>
      live.foldl (fun u q =>
        match holderOf u xk q.1 with
        | none => u
        | some t =>
          match t.ra with
          | some v =>
            updStrand u t.id (fun w => { w with ra := some { v with saved := v.saved.map (fun y =>
              if y.id == q.1 then
                let z := ({ id := q.1, preds := y.preds, regs := y.regs, live := y.live, rel := y.rel, lastPage := none } : Fibre).writeAll r q.2
                { y with regs := z.regs, live := z.live, rel := z.rel }
              else y) } })
          | none => updSkein u xk (fun y => { y with
              fibres := updIf (fun z => z.id == q.1) (fun z => z.writeAll r q.2) y.fibres,
              opc := y.opc.filter (fun c => !(c.strand == t.id && (upTo r q.2.length).contains c.reg)) }))
        (charge s1 (acctOf x) (millOfSpindle x.spindle) 8 keys.length))
  | _, _ => s

/-- Results land through a D field, each with its part's number: a uniform destination takes the lowest-numbered active fibre's, the first part's
(03 R72, R75). -/
def land (s : State) (p : Pending) (d : Field8) (outs : List (Nat × Lane × FOut)) : State :=
  if d.toNat < 192 then landVecs s p.skein d.toNat (outs.map (fun o => (o.2.1.fibre, o.2.2.words)))
  else match outs.find? (fun o => o.1 == 0) with
    | some o => updSkein s p.skein (fun x => { x with g := mset x.g (d.toNat - 192) (o.2.2.words.getD 1 0 ++ o.2.2.words.getD 0 0) })
    | none => s

/-- Flags raised by parts, kept until their instruction completes; those of them that can trap: of a uniform destination, the first part's (03 R75;
04 R110). (DEDUCED, log 22.) -/
def addFlags (s : State) (id : Nat) (f tf : Flags) : State :=
  if f = 0 then s else { s with pend := updIf (fun p => p.id == id) (fun p => { p with flags := p.flags ||| f, tflags := p.tflags ||| tf }) s.pend }

/-- The flags of results, and those of them whose result is kept. -/
def landFlags (s : State) (id : Nat) (d : Field8) (outs : List (Nat × Lane × FOut)) : State :=
  let all := outs.foldl (fun (a : Flags) o => a ||| o.2.2.flags) 0
  addFlags s id all (if d.toNat < 192 then all else (match outs.find? (fun o => o.1 == 0) with | some o => o.2.2.flags | none => 0))

/-! ### Completion -/

/-- Whether an access's flags can take ARITH-TRAP: typed loads and stores (04 R109). -/
def Acc.arith : Acc → Bool
  | .load .. | .lds .. | .store .. | .sts | .rstf .. | .commitStore _ => true
  | _ => false

/-- An instruction of an access completes: its flags are raised and its completion flags let go, the strands that follow it take its GWCT into H, and the
first of them the trap that is due (04 R109; 05 R125, R128; 10 R245). -/
def finishInstr (s : State) (p : Pending) (key : Nat) (flags tflags : Flags) : State :=
  let s1 := raise (releaseFlags s key) p.vd p.ctx flags
  let traps := if p.acc.arith && trapsOn s1 p.vd p.ctx tflags then (p.strands.find? (fun k => (strand? s1 k).isSome)) else none
  { s1 with strands := s1.strands.map (fun t =>
      if p.strands.contains t.id then
        { t with h := if t.h.toNat < p.gwct.toNat then p.gwct else t.h, arith := if traps == some t.id then t.arith ++ [tflags] else t.arith }
      else t) }

/-- An access whose parts are all done leaves. -/
def complete (s : State) (id : Nat) : State :=
  match pend? s id with
  | none => s
  | some p =>
    let s1 := finishInstr { s with pend := s.pend.filter (fun q => q.id != id) } p id p.flags p.tflags
    updSkein s1 p.skein (fun x => { x with gw := if x.gw.toNat < p.gwct.toNat then p.gwct else x.gw })

/-- The instructions of a COMMIT whose last part has been performed complete (10 R258). -/
def settleCommit (s : State) (id : Nat) (now : List Nat) : State :=
  match pend? s id with
  | none => s
  | some p =>
    match p.acc with
    | .commitStore stores =>
      let idx := upTo 0 stores.length
      let of := fun (q : Nat) => idx.filter (fun i => match stores[i]? with | some b => b.seq == q | none => false)
      (dedup (now.filterMap (fun i => (stores[i]?).map (fun b => b.seq)))).foldl (fun u q =>
        if (of q).all (fun i => match p.lanes[i]? with | some l => l.done | none => true) then
          let fl := (of q).foldl (fun (a : Flags) i => a ||| (match stores[i]? with | some b => b.flags | none => 0)) 0
          finishInstr u p q fl fl
        else u) s
    | _ => s

/-- A completion once every part is done. (DEDUCED, log 22; DEDUCED, log 25.) -/
def settlePend (s : State) (id : Nat) : State :=
  match pend? s id with
  | some p => if p.allDone then complete s id else s
  | none => s

/-- Poisoned data has reached a register or the pool: DATA-ERROR ends the hank; the flags that the access has raised are set (04 R106; 16 R361, R367). -/
def dataError (s : State) (p0 : Pending) (f : Nat) (va : BitVec 64) (line : Nat) : State :=
  let p := (pend? s p0.id).getD p0
  let s1 := raise (releaseFlags { s with pend := s.pend.filter (fun q => q.id != p.id) } p.id) p.vd p.ctx p.flags
  match skein? s1 p.skein with
  | none => s1
  | some x => failHank s1 x { Flt.plain .data 0x40 (f % 65536) p.pc with access := 1, va := va, line := some line }

/-! ### Loads -/

/-- The bytes of a part of a load: those of its line, but for what it takes from a region buffer. -/
def Lane.take (l : Lane) (line : List Byte) : List Byte :=
  (upTo 0 l.size).map (fun i => match l.fwd.find? (fun p => p.1 == i) with | some p => p.2 | none => line.getD (l.spa % 128 + i) 0)

/-- The parts of a load on one line: one copy of the line serves them all (08 R195). -/
def performLoadLine (s : State) (p : Pending) (x : Skein) (d : Field8) (fmt : Fmt) (const noal : Bool) (ep : Ep) (ls : List (Nat × Lane)) : State :=
  match ls with
  | [] => s
  | (_, l0) :: _ =>
    match loadLine s p x (l0.spa / 128) (ls.any (fun l => l.2.uncached)) const noal ep with
    | (s1, none) => dataError s1 p l0.fibre l0.va (l0.spa / 128)
    | (s1, some line) =>
      let outs := ls.map (fun l => (l.1, l.2, loadOut fmt (l.2.take line)))
      markDone (landFlags (land s1 p d outs) p.id d outs) p.id (ls.map (fun l => l.1))

/-- Parts of a load, line by line. -/
def performLoad (s : State) (id : Nat) (d : Field8) (fmt : Fmt) (const noal : Bool) (ep : Ep) (ls : List (Nat × Lane)) : State :=
  (dedup (ls.map (fun l => l.2.spa / 128))).foldl (fun u line =>
    match pend? u id with
    | none => u
    | some p =>
      match skein? u p.skein with
      | none => u
      | some x => performLoadLine u p x d fmt const noal ep (ls.filter (fun l => l.2.spa / 128 == line))) s

/-- Parts of LDS. -/
def performLds (s : State) (p : Pending) (d : Field8) (fmt : Fmt) (ls : List (Nat × Lane)) : State :=
  let outs := ls.map (fun l => (l.1, l.2, loadOut fmt (scrRead s l.2.spa l.2.size)))
  markDone (landFlags (land s p d outs) p.id d outs) p.id (ls.map (fun l => l.1))

/-! ### Atomics -/

/-- The line that an atomic changes is made ready where the atomic is done (08 R204): in L2 for local memory; a line of another package of the coherent
group leaves this package's L2, and its own home slice does the work. -/
def atomicLine (s : State) (a : Acct) (line : Nat) (uncached : Bool) : State :=
  match spaceOf s (line * 128) with
  | .local_ => l2Ensure (charge s a (homeMill s line) 19 1) a line uncached
  | .group _ => (match l2Find s line with | some x => l2Drop (writeBack s a x) line | none => s)
  | _ => s
/-- Whether the home slice of a line is another package's, in the coherent group. -/
def farLine (s : State) (line : Nat) : Bool := match spaceOf s (line * 128) with | .group _ => true | _ => false

/-- One fibre's read-modify-write at the home slice (08 R202); the answer is the state with the old value, none when its line is poisoned. -/
def performAtomic (s : State) (p : Pending) (l : Lane) (f : Nat → Nat → Nat × Flags) : State × Option Nat :=
  let line := l.spa / 128
  let s0 := atomicLine s p.acct line l.uncached
  if poisoned s l.spa l.size then (s0, none)
  else
    let o := readNat s0 l.spa l.size
    let n := f o (ofBytes l.data)
    (addFlags (homeWrite s0 p line l.spa ((toBytes l.size n.1).map some) false l.uncached (farLine s line) .normal) p.id n.2 n.2, some o)

/-- The parts of an atomic, in ascending fibre id. -/
def performAtomics (d : Option Field8) (wide : Bool) (f : Lane → Nat → Nat → Nat × Flags) (id : Nat) : State → List (Nat × Lane) → State
  | s, [] => s
  | s, (i, l) :: ls =>
    match pend? s id with
    | none => s
    | some p =>
      match performAtomic s p l (f l) with
      | (s1, none) => dataError s1 p l.fibre l.va (l.spa / 128)
      | (s1, some o) =>
        let s2 := match d with
          | some d => land s1 p d [(i, l, if wide then FOut.w64 (BitVec.ofNat 64 o) else FOut.w32 (BitVec.ofNat 32 o))]
          | none => s1
        performAtomics d wide f id (markDone s2 id [i]) ls

/-- The parts of an access that is an atomic. -/
def performAtom (s : State) (p : Pending) (ls : List (Nat × Lane)) : State :=
  match p.acc with
  | .atom d op ty _ => performAtomics d ty.wide (fun l o b => (atomNew op ty o b l.cmp.toNat, 0)) p.id s ls
  | .atomf d op _ => performAtomics d false (fun _ o b => atomfNew op o b) p.id s ls
  | .publish => performAtomics none true (fun _ o _ => ((o + 1) % 2 ^ 64, 0)) p.id s ls
  | _ => s

/-! ### Stores -/

/-- Parts of a store to memory, a line at a time, lowest fibre first, so that the highest-numbered fibre's value remains (08 R196). -/
def performStores (noal : Bool) (ep : Ep) (id : Nat) (s : State) (ls : List (Nat × Lane)) : State :=
  markDone ((dedup (ls.flatMap (fun l => l.2.lines))).foldl (fun u line =>
    let mine := (ls.map (fun l => l.2)).filter (fun l => l.lines.contains line)
    match pend? u id with
    | some p => homeWrite u p line (line * 128) (linePatch line mine) noal (mine.any (fun l => l.uncached)) false ep
    | none => u) s) id (ls.map (fun l => l.1))

/-- Parts of STS. -/
def performSts (s : State) (id : Nat) (ls : List (Nat × Lane)) : State :=
  markDone (ls.foldl (fun u l => scrWrite u l.2.spa l.2.data) s) id (ls.map (fun l => l.1))

/-- Whether RSTF's flag may be incremented (10 R249): its data completed and, for SC ≥ 2, globally complete, or acknowledged where it left the package; no
earlier access of the fibre to the flag's bytes is outstanding (11 R267). -/
def rstfReady (s : State) (p : Pending) (sc : Scope) : Bool :=
  p.allDone && (isNarrow sc || (decide (p.gwct.toNat < s.gtb.toNat) && p.strands.all (fun k => match strand? s k with | some t => fabAcked s t | none => true))) &&
    (flagPart p).all (fun l => !s.pend.any (fun q => holdsBack q p l) && !lineBusy s (l.spa / 128))

/-- RSTF's flag is incremented at its home slice, and RSTF completes; the spindle's own copy of its line leaves (11 R272). -/
def rstfFlag (s : State) (p : Pending) (flag inc : Nat) : State :=
  let line := flag / 128
  let s0 := atomicLine (dropL1 s p.spindle line) p.acct line false
  if poisoned s flag 8 then dataError s0 p 0xFFFF 0 line
  else
    complete (homeWrite s0 p line flag ((toBytes 8 ((readNat s0 flag 8 + inc) % 2 ^ 64)).map some) false false (farLine s line) .normal) p.id

/-- RSTF completes when it can. -/
def settleRstf (s : State) (id : Nat) : State :=
  match pend? s id with
  | some p =>
    match p.acc with
    | .rstf flag inc sc _ _ => if rstfReady s p sc then rstfFlag s p flag inc else s
    | _ => s
  | none => s

/-! ### Tiles and accumulators (09 R214, R215) -/

/-- Bytes of an element of a tile or an accumulator. -/
def elemSize (acc : Bool) : Nat := if acc then 4 else 2

/-- An element of a tile register or accumulator takes its bytes; `elem` is 16 i + j. -/
def putElem (x : Skein) (acc : Bool) (r elem : Nat) (bs : List Byte) : Skein :=
  if acc then { x with accs := mset x.accs (256 * r + elem) (BitVec.ofNat 32 (ofBytes bs)) }
  else { x with tiles := mset x.tiles (256 * r + elem) (BitVec.ofNat 16 (ofBytes bs)) }

/-- The line of a tile register that parts of TLD land in is used and charged (03 R79, R80, R82); accumulators have no line. -/
def touchTile (s : State) (p : Pending) (acc : Bool) (r n : Nat) : State :=
  match skein? s p.skein with
  | none => s
  | some x =>
    if acc then s
    else
      match touchLine s x.id (.tile r) true (n == 256) with
      | .error e => (match p.strands.findSome? (strand? s) with | some t => deliver s t x { e with pc := t.pc } | none => s)
      | .ok s1 => charge s1 (acctOf x) (millOfSpindle x.spindle) 8 1

/-- Parts of TLD and ALD. -/
def performMload (s : State) (id : Nat) (acc : Bool) (r : Nat) (sp noal : Bool) (ep : Ep) (ls : List (Nat × Lane)) : State :=
  if sp then
    match pend? s id with
    | none => s
    | some p =>
      markDone (ls.foldl (fun u l => updSkein u p.skein (fun x => putElem x acc r l.2.elem (scrRead u l.2.spa l.2.size))) (touchTile s p acc r ls.length))
        id (ls.map (fun l => l.1))
  else
    (dedup (ls.map (fun l => l.2.spa / 128))).foldl (fun u line =>
      match pend? u id with
      | none => u
      | some p =>
        match skein? u p.skein with
        | none => u
        | some x =>
          let mine := ls.filter (fun l => l.2.spa / 128 == line)
          match loadLine u p x line (mine.any (fun l => l.2.uncached)) false noal ep with
          | (u1, none) => dataError u1 p 0xFFFF ((mine.head?).elim 0 (fun l => l.2.va)) line
          | (u1, some bs) =>
            markDone (mine.foldl (fun w l => updSkein w p.skein (fun y => putElem y acc r l.2.elem (l.2.take bs))) (touchTile u1 p acc r mine.length)) id
              (mine.map (fun l => l.1))) s

/-! ### FEEDPOP (10 R255) -/

/-- The words of a record: byte 4 j + b goes to bits 8 b + 7 to 8 b of word j. -/
def recordWords (bs : List Byte) : List (BitVec 32) := (upTo 0 16).map (fun j => BitVec.ofNat 32 (fieldOf bs (4 * j) 4))

/-- Records that have been popped land in their fibres' registers; a part without a record (size 0) still waits, a poisoned one (elem 1) is an error. -/
def performFeedpop (s : State) (p : Pending) (d : Field8) (ls : List (Nat × Lane)) : State :=
  match ls.find? (fun l => l.2.elem == 1) with
  | some l => dataError s p l.2.fibre l.2.va (l.2.spa / 128)
  | none =>
    let got := ls.filter (fun l => l.2.size != 0)
    markDone (landVecs s p.skein d.toNat (got.map (fun l => (l.2.fibre, recordWords l.2.data)))) p.id (got.map (fun l => l.1))

/-! ### The events -/

/-- LOAD_DATA_RETURN: parts of a load or of an atomic with a destination are performed and their data written; the last one completes it. -/
def execLoadDataReturn (id : Nat) (lanes : List Nat) (s : State) : Out :=
  .next (match pend? s id with
    | none => s
    | some p =>
      let ls := performing s p lanes
      if ls.isEmpty then s
      else
        match p.acc with
        | .load d fmt const _ ep noal => settlePend (performLoad s id d fmt const noal ep ls) id
        | .lds d fmt => settlePend (performLds s p d fmt ls) id
        | .atom (some _) _ _ _ | .atomf (some _) _ _ => settlePend (performAtom s p ls) id
        | .mload acc r _ _ sp ep noal => settlePend (performMload s id acc r sp noal ep ls) id
        | .feedpop d _ _ => settlePend (performFeedpop s p d ls) id
        | _ => s)

/-- WRITE_COMPLETE: parts of a write are performed at their home slices or in scratchpad; the last one brings the GWCT to the strand. -/
def execWriteComplete (id : Nat) (lanes : List Nat) (s : State) : Out :=
  .next (match pend? s id with
    | none => s
    | some p =>
      let ls := performing s p lanes
      match p.acc with
      | .rstf _ _ _ ep noal => settleRstf (if ls.isEmpty then s else performStores noal ep id s ls) id
      | .store ep noal => if ls.isEmpty then s else settlePend (performStores noal ep id s ls) id
      | .mstore _ _ sp ep noal => if ls.isEmpty then s else settlePend (if sp then performSts s id ls else performStores noal ep id s ls) id
      | .commitStore stores =>
        (match ls with
        | [] => s
        | l :: _ =>
          let b := stores[l.1]?
          settlePend (settleCommit (performStores (b.elim false (fun b => b.noal)) (b.elim .normal (fun b => b.ep)) id s ls) id (ls.map (fun l => l.1))) id)
      | .sts => if ls.isEmpty then s else settlePend (performSts s id ls) id
      | .atom none _ _ _ | .atomf none _ _ | .publish => if ls.isEmpty then s else settlePend (performAtom s p ls) id
      | _ => s)

/-- GLOBALLY_COMPLETE: GTB has passed what a strand waits for, so its stalled fence or release form proceeds, and its RSTF flags are incremented. -/
def execGloballyComplete (strand : Nat) (s : State) : Out :=
  .next (match strand? s strand with
    | none => s
    | some t =>
      let mine := (s.pend.filter (fun p => p.strands.contains strand)).map (fun p => p.id)
      let s1 := mine.foldl settleRstf s
      match t.wait with
      | some (.fence sc) => if fenceMet s1 (nowStrand s1 t) sc then updStrand s1 strand (fun u => { u with wait := none }) else s1
      | _ => s1)

end Sys2Proof.Machine
end

