-- ==== Sys2Proof/Machine/Cache.lean ====
section
/-! DEFINITION. Prefetch, cache control, pins and instruction-cache purges (08 R205 to R209), and CACHE_OP_COMPLETE. -/
namespace Sys2Proof.Machine

/-! ### PFT (08 R205) -/

/-- A prefetch under way: the state, the lines it has filled, whether it has stopped. -/
structure PftState where
  s : State
  filled : List Nat
  stopped : Bool

/-- What a prefetch carries from line to line. -/
structure PftOp where
  vd : Nat
  ctx : Nat
  spindle : Nat
  l1 : Bool
  el : Bool
  ra : Bool

/-- One line of a prefetch: fetched to its home slice, or dropped without effect; the prefetch stops where it would evict a line of its own from L2; a
victim in L1 does not stop it. (DESIGN CHOICE, log 132.) -/
def pftLine (o : PftOp) (u : PftState) (va : BitVec 64) : PftState :=
  if u.stopped then u
  else
    let q : XReq := { vd := o.vd, ctx := o.ctx, mill := millOfSpindle o.spindle, acct := (o.vd, some o.ctx), va := va, read := true, write := false,
                      fetch := false, own := false, pf := true, buf := false }
    let r := xlate u.s q none (some o.spindle)
    let s1 := if o.ra && r.2.walked va then updCtx r.1 o.vd o.ctx (fun c => { c with ra := { c.ra with wlk := c.ra.wlk + 1 } }) else r.1
    match r.2 with
    | .err _ => { u with s := s1 }
    | .ok a t _ _ =>
      let spa := normSpa s1 a
      let line := spa / 128
      let skip := t.uncached || (match spaceOf s1 spa with | .local_ => false | .group _ => o.ra | _ => true)
      if skip then { u with s := s1 }
      else
        let present := (l2Find s1 line).isSome
        if !present && !l2Room s1 o.vd line then { u with s := s1 }
        else if !present && (match l2Victim s1 o.vd line with | some v => u.filled.contains v.line | none => false) then { u with s := s1, stopped := true }
        else
          let s2 := (l2Access s1 (o.vd, some o.ctx) line false false (if o.el then .last else .normal) o.ra).1
          let s3 := if o.ra && !present then updCtx s2 o.vd o.ctx (fun c => { c with ra := { c.ra with pfl := c.ra.pfl + 1 } }) else s2
          let busy := s3.pend.any (fun p => p.spindle == o.spindle && p.acc.memWrite && p.lanes.any (fun l => !l.done && l.spa / 128 == line))
          let s4 := if o.l1 && !busy then fillL1 s3 o.spindle o.vd o.ctx line false (if o.el then .last else .normal) else s3
          { u with s := s4, filled := if present then u.filled else line :: u.filled }

/-- n lines from an address; rows; planes; descriptors. -/
def pftLines (o : PftOp) (va : BitVec 64) : Nat → PftState → PftState
  | 0, u => u
  | n + 1, u => pftLine o (pftLines o va n u) (va + BitVec.ofNat 64 (128 * n))
def pftRows (o : PftOp) (base stride : BitVec 64) (e0 : Nat) : Nat → PftState → PftState
  | 0, u => u
  | n + 1, u =>
    let a := base + BitVec.ofNat 64 n * stride
    pftLines o (a &&& ~~~127) ((a.toNat % 128 + e0) / 128 + 1) (pftRows o base stride e0 n u)
def pftPlanes (o : PftOp) (base row plane : BitVec 64) (e0 e1 : Nat) : Nat → PftState → PftState
  | 0, u => u
  | n + 1, u => pftRows o (base + BitVec.ofNat 64 n * plane) row e0 (e1 + 1) (pftPlanes o base row plane e0 e1 n u)
/-- DEDUCED, log 32. -/
def pftAll (o : PftOp) (s : State) (descs : List (BitVec 64 × BitVec 64 × BitVec 64)) (e0 e1 e2 : Nat) : State :=
  (descs.foldl (fun u d => pftPlanes o d.1 d.2.1 d.2.2 e0 e1 (e2 + 1) u) ({ s := s, filled := [], stopped := false } : PftState)).s

/-- Distinct descriptors of fibres. -/
def pftDescs (o : OpPft) (e : Env) (fs : List Nat) : List (BitVec 64 × BitVec 64 × BitVec 64) :=
  dedup (fs.map (fun f => (e.r64 f o.a.reg, e.r64 f o.b.reg, e.r64 f o.x.reg)))
def pftOp (o : OpPft) (x : Skein) (ra : Bool) : PftOp := { vd := x.vd, ctx := x.ctx, spindle := x.spindle, l1 := o.l1, el := o.el, ra := ra }
def shPft (o : OpPft) : Shape := { Shape.plain 16 o.c 5 with reads := [Rd.of o.a .two, Rd.of o.b .two, Rd.of o.x .two] }

/-- PFT issues; in runahead, from the valid fibres, at once and at runahead priority (02 R60). -/
def execPft (o : OpPft) (s : State) : Out :=
  issue (shPft o)
    (fun e s => .next (pftAll (pftOp o e.x true) s (pftDescs o e (raValid (shPft o) e)) o.e0.toNat o.e1.toNat o.e2.toNat))
    (fun e s => afterAcquire e s (fun s =>
      .ok (inFlight s e o.c.setf (.pft o.l1 o.el (pftDescs o e e.act) o.e0.toNat o.e1.toNat o.e2.toNat) [] false false 0))) s

/-! ### CCTL (08 R206) -/

/-- CCTL at issue: each fibre's line is checked for reading. -/
def cctlBody (a : Src) (off : BitVec 32) (cop : CctlOp) (setf : BitVec 2) (e : Env) (s : State) : Res :=
  afterAcquire e s (fun s =>
    match checkLanes (Need.plain true false) e.x.id e.x e.t.pc s (e.act.map (fun f => Lane.mk0 f (e.addr a off f &&& ~~~127) 128)) with
    | (s1, .error f) => .fault s1 f
    | (s1, .ok (ls, _, _)) => .ok (inFlight s1 e setf (.cctl cop) ls false false 0))

def shCctl (len : Nat) (c : Ctl) (a : Src) : Shape := { Shape.plain len c 5 with reads := [Rd.of a .two], access := true }
def execCctl (o : OpCctl) (s : State) : Out := issue (shCctl 8 o.c o.a) raStops (cctlBody o.a 0 o.cop o.c.setf) s
def execCctlImm32 (o : OpCctlImm) (s : State) : Out := issue (shCctl 16 o.c o.a) raStops (cctlBody o.a o.imm o.cop o.c.setf) s

/-- What CCTL does to a line that is present. -/
def cctlLine (cop : CctlOp) (p : Pending) (s : State) (line : Nat) : State :=
  match cop with
  | .invl1 => dropL1 (charge s p.acct (millOfSpindle p.spindle) 14 1) p.spindle line
  | _ =>
    let s1 := charge s p.acct (homeMill s line) 16 1
    match l2Find s1 line with
    | none => s1
    | some x =>
      match cop with
      | .wb => writeBack s1 p.acct x
      | .wbinv => if x.pins.isEmpty then l2Drop (writeBack s1 p.acct x) line else writeBack s1 p.acct x
      | .pri ep => hintL2 (updL2 s1 line (fun y => { y with ep := ep })) line ep
      | .invl1 => s1

/-! ### CPIN and CUNPIN (08 R207, R208) -/

/-- CPIN and CUNPIN at issue: the ranges go with the access. -/
def pinBody (unpin : Bool) (d : Field8) (a : Src) (len : Env → Nat → BitVec 64) (setf : BitVec 2) (e : Env) (s : State) : Res :=
  afterAcquire e s (fun s =>
    .ok (inFlight s e setf (.pin unpin d) (e.act.map (fun f => { Lane.mk0 f (e.r64 f a.reg) 0 with cmp := len e f })) false false 0))
def shPin (o : OpPin) : Shape :=
  { Shape.plain 8 o.c 5 with reads := [Rd.of o.a .two, Rd.of o.b .two], writes := [{ reg := o.d, wid := .one }], late := true, access := true }
def shPinImm (o : OpPinImm) : Shape := { Shape.plain 16 o.c 5 with reads := [Rd.of o.a .two], writes := [{ reg := o.d, wid := .one }], late := true, access := true }
def issuePin (unpin : Bool) (o : OpPin) (s : State) : Out :=
  issue (shPin o) raStops (pinBody unpin o.d o.a (fun e f => e.r64 f o.b.reg) o.c.setf) s
def issuePinImm (unpin : Bool) (o : OpPinImm) (s : State) : Out :=
  issue (shPinImm o) raStops (pinBody unpin o.d o.a (fun _ _ => o.imm.setWidth 64) o.c.setf) s
def execCpin (o : OpPin) (s : State) : Out := issuePin false o s
def execCpinImm32 (o : OpPinImm) (s : State) : Out := issuePinImm false o s
def execCunpin (o : OpPin) (s : State) : Out := issuePin true o s
def execCunpinImm32 (o : OpPinImm) (s : State) : Out := issuePinImm true o s

/-- A line of a range translated, for CPIN with read permission: its number when it is local device memory. -/
def pinXlate (s : State) (p : Pending) (rd : Bool) (va : BitVec 64) : State × Option Nat :=
  let q : XReq := { vd := p.vd, ctx := p.ctx, mill := millOfSpindle p.spindle, acct := p.acct, va := va, read := rd, write := false, fetch := false,
                    own := false, pf := false, buf := false }
  match xlate s q none (some p.spindle) with
  | (s1, .err _) => (s1, none)
  | (s1, .ok a _ _ _) =>
    let spa := normSpa s1 a
    (s1, if spaceOf s1 spa = .local_ then some (spa / 128) else none)
/-- n lines from an address: those that translate, and whether all did. -/
def pinLines (p : Pending) (rd : Bool) (va : BitVec 64) : Nat → State → State × List Nat × Bool
  | 0, s => (s, [], true)
  | n + 1, s =>
    match pinLines p rd va n s with
    | (s1, ls, ok) =>
      match pinXlate s1 p rd (va + BitVec.ofNat 64 (128 * n)) with
      | (s2, some l) => (s2, ls ++ [l], ok)
      | (s2, none) => (s2, ls, false)
/-- The whole lines of a range. -/
def rangeLines (va : BitVec 64) (len : Nat) : Nat := if len = 0 then 0 else (va.toNat % 128 + len - 1) / 128 + 1

/-- Lines pinned by a context; by a VD. -/
def pinnedBy (s : State) (vd ctx line : Nat) : Bool := match l2Find s line with | some x => x.pins.contains (vd, ctx) | none => false
def pinnedVd (s : State) (vd line : Nat) : Bool := match l2Find s line with | some x => x.pins.any (fun q => q.1 == vd) | none => false
/-- Ways in which a VD's pins may stand (17 R384). -/
def pinWays (s : State) (vd : Nat) : Nat := (bits (vdOf s vd).l2share 8 5).toNat

/-- Whether the pins of new lines fit beside those the VD holds in each set. -/
def pinsFit (s : State) (vd : Nat) (new : List Nat) : Bool :=
  let fresh := new.filter (fun l => !pinnedVd s vd l)
  let same := fun (a b : Nat) => homeSlice s a == homeSlice s b && l2Set a == l2Set b
  fresh.all (fun l =>
    decide ((s.mem.l2.filter (fun x => same x.line l && x.pins.any (fun q => q.1 == vd))).length + (fresh.filter (same l)).length ≤ pinWays s vd))

/-- A line is fetched if absent, then pinned for a context; the latest pinned line stands last (17 R386). -/
def pinLine (p : Pending) (s : State) (line : Nat) : State :=
  let s1 := (l2Access s p.acct line false false .normal false).1
  match l2Find s1 line with
  | some x => { s1 with mem := { s1.mem with l2 := s1.mem.l2.filter (fun y => y.line != line) ++ [{ x with pins := x.pins ++ [(p.vd, p.ctx)] }] } }
  | none => s1

/-- CTX_PIN.COUNT moves. -/
def pinCount (s : State) (p : Pending) (up down : Nat) : State :=
  updCtx s p.vd p.ctx (fun c => { c with pin := setBits c.pin 0 (bits c.pin 0 32 + BitVec.ofNat 32 up - BitVec.ofNat 32 down) })

/-- One request of CPIN: status 0 to 3 (08 R207). (DEDUCED, log 30.) -/
def cpinOne (s : State) (p : Pending) (va : BitVec 64) (len : Nat) : State × Nat :=
  match pinLines p true (va &&& ~~~127) (rangeLines va len) s with
  | (s1, _, false) => (s1, 3)
  | (s1, ls, true) =>
    let new := (dedup ls).filter (fun l => !pinnedBy s1 p.vd p.ctx l)
    let c := match ctx? s1 p.vd p.ctx with | some c => c.pin | none => 0
    if (bits c 32 32).toNat < (bits c 0 32).toNat + new.length then (s1, if new.isEmpty then 0 else 1)
    else if !pinsFit s1 p.vd new then (s1, 2)
    else
      -- a line that its home slice cannot take in has no room there either
      let s2 := new.foldl (pinLine p) s1
      if new.all (pinnedBy s2 p.vd p.ctx) then (pinCount s2 p new.length 0, 0) else (s1, 2)

/-- One request of CUNPIN: the lines released. -/
def cunpinOne (s : State) (p : Pending) (va : BitVec 64) (len : Nat) : State × Nat :=
  match pinLines p false (va &&& ~~~127) (rangeLines va len) s with
  | (s1, ls, _) =>
    let mine := (dedup ls).filter (pinnedBy s1 p.vd p.ctx)
    let s2 := mine.foldl (fun u l => updL2 u l (fun x => { x with pins := x.pins.filter (fun q => q != (p.vd, p.ctx)) })) s1
    (pinCount s2 p 0 mine.length, mine.length)

/-- The requests of an instruction in ascending fibre id, each result landing in its fibre. -/
def pinAll (unpin : Bool) (d : Field8) (p : Pending) : State → List (Nat × Lane) → State
  | s, [] => s
  | s, (i, l) :: ls =>
    let r := if unpin then cunpinOne s p l.va l.cmp.toNat else cpinOne s p l.va l.cmp.toNat
    pinAll unpin d p (land r.1 p d [(i, l, FOut.w32 (BitVec.ofNat 32 r.2))]) ls

/-! ### ICINV (08 R209) -/

def icinvBody (a : Src) (len : Env → Nat → BitVec 64) (setf : BitVec 2) (e : Env) (s : State) : Res :=
  afterAcquire e s (fun s => .ok (inFlight s e setf .icinv (e.act.map (fun f => { Lane.mk0 f (e.r64 f a.reg) 0 with cmp := len e f })) false false 0))
def shIcinv (o : OpIcinv) : Shape := { Shape.plain 8 o.c 5 with reads := [Rd.of o.a .two, Rd.of o.b .two], access := true }
def shIcinvImm (o : OpIcinvImm) : Shape := { Shape.plain 16 o.c 5 with reads := [Rd.of o.a .two], access := true }
def execIcinv (o : OpIcinv) (s : State) : Out := issue (shIcinv o) raStops (icinvBody o.a (fun e f => e.r64 f o.b.reg) o.c.setf) s
def execIcinvImm32 (o : OpIcinvImm) (s : State) : Out := issue (shIcinvImm o) raStops (icinvBody o.a (fun _ _ => o.imm.setWidth 64) o.c.setf) s

/-- Instruction-cache blocks of a VD leave every spindle. -/
def icPurge (s : State) (vd : Nat) (p : Nat → Bool) : State :=
  { s with spindles := s.spindles.map (fun x => { x with ic := x.ic.filter (fun b => !(b.vd == vd && p b.spa)) }) }

/-- n pages from the page of an address, each translated as a fetch would; a page that does not translate is skipped. -/
def icinvPages (p : Pending) (lo hi : Nat) : Nat → State → State
  | 0, s => s
  | n + 1, s =>
    let s1 := icinvPages p lo hi n s
    let page := lo / 4096 * 4096 + 4096 * n
    let a := Nat.max page lo
    let b := Nat.min (page + 4096) hi
    let q : XReq := { vd := p.vd, ctx := p.ctx, mill := millOfSpindle p.spindle, acct := p.acct, va := BitVec.ofNat 64 a, read := false, write := false,
                      fetch := true, own := false, pf := false, buf := false }
    match xlate s1 q none (some p.spindle) with
    | (s2, .err _) => s2
    | (s2, .ok a0 _ _ _) =>
      let spa := normSpa s2 a0
      icPurge s2 p.vd (fun x => decide (spa < x + 32) && decide (x < spa + (b - a)))

/-- One range purged. -/
def icinvOne (p : Pending) (s : State) (l : Lane) : State :=
  let len := l.cmp.toNat
  if 2 ^ 56 ≤ len then icPurge s p.vd (fun _ => true)
  else if len = 0 then s
  else icinvPages p l.va.toNat (l.va.toNat + len) ((l.va.toNat % 4096 + len - 1) / 4096 + 1) s

/-! ### CACHE_OP_COMPLETE -/

/-- CACHE_OP_COMPLETE: a prefetch, a cache control, a pin or a purge is carried out, its status written and its flags let go (05 R128). (DEDUCED, log 32.) -/
def execCacheOpComplete (id : Nat) (s : State) : Out :=
  .next (match pend? s id with
    | none => s
    | some p =>
      match p.acc with
      | .pft l1 el descs e0 e1 e2 =>
        complete (pftAll { vd := p.vd, ctx := p.ctx, spindle := p.spindle, l1 := l1, el := el, ra := false } s descs e0 e1 e2) id
      | .cctl cop => complete ((laneLines p.lanes).foldl (cctlLine cop p) s) id
      | .pin unpin d => complete (pinAll unpin d p s ((upTo 0 p.lanes.length).filterMap (fun i => (p.lanes[i]?).map (fun l => (i, l))))) id
      | .icinv => complete (p.lanes.foldl (icinvOne p) s) id
      | _ => s)

end Sys2Proof.Machine
end

