-- ==== Sys2Proof/Machine/Ply.lean ====
section
/-! DEFINITION. Ply streams (09 R225): their expansion, or none for a stream that is not well formed. -/
namespace Sys2Proof.Machine

/-- Tokens from a place in the stream, until n bytes have been produced; the answer is the bytes and the place after the last token. The first
argument bounds the tokens. -/
def plyTokens (bs dict : List Byte) (dn n : Nat) : Nat → Nat → List Byte → Option (List Byte × Nat)
  | 0, at_, out => if out.length = n then some (out, at_) else none
  | k + 1, at_, out =>
    if out.length = n then some (out, at_)
    else
      match bs[at_]? with
      | none => none
      | some t =>
        let v := t.toNat
        if v < 0x80 then
          let lit := (bs.drop (at_ + 1)).take (v + 1)
          if lit.length < v + 1 || n < out.length + lit.length then none
          else plyTokens bs dict dn n k (at_ + 2 + v) (out ++ lit)
        else
          match bs[at_ + 1]? with
          | none => none
          | some x =>
            if v < 0xC0 then
              let run := List.replicate (v - 0x80 + 3) x
              if n < out.length + run.length then none else plyTokens bs dict dn n k (at_ + 2) (out ++ run)
            else if dn ≤ x.toNat then none
            else
              let run := (List.replicate (v - 0xC0 + 1) ((dict.drop (4 * x.toNat)).take 4)).flatten
              if n < out.length + run.length then none else plyTokens bs dict dn n k (at_ + 2) (out ++ run)

/-- OUTLEN of a stream. -/
def plyOutLen (bs : List Byte) : Nat := fieldOf bs 0 4

/-- The expansion of a well-formed stream at the start of bs, with the bytes it reads. -/
def plyExpand (bs : List Byte) : Option (List Byte × Nat) :=
  let dn := fieldOf bs 4 1
  let start := 8 + 4 * dn
  if bs.length < start || fieldOf bs 5 3 != 0 then none
  else plyTokens bs ((bs.drop 8).take (4 * dn)) dn (plyOutLen bs) (plyOutLen bs) start []

end Sys2Proof.Machine
end

