-- ==== Sys2Proof/Machine/Matrix.lean ====
section
/-! DEFINITION. The tile, accumulator and array instructions (09 R210 to R232) as they issue, what TLD to AFRAG compute, and
AR_TRANSFER_COMPLETE. Accumulation steps are taken in ARRAY_STEP. -/
namespace Sys2Proof.Machine

/-! ### The scoreboard (05 R127; 09 R211) -/

/-- Parts of a skein's array state: tile t as t, accumulator a as 16 + a, the output region, the share with the latch. -/
abbrev Part := Nat
def accPart (a : Nat) : Part := 16 + a
def outPart : Part := 24
def latchPart : Part := 25

/-- The parts an access in flight has not finished with. -/
def Acc.parts : Acc → List Part
  | .mload acc r .. | .mstore acc r .. => [if acc then accPart r else r]
  | .wld .. => [latchPart]
  | .sdrain .. => [outPart]
  | _ => []
/-- The parts array work has not finished with. -/
def ArrayOp.parts : ArrayOp → List Part
  | .tmma d a b .. => [accPart d, a, b]
  | .sstep .. | .slut .. => [outPart, latchPart]

/-- The outstanding work of a skein that has not finished with some of the parts. -/
def conflicts (s : State) (xk : Nat) (parts : List Part) : List Nat :=
  (s.pend.filter (fun p => p.skein == xk && p.acc.parts.any parts.contains)).map (fun p => p.id) ++
    (s.array.filter (fun a => a.skein == xk && a.op.parts.any parts.contains)).map (fun a => a.id)
def pendConflicts (s : State) (xk : Nat) (parts : List Part) : List Nat :=
  (s.pend.filter (fun p => p.skein == xk && p.acc.parts.any parts.contains)).map (fun p => p.id)

/-- A skein instruction goes on when nothing it depends on is outstanding. -/
def afterWork (ids : List Nat) (s : State) (k : State → Res) : Res := if ids.isEmpty then k s else .stall s .ready (.skeinWork ids)

/-! ### Checks (09 R212) -/

def execFlt (e : Env) (code detail : Nat) : Flt := { Flt.plain .execute code e.lead e.t.pc with detail := detail }
/-- ACC of a skein's partition word, and the rows of its output region (09 R220). -/
def accGran (x : Skein) : Nat := (bits x.part 12 6).toNat
def outRows (x : Skein) : Nat := accGran x * 128 - 16
/-- NO-ACCUMULATOR (01 R17). -/
def needAcc (e : Env) (s : State) (k : State → Res) : Res := if accGran e.x = 0 then .fault s (execFlt e 0x16 0) else k s

/-- Scratchpad ranges checked in order: their places, or the address of the first that fails SCRATCH-RANGE. -/
def scrRanges (s : State) (x : Skein) : List (BitVec 32 × Nat) → Except Nat (List Nat)
  | [] => .ok []
  | (a, n) :: rs =>
    match scrTarget s x a n with
    | none => .error a.toNat
    | some (y, off) =>
      match scrRanges s x rs with
      | .error f => .error f
      | .ok l => .ok (scrPlace y.id off :: l)
/-- SCRATCH-RANGE of an array instruction. -/
def rangeFlt (e : Env) (va : Nat) : Flt := { execFlt e 0x13 0 with access := 64, va := BitVec.ofNat 64 va }

/-- MISALIGNED of an operand. -/
def misaligned (e : Env) (path va : Nat) : Flt := { execFlt e 0x10 0 with access := 32 * path, va := BitVec.ofNat 64 va }

/-- Tile registers are used: their register lines (03 R79, R80). -/
def useTiles (s : State) (e : Env) (reads writes : List Nat) (k : State → Res) : Res :=
  match touchAll s e.x.id false (reads.map (fun t => (LineKey.tile t, false))) with
  | .error f => .fault s { f with pc := e.t.pc }
  | .ok s1 =>
    match touchAll s1 e.x.id true (writes.map (fun t => (LineKey.tile t, true))) with
    | .error f => .fault s1 { f with pc := e.t.pc }
    | .ok s2 => k s2

/-- A skein instruction: sources from the lead fibre; it stops a runahead episode (09 R210). -/
def skeinShape (len : Nat) (c : Ctl) (reads : List Rd) (noIdem : Bool) : Shape := leadShape len c reads [] noIdem
def issueSkein (sh : Shape) (body : Env → State → Res) (s : State) : Out := issue sh raStops (fun e s => afterAcquire e s (body e)) s

/-! ### TLD, TST, ALD, AST (09 R214, R215) -/

/-- Operands of the four. -/
structure MoveOp where
  c : Ctl
  acc : Bool
  r : Nat
  a : Src
  b : Src
  sp : Bool
  tr : Bool
  ep : Ep
  noal : Bool
  off : BitVec 32
  rows : Nat
  cols : Nat
def MoveOp.ofTile (o : OpTileXfer) : MoveOp :=
  { c := o.c, acc := false, r := o.r.toNat, a := o.a, b := o.b, sp := o.sp, tr := o.tr, ep := o.ep, noal := o.noal, off := o.off,
    rows := o.rows.toNat + 1, cols := o.cols.toNat + 1 }
def MoveOp.ofAcc (o : OpAccXfer) : MoveOp :=
  { c := o.c, acc := true, r := o.r.toNat, a := o.a, b := o.b, sp := o.sp, tr := o.tr, ep := o.ep, noal := o.noal, off := o.off,
    rows := o.rows.toNat + 1, cols := o.cols.toNat + 1 }
def MoveOp.shape (o : MoveOp) : Shape := { skeinShape 16 o.c [Rd.of o.a (if o.sp then .one else .two), Rd.of o.b .one] false with access := true }

/-- The elements of the clipped region, in the order i, then j. -/
def MoveOp.elems (o : MoveOp) : List (Nat × Nat) := (upTo 0 o.rows).flatMap (fun i => (upTo 0 o.cols).map (fun j => (i, j)))
/-- a[i][j] of a base. -/
def MoveOp.at_ (o : MoveOp) (e : Env) (base : BitVec 64) (ij : Nat × Nat) : BitVec 64 :=
  let s : BitVec 64 := sext (e.r32 e.lead o.b.reg) 64
  let z := elemSize o.acc
  let p := if o.tr then (ij.2, ij.1) else ij
  base + BitVec.ofNat 64 p.1 * s + BitVec.ofNat 64 (z * p.2)

/-- The lanes of the region, checked: alignment first, then translation or the scratchpad's bounds. -/
def MoveOp.lanes (o : MoveOp) (e : Env) (s : State) (write : Bool) (data : Nat → List Byte) : State × Except Flt (List Lane × Bool × Bool) :=
  let z := elemSize o.acc
  let base := if o.sp then (e.saddr o.a o.off e.lead).setWidth 64 else e.addr o.a o.off e.lead
  let ls := o.elems.map (fun ij => { Lane.mk0 e.lead (o.at_ e base ij) z with elem := 16 * ij.1 + ij.2, data := data (16 * ij.1 + ij.2) })
  let n := { Need.plain (!write) write with buf := write && e.t.region.isSome }
  match ls.find? (fun l => l.va.toNat % z != 0) with
  | some l => (s, .error (accFlt n 0x10 e.lead e.t.pc l.va))
  | none =>
    if o.sp then
      match checkScr s e.x e.t.pc write (ls.map (fun l => (l, bits l.va 0 32))) with
      | .error f => (s, .error f)
      | .ok r => (chargeScr s e.x (r.map (fun l => (l.spa, l.size))), .ok (r, false, false))
    else checkLanes n e.x.id e.x e.t.pc s ls

/-- TLD and ALD: every other element of the register is zero; the region's come from memory. -/
def moveIn (o : MoveOp) (e : Env) (s : State) : Res :=
  afterWork (conflicts s e.x.id [if o.acc then accPart o.r else o.r]) s (fun s =>
    let go := fun (s : State) =>
      match o.lanes e s false (fun _ => []) with
      | (s1, .error f) => Res.fault s1 f
      | (s1, .ok (ls, _, walked)) =>
        useTiles s1 e [] (if o.acc then [] else [o.r]) (fun s2 =>
          let ls1 := if o.sp then ls else ls.map (fun l => { l with fwd := bufferedAt (regionStores e.t) l.va l.size })
          let s3 := updSkein s2 e.x.id (fun x =>
            if o.acc then { x with accs := mclear x.accs (256 * o.r) (256 * o.r + 256) } else { x with tiles := mclear x.tiles (256 * o.r) (256 * o.r + 256) })
          .ok (inFlight s3 e o.c.setf (.mload o.acc o.r o.rows o.cols o.sp o.ep o.noal) ls1 walked false 0))
    if o.acc then needAcc e s go else go s)

/-- The bytes of an element. -/
def elemBytes (x : Skein) (acc : Bool) (r elem : Nat) : List Byte :=
  if acc then toBytes 4 (mget x.accs (256 * r + elem)).toNat else toBytes 2 (mget x.tiles (256 * r + elem)).toNat

/-- TST and AST: the region is read from the register at issue and written to memory, or to the region buffer. -/
def moveOut (o : MoveOp) (e : Env) (s : State) : Res :=
  afterWork (conflicts s e.x.id [if o.acc then accPart o.r else o.r]) s (fun s =>
    let go := fun (s : State) =>
      match o.lanes e s true (elemBytes (nowSkein s e.x) o.acc o.r) with
      | (s1, .error f) => Res.fault s1 f
      | (s1, .ok (ls, held, _)) =>
        useTiles s1 e (if o.acc then [] else [o.r]) [] (fun s2 =>
          if !o.sp && e.t.region.isSome then
            match bufferStores s2 e o.c.setf (divUp (o.rows * o.cols * elemSize o.acc) 8 * 8) o.ep o.noal none (fun _ => 0) ls with
            | none => .fault s2 { execFlt e 0x1C 0 with access := 2 }
            | some s3 => .ok s3
          else
            let s3 := if o.sp then s2 else dropLines s2 e.x.spindle ls
            .ok (inFlight s3 e o.c.setf (.mstore o.acc o.r o.sp o.ep o.noal) ls false held 0))
    if o.acc then needAcc e s go else go s)

def execTld (o : OpTileXfer) (s : State) : Out := issueSkein (MoveOp.ofTile o).shape (moveIn (MoveOp.ofTile o)) s
def execTst (o : OpTileXfer) (s : State) : Out := issueSkein (MoveOp.ofTile o).shape (moveOut (MoveOp.ofTile o)) s
def execAld (o : OpAccXfer) (s : State) : Out := issueSkein (MoveOp.ofAcc o).shape (moveIn (MoveOp.ofAcc o)) s
def execAst (o : OpAccXfer) (s : State) : Out := issueSkein (MoveOp.ofAcc o).shape (moveOut (MoveOp.ofAcc o)) s

/-! ### Whole registers (09 R216, R218, R219) -/

def execTzero (o : OpTzero) (s : State) : Out :=
  issueSkein (skeinShape 8 o.c [] false) (fun e s =>
    let t := o.d.toNat
    afterWork (conflicts s e.x.id [t]) s (fun s => useTiles s e [] [t] (fun s =>
      .ok (updSkein s e.x.id (fun x => { x with tiles := mclear x.tiles (256 * t) (256 * t + 256) }))))) s

/-- The 256 elements of tile a, or of its transpose, in tile d. -/
def tileMove (x : Skein) (d a : Nat) (tr : Bool) : Skein :=
  { x with tiles := msetAll x.tiles (256 * d) ((upTo 0 256).map (fun k => mget x.tiles (256 * a + (if tr then 16 * (k % 16) + k / 16 else k)))) }

def execTmov (o : OpTmov) (s : State) : Out :=
  issueSkein (skeinShape 8 o.c [] false) (fun e s =>
    afterWork (conflicts s e.x.id [o.d.toNat, o.a.toNat]) s (fun s => useTiles s e [o.a.toNat] [o.d.toNat] (fun s =>
      .ok (updSkein s e.x.id (fun x => tileMove x o.d.toNat o.a.toNat o.tr))))) s

def execAclr (o : OpAclr) (s : State) : Out :=
  issueSkein (skeinShape 8 o.c [] false) (fun e s =>
    let lo := if o.all then 0 else o.d.toNat
    let n := if o.all then 8 else 1
    afterWork (conflicts s e.x.id ((upTo lo n).map accPart)) s (fun s => needAcc e s (fun s =>
      .ok (updSkein s e.x.id (fun x => { x with accs := mclear x.accs (256 * lo) (256 * (lo + n)) }))))) s

/-- ACVT: each element rounded into f16 or bf16 (09 R218). -/
def execAcvt (o : OpAcvt) (s : State) : Out :=
  issueSkein (skeinShape 8 o.c [] false) (fun e s =>
    afterWork (conflicts s e.x.id [accPart o.a.toNat, o.d.toNat]) s (fun s => needAcc e s (fun s => useTiles s e [] [o.d.toNat] (fun s =>
      let k := if o.bf then FF.bf16 else FF.f16
      let rs := (mgetAll (nowSkein s e.x).accs (256 * o.a.toNat) 256).map (fun v => k.convert (o.rm.mode e.dyn) (FF.f32.decode v.toNat))
      .flags (updSkein s e.x.id (fun x => { x with tiles := msetAll x.tiles (256 * o.d.toNat) (rs.map (fun r => BitVec.ofNat 16 r.1)) }))
        (rs.foldl (fun (a : Flags) r => a ||| r.2) 0) 0)))) s

/-- AFRAG: a 16 by 16 fragment between an accumulator and the output region (09 R219). -/
def afragMove (x : Skein) (d o cb : Nat) (into : Bool) : Skein :=
  (upTo 0 256).foldl (fun (y : Skein) k =>
    let at_ := 128 * (o + k / 16) + 16 * cb + k % 16
    if into then { y with out := mset y.out at_ (mget y.accs (256 * d + k)) } else { y with accs := mset y.accs (256 * d + k) (mget y.out at_) }) x

def execAfrag (o : OpAfrag) (s : State) : Out :=
  issueSkein (skeinShape 8 o.c [Rd.of o.a .one] false) (fun e s =>
    let row := (e.r32 e.lead o.a.reg).toNat
    afterWork (conflicts s e.x.id [accPart o.d.toNat, outPart]) s (fun s => needAcc e s (fun s =>
      if outRows e.x < row + 16 then .fault s (execFlt e 0x1A 1)
      else .ok (updSkein s e.x.id (fun x => afragMove x o.d.toNat row o.cb.toNat o.dir))))) s

/-! ### Array work put in order -/

/-- Array work joins its skein's issue order and holds the flags that SETF selects. -/
def arrayWork (s : State) (e : Env) (setf : BitVec 2) (op : ArrayOp) : State :=
  let a : ArrayWork := { id := s.key, strands := [e.t.id], skein := e.x.id, spindle := e.x.spindle, op := op, r := 0, b := 0, sums := [], pkt := none,
                         started := false, begun := false, startGtb := s.gtb, pc := e.t.pc, word := s.word, ops := operandsNow e s.word, flags := 0 }
  holdFlags { s with array := s.array ++ [a], key := s.key + 1 } e.t.id (flagsOf e.t setf) s.key

/-- TMMA joins the array's work once the loads of its registers have landed (09 R217). -/
def execTmma (o : OpTmma) (s : State) : Out :=
  issueSkein (skeinShape 16 o.c [] false) (fun e s =>
    afterWork (pendConflicts s e.x.id [accPart o.d.toNat, o.a.toNat, o.b.toNat]) s (fun s => needAcc e s (fun s =>
      useTiles s e [o.a.toNat, o.b.toNat] [] (fun s =>
        .ok (arrayWork s e o.c.setf (.tmma o.d.toNat o.a.toNat o.b.toNat o.bf o.zc (o.rows.toNat + 1) (o.cols.toNat + 1) (o.depth.toNat + 1))))))) s

/-! ### Share and latch (09 R220 to R227) -/

/-- Bytes of a skein's share. -/
def shareLen (x : Skein) : Nat := x.wg * 32768

/-- Skeins that occupy a spindle: of placed or quiescing hanks. -/
def occupants (s : State) (sp : Nat) : List Skein :=
  s.skeins.filter (fun x => x.spindle == sp && (match hank? s x.hank with | some h => h.st != .saved | none => false))

/-- The outcome of SCLASS: its status and the skein after it (09 R222); the share of a retired skein has ended (R220). -/
def sclassOf (s : State) (x : Skein) (cls : BitVec 2) (wg : Nat) : Nat × Skein :=
  let maxcls := match ctxOf s x with | some c => bits c.array 0 2 | none => 0
  let others := ((occupants s x.spindle).filter (fun y => y.id != x.id && !y.retired)).foldl (fun n y => n + y.wg) 0
  if maxcls.toNat < cls.toNat then (2, x)
  else if wg ≠ x.wg ∧ 16 < others + wg then (1, x)
  else if wg = x.wg then (0, { x with cls := cls })
  else (0, { x with cls := cls, wg := wg, share := [], latch := none })

def shSclass (o : OpSclass) : Shape := { skeinShape 8 o.c [] false with writes := [{ reg := o.d, wid := .one }] }
def execSclass (o : OpSclass) (s : State) : Out :=
  issueSkein (shSclass o) (fun e s =>
    let ids := conflicts s e.x.id [latchPart] ++ (s.array.filter (fun a => a.skein == e.x.id)).map (fun a => a.id)
    afterWork ids s (fun s =>
      let r := sclassOf s (nowSkein s e.x) o.cls o.wg.toNat
      .ok (updSkein (setSkein s r.2) e.x.id (fun x => x.put32 o.d e.act (fun _ => BitVec.ofNat 32 r.1))))) s

/-- WLD (09 R224): checked at issue, its bytes come in AR_TRANSFER_COMPLETE. -/
def execWld (o : OpWld) (s : State) : Out :=
  issueSkein { skeinShape 16 o.c [Rd.of o.a .two] true with access := true } (fun e s =>
    let va := e.r64 e.lead o.a.reg
    let n := 16 * (o.len.toNat + 1)
    let boff := 16 * o.boff.toNat
    if shareLen e.x < boff + n then .fault s (execFlt e 0x1A 7)
    else if va.toNat % 16 ≠ 0 then .fault s (misaligned e 2 va.toNat)
    else
      let ps := pieces va n (n / 128 + 2)
      match checkLanes { Need.plain true false with path := 2 } e.x.id e.x e.t.pc s (ps.map (fun p => { Lane.mk0 e.lead p.1 0 with elem := p.2 })) with
      | (s1, .error f) => .fault s1 f
      | (s1, .ok (ls, _, walked)) =>
        let s2 := charge s1 (acctOf e.x) (millOfSpindle e.x.spindle) 25 (divUp n 128)
        .ok (inFlight s2 e o.c.setf (.wld boff o.ep o.noal) (ls.map (fun l => { l with size := l.elem })) walked false 0)) s

/-- Whether a latch record's bytes meet a range of the share. -/
def LatchRec.meets (r : LatchRec) (off n : Nat) : Bool := decide (r.off < off + n) && decide (off < r.off + r.len)

/-- The bytes of the share from an offset to its end. -/
def shareFrom (x : Skein) (off : Nat) : List Byte := mgetAll x.share off (shareLen x - off)

/-- The outcome of WLATCH: its status, and the latch on status 0 (09 R226, R227). -/
def wlatchOf (x : Skein) (off m : Nat) (cmp new : Bool) (kb n0 nc : Nat) : Nat × Option Latch :=
  let rs := 2 * m + 2
  let need := nc * kb * rs
  let range := 128 < n0 + nc || off % 2 == 1 || (!cmp && decide (shareLen x < off + need))
  let mismatch := !new && (match x.latch with | some l => l.m != m || l.kb != kb | none => true)
  let used := if cmp then (plyExpand (shareFrom x off)).bind (fun r => if r.1.length = need then some r.2 else none) else some need
  if range then (1, none)
  else if mismatch then (2, none)
  else
    match used with
    | none => (3, none)
    | some u =>
      let cols := upTo n0 nc
      let kept := if new then [] else
        match x.latch with
        | some l => (l.recs.map (fun (r : LatchRec) => { r with cols := r.cols.filter (fun n => !cols.contains n) })).filter (fun r => !r.cols.isEmpty)
        | none => []
      (0, some { m := m, kb := kb, recs := kept ++ [{ off := off, len := u, n0 := n0, nc := nc, cmp := cmp, cols := cols }] })

def shWlatch (o : OpWlatch) : Shape := { skeinShape 16 o.c [Rd.of o.a .one] false with writes := [{ reg := o.d, wid := .one }] }
def execWlatch (o : OpWlatch) (s : State) : Out :=
  issueSkein (shWlatch o) (fun e s =>
    afterWork (conflicts s e.x.id [latchPart]) s (fun s =>
      let m := bwM o.bw
      let kb := o.kb.toNat + 1
      let nc := o.nc.toNat + 1
      let r := wlatchOf (nowSkein s e.x) (e.r32 e.lead o.a.reg).toNat m o.cmp o.new kb o.n0.toNat nc
      let s1 := match r.2 with
        | none => s
        | some l =>
          let s1 := charge (updSkein s e.x.id (fun x => { x with latch := some l })) (acctOf e.x) (millOfSpindle e.x.spindle) 25 (divUp (nc * kb * (2 * m + 2)) 128)
          setSpindle s1 { spindleOf s1 e.x.spindle with cells := some e.x.id }
      .ok (updSkein s1 e.x.id (fun x => x.put32 o.d e.act (fun _ => BitVec.ofNat 32 r.1))))) s

/-! ### SSTEP and SLUT (09 R228, R229) -/

/-- Whether a column is latched. -/
def Latch.has (l : Latch) (n : Nat) : Bool := l.recs.any (fun r => r.cols.contains n)

/-- What a stream of rows needs: address of row 0, stride, rows, bytes of a row, output row, columns, blocks, alignment of the stride. -/
structure RowOp where
  a : BitVec 32
  stride : BitVec 32
  rows : Nat
  bytes : Nat
  orow : Nat
  nc : Nat
  kb : Nat
  alignB : Nat
  lut : Bool

/-- The checks of SSTEP and SLUT in order: the place of every row, or the fault's code, cause and address (09 R229, R212). A row's address is taken modulo
2^32, as a scratchpad address is. (DESIGN CHOICE, log 136.) -/
def rowCheck (s : State) (x : Skein) (o : RowOp) : Except (Nat × Nat × Nat) (List Nat) :=
  if accGran x = 0 then .error (0x16, 0, 0)
  else if outRows x < o.orow + o.rows then .error (0x1A, 1, 0)
  else
    match x.latch with
    | none => .error (0x1A, 2, 0)
    | some l =>
      if l.kb < o.kb then .error (0x1A, 3, 0)
      else if !(upTo 0 o.nc).all l.has then .error (0x1A, 4, 0)
      else if o.lut && l.m != 2 then .error (0x1A, 5, 0)
      else if o.a.toNat % 2 ≠ 0 then .error (0x10, 0, o.a.toNat)
      else if o.stride.toNat % o.alignB ≠ 0 then .error (0x10, 0, o.stride.toNat)
      else
        match scrRanges s x ((upTo 0 o.rows).map (fun r => (o.a + BitVec.ofNat 32 r * o.stride, o.bytes))) with
        | .error va => .error (0x13, 0, va)
        | .ok ps => .ok ps

/-- The row operands of SSTEP and of SLUT, from the values of A and B. -/
def RowOp.ofSstep (o : OpSstep) (a b : BitVec 32) : RowOp :=
  { a := a, stride := b, rows := o.rows.toNat + 1, bytes := (o.kb.toNat + 1) * (2 * bwM o.abw + 2), orow := o.orow.toNat, nc := o.nc.toNat + 1,
    kb := o.kb.toNat + 1, alignB := 2, lut := false }
def RowOp.ofSlut (o : OpSlut) (a b : BitVec 32) : RowOp :=
  { a := a, stride := b, rows := o.rows.toNat + 1, bytes := (o.kb.toNat + 1) * 136, orow := o.orow.toNat, nc := o.nc.toNat + 1,
    kb := o.kb.toNat + 1, alignB := 8, lut := true }
/-- The array work of SSTEP and of SLUT on rows at given places. -/
def ArrayOp.ofSstep (o : OpSstep) (src : List Nat) : ArrayOp :=
  .sstep src (o.kb.toNat + 1) (o.klast.toNat + 1) (o.nc.toNat + 1) o.zero (bwM o.abw) o.orow.toNat
def ArrayOp.ofSlut (o : OpSlut) (src : List Nat) : ArrayOp := .slut src (o.kb.toNat + 1) (o.nc.toNat + 1) o.zero o.orow.toNat

def issueRows (c : Ctl) (a b : Src) (row : BitVec 32 → BitVec 32 → RowOp) (op : List Nat → ArrayOp) (s : State) : Out :=
  issueSkein (skeinShape 16 c [Rd.of a .one, Rd.of b .one] true) (fun e s =>
    afterWork ((s.pend.filter (fun p => p.skein == e.x.id && (match p.acc with | .wld .. => true | _ => false))).map (fun p => p.id)) s (fun s =>
      match rowCheck s (nowSkein s e.x) (row (e.r32 e.lead a.reg) (e.r32 e.lead b.reg)) with
      | .error f => .fault s { execFlt e f.1 f.2.1 with va := BitVec.ofNat 64 f.2.2, access := if f.1 = 0x1A ∨ f.1 = 0x16 then 0 else 64 }
      | .ok src => .ok (arrayWork s e c.setf (op src)))) s

def execSstep (o : OpSstep) (s : State) : Out := issueRows o.c o.a o.b (RowOp.ofSstep o) (ArrayOp.ofSstep o) s
def execSlut (o : OpSlut) (s : State) : Out := issueRows o.c o.a o.b (RowOp.ofSlut o) (ArrayOp.ofSlut o) s

/-! ### SBUILD and SDRAIN (09 R230, R231) -/

/-- The s16 sums of a group of four mantissas, for x = 0 to 15. -/
def groupSums (q : List Int) : List Int :=
  (upTo 0 16).map (fun x => (upTo 0 4).foldl (fun (acc : Int) i => if x / 2 ^ i % 2 = 1 then acc + q.getD i 0 else acc) 0)
/-- The table record of an activation block with n elements in use. -/
def tableRec (ma : Nat) (blk : Bfp) (n : Nat) : List Byte :=
  let q := (upTo 0 16).map (fun i => if blk.e = 255 || decide (n ≤ i) then 0 else blk.q.getD i 0)
  toBytes 1 blk.e ++ toBytes 1 (ma - 2) ++ zeros 6 ++
    (upTo 0 4).flatMap (fun g => (groupSums ((q.drop (4 * g)).take 4)).flatMap (fun v => toBytes 2 (wrapBits 16 v)))

def execSbuild (o : OpSbuild) (s : State) : Out :=
  let ma := bwM o.bw
  issueSkein (skeinShape 8 o.c [Rd.of o.a .one, Rd.of o.b .one, Rd.of o.x .one] true) (fun e s =>
    let a := e.r32 e.lead o.a.reg
    let b := e.r32 e.lead o.b.reg
    let kb := (e.r32 e.lead o.x.reg).toNat
    if kb < 1 ∨ 256 < kb then .fault s (execFlt e 0x1A 6)
    else if a.toNat % 2 ≠ 0 then .fault s (misaligned e 2 a.toNat)
    else if b.toNat % 2 ≠ 0 then .fault s (misaligned e 2 b.toNat)
    else
      match scrRanges s e.x [(a, kb * (2 * ma + 2))] with
      | .error va => .fault s (rangeFlt e va)
      | .ok src =>
        match scrRanges s e.x [(b, kb * 136)] with
        | .error va => .fault s (rangeFlt e va)
        | .ok dst =>
          let s1 := chargeScr (charge s (acctOf e.x) (millOfSpindle e.x.spindle) 24 kb) e.x [(src.headD 0, kb * (2 * ma + 2)), (dst.headD 0, kb * 136)]
          .ok (inFlight s1 e o.c.setf (.sbuild (src.headD 0) (dst.headD 0) kb ma (o.klast.toNat + 1)) [] false false 0)) s

/-- Bytes of an element that SDRAIN writes. -/
def drainSize : DrainFmt → Nat
  | .f32 => 4
  | _ => 2

def execSdrain (o : OpSdrain) (s : State) : Out :=
  issueSkein (skeinShape 16 o.c [Rd.of o.a .one, Rd.of o.b .one] true) (fun e s =>
    let a := e.r32 e.lead o.a.reg
    let b := e.r32 e.lead o.b.reg
    let z := drainSize o.ofmt
    let rows := o.rows.toNat + 1
    let nc := o.nc.toNat + 1
    needAcc e s (fun s =>
      if outRows e.x < o.orow.toNat + rows then .fault s (execFlt e 0x1A 1)
      else if a.toNat % z ≠ 0 then .fault s (misaligned e 2 a.toNat)
      else if b.toNat % z ≠ 0 then .fault s (misaligned e 2 b.toNat)
      else
        match scrRanges s e.x ((upTo 0 rows).map (fun r => (a + BitVec.ofNat 32 r * b, nc * z))) with
        | .error va => .fault s (rangeFlt e va)
        | .ok ps =>
          let mode := match o.rm with | .rne => 0 | .rtz => 1 | .rup => 2 | .rdn => 3 | .dyn => (bits e.fpctl 24 2).toNat
          .ok (inFlight (chargeScr s e.x (ps.map (fun p => (p, nc * z)))) e o.c.setf
            (.sdrain ps o.ofmt o.clr mode o.orow.toNat nc) [] false false 0))) s

/-! ### AR_TRANSFER_COMPLETE -/

/-- Whether an access lies on the AR path. -/
def Acc.ar : Acc → Bool
  | .wld .. | .sbuild .. | .sdrain .. => true
  | _ => false
/-- Whether array work is a stream of rows. -/
def ArrayOp.rowsOp : ArrayOp → Bool
  | .tmma .. => false
  | _ => true

/-- Earlier AR-path work of a skein is done (09 R211); WLD waits for every earlier array instruction (R224). -/
def arFirst (s : State) (xk id : Nat) (all : Bool) : Bool :=
  !s.pend.any (fun p => p.skein == xk && decide (p.id < id) && p.acc.ar) && !s.array.any (fun a => a.skein == xk && decide (a.id < id) && (all || a.op.rowsOp))

/-- Whether a WLD can be performed: its turn has come, and none of its lines is busy (17 R378). -/
def wldReady (s : State) (p : Pending) : Bool := arFirst s p.skein p.id true && !p.lanes.any (fun l => lineBusy s (l.spa / 128))

/-- WLD's bytes go into the share; a latch record they meet clears the latch (09 R224). -/
def performWld (s : State) (p : Pending) (off : Nat) (ep : Ep) (noal : Bool) : State :=
  match p.lanes.find? (fun l => poisoned s l.spa l.size) with
  | some l => dataError s p l.fibre l.va (badLine s l.spa l.size)
  | none =>
    let s1 := (laneLines p.lanes).foldl (fun u line => homeAccess u p.acct line false noal (p.lanes.any (fun l => l.uncached && l.spa / 128 == line)) ep) s
    let bs := p.lanes.flatMap (fun l => readSpa s1 l.spa l.size)
    let s2 := updSkein s1 p.skein (fun x =>
      { x with share := msetAll x.share off bs,
               latch := match x.latch with
                 | some l => if l.recs.any (fun r => r.meets off bs.length) then none else some l
                 | none => none })
    complete s2 p.id

/-- SBUILD's table records. -/
def performSbuild (s : State) (p : Pending) (src dst kb ma klast : Nat) : State :=
  let s1 := (upTo 0 kb).foldl (fun u b =>
    let blk := Bfp.ofBytes ma (scrRead s (src + b * (2 * ma + 2)) (2 * ma + 2))
    scrWrite u (dst + 136 * b) (tableRec ma blk (if b + 1 = kb then klast else 16))) s
  complete s1 p.id

/-- SDRAIN's elements, with the clearing of what was drained. -/
def performSdrain (s : State) (p : Pending) (dsts : List Nat) (fmt : DrainFmt) (clr : Bool) (mode : Mode) (orow nc : Nat) : State :=
  match skein? s p.skein with
  | none => complete s p.id
  | some x =>
    let conv := fun (v : BitVec 32) => match fmt with
      | .f32 => (toBytes 4 v.toNat, (0 : Flags))
      | .f16 => let r := FF.f16.convert mode (FF.f32.decode v.toNat); (toBytes 2 r.1, r.2)
      | .bf16 => let r := FF.bf16.convert mode (FF.f32.decode v.toNat); (toBytes 2 r.1, r.2)
    let s1 := (upTo 0 dsts.length).foldl (fun u r =>
      let els := (mgetAll x.out (128 * (orow + r)) nc).map conv
      let u1 := scrWrite u (dsts.getD r 0) (els.flatMap (fun c => c.1))
      addFlags u1 p.id (els.foldl (fun (a : Flags) c => a ||| c.2) 0) 0) s
    let s2 := if clr then updSkein s1 p.skein (fun y =>
      { y with out := (upTo 0 dsts.length).foldl (fun m r => mclear m (128 * (orow + r)) (128 * (orow + r) + nc)) y.out }) else s1
    complete s2 p.id

/-- AR_TRANSFER_COMPLETE: WLD, SBUILD or SDRAIN writes its bytes, after the earlier AR-path work of its skein (09 R213). -/
def execArTransferComplete (id : Nat) (s : State) : Out :=
  .next (match pend? s id with
    | none => s
    | some p =>
      match p.acc with
      | .wld off ep noal => if wldReady s p then performWld s p off ep noal else s
      | .sbuild src dst kb ma klast => if arFirst s p.skein id false then performSbuild s p src dst kb ma klast else s
      | .sdrain dsts fmt clr mode orow nc => if arFirst s p.skein id false then performSdrain s p dsts fmt clr (Mode.ofCode mode) orow nc else s
      | _ => s)

end Sys2Proof.Machine
end

