-- ==== Sys2Proof/Machine/Sync.lean ====
section
/-! DEFINITION. Fences and waits (10 R242 to R247): FENCE, FENCEX, CWAIT, CTEST, SLEEP, SLEEPUNTIL, and the steps that end the waits:
CWAIT_SATISFIED, SLEEP_WAKE, SLEEPUNTIL_WAKE. -/
namespace Sys2Proof.Machine

/-- A value written through D in every active fibre of a strand instruction (10 R233). -/
def putD32 (s : State) (e : Env) (d : Field8) (v : BitVec 32) : State := updSkein s e.x.id (fun x => x.put32 d e.act (fun _ => v))
def putD64 (s : State) (e : Env) (d : Field8) (v : BitVec 64) : State := updSkein s e.x.id (fun x => x.put64 d e.act (fun _ => v))

/-! ### FENCE and FENCEX -/

def execFence (o : OpFence) (s : State) : Out :=
  issue (leadShape 8 o.c [] [] false) raStops (fun e s => afterFence e o.sc s (fun s => .ok s)) s

/-- The accesses and array work of a skein on the paths of a set (10 R247). (DEDUCED, log 37.) -/
def pathWork (s : State) (xk : Nat) (m : BitVec 5) : List Nat :=
  (s.pend.filter (fun p => p.skein == xk && p.acc.onPath m)).map (fun p => p.id) ++
    (if m.getLsbD 2 then (s.array.filter (fun a => a.skein == xk)).map (fun a => a.id) else [])

/-- FENCEX: what it waits for is fixed when it issues. (DEDUCED, log 37.) -/
def fencexBody (o : OpFencex) (e : Env) (s : State) : Res :=
  let w := match e.t.wait with
    | some (.fencex ids ls) => (ids, ls)
    | _ => (pathWork s e.x.id o.src, o.src.getLsbD 0)
  if fencexMet s e.t (nowSkein s e.x) w.1 w.2 then .ok s else .stall s .ready (.fencex w.1 w.2)

def execFencex (o : OpFencex) (s : State) : Out := issue (leadShape 8 o.c [] [] false) raStops (fencexBody o) s

/-! ### CWAIT and CTEST (10 R242) -/

/-- A word of n bytes read at its home slice, never through L1: the spindle's own copy of the line goes, so that no later load of the strand is
older; none when it is poisoned. -/
def homeRead (s : State) (x : Skein) (spa n : Nat) : State × Option Nat :=
  let s1 := dropL1 (homeAccess s (acctOf x) (spa / 128) false false false .normal) x.spindle (spa / 128)
  (s1, if poisoned s spa n then none else some (readNat s1 spa n))

/-- The undone accesses of an instruction's lead fibre that meet given ranges of bytes. -/
def ownWork (e : Env) (parts : List (Nat × Nat)) (s : State) : List Nat :=
  (s.pend.filter (fun p => p.strands.contains e.t.id && (p.acc.memLoad || p.acc.memWrite) &&
    (p.lanes.filter (fun l => !l.done) ++ flagPart p).any (fun l => parts.any (fun q => l.clash { Lane.mk0 e.lead 0 q.2 with spa := q.1 })))).map (fun p => p.id)
/-- A read that an instruction makes as it issues waits for the undone accesses of its fibre to the same bytes (11 R267). -/
def afterOwn (e : Env) (parts : List (Nat × Nat)) (s : State) (k : State → Res) : Res := afterWork (ownWork e parts s) s k

/-- DATA-ERROR at an instruction of a strand (16 R361). -/
def dataFlt (e : Env) (va : BitVec 64) (line : Nat) : Flt := { Flt.plain .data 0x40 e.lead e.t.pc with access := 1, va := va, line := some line }

/-- The checks of CWAIT and CTEST: alignment of the block, then the bitmap word and STATUS. -/
def waitLanes (o : OpCwait) (e : Env) (s : State) : State × Except Flt (Nat × Nat) :=
  let a := e.r64 e.lead o.a.reg
  let n := Need.plain true false
  if a.toNat % 64 ≠ 0 then (s, .error (accFlt n 0x10 e.lead e.t.pc a))
  else
    match checkLanes n e.x.id e.x e.t.pc s [Lane.mk0 e.lead (a + 64 + BitVec.ofNat 64 (8 * o.w.toNat)) 8, Lane.mk0 e.lead (a + 8) 4] with
    | (s1, .error f) => (s1, .error f)
    | (s1, .ok (ls, _, _)) => (s1, .ok ((ls.map (fun l => l.spa)).getD 0 0, (ls.map (fun l => l.spa)).getD 1 0))

/-- STATUS: DONE with its CODE (10 R239). -/
def statusDone (v : Nat) : Option Nat := if v / 2 ^ 31 % 2 = 1 then some (v % 256) else none

/-- What CWAIT finds: the status that ends it, or none while it waits; poisoned data is an error. -/
def cwaitTest (s : State) (word stat : Nat) (mask : BitVec 64) : Except Nat (Option (BitVec 32)) :=
  if poisoned s word 8 then .error (word / 128)
  else if BitVec.ofNat 64 (readNat s word 8) &&& mask = mask then .ok (some 0)
  else if poisoned s stat 4 then .error (stat / 128)
  else
    match statusDone (readNat s stat 4) with
    | some c => .ok (if c = 0 then none else some (BitVec.ofNat 32 c))
    | none => .ok none

/-- The home-slice reads of CWAIT. -/
def cwaitRead (s : State) (x : Skein) (word stat : Nat) : State := (homeRead (homeRead s x word 8).1 x stat 4).1

def ctestBody (o : OpCwait) (e : Env) (s : State) : Res :=
  afterAcquire e s (fun s =>
    match waitLanes o e s with
    | (s1, .error f) => .fault s1 f
    | (s1, .ok (word, _)) =>
      afterOwn e [(word, 8)] s1 (fun s1 =>
        match homeRead s1 e.x word 8 with
        | (s2, none) => .fault s2 (dataFlt e (e.r64 e.lead o.a.reg) (word / 128))
        | (s2, some v) => .ok (putD64 s2 e o.d (BitVec.ofNat 64 v &&& e.r64 e.lead o.b.reg))))

def cwaitBody (o : OpCwait) (e : Env) (s : State) : Res :=
  match e.t.wait with
  | some (.cwait _ _ _ (some st)) => .ok (putD32 s e o.d st)
  | _ =>
    afterAcquire e s (fun s =>
      match waitLanes o e s with
      | (s1, .error f) => .fault s1 f
      | (s1, .ok (word, stat)) =>
        let mask := e.r64 e.lead o.b.reg
        afterOwn e [(word, 8), (stat, 4)] s1 (fun s1 =>
          match cwaitTest s1 word stat mask with
          | .error line => .fault (cwaitRead s1 e.x word stat) (dataFlt e (e.r64 e.lead o.a.reg) line)
          | .ok (some st) => .ok (putD32 (cwaitRead s1 e.x word stat) e o.d st)
          | .ok none => .stall s1 .ready (.cwait word stat mask none)))

def shCwait (o : OpCwait) (w : Wid) : Shape := leadShape 16 o.c [Rd.of o.a .two, Rd.of o.b .two] [{ reg := o.d, wid := w }] false
def execCtest (o : OpCwait) (s : State) : Out := issue (shCwait o .two) raStops (ctestBody o) s
def execCwait (o : OpCwait) (s : State) : Out := issue (shCwait o .one) raStops (cwaitBody o) s

/-- CWAIT_SATISFIED: the bits are all set, or the request has failed; the strand goes on. -/
def execCwaitSatisfied (k : Nat) (s : State) : Out :=
  .next (match strand? s k with
    | none => s
    | some t =>
      match t.wait, skein? s t.skein with
      | some (.cwait word stat mask none), some x =>
        (match cwaitTest s word stat mask with
        | .error line => failHank s x { Flt.plain .data 0x40 (t.fibres.headD 0xFFFF) t.pc with access := 1, line := some line }
        | .ok none => s
        | .ok (some st) => updStrand (cwaitRead s x word stat) k (fun u => { u with wait := some (.cwait word stat mask (some st)) }))
      | _, _ => s)

/-! ### SLEEP (10 R243) -/

def sleepBody (o : OpSleep) (e : Env) (s : State) : Res :=
  match e.t.wait with
  | some (.sleep _ _ _ true) => .ok s
  | _ =>
    afterAcquire e s (fun s =>
      let t := (e.r64 e.lead o.a.reg).toNat
      let until_ := if t = 0 then none else some (s.gtb.toNat + t)
      if o.flag then
        match checkLanes (Need.plain true false) e.x.id e.x e.t.pc s [Lane.mk0 e.lead (e.r64 e.lead o.b.reg) 0] with
        | (s1, .error f) => .fault s1 f
        | (s1, .ok (ls, _, _)) => .stall s1 .sleeping (.sleep until_ ((ls.map (fun l => l.spa / 128)).head?) false false)
      else if t = 0 then .ok s
      else .stall s .sleeping (.sleep until_ none false false))

/-- The operands of SLEEP and SLEEPUNTIL: B only with MON or CHK. -/
def sleepReads (o : OpSleep) : List Rd := Rd.of o.a .two :: (if o.flag then [Rd.of o.b .two] else [])

def execSleep (o : OpSleep) (s : State) : Out := issue (leadShape 8 o.c (sleepReads o) [] false) raStops (sleepBody o) s

/-- Whether a sleep is over: a write was performed on the line monitored, or the time has passed. -/
def sleepOver (s : State) : Wait → Bool
  | .sleep u _ hit _ => hit || (match u with | some d => decide (d ≤ s.gtb.toNat) | none => false)
  | .sleepUntil t _ _ => decide (t.toNat ≤ s.gtb.toNat)
  | _ => false

/-- SLEEP_WAKE: the strand becomes Ready and goes on. -/
def execSleepWake (k : Nat) (s : State) : Out :=
  .next (match strand? s k with
    | none => s
    | some t =>
      match t.wait with
      | some (.sleep u m h false) =>
        if t.st == .sleeping && sleepOver s (.sleep u m h false) then updStrand s k (fun v => { v with st := .ready, wait := some (.sleep u m h true) }) else s
      | _ => s)

/-! ### SLEEPUNTIL (10 R244) -/

/-- The check at wake: STATUS is read at the home slice; whether DONE is 0. None: it is poisoned. -/
def promiseMissed (s : State) (x : Skein) (chk : Option Nat) : State × Option Bool :=
  match chk with
  | none => (s, some false)
  | some spa =>
    match homeRead s x spa 4 with
    | (s1, none) => (s1, none)
    | (s1, some v) => (s1, some (statusDone v).isNone)

/-- The end of SLEEPUNTIL: on to the next instruction, or PROMISE-MISSED with the GTB at wake in INFO. -/
def sleepuntilEnd (s : State) (g : BitVec 64) (missed : Bool) : Res := if missed then .trap s .promiseMissed (g.toNat % 2 ^ 32) true else .ok s

def sleepuntilBody (o : OpSleep) (e : Env) (s : State) : Res :=
  match e.t.wait with
  | some (.sleepUntil _ _ (some (g, missed))) => sleepuntilEnd s g missed
  | _ =>
    afterAcquire e s (fun s =>
      let t := e.r64 e.lead o.a.reg
      let go := fun (s : State) (chk : Option Nat) =>
        if s.gtb.toNat < t.toNat then Res.stall s .sleeping (.sleepUntil t chk none)
        else
          match promiseMissed s e.x chk with
          | (s1, none) => .fault s1 (dataFlt e (e.r64 e.lead o.b.reg) ((chk.getD 0) / 128))
          | (s1, some m) => sleepuntilEnd s1 s1.gtb m
      if o.flag then
        let b := e.r64 e.lead o.b.reg
        let n := Need.plain true false
        if b.toNat % 64 ≠ 0 then .fault s (accFlt n 0x10 e.lead e.t.pc b)
        else
          match checkLanes n e.x.id e.x e.t.pc s [Lane.mk0 e.lead (b + 8) 4] with
          | (s1, .error f) => .fault s1 f
          | (s1, .ok (ls, _, _)) => go s1 ((ls.map (fun l => l.spa)).head?)
      else go s none)

def execSleepuntil (o : OpSleep) (s : State) : Out := issue (leadShape 8 o.c (sleepReads o) [] false) raStops (sleepuntilBody o) s

/-- SLEEPUNTIL_WAKE: the GTB has reached the time; the promise is checked and the strand becomes Ready. -/
def execSleepuntilWake (k : Nat) (s : State) : Out :=
  .next (match strand? s k with
    | none => s
    | some t =>
      match t.wait, skein? s t.skein with
      | some (.sleepUntil g chk none), some x =>
        if t.st == .sleeping && sleepOver s (.sleepUntil g chk none) then
          match promiseMissed s x chk with
          | (s1, none) => failHank s1 x { Flt.plain .data 0x40 (t.fibres.headD 0xFFFF) t.pc with access := 1, line := some ((chk.getD 0) / 128) }
          | (s1, some m) => updStrand s1 k (fun v => { v with st := .ready, wait := some (.sleepUntil g chk (some (s1.gtb, m))) })
        else s
      | _, _ => s)

end Sys2Proof.Machine
end

