-- ==== Sys2Proof/Machine/Rings.lean ====
section
/-! DEFINITION. Queue descriptors and feed descriptors in memory (10 R235, R253; 15 R323), the promise of a packet (10 R241), and the checks
that QPUT, LAUNCH, FEEDPUT and FEEDPOP make of a descriptor and its ring (10 R236, R254, R255). -/
namespace Sys2Proof.Machine

/-! ### Queue descriptors, by system physical address -/

def qKind (s : State) (d : Nat) : Nat := readNat s (d + 9) 1
def qMill (s : State) (d : Nat) : Nat := readNat s (d + 10) 1 % 8
def qWidx (s : State) (d : Nat) : Nat := readNat s (d + 16) 8
def qRidx (s : State) (d : Nat) : Nat := readNat s (d + 24) 8
/-- Whether a queue descriptor is fit for a kind: its KIND, its LOG2N from 4 to 16, its BASE 4 KiB-aligned. (DEDUCED, log 58.) -/
def qOk (s : State) (d kind : Nat) : Bool := qKind s d == kind && decide (4 ≤ qLog s d) && decide (qLog s d ≤ 16) && qBase s d % 4096 == 0
/-- Whether a slot is free (10 R235). -/
def qFree (s : State) (d : Nat) : Bool := decide ((qWidx s d + 2 ^ 64 - qRidx s d) % 2 ^ 64 < 2 ^ qLog s d)

/-! ### The promise (10 R241) -/

/-- Transfer bytes of a packet. -/
def pktBytes (bs : List Byte) : Nat :=
  let len := fieldOf bs 4 4
  match fieldOf bs 0 1 with
  | 1 | 6 => len * (fieldOf bs 32 4 + 1)
  | 3 => fieldOf bs 40 4 * len
  | 7 => 0
  | _ => len

/-- A VD's bucket on a mill (10 R240). -/
def bteOf (s : State) (vd mill : Nat) : BteBkt := ((vdOf s vd).bte.find? (fun b => b.mill == mill)).getD (BteBkt.reset mill)
def setBte (s : State) (vd : Nat) (b : BteBkt) : State := updVd s vd (fun v => { v with bte := updIf (fun c => c.mill == b.mill) (fun _ => b) v.bte })

/-- Bytes still to move for packets of a queue that its consumer has taken, and for slots i, i + 1, … that read from a ring. -/
def takenBytes (s : State) (d : Nat) : Nat := ((s.pkts.filter (fun p => p.desc == d)).map (fun p => pktBytes p.bytes - p.moved)).foldl (fun a n => a + n) 0
def waitingBytes (read : Nat → List Byte) (i : Nat) : Nat → Nat
  | 0 => 0
  | n + 1 => waitingBytes read i n + pktBytes (read (i + n))

/-- P of a packet of N bytes behind Q bytes, on a queue served at RATE. (DEDUCED, log 45.) -/
def promiseOf (g rate q n typ : Nat) : BitVec 64 :=
  if rate = 0 then BitVec.allOnes 64 else BitVec.ofNat 64 (g + (if typ = 6 then 8000 else 2000) + divUp (10000 * (q + n)) rate)

/-! ### The checks of a strand's descriptor and ring -/

/-- How a check of a descriptor or a ring comes out. -/
inductive RingOut where
  | fault (s : State) (f : Flt)
  | held (s : State)
  | ok (s : State) (spas : List Nat)

/-- The descriptor's 64 bytes (10 R236, R254, R255): aligned, and permitted for reading and writing. (DEDUCED, log 36.) -/
def checkDesc (e : Env) (s : State) (va : BitVec 64) : RingOut :=
  let n := Need.plain true true
  if va.toNat % 64 ≠ 0 then .fault s (accFlt n 0x10 e.lead e.t.pc va)
  else
    match checkLanes n e.x.id e.x e.t.pc s [Lane.mk0 e.lead va 64] with
    | (s1, .error f) => .fault s1 f
    | (s1, .ok (ls, held, _)) => if held then .held s1 else .ok s1 (ls.map (fun l => l.spa))

/-- The whole ring of 2^k slots, page by page from a 4 KiB-aligned base: the pages' system physical addresses. -/
def checkRing (n : Need) (e : Env) (s : State) (base k : Nat) : RingOut :=
  let pages := divUp (64 * 2 ^ k) 4096
  match checkLanes n e.x.id e.x e.t.pc s ((upTo 0 pages).map (fun i => Lane.mk0 e.lead (BitVec.ofNat 64 (base + 4096 * i)) 0)) with
  | (s1, .error f) => .fault s1 f
  | (s1, .ok (ls, held, _)) => if held then .held s1 else .ok s1 (ls.map (fun l => l.spa))

/-- The place of a slot in a ring of pages. -/
def ringAt (pages : List Nat) (i k : Nat) : Nat := pages.getD (slotOff i k / 4096) 0 + slotOff i k % 4096

/-- Bytes of uniform registers g n to g(n + 7) (10 R236). -/
def uniBytes (e : Env) (r : Field8) : List Byte := (upTo 0 8).flatMap (fun i => toBytes 8 (uniformOf e.t e.x (r.toNat - 192 + i)).toNat)

/-- WINDOW-RANGE of B (10 R236): it names g0 to g56. -/
def uniRunBad (r : Field8) : Bool := decide (r.toNat < 192) || decide (248 < r.toNat)

/-- A write of bytes at their home slices by a strand's instruction that has been checked, with the charge of its line, the GWCT into its horizon. -/
def strandWrite (s : State) (e : Env) (spa : Nat) (bs : List Byte) : State :=
  let g := gwctOf s (spa / 128)
  let s1 := dropL1 (writeSpa (homeAccess s (acctOf e.x) (spa / 128) true false false .normal) spa bs) e.x.spindle (spa / 128)
  updSkein (updStrand s1 e.t.id (fun t => { t with h := if t.h.toNat < g.toNat then g else t.h })) e.x.id
    (fun x => { x with gw := if x.gw.toNat < g.toNat then g else x.gw })

/-- QPUT and LAUNCH claim the next slot and write it; the slot's index and the state (10 R236). -/
def claimSlot (s : State) (e : Env) (d : Nat) (pages : List Nat) (bs : List Byte) : State × Nat :=
  let w := qWidx s d
  let s1 := strandWrite s e (d + 16) (toBytes 8 ((w + 1) % 2 ^ 64))
  (strandWrite s1 e (ringAt pages w (qLog s d)) bs, w)

/-- A wait that a full dirty log makes of an instruction that has not acted yet: it is issued again (16 R358). -/
def heldBack (s : State) : Res := .stall s .ready (.fence .skein)

end Sys2Proof.Machine
end

