-- ==== Sys2Proof/Machine/Async.lean ====
section
/-! DEFINITION. QPUT, LAUNCH and JREAD as they issue (10 R236, R252, R259). -/
namespace Sys2Proof.Machine

/-! ### QPUT -/

/-- QPUT with its descriptor checked: the bad or full queue, the ring, the claim, the promise. (DESIGN CHOICE, log 57.) -/
def qputClaim (o : OpQput) (e : Env) (d : Nat) (s : State) : Res :=
  if !qOk s d 0 then
    .ok (putD64 (errqPut s e.x.vd 7 (descQid s d) (Config.choice s.steps 901) 0) e o.d 0)
  else
    match checkRing (Need.plain false true) e s (qBase s d) (qLog s d) with
    | .fault s1 f => .fault s1 f
    | .held s1 => heldBack s1
    | .ok s1 pages =>
      if !qFree s1 d then .ok (putD64 s1 e o.d 0)
      else
        let bs := uniBytes e o.b.reg
        let read := fun (i : Nat) => readSpa s1 (ringAt pages i (qLog s1 d)) 64
        let q := takenBytes s1 d + waitingBytes read (qRidx s1 d) ((qWidx s1 d + 2 ^ 64 - qRidx s1 d) % 2 ^ 64)
        let p := promiseOf s1.gtb.toNat (bteOf s1 (descVd s1 d) (qMill s1 d)).rate q (pktBytes bs) (fieldOf bs 0 1)
        match claimSlot s1 e d pages bs with
        | (s2, w) =>
          let fe := queueOf s2 d
          .ok (putD64 (putQueue s2 { fe with promises := fe.promises ++ [(w, p)] }) e o.d p)

/-- DESIGN CHOICE, log 57. -/
def qputBody (o : OpQput) (e : Env) (s : State) : Res :=
  afterAcquire e s (fun s => afterLoads e s (fun s => afterFence e .device s (fun s =>
    match checkDesc e s (e.r64 e.lead o.a.reg) with
    | .fault s1 f => .fault s1 f
    | .held s1 => heldBack s1
    | .ok s1 spas => qputClaim o e (spas.headD 0) (homeAccess s1 (acctOf e.x) (spas.headD 0 / 128) false false false .normal))))

def shQput (o : OpQput) (w : Wid) : Shape :=
  { leadShape 8 o.c [Rd.of o.a .two, { reg := o.b.reg, wid := .one, last := false }] [{ reg := o.d, wid := w }] true with window := fun _ => uniRunBad o.b.reg }
def execQput (o : OpQput) (s : State) : Out := issue (shQput o .two) raStops (qputBody o) s

/-! ### LAUNCH -/

/-- The packet that LAUNCH builds (15 R326). -/
def launchPkt (o : OpLaunch) (prog : BitVec 64) (hanks : BitVec 32) : List Byte :=
  toBytes 1 0x10 ++ toBytes 1 (if o.pwv then 1 else 0) ++ zeros 2 ++ toBytes 4 hanks.toNat ++ toBytes 8 prog.toNat ++ zeros 40 ++ toBytes 4 o.pw.toNat ++ zeros 4

/-- A queue descriptor that cannot be read gives BAD-DESCRIPTOR; a page fault or a violation is taken under its class. -/
def launchFail (o : OpLaunch) (e : Env) (s : State) (f : Flt) : Res :=
  match f.cls with
  | .execute => .ok (putD32 s e o.d 3)
  | _ => .fault s f

def launchBody (o : OpLaunch) (e : Env) (s : State) : Res :=
  match e.t.wait with
  | some (.launch _ _ (some st) _ _) => .ok (putD32 s e o.d st)
  | _ =>
    afterAcquire e s (fun s => afterLoads e s (fun s => afterFence e .device s (fun s =>
      match checkDesc e s (e.r64 e.lead o.b.reg) with
      | .fault s1 f => launchFail o e s1 f
      | .held s1 => heldBack s1
      | .ok s1 spas =>
        let d := spas.headD 0
        if !qOk s1 d 1 then .ok (putD32 s1 e o.d 3)
        else
          match checkRing (Need.plain false true) e s1 (qBase s1 d) (qLog s1 d) with
          | .fault s2 f => launchFail o e s2 f
          | .held s2 => heldBack s2
          | .ok s2 pages =>
            if !qFree s2 d then .ok (putD32 s2 e o.d 2)
            else
              match claimSlot s2 e d pages (launchPkt o (e.r64 e.lead o.a.reg) (e.r32 e.lead o.x.reg)) with
              | (s3, w) => .stall s3 .ready (.launch d w none s.word (operandsNow e s.word)))))

def shLaunch (o : OpLaunch) : Shape := leadShape 16 o.c [Rd.of o.a .two, Rd.of o.b .two, Rd.of o.x .one] [{ reg := o.d, wid := .one }] true
def execLaunch (o : OpLaunch) (s : State) : Out := issue (shLaunch o) raStops (launchBody o) s

/-- The strand that waits for the parser's decision on a slot takes its code (10 R252). -/
def launchDecided (s : State) (d slot : Nat) (code : BitVec 32) : State :=
  { s with strands := s.strands.map (fun t =>
      match t.wait with
      | some (.launch d2 n none word ops) => if d2 = d ∧ n = slot then { t with wait := some (.launch d2 n (some code) word ops) } else t
      | _ => t) }

/-! ### JREAD -/

def jreadValue (c : Ctx) : JSel → BitVec 64
  | .acc => c.jacc
  | .mlo => bits c.mtr 0 64
  | .mhi => bits c.mtr 64 64
  | .bkt => c.bkt.lvl

/-- The accesses and array work of a strand that are still outstanding, so that charges of theirs may be still to come. -/
def strandWork (s : State) (k : Nat) : List Nat :=
  (s.pend.filter (fun p => p.strands.contains k)).map (fun p => p.id) ++ (s.array.filter (fun a => a.strands.contains k)).map (fun a => a.id)

/-- JREAD waits at issue until the strand's earlier instructions have no charge still to come; its own issue, not counted in the value (19 R413),
is charged once the value is read (10 R259; DEDUCED). A wait for a full flag has charged it already. (DEDUCED, log 106.) -/
def jreadBody (o : OpJread) (e : Env) (s : State) : Res :=
  let value := fun (u : State) => match ctxOf u e.x with | some c => jreadValue c o.sel | none => 0
  let ids := strandWork s e.t.id
  match e.t.wait with
  | some (.skeinWork _) =>
    if ids.isEmpty then
      .ok (putD64 (joinActive (charge s (acctOf e.x) (millOfSpindle e.x.spindle) (issueClass (leadShape 8 o.c [] [{ reg := o.d, wid := .two }] false)) 1) e.t e.x)
        e o.d (value s))
    else .stall s .ready (.skeinWork ids)
  | some _ => if ids.isEmpty then .ok (putD64 s e o.d (value s)) else .stall s .ready (.fencex ids false)
  | none => if ids.isEmpty then .ok (putD64 s e o.d (value e.s)) else .stall e.s .ready (.skeinWork ids)

/-- JREAD: the energy state (10 R259). -/
def execJread (o : OpJread) (s : State) : Out :=
  issue (leadShape 8 o.c [] [{ reg := o.d, wid := .two }] false) raStops (jreadBody o) s

end Sys2Proof.Machine
end

