-- ==== Sys2Proof/Machine/Feed.lean ====
section
/-! DEFINITION. Feeds (02 R52 to R56; 10 R253 to R255): FEEDPUT, FEEDPOP and FEEDPOP_REISSUE, with the appending, popping and releasing of
records that FEED packets and COMMIT share. -/
namespace Sys2Proof.Machine

/-! ### Releasing -/

/-- Whether a record is held, or is to be delivered again. -/
def recordHeld (s : State) (d i : Nat) : Bool :=
  s.requeued.any (fun r => r.1 == d && r.2.1 == i) || s.strands.any (fun t => t.held.any (fun h => h.desc == d && h.idx == i))

/-- FREE after it has advanced over released records below HEAD; n bounds the steps. (DEDUCED, log 116.) -/
def freeFrom (s : State) (d head i : Nat) : Nat → Nat
  | 0 => i
  | n + 1 => if i = head ∨ recordHeld s d i then i else freeFrom s d head ((i + 1) % 2 ^ 64) n
/-- DEDUCED, log 116. -/
def advanceFree (s : State) (d : Nat) : State :=
  let f := freeFrom s d (fHead s d) (fFree s d) (2 ^ qLog s d)
  if f = fFree s d then s else writeSpa s (d + 32) (toBytes 8 f)

/-- A strand's held records are released (10 R255, R258). -/
def releaseHeld (s : State) (k : Nat) : State :=
  match strand? s k with
  | none => s
  | some t => (dedup (t.held.map (fun h => h.desc))).foldl advanceFree (updStrand s k (fun u => { u with held := [] }))

/-! ### Popping -/

/-- The next record of a feed: the lowest requeued one whose pages are resident, else the one at HEAD (02 R53, R56); the state after the pop. (DEDUCED, log 116.) -/
def popIndex (s : State) (d : Nat) : Option (State × Nat) :=
  match leastBy (fun r => r.2.1) (s.requeued.filter (fun r => r.1 == d && !(r.2.2.any (tokensUsed s).contains))) with
  | some r => some ({ s with requeued := s.requeued.erase r }, r.2.1)
  | none =>
    if fHead s d = fTail s d then none
    else some (writeSpa s (d + 24) (toBytes 8 ((fHead s d + 1) % 2 ^ 64)), fHead s d)

/-- A record goes to a fibre's part of a FEEDPOP. -/
def giveRecord (s : State) (id f spa : Nat) : State :=
  let bad := poisoned s spa 64
  let bs := readSpa s spa 64
  { s with pend := updIf (fun p => p.id == id) (fun p =>
      { p with lanes := updIf (fun l => l.fibre == f && l.size == 0) (fun l => { l with spa := spa, size := 64, data := bs, elem := if bad then 1 else 0 }) p.lanes }) s.pend }

/-- Records go to the fibres that wait, in ascending id, as long as there are any: the state and the fibres still without. -/
def feedServe (d : Nat) (va : BitVec 64) (id k : Nat) (hold : Bool) (pages : List Nat) (acct : Acct) : State → List Nat → State × List Nat
  | s, [] => (s, [])
  | s, f :: fs =>
    match popIndex s d with
    | none => (s, f :: fs)
    | some (s1, i) =>
      let spa := ringAt pages i (qLog s1 d)
      let s2 := giveRecord (homeAccess (homeAccess s1 acct (d / 128) true false false .normal) acct (spa / 128) false false false .normal) id f spa
      let s3 := if hold then updStrand s2 k (fun t => { t with held := t.held ++ [{ desc := d, va := va, idx := i }] }) else advanceFree s2 d
      feedServe d va id k hold pages acct s3 fs

/-! ### FEEDPUT (10 R254) -/

def feedputBody (o : OpQput) (e : Env) (s : State) : Res :=
  afterAcquire e s (fun s => afterLoads e s (fun s => afterFence e .device s (fun s =>
    match checkDesc e s (e.r64 e.lead o.a.reg) with
    | .fault s1 f => .fault s1 f
    | .held s1 => heldBack s1
    | .ok s1 spas =>
      let d := spas.headD 0
      let s2 := homeAccess s1 (acctOf e.x) (d / 128) false false false .normal
      if !feedOk s2 d then .ok (putD32 s2 e o.d 2)
      else
        match checkRing (Need.plain false true) e s2 (qBase s2 d) (qLog s2 d) with
        | .fault s3 f => .fault s3 f
        | .held s3 => heldBack s3
        | .ok s3 pages =>
          if !feedRoom s3 d then .ok (putD32 s3 e o.d 1)
          else
            let spa := ringAt pages (fTail s3 d) (qLog s3 d)
            .ok (putD32 (feedAppend (strandWrite (strandWrite s3 e spa []) e (d + 16) []) d spa (uniBytes e o.b.reg)) e o.d 0))))

def execFeedput (o : OpQput) (s : State) : Out := issue (shQput o .one) raStops (feedputBody o) s

/-! ### FEEDPOP (10 R255) -/

/-- The FEEDPOP of a strand that still has fibres without a record, at its PC. -/
def openPop (s : State) (t : Strand) : Option Pending :=
  s.pend.find? (fun p => p.strands.contains t.id && p.pc == t.pc && (match p.acc with | .feedpop .. => true | _ => false) && p.lanes.any (fun l => l.size == 0))

/-- FEEDPOP serves the fibres that wait; with some left the strand sleeps (02 R54). -/
def popGo (o : OpFeedpop) (e : Env) (d : Nat) (va : BitVec 64) (id : Nat) (pages : List Nat) (s : State) (fs : List Nat) : Res :=
  match feedServe d va id e.t.id o.hold pages (acctOf e.x) s fs with
  | (s1, []) => .ok s1
  | (s1, rest) => .stall s1 .sleeping (.feed d id rest false)

/-- The descriptor's address: as read at issue (05 R127), also when the instruction is issued again for the fibres still waiting. -/
def popAddr (o : OpFeedpop) (e : Env) (s : State) : BitVec 64 :=
  match (openPop s e.t).bind (fun p => p.ops.head?) with
  | some v => v.2.1
  | none => e.r64 e.lead o.a.reg

/-- DEDUCED, log 36. -/
def feedpopBody (o : OpFeedpop) (e : Env) (s : State) : Res :=
  afterAcquire e s (fun s =>
    match checkDesc e s (popAddr o e s) with
    | .fault s1 f => .fault s1 f
    | .held s1 => heldBack s1
    | .ok s1 spas =>
      let d := spas.headD 0
      if !feedOk s1 d then .fault s1 (accFlt (Need.plain true true) 0x1F e.lead e.t.pc (popAddr o e s1))
      else
        match checkRing (Need.plain true true) e s1 (qBase s1 d) (qLog s1 d) with
        | .fault s2 f => .fault s2 f
        | .held s2 => heldBack s2
        | .ok s2 pages =>
          match openPop s2 e.t with
          | some p => popGo o e d (popAddr o e s2) p.id pages s2 ((p.lanes.filter (fun l => l.size == 0)).map (fun l => l.fibre))
          | none =>
            let id := s2.key
            let s3 := inFlight s2 e o.c.setf (.feedpop o.d o.hold d) (e.act.map (fun f => Lane.mk0 f 0 0)) false false 0
            popGo o e d (popAddr o e s2) id pages s3 e.act)

def shFeedpop (o : OpFeedpop) : Shape :=
  { Shape.plain 8 o.c 5 with reads := [Rd.of o.a .two], writes := [{ reg := o.d, wid := .run 16 }], late := true, noIdem := true, readAt := fun e _ => [e.lead] }
def execFeedpop (o : OpFeedpop) (s : State) : Out := issue (shFeedpop o) raStops (feedpopBody o) s

/-- FEEDPOP_REISSUE: a worker that an append has woken issues its FEEDPOP again for the fibres still waiting. -/
def execFeedpopReissue (k : Nat) (s : State) : Out :=
  .next (match strand? s k with
    | none => s
    | some t =>
      match t.wait with
      | some (.feed _ _ _ true) => if t.st == .sleeping then updStrand s k (fun u => { u with st := .ready }) else s
      | _ => s)

end Sys2Proof.Machine
end

