-- ==== Sys2Proof/Machine/Idem.lean ====
section
/-! DEFINITION. Idempotent regions as they open and commit: IDEM and COMMIT (01 R17; 10 R256 to R258; 11 R282). -/
namespace Sys2Proof.Machine

/-- IDEM (10 R256): NO-REGION-BUFFER, or a wait for a region buffer, or the region opens. -/
def idemBody (o : OpD) (e : Env) (s : State) : Res :=
  let x := nowSkein s e.x
  if regionCap x = 0 then .fault s (Flt.plain .execute 0x17 e.lead e.t.pc)
  else if regionCap x ≤ regionsHeld s x then .stall s .ready .regionBuf
  else
    let c := e.t.clause.getD { start := e.t.pc, size := 0, fa := 15, fb := 15, rastop := false }
    let r : IdemRegion := { opened := s.key, start := e.t.pc, clause := c, dest := o.d, act := e.act, used := 0, stores := [] }
    .ok (updStrand (putD32 s e o.d 0) e.t.id (fun t => { t with region := some r }))

def execIdem (o : OpD) (s : State) : Out := issue (leadShape 8 o.c [] [{ reg := o.d, wid := .one }] true) raStops (idemBody o) s

/-- The parts of a COMMIT: the buffered stores in program order. -/
def commitLanes (r : IdemRegion) : List Lane := r.stores.map (fun b => { Lane.mk0 b.fibre b.va b.bytes.length with data := b.bytes })

/-- COMMIT (10 R258): the buffered stores are checked for writing and put in flight in program order; the region closes and held records are
released; with no region open, held records are released at once. SETF is read as in any word: R258 calls every field res0, R119 lets an instruction that
completes later hold flags. Issued again after a halt it performs what is left of it: its region is closed already, and a page fault parks its strand.
(DESIGN CHOICE, log 137.) -/
def commitBody (o : OpC) (e : Env) (s : State) : Res :=
  afterAcquire e s (fun s =>
    match e.t.region with
    | none => .ok (releaseHeld s e.t.id)
    | some r =>
      match checkLanes (Need.plain false true) e.x.id e.x e.t.pc s (commitLanes r) with
      | (s1, .error f) => .fault (if s1.undo.isSome then updStrand s1 e.t.id (fun t => { t with region := none }) else s1) f
      | (s1, .ok (ls, held, _)) =>
        let s2 := updStrand s1 e.t.id (fun t => { t with region := none })
        let s2 := if s1.undo.isSome then s2 else releaseHeld s2 e.t.id
        if ls.isEmpty then .ok s2
        else .ok (inFlight (dropLines s2 e.x.spindle ls) e o.c.setf (.commitStore r.stores) ls false held 0))

def execCommit (o : OpC) (s : State) : Out := issue (leadShape 8 o.c [] [] false) raStops (commitBody o) s

end Sys2Proof.Machine
end

