-- ==== Sys2Proof/Machine/OpPoints.lean ====
section
/-! DEFINITION. Operating points (14 R297, R318, R319; 18 R401 to R404): partitions and their limits, requests in arrival order, the two steps
of a change, and OPREQ (10 R260). -/
namespace Sys2Proof.Machine

/-! ### Partitions (14 R297, R425) -/

def Mill.pid (m : Mill) : Nat := (bits m.part 0 3).toNat
def Mill.shared (m : Mill) : Bool := m.part.getLsbD 8
def Mill.vds (m : Mill) : BitVec 16 := bits m.part 16 16
/-- The mills of a partition, lowest first. -/
def millsOf (s : State) (pid : Nat) : List Mill := s.mills.filter (fun m => m.pid == pid)
/-- Whether the mills of a partition agree on SHARED and VDS. (DEDUCED, log 78.) -/
def partAgrees (s : State) (pid : Nat) : Bool :=
  match millsOf s pid with
  | [] => true
  | m :: ms => ms.all (fun n => n.shared == m.shared && n.vds == m.vds)
/-- Whether a partition is dedicated, and to one VD. -/
def dedicatedTo (s : State) (pid vd : Nat) : Bool :=
  partAgrees s pid && (match millsOf s pid with | m :: _ => !m.shared && m.vds == BitVec.ofNat 16 (2 ^ vd) | [] => false)
def partShared (s : State) (pid : Nat) : Bool := match millsOf s pid with | m :: _ => m.shared | [] => true

/-- The floor and the effective maximum of a partition (14 R318). (DEDUCED, log 75.) -/
def floorOf (s : State) (pid : Nat) : Nat := ((millsOf s pid).map (fun m => Nat.min 11 (bits m.opfloor 0 4).toNat)).foldl Nat.max 0
def effMax (s : State) (pid : Nat) : Nat :=
  let caps := ((millsOf s pid).map (fun m => (bits m.opcap 0 4).toNat)).foldl Nat.min 11
  if partShared s pid then caps
  else
    match (millsOf s pid).head? with
    | some m => (s.vds.filter (fun v => m.vds.getLsbD v.num)).foldl (fun n v => Nat.min n (bits v.opallow 0 4).toNat) caps
    | none => caps
/-- The point that a partition is led to when its limits move: the effective maximum, or the floor when that is higher. -/
def limitPoint (s : State) (pid : Nat) : Nat := Nat.max (effMax s pid) (floorOf s pid)

/-- The point in force of a partition; the points whose voltage and frequency it holds. -/
def pointOf (s : State) (pid : Nat) : Nat := match millsOf s pid with | m :: _ => (bits m.oppt 0 4).toNat | [] => 0
def voltOf (s : State) (pid : Nat) : Nat := match millsOf s pid with | m :: _ => m.volt | [] => 0
def freqOf (s : State) (pid : Nat) : Nat := match millsOf s pid with | m :: _ => m.freq | [] => 0
def changing (s : State) (pid : Nat) : Bool := s.changes.any (fun c => c.pid == pid)
/-- The mills that a change moves. -/
def updMoved (s : State) (c : OpChange) (f : Mill → Mill) : State := { s with mills := updIf (fun m => c.mills.contains m.num) f s.mills }
def partMills (s : State) (pid : Nat) : List Nat := (millsOf s pid).map (fun m => m.num)

/-! ### Changes (18 R402, R403) -/

/-- The GTB ticks for which the row in force of a mill has been so in the open tick, since it was last noted (14 R301). -/
def rowSpan (s : State) (m : Mill) : Nat :=
  let lo := s.tick.toNat * Config.tickLen
  Nat.min s.gtb.toNat (lo + Config.tickLen) - lo - (m.rows.map (fun r => r.2)).foldl (fun a n => a + n) 0
/-- A mill goes to another weight row; the span of the old one is noted. -/
def toRow (s : State) (row : Nat) (m : Mill) : Mill := { m with row := row, rows := addAt m.rows m.row (rowSpan s m) }

/-- MILL_OPPT during and after a change. -/
def opptWord (point : Nat) (target : Nat) (phase : Nat) : BitVec 64 :=
  BitVec.ofNat 64 (phase * 512 + (if phase = 0 then 0 else 256) + (if phase = 0 then 0 else target * 16) + point)

/-- A step of a change begins: the destination row is in force from the start of the first one. -/
def beginStep (s : State) (c : OpChange) : State :=
  let s1 := updMoved s c (fun m =>
    let m1 := if m.row = c.target then m else toRow s c.target m
    { m1 with oppt := opptWord (bits m.oppt 0 4).toNat c.target (if c.volt then 1 else 2) })
  { s1 with changes := s1.changes.filter (fun d => d.pid != c.pid) ++ [c] }

/-- A change of a partition to a point: the voltage step first when it rises, the frequency step first when it falls (18 R402). -/
def beginChange (s : State) (pid target : Nat) (req : Option OpReq) : State :=
  beginStep s { pid := pid, mills := partMills s pid, gather := false, from_ := pointOf s pid, target := target, volt := decide (pointOf s pid < target), first := true, req := req }

/-- A move from the state reached by a first step (18 R404): the frequency step first when the voltage held is enough for the target. -/
def beginMove (s : State) (c : OpChange) (target : Nat) : State :=
  let volt := match s.mills.find? (fun m => c.mills.contains m.num) with | some m => m.volt | none => 0
  beginStep s { c with target := target, volt := !decide (target ≤ volt), first := true, req := none }

/-! ### Requests (14 R319; 18 R404) -/

/-- The decision on a request against the limits in force: 0 is DONE. The CP (asking VD 16) sets the points of shared partitions within the same bounds. -/
def opDecide (s : State) (r : OpReq) : Nat :=
  if 11 < r.point then 4
  else if r.vd = 16 ∧ !partShared s r.pid then 3
  else if r.vd ≠ 16 ∧ (r.pid = 8 ∨ partShared s r.pid ∨ !dedicatedTo s r.pid r.vd) then 3
  else if r.point < floorOf s r.pid then 1
  else if effMax s r.pid < r.point then 2
  else 0

/-- A request is answered: OPREQ's strand may go on, or VD_OPREQ shows STATUS. -/
def opAnswer (s : State) (r : OpReq) (code : Nat) : State :=
  let s1 := match r.strand with
    | some k => updStrand s k (fun t => match t.wait with
        | some (.opreq n none) => if n = r.id then { t with wait := some (.opreq n (some (BitVec.ofNat 32 code))) } else t
        | _ => t)
    | none => s
  let more := s.opreqs.any (fun q => q.fromReg && q.vd == r.vd) || s.changes.any (fun c => match c.req with | some q => q.fromReg && q.vd == r.vd | none => false)
  if r.fromReg then updVd s1 r.vd (fun v => { v with opreq := setBits (setBits v.opreq 8 (BitVec.ofNat 3 code)) 15 (BitVec.ofBool more) }) else s1

/-- The oldest request of a partition with no change in progress is decided, and so on; n bounds the rounds. (DEDUCED, log 76.) -/
def opServe (s : State) (pid : Nat) : Nat → State
  | 0 => s
  | n + 1 =>
    if changing s pid then s
    else
      match s.opreqs.find? (fun r => r.pid == pid) with
      | none => s
      | some r =>
        let s1 := { s with opreqs := s.opreqs.erase r }
        let code := opDecide s1 r
        if code ≠ 0 then opServe (opAnswer s1 r code) pid n
        else if pointOf s1 pid = r.point then opServe (opAnswer s1 r 0) pid n
        else beginChange s1 pid r.point (some r)
def serveAll (s : State) (pid : Nat) : State := opServe s pid (s.opreqs.length + 1)

/-- The limits of a partition have moved: it leaves a point above its maximum, or below its floor (14 R319). During a change this is decided at
the end of the step. -/
def limitsMoved (s : State) (pid : Nat) : State :=
  if changing s pid || (millsOf s pid).isEmpty then s
  else
    let p := pointOf s pid
    if effMax s pid < p ∧ limitPoint s pid ≠ p then beginChange s pid (limitPoint s pid) none
    else if p < floorOf s pid then beginChange s pid (floorOf s pid) none
    else s
def allLimitsMoved (s : State) : State := (upTo 0 8).foldl limitsMoved s

/-- Mills of a partition that stand at other points than its lowest-numbered one are brought to that point (14 R425): those that stand higher first, then
those that stand lower, each by the order of 18 R402. (DEDUCED, log 78.) -/
def gatherPoints (s : State) (pid : Nat) : State :=
  match millsOf s pid with
  | [] => s
  | m :: ms =>
    if changing s pid then s
    else
      let p := (bits m.oppt 0 4).toNat
      let high := ms.filter (fun n => decide (p < (bits n.oppt 0 4).toNat))
      let low := ms.filter (fun n => decide ((bits n.oppt 0 4).toNat < p))
      let bring := fun (l : List Mill) (volt : Bool) =>
        beginStep s { pid := pid, mills := l.map (fun n => n.num), gather := true, from_ := p, target := p, volt := volt, first := true, req := none }
      if !high.isEmpty then bring high false else if !low.isEmpty then bring low true else s

/-- The change of a partition has ended at its target; a mill that has joined meanwhile is brought to its point. -/
def changeDone (s : State) (c : OpChange) : State :=
  let s1 := updMoved { s with changes := s.changes.filter (fun d => d.pid != c.pid) } c (fun m => { m with oppt := opptWord c.target 0 0 })
  let s2 := match c.req with | some r => opAnswer s1 r 0 | none => s1
  serveAll (limitsMoved (gatherPoints s2 c.pid) c.pid) c.pid

/-- A step has ended with the partition holding the voltage or frequency of the target; the second step follows, or the change is over, or the
partition is led to a lower limit, or to a floor that has risen above the target (14 R319; 18 R404). (DEDUCED, log 76.) -/
def stepDone (s : State) (c : OpChange) : State :=
  let s1 := updMoved s c (fun m => if c.volt then { m with volt := c.target } else { m with freq := c.target })
  let lead := fun (code : Nat) =>
    let s2 := { s1 with changes := s1.changes.filter (fun d => d.pid != c.pid) }
    beginMove (match c.req with | some r => opAnswer s2 r code | none => s2) c (limitPoint s1 c.pid)
  if !c.first then changeDone s1 c
  else if c.gather then beginStep s1 { c with volt := !c.volt, first := false }
  else if effMax s1 c.pid < c.target ∧ limitPoint s1 c.pid ≠ c.target then lead 2
  else if c.target < floorOf s1 c.pid then lead 1
  else beginStep s1 { c with volt := !c.volt, first := false }

/-! ### OPREQ -/

/-- OPREQ (10 R260): the request joins those of the partition of the strand's mill; the strand waits for the answer. -/
def opreqBody (o : OpDA) (e : Env) (s : State) : Res :=
  match e.t.wait with
  | some (.opreq _ (some st)) => .ok (putD32 s e o.d st)
  | _ =>
    let pid := (millOf s (millOfSpindle e.x.spindle)).pid
    let r : OpReq := { id := s.key, pid := pid, vd := e.x.vd, point := (e.r32 e.lead o.a.reg).toNat, strand := some e.t.id, fromReg := false }
    let s1 := updStrand { s with key := s.key + 1, opreqs := s.opreqs ++ [r] } e.t.id (fun t => { t with wait := some (.opreq r.id none) })
    let s2 := serveAll s1 pid
    match (nowStrand s2 e.t).wait with
    | some (.opreq _ (some st)) => .ok (putD32 s2 e o.d st)
    | _ => .stall s2 .ready (.opreq r.id none)

def shOpreq (o : OpDA) : Shape := leadShape 8 o.c [Rd.of o.a .one] [{ reg := o.d, wid := .one }] true
def execOpreq (o : OpDA) (s : State) : Out := issue (shOpreq o) raStops (opreqBody o) s

end Sys2Proof.Machine
end

