-- ==== Sys2Proof/Machine/Invalidate.lean ====
section
/-! DEFINITION. Invalidations of translations (16 R354 to R356): what is swept when one starts, what it waits for, INVALIDATION_COMPLETE. -/
namespace Sys2Proof.Machine

/-- Whether a range meets a page of 2 ^ lg bytes. -/
def meetsPage (lo : Nat) (len : Option Nat) (page lg : Nat) : Bool :=
  match len with
  | none => true
  | some n => decide (lo < page + 2 ^ lg) && decide (page < lo + n)

/-- Whether a cached translation was derived from leaves of an invalidation's range: its stage-1 leaf, its stage-2 leaf, or a stage-2 leaf
through which the walk reached a table. (DEDUCED, log 126.) -/
def Inv.sweeps (i : Inv) (t : Trans) : Bool :=
  t.vd == i.vd && (if i.stage2 then meetsPage i.lo i.len t.gpage t.lg2 || t.tabs.any (fun p => meetsPage i.lo i.len p.1 p.2)
    else (match i.ctx with | some c => t.ctx == c | none => true) && meetsPage i.lo i.len t.lpage t.llg)

/-- The sweep: entries derived from swept ones leave every TLB, and every last-page register of the VD is cleared (16 R354, R356). -/
def sweep (s : State) (i : Inv) : State :=
  { s with
    spindles := s.spindles.map (fun x => { x with tlb := x.tlb.filter (fun t => !i.sweeps t) }),
    skeins := s.skeins.map (fun x => if x.vd == i.vd then { x with fibres := x.fibres.map (fun f => { f with lastPage := none }) } else x) }

/-- An invalidation starts; its key is the state's next. -/
def startInv (s : State) (vd : Nat) (stage2 : Bool) (ctx : Option Nat) (lo : Nat) (len : Option Nat) (reg : Bool) : State :=
  let i : Inv := { id := s.key, vd := vd, stage2 := stage2, ctx := ctx, lo := lo, len := len, reg := reg }
  sweep { s with key := s.key + 1, invs := s.invs ++ [i] } i

/-- Whether an access that was translated before an invalidation, through a swept entry, is still to be performed (16 R356). -/
def Inv.holds (i : Inv) (p : Pending) : Bool :=
  p.vd == i.vd && decide (p.id < i.id) && !p.acc.scratch && (i.stage2 || (match i.ctx with | some c => p.ctx == c | none => true)) &&
    p.lanes.any (fun l => !l.done && l.size != 0 && (match l.tr with | some t => i.sweeps t | none => true))

/-- INVALIDATION_COMPLETE: in the order of starts within a VD, once no access translated before is outstanding; its strand, or VD_INVCMD.BUSY, is
let go. -/
def execInvalidationComplete (id : Nat) (s : State) : Out :=
  .next (match s.invs.find? (fun i => i.id == id) with
    | none => s
    | some i =>
      if s.invs.any (fun j => j.vd == i.vd && decide (j.id < i.id)) || s.pend.any i.holds then s
      else
        let s1 := sweep { s with invs := s.invs.filter (fun j => j.id != id) } i
        if i.reg then updVd s1 i.vd (fun v => { v with invcmd := v.invcmd &&& ~~~2 }) else s1)

/-- Whether an invalidation can complete. -/
def invReady (s : State) (i : Inv) : Bool := !(s.invs.any (fun j => j.vd == i.vd && decide (j.id < i.id)) || s.pend.any i.holds)

end Sys2Proof.Machine
end

