-- ==== Sys2Proof/Machine/CtxRegs.lean ====
section
/-! DEFINITION. The registers that selectors name (10 R263) with their fields' rules (00 R6): how they read, and what a write does whether it
comes from SYSWR, from a context's descriptor (17 R391) or from a save area. -/
namespace Sys2Proof.Machine

/-- A field's value kept between two bounds. -/
def clampTo (lo hi n : Nat) : Nat := Nat.max lo (Nat.min hi n)

/-- The value of a context's own register by selector (02 R42, R64, R65; 03 R81, R87; 04 R108; 08 R208; 09 R221; 11 R274; 15 R333, R343; 16 R351). -/
def Ctx.reg (c : Ctx) (sel : Nat) : BitVec 64 :=
  if sel = 0x001 then c.fpctl
  else if sel = 0x002 then c.ra.epi
  else if sel = 0x003 then c.ra.ins
  else if sel = 0x004 then c.ra.pfl
  else if sel = 0x005 then c.ra.wlk
  else if sel = 0x006 then c.ra.use
  else if sel = 0x007 then c.ra.stp
  else if sel = 0x008 then c.ra.cap
  else if sel = 0x009 then c.ra.fj
  else if sel = 0x00A then c.regFill
  else if sel = 0x00B then c.regSpill
  else if sel = 0x00C then c.stale
  else if sel = 0x00D then c.pin
  else if sel = 0x011 then c.tvec
  else if sel = 0x100 then c.fair
  else if sel = 0x101 then c.ractl
  else if sel = 0x102 then c.dbg
  else if sel = 0x103 then c.array
  else if sel = 0x200 then c.lease
  else if sel = 0x201 then c.sched
  else if sel = 0x202 then c.vj
  else if sel = 0x203 then c.save
  else if sel = 0x204 then c.ptbase
  else 0

/-- CTX_SCHED written (15 R333): V under the old weight up to this moment, then the new weight from VB and AB. -/
def Ctx.setSched (c : Ctx) (v : BitVec 64) : Ctx :=
  let w := if bits v 8 16 = 0 then 1 else bits v 8 16
  { c with vb := c.vj, ab := c.jacc, sched := (w.setWidth 64 <<< 8) ||| (bits v 0 6).setWidth 64 }

/-- SLOTS of CTX_SAVE as it is stored (15 R343). -/
def saveWord (v : BitVec 64) : BitVec 64 :=
  (bits v 16 48).setWidth 64 <<< 16 ||| BitVec.ofNat 64 (clampTo 1 256 (bits v 0 9).toNat)

/-- A writable register of a context takes a value; fields that are res0 or RO keep theirs. -/
def Ctx.setReg (c : Ctx) (sel : Nat) (v : BitVec 64) : Ctx :=
  if sel = 0x001 then { c with fpctl := v &&& 0x33F3F3F }
  else if sel = 0x00D then { c with pin := setBits c.pin 32 (bits v 32 32) }
  else if sel = 0x011 then { c with tvec := v &&& ~~~31 }
  else if sel = 0x100 then { c with fair := BitVec.ofNat 64 (clampTo 128 8192 (bits v 0 14).toNat) }
  else if sel = 0x101 then { c with ractl := v &&& 0xFFFFFFFF00000001 }
  else if sel = 0x102 then { c with dbg := v &&& 1 }
  else if sel = 0x103 then { c with array := v &&& 3 }
  else if sel = 0x200 then { c with lease := BitVec.ofNat 64 (clampTo 256 4096 (bits v 0 13).toNat) }
  else if sel = 0x201 then c.setSched v
  else if sel = 0x203 then { c with save := saveWord v }
  else if sel = 0x204 then { c with ptbase := v &&& 0x0000FFFFFFFFF000 }
  else c

/-- A write by selector: CTX_SAVE is discarded while the context has a hank placed or saved (17 R391); CTX_PTBASE is an invalidation (16 R351). -/
def ctxWrite (s : State) (vd ctx sel : Nat) (v : BitVec 64) : State :=
  if sel = 0x203 ∧ !(hanksOf s vd ctx).isEmpty then s
  else
    let s1 := updCtx s vd ctx (fun c => c.setReg sel v)
    if sel = 0x204 then startInv s1 vd false (some ctx) 0 none false else s1

/-- What SYSRD returns (10 R263). -/
def sysValue (s : State) (t : Strand) (x : Skein) (sel : Nat) : BitVec 64 :=
  if sel = 0x000 then s.gtb
  else if sel = 0x00E then x.token.setWidth 64
  else if sel = 0x00F then (match t.trap with | some r => r.cause | none => 0)
  else if sel = 0x010 then (match t.trap with | some r => r.epc | none => 0)
  else if sel = 0x012 then (bits (millOf s (millOfSpindle x.spindle)).oppt 0 4).setWidth 64
  else if sel = 0x013 then t.h
  else match ctxOf s x with | some c => c.reg sel | none => 0

end Sys2Proof.Machine
end

