-- ==== Sys2Proof/Machine/System.lean ====
section
/-! DEFINITION. Trap and system instructions (10 R261 to R264): TRAP, EBRK, TRET, SYSRD, SYSWR, TLBINV, RAMODE. -/
namespace Sys2Proof.Machine

/-- TRAP: a user trap; EPC is the next instruction. -/
def execTrap (o : OpTrap) (s : State) : Out :=
  issue (leadShape 8 o.c [] [] false) raStops (fun _ s => .trap s .userTrap o.code.toNat true) s

/-- EBRK: the strand parks at the next instruction, with a debug record whose token resumes it. -/
def execEbrk (o : OpC) (s : State) : Out :=
  issue (leadShape 8 o.c [] [] false) raStops (fun e s =>
    let t := nowStrand s e.t
    .moved (parkStrand s (t.advance 8) e.x (Flt.plain .debug 0 e.lead t.pc))) s

/-! ### TRET -/

/-- A strand as TRET sends it on: where EPC says, still inside its clause when EPC lies in it. -/
def Strand.resumeAt (t : Strand) (epc : BitVec 64) : Strand :=
  match t.clause with
  | some c => if epc = c.start + BitVec.ofNat 64 (32 * (c.size.toNat + 1)) then t.goto epc else { t with pc := epc }
  | none => t.goto epc

/-- The word after EPC: one instruction further; past a clause header, when EPC is a clause start. -/
def Strand.resumeAfter (t : Strand) (epc : BitVec 64) (block : List Byte) : Strand :=
  let u := t.resumeAt epc
  let w := ofBytes ((fetchFrom epc block).take 8)
  match u.clause with
  | some _ => u.advance (lenBytes (BitVec.ofNat 2 w))
  | none =>
    match headerOf epc (BitVec.ofNat 64 w) with
    | some (c, _, _) => { u with clause := some c, pc := epc + 8 }
    | none => u

/-- The handler ends: its part of the trapped strand becomes Ready, with the region and the held records, and follows the handler's accesses. The
trapped strand's other fibres, when the handler has split, stay in the Trap state. (DEDUCED, log 28.) -/
def endHandler (s0 : State) (h : Strand) (r : TrapRec) (go : Strand → Strand) : State :=
  let s := if h.active then leaveActive s0 h else s0
  match strand? s r.trapped with
  | none => delStrand s h.id
  | some t =>
    let mine := t.fibres.filter h.fibres.contains
    let rest := t.fibres.filter (fun f => !h.fibres.contains f)
    let follow := fun (k : Nat) (l : List Nat) => if l.contains h.id then dedup (l.map (fun i => if i == h.id then k else i)) else l
    let moved := fun (k : Nat) (u : State) =>
      { u with pend := u.pend.map (fun p => { p with strands := follow k p.strands }), array := u.array.map (fun a => { a with strands := follow k a.strands }) }
    let back := fun (u : Strand) => go { u with
      fibres := mine, st := .ready, wait := none, again := false, region := h.region, held := h.held, h := if u.h.toNat < h.h.toNat then h.h else u.h,
      arith := u.arith ++ h.arith, acks := dedup (u.acks ++ h.acks), hostAt := if u.hostAt.toNat < h.hostAt.toNat then h.hostAt else u.hostAt, block := none,
      active := false }
    if rest.isEmpty then moved t.id (delStrand (setStrand s (back t)) h.id)
    else
      let c : Strand := back { t with id := s.key }
      let s1 := { s with key := s.key + 1, strands := insertAfter (updIf (fun u => u.id == t.id) (fun u => { u with fibres := rest }) s.strands) t.id c }
      let both := fun (l : List Nat) => if l.contains t.id && !l.contains c.id then l ++ [c.id] else l
      moved c.id (delStrand { s1 with pend := s1.pend.map (fun p => { p with strands := both p.strands }),
                                      array := s1.array.map (fun a => { a with strands := both a.strands }) } h.id)

/-- TRET (10 R262): BAD-TARGET when the handler has written EPC and it is no clause start or NEXT is 1. (DEDUCED, log 28.) -/
def tretBody (o : OpTret) (e : Env) (s : State) : Res :=
  match e.t.trap with
  | none => .ok s
  | some r =>
    if r.epcWritten && (o.nxt || bits r.epc 0 5 != 0) then .fault s { Flt.plain .execute 0x14 e.lead e.t.pc with va := r.epc }
    else
      let h := nowStrand s e.t
      if o.nxt then
        match fetchBlock s e.t e.x r.epc with
        | (s1, .error none) => .stall s1 .ready (.skeinWork [])
        | (s1, .error (some f)) => .fault s1 { f with pc := e.t.pc }
        | (s1, .ok block) => .moved (endHandler s1 h r (fun t => t.resumeAfter r.epc block))
      else .moved (endHandler s h r (fun t => if r.epcWritten then t.goto r.epc else t.resumeAt r.epc))

def shTret (o : OpTret) : Shape := { leadShape 8 o.c [] [] false with priv := fun p => !p.handler }
def execTret (o : OpTret) (s : State) : Out := issue (shTret o) raStops (tretBody o) s

/-! ### SYSRD and SYSWR -/

def shSysrd (o : OpSysrd) : Shape := { leadShape 8 o.c [] [{ reg := o.d, wid := .two }] false with priv := fun p => needPriv p (.sysrd o) }
/-- SYSRD: a read of the GTB is an access, which waits for an acquire that has not been performed (11 R266, R267, R273). -/
def sysrdBody (o : OpSysrd) (e : Env) (s : State) : Res :=
  let read := fun (s : State) => Res.ok (putD64 s e o.d (sysValue s e.t (nowSkein s e.x) o.sel.toNat))
  if o.sel.toNat = 0 then afterAcquire e s read else read s
def execSysrd (o : OpSysrd) (s : State) : Out := issue (shSysrd o) raStops (sysrdBody o) s

/-- SYSWR: EPC of the handler strand, or a register of the context. -/
def syswrBody (o : OpSyswr) (e : Env) (s : State) : Res :=
  let v := e.r64 e.lead o.a.reg
  if o.sel = 0x010 then
    .ok (updStrand s e.t.id (fun t => { t with trap := t.trap.map (fun r => { r with epc := v &&& ~~~7, epcWritten := true }) }))
  else .ok (ctxWrite s e.x.vd e.x.ctx o.sel.toNat v)

def shSyswr (o : OpSyswr) : Shape := { leadShape 8 o.c [Rd.of o.a .two] [] true with priv := fun p => needPriv p (.syswr o) }
def execSyswr (o : OpSyswr) (s : State) : Out := issue (shSyswr o) raStops (syswrBody o) s

/-! ### TLBINV and RAMODE (10 R264) -/

/-- TLBINV: the invalidation of stage 1 of the VD starts, and the strand waits until it has completed. -/
def tlbinvBody (o : OpTlbinv) (e : Env) (s : State) : Res :=
  match e.t.wait with
  | some (.invalidation _) => .ok s
  | _ =>
    let a := (e.r64 e.lead o.a.reg).toNat
    let len := match o.kind with | .page => some 1 | .range => some (e.r64 e.lead o.b.reg).toNat | .all => none
    .stall (startInv s e.x.vd false none a len false) .ready (.invalidation s.key)

def shTlbinv (o : OpTlbinv) : Shape :=
  let reads := match o.kind with
    | .page => [Rd.of o.a .two]
    | .range => [Rd.of o.a .two, Rd.of o.b .two]
    | .all => []
  { leadShape 8 o.c reads [] false with priv := fun p => !p.priv }
def execTlbinv (o : OpTlbinv) (s : State) : Out := issue (shTlbinv o) raStops (tlbinvBody o) s

def shRamode (o : OpRamode) : Shape := { leadShape 8 o.c [] [] false with priv := fun p => !p.priv }
def execRamode (o : OpRamode) (s : State) : Out :=
  issue (shRamode o) raStops (fun e s => .ok (updCtx s e.x.vd e.x.ctx (fun c => { c with ractl := setBits c.ractl 0 (if o.on then (1 : BitVec 1) else 0) }))) s

end Sys2Proof.Machine
end

