-- ==== Sys2Proof/Machine/Wake.lean ====
section
/-! DEFINITION. REGISTER_FILL (03 R80), FAIRNESS_PROMOTION (02 R41), and the ends of a runahead episode: RUNAHEAD_ENTRY (02 R58, R59) and
RUNAHEAD_EXIT (R63). -/
namespace Sys2Proof.Machine

/-! ### REGISTER_FILL -/

/-- The strand for which a line of a block is filled: the oldest of the skein with a fibre there. -/
def strandOfBlock (s : State) (x : Skein) (b : Nat) : Option Strand := s.strands.find? (fun t => t.skein == x.id && t.fibres.any (fun f => f / 32 == b))

/-- REGISTER_FILL: an absent line of a placed skein's window is filled from the backing area; a failure is its strand's BACKING-FAULT. -/
def execRegisterFill (skein block quad : Nat) (s : State) : Out :=
  .next (match skein? s skein with
    | none => s
    | some x =>
      match strandOfBlock s x block with
      | none => s
      | some t =>
        if !mayRun s x || x.lines.any (fun l => l.key == .vec block quad) || decide (x.w ≤ 4 * quad) then s
        else
          match touchLine s skein (.vec block quad) false false with
          | .error f => deliver s t x { f with pc := t.pc }
          | .ok s1 => s1)

/-! ### FAIRNESS_PROMOTION -/

/-- Whether a promotion of a spindle's due strands takes effect now: a strand that has issued in place of one of them stands at a clause start, and
Q further cycles have passed. -/
def promotionReady (s : State) (sp : Nat) : Bool :=
  s.strands.any (fun t => t.clause.isNone && t.ra.isNone && (match skein? s t.skein with | some x => x.spindle == sp | none => false) &&
    promotionDue s t sp false)

def execFairnessPromotion (sp : Nat) (s : State) : Out := .next (if promotionReady s sp then promoteSpindle s sp else s)

/-! ### RUNAHEAD_ENTRY -/

/-- Whether an access still needs a line of device memory or of the fabric that its home slice does not hold (R58). (DEDUCED, log 33.) -/
def missedHome (s : State) (p : Pending) : Bool :=
  p.lanes.any (fun l => !l.done && (l2Find s (l.spa / 128)).isNone && (match spaceOf s l.spa with | .host => false | _ => true))

/-- Whether a load is known to have missed: a walk was started for it, or a line it still needs is not in L2 (R58). (DEDUCED, log 33.) -/
def loadMissed (s : State) (p : Pending) : Bool :=
  (match p.acc with | .load _ _ _ acq _ _ => !acq | _ => false) && !p.allDone &&
    (p.miss || missedHome s p)

/-- Whether a flag that a held strand waits for is held by such a load. (DEDUCED, log 33.) -/
def missTrigger (s : State) (t : Strand) : Bool :=
  s.pend.any (fun p => loadMissed s p && t.holds.any (fun h => h.2 == p.id && t.waits.getLsbD h.1))

/-- Blocks of a strand's fibres, and its dirty lines. -/
def ownLine (t : Strand) (k : LineKey) : Bool :=
  match k with
  | .vec b _ => t.fibres.any (fun f => f / 32 == b)
  | _ => false
def dirtyLines (x : Skein) (t : Strand) : List RegLine := x.lines.filter (fun l => l.st == .dirty && ownLine t l.key)

/-- RASTOP of the header a strand is held at; a header that cannot be read counts as set. -/
def rastopAt (s : State) (t : Strand) (x : Skein) : Bool :=
  match (fetchBlock s t x t.pc).2 with
  | .error _ => true
  | .ok block =>
    match headerOf t.pc (BitVec.ofNat 64 (fieldOf (fetchFrom t.pc block) 0 8)) with
    | some (c, _, _) => c.rastop
    | none => true

/-- The conditions of R58. -/
def raCanEnter (s : State) (t : Strand) (x : Skein) : Bool :=
  t.st == .held && t.ra.isNone && mayRun s x && !rastopAt s t x && missTrigger s t &&
    (match ctxOf s x with | some c => c.ractl.getLsbD 0 | none => false) && decide (x.lines.length + (dirtyLines x t).length ≤ x.lineCap)

/-- The destination registers of an access in flight, with their words. -/
def Acc.dest : Acc → Option (Field8 × Nat)
  | .load d fmt .. => some (d, if fmt.wide then 2 else 1)
  | .lds d fmt => some (d, if fmt.wide then 2 else 1)
  | .atom (some d) _ ty _ => some (d, if ty.wide then 2 else 1)
  | .atomf (some d) _ _ => some (d, 1)
  | _ => none

/-- INV marks at entry: the destinations of the strand's outstanding loads. (DEDUCED, log 40.) -/
def raMarks (s : State) (t : Strand) : List (Nat × Nat) × List Nat :=
  (s.pend.filter (fun p => p.strands.contains t.id)).foldl (fun acc p =>
    match p.acc.dest with
    | none => acc
    | some (d, n) =>
      if d.toNat < 192 then (acc.1 ++ (p.lanes.filter (fun l => !l.done)).flatMap (fun l => (upTo d.toNat n).map (fun r => (l.fibre, r))), acc.2)
      else (acc.1, insNat (d.toNat - 192) acc.2)) ([], [])

/-- A skein with a strand's dirty lines kept as its checkpoint. -/
def checkpointSkein (t : Strand) (x : Skein) : Skein :=
  { x with lines := x.lines.map (fun l => if l.st == .dirty && ownLine t l.key then { l with st := .checkpoint, strand := t.id } else l) }

/-- Entry (R59). -/
def raEnter (s : State) (t : Strand) (x : Skein) : State :=
  let s1 := leaveActive s t
  let m := raMarks s t
  let v : RaView :=
    { saved := (x.fibres.filter (fun f => t.fibres.contains f.id)).map (fun f => { id := f.id, preds := f.preds, regs := f.regs, live := f.live, rel := f.rel }),
      invR := m.1, invP := [], invG := m.2, g := [], gSet := [], poisoned := [], pc := t.pc, clause := none, waits := t.waits, spent := 0, lines := 0,
      dirty := (dirtyLines x t).length }
  -- a load that has missed at its home slice has left the spindle (15 R341; 13 R293)
  let sentLoads := { s1 with pend := s1.pend.map (fun p =>
    if loadMissed s1 p && missedHome s1 p && t.holds.any (fun h => h.2 == p.id && t.waits.getLsbD h.1) then { p with sent := true } else p) }
  let s2 := updStrand (updSkein sentLoads x.id (checkpointSkein t)) t.id (fun u => { u with st := .runahead, ra := some v, clause := none, wait := none })
  updCtx s2 x.vd x.ctx (fun c => { c with ra := { c.ra with epi := c.ra.epi + 1 } })

def execRunaheadEntry (k : Nat) (s : State) : Out :=
  .next (match strand? s k with
    | none => s
    | some t =>
      match skein? s t.skein with
      | none => s
      | some x => if raCanEnter s t x then raEnter s t x else s)

/-! ### RUNAHEAD_EXIT -/

/-- Whether an episode is over: every flag of the held clause's WAIT is idle. -/
def raOver (t : Strand) : Bool := match t.ra with | some v => t.waitMet v.waits | none => false

def execRunaheadExit (k : Nat) (s : State) : Out :=
  .next (match strand? s k with
    | none => s
    | some t => if raOver t then raEnd s t .ready else s)

end Sys2Proof.Machine
end

