-- ==== Sys2Proof/Machine/Packets.lean ====
section
/-! DEFINITION. What queues and BTE packets share (10 R235 to R241, R423, R424; 15 R323 to R325, R331): a consumer's reads of its queue, slots
consumed, a packet's fields and its checks, its completion block, its end, and what becomes of it when an access fails. -/
namespace Sys2Proof.Machine

/-! ### A consumer's reads -/

/-- A read for a queue fails (R424): the queue pauses on a page fault; otherwise it is frozen. (DEDUCED, log 43.) -/
def queueFault (s : State) (d : Nat) (f : Flt) : State :=
  let m := Master.queue s d
  match f.cls with
  | .page1 | .page2 =>
    let r := postPage s m f (.queue d)
    putQueue r.1 { queueOf r.1 d with token := some r.2 }
  | _ => freezeQueue (postEngine s m f) d

/-- The path of a queue's consumer: BT for the BTEs, CP for the parser. -/
def consumerPath (s : State) (d : Nat) : Nat := if qKind s d = 0 then 1 else 4

/-- What a queue's consumer asks for. -/
def consumerReq (s : State) (d : Nat) (va : BitVec 64) (write : Bool) : XReq :=
  engineReq (descVd s d) (descCtx s d) (qMill s d) (queueAcct s (descVd s d) (descCtx s d) false) va write

/-- A consumer reads n bytes: the bytes, or the failure, with the state. (DEDUCED, log 43.) -/
def consumerGet (s : State) (d : Nat) (va : BitVec 64) (n : Nat) : State × Except Flt (List Byte) :=
  match xlatePieces (fun a => consumerReq s d a false) (consumerPath s d) s (piecesOf va n) with
  | .held s1 => (s1, .ok [])
  | .bad s1 f => (s1, .error f)
  | .ok s1 ps u =>
    match readPieces (queueAcct s (descVd s d) (descCtx s d) false) u s1 ps with
    | (s2, some bs) => (s2, .ok bs)
    | (s2, none) => (s2, .error (engineData s1 ps va (1 + 32 * consumerPath s d)))

/-- The address of slot i of a queue. -/
def slotVa (s : State) (d i : Nat) : BitVec 64 := BitVec.ofNat 64 (qBase s d + slotOff i (qLog s d))

/-- The address at which a queue's next packet stands: the slot at RIDX, or in the innermost indirect buffer (15 R330). -/
def nextVa (s : State) (d : Nat) : BitVec 64 :=
  match (queueOf s d).ibs with
  | [] => slotVa s d (qRidx s d)
  | l :: _ => l.addr

/-- Whether a queue descriptor is one that a consumer can serve. (DEDUCED, log 58.) -/
def queueServed (s : State) (d : Nat) : Bool := qOk s d 0 || qOk s d 1

/-- Whether a record that a queue was stopped with still waits (16 R363): one of a write of the CP path stops nothing but the write (R424). -/
def queueRecordWaits (s : State) (d : Nat) : Bool :=
  s.flts.any (fun w => fieldOf w.bytes 5 1 == 2 && fieldOf w.bytes 4 1 == descVd s d && fieldOf w.bytes 14 2 == descQid s d &&
    !(fieldOf w.bytes 0 1 == 2 && fieldOf w.bytes 2 1 / 32 == 4))

/-- Whether a queue's consumer may take its next packet, but for the packet's being ready (15 R324, R330, R332, R339). -/
def queueOpen (s : State) (d : Nat) : Bool :=
  let fe := queueOf s d
  let v := vdOf s (descVd s d)
  queueServed s d && !descFlag s d 0 && fe.token.isNone && fe.wait.isNone && !fe.skipIb && !v.stopped && !v.empty && !queueRecordWaits s d &&
    (!fe.ibs.isEmpty || qRidx s d != qWidx s d) && !s.pkts.any (fun p => p.desc == d && !p.accepted)

/-- The descriptor mapped in a slot of CPR_QSLOT. -/
def slotDesc (s : State) (n : Nat) : Option Nat :=
  let v := mget s.cp.qslot n
  if n < 256 && v.getLsbD 0 then some ((bits v 6 58).toNat * 64) else none

/-- RIDX advances past a slot. -/
def ridxOn (s : State) (d : Nat) : State :=
  writeSpa (engineLine (putQueue s { queueOf s d with zero := false }) (queueAcct s (descVd s d) (descCtx s d) false) (d / 128) true false) (d + 24)
    (toBytes 8 ((qRidx s d + 1) % 2 ^ 64))

/-- A slot that has been consumed: its bytes 7:0 are zeroed, then RIDX advances (15 R324); a zeroing that fails its checks, or that a full dirty-page log
holds, is made again when the queue goes on. (DEDUCED, log 42.) -/
def slotDone (s0 : State) (d : Nat) : State :=
  let s := putQueue s0 { queueOf s0 d with zero := true }
  let acct := queueAcct s (descVd s d) (descCtx s d) false
  match xlatePieces (fun a => consumerReq s d a true) (consumerPath s d) s [(slotVa s d (qRidx s d), 8)] with
  | .ok s1 ps _ => ridxOn (ps.foldl (fun u p => writeSpa (engineLine u acct (p.1 / 128) true false) p.1 (zeros 8)) s1) d
  | .held s1 => s1
  | .bad s1 f => queueFault s1 d f

/-- Indirect buffers after the packet at the innermost one's place is done: none when the outermost is over. (DEDUCED, log 53.) -/
def ibsAfter : List IbLevel → List IbLevel
  | [] => []
  | l :: ls => if l.left ≤ 1 then ibsAfter ls else { addr := l.addr + 64, left := l.left - 1 } :: ls

/-- The next packet of a queue has been taken (15 R324, R330). -/
def packetTaken (s : State) (d : Nat) : State :=
  let fe := queueOf s d
  let rest := ibsAfter fe.ibs
  let s1 := putQueue s { fe with ibs := rest }
  if rest.isEmpty then slotDone s1 d else s1

/-! ### Fields of a packet (10 R237, R238) -/

def BtePkt.typ (p : BtePkt) : Nat := fieldOf p.bytes 0 1
def BtePkt.opt (p : BtePkt) : Nat := fieldOf p.bytes 1 1
def BtePkt.len (p : BtePkt) : Nat := fieldOf p.bytes 4 4
def BtePkt.cmpl (p : BtePkt) : BitVec 64 := BitVec.ofNat 64 (fieldOf p.bytes 8 8)
def BtePkt.dst (p : BtePkt) : BitVec 64 := BitVec.ofNat 64 (fieldOf p.bytes 16 8)
def BtePkt.src (p : BtePkt) : BitVec 64 := BitVec.ofNat 64 (fieldOf p.bytes 24 8)
def BtePkt.ord (p : BtePkt) : Bool := decide (128 ≤ p.opt)

/-- X of a follow-on SSTEP and SLUT: none when a reserved bit is set or ABW is 7 (09 R228). (DEDUCED, log 46.) -/
def xSstep (x : BitVec 64) : Option OpSstep :=
  if x.getLsbD 31 || bits x 44 20 != 0 || bits x 28 3 == 7 then none
  else some { c := { guard := 0x0F, setf := 0 }, a := { reg := 0, last := false }, b := { reg := 0, last := false }, rows := bits x 0 8, kb := bits x 8 8,
              klast := bits x 16 4, nc := bits x 20 7, zero := x.getLsbD 27, abw := bits x 28 3, orow := bits x 32 12 }
/-- DEDUCED, log 46. -/
def xSlut (x : BitVec 64) : Option OpSlut :=
  if bits x 16 4 != 0 || bits x 28 4 != 0 || bits x 44 20 != 0 then none
  else some { c := { guard := 0x0F, setf := 0 }, a := { reg := 0, last := false }, b := { reg := 0, last := false }, rows := bits x 0 8, kb := bits x 8 8,
              nc := bits x 20 7, zero := x.getLsbD 27, orow := bits x 32 12 }

/-- BAD-PACKET of a BTE queue (10 R237 to R239): a reserved TYPE, a reserved byte or bit that is not zero, a misaligned CMPL. (DEDUCED, log 46.) -/
def badBte (bs : List Byte) : Bool :=
  let nz := fun (lo n : Nat) => fieldOf bs lo n != 0
  let opt := fieldOf bs 1 1 % 128
  nz 2 2 || fieldOf bs 8 8 % 64 != 0 ||
    (match fieldOf bs 0 1 with
    | 1 => opt != 0 || nz 36 4 || nz 56 8
    | 2 =>
      let x := BitVec.ofNat 64 (fieldOf bs 40 8)
      opt != 0 || nz 49 15 || decide (2 ≤ fieldOf bs 48 1) || (if fieldOf bs 48 1 = 1 then (xSlut x).isNone else (xSstep x).isNone)
    | 3 => opt != 0 || nz 44 20
    | 4 => opt != 0 || nz 24 8 || nz 40 24
    | 5 => opt != 0 || nz 32 32
    | 6 => decide (4 ≤ opt) || nz 36 4 || nz 56 8
    | 7 => decide (2 ≤ opt) || nz 40 24
    | _ => true)

/-- Bytes of a packet's destination tile. -/
def BtePkt.tile (p : BtePkt) : Nat := if p.typ = 5 then p.data.length else pktBytes p.bytes

/-! ### The completion block (10 R239) -/

/-- The account of a packet's traffic. -/
def BtePkt.acct (s : State) (p : BtePkt) : Acct := queueAcct s p.vd p.ctx p.host
def pktReq (s : State) (p : BtePkt) (write : Bool) (va : BitVec 64) : XReq := engineReq p.vd p.ctx p.mill (p.acct s) va write

/-- How a write of the completion block comes out. -/
inductive BlockOut where
  | ok (s : State)
  | held (s : State)
  | bad (s : State) (f : Flt)

/-- Bytes written at an offset of a packet's completion block, or a bit set in a bitmap word. -/
def blockWrite (s : State) (p : BtePkt) (off : Nat) (bs : List Byte) (or : Bool) : BlockOut :=
  let va := p.cmpl + BitVec.ofNat 64 off
  match xlatePieces (pktReq s p true) 1 s (piecesOf va bs.length) with
  | .held s1 => .held s1
  | .bad s1 f => .bad s1 f
  | .ok s1 ps u =>
    let spa := (ps.headD (0, 0)).1
    if or && poisoned s1 spa bs.length then .bad s1 (engineData s1 ps va 34)
    else
      let v := if or then toBytes bs.length (Nat.lor (ofBytes bs) (readNat s1 spa bs.length)) else bs
      let r := writePieces (p.acct s) u s1 ps v 0
      .ok (noteGw r.1 p.desc r.2)

/-- STATUS (10 R239). -/
def statusWord (code cause : Nat) : BitVec 32 := BitVec.ofNat 32 (2 ^ 31 + cause * 65536 + code)

/-- A packet's outcome as an error-queue entry. (DEDUCED, log 47.) -/
def errPkt (s : State) (p : BtePkt) (st : BitVec 32) : State := errqPut s p.vd 8 (descQid s p.desc) p.slot (st.toNat % 2 ^ 31)

/-- A packet is over. -/
def pktGone (s : State) (p : BtePkt) : State :=
  let fe := queueOf s p.desc
  putQueue { s with pkts := s.pkts.filter (fun q => q.id != p.id) } { fe with open_ := fe.open_.filter (fun n => n != p.seq) }

/-- The black box notes a frozen channel (16 R365, R370). -/
def chanId (p : BtePkt) : Nat := p.mill * 8 + p.bte
def Master.ofPkt (p : BtePkt) : Master := Master.bte p.vd p.ctx p.mill p.bte

/-- A packet's final STATUS is written and the packet is over; without a block that can be written, a failure goes to the error queue (R239, R424). (DEDUCED, log 47.) -/
def pktFinish (s : State) (p : BtePkt) (st : BitVec 32) : State :=
  let failed := bits st 0 8 != 0
  if p.cmpl = 0 ∨ p.cmpl.toNat % 64 ≠ 0 then (let s1 := pktGone s p; if failed then errPkt s1 p st else s1)
  else
    match blockWrite s p 8 (toBytes 4 st.toNat) false with
    | .ok s1 => pktGone s1 p
    | .held s1 => setPkt s1 { p with st := .moving, fin := some st }
    | .bad s1 f =>
      match f.cls with
      | .page1 | .page2 =>
        let r := postPage s1 (Master.ofPkt p) f (.packet p.id)
        setPkt r.1 { p with st := .paused r.2, fin := some st }
      | .violation =>
        let s2 := errPkt (postEngine s1 (Master.ofPkt p) f) p st
        bboxFree (setPkt s2 { p with st := .frozen (BitVec.ofNat 8 f.code), fin := some st }) 3
      | _ => pktGone (errPkt (postEngine s1 (Master.ofPkt p) f) p st) p

/-- A packet completes with a code and a cause. -/
def packetDone (s : State) (p : BtePkt) (code cause : Nat) : State := pktFinish s p (statusWord code cause)

/-- An access for a packet fails (R239, R365, R424). -/
def pktFault (s : State) (p : BtePkt) (f : Flt) : State :=
  let m := Master.ofPkt p
  match f.cls with
  | .page1 | .page2 =>
    let r := postPage s m f (.packet p.id)
    setPkt r.1 { p with st := .paused r.2 }
  | .violation =>
    let s1 := postEngine s m { f with detail := 2 }
    let st := BitVec.ofNat 32 (f.code * 65536 + 2)
    let s2 := if p.cmpl = 0 then s1 else
      match blockWrite s1 p 8 (toBytes 4 st.toNat) false with
      | .ok s2 => s2
      | .held s2 => s2
      | .bad s2 g => errPkt (postEngine s2 m g) p st
    bboxFree (setPkt s2 { p with st := .frozen (BitVec.ofNat 8 f.code) }) 3
  | .data => packetDone (postEngine s m { f with detail := 5 }) p 5 0
  | _ => packetDone (postEngine s m { f with detail := 2 }) p 2 f.code

/-! ### Taking a packet -/

/-- The channels of a mill that serve a queue's packets: those on which none of them is frozen (16 R365). (DESIGN CHOICE, log 44.) -/
def freeChannels (s : State) (d mill : Nat) : List Nat :=
  (upTo 0 8).filter (fun b => !s.pkts.any (fun p => p.desc == d && p.mill == mill && p.bte == b && (match p.st with | .frozen _ => true | _ => false)))

/-- A BTE takes the packet in a slot: its bytes, its promise, its channel; a BAD-PACKET completes at once (10 R237, R239, R241). (DESIGN CHOICE, log 44; DEDUCED, log 124.) -/
def takeBte (s : State) (d : Nat) (bs : List Byte) : State :=
  let fe := queueOf s d
  let i := qRidx s d
  let mill := qMill s d
  let vd := descVd s d
  let made := fe.promises.find? (fun e => e.1 == i)
  let chans := freeChannels s d mill
  let p : BtePkt :=
    { id := s.key, desc := d, slot := i, seq := fe.seq, vd := vd, ctx := descCtx s d, mill := mill,
      bte := chans.getD (choose s (910 + d) chans.length) 0, host := made.isNone, bytes := bs, accepted := false,
      promise := (match made with
        | some e => e.2
        | none => promiseOf s.gtb.toNat (bteOf s vd mill).rate (takenBytes s d) (pktBytes bs) (fieldOf bs 0 1)),
      st := .waiting, done := [], landed := [], chunks := 0, moved := 0, data := [], skein := none, fin := none }
  let s1 := putQueue { s with key := s.key + 1, pkts := s.pkts ++ [p] }
    { fe with seq := fe.seq + 1, open_ := fe.open_ ++ [p.seq], promises := fe.promises.filter (fun e => e.1 != i) }
  let s2 := packetTaken s1 d
  if badBte bs then packetDone s2 p 1 0 else s2

/-- Whether a packet may start: every earlier packet of its queue has started, and, with ORD or for SIGNAL, has completed (10 R237, R238). -/
def mayStart (s : State) (p : BtePkt) : Bool :=
  !s.pkts.any (fun q => q.desc == p.desc && !q.accepted && decide (q.seq < p.seq)) &&
    (!(p.ord || p.typ == 7) || !(queueOf s p.desc).open_.any (fun n => decide (n < p.seq)))

/-- Whether a packet is served at all now: its VD runs (15 R341), and no record of its channel still waits (16 R363). -/
def pktServed (s : State) (p : BtePkt) : Bool := !(vdOf s p.vd).stopped && !recordWaits s 0 3 p.vd 0 (chanId p)

end Sys2Proof.Machine
end

