-- ==== Sys2Proof/Machine/Bte.lean ====
section
/-! DEFINITION. The BTE packets (10 R237 to R241; 09 R229; 17 R382): acceptance, chunks, bandwidth, and COPY, COPY_ARRAY,
FOLLOW_ON_ARRAY_COMMAND, GATHER, FILL, DECOMP, REMOTE_COPY and SIGNAL. An event of a packet takes whichever of these steps is next for the chunk it
names: acceptance, the chunk's bytes, the chunk's bit, or an outcome that could not be written before. -/
namespace Sys2Proof.Machine

/-! ### Bandwidth (10 R240) -/

/-- What a VD may still borrow on a mill in this tick. -/
def borrowLeft (s : State) (vd mill : Nat) : Nat :=
  let of := fun (v : Vd) => (v.bte.find? (fun b => b.mill == mill)).getD (BteBkt.reset mill)
  let unused := ((s.vds.filter (fun v => v.num != vd)).map (fun v => (of v).rate - (of v).moved)).foldl (fun a n => a + n) 0
  unused - (s.vds.map (fun v => (of v).borrowed)).foldl (fun a n => a + n) 0

/-- A VD's bucket after a chunk of n bytes; none when the chunk may not start. -/
def chunkBucket (s : State) (vd mill n : Nat) : Option BteBkt :=
  let b := bteOf s vd mill
  if 0 < b.lvl then some { b with lvl := b.lvl - n, moved := b.moved + n }
  else if !b.debt && decide (0 ≤ b.lvl + b.borrowed) && decide (n ≤ borrowLeft s vd mill) && decide (-(4 * (b.rate : Int)) ≤ b.lvl - n) then
    some { b with lvl := b.lvl - n, moved := b.moved + n, borrowed := b.borrowed + n }
  else none

/-! ### Moving bytes -/

/-- How the bytes of a chunk move: done with the largest GWCT; held back for now; a failed access; the packet is over with a code and a cause. -/
inductive MoveOut where
  | moved (s : State) (g : BitVec 64)
  | held (s : State)
  | bad (s : State) (f : Flt)
  | finish (s : State) (code cause : Nat)

/-- Bytes read over ranges by an engine on a path. -/
inductive GetOut where
  | ok (s : State) (bs : List Byte)
  | held (s : State)
  | bad (s : State) (f : Flt)
def engineGet (s : State) (p : BtePkt) (path : Nat) (rs : List (BitVec 64 × Nat)) : GetOut :=
  match xlatePieces (pktReq s p false) path s (rs.flatMap (fun r => piecesOf r.1 r.2)) with
  | .held s1 => .held s1
  | .bad s1 f => .bad s1 f
  | .ok s1 ps u =>
    if ps.any (fun q => lineBusy s1 (q.1 / 128)) then .held s
    else
      match readPieces (p.acct s) u s1 ps with
      | (s2, some bs) => .ok s2 bs
      | (s2, none) => .bad s2 (engineData s1 ps ((rs.head?).elim 0 (fun r => r.1)) (1 + 32 * path))

/-- Whether a piece, at a virtual address and its place, is a whole line of local memory whose stripe lies wholly in a range that is written: every data unit
of the stripe is what some part of the range stands for (17 R378). (DESIGN CHOICE, log 142.) -/
def ownStripe (s : State) (q : BitVec 64 → XReq) (span : BitVec 64 × Nat) (va : BitVec 64) (spa n : Nat) : Bool :=
  let k := stripeUnits s spa
  decide (k * 4096 ≤ span.2) && n == 128 && decide (spa < 2 ^ 50) && (upTo 0 k).all (fun i =>
    let a := (stripeOf s spa * k + i) * 4096
    let v := va + BitVec.ofNat 64 a - BitVec.ofNat 64 spa
    decide ((v - span.1).toNat + 4096 ≤ span.2) && (match xlate s (q v) none none with | (_, .ok b _ false _) => normSpa s b == a | _ => false))
/-- The lines of such stripes among the pieces of ranges, each with the range of the destination that it belongs to. -/
def fullLines (s : State) (q : BitVec 64 → XReq) (dsts spans : List (BitVec 64 × Nat)) (ds : List (Nat × Nat)) : List Nat :=
  let ps := (dsts.zip spans).flatMap (fun r => (piecesOf r.1.1 r.1.2).map (fun v => (v.1, r.2)))
  (ps.zip ds).filterMap (fun e => if ownStripe s q e.1.2 e.1.1 e.2.1 e.2.2 then some (e.2.1 / 128) else none)

/-- Bytes written over ranges, each of them part of a range of the packet's destination; both ends are checked before any byte moves. (DEDUCED, log 49.) -/
def engineMove (s : State) (p : BtePkt) (path : Nat) (srcs dsts spans : List (BitVec 64 × Nat)) (fixed : Option (List Byte)) : MoveOut :=
  match xlatePieces (pktReq s p true) 1 s (dsts.flatMap (fun r => piecesOf r.1 r.2)) with
  | .held s1 => .held s1
  | .bad s1 f => .bad s1 f
  | .ok s1 ds u =>
    if ds.any (fun q => lineBusy s1 (q.1 / 128)) then .held s
    else
      let put := fun (s : State) (bs : List Byte) =>
        let r := writeFull (p.acct s) u (fullLines s (pktReq s p true) dsts spans ds) s ds bs 0
        MoveOut.moved r.1 r.2
      match fixed with
      | some bs => put s1 bs
      | none =>
        match engineGet s1 p path srcs with
        | .ok s2 bs => put s2 bs
        | .held s2 => .held s2
        | .bad s2 f => .bad s2 f

/-- Pieces of the tile from byte t that lie in one row of len bytes: row, offset, length. The first argument bounds them. -/
def rowSegs (len : Nat) : Nat → Nat → Nat → List (Nat × Nat × Nat)
  | 0, _, _ => []
  | k + 1, t, n =>
    if n = 0 ∨ len = 0 then []
    else
      let m := Nat.min n (len - t % len)
      (t / len, t % len, m) :: rowSegs len k (t + m) (n - m)

/-- Bytes of a chunk. -/
def chunkLen (p : BtePkt) (c : Nat) : Nat := Nat.min 512 (p.tile - 512 * c)
def chunkSegs (p : BtePkt) (c : Nat) : List (Nat × Nat × Nat) := rowSegs p.len (chunkLen p c) (512 * c) (chunkLen p c)

/-- COPY's chunk (10 R238). -/
def copyChunk (s : State) (p : BtePkt) (c : Nat) : MoveOut :=
  let ss := BitVec.ofNat 64 (fieldOf p.bytes 40 8)
  let ds := BitVec.ofNat 64 (fieldOf p.bytes 48 8)
  let at_ := fun (base stride : BitVec 64) (g : Nat × Nat × Nat) => (base + BitVec.ofNat 64 g.1 * stride + BitVec.ofNat 64 g.2.1, g.2.2)
  let segs := chunkSegs p c
  let span := fun (g : Nat × Nat × Nat) => if ds.toNat = p.len then (p.dst, p.tile) else (p.dst + BitVec.ofNat 64 g.1 * ds, p.len)
  engineMove s p 1 (segs.map (at_ p.src ss)) (segs.map (at_ p.dst ds)) (segs.map span) none

/-- GATHER's chunk: its indices are read, then its items. -/
def gatherChunk (s : State) (p : BtePkt) (c : Nat) : MoveOut :=
  let idx := BitVec.ofNat 64 (fieldOf p.bytes 32 8)
  let segs := chunkSegs p c
  match engineGet s p 3 (segs.map (fun g => (idx + BitVec.ofNat 64 (4 * g.1), 4))) with
  | .held s1 => .held s1
  | .bad s1 f => .bad s1 f
  | .ok s1 bs =>
    let item := fun (k : Nat) => BitVec.ofNat 64 (fieldOf bs (4 * k) 4) * BitVec.ofNat 64 p.len
    let srcs := (upTo 0 segs.length).filterMap (fun k => (segs[k]?).map (fun g => (p.src + item k + BitVec.ofNat 64 g.2.1, g.2.2)))
    engineMove s1 p 3 srcs [(p.dst + BitVec.ofNat 64 (512 * c), chunkLen p c)] [(p.dst, p.tile)] none

/-- FILL's chunk. -/
def fillChunk (s : State) (p : BtePkt) (c : Nat) : MoveOut :=
  let bs := (upTo (512 * c) (chunkLen p c)).map (fun t => p.bytes.getD (32 + t % 8) 0)
  engineMove s p 1 [] [(p.dst + BitVec.ofNat 64 (512 * c), chunkLen p c)] [(p.dst, p.tile)] (some bs)

/-- DECOMP's chunk of the expanded stream. -/
def decompChunk (s : State) (p : BtePkt) (c : Nat) : MoveOut :=
  engineMove s p 1 [] [(p.dst + BitVec.ofNat 64 (512 * c), chunkLen p c)] [(p.dst, p.tile)] (some ((p.data.drop (512 * c)).take (chunkLen p c)))

/-- The living skein of a VD that a COPY+ARRAY packet names (10 R238, R239). -/
def targetSkein (s : State) (p : BtePkt) : Option Skein :=
  s.skeins.find? (fun x => x.vd == p.vd && !x.retired && x.token == BitVec.ofNat 32 (fieldOf p.bytes 32 4) &&
    (match hank? s x.hank with | some h => !h.failed | none => false))

/-- The place of a range of a packet's scratchpad destination. (DEDUCED, log 48.) -/
def scrDest (s : State) (x : Skein) (p : BtePkt) (off n : Nat) : Option Nat :=
  if 2 ^ 32 ≤ p.dst.toNat then none else (scrTarget s x (bits p.dst 0 32 + BitVec.ofNat 32 off) n).map (fun t => scrPlace t.1.id t.2)

/-- COPY+ARRAY's chunk: into scratchpad, while the skein's hank is placed. -/
def copyArrayChunk (s : State) (p : BtePkt) (c : Nat) : MoveOut :=
  match targetSkein s p with
  | none => .finish s 7 0
  | some x =>
    if !(match hank? s x.hank with | some h => h.st == .placed | none => false) then .held s
    else
      match scrDest s x p (512 * c) (chunkLen p c) with
      | none => .finish s 8 0x23
      | some place =>
        match engineGet s p 1 [(p.src + BitVec.ofNat 64 (512 * c), chunkLen p c)] with
        | .ok s1 bs => .moved (chargeScr (scrWrite s1 place bs) x [(place, bs.length)]) 0
        | .held s1 => .held s1
        | .bad s1 f => .bad s1 f

/-! ### Acceptance -/

/-- Whether a packet's acceptance goes on, with what it has learned; or waits; or fails; or the packet is over. -/
inductive Prep where
  | go (s : State) (p : BtePkt)
  | held (s : State)
  | bad (s : State) (f : Flt)
  | finish (s : State) (code cause : Nat)

/-- Bytes of the longest readable beginning of a stream, with the failure that ended it. (DEDUCED, log 50.) -/
def peekBytes (s : State) (p : BtePkt) : List (BitVec 64 × Nat) → List Byte
  | [] => []
  | r :: rs =>
    match engineGet s p 1 [r] with
    | .ok s1 bs => bs ++ peekBytes s1 p rs
    | _ => []

/-- DECOMP: the stream is read and expanded (09 R225); only the bytes it uses are accessed. (DEDUCED, log 50.) -/
def prepDecomp (s : State) (p : BtePkt) : Prep :=
  let seen := peekBytes s p (piecesOf p.src p.len)
  let used := match plyExpand seen with | some r => r.2 | none => p.len
  match engineGet s p 1 [(p.src, used)] with
  | .held s1 => .held s1
  | .bad s1 f => .bad s1 f
  | .ok s1 bs =>
    match plyExpand bs with
    | none => .finish s1 3 0
    | some r => .go s1 { p with data := r.1 }

/-- COPY+ARRAY: the skein, then the bounds of DST (10 R239). -/
def prepCopyArray (s : State) (p : BtePkt) : Prep :=
  match targetSkein s p with
  | none => .finish s 7 0
  | some x =>
    match scrDest s x p 0 p.len with
    | none => .finish s 8 0x23
    | some _ => .go s { p with skein := some x.id }

/-- Whether a package has advertised scheme 1 (17 R383). -/
def advertises (s : State) (pkg : Nat) : Bool := let v := mget s.fab.peercap pkg; v.getLsbD 8 && v.getLsbD 0

/-- REMOTE-COPY with RAW (17 R382): alignment and the peer's windows, then the STRICT refusal. (DESIGN CHOICE, log 118.) -/
def prepRemote (s : State) (p : BtePkt) : Prep :=
  if p.opt % 2 = 0 then .go s p
  else
    let rows := fieldOf p.bytes 32 4
    let odd := fun (v : Nat) => v % 1024 != 0
    if odd p.src.toNat || odd p.dst.toNat || odd p.len || (rows != 0 && (odd (fieldOf p.bytes 40 8) || odd (fieldOf p.bytes 48 8))) then .finish s 1 0
    else
      match xlatePieces (pktReq s p true) 1 s [(p.dst, 128)] with
      | .held s1 => .held s1
      | .bad s1 f => .bad s1 f
      | .ok s1 ps _ =>
        let spa := (ps.headD (0, 0)).1
        let strict := p.opt / 2 % 2 = 1
        let remote := fun (pkg : Nat) =>
          if !Config.peerWindow spa then Prep.finish s1 1 0
          else if strict && !advertises s1 pkg then .finish s1 4 0
          else .go s1 p
        match spaceOf s1 spa with
        | .host => if strict then .finish s1 4 0 else .go s1 p
        | .local_ => if (cmpWindow s1 spa).isNone then .finish s1 1 0 else .go s1 p
        | .group k => remote k
        | .beyond k => remote k

/-- A packet that may start is accepted: what its type needs is learned, then PROMISE and CHUNKS are written; without chunks it is done (10 R239). -/
def acceptPkt (s : State) (p : BtePkt) (prep : State → BtePkt → Prep) : State :=
  if !mayStart s p then s
  else
    match prep s p with
    | .held s1 => s1
    | .bad s1 f => pktFault s1 p f
    | .finish s1 code cause => packetDone s1 p code cause
    | .go s1 p1 =>
      let q := { p1 with chunks := divUp p1.tile 512 }
      let go := fun (s : State) =>
        let r := { q with accepted := true, st := if q.chunks = 0 && q.typ == 2 then .arrayCmd else .moving }
        let s1 := setPkt s r
        if r.chunks = 0 && r.typ != 2 && r.typ != 7 then packetDone s1 r 0 0 else s1
      if q.cmpl = 0 then go s1
      else
        match blockWrite s1 q 0 (toBytes 8 q.promise.toNat) false with
        | .held s2 => s2
        | .bad s2 f => pktFault s2 p f
        | .ok s2 =>
          match blockWrite s2 q 12 (toBytes 4 q.chunks) false with
          | .held s3 => s3
          | .bad s3 f => pktFault s3 p f
          | .ok s3 => go s3

/-! ### Chunks -/

/-- A chunk's bit is set once its bytes are globally complete; after the last, the packet is done, or its array command is due (10 R238, R239). (DEDUCED, log 111.) -/
def chunkBit (s : State) (p : BtePkt) (c : Nat) : State :=
  let after := fun (s : State) =>
    let q := { p with landed := p.landed.filter (fun e => e.1 != c), done := insNat c p.done }
    if q.done.length < q.chunks then setPkt s q
    else if q.typ = 2 then setPkt s { q with st := .arrayCmd }
    else packetDone (setPkt s q) q 0 0
  if p.cmpl = 0 then after s
  else
    match blockWrite s p (64 + 8 * (c / 64)) (toBytes 8 (2 ^ (c % 64))) true with
    | .held s1 => s1
    | .bad s1 f => pktFault s1 p f
    | .ok s1 => after s1

/-- A chunk's bytes move, when the bandwidth lets it start (10 R240): charged per 128 bytes. -/
def chunkMove (s : State) (p : BtePkt) (c : Nat) (move : State → BtePkt → Nat → MoveOut) : State :=
  let n := chunkLen p c
  match chunkBucket s p.vd p.mill n with
  | none => s
  | some b =>
    match move s p c with
    | .held s1 => s1
    | .bad s1 f => pktFault s1 p f
    | .finish s1 code cause => packetDone s1 p code cause
    | .moved s1 g =>
      let s2 := charge (setBte s1 p.vd b) (p.acct s1) p.mill (if p.typ = 5 then 27 else 26) (divUp n 128)
      noteGw (setPkt s2 { p with landed := p.landed ++ [(c, g)], moved := p.moved + n }) p.desc g

/-- The next step of a packet of a type for a chunk. -/
def pktStep (typ : Nat) (prep : State → BtePkt → Prep) (move : State → BtePkt → Nat → MoveOut) (id c : Nat) (s : State) : State :=
  match pkt? s id with
  | none => s
  | some p =>
    if p.typ != typ || !pktServed s p then s
    else
      match p.st with
      | .waiting => acceptPkt s p prep
      | .moving =>
        (match p.fin with
        | some st => pktFinish s p st
        | none =>
          if !p.accepted then acceptPkt s p prep
          else if p.chunks ≤ c || p.done.contains c then s
          else
            match p.landed.find? (fun e => e.1 == c) with
            | some e => if e.2 = 0 ∨ e.2.toNat < s.gtb.toNat then chunkBit s p c else s
            | none => chunkMove s p c move)
      | _ => s

def noPrep (s : State) (p : BtePkt) : Prep := .go s p

def execCopy (id c : Nat) (s : State) : Out := .next (pktStep 1 noPrep copyChunk id c s)
def execCopyArray (id c : Nat) (s : State) : Out := .next (pktStep 2 prepCopyArray copyArrayChunk id c s)
def execGather (id c : Nat) (s : State) : Out := .next (pktStep 3 noPrep gatherChunk id c s)
def execFill (id c : Nat) (s : State) : Out := .next (pktStep 4 noPrep fillChunk id c s)
def execDecomp (id c : Nat) (s : State) : Out := .next (pktStep 5 prepDecomp decompChunk id c s)
def execRemoteCopy (id c : Nat) (s : State) : Out := .next (pktStep 6 prepRemote copyChunk id c s)

/-! ### FOLLOW_ON_ARRAY_COMMAND (10 R238; 09 R229) -/

/-- The rows and the work of a follow-on command; the work takes the places of the rows. -/
def followOp (p : BtePkt) : Option (RowOp × (List Nat → ArrayOp)) :=
  let a := bits p.dst 0 32
  let b := BitVec.ofNat 32 (fieldOf p.bytes 36 4)
  let x := BitVec.ofNat 64 (fieldOf p.bytes 40 8)
  if fieldOf p.bytes 48 1 = 1 then (xSlut x).map (fun o => (RowOp.ofSlut o a b, ArrayOp.ofSlut o))
  else (xSstep x).map (fun o => (RowOp.ofSstep o a b, ArrayOp.ofSstep o))

/-- Whether a follow-on command can enter its skein's order now: the hank is placed, and no WLD of the skein is outstanding. -/
def followReady (s : State) (x : Skein) : Bool :=
  (match hank? s x.hank with | some h => h.st == .placed | none => false) &&
    !s.pend.any (fun q => q.skein == x.id && (match q.acc with | .wld .. => true | _ => false))

/-- FOLLOW_ON_ARRAY_COMMAND: the last byte of the copy has landed; the command is checked, and joins the skein's array work or completes the
packet with ARRAY-REFUSED; work that ended with its skein completes it with NO-TARGET. -/
def execFollowOnArrayCommand (id : Nat) (s : State) : Out :=
  .next (match pkt? s id with
    | none => s
    | some p =>
      if p.st == .arrayWait && !s.array.any (fun w => w.pkt == some id) then packetDone s p 7 0
      else if p.st != .arrayCmd || !pktServed s p then s
      else
        match targetSkein s p with
        | none => packetDone s p 7 0
        | some x =>
          if !followReady s x then s
          else
            match followOp p with
            | none => packetDone s p 1 0
            | some (row, op) =>
              match rowCheck s x row with
              | .error f => packetDone s p 8 (if f.1 = 0x1A then f.2.1 else 0x10 + f.1)
              | .ok src =>
                let w : ArrayWork := { id := s.key, strands := [], skein := x.id, spindle := x.spindle, op := op src, r := 0, b := 0, sums := [],
                                       pkt := some p.id, started := false, begun := false, flags := 0, startGtb := s.gtb, pc := 0, word := [], ops := [] }
                setPkt { s with key := s.key + 1, array := s.array ++ [w] } { p with st := .arrayWait, skein := some x.id })

/-! ### SIGNAL (10 R238; 15 R325) -/

/-- SIGNAL of a BTE queue: VALUE is stored at DST or added there, once the queue's earlier writes are globally complete. (DEDUCED, log 51; DEDUCED, log 111.) -/
def signalBte (s : State) (p : BtePkt) : State :=
  let v := fieldOf p.bytes 32 8
  let add := p.opt % 4 = 1
  if p.dst.toNat % 8 ≠ 0 then pktFault s p (engineMis p.dst true 1)
  else
    match xlatePieces (fun a => { pktReq s p true a with read := add }) 1 s [(p.dst, 8)] with
    | .held s1 => s1
    | .bad s1 f => pktFault s1 p f
    | .ok s1 ps u =>
      let spa := (ps.headD (0, 0)).1
      if add && poisoned s1 spa 8 then pktFault s1 p (engineData s1 ps p.dst 35)
      else
        let n := if add then (readNat s1 spa 8 + v) % 2 ^ 64 else v
        let s2 := if add then l2Ensure s1 (p.acct s1) (spa / 128) u else s1
        let r := writePieces (p.acct s2) u s2 ps (toBytes 8 n) 0
        packetDone (noteGw r.1 p.desc r.2) p 0 0

/-- SIGNAL: after every earlier packet of its queue has completed; of a launch queue, as a write of the CP path. -/
def execSignal (id : Nat) (s : State) : Out :=
  .next (match pkt? s id with
    | none => s
    | some p =>
      if p.typ != 7 || !pktServed s p || !mayStart s p then s
      else if qKind s p.desc = 1 then
        let v := BitVec.ofNat 64 (fieldOf p.bytes 32 8)
        let s1 := pktGone s p
        if p.opt % 4 = 1 then cpWrite s1 p.desc p.dst (toBytes 8 v.toNat) (some v) else cpWrite s1 p.desc p.dst (toBytes 8 v.toNat) none
      else
        match p.st with
        | .waiting => acceptPkt s p noPrep
        | .moving =>
          (match p.fin with
          | some st => pktFinish s p st
          | none => if !p.accepted then acceptPkt s p noPrep else if (queueOf s p.desc).gw.toNat < s.gtb.toNat then signalBte s p else s)
        | _ => s)

end Sys2Proof.Machine
end

