-- ==== Sys2Proof/Machine/ArrayStep.lean ====
section
/-! DEFINITION. Accumulation steps of the array (04 R111 to R115; 09 R217, R223, R228 to R230; 01 R19): ARRAY_STEP. -/
namespace Sys2Proof.Machine

/-! ### Exact sums -/

/-- A sum of two fractions whose denominators are powers of two. -/
def fracAdd (x y : Int × Nat) : Int × Nat := let d := Nat.max x.2 y.2; (x.1 * (d / x.2 : Nat) + y.1 * (d / y.2 : Nat), d)

/-- One element of TMMA (R111, R112): its f32 bits and flags, from the unmasked factors and the accumulator. -/
def tmmaElem (as bs : List FV) (cb : Nat) : Nat × Flags :=
  let c := FF.f32.decode cb
  let ps := as.zip bs
  let prods := ps.map (fun p => mulV p.1 p.2)
  let sig := sigFlag (c :: as ++ bs)
  if c.isNan || as.any FV.isNan || bs.any FV.isNan then (FF.f32.nanBits, sig)
  else if prods.any (fun p => p.isNone) then (FF.f32.nanBits, flagNV)
  else
    let vs := prods.filterMap id
    let infs := (c :: vs).filter FV.isInf
    if infs.any FV.neg? && infs.any (fun v => !v.neg?) then (FF.f32.nanBits, flagNV)
    else
      match infs with
      | i :: _ => (FF.f32.signed i.neg? FF.f32.infBits, 0)
      | [] =>
        let t := vs.foldl (fun acc v => fracAdd acc (v.sn, v.den)) (c.sn, c.den)
        let zneg := c.isZero && c.neg? && vs.all (fun v => v.isZero && v.neg?)
        FF.f32.roundSigned false .rne t.1 t.2 zneg

/-- TMMA on a skein: the accumulator's elements and the flags. -/
def tmmaAll (x : Skein) (d a b : Nat) (bf zc : Bool) (rows cols depth : Nat) : SMap 32 × Flags :=
  let k := if bf then FF.bf16 else FF.f16
  let el := fun (t i j : Nat) => k.decodeFlush (mget x.tiles (256 * t + 16 * i + j)).toNat
  (upTo 0 rows).foldl (fun (acc : SMap 32 × Flags) i =>
    let as := (upTo 0 depth).map (fun q => el a i q)
    (upTo 0 cols).foldl (fun (acc : SMap 32 × Flags) j =>
      let at_ := 256 * d + 16 * i + j
      let r := tmmaElem as ((upTo 0 depth).map (fun q => el b q j)) (if zc then 0 else (mget x.accs at_).toNat)
      (mset acc.1 at_ (BitVec.ofNat 32 r.1), acc.2 ||| r.2)) acc) (x.accs, 0)

/-- One block of R113: the accumulator element, the exponents, the width exponents' offset and the integer sum. -/
def blockAcc (acc : BitVec 32) (ew ea : Nat) (off : Int) (sum : Int) : BitVec 32 × Flags :=
  if ew = 255 ∨ ea = 255 then (BitVec.ofNat 32 FF.f32.nanBits, 0)
  else
    match FF.f32.decode acc.toNat with
    | .nan _ => (BitVec.ofNat 32 FF.f32.nanBits, 0)
    | .inf _ => (acc, 0)
    | .fin n m d =>
      let ex : Int := (ew : Int) + (ea : Int) - 254 - off
      let p : Int × Nat := if 0 ≤ ex then (sum * 2 ^ ex.toNat, 1) else (sum, 2 ^ (-ex).toNat)
      let t := fracAdd ((if n then -(m : Int) else (m : Int)), d) p
      let r := FF.f32.roundSigned false .rne t.1 t.2 false
      (BitVec.ofNat 32 r.1, r.2)

/-- The bytes that a latch record supplies. -/
def LatchRec.data (x : Skein) (r : LatchRec) : List Byte :=
  if r.cmp then (match plyExpand (shareFrom x r.off) with | some e => e.1 | none => []) else mgetAll x.share r.off r.len

/-- The latched block b of each of the first nc columns, as width m (09 R226). -/
def latchedBlocks (x : Skein) (b nc : Nat) : List Bfp :=
  match x.latch with
  | none => []
  | some l =>
    let data := l.recs.map (fun r => (r, r.data x))
    let rs := 2 * l.m + 2
    (upTo 0 nc).map (fun n =>
      match data.find? (fun r => r.1.cols.contains n) with
      | some (r, bs) => Bfp.ofBytes l.m ((bs.drop (((n - r.n0) * l.kb + b) * rs)).take rs)
      | none => { e := 0, q := List.replicate 16 0 })

/-- The sum of SSTEP's block, of the elements in use. -/
def dot (w x : List Int) (n : Nat) : Int := (upTo 0 n).foldl (fun (acc : Int) i => acc + w.getD i 0 * x.getD i 0) 0

/-- The sum of SLUT's block from the activation's table record (R230). -/
def lutSum (w : List Int) (tab : List Byte) : Int :=
  let u := fun (i : Nat) => ((w.getD i 0) % 4).toNat
  let entry := fun (g x : Nat) => (BitVec.ofNat 16 (fieldOf tab (8 + 32 * g + 2 * x) 2)).toInt
  (upTo 0 4).foldl (fun (acc : Int) g =>
    let idx := fun (f : Nat → Nat) => (upTo 0 4).foldl (fun n i => n + f (u (4 * g + i)) * 2 ^ i) 0
    acc - 2 * entry g (idx (fun v => v / 2)) + entry g (idx (fun v => v % 2))) 0

/-- One step (r, b) of a stream of rows: each column's element after its block, with the flags. -/
def streamBlock (s : State) (x : Skein) (op : ArrayOp) (r b : Nat) (acc : List (BitVec 32)) : List (BitVec 32 × Flags) :=
  match op with
  | .tmma .. => []
  | .sstep src kb klast nc _ ma _ =>
    let a := Bfp.ofBytes ma (scrRead s (src.getD r 0 + b * (2 * ma + 2)) (2 * ma + 2))
    let mw := match x.latch with | some l => l.m | none => 2
    let n := if b + 1 = kb then klast else 16
    (acc.zip (latchedBlocks x b nc)).map (fun p => blockAcc p.1 p.2.e a.e ((mw : Int) - 2 + ((ma : Int) - 2)) (dot p.2.q a.q n))
  | .slut src _ nc _ _ =>
    let tab := scrRead s (src.getD r 0 + 136 * b) 136
    let ma := fieldOf tab 1 1 + 2
    (acc.zip (latchedBlocks x b nc)).map (fun p => blockAcc p.1 p.2.e (fieldOf tab 0 1) ((ma : Int) - 2) (lutSum p.2.q tab))

/-! ### The steps -/

/-- What a stream of rows is made of: rows, blocks, columns, ZERO, first output row, bytes of an activation block. -/
def ArrayOp.stream : ArrayOp → Option (Nat × Nat × Nat × Bool × Nat × Nat)
  | .tmma .. => none
  | .sstep src kb _ nc zero ma orow => some (src.length, kb, nc, zero, orow, 2 * ma + 2)
  | .slut src kb nc zero orow => some (src.length, kb, nc, zero, orow, 136)

/-- The place of a row's activation block. -/
def ArrayOp.at_ (op : ArrayOp) (r b : Nat) : Nat :=
  match op with
  | .sstep src _ _ _ _ ma _ => src.getD r 0 + b * (2 * ma + 2)
  | .slut src .. => src.getD r 0 + 136 * b
  | .tmma .. => 0

/-- Array work is over: the flags that it has raised are set, its completion flags are let go and its packet completes (04 R110). -/
def workDone (s0 : State) (x : Skein) (w : ArrayWork) : State :=
  let s := raise s0 x.vd x.ctx w.flags
  let s1 := releaseFlags { s with array := s.array.filter (fun a => a.id != w.id) } w.id
  match w.pkt.bind (pkt? s1) with
  | some p => packetDone s1 p 0 0
  | none => s1

/-- Energy of a latch built in the cells (R300 class 25). -/
def relatchUnits (l : Latch) : Nat := divUp ((l.recs.flatMap (fun r => r.cols)).length * l.kb * (2 * l.m + 2)) 128

/-- The cells take a skein's latch when they hold another's (R223). -/
def relatch (s : State) (x : Skein) : State :=
  let sp := spindleOf s x.spindle
  match x.latch with
  | none => s
  | some l =>
    if sp.cells = some x.id then s
    else setSpindle (charge s (acctOf x) (millOfSpindle x.spindle) 25 (relatchUnits l)) { sp with cells := some x.id }

/-- One accumulation step of array work. -/
def workStep (s : State) (x : Skein) (w : ArrayWork) : State :=
  let m := millOfSpindle x.spindle
  match w.op with
  | .tmma d a b bf zc rows cols depth =>
    let r := tmmaAll x d a b bf zc rows cols depth
    let s1 := charge (updSkein s x.id (fun y => { y with accs := r.1 })) (acctOf x) m 21 (divUp (rows * cols * depth) 256)
    workDone s1 x { w with flags := w.flags ||| r.2 }
  | op =>
    match op.stream with
    | none => s
    | some (rows, kb, nc, zero, orow, n) =>
      let s0 := relatch s x
      let acc := if w.b = 0 then (if zero then List.replicate nc 0 else mgetAll x.out (128 * (orow + w.r)) nc) else w.sums
      let out := streamBlock s x op w.r w.b acc
      let sums := out.map (fun o => o.1)
      let fl := out.foldl (fun (f : Flags) o => f ||| o.2) 0
      let s1 := chargeScr s0 x [(op.at_ w.r w.b, n)]
      let s2 := match op with
        | .slut .. => charge s1 (acctOf x) m 23 1
        | _ => charge s1 (acctOf x) m 22 (match x.latch with | some l => l.m | none => 0)
      let put := fun (v : ArrayWork) => { s2 with array := updIf (fun a => a.id == w.id) (fun _ => { v with started := true, begun := false, flags := w.flags ||| fl }) s2.array }
      if w.b + 1 < kb then put { w with b := w.b + 1, sums := sums }
      else
        let row := fun (u : State) => updSkein u x.id (fun y => { y with out := msetAll y.out (128 * (orow + w.r)) sums })
        if w.r + 1 < rows then row (put { w with r := w.r + 1, b := 0, sums := [] })
        else workDone (row s2) x { w with flags := w.flags ||| fl }

/-- Whether array work has a step pending: its skein is placed, and AR-path work before it is done (R211). -/
def workReady (s : State) (w : ArrayWork) : Bool :=
  match skein? s w.skein with
  | none => false
  | some x =>
    (match hank? s x.hank with | some h => h.st == .placed && !h.failed | none => false) &&
      (!w.op.rowsOp || !s.pend.any (fun p => p.skein == x.id && decide (p.id < w.id) && p.acc.ar))

/-- The array of a spindle is being reset (16 R366). -/
def inReset (s : State) (sp : Nat) : Bool := match (spindleOf s sp).resetUntil with | some g => decide (s.gtb.toNat < g.toNat) | none => false

/-- The step that a spindle's array works on: one that has begun is finished; else the highest class's; within it the earliest issued (R223). -/
def nextWork (s : State) (sp : Nat) : Option ArrayWork :=
  if inReset s sp then none
  else
    let on := fun (w : ArrayWork) => (match skein? s w.skein with | some x => x.spindle == sp | none => false)
    match s.array.find? (fun w => w.begun && on w) with
    | some w => some w
    | none =>
      let here := s.array.filter (fun w => on w && workReady s w)
      let cls := fun (w : ArrayWork) => match skein? s w.skein with | some x => 3 - x.cls.toNat | none => 4
      leastBy (fun w => cls w * 2 ^ 64 + w.id) here

/-- An array that has no step in progress begins the next one at once (R223). (DEDUCED, log 56.) -/
def arrayBegin (s : State) (sp : Nat) : State :=
  match nextWork s sp with
  | some w => if w.begun then s else { s with array := updIf (fun a => a.id == w.id) (fun a => { a with begun := true, startGtb := s.gtb }) s.array }
  | none => s
/-- The arrays of every spindle with array work. -/
def arraysBegin (s : State) : State :=
  if s.array.isEmpty then s else (dedup (s.array.filterMap (fun w => (skein? s w.skein).map (fun x => x.spindle)))).foldl arrayBegin s

/-- DEDUCED, log 56. -/
def execArrayStep (sp : Nat) (s : State) : Out :=
  .next (match nextWork s sp with
    | none => s
    | some w => match skein? s w.skein with | some x => workStep s x w | none => s)

end Sys2Proof.Machine
end

