-- ==== Sys2Proof/Machine/Lots.lean ====
section
/-! DEFINITION. Lots and hanks as the scheduler sees them (02 R48, R51; 15 R326 to R329, R334, R336, R338; 14 R307): what is queued, what is
resident, residency accounts, MILL_AFR, a hank's retirement, a lot's completion. -/
namespace Sys2Proof.Machine

/-! ### Queued and resident -/

/-- Granules of a partition word (01 R14). -/
def wordGranules (pw : BitVec 32) : Nat := Nat.max 1 (bits pw 0 6).toNat + (bits pw 6 6).toNat + (bits pw 12 6).toNat + (bits pw 18 6).toNat

/-- Fresh hanks of a lot still to be placed (02 R51). -/
def freshLeft (l : Lot) : Nat := if l.failHank.isSome then 0 else l.hanks - l.next
/-- Pre-empted hanks of a context that wait to be placed again. -/
def savedHanks (s : State) (vd ctx : Nat) : List Hank :=
  s.hanks.filter (fun h => h.st == .saved && !h.failed && (match lot? s h.lot with | some l => l.vd == vd && l.ctx == ctx | none => false))
def lotsOf (s : State) (vd ctx : Nat) : List Lot := s.lots.filter (fun l => l.vd == vd && l.ctx == ctx)
/-- Hanks and skeins of hanks that a context has queued; with accumulators only, when acc is set. -/
def queuedHanks (s : State) (c : Ctx) : Nat := (savedHanks s c.vd c.num).length + ((lotsOf s c.vd c.num).map freshLeft).foldl (fun a n => a + n) 0
def recsCount (acc : Bool) (l : Lot) : Nat := (l.recs.filter (fun r => !acc || bits r.pw 12 6 != 0)).length
def queuedSkeins (s : State) (c : Ctx) (acc : Bool) : Nat :=
  ((lotsOf s c.vd c.num).map (fun l => freshLeft l * recsCount acc l)).foldl (fun a n => a + n) 0 +
    ((savedHanks s c.vd c.num).map (fun h => match lot? s h.lot with | some l => recsCount acc l | none => 0)).foldl (fun a n => a + n) 0

/-- A context's levels are both above zero (14 R312). -/
def levelsUp (s : State) (c : Ctx) : Bool := !c.bkt.isEmpty && !(vdOf s c.vd).bkt.isEmpty

/-- Runnable (15 R334). -/
def isRunnable (s : State) (c : Ctx) : Bool :=
  c.st == 1 && !c.ending && !c.stopped && !(vdOf s c.vd).stopped && !(vdOf s c.vd).empty && levelsUp s c && decide (0 < queuedHanks s c)

/-- Whether a mill may run hanks of a VD (14 R425; 15 R336). -/
def millServes (s : State) (m vd : Nat) : Bool := let x := millOf s m; partAgrees s x.pid && x.vds.getLsbD vd

/-! ### Residency (14 R307) -/

/-- A hank's residency is accounted for up to a GTB. -/
def noteGran (s : State) (h : Hank) (upto : BitVec 64) : State :=
  match lot? s h.lot with
  | none => s
  | some l =>
    if h.st = .saved ∨ upto.toNat ≤ h.since.toNat then s
    else
      let g := ((s.skeins.filter (fun x => x.hank == h.id)).map (fun x => wordGranules x.part)).foldl (fun a n => a + n) 0
      updCtx (setHank s { h with since := upto }) l.vd l.ctx (fun c => { c with gran := addAt c.gran (h.frame / 9) (g * (upto.toNat - h.since.toNat)) })

/-! ### MILL_AFR (15 R338) -/

def afrOf (s : State) (m : Nat) : BitVec 64 :=
  let cs := s.ctxs.filter (fun c => isRunnable s c && millServes s m c.vd)
  let sum := fun (f : Ctx → Nat) => (cs.map f).foldl (fun a n => a + n) 0
  let q := Nat.min 255 (sum (queuedHanks s))
  let spindles := fun (acc : Bool) => ((upTo (72 * m) 72).filter (fun n => (occupants s n).any (fun x => !acc || bits x.part 12 6 != 0))).length
  let busy := fun (acc : Bool) => Nat.min 255 (255 * (spindles acc + sum (fun c => queuedSkeins s c acc)) / 72)
  BitVec.ofNat 64 ((5000 + 1000 * Nat.min 15 q) * 2 ^ 32 + q * 2 ^ 24 + busy true * 2 ^ 16 + busy false * 2 ^ 8)
def afrAll (s : State) : State := { s with mills := s.mills.map (fun m => { m with afr := afrOf s m.num }) }

/-! ### Completion (02 R51; 15 R329) -/

/-- A completion record. -/
def lotRecord (s : State) (code detail fail retired : Nat) : List Byte :=
  toBytes 8 s.gtb.toNat ++ toBytes 4 (2 ^ 31 + detail * 65536 + code) ++ toBytes 4 fail ++ toBytes 4 retired ++ zeros 44

/-- The record and the signal that the CP writes for a launch; an address of zero: none. -/
def lotReport (s : State) (d : Nat) (cmpl sig val : BitVec 64) (add : Bool) (rec : List Byte) : State :=
  let s1 := if cmpl = 0 then s else cpWrite s d cmpl rec none
  if sig = 0 then s1 else cpWrite s1 d sig (toBytes 8 val.toNat) (if add then some val else none)

/-- A lot completes: record, signal, and its packet is complete in its queue. -/
def lotComplete (s : State) (l : Lot) : State :=
  let rec_ := lotRecord s l.code.toNat l.detail.toNat (match l.failHank with | some n => n | none => 0xFFFFFFFF) l.retired
  let s1 := lotReport { s with lots := s.lots.filter (fun k => k.id != l.id) } l.desc l.cmpl l.sigAddr l.sigVal l.sigAdd rec_
  let q := queueOf s1 l.desc
  putQueue s1 { q with open_ := q.open_.filter (fun n => n != l.seq) }

/-- A lot completes when its last placed hank is gone and none is queued. (DEDUCED, log 55.) -/
def lotSettle (s : State) (id : Nat) : State :=
  match lot? s id with
  | some l => if l.live = 0 ∧ freshLeft l = 0 then lotComplete s l else s
  | none => s

/-- A hank leaves for good: its skeins, strands and what they had outstanding go, its backing slot is free (02 R48; 15 R327). -/
def dropHank (s : State) (h : Hank) (retired : Bool) : State :=
  let s1 := noteGran s h s.gtb
  let mine := fun (k : Nat) => h.skeins.contains k
  { s1 with
    hanks := s1.hanks.filter (fun k => k.id != h.id),
    skeins := s1.skeins.filter (fun x => !mine x.id),
    strands := s1.strands.filter (fun t => !mine t.skein),
    pend := s1.pend.filter (fun p => !mine p.skein),
    array := s1.array.filter (fun a => !mine a.skein),
    replays := s1.replays.filter (fun r => !mine r.skein),
    spindles := s1.spindles.map (fun x => match x.cells with | some k => if mine k then { x with cells := none } else x | none => x),
    cp := { s1.cp with preemptHanks := s1.cp.preemptHanks.filter (fun k => k != h.id) },
    lots := updIf (fun l => l.id == h.lot) (fun l => { l with live := l.live - 1, retired := l.retired + (if retired then 1 else 0), used := l.used.erase h.slot }) s1.lots }

/-- A hank whose last skein has retired retires and signals its lot (02 R48). (DEDUCED, log 55.) -/
def hankRetire (s : State) (h : Hank) : State := afrAll (lotSettle (dropHank s h (!h.failed)) h.lot)

/-! ### Retirement of a skein (02 R34) -/

/-- Work of an ended hank that would become a replay entry, and is discarded (16 R364): an access of which no part is performed, not known to have
been sent; the records that a FEEDPOP still waits for. (DEDUCED, log 25.) -/
def Pending.discarded (p : Pending) : Bool :=
  match p.acc with
  | .feedpop .. => p.lanes.all (fun l => l.done || l.size == 0)
  | _ => p.unsent || p.dlogHeld

/-- A skein may retire: no fibre is left and everything it issued has completed, what is to be issued again after a halt included; of a hank that was
ended, what has left the spindle lands, and the rest is discarded (16 R364). -/
def canRetire (s : State) (x : Skein) : Bool :=
  match hank? s x.hank with
  | none => false
  | some h =>
    !x.retired && x.fibres.isEmpty && h.st != .saved && decide (x.gw.toNat < s.gtb.toNat) &&
      (if h.failed then s.pend.all (fun p => p.skein != x.id || p.discarded)
      else !s.pend.any (fun p => p.skein == x.id) && !s.array.any (fun a => a.skein == x.id) && !s.replays.any (fun r => r.skein == x.id))

/-- A skein retires, and its hank with it when it was the last: its share and its latch end, its pool part stays (02 R48; 09 R220). -/
def skeinRetire (s : State) (x : Skein) : State :=
  let s1 := updSkein { s with pend := s.pend.filter (fun p => p.skein != x.id),
                              spindles := s.spindles.map (fun z => if z.cells == some x.id then { z with cells := none } else z) }
    x.id (fun y => { y with retired := true, cls := 0, wg := 0, share := [], latch := none })
  match hank? s1 x.hank with
  | none => s1
  | some h => if h.skeins.all (fun k => match skein? s1 k with | some y => y.retired | none => true) then hankRetire s1 h else s1

end Sys2Proof.Machine
end

