-- ==== Sys2Proof/Machine/Parser.lean ====
section
/-! DEFINITION. The parser and the consumers of queues (10 R252; 15 R323 to R332; 16 R424): SLOT_CONSUME, LAUNCH_PACKET, FEED_PACKET, IB,
WAIT_PACKET and WAIT_SATISFIED. -/
namespace Sys2Proof.Machine

/-- The sequence number of the next packet of a queue is taken; `waits`: the packet is not complete yet. -/
def nextSeq (s : State) (d : Nat) (waits : Bool) : State :=
  let fe := queueOf s d
  putQueue s { fe with seq := fe.seq + 1, open_ := if waits then fe.open_ ++ [fe.seq] else fe.open_ }

/-- An error-queue entry of a packet at a queue's head. -/
def errHead (s : State) (d code : Nat) : State := errqPut s (descVd s d) code (descQid s d) (qRidx s d) 0

/-- A packet at the head is done at once. -/
def headDone (s : State) (d : Nat) : State := packetTaken (nextSeq s d false) d

/-- A BAD-PACKET without a record (15 R325). -/
def badHead (s : State) (d : Nat) : State := headDone (errHead s d 5) d

/-! ### LAUNCH (15 R326 to R328) -/

/-- A program descriptor's skein record. -/
def skeinRecOf (bs : List Byte) (r : Nat) : SkeinRec :=
  let o := 64 + 24 * r
  { entry := BitVec.ofNat 64 (fieldOf bs o 8), pw := BitVec.ofNat 32 (fieldOf bs (o + 8) 4), fmax := fieldOf bs (o + 12) 2, finit := fieldOf bs (o + 14) 2,
    w := fieldOf bs (o + 16) 1 }

/-- What a launch comes to with its descriptor in hand: the fields that take the descriptor's values. -/
structure LaunchIn where
  argn : Nat
  args : BitVec 64
  back : BitVec 64
  nback : Nat
  cmpl : BitVec 64
  recs : List SkeinRec
def launchIn (bs pd : List Byte) : LaunchIn :=
  let pick := fun (a b : Nat) => if a = 0 then b else a
  let pwv := fieldOf bs 1 1 % 2 = 1
  { argn := pick (fieldOf bs 2 1) (fieldOf pd 2 1), args := BitVec.ofNat 64 (pick (fieldOf bs 16 8) (fieldOf pd 8 8)),
    back := BitVec.ofNat 64 (pick (fieldOf bs 48 8) (fieldOf pd 16 8)), nback := pick (fieldOf bs 60 2) (fieldOf pd 24 2),
    cmpl := BitVec.ofNat 64 (pick (fieldOf bs 24 8) (fieldOf pd 32 8)),
    recs := (upTo 0 (Nat.min 8 (fieldOf pd 1 1))).map (fun r =>
      let k := skeinRecOf pd r
      if pwv then { k with pw := BitVec.ofNat 32 (fieldOf bs 56 4) } else k) }

/-- Orders 1 and 2 of R328. -/
def launchEarly (bs : List Byte) : Nat :=
  if fieldOf bs 1 1 % 128 / 2 != 0 || decide (2 ≤ fieldOf bs 3 1) || fieldOf bs 62 2 != 0 || decide (64 < fieldOf bs 2 1) then 5
  else if fieldOf bs 4 4 < 1 ∨ 16777215 < fieldOf bs 4 4 then 4
  else 0
/-- Order 3, but for what must be read. -/
def launchBadDesc (pd : List Byte) (l : LaunchIn) : Bool :=
  fieldOf pd 0 1 != 1 || fieldOf pd 1 1 == 0 || fieldOf pd 3 5 != 0 || fieldOf pd 26 6 != 0 || fieldOf pd 40 24 != 0 ||
    (upTo 0 l.recs.length).any (fun r => fieldOf pd (64 + 24 * r + 17) 7 != 0) ||
    l.recs.any (fun k => !canonical k.entry || k.entry.toNat % 32 != 0) || l.back.toNat % 65536 != 0 || l.nback == 0 || decide (64 < l.argn)
/-- A skein record that fails R15 or R30. -/
def recTooLarge (k : SkeinRec) : Bool :=
  let f := fun (lo : Nat) => (bits k.pw lo 6).toNat
  decide (32 < f 0) || decide (32 < f 6) || decide (32 < f 12) || decide (32 < f 18) || decide (32 < wordGranules k.pw) || bits k.pw 24 8 != 0 ||
    k.w % 8 != 0 || decide (k.w < 8) || decide (192 < k.w) || decide (k.fmax < 1) || decide (1024 < k.fmax) || decide (k.finit < 1) || decide (k.fmax < k.finit)

/-- A launch that fails: record, signal, error-queue entry, and the LAUNCH instruction's status (10 R252). (DEDUCED, log 52.) -/
def launchFails (s : State) (d : Nat) (bs : List Byte) (cmpl : BitVec 64) (code : Nat) : State :=
  let slot := qRidx s d
  let s1 := lotReport s d cmpl (BitVec.ofNat 64 (fieldOf bs 32 8)) (BitVec.ofNat 64 (fieldOf bs 40 8)) (fieldOf bs 3 1 % 2 == 1) (lotRecord s code 0 0xFFFFFFFF 0)
  launchDecided (headDone (errHead s1 d code) d) d slot (BitVec.ofNat 32 code)

/-- A read of a program descriptor or of its ARGS fails (16 R424): parsing pauses, or the launch is BAD-DESCRIPTOR with a record. (DEDUCED, log 52.) -/
def launchReadFails (s : State) (d : Nat) (bs : List Byte) (cmpl : BitVec 64) (f : Flt) : State :=
  match f.cls with
  | .page1 | .page2 => queueFault s d f
  | .violation => freezeQueue (launchFails (postEngine s (Master.queue s d) f) d bs cmpl 3) d
  | _ => launchFails (postEngine s (Master.queue s d) f) d bs cmpl 3

/-- The lot of a launch that passes; its key is the state's next. -/
def newLot (s : State) (d seq : Nat) (bs : List Byte) (l : LaunchIn) (args : List (BitVec 64)) : Lot :=
  { id := s.key, vd := descVd s d, ctx := descCtx s d, desc := d, seq := seq, recs := l.recs, args := args, hanks := fieldOf bs 4 4, next := 0, live := 0,
    retired := 0, failHank := none, code := 0, detail := 0, cmpl := l.cmpl, sigAddr := BitVec.ofNat 64 (fieldOf bs 32 8),
    sigVal := BitVec.ofNat 64 (fieldOf bs 40 8), sigAdd := fieldOf bs 3 1 % 2 == 1, backBase := l.back, nback := l.nback, used := [], packet := bs }

/-- A LAUNCH packet is parsed. (DEDUCED, log 52.) -/
def parseLaunch (s : State) (d : Nat) (bs : List Byte) : State :=
  let own := BitVec.ofNat 64 (fieldOf bs 24 8)
  let early := launchEarly bs
  let prog := BitVec.ofNat 64 (fieldOf bs 8 8)
  if early ≠ 0 then launchFails s d bs own early
  else if prog.toNat % 64 ≠ 0 then launchFails s d bs own 3
  else
    match consumerGet s d prog 256 with
    | (s1, .error f) => launchReadFails s1 d bs own f
    | (s1, .ok pd) =>
      let l := launchIn bs pd
      if launchBadDesc pd l then launchFails s1 d bs l.cmpl 3
      else if l.argn ≠ 0 ∧ l.args.toNat % 8 ≠ 0 then launchReadFails s1 d bs l.cmpl (engineMis l.args false 4)
      else
        match consumerGet s1 d l.args (8 * l.argn) with
        | (s2, .error f) => launchReadFails s2 d bs l.cmpl f
        | (s2, .ok av) =>
          if decide (8 < fieldOf pd 1 1) || l.recs.any recTooLarge then launchFails s2 d bs l.cmpl 1
          else
            let slot := qRidx s2 d
            let lot := newLot s2 d (queueOf s2 d).seq bs l ((upTo 0 l.argn).map (fun i => BitVec.ofNat 64 (fieldOf av (8 * i) 8)))
            let s3 := packetTaken (nextSeq { s2 with key := s2.key + 1, lots := s2.lots ++ [lot] } d true) d
            launchDecided s3 d slot 0

/-! ### FEED (15 R325; 10 R253; 02 R55) -/

/-- A FEED packet ends: its result, and the count of records starts again. (DEDUCED, log 54.) -/
def feedEnds (s : State) (d : Nat) (bs : List Byte) (n code : Nat) : State :=
  let cmpl := BitVec.ofNat 64 (fieldOf bs 8 8)
  let s1 := if cmpl = 0 then s else cpWrite s d cmpl (toBytes 8 n ++ toBytes 4 (2 ^ 31 + code) ++ zeros 4) none
  headDone (putQueue s1 { queueOf s1 d with fed := 0 }) d

/-- An access for a FEED packet fails: it pauses on a page fault; else it ends with a code. (DEDUCED, log 54.) -/
def feedFails (s : State) (d : Nat) (bs : List Byte) (n code : Nat) (f : Flt) : State :=
  let s0 := putQueue s { queueOf s d with fed := n }
  match f.cls with
  | .page1 | .page2 => queueFault s0 d f
  | .violation => freezeQueue (feedEnds (postEngine s0 (Master.queue s d) f) d bs n code) d
  | _ => feedEnds (postEngine s0 (Master.queue s d) f) d bs n code

/-- The records from the n-th on, appended one after another; k bounds them. -/
def feedRecords (d fd : Nat) (bs : List Byte) (count : Nat) : Nat → Nat → State → State
  | 0, n, s => feedEnds s d bs n 0
  | k + 1, n, s =>
    if count ≤ n then feedEnds s d bs n 0
    else if !feedRoom s fd then feedEnds s d bs n 1
    else
      match consumerGet s d (BitVec.ofNat 64 (fieldOf bs 24 8) + BitVec.ofNat 64 (64 * n)) 64 with
      | (s1, .error f) => feedFails s1 d bs n 3 f
      | (s1, .ok r) =>
        let va := BitVec.ofNat 64 (qBase s1 fd + slotOff (fTail s1 fd) (qLog s1 fd))
        match xlatePieces (fun a => consumerReq s1 d a true) 4 s1 [(va, 64)] with
        | .held s2 => putQueue s2 { queueOf s2 d with fed := n }
        | .bad s2 f => feedFails s2 d bs n 2 f
        | .ok s2 ps _ =>
          let acct := queueAcct s2 (descVd s2 d) (descCtx s2 d) false
          let spa := (ps.headD (0, 0)).1
          let s3 := noteGw s2 d (gwctOf s2 (spa / 128))
          feedRecords d fd bs count k (n + 1) (feedAppend (engineLine (engineLine s3 acct (spa / 128) true false) acct (fd / 128) true false) fd spa r)

/-- BAD-PACKET of a FEED. -/
def badFeed (bs : List Byte) : Bool :=
  let n := fieldOf bs 32 4
  fieldOf bs 1 1 % 128 != 0 || fieldOf bs 2 6 != 0 || fieldOf bs 36 28 != 0 || decide (n < 1) || decide (65536 < n)

/-- A FEED packet is parsed, from the record at which it stopped. -/
def parseFeed (s : State) (d : Nat) (bs : List Byte) : State :=
  let fva := BitVec.ofNat 64 (fieldOf bs 16 8)
  let n := (queueOf s d).fed
  if badFeed bs then feedEnds (errHead s d 5) d bs 0 4
  else if fva.toNat % 64 ≠ 0 then feedEnds s d bs n 2
  else
    match xlatePieces (fun a => { consumerReq s d a true with read := true }) 4 s [(fva, 64)] with
    | .held s1 => s1
    | .bad s1 f => feedFails s1 d bs n 2 f
    | .ok s1 ps _ =>
      let fd := (ps.headD (0, 0)).1
      if !feedOk s1 fd then feedEnds s1 d bs n 2
      else feedRecords d fd bs (fieldOf bs 32 4) (fieldOf bs 32 4 + 1 - n) n s1

/-! ### IB and WAIT (15 R325, R330) -/

def badIb (bs : List Byte) : Bool :=
  let n := fieldOf bs 16 4
  fieldOf bs 1 1 % 128 != 0 || fieldOf bs 2 6 != 0 || fieldOf bs 20 44 != 0 || decide (n < 1) || decide (65536 < n) || fieldOf bs 8 8 % 64 != 0

/-- An IB packet: its packets stand next; nested deeper than four it freezes the queue. (DEDUCED, log 53.) -/
def parseIb (s : State) (d : Nat) (bs : List Byte) : State :=
  let fe := queueOf s d
  if badIb bs then badHead s d
  else if 4 ≤ fe.ibs.length then freezeQueue (putQueue (errHead s d 6) { fe with skipIb := true }) d
  else putQueue s { fe with seq := fe.seq + 1, ibs := { addr := BitVec.ofNat 64 (fieldOf bs 8 8), left := fieldOf bs 16 4 } :: fe.ibs }

def badWait (bs : List Byte) : Bool := fieldOf bs 1 1 % 128 != 0 || fieldOf bs 2 6 != 0 || fieldOf bs 24 40 != 0 || fieldOf bs 8 8 % 8 != 0

/-- The WAIT in force is tested: an acquire at the home slice; parsing goes on once the value is reached. -/
def testWait (s : State) (d : Nat) (addr value : BitVec 64) : State :=
  match consumerGet s d addr 8 with
  | (s1, .error f) => queueFault s1 d f
  | (s1, .ok v) =>
    let fe := queueOf s1 d
    if value.toNat ≤ ofBytes v then headDone (putQueue s1 { fe with wait := none }) d else putQueue s1 { fe with wait := some (addr, value) }

def parseWait (s : State) (d : Nat) (bs : List Byte) : State :=
  if badWait bs then badHead s d else testWait s d (BitVec.ofNat 64 (fieldOf bs 8 8)) (BitVec.ofNat 64 (fieldOf bs 16 8))

/-! ### SIGNAL of a launch queue -/

def badSignal (bs : List Byte) : Bool := decide (2 ≤ fieldOf bs 1 1 % 128) || fieldOf bs 2 2 != 0 || fieldOf bs 40 24 != 0

/-- A SIGNAL is set aside until every earlier packet has completed; parsing waits behind it. (DEDUCED, log 51.) -/
def parseSignal (s : State) (d : Nat) (bs : List Byte) : State :=
  if badSignal bs then badHead s d
  else
    let fe := queueOf s d
    let p : BtePkt :=
      { id := s.key, desc := d, slot := qRidx s d, seq := fe.seq, vd := descVd s d, ctx := descCtx s d, mill := qMill s d, bte := 0, host := false, bytes := bs,
        accepted := false, promise := 0, st := .waiting, done := [], landed := [], chunks := 0, moved := 0, data := [], skein := none, fin := none }
    packetTaken (nextSeq { s with key := s.key + 1, pkts := s.pkts ++ [p] } d true) d

/-! ### The events -/

/-- A packet of a launch queue is parsed by its TYPE. -/
def parseHead (s : State) (d : Nat) (bs : List Byte) : State :=
  match fieldOf bs 0 1 with
  | 0x07 => parseSignal s d bs
  | 0x10 => parseLaunch s d bs
  | 0x11 => parseFeed s d bs
  | 0x12 => parseIb s d bs
  | 0x13 => parseWait s d bs
  | _ => badHead s d

/-- A consumer serves a slot: it takes the next packet of the mapped queue when that is ready and its TYPE is one asked for; the turn then passes to
the next slot (15 R324, R332). A slot that has been consumed is zeroed first; while every BTE of the mill is frozen for the queue no packet of it is taken
(16 R365). -/
def serveSlot (s : State) (n : Nat) (want : Nat → Nat → Bool) : State :=
  match slotDesc s n with
  | none => s
  | some d =>
    if !queueOpen s d then s
    else if (queueOf s d).zero then slotDone s d
    else if qKind s d = 0 && (freeChannels s d (qMill s d)).isEmpty then s
    else
      match consumerGet s d (nextVa s d) 64 with
      | (s1, .error f) => queueFault s1 d f
      | (s1, .ok bs) =>
        let typ := fieldOf bs 0 1
        let kind := qKind s d
        let fe := queueOf s d
        if (typ = 0 ∧ fe.ibs.isEmpty) ∨ !want kind typ ∨ (kind = 1 ∧ 128 ≤ fieldOf bs 1 1 ∧ !fe.open_.isEmpty) then s
        else
          let s2 := { s1 with cp := { s1.cp with turn := (n + 1) % 256 } }
          if kind = 0 then takeBte s2 d bs else parseHead s2 d bs

/-- SLOT_CONSUME: a consumer takes the next ready slot of a mapped queue, whatever its packet. (DEDUCED, log 41; DEDUCED, log 45.) -/
def execSlotConsume (slot : Nat) (s : State) : Out := .next (serveSlot s slot (fun _ _ => true))
/-- LAUNCH_PACKET, FEED_PACKET, IB, WAIT_PACKET: the parser takes a packet of that type. -/
def execLaunchPacket (slot : Nat) (s : State) : Out := .next (serveSlot s slot (fun k t => k == 1 && t == 0x10))
def execFeedPacket (slot : Nat) (s : State) : Out := .next (serveSlot s slot (fun k t => k == 1 && t == 0x11))
def execIb (slot : Nat) (s : State) : Out := .next (serveSlot s slot (fun k t => k == 1 && t == 0x12))
def execWaitPacket (slot : Nat) (s : State) : Out := .next (serveSlot s slot (fun k t => k == 1 && t == 0x13))

/-- Whether a queue's parser may work but for its WAIT. -/
def waitOpen (s : State) (d : Nat) : Bool :=
  let fe := queueOf s d
  let v := vdOf s (descVd s d)
  !descFlag s d 0 && fe.token.isNone && !v.stopped && !v.empty

/-- WAIT_SATISFIED: the WAIT in force of a mapped queue is tested again. -/
def execWaitSatisfied (slot : Nat) (s : State) : Out :=
  .next (match slotDesc s slot with
    | none => s
    | some d =>
      match (queueOf s d).wait with
      | some w => if waitOpen s d then testWait s d w.1 w.2 else s
      | none => s)

end Sys2Proof.Machine
end

