-- ==== Sys2Proof/Machine/Sched.lean ====
section
/-! DEFINITION. The scheduler (02 R27, R28, R31, R48; 15 R333 to R338): who is runnable, catch-up, what is offered, where it fits, placement,
reservations, and pre-emption for priority and for a slice. Hanks stand in the order of their latest placement or halt. -/
namespace Sys2Proof.Machine

/-! ### Levels and catch-up (15 R333, R334) -/

/-- The level of a context. -/
def Ctx.level (c : Ctx) : Nat := (bits c.sched 0 6).toNat
/-- Hanks of a context that are not saved. -/
def residentHanks (s : State) (vd ctx : Nat) : List Hank :=
  s.hanks.filter (fun h => h.st != .saved && (match lot? s h.lot with | some l => l.vd == vd && l.ctx == ctx | none => false))
/-- A context's hanks, placed or saved. -/
def allHanks (s : State) (vd ctx : Nat) : List Hank := s.hanks.filter (fun h => match lot? s h.lot with | some l => l.vd == vd && l.ctx == ctx | none => false)

/-- V is raised to the least V among the other runnable or resident contexts of the level; VB becomes the V that results, AB the account (15 R333). (DEDUCED, log 62.) -/
def catchUp (s : State) (c : Ctx) : State :=
  let others := s.ctxs.filter (fun d => !(d.vd == c.vd && d.num == c.num) && d.level == c.level && (d.runnable || !(residentHanks s d.vd d.num).isEmpty))
  let v := match leastBy (fun d => d.vj.toNat) others with
    | none => c.vj
    | some d => if d.vj.toNat ≤ c.vj.toNat then c.vj else d.vj
  setCtx s { c with vb := v, ab := c.jacc, vtop := v }

/-- The order in which candidates stand (15 R335). -/
def ctxBefore (c d : Ctx) : Bool :=
  decide (d.level < c.level) || (c.level == d.level && (decide (c.vj.toNat < d.vj.toNat) || (c.vj == d.vj && decide (c.vd * 1024 + c.num ≤ d.vd * 1024 + d.num))))

/-- Contexts that have become runnable catch up, lowest (VDID, CTX) first; a reservation lasts no longer than its context is runnable. (DEDUCED, log 62.) -/
def settleRunnable (s : State) : State :=
  let s1 := (sortBy (fun (c d : Ctx) => decide (c.vd * 1024 + c.num ≤ d.vd * 1024 + d.num)) s.ctxs).foldl (fun u c =>
    let r := isRunnable u c
    if r == c.runnable then u
    else updCtx (if r then catchUp u c else u) c.vd c.num (fun d => { d with runnable := r })) s
  { s1 with mills := s1.mills.map (fun m => { m with reserved := m.reserved.filter (fun e => s1.ctxs.any (fun c => c.runnable && c.vd * 1024 + c.num == e.2)) }) }

/-! ### What a context offers (15 R335, R336) -/

/-- A context's oldest queued hank: a pre-empted one, in the order of first placement, else the next fresh one of its oldest lot. -/
inductive Offer where
  | saved (h : Hank) (l : Lot)
  | fresh (l : Lot)

def offerOf (s : State) (c : Ctx) : Option Offer :=
  match leastBy (fun h => h.first) (savedHanks s c.vd c.num) with
  | some h => (lot? s h.lot).map (Offer.saved h)
  | none => ((lotsOf s c.vd c.num).find? (fun l => decide (0 < freshLeft l))).map Offer.fresh

/-- Partition words of an offered hank, in rank order. -/
def Offer.words : Offer → List (BitVec 32)
  | .saved _ l => l.recs.map (fun r => r.pw)
  | .fresh l => l.recs.map (fun r => r.pw)

/-- SLOTS of CTX_SAVE. -/
def Ctx.slots (c : Ctx) : Nat := Nat.max 1 (bits c.save 0 9).toNat
/-- Whether an offered hank has a backing slot and a save slot. -/
def Offer.roomy (s : State) (c : Ctx) : Offer → Bool
  | .saved _ _ => true
  | .fresh l => decide (l.used.length < l.nback) && decide ((allHanks s c.vd c.num).length < c.slots)

/-! ### Where it fits (15 R336) -/

/-- What a frame's slots hold: skeins resident and granules in use. -/
abbrev Load := List (Nat × Nat)

/-- A spindle that may take hanks: not offline, not being drained (16 R371). -/
def spindleUsable (s : State) (n : Nat) : Bool := !(millOf s (n / 72)).offline.getLsbD (n % 72) && !(spindleOf s n).draining

/-- The load of a logical frame (mill * 9 + frame) with some hanks gone; an unusable slot counts as full. -/
def loadOf (s : State) (fr : Nat) (gone : List Nat) : Load :=
  (upTo 0 8).map (fun i =>
    let n := fr * 8 + i
    if spindleUsable s n then
      let xs := (occupants s n).filter (fun x => !gone.contains x.hank)
      (xs.length, (xs.map (fun x => wordGranules x.part)).foldl (fun a g => a + g) 0)
    else (8, 32))

/-- Whether a slot can take a skein. -/
def slotTakes (l : Load) (used : List Nat) (pw : BitVec 32) (i : Nat) : Bool :=
  !used.contains i && (match l[i]? with | some e => decide (e.1 ≤ 7) && decide (e.2 + wordGranules pw ≤ 32) | none => false)

/-- Skeins in rank order, each to the lowest usable slot not used yet. -/
def fitSlots (l : Load) : List Nat → List (BitVec 32) → Option (List Nat)
  | used, [] => some used
  | used, pw :: ps =>
    match (upTo 0 8).find? (slotTakes l used pw) with
    | none => none
    | some i => fitSlots l (used ++ [i]) ps

/-- A load with a hank's skeins added. -/
def loadWith (l : Load) (slots : List Nat) (words : List (BitVec 32)) : Load :=
  (upTo 0 l.length).filterMap (fun i => (l[i]?).map (fun e =>
    match (upTo 0 slots.length).find? (fun k => slots[k]? == some i) with
    | some k => (e.1 + 1, e.2 + wordGranules (words.getD k 0))
    | none => e))

/-- Hanks of a frame that are leaving it. -/
def leavingHanks (s : State) (fr : Nat) : List Nat := (s.hanks.filter (fun h => h.frame == fr && h.st == .quiescing)).map (fun h => h.id)
/-- Contexts other than one for which a frame is reserved. (DEDUCED, log 63.) -/
def reservedFor (s : State) (fr : Nat) (c : Ctx) : List Nat :=
  ((millOf s (fr / 9)).reserved.filter (fun e => e.1 == fr && e.2 != c.vd * 1024 + c.num)).map (fun e => e.2)

/-- Whether hanks may be placed on a mill for a VD now: bound to it, and its partition at one operating point (14 R425). -/
def millOpen (s : State) (m vd : Nat) : Bool :=
  millServes s m vd && (millsOf s (millOf s m).pid).all (fun n => n.volt == (millOf s m).volt && n.freq == (millOf s m).freq)

/-- Whether what is reserved on a frame for other contexts still fits once a hank has taken slots of it and some hanks are gone. -/
def keepsReserved (s : State) (c : Ctx) (words : List (BitVec 32)) (fr : Nat) (slots gone : List Nat) : Bool :=
  let after := loadWith (loadOf s fr (leavingHanks s fr ++ gone)) slots words
  (reservedFor s fr c).all (fun k => match (ctx? s (k / 1024) (k % 1024)).bind (offerOf s) with | some o => (fitSlots after [] o.words).isSome | none => true)

/-- The slots that a context's hank would take on a frame: none when it does not fit, or would take what is reserved for another. (DEDUCED, log 63.) -/
def fitFrame (s : State) (c : Ctx) (words : List (BitVec 32)) (fr : Nat) : Option (List Nat) :=
  (fitSlots (loadOf s fr []) [] words).filter (fun slots => keepsReserved s c words fr slots [])

/-- Whether it will fit once some hanks, beside those that are leaving already, have left the frame. (DEDUCED, log 63.) -/
def fitsCleared (s : State) (c : Ctx) (words : List (BitVec 32)) (fr : Nat) (gone : List Nat) : Bool :=
  match fitSlots (loadOf s fr (leavingHanks s fr ++ gone)) [] words with
  | some slots => keepsReserved s c words fr slots gone
  | none => false

/-- The lowest logical frame in which it fits, with its slots. -/
def firstFit (s : State) (c : Ctx) (o : Offer) : Option (Nat × List Nat) :=
  if !o.roomy s c then none
  else
    ((upTo 0 8).filter (fun m => millOpen s m c.vd)).flatMap (fun m => upTo (9 * m) 9) |>.findSome? (fun fr => (fitFrame s c o.words fr).map (fun slots => (fr, slots)))

/-! ### Placement (02 R27 to R35; 03 R76, R79; 09 R220; 15 R326, R327) -/

/-- The size of a skein's backing area (03 R77), and the stride of a hank's. -/
def areaSize (r : SkeinRec) : Nat := 0x20000 + (r.fmax + 31) / 32 * r.w * 128
def areaStride (l : Lot) : Nat := ((l.recs.map areaSize).foldl Nat.max 0 + 65535) / 65536 * 65536

/-- Pinned lines of a skein. -/
def pinnedLines (fmax : Nat) : List RegLine :=
  { key := .uni, st := .pinned, strand := 0 } :: (upTo 0 ((fmax + 255) / 256)).map (fun n => { key := .pred n, st := .pinned, strand := 0 })

/-- A fibre at its creation. -/
def freshFibre (f : Nat) : Fibre := { id := f, preds := 0, regs := [], live := BitVec.allOnes 48, rel := 0, lastPage := none }

/-- A skein at first issue. (DESIGN CHOICE, log 12.) -/
def freshSkein (l : Lot) (hank key slot rank spindle : Nat) (r : SkeinRec) : Skein :=
  { id := key, hank := hank, rank := rank, spindle := spindle, vd := l.vd, ctx := l.ctx, token := Config.skToken key, part := r.pw, w := r.w, fmax := r.fmax,
    finit := r.finit, entry := r.entry, base := l.backBase + BitVec.ofNat 64 ((slot * l.recs.length + rank) * areaStride l),
    fibres := (upTo 0 r.finit).map freshFibre, g := msetAll [] 0 l.args, tiles := [], accs := [], scr := [], out := [], cls := 0, wg := 0, share := [],
    latch := none, bar := Barrier.reset, lines := pinnedLines r.fmax, written := [], opc := [], retired := false, gw := 0, l1From := 0 }

/-- The strands of a skein at first issue: fibres 32 k to 32 k + 31 (02 R35). -/
def freshStrands (s : State) (x : Skein) : State :=
  (upTo 0 ((x.finit + 31) / 32)).foldl (fun u k =>
    { u with key := u.key + 1, strands := u.strands ++ [freshStrand u.key x.id (upTo (32 * k) (Nat.min 32 (x.finit - 32 * k))) x.entry] }) s

/-- The lowest backing slot of a lot, or save slot of a context, that is free. -/
def freeSlot (used : List Nat) (n : Nat) : Nat := ((upTo 0 n).find? (fun i => !used.contains i)).getD 0

/-- A fresh hank is placed. -/
def placeFresh (s : State) (c : Ctx) (l : Lot) (fr : Nat) (slots : List Nat) : State :=
  let slot := freeSlot l.used (l.used.length + 1)
  let taken := (allHanks s c.vd c.num).map (fun h => h.saveSlot)
  let hid := s.key
  let h : Hank := { id := hid, lot := l.id, index := l.next, frame := fr, skeins := [], bar := Barrier.reset, slot := slot, st := .placed, why := .preempt,
                    saveSlot := freeSlot taken (taken.length + 1), inShadow := false, first := hid, tq := 0, since := s.gtb, mig := false, failed := false }
  let s1 := setLot { s with key := s.key + 1, hanks := s.hanks ++ [h] } { l with next := l.next + 1, live := l.live + 1, used := l.used ++ [slot] }
  (upTo 0 l.recs.length).foldl (fun u r =>
    match l.recs[r]? with
    | none => u
    | some rec_ =>
      let x := freshSkein l hid u.key slot r (fr * 8 + slots.getD r 0) rec_
      freshStrands { u with key := u.key + 1, skeins := u.skeins ++ [x], hanks := updIf (fun k => k.id == hid) (fun k => { k with skeins := k.skeins ++ [x.id] }) u.hanks } x) s1

/-- What was reserved for a context is free again. (DEDUCED, log 63.) -/
def dropReserve (s : State) (c : Ctx) : State :=
  { s with mills := s.mills.map (fun m => { m with reserved := m.reserved.filter (fun e => e.2 != c.vd * 1024 + c.num) }) }

/-! ### Pre-emption by the scheduler (15 R337) -/

/-- The context of a hank. -/
def hankCtx (s : State) (h : Hank) : Option Ctx := (lot? s h.lot).bind (fun l => ctx? s l.vd l.ctx)

/-- The shortest run of removals after which a context's hank fits on a frame: none are needed where hanks that leave already make the room. -/
def clearing (s : State) (c : Ctx) (words : List (BitVec 32)) (fr : Nat) (order : List Nat) : Option (List Nat) :=
  ((upTo 0 (order.length + 1)).map (fun n => order.take n)).find? (fitsCleared s c words fr)

/-- The frame that needs the fewest removals, the lowest among equals; nothing is removed where none are needed. -/
def bestFrame (s : State) (c : Ctx) (words : List (BitVec 32)) (frames : List Nat) (order : Nat → List Nat) : Option (Nat × List Nat) :=
  (leastBy (fun e => e.2.length) (frames.filterMap (fun fr => (clearing s c words fr (order fr)).map (fun gone => (fr, gone))))).filter (fun e => !e.2.isEmpty)

/-- Hanks are asked to halt, and what they free is kept for a context. -/
def removeFor (s : State) (c : Ctx) (fr : Nat) (gone : List Nat) : State :=
  updMill (gone.foldl (fun u h => haltHank u h .preempt false) s) (fr / 9) (fun m => { m with reserved := m.reserved ++ [(fr, c.vd * 1024 + c.num)] })

/-- Hanks of a frame, not saved, with their contexts, the latest placed first. -/
def frameHanks (s : State) (fr : Nat) : List (Hank × Ctx) :=
  ((s.hanks.filter (fun h => h.frame == fr && h.st != .saved)).reverse).filterMap (fun h => (hankCtx s h).map (fun c => (h, c)))

/-- Hanks of lower levels on a frame: lowest level first, then highest V, then latest placed. -/
def priorityOrder (s : State) (level fr : Nat) : List Nat :=
  (sortBy (fun (a b : Hank × Ctx) => decide (a.2.level < b.2.level) || (a.2.level == b.2.level && decide (b.2.vj.toNat ≤ a.2.vj.toNat)))
    ((frameHanks s fr).filter (fun e => e.1.st == .placed && decide (e.2.level < level)))).map (fun e => e.1.id)

def reservedAt (s : State) (c : Ctx) : Bool := s.mills.any (fun m => m.reserved.any (fun e => e.2 == c.vd * 1024 + c.num))

/-- The frames of mills that may take a VD's hanks. -/
def framesFor (s : State) (vd : Nat) : List Nat := ((upTo 0 8).filter (fun m => millOpen s m vd)).flatMap (fun m => upTo (9 * m) 9)

/-- What a candidate that fits nowhere may take, and from whom. -/
def priorityTake (s : State) (c : Ctx) : Option (Nat × List Nat) :=
  match offerOf s c with
  | none => none
  | some o =>
    if reservedAt s c || !o.roomy s c || (firstFit s c o).isSome then none
    else bestFrame s c o.words (framesFor s c.vd) (priorityOrder s c.level)

/-- Candidates in order (15 R335); a VD's withheld writes are made before its hanks are placed (15 R345). -/
def schedCands (s : State) : List Ctx := sortBy ctxBefore (s.ctxs.filter (fun c => c.runnable && (vdOf s c.vd).withheld.isEmpty))

/-- Pre-emption for priority, for each candidate in order. -/
def priorityRun (s : State) : State :=
  (schedCands s).foldl (fun u c => match priorityTake u c with | some (fr, gone) => removeFor u c fr gone | none => u) s

/-- A slice pre-emption on one mill (15 R337). -/
def sliceMill (s : State) (m : Nat) : State :=
  let slice := (millOf s m).sched.toNat
  let frames := upTo (9 * m) 9
  let sameLevel := fun (y : Ctx) (fr : Nat) => (frameHanks s fr).filter (fun e => e.2.level == y.level && !(e.2.vd == y.vd && e.2.num == y.num))
  let couldFit := fun (y : Ctx) (o : Offer) => frames.any (fun fr => fitsCleared s y o.words fr ((sameLevel y fr).map (fun e => e.1.id)))
  if slice = 0 then s
  else
    match (schedCands s).findSome? (fun y => if !millOpen s m y.vd || reservedAt s y then none else
        (offerOf s y).bind (fun o => if o.roomy s y && (firstFit s y o).isNone && couldFit y o then some (y, o) else none)) with
    | none => s
    | some (y, o) =>
      let past := fun (c : Ctx) => decide (y.vj.toNat + slice ≤ c.vj.toNat)
      let others := (frames.flatMap (fun fr => sameLevel y fr)).filter (fun e => past e.2 && e.1.st == .placed)
      match leastBy (fun (e : Hank × Ctx) => 2 ^ 64 - e.2.vj.toNat) others with
      | none => s
      | some (_, x) =>
        let isX := fun (c : Ctx) => c.vd == x.vd && c.num == x.num
        let order := fun (fr : Nat) =>
          let hs := (sameLevel y fr).filter (fun e => past e.2 && e.1.st == .placed)
          (hs.filter (fun e => isX e.2) ++ sortBy (fun (a b : Hank × Ctx) => decide (b.2.vj.toNat ≤ a.2.vj.toNat)) (hs.filter (fun e => !isX e.2))).map (fun e => e.1.id)
        match bestFrame s y o.words frames order with
        | some (fr, gone) => removeFor s y fr gone
        | none => s
def sliceAll (s : State) : State := (upTo 0 8).foldl sliceMill s

end Sys2Proof.Machine
end

