-- ==== Sys2Proof/Machine/Buffers.lean ====
section
/-! DEFINITION. The region-buffer part of a saved pool (10 R265; 15 R343): open idempotent regions, held records and the stores that a COMMIT has still to
perform, as bytes and back. The manual says that the buffer is saved with the pool and gives its bytes no form; this one is the model's
(DESIGN CHOICE, log 139). -/
namespace Sys2Proof.Machine

/-! ### What is saved -/

/-- What one strand, or one entry of a COMMIT, has in the region buffers: whose it is (a strand's place among its skein's, or 0x8000 and an entry's place),
its open region, its held records. -/
structure BufItem where
  owner : Nat
  region : Option IdemRegion
  held : List HeldRec
  deriving DecidableEq, Repr

/-- n bytes of a list, filled up with zeros. -/
def padTo (n : Nat) (bs : List Byte) : List Byte := (bs ++ zeros n).take n

/-- The place of a key in a list of keys. -/
def keyRank (keys : List Nat) (k : Nat) : Nat := (keys.filter (fun i => decide (i < k))).length

/-- The flags that an instruction holds in any of some strands. -/
def heldMask (ts : List Strand) (id : Nat) : Nat :=
  ts.foldl (fun m t => (t.holds.filter (fun e => e.2 == id)).foldl (fun m e => Nat.lor m (2 ^ e.1)) m) 0

/-- The stores of one instruction: place in issue order, flags, hints and scope, length, arithmetic flags, then a part per fibre. -/
def groupBytes (keys : List Nat) (ts : List Strand) (g : List BufStore) : List Byte :=
  match g with
  | [] => []
  | b :: _ =>
    toBytes 2 (keyRank keys b.seq) ++ toBytes 2 (heldMask ts b.seq) ++
      toBytes 1 ((epCode b.ep).toNat + (if b.noal then 4 else 0) + 8 * (match b.sc with | some sc => 1 + (scCode sc).toNat | none => 0)) ++
      toBytes 1 b.bytes.length ++ toBytes 1 (g.foldl (fun (f : BitVec 6) c => f ||| c.flags) 0).toNat ++ toBytes 2 g.length ++
      g.flatMap (fun c => toBytes 2 c.fibre ++ toBytes 8 c.va.toNat ++ c.bytes)

/-- Stores in the order they were buffered, those of one instruction together. -/
def storeGroups (bs : List BufStore) : List (List BufStore) := (dedup (bs.map (fun b => b.seq))).map (fun q => bs.filter (fun b => b.seq == q))

/-- An item's bytes. -/
def BufItem.toBytes (keys : List Nat) (ts : List Strand) (i : BufItem) : List Byte :=
  Machine.toBytes 2 i.owner ++
  (match i.region with
  | none => [0]
  | some r =>
    let gs := storeGroups r.stores
    [1] ++ Machine.toBytes 2 (keyRank keys r.opened) ++ Machine.toBytes 8 r.start.toNat ++ Machine.toBytes 8 r.clause.start.toNat ++ Machine.toBytes 1 r.clause.size.toNat ++
      Machine.toBytes 1 r.clause.fa.toNat ++ Machine.toBytes 1 r.clause.fb.toNat ++ [if r.clause.rastop then 1 else 0] ++ Machine.toBytes 1 r.dest.toNat ++
      Machine.toBytes 4 r.used ++ Machine.toBytes 1 r.act.length ++ r.act.flatMap (Machine.toBytes 2) ++ Machine.toBytes 2 gs.length ++
      gs.flatMap (groupBytes keys ts)) ++
  Machine.toBytes 2 i.held.length ++ i.held.flatMap (fun h => Machine.toBytes 8 h.va.toNat ++ Machine.toBytes 8 h.idx)

/-- The items that fit into a number of bytes, in order; of one that does not fit the region is left out. -/
def fitItems (keys : List Nat) (ts : List Strand) : Nat → List BufItem → List BufItem
  | _, [] => []
  | n, i :: is =>
    let a := (i.toBytes keys ts).length
    let j : BufItem := { i with region := none }
    let b := (j.toBytes keys ts).length
    if a ≤ n then i :: fitItems keys ts (n - a) is else if b ≤ n then j :: fitItems keys ts (n - b) is else fitItems keys ts n is

/-- A skein's strands, oldest first. -/
def strandsOf (s : State) (x : Skein) : List Strand := s.strands.filter (fun t => t.skein == x.id)
/-- A skein's replay entries, in issue order. -/
def replaysOf (s : State) (x : Skein) : List Replay := s.replays.filter (fun r => r.skein == x.id)
/-- Accesses that stay in flight while their hank is saved: the FEEDPOP of a strand that sleeps, none of whose fibres waiting has a record (02 R54). -/
def sleepsIn (s : State) (p : Pending) : Bool := s.strands.any (fun t => match t.wait with | some (.feed _ id _ _) => id == p.id | _ => false)
def sleepersOf (s : State) (x : Skein) : List Pending := s.pend.filter (fun p => p.skein == x.id && sleepsIn s p)

/-- What a skein has in its region buffers: what COMMITs have still to perform first. -/
def bufItems (s : State) (x : Skein) : List BufItem :=
  let ts := strandsOf s x
  let rs := replaysOf s x
  ((upTo 0 rs.length).zip rs).filterMap (fun e =>
      if e.2.stores.isEmpty then none else some { owner := 0x8000 + e.1, region := e.2.region (freshStrand 0 x.id [] 0) e.2.clause, held := [] }) ++
    ((upTo 0 ts.length).zip ts).filterMap (fun e => if e.2.region.isNone && e.2.held.isEmpty then none else some { owner := e.1, region := e.2.region, held := e.2.held })

/-- The keys that tell a skein's saved accesses and buffered stores apart in issue order. -/
def savedKeys (s : State) (x : Skein) : List Nat :=
  let stores := (bufItems s x).flatMap (fun i => match i.region with | some r => r.stores.map (fun b => b.seq) | none => [])
  sortBy (fun (a b : Nat) => decide (a ≤ b)) (dedup ((replaysOf s x).map (fun r => r.id) ++ (sleepersOf s x).map (fun p => p.id) ++ stores))

/-- The places of a skein's entries in issue order. -/
def entryRanks (s : State) (x : Skein) : List Nat :=
  ((replaysOf s x).map (fun r => r.id) ++ (sleepersOf s x).map (fun p => p.id)).map (keyRank (savedKeys s x))

/-- Granules of the region-buffer part, and the items that its bytes have room for. -/
def idbGran (x : Skein) : Nat := (bits x.part 18 6).toNat
/-- DESIGN CHOICE, log 139. -/
def savedItems (s : State) (x : Skein) : List BufItem :=
  fitItems (savedKeys s x) (strandsOf s x) (65536 * idbGran x - 6 - 2 * (entryRanks s x).length) (bufItems s x)

/-- The bytes of the region-buffer part. (DESIGN CHOICE, log 139.) -/
def bufBytes (s : State) (x : Skein) : List Byte :=
  if idbGran x = 0 then []
  else
    let is := savedItems s x
    padTo (65536 * idbGran x) (toBytes 2 (savedKeys s x).length ++ toBytes 2 (entryRanks s x).length ++ (entryRanks s x).flatMap (toBytes 2) ++
      toBytes 2 is.length ++ is.flatMap (BufItem.toBytes (savedKeys s x) (strandsOf s x)))

/-- Where a strand's PC is saved: one whose region does not fit is to begin the region again. -/
def savedPc (s : State) (x : Skein) (t : Strand) : BitVec 64 :=
  match t.region with
  | none => t.pc
  | some r =>
    let place := ((strandsOf s x).findIdx? (fun u => u.id == t.id)).getD 0
    if (savedItems s x).any (fun i => i.owner == place && i.region.isSome) then t.pc else r.start

/-! ### Reading it back -/

/-- A number of n bytes at the head of a list, and the rest. -/
def takeNat (n : Nat) (bs : List Byte) : Nat × List Byte := (ofBytes (bs.take n), bs.drop n)

/-- n things read one after another. -/
def takeMany {α : Type} (f : List Byte → α × List Byte) : Nat → List Byte → List α × List Byte
  | 0, bs => ([], bs)
  | n + 1, bs => match f bs with | (a, r) => (match takeMany f n r with | (l, q) => (a :: l, q))

/-- A buffered store of a saved group. -/
def takeStore (seq : Nat) (b0 : BufStore) (len : Nat) (bs : List Byte) : BufStore × List Byte :=
  ({ b0 with seq := seq, fibre := fieldOf bs 0 2, va := BitVec.ofNat 64 (fieldOf bs 2 8), bytes := (bs.drop 10).take len }, bs.drop (10 + len))

/-- The stores of one instruction, under a key counted from a first one, with the flags that the instruction holds. -/
def takeGroup (key : Nat) (bs : List Byte) : (List BufStore × Nat) × List Byte :=
  let m := fieldOf bs 4 1
  let sc := m / 8
  let b0 : BufStore := { seq := 0, fibre := 0, va := 0, bytes := [], ep := epOf (BitVec.ofNat 2 (m % 4)), noal := m / 4 % 2 == 1,
                         sc := if sc = 0 then none else some (scOf (BitVec.ofNat 3 (sc - 1))), flags := BitVec.ofNat 6 (fieldOf bs 6 1) }
  match takeMany (takeStore (key + fieldOf bs 0 2) b0 (fieldOf bs 5 1)) (fieldOf bs 7 2) (bs.drop 9) with
  | (l, r) => ((l, fieldOf bs 2 2), r)

/-- An open region. -/
def takeRegion (key : Nat) (bs : List Byte) : (IdemRegion × List (Nat × Nat)) × List Byte :=
  let c : Clause := { start := BitVec.ofNat 64 (fieldOf bs 10 8), size := BitVec.ofNat 2 (fieldOf bs 18 1), fa := BitVec.ofNat 4 (fieldOf bs 19 1),
                      fb := BitVec.ofNat 4 (fieldOf bs 20 1), rastop := fieldOf bs 21 1 == 1 }
  match takeMany (takeNat 2) (fieldOf bs 27 1) (bs.drop 28) with
  | (act, r1) =>
    match takeMany (takeGroup key) (fieldOf r1 0 2) (r1.drop 2) with
    | (gs, r2) =>
      (({ opened := key + fieldOf bs 0 2, start := BitVec.ofNat 64 (fieldOf bs 2 8), clause := c, dest := BitVec.ofNat 8 (fieldOf bs 22 1), used := fieldOf bs 23 4,
          act := act, stores := gs.flatMap (fun g => g.1) },
        gs.filterMap (fun g => (g.1.head?).map (fun b => (b.seq, g.2)))), r2)

/-- A held record; its descriptor's place is found anew. -/
def takeHeld (bs : List Byte) : HeldRec × List Byte := ({ desc := 0, va := BitVec.ofNat 64 (fieldOf bs 0 8), idx := fieldOf bs 8 8 }, bs.drop 16)

/-- An item, with the flags of its stores by key. -/
def takeItem (key : Nat) (bs : List Byte) : (BufItem × List (Nat × Nat)) × List Byte :=
  let owner := fieldOf bs 0 2
  let reg := if fieldOf bs 2 1 = 1 then (match takeRegion key (bs.drop 3) with | ((r, fl), rest) => (some r, fl, rest)) else (none, [], bs.drop 3)
  match takeMany takeHeld (fieldOf reg.2.2 0 2) (reg.2.2.drop 2) with
  | (hs, rest) => (({ owner := owner, region := reg.1, held := hs }, reg.2.1), rest)

/-- What the region-buffer part holds: how many keys, the entries' places, the items, keys being counted from a first one. -/
def readBuffers (key : Nat) (bs : List Byte) : Nat × List Nat × List (BufItem × List (Nat × Nat)) :=
  match takeMany (takeNat 2) (fieldOf bs 2 2) (bs.drop 4) with
  | (ranks, r) => (fieldOf bs 0 2, ranks, (takeMany (takeItem key) (fieldOf r 0 2) (r.drop 2)).1)

end Sys2Proof.Machine
end

