-- ==== Sys2Proof/Machine/Images.lean ====
section
/-! DEFINITION. Saved images as bytes (03 R77, R78, R88; 15 R343, R344): a skein's save block, the context's registers, the backing area, how large an
image is, and where the shadow banks have room. -/
namespace Sys2Proof.Machine

/-! ### The device's own accesses

Backing areas lie at virtual addresses (03 R76; 16 R423). Save areas lie at guest physical addresses: an import reads a context's registers, its
table root among them, before any stage 1 stands (15 R343; 19 R418, R420). -/

/-- The request of the device for a skein's backing area. -/
def ownReq (vd ctx mill : Nat) (va : BitVec 64) (write : Bool) : XReq :=
  { engineReq vd ctx mill (vd, some ctx) va write with own := true }

/-- A failure of the device's own traffic: a record, and the context is frozen (16 R359, R365); a VD's save area belongs to no context. -/
def backingFault (s : State) (vd : Nat) (ctx : Option Nat) (f : Flt) : State :=
  match ctx with
  | some c => freezeCtx (postEngine s { kind := 1, vd := vd, ctx := c, token := 0, ident := 0 } f) vd c
  | none => postEngine s { kind := 4, vd := vd, ctx := 0, token := 0, ident := vd } f

/-- A write that a full dirty-page log holds is made again at VD_RUN.GO (16 R358). -/
def holdOwn (s : State) (vd : Nat) (w : OwnWrite) : State := updVd s vd (fun v => { v with ownHeld := v.ownHeld ++ [w] })

/-- Bytes written by the device at a virtual address. -/
def ownWrite (vd ctx mill : Nat) (s : State) (va : BitVec 64) (bs : List Byte) : State :=
  match xlatePieces (fun a => ownReq vd ctx mill a true) 0 s (piecesOf va bs.length) with
  | .ok s1 ps u => (writePieces (vd, some ctx) u s1 ps bs 0).1
  | .held s1 => holdOwn s1 vd { ctx := some ctx, gpa := false, mill := mill, va := va, bytes := bs }
  | .bad s1 f => backingFault s1 vd (some ctx) f
/-- Bytes read by the device. -/
def ownRead (vd ctx mill : Nat) (s : State) (va : BitVec 64) (n : Nat) : Option (List Byte) :=
  match xlatePieces (fun a => ownReq vd ctx mill a false) 0 s (piecesOf va n) with
  | .ok s1 ps _ => some (ps.flatMap (fun p => readSpa s1 p.1 p.2))
  | _ => none

/-- A guest physical address through stage 2 (16 R348, R352, R357): the system physical address and whether the dirty-page log holds the write. -/
def gpaXlate (s : State) (a : Acct) (vd gpa : Nat) (write : Bool) : State × Except Flt (Nat × Bool) :=
  let bad : Flt := { Flt.plain .violation 0x32 0xFFFF 0 with access := if write then 2 else 1, gpa := gpa }
  let w := walk2 s gpa 4 (s2root s vd)
  let s1 := charge s a 0 20 w.1
  match w.2 with
  | .error e => (s1, .error { bad with level := e.level })
  | .ok l =>
    let spa := normSpa s1 (l.frame + gpa % 2 ^ l.lg)
    if (write && !l.e.w) || (!write && !l.e.r) || !inVdMem s1 vd spa then (s1, .error { bad with level := l.level })
    else
      let s2 := pteAccess s1 false l.at_
      if write then
        match s2Dirty s2 vd l.at_ (gpa / 2 ^ l.lg * 2 ^ l.lg) l.lg with
        | (s3, held) => (s3, .ok (spa, held))
      else (s2, .ok (spa, false))

/-- Pieces of a range written through stage 2 in order: the state, and what is left when the log is full or an address fails. -/
def gpaPut (a : Acct) (vd : Nat) : State → List (BitVec 64 × Nat) → List Byte → State × Option (Except Flt (BitVec 64 × List Byte))
  | s, [], _ => (s, none)
  | s, (g, n) :: ps, bs =>
    match gpaXlate s a vd g.toNat true with
    | (s1, .error f) => (s1, some (.error f))
    | (s1, .ok (_, true)) => (s1, some (.ok (g, bs)))
    | (s1, .ok (spa, false)) => gpaPut a vd (writeSpa (engineLine s1 a (spa / 128) true false) spa (bs.take n)) ps (bs.drop n)

/-- Bytes written by the device at a guest physical address, for a context or for a VD. (DEDUCED, log 65.) -/
def gpaWrite (vd : Nat) (ctx : Option Nat) (s : State) (gpa : BitVec 64) (bs : List Byte) : State :=
  match gpaPut (vd, ctx) vd s (piecesOf gpa bs.length) bs with
  | (s1, none) => s1
  | (s1, some (.error f)) => backingFault s1 vd ctx f
  | (s1, some (.ok (g, rest))) => holdOwn s1 vd { ctx := ctx, gpa := true, mill := 0, va := g, bytes := rest }
/-- Bytes read by the device at a guest physical address. (DEDUCED, log 65.) -/
def gpaRead (vd : Nat) (s : State) (gpa : BitVec 64) (n : Nat) : Option (List Byte) :=
  ((piecesOf gpa n).map (fun p => match gpaXlate s (vd, none) vd p.1.toNat false with
    | (s1, .ok (spa, _)) => some (readSpa s1 spa p.2)
    | _ => none)).foldl (fun acc o => match acc, o with | some a, some b => some (a ++ b) | _, _ => none) (some [])

/-! ### The save block (15 R343) -/

/-- The guest physical address of a context's save block of a slot and a rank. (DEDUCED, log 65.) -/
def saveAddr (c : Ctx) (slot rank : Nat) : BitVec 64 := (c.save &&& ~~~65535) + BitVec.ofNat 64 (0x1000 + slot * 0x1800000 + rank * 0x300000)

/-- Numbers of w bits each, one after another, as one number. -/
def packBits (w : Nat) : List Nat → Nat
  | [] => 0
  | x :: xs => x % 2 ^ w + 2 ^ w * packBits w xs

/-- State codes of a strand record, in the order of 02 R43; a runahead strand is saved as Held (02 R66). -/
def StrandState.saveCode : StrandState → Nat
  | .ready => 0 | .held => 1 | .runahead => 1 | .raStopped => 1 | .barrier => 4 | .sleeping => 5 | .parked => 6 | .trap => 7

/-- A strand's busy flags. -/
def busyMask (t : Strand) : Nat := t.holds.foldl (fun m e => Nat.lor m (2 ^ e.1)) 0
/-- The state code a strand is saved with: one that sleeps in FEEDPOP is saved Sleeping also when it has been woken and has not issued again (02 R43). -/
def Strand.saveCode (t : Strand) : Nat := match t.wait with | some (.feed ..) => 5 | _ => t.st.saveCode

/-- A strand record. -/
def strandRecord (t : Strand) (rank : Nat) : List Byte :=
  padTo 64 (toBytes 40 (packBits 10 ((t.fibres ++ List.replicate 32 0x3FF).take 32)) ++ toBytes 2 (busyMask t) ++ toBytes 1 t.saveCode ++ zeros 1 ++
    toBytes 4 rank ++ toBytes 8 t.h.toNat)

/-- A fibre's id in an entry: one that has ended is marked. (DESIGN CHOICE, log 66.) -/
def savedFibre (f : Nat) : Nat := if f < 65536 then f else 0x8000 + f % 1024

/-- A replay entry: word, PC, strand, flags, kind, next (r, b), and a part per active fibre; of a LAUNCH that awaits its slot, the slot in the reserved bytes
41:34, and in (r, b) the status once it is decided, to which the manual gives no place (DESIGN CHOICE, log 66). -/
def replayRecord (word : List Byte) (pc : BitVec 64) (strand flags kind r b slot : Nat) (ops : List (Nat × BitVec 64 × BitVec 64 × BitVec 64)) : List Byte :=
  let part := fun (i : Nat) => match ops[i]? with
    | some o => toBytes 2 (savedFibre o.1) ++ zeros 6 ++ toBytes 8 o.2.1.toNat ++ toBytes 8 o.2.2.1.toNat ++ toBytes 8 o.2.2.2.toNat
    | none => toBytes 2 0xFFFF ++ zeros 30
  padTo 2048 (padTo 16 word ++ toBytes 8 pc.toNat ++ toBytes 2 strand ++ toBytes 2 flags ++ toBytes 1 kind ++ zeros 3 ++ toBytes 1 b ++ toBytes 1 r ++ toBytes 8 slot ++
    zeros 22 ++ (upTo 0 32).flatMap part)

/-- The place of a strand among its skein's, as an entry names it; 0xFFFF when it has gone. -/
def strandRank (ts : List Strand) (ks : List Nat) : Nat := ((upTo 0 ts.length).find? (fun i => match ts[i]? with | some t => ks.contains t.id | none => false)).getD 0xFFFF

/-- The operands of a FEEDPOP's fibres that have no record yet (02 R54). -/
def Pending.unserved (p : Pending) : List (Nat × BitVec 64 × BitVec 64 × BitVec 64) :=
  p.ops.filter (fun o => p.lanes.any (fun l => l.fibre == o.1 && l.size == 0))

/-- A skein's replay entries: what HALT has recorded; the FEEDPOPs of strands that sleep, for the fibres still waiting; LAUNCH instructions that await
their slot (02 R54; 15 R341, R342). -/
def replayRecords (s : State) (x : Skein) : List (List Byte) :=
  let ts := strandsOf s x
  (replaysOf s x).map (fun r => replayRecord r.word r.pc (strandRank ts r.strands) (heldMask ts r.id) (if r.array then 1 else 0) r.r r.b 0 r.ops) ++
    (sleepersOf s x).map (fun p => replayRecord p.word p.pc (strandRank ts p.strands) (heldMask ts p.id) 0 0 0 0 p.unserved) ++
    ts.filterMap (fun t => match t.wait with
      | some (.launch _ slot st word ops) =>
        some (replayRecord word t.pc (strandRank ts [t.id]) 0 2 (match st with | some v => v.toNat | none => 0) (if st.isSome then 1 else 0) slot ops)
      | _ => none)

/-- The latch's records, 16 bytes each; bits 18:16 of an offset, to which the two bytes of the layout give no room, stand in bits 3:1 of byte 4
(DESIGN CHOICE, log 66). -/
def latchBytes (l : Option Latch) : List Byte :=
  match l with
  | none => zeros 2048
  | some v => padTo 2048 (v.recs.flatMap (fun r =>
      padTo 16 (toBytes 2 r.off ++ toBytes 1 r.n0 ++ toBytes 1 r.nc ++ toBytes 1 ((if r.cmp then 1 else 0) + 2 * (r.off / 65536)))))

/-- Fibres of a skein that have arrived at a barrier. -/
def arrivals (b : Barrier) (x : Skein) : Nat := (b.arrived.filter (fun p => p.1 == x.id)).length

/-- The headers and latch records of a save block: bytes 0 to 0x9FF. -/
def saveHead (s : State) (x : Skein) : List Byte :=
  let h := hank? s x.hank
  let bar := match h with | some k => k.bar | none => Barrier.reset
  let recs := match x.latch with | some l => l.recs.length | none => 0
  padTo 256 (toBytes 4 x.part.toNat ++ toBytes 2 x.fmax ++ toBytes 1 x.w ++ toBytes 1 x.rank ++ toBytes 4 (match h with | some k => k.index | none => 0) ++
      toBytes 4 x.token.toNat ++ toBytes 4 x.bar.g.toNat ++ toBytes 4 bar.g.toNat ++ toBytes 2 (arrivals x.bar x) ++ toBytes 2 (arrivals bar x) ++
      toBytes 2 (strandsOf s x).length ++ toBytes 2 (replayRecords s x).length ++ toBytes 8 x.base.toNat) ++
    padTo 256 (toBytes 1 x.cls.toNat ++ toBytes 1 x.wg ++ toBytes 1 (match x.latch with | some l => l.m | none => 0) ++
      toBytes 1 (match x.latch with | some l => l.kb | none => 0) ++ toBytes 1 recs) ++
    latchBytes x.latch

/-- Granules of the scratchpad part of the pool. -/
def scrGran (x : Skein) : Nat := (bits x.part 6 6).toNat

/-- The accumulator region: a0 to a7, then the output rows. -/
def accBytes (x : Skein) : List Byte :=
  if accGran x = 0 then []
  else ((mgetAll x.accs 0 2048) ++ mgetAll x.out 0 (16384 * accGran x - 2048)).flatMap (fun v => toBytes 4 v.toNat)

/-- Pool parts other than the register region, in pool order (01 R16). -/
def poolBytes (s : State) (x : Skein) : List Byte := mgetAll x.scr 0 (65536 * scrGran x) ++ accBytes x ++ bufBytes s x

/-- A skein's save block is written: what it holds, not the unused room of its tables. (DESIGN CHOICE, log 66.) -/
def writeBlock (s : State) (c : Ctx) (slot : Nat) (x : Skein) : State :=
  let a := saveAddr c slot x.rank
  let put := fun (u : State) (off : Nat) (bs : List Byte) => gpaWrite x.vd (some x.ctx) u (a + BitVec.ofNat 64 off) bs
  let ts := strandsOf s x
  let s1 := put (put s 0 (saveHead s x)) 0x1000 ((upTo 0 ts.length).flatMap (fun i => match ts[i]? with | some t => strandRecord t i | none => []))
  let s2 := put s1 0x11000 ((replayRecords s x).flatMap (fun r => r))
  put (put s2 0x40000 (mgetAll x.share 0 (32768 * x.wg))) 0x100000 (poolBytes s x)

/-! ### The backing area (03 R77, R78, R88) -/

/-- A fibre record; the PC of fibres whose strand is in the Trap state is that of the handler strand, which holds them too (10 R261). -/
def fibreRecord (s : State) (x : Skein) (f : Nat) : List Byte :=
  match x.fibre? f with
  | none => zeros 64
  | some y =>
    let mine := (strandsOf s x).filter (fun t => t.fibres.contains f)
    let pc := match (mine.find? (fun t => t.st != .trap)).or mine.head? with | some t => savedPc s x t | none => 0
    padTo 64 (toBytes 8 pc.toNat ++ [1] ++ zeros 7 ++ toBytes 6 y.live.toNat ++ zeros 2 ++ toBytes 24 y.rel.toNat)

/-- The runs of bytes that are given, each with its offset. -/
def runsOf : Nat → List (Option Byte) → List (Nat × List Byte)
  | _, [] => []
  | o, none :: bs => runsOf (o + 1) bs
  | o, some b :: bs =>
    match runsOf (o + 1) bs with
    | (k, r) :: rest => if k = o + 1 then (o, b :: r) :: rest else (o, [b]) :: (k, r) :: rest
    | [] => [(o, [b])]

/-- Bytes of a skein's backing area, from an offset, those that are given. -/
def putBacking (x : Skein) (s : State) (off : Nat) (bs : List (Option Byte)) : State :=
  (runsOf off bs).foldl (fun u r => ownWrite x.vd x.ctx (millOfSpindle x.spindle) u (x.base + BitVec.ofNat 64 r.1) r.2) s

/-- Vector lines of living fibres that nothing has written since the skein was placed, and tile lines: they hold the zeros of 02 R31, which no line has
brought to the backing area. -/
def unwrittenLines (x : Skein) : List LineKey :=
  (((upTo 0 ((x.fmax + 31) / 32)).flatMap (fun b => (upTo 0 (x.w / 4)).map (fun q => LineKey.vec b q))) ++ (upTo 0 16).map LineKey.tile).filter
    (fun k => !x.written.contains k && !x.dead k)

/-- Lines that a save writes: dirty ones that are not dead, and pinned ones (03 R88). -/
def savedLines (x : Skein) : List RegLine := x.lines.filter (fun l => (l.st == .dirty && !x.dead l.key) || l.st == .pinned)

/-- A skein's dirty lines go to its backing area. -/
def cleanLines (s : State) (x : Skein) : State :=
  (savedLines x).foldl (fun u l => putBacking x u (x.lineOff l.key) (x.lineData l.key)) s

/-- What of a skein's registers goes to its backing area: dirty lines that are not dead, pinned lines, the zeros of lines never written, fibre records,
accumulators; reserved bytes as zeros (03 R77, R88). (DESIGN CHOICE, log 66.) -/
def writeBacking (s : State) (x : Skein) : State :=
  let put := fun (u : State) (off : Nat) (bs : List Byte) => putBacking x u off (bs.map some)
  let s1 := (unwrittenLines x).foldl (fun u k => putBacking x u (x.lineOff k) (x.lineData k)) (cleanLines s x)
  let s2 := put (put (put s1 0x10000 ((upTo 0 x.fmax).flatMap (fibreRecord s x))) 0xA00 (zeros 0x600)) 0x5000 (zeros 0xB000)
  if accGran x = 0 then s2 else put s2 0x3000 ((mgetAll x.accs 0 2048).flatMap (fun v => toBytes 4 v.toNat))

/-! ### The context's registers -/

/-- Every CTX_ register with a selector, each at its place in the first 4 KiB of the save area. -/
def ctxSelectors : List Nat := [0x001, 0x002, 0x003, 0x004, 0x005, 0x006, 0x007, 0x008, 0x009, 0x00A, 0x00B, 0x00C, 0x00D, 0x011, 0x100, 0x101, 0x102, 0x103,
  0x200, 0x201, 0x202, 0x203, 0x204]
def ctxPage (c : Ctx) : List Byte :=
  let m := ctxSelectors.foldl (fun (m : SMap 64) sel => mset m ((sel % 256) + 128 * (sel / 256)) (c.reg sel)) []
  (mgetAll m 0 512).flatMap (fun v => toBytes 8 v.toNat)
def writeCtxPage (s : State) (c : Ctx) : State := gpaWrite c.vd (some c.num) s (c.save &&& ~~~65535) (ctxPage c)

/-! ### Images and shadow banks (15 R344) -/

/-- The bytes of a skein's image: what R88 saves of its registers, the other pool parts, the share, the save block's records. (DEDUCED, log 61.) -/
def imageBytesOf (s : State) (x : Skein) : Nat :=
  512 * (savedLines x).length + 64 * x.fmax +
    65536 * (scrGran x + accGran x + idbGran x) + 32768 * x.wg + 512 + 16 * (match x.latch with | some l => l.recs.length | none => 0) +
    64 * (strandsOf s x).length + 2048 * (replayRecords s x).length
/-- An image moves: its 512-byte units are charged to its context. -/
def chargeImage (s : State) (x : Skein) (cls : Nat) : State := charge s (acctOf x) (millOfSpindle x.spindle) cls (divUp (imageBytesOf s x) 512)

def skeinsOfHank (s : State) (h : Hank) : List Skein := s.skeins.filter (fun x => x.hank == h.id)

/-- Images in the shadow bank of a spindle. -/
def shadowed (s : State) (n : Nat) : List Skein :=
  s.skeins.filter (fun x => x.spindle == n && (match hank? s x.hank with | some h => h.inShadow | none => false))
/-- Whether a shadow bank has room for a skein: 32 granules of pool, and the shadow copy of the weight buffer's 16 of share; the images of some hanks
are leaving it. (DEDUCED, log 61.) -/
def shadowRoom (s : State) (gone : List Nat) (x : Skein) : Bool :=
  let here := (shadowed s x.spindle).filter (fun y => !gone.contains y.hank)
  decide ((here.map (fun y => wordGranules y.part)).foldl (fun a n => a + n) 0 + wordGranules x.part ≤ 32) &&
    decide ((here.map (fun y => y.wg)).foldl (fun a n => a + n) 0 + x.wg ≤ 16)

/-- A halted hank's image goes from the shadow banks to its save slot and its backing areas. -/
def spillImage (s : State) (h : Hank) : State :=
  match hankCtx s h with
  | none => s
  | some c =>
    let xs := skeinsOfHank s h
    let s1 := xs.foldl (fun u x => chargeImage (writeBacking (writeBlock u c h.saveSlot x) x) x 29) s
    writeCtxPage (updIf (fun k => k.id == h.id) (fun k => { k with inShadow := false }) s1.hanks |> fun hs => { s1 with hanks := hs }) c

/-- The oldest images leave the shadow banks until a hank's skeins have room, but for those of hanks that are leaving them; n bounds their number. -/
def makeShadow (s : State) (h : Hank) (gone : List Nat) : Nat → State
  | 0 => s
  | n + 1 =>
    match (skeinsOfHank s h).find? (fun x => !shadowRoom s gone x) with
    | none => s
    | some x =>
      match s.hanks.find? (fun k => k.inShadow && !gone.contains k.id && (skeinsOfHank s k).any (fun y => y.spindle == x.spindle)) with
      | none => s
      | some k => makeShadow (spillImage s k) h gone n

end Sys2Proof.Machine
end

