-- ==== Sys2Proof/Machine/Preempt.lean ====
section
/-! DEFINITION. Pre-emption (01 R28; 02 R43, R49, R66; 15 R335, R339 to R347; 10 R265): HALT with its replay entries and images, RESUME,
SCHEDULER_RUN, SKEIN_RETIRE, CPR_PREEMPT_GO, and the end of a context (17 R390). -/
namespace Sys2Proof.Machine

/-! ### Stop and Record (15 R340, R341) -/

/-- A strand as it is saved: an instruction that waits and may be abandoned is abandoned and will be issued again at its PC; arrivals at a barrier, a
FEEDPOP that sleeps, a LAUNCH that awaits its slot and a resume token stay (02 R43). -/
def Strand.abandon (t : Strand) : Strand :=
  let again : Strand := { t with st := .ready, wait := none, again := false }
  let u := match t.wait with
    | some (.barrier _ true _ _ _ _ _) => again
    | some (.barrier ..) => t
    | some (.feed ..) => t
    | some (.launch ..) => t
    | some (.token _) => t
    | some _ => again
    | none => t
  { u with waitCount := 0, due := false, dueCycles := 0, inPlace := [] }

/-- Requests for an operating point of strands that no longer wait for one are withdrawn. -/
def dropRequests (s : State) : State :=
  { s with opreqs := s.opreqs.filter (fun r => match r.strand with
      | none => true
      | some k => (match (strand? s k).bind (fun t => t.wait) with | some (.opreq n _) => n == r.id | _ => false)) }

/-- An access of a hank that becomes a replay entry at the halt: one that has not left its spindle, of which no part has been performed, a COMMIT among
them; and one that a full dirty-page log holds (15 R341; 16 R358). The records of a FEEDPOP land. (DEDUCED, log 115.) -/
def recordable (p : Pending) : Bool :=
  (p.unsent || p.dlogHeld) && (match p.acc with | .feedpop .. => false | .pft .. => false | _ => true)

/-- A hank's accesses in flight, but for a FEEDPOP whose strand sleeps. -/
def hankPend (s : State) (h : Hank) : List Pending := s.pend.filter (fun p => h.skeins.contains p.skein && !sleepsIn s p)
/-- A hank's array work that no packet has brought. -/
def hankArray (s : State) (h : Hank) : List ArrayWork := s.array.filter (fun a => h.skeins.contains a.skein && a.pkt.isNone)

/-- Quiescence can end: what has left the spindle has landed, no array step is in progress, and no skein would have more than 64 replay entries
(09 R232; 15 R340, R342). (DESIGN CHOICE, log 34; DEDUCED, log 115.) -/
def haltReady (s : State) (h : Hank) : Bool :=
  h.st == .quiescing && !h.failed &&
    (hankPend s h).all (fun p => recordable p || (match p.acc with | .pft .. => true | _ => false)) &&
    s.pend.all (fun p => !(h.skeins.contains p.skein && sleepsIn s p) || p.lanes.all (fun l => l.done || l.size == 0)) &&
    s.array.all (fun a => !(h.skeins.contains a.skein && a.begun)) &&
    h.skeins.all (fun k => match skein? s k with | some x => decide (unsentOf s x ≤ 64) | none => true)

/-- The stores that a COMMIT has still to perform. -/
def Pending.leftStores (p : Pending) : List BufStore :=
  match p.acc with
  | .commitStore stores => ((stores.zip p.lanes).filter (fun e => !e.2.done)).map (fun e => e.1)
  | _ => []

/-- The entry of an access, and of array work. -/
def Pending.entry (p : Pending) : Replay :=
  { id := p.id, array := false, skein := p.skein, strands := p.strands, word := p.word, pc := p.pc, ops := p.ops, r := 0, b := 0, flags := 0,
    stores := p.leftStores, token := none }
def ArrayWork.entry (a : ArrayWork) : Replay :=
  { id := a.id, array := true, skein := a.skein, strands := a.strands, word := a.word, pc := a.pc, ops := a.ops, r := a.r, b := a.b, flags := a.flags,
    stores := [], token := none }

/-- The entries of a hank in the order of issue: its accesses and array work, and those it has still to issue again (15 R342). -/
def entriesOf (s : State) (h : Hank) : List Replay :=
  sortBy (fun (a b : Replay) => decide (a.id ≤ b.id))
    (((hankPend s h).filter recordable).map Pending.entry ++ (hankArray s h).map ArrayWork.entry ++
      (s.replays.filter (fun r => h.skeins.contains r.skein)).map (fun r => { r with token := none }))

/-- The sums of the row that array work is in the middle of are kept in its output row, which it alone reads until it is done (09 R232). (DEDUCED, log 56.) -/
def keepSums (s : State) (a : ArrayWork) : State :=
  match a.op with
  | .sstep _ _ _ _ _ _ orow | .slut _ _ _ _ orow =>
    if a.b = 0 then s else updSkein s a.skein (fun x => { x with out := msetAll x.out (128 * (orow + a.r)) a.sums })
  | .tmma .. => s

/-- PFT lines not yet fetched are dropped and the PFT completes (15 R341). (DEDUCED, log 115.) -/
def dropPfts (s : State) (h : Hank) : State :=
  ((hankPend s h).filter (fun p => match p.acc with | .pft .. => true | _ => false)).foldl (fun u p => complete u p.id) s

/-- What remains becomes replay entries; strands are classified (15 R340). (DEDUCED, log 115.) -/
def recordHank (s0 : State) (h : Hank) : State :=
  let s := (hankArray s0 h).foldl keepSums (dropPfts s0 h)
  let mine := fun (k : Nat) => h.skeins.contains k
  let s1 := { s with
    replays := s.replays.filter (fun r => !mine r.skein) ++ entriesOf s h,
    pend := s.pend.filter (fun p => !(mine p.skein && !sleepsIn s p && recordable p)),
    array := s.array.filter (fun a => !(mine a.skein && a.pkt.isNone)),
    strands := s.strands.map (fun t => if mine t.skein then t.abandon else t) }
  dropRequests (((strandsOfHank s1 h).filter (fun t => t.active)).foldl leaveActive s1)

/-! ### The end of a context (17 R390; 14 R313) -/

/-- The lots of a context that ends complete with ENDED. -/
def endLots (s : State) (vd n : Nat) : State := (lotsOf s vd n).foldl (fun u l => lotComplete u { l with code := 8, detail := 0 }) s

/-- A context that has no hank and no lot left is gone: its pins are released; its account stays under another number until the tick close that folds it. (DESIGN CHOICE, log 60.) -/
def ctxGone (s1 : State) (vd n : Nat) : State :=
  { s1 with
    key := s1.key + 1,
    ctxs := updIf (fun c => c.vd == vd && c.num == n)
      (fun c => { c with num := n + 1024 * (s1.key + 1), st := 0, stopped := true, runnable := false, ending := false }) s1.ctxs,
    mem := { s1.mem with l2 := s1.mem.l2.map (fun x =>
      { x with pins := x.pins.filter (fun p => p != (vd, n)), writer := if x.writer == some (vd, some n) then some (vd, none) else x.writer }) },
    mills := s1.mills.map (fun m => { m with reserved := m.reserved.filter (fun e => e.2 != vd * 1024 + n) }) }

/-- A context begins to end: its placed hanks quiesce, its saved hanks go at once. -/
def endCtx (s : State) (vd n : Nat) : State :=
  match ctx? s vd n with
  | none => s
  | some _ =>
    let s1 := haltCtx (updCtx s vd n (fun c => { c with ending := true, runnable := false })) vd n .ending
    ((allHanks s1 vd n).filter (fun h => h.st == .saved)).foldl (fun u h => dropHank u h false) s1

/-- Contexts that are ending and have no hank left: their lots complete; once their records and signals are written, the contexts are gone. (DEDUCED, log 108.) -/
def settleEnding (s : State) : State :=
  (s.ctxs.filter (fun c => c.ending && (allHanks s c.vd c.num).isEmpty)).foldl (fun u c =>
    if !(lotsOf u c.vd c.num).isEmpty then endLots u c.vd c.num
    else if (u.writes ++ (vdOf u c.vd).withheld).any (fun w => w.vd == c.vd && w.ctx == c.num) then u
    else ctxGone u c.vd c.num) s

def execContextEnd (vd n : Nat) (s : State) : Out := .next (endCtx s vd n)

/-- A context comes to be in a bound VD where it is absent (14 R299). -/
def createCtx (s : State) (vd n : Nat) : State :=
  if (vdOf s vd).bound && !(vdOf s vd).ending && decide (vd < 16) && decide (n < 1024) && (ctx? s vd n).isNone then
    { s with ctxs := s.ctxs ++ [Ctx.create vd n] }
  else s

/-- CONTEXT_CREATE: CTX_STATE.ST written 1 (14 R299). -/
def execContextCreate (vd n : Nat) (s : State) : Out := .next (createCtx s vd n)

/-- A write of CTX_STATE (17 R390, R391): ST 1 creates an absent context, ST 0 ends one; PRIV is written. (DEDUCED, log 112.) -/
def ctxStateWrite (s : State) (vd n : Nat) (value : BitVec 64) : State :=
  let put := fun (u : State) => updCtx u vd n (fun x => { x with priv := value.getLsbD 2 })
  match ctx? s vd n with
  | none => if bits value 0 2 = 1 then put (createCtx s vd n) else s
  | some _ => if bits value 0 2 = 0 then endCtx s vd n else put s

/-! ### HALT (15 R340 to R344) -/

/-- The halted hanks whose image waits in the shadow banks for a place that is being cleared for it: the moves exchange the images (15 R344). (DEDUCED, log 61.) -/
def awaiting (s : State) : List Nat :=
  (s.mills.flatMap (fun m => m.reserved)).filterMap (fun e =>
    match (ctx? s (e.2 / 1024) (e.2 % 1024)).bind (offerOf s) with
    | some (.saved k _) => if k.inShadow && k.frame == e.1 then some k.id else none
    | _ => none)

/-- The image of a halted hank is kept: in the shadow banks of its spindles, in exchange for an image that waits there to be restored, else after older
images have made room (15 R344). (DESIGN CHOICE, log 66.) -/
def keepImage (s : State) (h : Hank) : State :=
  let s1 := (skeinsOfHank s h).foldl (fun u x => chargeImage u x 28) s
  let s2 := makeShadow s1 h (awaiting s1) s1.hanks.length
  let mine := fun (k : Nat) => h.skeins.contains k
  let room := (skeinsOfHank s2 h).all (shadowRoom s2 (awaiting s2))
  let h1 : Hank := { (hank? s2 h.id).getD h with st := .saved, inShadow := true }
  let s3 := { s2 with
    hanks := s2.hanks.filter (fun k => k.id != h.id) ++ [h1],
    skeins := s2.skeins.map (fun x => if mine x.id then { x with l1From := s2.gtb, opc := [] } else x),
    spindles := s2.spindles.map (fun z => match z.cells with | some k => if mine k then { z with cells := none } else z | none => z),
    cp := { s2.cp with preemptHanks := s2.cp.preemptHanks.filter (fun k => k != h.id) } }
  if room then s3 else spillImage s3 h1

/-- HALT: what remains is recorded and the hank leaves its spindles; of a context that ends nothing is kept. -/
def haltGo (s : State) (h : Hank) : State :=
  let s1 := recordHank (noteGran s h s.gtb) h
  match h.why with
  | .ending => settleEnding { dropHank s1 h false with replays := s1.replays.filter (fun r => !h.skeins.contains r.skein) }
  | _ => keepImage s1 h

def execHalt (id : Nat) (s : State) : Out := .next (match hank? s id with | some h => if haltReady s h then haltGo s h else s | none => s)

/-! ### RESUME (15 R345) -/

/-- A FEEDPOP that slept is issued again for the fibres still waiting (02 R54). -/
def Strand.rewake (t : Strand) : Strand := match t.wait with | some (.feed d i fs _) => { t with wait := some (.feed d i fs true) } | _ => t

/-- Writes that a full dirty-page log held are translated again (16 R358): those of one hank, or of a VD's hanks that are placed. -/
def retryHeld (s : State) (mine : Nat → Bool) : State :=
  (s.pend.filter (fun p => p.dlogHeld && mine p.skein)).foldl (fun u p =>
    match skein? u p.skein with
    | none => u
    | some x =>
      let todo := p.lanes.filter (fun l => !l.done)
      match checkLanes (Need.plain false true) x.id x p.pc u todo with
      | (u1, .ok (ls, held, _)) => setPend u1 { p with lanes := p.lanes.filter (fun l => l.done) ++ ls, dlogHeld := held }
      | (u1, .error f) =>
        match (p.strands.find? (fun k => (strand? u1 k).isSome)).bind (strand? u1) with
        | some t => deliver u1 t x f
        | none => failHank u1 x f) s

/-- A halted hank is placed and restored on a frame, its dirty lines being brought to the backing area, from which lines come back on demand (03 R88): from the shadow banks of the same spindles, or else through its save slot. -/
def resumeHank (s : State) (c : Ctx) (h : Hank) (fr : Nat) (slots : List Nat) : State :=
  let mine := fun (k : Nat) => h.skeins.contains k
  let place := fun (x : Skein) => fr * 8 + slots.getD x.rank 0
  let same := h.inShadow && (skeinsOfHank s h).all (fun x => x.spindle == place x)
  let s1 := if !h.inShadow then s else if same then (skeinsOfHank s h).foldl cleanLines s else spillImage s h
  let moved := { s1 with
    skeins := s1.skeins.map (fun x => if mine x.id then
      { x with spindle := place x, lines := pinnedLines x.fmax, fibres := x.fibres.map (fun f => { f with lastPage := none }) } else x),
    pend := s1.pend.map (fun p => if mine p.skein then { p with spindle := fr * 8 + (match skein? s1 p.skein with | some x => slots.getD x.rank 0 | none => 0) } else p),
    array := s1.array.map (fun a => if mine a.skein then { a with spindle := fr * 8 + (match skein? s1 a.skein with | some x => slots.getD x.rank 0 | none => 0) } else a),
    strands := s1.strands.map (fun t => if mine t.skein then t.rewake else t),
    hanks := s1.hanks.filter (fun k => k.id != h.id) ++ [{ h with frame := fr, st := .placed, why := .preempt, inShadow := false, since := s1.gtb, mig := false }] }
  let s2 := (skeinsOfHank moved h).foldl (fun u x => chargeImage u x (if same then 28 else 29)) moved
  afrAll (dropReserve (retryHeld s2 mine) c)

/-- An offered hank is placed where it fits. -/
def placeOffer (s : State) (c : Ctx) (o : Offer) (fr : Nat) (slots : List Nat) : State :=
  match o with
  | .saved h _ => resumeHank s c h fr slots
  | .fresh l => afrAll (dropReserve (placeFresh s c l fr slots) c)

/-! ### SCHEDULER_RUN (15 R335) -/

/-- The first candidate whose hank fits, with the place. -/
def firstPlace (s : State) : Option (Ctx × Offer × Nat × List Nat) :=
  (schedCands s).findSome? (fun c => (offerOf s c).bind (fun o => (firstFit s c o).map (fun p => (c, o, p.1, p.2))))

/-- Hanks are placed until none fits; n bounds their number. -/
def placeAll (s : State) : Nat → State
  | 0 => s
  | n + 1 =>
    match firstPlace s with
    | none => s
    | some (c, o, fr, slots) => placeAll (settleRunnable (placeOffer s c o fr slots)) n

/-- Hanks queued in all. -/
def queuedAll (s : State) : Nat := (s.ctxs.map (queuedHanks s)).foldl (fun a n => a + n) 0

/-- The scheduler runs: catch-up, placement, pre-emption for priority. -/
def schedRun (s : State) : State :=
  let s1 := settleRunnable s
  priorityRun (placeAll s1 (queuedAll s1))
def execSchedulerRun (s : State) : Out := .next (schedRun s)

/-- Whether the scheduler has something to do. -/
def schedDue (s : State) : Bool :=
  s.ctxs.any (fun c => isRunnable s c && !c.runnable) || (let s1 := settleRunnable s
    (firstPlace s1).isSome || (schedCands s1).any (fun c => (priorityTake s1 c).isSome))

/-- RESUME: the hank named is the next that the scheduler places. -/
def execResume (id : Nat) (s : State) : Out :=
  .next (let s1 := settleRunnable s
    match firstPlace s1 with
    | some (c, .saved h _, fr, slots) => if h.id = id then settleRunnable (resumeHank s1 c h fr slots) else s
    | _ => s)
/-- The halted hank that the scheduler would place next. -/
def resumeNext (s : State) : Option Nat := match firstPlace (settleRunnable s) with | some (_, .saved h _, _, _) => some h.id | _ => none

/-! ### SKEIN_RETIRE (02 R34, R48) -/

def execSkeinRetire (k : Nat) (s : State) : Out :=
  .next (match skein? s k with | some x => if canRetire s x then settleEnding (skeinRetire s x) else s | none => s)

/-! ### CPR_PREEMPT (15 R339) -/

/-- A write of CPR_PREEMPT: ignored while BUSY; with GO the named hanks halt, and with VD the VD is stopped. -/
def execCprPreemptGo (v : BitVec 64) (s : State) : Out :=
  .next (
    if s.cp.preempt.getLsbD 23 then s
    else
      let reg := v &&& 0x7FFF80
      let vd := (bits v 17 4).toNat
      let mig := v.getLsbD 22
      if !v.getLsbD 0 then { s with cp := { s.cp with preempt := reg } }
      else
        let names := fun (hs : List Nat) => (s.hanks.filter (fun h => h.st != .saved && hs.contains h.id)).map (fun h => h.id)
        let busy := fun (hs : List Nat) (u : State) => { u with cp := { u.cp with preempt := reg ||| 0x800000, preemptHanks := names hs } }
        if v.getLsbD 21 then busy (hanksOfVd s vd) (haltVd (restCtxs (updVd s vd (fun u => { u with stopped := true, run := 0 })) vd) vd .preempt mig)
        else
          let c := (bits v 7 10).toNat
          busy (hanksOf s vd c) ((hanksOf s vd c).foldl (fun u h => haltHank u h .preempt mig) s))

end Sys2Proof.Machine
end

