-- ==== Sys2Proof/Machine/Migrate.lean ====
section
/-! DEFINITION. Migration (15 R343; 19 R418 to R420): what a stop with MIG writes, and what VD_RUN.GO imports. -/
namespace Sys2Proof.Machine

/-! ### The stop (19 R418, R419) -/

/-- The bytes of a packet's leading chunks that have moved: where its replay entry goes on. -/
def movedPrefix (p : BtePkt) : Nat :=
  let has := fun (c : Nat) => p.done.contains c || p.landed.any (fun e => e.1 == c)
  Nat.min p.tile (512 * (((upTo 0 p.chunks).find? (fun c => !has c)).getD p.chunks))

/-- A VD's packets in queue order. -/
def vdPkts (s : State) (vd : Nat) : List BtePkt :=
  sortBy (fun (a b : BtePkt) => decide (a.desc < b.desc) || (a.desc == b.desc && decide (a.seq ≤ b.seq))) (s.pkts.filter (fun p => p.vd == vd))
/-- A BTE replay entry. -/
def bteRecord (p : BtePkt) : List Byte :=
  padTo 128 (padTo 64 p.bytes ++ toBytes 8 (movedPrefix p) ++ toBytes 8 p.desc ++ toBytes 8 p.slot)

/-- The contexts of a VD, in ascending number. -/
def vdCtxs (s : State) (vd : Nat) : List Ctx :=
  sortBy (fun (a b : Ctx) => decide (a.num ≤ b.num)) (s.ctxs.filter (fun c => c.vd == vd && decide (c.num < 1024) && c.st != 0))

/-- A context's entry: number, saved hanks, CTX_SAVE, the save slots in use. -/
def ctxRecord (s : State) (c : Ctx) : List Byte :=
  let hs := allHanks s c.vd c.num
  toBytes 2 c.num ++ toBytes 2 hs.length ++ zeros 4 ++ toBytes 8 c.save.toNat ++ toBytes 32 (hs.foldl (fun m h => Nat.lor m (2 ^ h.saveSlot)) 0)
/-- A lot's entry. -/
def lotRecordOf (l : Lot) : List Byte :=
  padTo 128 (padTo 64 l.packet ++ toBytes 4 l.next ++ toBytes 4 l.retired ++ toBytes 4 (match l.failHank with | some n => n | none => 0xFFFFFFFF) ++ toBytes 2 l.ctx)

/-- Flags that array work has raised so far, to which an entry gives no place, are set in the context's registers (04 R110). (DESIGN CHOICE, log 66.) -/
def raiseSaved (s : State) (vd : Nat) : State :=
  s.replays.foldl (fun u r => match skein? u r.skein with | some x => if x.vd == vd then raise u x.vd x.ctx r.flags else u | none => u) s

/-- The migration record and the replay entries are written, FORMAT last; a packet's engine lets go of it. -/
def migrateOut (s : State) (vd : Nat) : State :=
  let hs := s.hanks.filter (fun h => h.inShadow && (match lot? s h.lot with | some l => l.vd == vd | none => false))
  let s1 := raiseSaved (hs.foldl spillImage s) vd
  let s2 := (vdCtxs s1 vd).foldl writeCtxPage s1
  let ps := vdPkts s2 vd
  let save := (vdOf s2 vd).save
  let put := fun (u : State) (off : Nat) (bs : List Byte) => gpaWrite vd none u (save + BitVec.ofNat 64 off) bs
  let s3 := put s2 0 (ps.flatMap bteRecord)
  let s4 : State := { s3 with pkts := s3.pkts.map (fun p => if p.vd == vd then
    { p with st := (match p.st with | .waiting => PktState.replay | .moving => .replay | .paused _ => .replay | z => z) } else p) }
  let cs := vdCtxs s4 vd
  let qs := (mappedSlots s4).filter (fun e => descVd s4 e.2 == vd)
  let ls := s4.lots.filter (fun l => l.vd == vd)
  let s5 := put s4 0x10040 (cs.flatMap (ctxRecord s4))
  let s6 := put s5 0x1C040 (qs.flatMap (fun e => toBytes 8 e.2))
  let s7 := put s6 0x1C840 (ls.flatMap lotRecordOf)
  let s8 := put s7 0x10004 (toBytes 4 0 ++ toBytes 2 cs.length ++ toBytes 2 qs.length ++ toBytes 4 ls.length ++ toBytes 4 ps.length ++ zeros 44)
  put s8 0x10000 (toBytes 4 1)

/-- CPR_PREEMPT.BUSY goes when every named hank has halted; with MIG the withheld writes, then the record come first. -/
def settlePreempt (s : State) : State :=
  if !s.cp.preempt.getLsbD 23 || !s.cp.preemptHanks.isEmpty then s
  else
    let vd := (bits s.cp.preempt 17 4).toNat
    let closed := fun (u : State) => { u with cp := { u.cp with preempt := u.cp.preempt &&& ~~~0x800000 } }
    if s.cp.preempt.getLsbD 22 && s.cp.preempt.getLsbD 21 then
      if !(vdOf s vd).withheld.isEmpty || s.writes.any (fun w => w.vd == vd) then s
      else closed (migrateOut s vd)
    else closed s

/-! ### Reading an image (15 R343; 03 R77, R78) -/

/-- What the device reads of a migration record and its save areas; none when some byte of it cannot be read. -/
def recRead (s : State) (vd off n : Nat) : Option (List Byte) := gpaRead vd s ((vdOf s vd).save + BitVec.ofNat 64 (0x10000 + off)) n

/-- A 32-bit word, a 64-bit word of bytes. -/
def w32At (bs : List Byte) (o : Nat) : BitVec 32 := BitVec.ofNat 32 (fieldOf bs o 4)
def w64At (bs : List Byte) (o : Nat) : BitVec 64 := BitVec.ofNat 64 (fieldOf bs o 8)

/-- Words of w bits listed from key k. -/
def storeFrom (w n : Nat) (bs : List Byte) (k : Nat) : SMap w :=
  msetAll [] k ((upTo 0 (bs.length / n)).map (fun i => BitVec.ofNat w (fieldOf bs (n * i) n)))

/-- The latch as its records tell: a column is supplied by the latest record that covers it; the length of a record follows from its columns, or from
the stream in the share. -/
def latchOf (head : List Byte) (x : Skein) : Option Latch :=
  let m := fieldOf head 258 1
  let n := fieldOf head 260 1
  let kb := fieldOf head 259 1
  if m = 0 then none
  else
    let rec_ := fun (i : Nat) =>
      let o := 512 + 16 * i
      let n0 := fieldOf head (o + 2) 1
      let nc := fieldOf head (o + 3) 1
      let off := fieldOf head o 2 + 65536 * (fieldOf head (o + 4) 1 / 2 % 8)
      let cmp := fieldOf head (o + 4) 1 % 2 == 1
      let later := (upTo (i + 1) (n - i - 1)).map (fun j => (fieldOf head (512 + 16 * j + 2) 1, fieldOf head (512 + 16 * j + 3) 1))
      ({ off := off, len := if cmp then (match plyExpand (shareFrom x off) with | some e => e.2 | none => 0) else nc * kb * (2 * m + 2), n0 := n0, nc := nc, cmp := cmp,
         cols := (upTo n0 nc).filter (fun c => !later.any (fun p => decide (p.1 ≤ c) && decide (c < p.1 + p.2))) } : LatchRec)
    some { m := m, kb := kb, recs := (upTo 0 n).map rec_ }

/-- The fibres of a strand record. -/
def recFibres (bs : List Byte) : List Nat :=
  let v := fieldOf bs 0 40
  ((upTo 0 32).map (fun i => v / 2 ^ (10 * i) % 1024)).filter (fun f => f != 0x3FF)

/-- The clause in force at a code address: the nearest 32-byte boundary at or below it where a header stands (05 R116, R117, R123); none at a clause start. -/
def clauseAt (s : State) (x : Skein) (pc : BitVec 64) : Option Clause :=
  let word := fun (a : BitVec 64) => (ownRead x.vd x.ctx (millOfSpindle x.spindle) s a 8).map (fun bs => BitVec.ofNat 64 (ofBytes bs))
  let starts := (upTo 0 4).map (fun k => (pc &&& ~~~31) - BitVec.ofNat 64 (32 * k))
  let found := starts.findSome? (fun a => (word a).bind (fun w => if bits w 0 2 = 0 then (headerOf a w).map (fun h => h.1) else none))
  match found with
  | some c => if c.start = pc then none else some c
  | none => none

/-- A fibre from its record and its skein's backing area. -/
def fibreOf (s : State) (x : Skein) (f : Nat) (preds : List Byte) (rec_ : List Byte) : Fibre :=
  let live := BitVec.ofNat 48 (fieldOf rec_ 16 6)
  let get := fun (q : Nat) => ownRead x.vd x.ctx (millOfSpindle x.spindle) s (x.base + BitVec.ofNat 64 (0x20000 + (f / 32 * (x.w / 4) + q) * 512)) 512
  let quad := fun (q : Nat) => if live.getLsbD q then (match get q with
    | some bs => (upTo 0 4).map (fun i => BitVec.ofNat 32 (fieldOf bs (i * 128 + f % 32 * 4) 4))
    | none => []) else []
  { id := f, preds := BitVec.ofNat 16 (fieldOf preds (2 * f) 2 % 32768), live := live, rel := BitVec.ofNat 192 (fieldOf rec_ 24 24), lastPage := none,
    regs := (upTo 0 (x.w / 4)).foldl (fun m q => msetAll m (4 * q) (quad q)) [] }

/-- State of a strand by its code (02 R43). -/
def stateOf : Nat → StrandState
  | 1 => .held | 4 => .barrier | 5 => .sleeping | 6 => .parked | 7 => .trap | _ => .ready

/-- The instruction at a code address. -/
def instrAt (s : State) (x : Skein) (pc : BitVec 64) : Option Instr :=
  (ownRead x.vd x.ctx (millOfSpindle x.spindle) s pc 16).bind (fun bs => match decode { priv := true, handler := true } bs with | .ok i => some i | .error _ => none)

/-- What a strand in the Barrier state waits for: its arrivals in the generation that is open. (DEDUCED, log 67.) -/
def barrierWait (s : State) (x : Skein) (pc : BitVec 64) (fs : List Nat) (g hg : BitVec 32) : Option Wait :=
  match instrAt s x pc with
  | some (.barSk _) => some (.barrier false false (fs.map (fun f => (f, g))) [] none [] fs)
  | some (.barHk _) => some (.barrier true false (fs.map (fun f => (f, hg))) [] none [] fs)
  | _ => none

/-- A strand from its record. A Parked strand waits for its token, which no byte of the image holds. (DEDUCED, log 67.) -/
def strandFrom (s : State) (x : Skein) (key : Nat) (bs : List Byte) (pcs : Nat → BitVec 64) (g hg : BitVec 32) : Strand :=
  let fs := recFibres bs
  let pc := pcs (fs.headD 0)
  let st := stateOf (fieldOf bs 42 1)
  let w := match st with
    | .barrier => barrierWait s x pc fs g hg
    | .parked => some (.token (Config.lostToken key))
    | _ => none
  { freshStrand key x.id fs pc with
    st := if st = .held ∨ (st = .barrier ∧ w.isNone) ∨ st = .sleeping then .ready else st, clause := clauseAt s x pc, wait := w, h := w64At bs 48 }

/-- The tokens of imported strands that are parked; of which stage they are is free. (DEDUCED, log 67.) -/
def lostTokens (s : State) (ts : List Strand) : List Token :=
  ts.filterMap (fun t => match t.wait with | some (.token v) => some { value := v, host := choose s (990 + t.id) 2 == 0, stops := .strand t.id } | _ => none)

/-- The parts of a replay entry that its bytes list. -/
def entryOps (bs : List Byte) : List (Nat × BitVec 64 × BitVec 64 × BitVec 64) :=
  (upTo 0 32).filterMap (fun i =>
    let o := 64 + 32 * i
    let f := fieldOf bs o 2
    if f = 0xFFFF then none else some (if f < 0x8000 then f else 65536 + f % 0x8000, w64At bs (o + 8), w64At bs (o + 16), w64At bs (o + 24)))
def entryWord (bs : List Byte) : List Byte := bs.take (lenBytes (BitVec.ofNat 2 (fieldOf bs 0 1)))

/-- The flags of an entry, and whether it has a given one. -/
def entryFlags (bs : List Byte) : List Nat := (upTo 0 12).filter (fun f => (BitVec.ofNat 16 (fieldOf bs 26 2)).getLsbD f)

/-- The strands that hold an entry's flags: the one it names; and of the others those that are busy on one of its flags, and on it through no entry of their own:
they followed it from a split (02 R37). -/
def entryStrands (n : Nat) (busy : Nat → Nat → Bool) (es : List (List Byte)) (bs : List Byte) : List Nat :=
  let own := fieldOf bs 24 2
  (upTo 0 n).filter (fun i => i == own || (entryFlags bs).any (fun f => busy i f && !es.any (fun e => fieldOf e 24 2 == i && (entryFlags e).contains f)))

/-- A replay entry from its record: it holds its flags until it completes. -/
def replayFrom (key : Nat) (x : Skein) (strands : List Nat) (stores : List BufStore) (bs : List Byte) : Replay :=
  { id := key, array := fieldOf bs 28 1 == 1, skein := x.id, strands := strands, word := entryWord bs, pc := w64At bs 16, ops := entryOps bs, r := fieldOf bs 33 1,
    b := fieldOf bs 32 1, flags := 0, stores := stores, token := none }

/-- A FEEDPOP that some fibres of a sleeping strand still wait in (02 R54). -/
def feedpopFrom (key : Nat) (x : Skein) (strands : List Nat) (o : OpFeedpop) (bs : List Byte) : Pending :=
  { id := key, strands := strands, skein := x.id, spindle := 0, vd := x.vd, ctx := x.ctx, acc := .feedpop o.d o.hold 0,
    lanes := (entryOps bs).map (fun e => Lane.mk0 e.1 0 0), miss := false, sent := false, dlogHeld := false, gwct := 0, pc := w64At bs 16, flags := 0, tflags := 0,
    word := entryWord bs, ops := entryOps bs }

/-- What an entry makes of a strand at its PC: a LAUNCH awaits its slot, a FEEDPOP sleeps until the resume issues it again (02 R43; 15 R341). -/
def entryWait (s : State) (x : Skein) (t : Strand) (bs : List Byte) (key : Nat) : Strand :=
  let ops := entryOps bs
  let desc := match ops with
    | o :: _ => (match xlatePieces (fun a => ownReq x.vd x.ctx 0 a false) 0 s [(o.2.2.1, 64)] with | .ok _ ps _ => (ps.headD (0, 0)).1 | _ => 0)
    | [] => 0
  if fieldOf bs 28 1 = 2 then
    { t with wait := some (.launch desc (fieldOf bs 34 8) (if fieldOf bs 32 1 = 1 then some (BitVec.ofNat 32 (fieldOf bs 33 1)) else none) (entryWord bs) ops), again := true }
  else { t with st := .sleeping, wait := some (.feed 0 key (ops.map (fun o => o.1)) true), again := true }

/-- Bytes of a save block of a slot and a rank. -/
def blockRead (s : State) (c : Ctx) (slot rank off n : Nat) : List Byte := (gpaRead c.vd s (saveAddr c slot rank + BitVec.ofNat 64 off) n).getD (zeros n)

/-- Whether the device can reach all of a skein's backing area; a failure freezes the context (03 R76). -/
def probeArea (s : State) (vd ctx : Nat) (base : BitVec 64) (n : Nat) : State :=
  match xlatePieces (fun a => ownReq vd ctx 0 a false) 0 s (piecesOf base n) with
  | .bad s1 f => backingFault s1 vd (some ctx) f
  | .ok s1 _ _ | .held s1 => s1

/-- Every register line of a skein: after an import the backing area holds them all. -/
def allLines (x : Skein) : List LineKey := unwrittenLines { x with written := [] }

/-- The skein itself from its save block and its backing area. -/
def skeinFrom (s : State) (c : Ctx) (l : Lot) (key hank slot rank : Nat) (head : List Byte) : Skein :=
  let rec_ := l.recs[rank]?
  let part := w32At head 0
  let scr := 65536 * (bits part 6 6).toNat
  let pool := blockRead s c slot rank 0x100000 (65536 * ((bits part 6 6).toNat + (bits part 12 6).toNat))
  let acc := pool.drop scr
  let fmax := fieldOf head 4 2
  let base := w64At head 32
  let wg := fieldOf head 257 1
  let x0 : Skein :=
    { id := key, hank := hank, rank := rank, spindle := 0, vd := c.vd, ctx := c.num, token := w32At head 12, part := part, w := fieldOf head 6 1, fmax := fmax,
      finit := (rec_.map (fun r => r.finit)).getD 1, entry := (rec_.map (fun r => r.entry)).getD 0, base := base, fibres := [], g := [], tiles := [],
      accs := storeFrom 32 4 (acc.take 8192) 0, scr := storeFrom 8 1 (pool.take scr) 0, out := storeFrom 32 4 (acc.drop 8192) 0,
      cls := BitVec.ofNat 2 (fieldOf head 256 1), wg := wg, share := storeFrom 8 1 (blockRead s c slot rank 0x40000 (32768 * wg)) 0, latch := none,
      bar := { Barrier.reset with g := w32At head 16 }, lines := pinnedLines fmax, written := [], opc := [], retired := false, gw := 0, l1From := s.gtb }
  let back := fun (off n : Nat) => (ownRead c.vd c.num 0 s (base + BitVec.ofNat 64 off) n).getD (zeros n)
  let preds := back 0x200 2048
  let recs := back 0x10000 (64 * fmax)
  let fibreRec := fun (f : Nat) => (recs.drop (64 * f)).take 64
  let alive := (upTo 0 fmax).filter (fun f => fieldOf (fibreRec f) 8 1 % 2 = 1)
  let x1 := { x0 with g := storeFrom 64 8 (back 0 512) 0, tiles := storeFrom 16 2 (back 0x1000 8192) 0, latch := latchOf head x0,
                      fibres := alive.map (fun f => fibreOf s x0 f preds (fibreRec f)) }
  { x1 with written := allLines x1 }

/-- The strands of a saved skein from their records, a strand of fibres that stand in the Trap state elsewhere being the handler of that trap, whose CAUSE and
EPC no byte of the image holds. (DEDUCED, log 67.) -/
def strandsFrom (s : State) (x : Skein) (key n : Nat) (tb : List Byte) (g hg : BitVec 32) : List Strand :=
  let recs := (ownRead x.vd x.ctx 0 s (x.base + 0x10000) (64 * x.fmax)).getD (zeros (64 * x.fmax))
  let ts := (upTo 0 n).map (fun i => strandFrom s x (key + i) ((tb.drop (64 * i)).take 64) (fun f => BitVec.ofNat 64 (fieldOf recs (64 * f) 8)) g hg)
  ts.map (fun t =>
    if t.st = .trap then t
    else match ts.find? (fun u => u.st == .trap && !t.fibres.isEmpty && t.fibres.all u.fibres.contains) with
      | some u => { t with trap := some { cause := Config.lostCause t.id, epc := Config.lostEpc t.id, epcWritten := false, trapped := u.id } }
      | none => t)

/-- A held record with its descriptor's place found anew. -/
def HeldRec.found (s : State) (x : Skein) (h : HeldRec) : HeldRec :=
  match xlatePieces (fun a => ownReq x.vd x.ctx 0 a false) 0 s [(h.va, 64)] with | .ok _ ps _ => { h with desc := (ps.headD (0, 0)).1 } | _ => h

/-- A skein from its save block and its backing area, with its strands, replay entries and region buffers, added to the state under fresh keys. -/
def importSkein (s0 : State) (c : Ctx) (l : Lot) (hank slot rank : Nat) : State :=
  let head := blockRead s0 c slot rank 0 0xA00
  let s := probeArea s0 c.vd c.num (w64At head 32) (0x20000 + (fieldOf head 4 2 + 31) / 32 * fieldOf head 6 1 * 128)
  let x := skeinFrom s c l s.key hank slot rank head
  let nts := fieldOf head 28 2
  let hg := w32At head 20
  let tb := blockRead s c slot rank 0x1000 (64 * nts)
  let ts := strandsFrom s x (s.key + 1) nts tb x.bar.g hg
  let busy := fun (i f : Nat) => (BitVec.ofNat 16 (fieldOf tb (64 * i + 40) 2)).getLsbD f
  let nr := fieldOf head 30 2
  let rb := blockRead s c slot rank 0x11000 (2048 * nr)
  let es := (upTo 0 nr).map (fun i => (rb.drop (2048 * i)).take 2048)
  let key := s.key + 1 + nts
  match readBuffers key (blockRead s c slot rank (0x100000 + 65536 * ((bits x.part 6 6).toNat + (bits x.part 12 6).toNat)) (65536 * idbGran x)) with
  | (nk, ranks, items) =>
    let item := fun (owner : Nat) => items.find? (fun e => e.1.owner == owner)
    let keyOf := fun (i : Nat) => key + ranks.getD i i
    let asleep := fun (e : List Byte) => fieldOf e 28 1 != 1 && fieldOf tb (64 * fieldOf e 24 2 + 42) 1 == 5 &&
      (ts[fieldOf e 24 2]?).any (fun t => t.pc == w64At e 16) && decide (fieldOf e 24 2 < nts)
    let strandsAt := fun (e : List Byte) => (entryStrands nts busy es e).filterMap (fun i => (ts[i]?).map (fun t => t.id))
    let flagsFor := fun (t : Strand) =>
      ((upTo 0 nr).flatMap (fun i => match es[i]? with
        | some e => if fieldOf e 28 1 != 2 && (strandsAt e).contains t.id then (entryFlags e).map (fun f => (f, keyOf i)) else []
        | none => [])) ++
      items.flatMap (fun e => e.2.flatMap (fun g => ((upTo 0 12).filter (fun f => (BitVec.ofNat 16 g.2).getLsbD f && (busy (t.id - s.key - 1) f))).map (fun f => (f, g.1))))
    let ts1 := ((upTo 0 nts).zip ts).map (fun e =>
      let t := { e.2 with holds := flagsFor e.2,
                          region := (item e.1).bind (fun i => i.1.region), held := match item e.1 with | some i => i.1.held.map (HeldRec.found s x) | none => [] }
      match ((upTo 0 nr).zip es).find? (fun q => fieldOf q.2 24 2 == e.1 && (fieldOf q.2 28 1 == 2 || asleep q.2)) with
      | some q => entryWait s x t q.2 (keyOf q.1)
      | none => t)
    let mine := ((upTo 0 nr).zip es).filter (fun q => fieldOf q.2 28 1 != 2)
    let reps := (mine.filter (fun q => !asleep q.2)).map (fun q =>
      replayFrom (keyOf q.1) x (strandsAt q.2) (match item (0x8000 + q.1) with | some i => (match i.1.region with | some g => g.stores | none => []) | none => []) q.2)
    let pops := (mine.filter (fun q => asleep q.2)).filterMap (fun q =>
      match decode { priv := true, handler := true } (entryWord q.2) with
      | .ok (.feedpop o) => some (feedpopFrom (keyOf q.1) x (strandsAt q.2) o q.2)
      | _ => none)
    let barred := fun (hk : Bool) => ts1.flatMap (fun t => match t.wait with | some (.barrier k _ _ _ _ _ act) => if k == hk then act.map (fun f => (x.id, f)) else [] | _ => [])
    let alive := x.fibres.map (fun f => (x.id, f.id))
    let open_ := fun (b : Barrier) (arr : List (Nat × Nat)) => if arr.isEmpty then b else { b with opened := true, expected := alive, arrived := arr }
    { s with
      key := key + Nat.max nk nr, skeins := s.skeins ++ [{ x with bar := open_ x.bar (barred false) }], strands := s.strands ++ ts1, replays := s.replays ++ reps,
      pend := s.pend ++ pops, tokens := s.tokens ++ lostTokens s ts1,
      hanks := updIf (fun h => h.id == hank) (fun h => { h with
        skeins := h.skeins ++ [x.id], index := fieldOf head 8 4,
        bar := { h.bar with g := hg, opened := h.bar.opened || !(barred true).isEmpty, expected := h.bar.expected ++ alive, arrived := h.bar.arrived ++ barred true } }) s.hanks }

/-! ### The import (19 R420) -/

/-- A lot from its entry: its LAUNCH packet is read again for its descriptor and arguments. -/
def importLot (s : State) (vd : Nat) (qs : List Nat) (bs : List Byte) : State :=
  let pk := bs.take 64
  let ctx := fieldOf bs 76 2
  let d := (qs.find? (fun d => qKind s d == 1 && descCtx s d == ctx)).getD (qs.headD 0)
  let get := fun (va : BitVec 64) (n : Nat) => ((ownRead vd ctx 0 s va n).getD (zeros n))
  let pd := get (w64At pk 8) 256
  let li := launchIn pk pd
  let av := get li.args (8 * li.argn)
  let l := newLot s d 0 pk li ((upTo 0 li.argn).map (fun i => w64At av (8 * i)))
  let fail := fieldOf bs 72 4
  { s with
    key := s.key + 1,
    lots := s.lots ++ [{ l with vd := vd, ctx := ctx, next := fieldOf bs 64 4, retired := fieldOf bs 68 4, failHank := if fail = 0xFFFFFFFF then none else some fail,
                                code := if fail = 0xFFFFFFFF then 0 else 6 }] }

/-- The lot in whose backing pool a base lies, with the backing slot. -/
def lotOfBase (s : State) (vd ctx : Nat) (base : BitVec 64) : Option (Lot × Nat) :=
  (lotsOf s vd ctx).findSome? (fun l =>
    let d := (base - l.backBase).toNat
    let n := l.recs.length * areaStride l
    if n ≠ 0 ∧ d < l.nback * n then some (l, d / n) else none)

/-- A saved hank from its save slot; it is queued at the head of its context. -/
def importHank (s : State) (c : Ctx) (slot : Nat) : State :=
  let base := w64At (blockRead s c slot 0 0 64) 32
  match lotOfBase s c.vd c.num base with
  | none => s
  | some (l, bslot) =>
    let h : Hank := { id := s.key, lot := l.id, index := 0, frame := 0, skeins := [], bar := Barrier.reset, slot := bslot, st := .saved, why := .preempt, saveSlot := slot,
                      inShadow := false, first := s.key, tq := s.gtb, since := s.gtb, mig := false, failed := false }
    let s1 := setLot { s with key := s.key + 1, hanks := s.hanks ++ [h] } { l with live := l.live + 1, used := l.used ++ [bslot] }
    (upTo 0 l.recs.length).foldl (fun u r => importSkein u c l h.id slot r) s1

/-- A context from its entry, its registers from the first 4 KiB of its save area. (DESIGN CHOICE, log 143.) -/
def importCtx (s : State) (vd : Nat) (bs : List Byte) : State :=
  let n := fieldOf bs 0 2
  let save := w64At bs 8
  let page := (gpaRead vd s (save &&& ~~~65535) 4096).getD (zeros 4096)
  let reg := fun (sel : Nat) => w64At page (8 * (sel % 256) + 1024 * (sel / 256))
  let c0 := { Ctx.create vd n with save := saveWord save }
  let c1 := [0x001, 0x00D, 0x011, 0x100, 0x101, 0x102, 0x103, 0x200, 0x204].foldl (fun (c : Ctx) sel => c.setReg sel (reg sel)) c0
  let c2 := { c1 with
    sched := (c1.setSched (reg 0x201)).sched, vb := reg 0x202, vtop := reg 0x202, ab := 0, regFill := reg 0x00A, regSpill := reg 0x00B, stale := reg 0x00C, pin := reg 0x00D &&& 0xFFFFFFFF00000000,
    ra := { epi := reg 0x002, ins := reg 0x003, pfl := reg 0x004, wlk := reg 0x005, use := reg 0x006, stp := reg 0x007, cap := reg 0x008, fj := reg 0x009 } }
  { s with ctxs := s.ctxs ++ [c2] }

/-- The lowest free queue slot maps a queue. -/
def mapQueue (s : State) (d : Nat) : State :=
  match (upTo 0 256).find? (fun n => !(mget s.cp.qslot n).getLsbD 0) with
  | none => s
  | some n => setDescFlag { s with cp := { s.cp with qslot := mset s.cp.qslot n (BitVec.ofNat 64 (d / 64 * 64 + 1)) } } d 1 true

/-- A BTE packet goes on from its moved offset. -/
def importPkt (s : State) (vd : Nat) (bs : List Byte) : State :=
  let d := fieldOf bs 72 8
  let fe := queueOf s d
  let pk := bs.take 64
  let moved := fieldOf bs 64 8
  let p0 : BtePkt :=
    { id := s.key, desc := d, slot := fieldOf bs 80 8, seq := fe.seq, vd := vd, ctx := descCtx s d, mill := qMill s d, bte := 0, host := false, bytes := pk,
      accepted := decide (0 < moved), promise := 0, st := if moved = 0 then .waiting else .moving, done := [], landed := [], chunks := 0, moved := moved, data := [],
      skein := none, fin := none }
  let p1 := if p0.typ = 5 && moved != 0 then (match prepDecomp s p0 with | .go _ q => q | _ => p0) else p0
  let n := divUp p1.tile 512
  let p := { p1 with chunks := n, done := (upTo 0 n).filter (fun c => decide (512 * (c + 1) ≤ moved) || decide (p1.tile ≤ moved)) }
  putQueue { s with key := s.key + 1, pkts := s.pkts ++ [p] } { fe with seq := fe.seq + 1, open_ := fe.open_ ++ [p.seq] }

/-- What is wrong with a record: 0 nothing, 1 malformed, 2 a context already live. -/
def recordCheck (s : State) (vd : Nat) (hdr : List Byte) (cs ls : List (List Byte)) : Nat :=
  let nums := cs.map (fun e => fieldOf e 0 2)
  let nz := fun (bs : List Byte) (o n : Nat) => fieldOf bs o n != 0
  if fieldOf hdr 8 2 < 1 || decide (1024 < fieldOf hdr 8 2) || decide (256 < fieldOf hdr 10 2) || nz hdr 20 44 || cs.any (fun e => nz e 4 4 || decide (1024 ≤ fieldOf e 0 2)) ||
      (dedup nums).length != nums.length || ls.any (fun e => nz e 78 50 || !nums.contains (fieldOf e 76 2)) then 1
  else if nums.any (fun n => (ctx? s vd n).isSome) then 2
  else 0

/-- n entries of a size at an offset of the record. -/
def recEntries (s : State) (vd off size n : Nat) : Option (List (List Byte)) :=
  (recRead s vd off (size * n)).map (fun bs => (upTo 0 n).map (fun i => (bs.drop (size * i)).take size))

/-- VD_RUN.GO on a VD without a live context whose record has FORMAT 1: the state after the import and whether the VD runs. -/
def importVd (s : State) (vd : Nat) : State × Bool :=
  let put := fun (u : State) (off : Nat) (bs : List Byte) => gpaWrite vd none u ((vdOf u vd).save + BitVec.ofNat 64 (0x10000 + off)) bs
  let ends := fun (u : State) (status : Nat) => put (put u 4 (toBytes 4 status)) 0 (toBytes 4 0)
  match recRead s vd 0 64 with
  | none => (s, true)
  | some hdr =>
    if fieldOf hdr 0 4 ≠ 1 then (s, true)
    else
      match recEntries s vd 0x40 48 (fieldOf hdr 8 2), recEntries s vd 0xC040 8 (fieldOf hdr 10 2), recEntries s vd 0xC840 128 (fieldOf hdr 12 4),
          (gpaRead vd s (vdOf s vd).save (128 * fieldOf hdr 16 4)) with
      | some cs, some qs, some ls, some rb =>
        let bad := recordCheck s vd hdr cs ls
        if bad ≠ 0 then (put s 4 (toBytes 4 bad), false)
        else
          let descs := qs.map (fun e => fieldOf e 0 8)
          let s1 := cs.foldl (fun u e => importCtx u vd e) s
          let s2 := descs.foldl mapQueue s1
          let s3 := ls.foldl (fun u e => importLot u vd descs e) s2
          let s4 := cs.foldl (fun u e =>
            let mask := BitVec.ofNat 256 (fieldOf e 16 32)
            ((upTo 0 256).filter (fun i => mask.getLsbD i)).foldl (fun v slot => match ctx? v vd (fieldOf e 0 2) with | some c => importHank v c slot | none => v) u) s3
          let s5 := (upTo 0 (fieldOf hdr 16 4)).foldl (fun u i => importPkt u vd ((rb.drop (128 * i)).take 128)) s4
          (ends s5 0, true)
      | _, _, _, _ => (put s 4 (toBytes 4 1), false)

/-! ### VD_RUN (15 R339, R346; 16 R358; 19 R420) -/

/-- The device's own writes that a full log held are made again. -/
def retryOwn (s : State) (vd : Nat) : State :=
  let ws := (vdOf s vd).ownHeld
  ws.foldl (fun u w => if w.gpa then gpaWrite vd w.ctx u w.va w.bytes else ownWrite vd (w.ctx.getD 0) w.mill u w.va w.bytes) (updVd s vd (fun v => { v with ownHeld := [] }))

/-- A VD runs again: REASON is cleared, so that the CP makes its withheld writes; packets go on, writes that the log held are translated again. -/
def runVd (s : State) (vd : Nat) : State :=
  let mine := fun (k : Nat) => match skein? s k with | some x => x.vd == vd && (match hank? s x.hank with | some h => h.st != .saved | none => false) | none => false
  let s1 := updVd s vd (fun v => { v with stopped := false, run := 1, exit := 0 })
  let s3 : State := { s1 with pkts := s1.pkts.map (fun p => if p.vd == vd && p.st == .replay then { p with st := if p.accepted then .moving else .waiting } else p) }
  retryHeld (retryOwn s3 vd) mine

/-- VD_RUN_GO: a write with GO runs a VD that exists, after an import where one is due; a write without it has no effect on a VD that runs. -/
def execVdRunGo (vd : Nat) (v : BitVec 64) (s : State) : Out :=
  answering s (
    if !v.getLsbD 0 then updVd s vd (fun u => { u with run := 0 })
    else if (vdOf s vd).ldFrozen || !(vdOf s vd).bound then s
    else if (vdCtxs s vd).isEmpty then
      (match importVd s vd with
       | (s1, true) => runVd s1 vd
       | (s1, false) => updVd s1 vd (fun u => { u with run := 0, stopped := true }))
    else runVd s vd)

end Sys2Proof.Machine
end

