-- ==== Sys2Proof/Machine/Metering.lean ====
section
/-! DEFINITION. The close of a metering tick (14 R300 to R312, R322; 10 R240; 15 R337; 18 R405), meter readings (14 R314 to R317), the rack's
power grants (14 R320, R321), and BKT_ADJ (14 R309, R312). -/
namespace Sys2Proof.Machine

/-! ### A domain's tick (14 R300, R301, R304 to R306) -/

/-- A tick boundary has passed and its tick is still open. -/
def tickDue (s : State) : Bool := s.cp.gtbRun && decide ((s.tick.toNat + 1) * Config.tickLen ≤ s.gtb.toNat)

/-- Logical spindles of a mill that are powered (16 R371). (DEDUCED, log 69.) -/
def poweredOf (m : Mill) : Nat := 72 - ((upTo 0 72).filter (fun n => m.offline.getLsbD n)).length
/-- Stacks on the side of an I/O die whose state is normal (17 R379). (DEDUCED, log 69.) -/
def normalStacks (s : State) (dom : Nat) : Nat := ((upTo 0 16).filter (fun n => hbmDom n == dom && bits s.hbm.stack (2 * n) 2 == 0)).length

/-- The standby estimate of a domain for the open tick: every row weighted by its time, floored once. -/
def standbyOf (s : State) (d : Nat) : Nat :=
  let w := fun (row k : Nat) => (mget (domOf s d).weights (40 * row + k)).toNat
  if d < 8 then
    let m := millOf s d
    let rows := m.rows ++ [(m.row, rowSpan s m)]
    (rows.map (fun (r : Nat × Nat) => (poweredOf m * w r.1 30 + w r.1 31) * r.2)).foldl (fun a n => a + n) 0 / Config.tickLen
  else if d < 10 then normalStacks s d * w 0 35
  else w 0 39

/-- What the close of a tick knows of a domain: whether the reading is lost, measured, standby and whole estimates, the ratio and whether it was clamped. -/
structure DomTick where
  dom : Nat
  lost : Bool
  em : Nat
  lest : Nat
  ee : Nat
  cq : Nat
  clamp : Bool
  deriving DecidableEq, Repr

/-- The accounts with charges in a domain in the open tick. -/
def accountsIn (s : State) (d : Nat) : List (Acct × Nat) :=
  (s.ctxs.filterMap (fun c => if getAt c.est d = 0 then none else some ((c.vd, some c.num), getAt c.est d))) ++
    s.vds.filterMap (fun v => if getAt v.est d = 0 then none else some ((v.num, none), getAt v.est d))

def domTick (s : State) (em : List (Option Nat)) (d : Nat) : DomTick :=
  let m := if d < em.length then em.getD d none else Config.sensor s.steps d
  let lest := standbyOf s d
  let ee := lest + ((accountsIn s d).map (fun e => e.2)).foldl (fun a n => a + n) 0
  let lost := m.isNone
  let raw := m.getD 0 * 2 ^ 20 / ee
  let cq := if lost ∨ ee = 0 then 2 ^ 20 else clampTo (2 ^ 19) (2 ^ 21) raw
  { dom := d, lost := lost, em := m.getD 0, lest := lest, ee := ee, cq := cq, clamp := !lost && ee != 0 && cq != raw }

/-- The correction of a number of estimated fJ, floored toward −∞. -/
def DomTick.corr (t : DomTick) (e : Nat) : Int := ((e : Int) * ((t.cq : Int) - 2 ^ 20)).fdiv (2 ^ 20)
/-- A charge with its correction; never negative. -/
def DomTick.fixed (t : DomTick) (e : Nat) : Nat := ((e : Int) + t.corr e).toNat

/-! ### Standby energy (14 R307) -/

/-- The weights by which the accounts share a domain's standby energy. -/
def standbyWeights (s : State) (t : DomTick) : List (Acct × Nat) :=
  if t.dom < 8 then
    let m := millOf s t.dom
    (s.ctxs.filter (fun c => getAt c.gran t.dom != 0 && (m.shared || m.vds.getLsbD c.vd))).map (fun c => ((c.vd, some c.num), getAt c.gran t.dom))
  else (accountsIn s t.dom).map (fun e => (e.1, t.fixed e.2))

/-- The shares; the standby energy of a dedicated mill without residents falls to its VD. -/
def standbyShares (s : State) (t : DomTick) : List (Acct × Nat) :=
  let l := t.fixed t.lest
  let ws := standbyWeights s t
  let sum := (ws.map (fun e => e.2)).foldl (fun a n => a + n) 0
  if sum = 0 then
    (if t.dom < 8 ∧ !(millOf s t.dom).shared then
      match (upTo 0 16).find? (fun n => (millOf s t.dom).vds.getLsbD n) with | some v => [((v, none), l)] | none => []
    else [])
  else ws.map (fun e => (e.1, l * e.2 / sum))

/-! ### Steps 1 to 3: corrections, shares, debits, and a domain's registers (14 R305, R306, R310) -/

/-- MTR_DOM_C. -/
def DomTick.word (t : DomTick) : BitVec 64 := BitVec.ofNat 64 ((if t.lost then 2 ^ 31 else 0) + (if t.clamp then 2 ^ 30 else 0) + t.cq)

/-- A VD's reading takes in a domain's tick: corrections and standby shares; the ratio where the VD was charged (14 R315). (DEDUCED, log 70.) -/
def Reading.add (r : Reading) (t : DomTick) (charged : Bool) (adj : Int) (leak : Nat) : Reading :=
  let r1 := { r with adj := r.adj + adj, leak := r.leak + leak }
  if !charged then r1
  else { r1 with cmin := if r.cmin = 0 ∨ t.cq < r.cmin.toNat then BitVec.ofNat 32 t.cq else r.cmin,
                 cmax := if r.cmax.toNat < t.cq then BitVec.ofNat 32 t.cq else r.cmax,
                 nclamp := r.nclamp + (if t.clamp then 1 else 0), lost := r.lost || t.lost }

/-- DESIGN CHOICE, log 68. -/
def domClose (s : State) (t : DomTick) : State :=
  let accts := accountsIn s t.dom
  let shares := standbyShares s t
  let total : Nat := (accts.map (fun e => t.fixed e.2)).foldl (fun a n => a + n) 0 + (shares.map (fun e => e.2)).foldl (fun a n => a + n) 0
  let u : Int := if t.lost then 0 else (t.em : Int) - (total : Int)
  let s1 := accts.foldl (fun v e => debitAcct v e.1 (t.corr e.2)) s
  let s2 := shares.foldl (fun v e => debitAcct v e.1 (e.2 : Int)) s1
  let ofVd := fun (n : Nat) (l : List (Acct × Nat)) => l.filter (fun e => e.1.1 == n)
  let noted := fun (v : Vd) => v.reading.add t (!(ofVd v.num accts).isEmpty || (ofVd v.num shares).any (fun e => e.2 != 0))
    (((ofVd v.num accts).map (fun e => t.corr e.2)).foldl (fun (a n : Int) => a + n) 0) (((ofVd v.num shares).map (fun e => e.2)).foldl (fun a n => a + n) 0)
  let s3 : State := { s2 with vds := s2.vds.map (fun v => { v with reading := noted v }) }
  let meas := if t.lost then BitVec.ofNat 64 (Config.choice s.steps (700 + t.dom)) else BitVec.ofNat 64 t.em
  setDom s3 { domOf s3 t.dom with meas := meas, est := BitVec.ofNat 64 t.ee, c := t.word, unatt := (domOf s3 t.dom).unatt + BitVec.ofInt 64 u }

/-! ### Step 4: the fold (14 R303) -/

def foldMeters (s : State) : State :=
  let gain := fun (c : Ctx) => (c.jacc - c.foldAt).toNat
  let vdGain := fun (v : Vd) => (v.jacc - v.foldAt).toNat + ((s.ctxs.filter (fun c => c.vd == v.num)).map gain).foldl (fun a n => a + n) 0
  { s with
    ctxs := s.ctxs.map (fun c => { c with mtr := c.mtr + BitVec.ofNat 128 (gain c), foldAt := c.jacc }),
    vds := s.vds.map (fun v => { v with mtr := v.mtr + BitVec.ofNat 128 (vdGain v), foldAt := v.jacc }) }

/-! ### Step 5: the refill (14 R311, R322) -/

/-- A mill's ceiling and its draw when it is over the ceiling: measured, or estimated when the reading is lost. -/
def overCeiling (s : State) (t : DomTick) : Option (Nat × Nat) :=
  let j := (millOf s t.dom).jceil.toNat
  let draw := if t.lost then t.ee else t.em
  if t.dom < 8 ∧ j ≠ 0 ∧ j < draw then some (j, draw) else none

/-- REFILL′: REFILL is divided by corrected charges c, each part times n / d; floored once. No charge in a mill keeps it. -/
def scaledRefill (refill : Nat) (parts : List (Nat × Nat × Nat)) : Nat :=
  let c := (parts.map (fun p => p.1)).foldl (fun a n => a + n) 0
  let d := (parts.map (fun p => p.2.2)).foldl (fun a n => a * n) 1
  if c = 0 then refill else refill * (parts.map (fun p => p.1 * p.2.1 * (d / p.2.2))).foldl (fun a n => a + n) 0 / (c * d)

/-- DEDUCED, log 71. -/
def Bucket.refilled (b : Bucket) (refill : Nat) : Bucket :=
  let up : Int := s64 b.lvl + refill
  { b with lvl := BitVec.ofInt 64 (if up < b.ceil.toNat then up else (b.ceil.toNat : Int)) }

/-- The parts of an account's REFILL, one per mill, from its charges by domain. -/
def refillParts (s : State) (ts : List DomTick) (charge : Nat → DomTick → Nat) : List (Nat × Nat × Nat) :=
  (ts.filter (fun t => decide (t.dom < 8))).map (fun t => (charge t.dom t, match overCeiling s t with | some (j, e) => (j, e) | none => (1, 1)))

def refillAll (s : State) (ts : List DomTick) : State :=
  let ofCtx := fun (c : Ctx) (d : Nat) (t : DomTick) => t.fixed (getAt c.est d)
  let ofVd := fun (v : Vd) (d : Nat) (t : DomTick) =>
    ((s.ctxs.filter (fun c => c.vd == v.num)).map (fun c => ofCtx c d t)).foldl (fun a n => a + n) 0 + t.fixed (getAt v.est d)
  { s with
    ctxs := s.ctxs.map (fun c => { c with bkt := c.bkt.refilled (scaledRefill c.bkt.refill.toNat (refillParts s ts (ofCtx c))) }),
    vds := s.vds.map (fun v => { v with bkt := v.bkt.refilled (scaledRefill v.bkt.refill.toNat (refillParts s ts (ofVd v))) }) }

/-! ### Step 6: who is stopped (14 R312) -/

/-- Levels have risen or fallen: those at zero or below stop what they govern; a VD above zero again is empty no more, so that the CP makes its withheld
writes and then maps its queues when it is not stopped; contexts whose two levels are above zero are stopped no more. -/
def levelsMoved (s : State) : State :=
  let s1 := bucketSettle s
  let s2 := (s1.vds.filter (fun v => v.empty && !v.bkt.isEmpty)).foldl (fun u v =>
    updVd u v.num (fun x => { x with empty := false })) s1
  { s2 with ctxs := s2.ctxs.map (fun c => if levelsUp s2 c then { c with stopped := false } else { c with stopped := true }) }

/-! ### What else a boundary does -/

/-- BTE byte buckets take RATE, repaying debt first (10 R240). -/
def bteRefill (v : Vd) : Vd :=
  { v with bte := v.bte.map (fun b =>
      let l := b.lvl + (b.rate : Int)
      let up := if l < (b.rate : Int) then l else (b.rate : Int)
      { b with lvl := up, moved := 0, borrowed := 0, debt := decide (up < 0) }) }

/-- MILL_STALL, MILL_XFOCC and the stall counters (18 R405; 19 R415). (DEDUCED, log 122.) -/
def stallSample (s : State) (m : Mill) : Mill :=
  { m with stall := BitVec.ofNat 64 (m.mstall % 2 ^ 32 * 2 ^ 32 + m.busy % 2 ^ 32), busy := 0, mstall := 0,
           xfocc := BitVec.ofNat 64 (Config.fifo s.steps (2 * m.num) % 2 ^ 32 * 2 ^ 16 + Config.fifo s.steps (2 * m.num + 1) % 9 * 2 ^ 8 + 8) }

/-- A mill over its ceiling in two consecutive ticks loses a point; the CP is told (14 R322). (DEDUCED, log 77.) -/
def opcapLower (s : State) (t : DomTick) : State :=
  match overCeiling s t with
  | none => updMill s t.dom (fun m => { m with overTicks := 0 })
  | some _ =>
    if (millOf s t.dom).overTicks = 0 then updMill s t.dom (fun m => { m with overTicks := 1 })
    else
      let s1 := updMill s t.dom (fun m => { m with overTicks := 0, opcap := BitVec.ofNat 64 (m.opcap.toNat - 1) })
      limitsMoved { s1 with sent := s1.sent ++ [.cpNotice t.dom] } (millOf s1 t.dom).pid

/-- Grants whose START has come take effect, the last accepted of them standing (14 R320). (DEDUCED, log 74.) -/
def grantStart (s : State) (boundary : Nat) : State :=
  match (s.fab.grants.filter (fun g => decide (g.start.toNat ≤ boundary))).getLast? with
  | some g => { s with fab := { s.fab with pgrant := g.amount, pgexp := g.expire, grants := s.fab.grants.filter (fun h => decide (boundary < h.start.toNat)) } }
  | none => s

/-! ### The end of a VD (17 R390) -/

/-- WAYS of a VD's share of L2 (17 R384). -/
def shareWays (v : Vd) : Nat := (bits v.l2share 0 5).toNat
/-- Ways go to the VDs that are owed some, in the order in which the shares were granted, from way 0 upwards. -/
def assignWays (s : State) : State :=
  let s1 := s.mem.owed.foldl (fun u n =>
    let v := vdOf u n
    let free := (upTo 0 24).filter (fun w => !u.vds.any (fun x => x.ways.contains w))
    updVd u n (fun x => { x with ways := sortNat (x.ways ++ free.take (shareWays v - x.ways.length)) })) s
  { s1 with mem := { s1.mem with owed := s.mem.owed.filter (fun n => decide ((vdOf s1 n).ways.length < shareWays (vdOf s1 n))) } }

/-- The VD's lines in L2 are written back and dropped; its registers take their reset values, and its ways pass on. (DEDUCED, log 84.) -/
def endVd (s : State) (vd : Nat) : State :=
  let s1 := (s.mem.l2.filter (fun x => x.vd == vd)).foldl (fun u x => l2Drop (if x.dirty then writeBack u x.owner x else u) x.line) s
  let s2 := updVd s1 vd (fun _ => Vd.reset vd)
  assignWays { s2 with mem := { s2.mem with owed := s2.mem.owed.filter (fun n => n != vd) } }

/-- Export of readings is on (14 R314). -/
def exportOn (v : Vd) : Bool := bits v.mtrcfg 12 52 != 0

/-- VDs that are ending and have nothing left: a final reading is owed when readings are exported; else the VD ends (17 R390). -/
def settleVds (s : State) : State :=
  (s.vds.filter (fun v => v.ending && !v.reading.final && s.ctxs.all (fun c => c.vd != v.num))).foldl
    (fun u v => if exportOn v then updVd u v.num (fun x => { x with reading := { x.reading with final := true } }) else endVd u v.num) s

/-! ### TICK_CLOSE (14 R308) -/

/-- Steps 1 to 6, then what else the boundary does. (DESIGN CHOICE, log 60.) -/
def tickClose (s : State) (em : List (Option Nat)) : State :=
  let boundary := (s.tick.toNat + 1) * Config.tickLen
  let s0 := s.hanks.foldl (fun u h => noteGran u h (BitVec.ofNat 64 boundary)) s
  let ts := (upTo 0 12).map (domTick s0 em)
  let s1 := foldMeters (ts.foldl domClose s0)
  let s2 := if s1.cp.cpstat.getLsbD 1 then s1 else refillAll s1 ts
  let s3 := levelsMoved { s2 with
    tick := s2.tick + 1,
    ctxs := (s2.ctxs.filter (fun c => decide (c.num < 1024))).map (fun c => { c with est := [], gran := [] }),
    vds := s2.vds.map (fun v => bteRefill { v with est := [] }),
    mills := s2.mills.map (fun m => stallSample s2 { m with rows := [] }),
    doms := s2.doms.map (fun d => { d with weights := d.nextW }) }
  let s4 := grantStart ((ts.filter (fun t => decide (t.dom < 8))).foldl opcapLower s3) boundary
  afrAll (settleVds (sliceAll (schedRun s4)))

def execTickClose (em : List (Option Nat)) (s : State) : Out := .next (if tickDue s then tickClose s em else s)

/-! ### READING_FORM (14 R315 to R317) -/

/-- A reading may be formed: MS has passed or it is the final one; the ring has room; the CP is not hung; a tick is there to be covered. (DEDUCED, log 72.) -/
def readingDue (s : State) (v : Vd) : Bool :=
  let n := 2 ^ (bits v.mtrcfg 8 4).toNat
  s.cp.gtbRun && !s.cp.cpstat.getLsbD 1 && exportOn v && decide ((v.reading.seq - v.mtrack).toNat < n) && decide (v.reading.first.toNat < s.tick.toNat) &&
    (v.reading.final || decide (v.reading.formedAt.toNat + (bits v.mtrivl 0 14).toNat * 1000000 ≤ s.gtb.toNat))

/-- The first 256 bytes of the next reading. -/
def readingHead (s : State) (v : Vd) : List Byte :=
  let r := v.reading
  toBytes 4 1 ++ toBytes 4 50112 ++ toBytes 2 v.num ++ zeros 6 ++ toBytes 8 (r.seq + 1).toNat ++ toBytes 8 r.first.toNat ++ toBytes 8 (s.tick - 1).toNat ++
    toBytes 8 s.gtb.toNat ++ toBytes 16 v.mtr.toNat ++ toBytes 16 r.prev.toNat ++ toBytes 16 (BitVec.ofInt 128 r.adj).toNat ++ toBytes 16 r.leak ++
    toBytes 4 r.cmin.toNat ++ toBytes 4 r.cmax.toNat ++ toBytes 4 r.nclamp ++ toBytes 4 (if r.lost then 1 else 0) ++
    toBytes 32 s.cp.devid.toNat ++ toBytes 32 s.cp.fwid.toNat ++ zeros 64

/-- A reading is formed, signed and written into its slot; after a final one the VD is at its end. -/
def formReading (s : State) (v : Vd) : State :=
  let r := v.reading
  let head := readingHead s v
  let sig := (Config.slhSign s.cp.fuses.secret head ++ zeros 49856).take 49856
  let slot := r.seq.toNat % 2 ^ (bits v.mtrcfg 8 4).toNat
  let s1 := writeSpa s (hostSpa ((bits v.mtrcfg 12 52).toNat * 4096 + 53248 * slot)) (head ++ sig)
  let s2 := updVd s1 v.num (fun x => { x with reading := { Reading.reset with
    seq := r.seq + 1, prev := v.mtr, first := s.tick, last := s.tick - 1, formedAt := s.gtb } })
  if r.final then endVd s2 v.num else s2

/-- DEDUCED, log 73. -/
def execReadingForm (vd : Nat) (s : State) : Out :=
  .next (match s.vds.find? (fun v => v.num == vd) with | some v => if readingDue s v then formReading s v else s | none => s)

/-! ### BKT_ADJ (14 R309, R312) -/

/-- A bucket takes DELTA. -/
def Bucket.adjust (b : Bucket) (d : BitVec 64) : Bucket := { b with adj := d, lvl := b.lvl + d }
def execBktAdj (vd : Nat) (ctx : Option Nat) (d : BitVec 64) (s : State) : Out :=
  answering s (settleRunnable (levelsMoved (match ctx with
    | some c => updCtx s vd c (fun x => { x with bkt := x.bkt.adjust d })
    | none => updVd s vd (fun x => { x with bkt := x.bkt.adjust d }))))

/-! ### Power grants (14 R320, R321) -/

/-- A grant of the registered source: discarded without a report when a reserved byte is not zero or SEQ is not newer; else it waits for its START and is
answered with a report. (DEDUCED, log 74.) -/
def execPowerGrant (source : BitVec 10) (flit : List Byte) (s : State) : Out :=
  let f := padTo 128 flit
  let seq := BitVec.ofNat 32 (fieldOf f 4 4)
  let diff := (seq - s.fab.lastSeq).toNat
  .next (
    if s.fab.source ≠ some source ∨ fieldOf f 0 1 ≠ 0x31 ∨ fieldOf f 1 1 ≠ 1 ∨ fieldOf f 2 2 ≠ 0 ∨ fieldOf f 32 96 ≠ 0 ∨ diff = 0 ∨ 2 ^ 31 < diff then s
    else
      let g : Grant := { amount := BitVec.ofNat 64 (fieldOf f 8 8), start := BitVec.ofNat 64 (fieldOf f 16 8), expire := BitVec.ofNat 64 (fieldOf f 24 8) }
      let meas := (s.doms.map (fun d => d.meas.toNat)).foldl (fun a n => a + n) 0
      let report := toBytes 1 0x32 ++ toBytes 1 1 ++ zeros 2 ++ toBytes 4 seq.toNat ++ toBytes 8 meas ++ toBytes 8 (s.tick.toNat * Config.tickLen) ++
        toBytes 8 g.expire.toNat ++ zeros 96
      { s with fab := { s.fab with lastSeq := seq, grants := s.fab.grants ++ [g] }, sent := s.sent ++ [.flit report] })

/-- A boundary at or after EXPIRE has passed and no newer grant has been accepted. -/
def lapseDue (s : State) : Bool :=
  s.cp.gtbRun && s.fab.grants.isEmpty && decide (s.fab.pgexp.toNat ≤ s.tick.toNat * Config.tickLen) && s.fab.pgrant != s.fab.psafe
/-- GRANT_LAPSE: GRANT becomes SAFE; the black box takes an entry (16 R370). (DEDUCED, log 74.) -/
def execGrantLapse (s : State) : Out :=
  .next (if lapseDue s then bboxFree { s with fab := { s.fab with pgrant := s.fab.psafe } } 7 else s)

/-! ### Operating points (14 R318, R319, R425; 18 R402) -/

/-- VD_OPREQ (14 R319): a request for the partition that SEL and MILL name. (DEDUCED, log 76.) -/
def execVdOpreq (vd : Nat) (value : BitVec 64) (s : State) : Out :=
  let own := (s.mills.find? (fun m => dedicatedTo s m.pid vd)).map Mill.pid
  let pid := if value.getLsbD 7 then (millOf s (bits value 4 3).toNat).pid else own.getD 8
  let r : OpReq := { id := s.key, pid := pid, vd := vd, point := (bits value 0 4).toNat, strand := none, fromReg := true }
  answering s (serveAll (updVd { s with key := s.key + 1, opreqs := s.opreqs ++ [r] } vd
    (fun v => { v with opreq := (v.opreq &&& 0x700) ||| 0x8000 ||| (value &&& 0xFF) })) pid)

/-- The end of a voltage step, and of a frequency step, of a partition. -/
def execVoltageStepEnd (pid : Nat) (s : State) : Out :=
  .next (match s.changes.find? (fun c => c.pid == pid && c.volt) with | some c => stepDone s c | none => s)
def execFrequencyStepEnd (pid : Nat) (s : State) : Out :=
  .next (match s.changes.find? (fun c => c.pid == pid && !c.volt) with | some c => stepDone s c | none => s)

/-- MILL_OPCAP and MILL_OPFLOOR; VD_OPALLOW, where 12 to 15 are stored as 11 (14 R318, R319). -/
def execMillOpcap (mill : Nat) (value : BitVec 64) (s : State) : Out :=
  let s1 := updMill s mill (fun m => { m with opcap := value &&& 0xF })
  answering s (limitsMoved s1 (millOf s1 mill).pid)
def execMillOpfloor (mill : Nat) (value : BitVec 64) (s : State) : Out :=
  let s1 := updMill s mill (fun m => { m with opfloor := value &&& 0xF })
  answering s (limitsMoved s1 (millOf s1 mill).pid)
def execVdOpallow (vd : Nat) (value : BitVec 64) (s : State) : Out :=
  answering s (allLimitsMoved (updVd s vd (fun v => { v with opallow := BitVec.ofNat 64 (Nat.min 11 (bits value 0 4).toNat) })))

/-- Whether a VDS mask has exactly one bit. -/
def oneBit (v : BitVec 16) : Bool := (upTo 0 16).any (fun n => v == BitVec.ofNat 16 (2 ^ n))
/-- MILL_PART (14 R425): refused for a mill that holds a hank or whose partition is changing point, and for a dedicated partition of other than
one VD; mills that come together are brought to one point, and the partitions to their limits. (DEDUCED, log 78.) -/
def execMillPart (mill : Nat) (value : BitVec 64) (s : State) : Out :=
  let bad := s.hanks.any (fun h => h.st != .saved && h.frame / 9 == mill) || changing s (millOf s mill).pid ||
    (!value.getLsbD 8 && !oneBit (bits value 16 16))
  let s1 := updMill s mill (fun m => { m with part := value &&& 0xFFFF0107 })
  answering s (if bad || decide (8 ≤ mill) then s else afrAll (allLimitsMoved (gatherPoints s1 (bits value 0 3).toNat)))

end Sys2Proof.Machine
end

