-- ==== Sys2Proof/Machine/Bringup.lean ====
section
/-! DEFINITION. Clock regions and margins (18 R398 to R400), resets and bring-up (18 R406 to R409), spares (16 R371), the command
processor's watchdog (17 R392), the time base, fabric ports' width (17 R393), the loss of power. -/
namespace Sys2Proof.Machine

/-! ### Clock regions (18 R398, R400) -/

/-- SUPPLY_DROOP: a region's oscillator stretches; DROOP_PASSES: it returns to its target. No result changes. -/
def execSupplyDroop (r : Region) (s : State) : Out := .next { s with droops := if s.droops.contains r then s.droops else s.droops ++ [r] }
def execDroopPasses (r : Region) (s : State) : Out := .next { s with droops := s.droops.filter (fun d => d != r) }

/-- MARGIN_WARNING: the region's warning bit is set; regions without one raise none. -/
def execMarginWarning (r : Region) (s : State) : Out :=
  .next (match r with
    | .frame m n => if n < 9 then updMill s m (fun x => { x with margin := x.margin ||| BitVec.ofNat 64 (2 ^ n) }) else s
    | .l2net m => updMill s m (fun x => { x with margin := x.margin ||| 0x200 })
    | .port n => if n < 36 then { s with fab := { s.fab with margin := s.fab.margin ||| BitVec.ofNat 64 (2 ^ n) } } else s
    | .hostCp => s
    | .gtbRef => s)

/-- The mill of a region on a mill's core rail. -/
def Region.mill? : Region → Option Nat
  | .frame m _ => some m | .l2net m => some m | .port _ => none | .hostCp => none | .gtbRef => none

/-! ### Spares (16 R371; 01 R13) -/

/-- LEFT of MILL_SPARE. -/
def sparesLeft (m : Mill) : Nat := (bits m.spare 0 3).toNat
/-- A spare takes a spindle's logical number with nothing in it; with no spare left the number goes offline. (DEDUCED, log 82.) -/
def substitute (s : State) (n : Nat) : State :=
  let m := millOf s (n / 72)
  let s1 : State := { s with spindles := s.spindles.filter (fun x => x.num != n) }
  if sparesLeft m = 0 then updMill s1 (n / 72) (fun x => { x with offline := x.offline ||| BitVec.ofNat 128 (2 ^ (n % 72)) })
  else bboxFree (updMill s1 (n / 72) (fun x => { x with spare := x.spare - 1 })) 6

/-! ### Firmware images (18 R407, R408) -/

/-- The header of an image, its signed part, the whole image. -/
def FwImage.header (f : FwImage) : List Byte :=
  toBytes 4 f.format.toNat ++ toBytes 4 f.version.toNat ++ toBytes 4 f.svn.toNat ++ toBytes 4 f.body.length ++ toBytes 4 f.entry.toNat ++ zeros 44
def FwImage.signed (f : FwImage) : List Byte := FwImage.header f ++ padTo 64 f.key ++ f.body
def FwImage.whole (f : FwImage) : List Byte := FwImage.signed f ++ padTo 49856 f.sig

/-- Step 3: CODE of CPR_BOOT, 0 when the image is accepted. (DEDUCED, log 81.) -/
def imageCode (fu : Fuses) : Option FwImage → Nat
  | none => 1
  | some f =>
    if Config.shake256 (padTo 64 f.key) ≠ fu.keyHash then 2
    else if !Config.slhVerify (padTo 64 f.key) (FwImage.signed f) (padTo 49856 f.sig) then 3
    else if f.svn.toNat < fu.svn.toNat then 4
    else if f.format ≠ 1 ∨ f.body.length ≤ f.entry.toNat ∨ 512 * 1024 - 64 < f.body.length ∨ !f.reservedZero then 5
    else 0

/-- Steps 3 and 4: the image is read from module flash or the host window, verified and loaded; CODE says how it went. (DEDUCED, log 81; DEDUCED, log 83.) -/
def loadFirmware (s : State) (boot : BootInput) (fromHost : Bool) : State :=
  let img := if fromHost then boot.host else boot.flash
  let code := imageCode s.cp.fuses img
  let s1 : State := { s with cp := { s.cp with boot := setBits s.cp.boot 8 (BitVec.ofNat 8 code) } }
  match code, img with
  | 0, some f => { s1 with cp := { s1.cp with
      fwid := Config.shake256 (FwImage.whole f), tcm := msetAll s1.cp.tcm 0 f.body, entry := f.entry } }
  | _, _ => s1

/-- CODE of CPR_BOOT. -/
def bootCode (s : State) : Nat := (bits s.cp.boot 8 8).toNat
/-- The CP starts at ENTRY. -/
def startCp (s : State) : State := { s with cp := { s.cp with cpstat := 1 } }

/-- Step 6: spindles that fail are replaced by spares, stacks that fail to train are lost, links train and carry the capabilities; CODE 6 when the
spares do not suffice. (DEDUCED, log 82.) -/
def selfTest (s : State) (boot : BootInput) : State :=
  let bad := sortNat (boot.failed.filter (fun n => decide (n < 576)))
  let beyond := (upTo 0 8).any (fun m => decide (4 < (bad.filter (fun n => n / 72 == m)).length))
  let s1 := bad.foldl substitute s
  let st := (sortNat (boot.lost.filter (fun n => decide (n < 16)))).foldl (fun (w : BitVec 64) n => w ||| BitVec.ofNat 64 (2 ^ (2 * n))) s1.hbm.stack
  let s2 : State := { s1 with hbm := { s1.hbm with stack := st }, sent := s1.sent ++ [.myCap] }
  if beyond then { s2 with cp := { s2.cp with boot := setBits s2.cp.boot 8 (6 : BitVec 8) } } else s2

/-- Steps 1 to 7 up to the pod's timebase message; a step that fails stops bring-up. -/
def bringUp (s : State) (boot : BootInput) (fromHost : Bool) : State :=
  let s1 := bboxFree { s with cp := { s.cp with bootCount := s.cp.bootCount + 1 } } 8
  let s2 := loadFirmware s1 boot fromHost
  if bootCode s2 ≠ 0 then s2
  else
    let pub := Config.slhPublic s2.cp.fuses.secret
    let s3 : State := { s2 with cp := { s2.cp with meterPub := pub, devid := Config.shake256 (toBytes 64 pub.toNat) } }
    let s4 := selfTest s3 boot
    if bootCode s4 ≠ 0 then s4 else startCp s4

/-! ### Resets (18 R406) -/

/-- The registers of the always-on domain and the fuses, over a reset of the rest of the command processor. -/
def Cp.deviceReset (c : Cp) : Cp := { Cp.resetRegs with fuses := c.fuses, bootCount := c.bootCount, bbox := c.bbox, bboxIdx := c.bboxIdx }

/-- What a reset of the package leaves of memory: what belongs to the host and to other packages. -/
def foreignBytes (m : SMap 8) : SMap 8 := m.filter (fun e => decide (2 ^ 50 ≤ e.1))
/-- Over a device reset the manual does not say what device memory holds: what has been written there takes free values. (DESIGN CHOICE, log 80.) -/
def afterReset (n : Nat) (m : SMap 8) : SMap 8 :=
  m.filterMap (fun e =>
    let v := if e.1 < 2 ^ 50 then Config.afterReset n e.1 else e.2
    if v = 0 then none else some (e.1, v))

/-- The model's own fields go on over a reset of the package. -/
def State.restart (s : State) : State := { State.reset with steps := s.steps, inputs := s.inputs, key := s.key, sent := s.sent }

/-- POWER_ON_RESET: nothing is kept but the fuses. -/
def execPowerOnReset (boot : BootInput) (s : State) : Out :=
  let s1 := s.restart
  .next (bringUp { s1 with mem := { Mem.reset with bytes := foreignBytes s.mem.bytes }, cp := { s1.cp with fuses := s.cp.fuses } } boot false)

/-- DEVICE_RESET: the always-on domain is kept, the pending parity commits in it: they are applied before memory is used again (17 R378). (DEDUCED, log 83.) -/
def execDeviceReset (boot : BootInput) (s : State) : Out :=
  let s1 := s.restart
  .next (if !s.cp.power then s else
    bringUp { s1 with mem := { Mem.reset with bytes := afterReset s.steps s.mem.bytes }, cp := s.cp.deviceReset,
                       hbm := { s1.hbm with parity := s.hbm.parity } } boot (s.cp.boot.getLsbD 16))

/-- CP_RESET: the CP core and its TCM start anew by steps 3 and 4; everything else goes on. (DEDUCED, log 81.) -/
def execCpReset (boot : BootInput) (s : State) : Out :=
  .next (if !s.cp.power then s else
    let s1 := loadFirmware { s with cp := { s.cp with tcm := [], entry := 0, cpstat := 0 } } boot (s.cp.boot.getLsbD 16)
    if bootCode s1 ≠ 0 then s1 else startCp s1)

/-- POWER_LOSS: nothing is kept but the fuses, and the package is off. -/
def execPowerLoss (s : State) : Out :=
  let s1 := s.restart
  .next { s1 with mem := { Mem.reset with bytes := foreignBytes s.mem.bytes }, cp := { s1.cp with fuses := s.cp.fuses, power := false } }

/-- POD_TIMEBASE_MESSAGE: parity commits that a reset has kept are made by now (17 R378); at step 7 the GTB is set, once; step 8 sets READY (18 R408, R409). -/
def execPodTimebaseMessage (g : BitVec 64) (s : State) : Out :=
  .next (if s.cp.power && s.cp.bootCount != 0 && bootCode s == 0 && s.cp.cpstat.getLsbD 0 && !s.cp.gtbRun then
      { s with hbm := { s.hbm with parity := [] }, gtb := g, tick := BitVec.ofNat 64 (g.toNat / Config.tickLen), cp := { s.cp with gtbRun := true, boot := s.cp.boot ||| 1 } }
    else s)

/-- CP_WATCHDOG: running firmware missed its watchdog (17 R392). -/
def execCpWatchdog (s : State) : Out := .next (if s.cp.cpstat.getLsbD 0 then { s with cp := { s.cp with cpstat := s.cp.cpstat ||| 2 } } else s)

/-- TSYNC_LOST: FAB_TSYNC.LOST and a host interrupt, through the FM-owned logical device (18 R409). -/
def execTsyncLost (s : State) : Out := .next (hostIrq { s with fab := { s.fab with tsync := s.fab.tsync ||| 1 } } 16)

/-- PORT_DEGRADE: WIDTH shows the lanes in use (17 R393). -/
def execPortDegrade (port : Nat) (lanes : BitVec 4) (s : State) : Out :=
  .next { s with fab := { s.fab with port := s.fab.port.map (fun p => if p.1 == port then (p.1, setBits p.2 4 lanes) else p) } }

end Sys2Proof.Machine
end

