-- ==== Sys2Proof/Machine/Errors.lean ====
section
/-! DEFINITION. Faults and recovery beyond one instruction: the end of a VD (17 R390), resume tokens and fault queues (16 R363), the host's
invalidations (R355), thawing (R365), CPR_QKICK (15 R330), array resets (R366), SRAM and memory errors, the error log and injection (R367 to
R369), spindles that are drained or lost (R371). -/
namespace Sys2Proof.Machine

/-! ### Binding (17 R388, R390; 14 R298) -/

/-- LD_BIND: after bring-up, an unbound LD whose VD has ended is bound to its VD; its first reading covers the ticks from now on. (DEDUCED, log 72.) -/
def execLdBind (ld : Nat) (s : State) : Out :=
  let v := vdOf s ld
  .next (if s.cp.boot.getLsbD 0 && decide (ld < 16) && !v.bound && !v.ending then
      updVd s ld (fun u => { u with bound := true, reading := { u.reading with first := s.tick, formedAt := s.gtb } })
    else s)

/-- What a token or a waiting record stops belongs to a VD. -/
def Stopped.vd? (s : State) : Stopped → Option Nat
  | .nothing => none
  | .strand k => (strand? s k).bind (fun t => (skein? s t.skein).map (fun x => x.vd))
  | .packet k => (pkt? s k).map (fun p => p.vd)
  | .queue d => some (descVd s d)
  | .write k => ((s.writes ++ s.vds.flatMap (fun v => v.withheld)).find? (fun w => w.id == k)).map (fun w => w.vd)

/-- A VD begins to end: its queues are unmapped for good, packets that move are aborted, its contexts end, records that wait for its own queue go. (DEDUCED, log 84.) -/
def beginVdEnd (s : State) (vd : Nat) : State :=
  let s1 := updVd (unmapVd s vd) vd (fun v => { v with bound := false, ending := true, unmapped := [], withheld := [], ownHeld := [] })
  let s2 := (vdPkts s1 vd).foldl (fun u p => match pkt? u p.id with | some q => packetDone u { q with st := .moving } 6 0 | none => u) s1
  let s3 : State := { s2 with flts := s2.flts.filter (fun w => w.queue != .vd vd), pkts := s2.pkts.filter (fun p => p.vd != vd),
                              writes := s2.writes.filter (fun w => w.vd != vd) }
  settleEnding ((vdCtxs s3 vd).foldl (fun u c => endCtx u vd c.num) s3)

/-- LD_UNBIND: the LD's VD ends. -/
def execLdUnbind (ld : Nat) (s : State) : Out := .next (if (vdOf s ld).bound then beginVdEnd s ld else s)

/-! ### Tokens (16 R363) -/

/-- What a token stopped goes on; a parked instruction is issued again. -/
def unstop (s : State) (v : BitVec 64) : Stopped → State
  | .nothing => s
  | .strand k => updStrand s k (fun t => if t.wait == some (.token v) then { t with st := if t.st == .parked then .ready else t.st, wait := none } else t)
  | .packet k =>
    { s with pkts := updIf (fun p => p.id == k) (fun p => match p.st with
        | .paused u => if u = v then { p with st := if p.accepted then .moving else .waiting } else p
        | _ => p) s.pkts }
  | .queue d => { s with queues := updIf (fun q => q.desc == d && q.token == some v) (fun q => { q with token := none }) s.queues }
  | .write k =>
    let clear := fun (w : CpWrite) => if w.id == k then { w with token := none } else w
    { s with writes := s.writes.map clear, vds := s.vds.map (fun u => { u with withheld := u.withheld.map clear }) }

/-- A token is written: a record of that queue resumes what it stopped; a token that stops nothing is ignored. -/
def resumeToken (s : State) (host : Bool) (vd : Option Nat) (v : BitVec 64) : State :=
  let hit := fun (t : Token) => t.value == v && t.host == host && (match vd with | some n => (t.stops.vd? s).getD n == n | none => true)
  match s.tokens.find? hit with
  | none => s
  | some t => unstop { s with tokens := s.tokens.filter (fun u => u.value != v) } v t.stops

/-- DEDUCED, log 85. -/
def execVdFltres (vd : Nat) (value : BitVec 64) (s : State) : Out :=
  answering s (resumeToken (updVd s vd (fun v => { v with fltres := value })) false (some vd) value)
def execCprHfltres (value : BitVec 64) (s : State) : Out :=
  .next (resumeToken { s with cp := { s.cp with hfltres := value } } true none value)

/-- The configuration word of a ring with the layout of VD_ERRQ: LOG2N outside 4 to 12 is stored as 4 (15 R331). -/
def ringWord (v : BitVec 64) : BitVec 64 :=
  let n := (bits v 8 4).toNat
  (v &&& ~~~0xFFF) ||| BitVec.ofNat 64 ((if n < 4 ∨ 12 < n then 4 else n) * 256)

/-- A host fault record of a VD that waited no more: VD_EXIT.REASON 3 goes (16 R363). (DEDUCED, log 85.) -/
def exitSettle (s : State) : State :=
  { s with vds := s.vds.map (fun v =>
      if v.exit == 3 && !s.flts.any (fun w => w.queue == .host && fieldOf w.bytes 4 1 == v.num) then { v with exit := 0 } else v) }

/-- FAULT_QUEUE_HEAD: BASE or HEAD of a fault queue is written; waiting records go in while there is room. -/
def execFaultQueueHead (queue : FltQueue) (base : Bool) (value : BitVec 64) (s : State) : Out :=
  let r := fltRing s queue
  let s1 := setFltRing s queue (if base then { r with cfg := ringWord value } else { r with head := value })
  let s2 := exitSettle (fltDrain s1 queue s1.flts.length)
  match queue with
  | .vd _ => answering s s2
  | .host => .next s2

/-! ### The host's invalidations (16 R355) -/

def execVdInvcmdGo (vd : Nat) (value : BitVec 64) (s : State) : Out :=
  let busy := (vdOf s vd).invcmd &&& 2
  let kind := Nat.min 2 (bits value 3 2).toNat
  let s1 := updVd s vd (fun v => { v with invcmd := (value &&& 0xFFE0) ||| BitVec.ofNat 64 (kind * 8) ||| busy })
  let v := vdOf s vd
  let stage2 := value.getLsbD 5
  answering s (if value.getLsbD 0 && busy == 0 then
      startInv (updVd s1 vd (fun u => { u with invcmd := u.invcmd ||| 2 })) vd stage2 (if stage2 then none else some (bits value 6 10).toNat)
        v.invaddr.toNat (if kind = 0 then some 1 else if kind = 1 then some v.invlen.toNat else none) true
    else s1)

/-! ### Thawing (16 R365) -/

/-- CPR_THAW as stored. -/
def thawWord (v : BitVec 64) : BitVec 64 := v &&& 0xFFFF0072
/-- The frozen queue with a QID. -/
def frozenQueue (s : State) (qid : Nat) : Option Nat :=
  ((s.queues.map (fun q => q.desc) ++ (mappedSlots s).map (fun e => e.2)).find? (fun d => descQid s d == qid && descFlag s d 0))
/-- The packets that stand frozen on a BTE channel. -/
def frozenOn (s : State) (ch : Nat) : List BtePkt := s.pkts.filter (fun p => chanId p == ch && (match p.st with | .frozen _ => true | _ => false))

/-- Resuming a master: what it stopped at is translated again. -/
def thawMaster (s : State) (kind ident : Nat) : State :=
  if kind = 1 then
    (match ctx? s (ident / 1024) (ident % 1024) with
    | some c => if c.st = 2 then bboxFree (setCtx s { c with st := 1 }) 4 else s
    | none => s)
  else if kind = 2 then (match frozenQueue s ident with | some d => bboxFree (setDescFlag s d 0 false) 4 | none => s)
  else if kind = 3 then
    (if (frozenOn s ident).isEmpty then s
    else bboxFree { s with pkts := s.pkts.map (fun p => match p.st with
      | .frozen _ => if chanId p == ident then { p with st := if p.accepted then .moving else .waiting } else p
      | _ => p) } 4)
  else if kind = 4 then (if (vdOf s ident).ldFrozen then bboxFree (updVd s ident (fun v => { v with ldFrozen := false })) 4 else s)
  else s

/-- The packet at which a frozen queue stopped completes without effect and its slot is passed. (DEDUCED, log 86.) -/
def abortHead (s : State) (d : Nat) : State :=
  if (queueOf s d).zero then ridxOn s d
  else
  match consumerGet s d (nextVa s d) 64 with
  | (s1, .error _) => packetTaken s1 d
  | (s1, .ok bs) =>
    if qKind s d = 0 then
      let s2 := takeBte s1 d bs
      (match pkt? s2 s1.key with | some p => packetDone s2 p 6 0 | none => s2)
    else if fieldOf bs 0 1 = 0x10 then
      let cmpl := BitVec.ofNat 64 (fieldOf bs 24 8)
      headDone (lotReport s1 d cmpl (BitVec.ofNat 64 (fieldOf bs 32 8)) (BitVec.ofNat 64 (fieldOf bs 40 8)) (fieldOf bs 3 1 % 2 == 1)
        (lotRecord s1 8 0 0xFFFFFFFF 0)) d
    else if fieldOf bs 0 1 = 0x11 then feedEnds s1 d bs (queueOf s1 d).fed 5
    else headDone s1 d

/-- A queue is unmapped: VALID of its slot and MAPPED are cleared. -/
def unmapQueue (s : State) (d : Nat) : State :=
  let mine := (mappedSlots s).filter (fun e => e.2 == d)
  setDescFlag (mine.foldl (fun (u : State) e => { u with cp := { u.cp with qslot := mset u.cp.qslot e.1 (mget u.cp.qslot e.1 &&& ~~~1) } }) s) d 1 false

/-- Ending a master. (DEDUCED, log 86.) -/
def endMaster (s : State) (kind ident : Nat) : State :=
  if kind = 1 then
    (match ctx? s (ident / 1024) (ident % 1024) with | some c => if c.st = 2 then settleEnding (endCtx (bboxFree s 4) c.vd c.num) else s | none => s)
  else if kind = 2 then (match frozenQueue s ident with | some d => unmapQueue (abortHead (bboxFree s 4) d) d | none => s)
  else if kind = 3 then (frozenOn s ident).foldl (fun u p => match p.st with | .frozen c => packetDone (bboxFree u 4) p 2 c.toNat | _ => u) s
  else if kind = 4 then (if (vdOf s ident).ldFrozen then beginVdEnd (bboxFree s 4) ident else s)
  else s

/-- CPR_THAW is written: with GO and END 0 it resumes, with GO and END 1 it ends. -/
def thaw (s : State) (value : BitVec 64) : State :=
  let s1 : State := { s with cp := { s.cp with thaw := thawWord value } }
  let kind := (bits value 4 3).toNat
  let ident := (bits value 16 16).toNat
  if !value.getLsbD 0 then s1 else if value.getLsbD 1 then endMaster s1 kind ident else thawMaster s1 kind ident
def execThawResume (value : BitVec 64) (s : State) : Out := .next (thaw s (value &&& ~~~2))
def execThawEnd (value : BitVec 64) (s : State) : Out := .next (thaw s (value ||| 2))

/-- CPR_QKICK (15 R330): the queue named goes on behind the indirect buffer that was nested too deep, once software has cleared FROZEN. -/
def execCprQkick (value : BitVec 64) (s : State) : Out :=
  .next (match s.queues.find? (fun q => q.skipIb && descQid s q.desc == (bits value 0 16).toNat && !descFlag s q.desc 0) with
    | some q => headDone (putQueue s { q with skipIb := false }) q.desc
    | none => s)

/-! ### The error log (16 R368, R370) -/

/-- Whether the bits that an injection has flipped are the cause of an error (16 R369). (DESIGN CHOICE, log 92.) -/
def injected (s : State) (e : ErrSite) (flips : Nat) : Bool :=
  match (millOf s e.mill).flipped with
  | some r =>
    (bits r 25 2).toNat == flips && (bits r 27 3).toNat == ErrUnit.code e.unit && (bits r 40 24).toNat == e.addr % 2 ^ 24 &&
      (match e.spindle with | some n => (bits r 30 10).toNat == n | none => true)
  | none => false

/-- An error's entry: KIND as given, or 2 when it was injected; the owner of the line or part that it hit. (DESIGN CHOICE, log 125.) -/
def logError (s : State) (e : ErrSite) (kind flips : Nat) (owner : Option (Nat × Nat)) : State :=
  let inj := injected s e flips
  elogPut (if inj then updMill s e.mill (fun m => { m with flipped := none }) else s) e.mill (ErrUnit.code e.unit) (if inj then 2 else kind) (e.spindle.getD 0xFFFF) e.syndrome.toNat e.addr
    (ownerCode owner)

/-! ### Array resets (16 R366) -/

/-- The skeins of a spindle that an array reset reaches: with outstanding array work, or with the latch in the cells. -/
def resetSkeins (s : State) (n : Nat) : List Skein :=
  (occupants s n).filter (fun x => s.array.any (fun a => a.skein == x.id) || (spindleOf s n).cells == some x.id)

/-- ARRAY-RESET: the skeins it reaches end with their hanks; the cells are empty; steps wait until it is over, within 20,000 GTB ticks. (DESIGN CHOICE, log 91.) -/
def arrayReset (s : State) (n : Nat) : State :=
  let s1 := (resetSkeins s n).foldl (fun u x =>
    endHank (postPlain u x (Flt.plain .arrayReset 0x50 0xFFFF 0)) x.hank 7 0x50) s
  let here := fun (w : ArrayWork) => (skein? s1 w.skein).any (fun x => x.spindle == n)
  let s1 : State := { s1 with array := updIf here (fun w => { w with begun := false }) s1.array }
  bboxFree (setSpindle s1 { spindleOf s1 n with cells := none, resetUntil := some (s.gtb + BitVec.ofNat 64 (choose s 960 20001)) }) 5

def execCprAreset (value : BitVec 64) (s : State) : Out :=
  let n := (bits value 0 10).toNat
  let s1 : State := { s with cp := { s.cp with areset := value &&& 0x3FF } }
  .next (if value.getLsbD 15 && decide (n < 576) then arrayReset s1 n else s1)

/-- Whether the step that a spindle's array works on has run longer than MILL_ARRAYWD.TICKS. -/
def arrayLate (s : State) (n : Nat) : Bool :=
  match nextWork s n with
  | some w => w.begun && decide (w.startGtb.toNat + (bits (millOf s (n / 72)).arraywd 0 32).toNat < s.gtb.toNat)
  | none => false
def execArrayWatchdog (n : Nat) (s : State) : Out := .next (if arrayLate s n then arrayReset s n else s)

/-! ### Errors (16 R367, R369, R371) -/

/-- A hank ends with a data error; a halted one goes at once. -/
def dataEnds (s : State) (x : Skein) (syndrome : BitVec 32) : State :=
  let s1 := failHank s x { Flt.plain .data 0x40 0xFFFF 0 with detail := syndrome.toNat }
  match hank? s1 x.hank with
  | some h => if h.st = .saved then afrAll (lotSettle (dropHank s1 h false) h.lot) else s1
  | none => s1

/-- One of a list, by free choice. (DESIGN CHOICE, log 88.) -/
def oneOf {α : Type} (s : State) (p : Nat) (l : List α) : Option α := l[choose s p l.length]?

/-- The spindle of an error counts it; at THRESH it is drained (R371). -/
def countError (s : State) (sp : Option Nat) : State :=
  match sp with
  | none => s
  | some n =>
    let x := spindleOf s n
    let s1 := setSpindle s { x with errs := x.errs + 1 }
    if (bits (millOf s (n / 72)).spare 8 8).toNat ≤ x.errs + 1 ∧ !x.draining then
      let hs := dedup ((occupants s1 n).map (fun y => y.hank))
      hs.foldl (fun u h => haltHank u h .preempt false) (setSpindle s1 { spindleOf s1 n with draining := true })
    else s1

/-- A line is poisoned, and the syndrome of the error kept with it (16 R362, R367). -/
def poisonLine (s : State) (line : Nat) (syndrome : BitVec 32) : State :=
  { s with mem := { s.mem with poison := insNat line s.mem.poison, synd := mset s.mem.synd line syndrome } }

/-- A line of L2 or of device memory that cannot be corrected: a clean copy is dropped, a dirty line or lost data is poisoned. (DEDUCED, log 89.) -/
def l2Error (s : State) (line : Nat) (syndrome : BitVec 32) : State :=
  match l2Find s line with
  | some x => if x.dirty then poisonLine s line syndrome else l2Drop s line
  | none => s

/-- The owner of what an error hits (16 R368): the context whose part, share or image stands there, by the same free choice that decides what an
uncorrectable error there ends; the owner of the line. (DESIGN CHOICE, log 125.) -/
def hitOwner (s : State) (e : ErrSite) : Option (Nat × Nat) :=
  let n := e.spindle.getD (72 * e.mill)
  let of := fun (x : Option Skein) => x.map (fun y => (y.vd, y.ctx))
  match e.unit with
  | .pool => of (oneOf s 961 (occupants s n))
  | .shadow => of (oneOf s 963 (shadowed s n))
  | .weight => of (oneOf s 964 (occupants s n))
  | .l1 => (oneOf s 965 (spindleOf s n).l1).bind (fun c => lineOwner s c.line)
  | .l2 | .devmem => lineOwner s (normSpa s e.addr / 128)
  | _ => none

/-- UNCORRECTABLE_ERROR: its effect by unit (R367). Which skein's part or which copy stands at a unit's offset is not laid down: a free choice. (DESIGN CHOICE, log 88; DEDUCED, log 90.) -/
def execUncorrectableError (e : ErrSite) (s : State) : Out :=
  let n := e.spindle.getD (72 * e.mill)
  let line := normSpa s e.addr / 128
  .next (match e.unit with
    | .pool =>
      (match oneOf s 961 (occupants s n) with
      | none => countError (logError s e 1 2 none) e.spindle
      | some x =>
        let s1 := countError (logError s e 1 2 (some (x.vd, x.ctx))) e.spindle
        if e.clean then
          (match oneOf s 962 (x.lines.filter (fun l => l.st == .clean)) with
          | some l => updSkein s1 x.id (fun y => { y with lines := y.lines.erase l })
          | none => s1)
        else dataEnds s1 x e.syndrome)
    | .shadow =>
      (match oneOf s 963 (shadowed s n) with
      | none => countError (logError s e 1 2 none) e.spindle
      | some x => dataEnds (countError (logError s e 1 2 (some (x.vd, x.ctx))) e.spindle) x e.syndrome)
    | .weight =>
      (match oneOf s 964 (occupants s n) with
      | none => countError (logError s e 1 2 none) e.spindle
      | some x => dataEnds (countError (logError s e 1 2 (some (x.vd, x.ctx))) e.spindle) x e.syndrome)
    | .l1 =>
      let s1 := countError (logError s e 1 2 (hitOwner s e)) e.spindle
      (match oneOf s 965 (spindleOf s n).l1 with | some c => dropL1 s1 n c.line | none => s1)
    | .icache =>
      let s1 := countError (logError s e 1 2 none) e.spindle
      (match oneOf s 966 (spindleOf s n).ic with
      | some b => setSpindle s1 { spindleOf s1 n with ic := (spindleOf s1 n).ic.erase b }
      | none => s1)
    | .l2 => l2Error (logError s e 1 2 (lineOwner s line)) line e.syndrome
    | .array => arrayReset (countError (logError s e 1 2 none) e.spindle) n
    | .devmem =>
      if (upTo 0 16).any (fun k => stackState s k == 1) then
        poisonLine (logError s e 1 2 (lineOwner s line)) line e.syndrome
      else logError s e 0 2 (lineOwner s line))

/-- CORRECTED_ERROR: nothing but its log entry. -/
def execCorrectedError (e : ErrSite) (s : State) : Out := .next (logError s e 0 1 (hitOwner s e))

/-- SPINDLE_LOST: the hanks resident there end with SPINDLE-LOST before a spare takes over. (DEDUCED, log 87.) -/
def execSpindleLost (n : Nat) (s : State) : Out :=
  let gone := dedup ((occupants s n).map (fun x => x.hank) ++ (shadowed s n).map (fun x => x.hank))
  let s1 := gone.foldl (fun u h =>
    let v := endHank u h 6 0x51
    match hank? v h with
    | some k => if k.st = .saved then afrAll (lotSettle (dropHank v k false) k.lot) else v
    | none => v) s
  .next (if n < 576 then substitute s1 n else s)

/-- MILL_EINJ: ARM holds only for a unit and a number of flips that arm (R369). -/
def execMillEinj (mill : Nat) (value : BitVec 64) (s : State) : Out :=
  let arms := value.getLsbD 0 && bits value 27 3 != 7 && (bits value 25 2 == 1 || bits value 25 2 == 2)
  answering s (updMill s mill (fun m => { m with einj := (value &&& 0xFFFFFFFFFE000000) ||| (if arms then 1 else 0) }))
/-- The units of R368, by their codes. -/
def unitOf (n : Nat) : ErrUnit := [ErrUnit.pool, .shadow, .weight, .l1, .icache, .l2, .array].getD n .array

/-- What a unit of a spindle, or of a mill's L2, holds: a write to it shows. -/
def unitHolds (s : State) (mill : Nat) (u : ErrUnit) (n : Nat) : List Skein × List Spindle × List L2Line × SMap 8 :=
  let part := fun (f : Skein → Skein) => (occupants s n).map f
  let bare : Skein → Skein := fun x => { x with lines := [], written := [], opc := [], gw := 0, latch := none, share := [], wg := 0, bar := Barrier.reset }
  match u with
  | .pool => (part bare, [], [], [])
  | .shadow => (shadowed s n, [], [], [])
  | .weight => (part (fun x => { bare x with fibres := [], g := [], tiles := [], accs := [], scr := [], out := [], share := x.share }), [], [], [])
  | .l1 => ([], [{ spindleOf s n with ic := [], tlb := [], cells := none, cycle := [], errs := 0, resetUntil := none }], [], [])
  | .icache => ([], [{ spindleOf s n with l1 := [], tlb := [], cells := none, cycle := [], errs := 0, resetUntil := none }], [], [])
  | .l2 => ([], [], s.mem.l2.filter (fun x => homeMill s x.line == mill), s.mem.bytes.filter (fun e => homeMill s (e.1 / 128) == mill))
  | _ => ([], [{ spindleOf s n with l1 := [], ic := [], tlb := [], cycle := [], errs := 0, resetUntil := none }], [], [])

/-- Writes of a step to the location that an injection is armed for store the flipped bits, and ARM is cleared (16 R369). Which write of a unit goes to the
location that OFFSET names is not laid down: a free choice. (DESIGN CHOICE, log 92.) -/
def flipAll (pre s : State) : State :=
  { s with mills := s.mills.map (fun m =>
      let u := unitOf (bits m.einj 27 3).toNat
      let n := (bits m.einj 30 10).toNat
      if m.einj.getLsbD 0 && unitHolds pre m.num u n != unitHolds s m.num u n && choose s (967 + m.num) 2 == 0 then
        { m with einj := m.einj &&& ~~~1, flipped := some m.einj }
      else m) }

/-- The error that flipped bits bring as they are met. (DESIGN CHOICE, log 92.) -/
def flippedError (m : Mill) : Option Instr :=
  match m.flipped with
  | none => none
  | some r =>
    let e : ErrSite := { mill := m.num, unit := unitOf (bits r 27 3).toNat, spindle := some (bits r 30 10).toNat, addr := (bits r 40 24).toNat,
                         syndrome := Config.syndrome m.num, clean := false }
    if bits r 25 2 == 2 then some (.uncorrectableError e) else some (.correctedError e)

/-- Drained spindles that hold nothing more give their number to a spare; images in their shadow banks go to memory first (R371). -/
def settleDrain (s : State) : State :=
  (s.spindles.filter (fun x => x.draining && (occupants s x.num).isEmpty)).foldl (fun u x =>
    let hs := dedup ((shadowed u x.num).map (fun y => y.hank))
    substitute (hs.foldl (fun v h => match hank? v h with | some k => spillImage v k | none => v) u) x.num) s

end Sys2Proof.Machine
end

