-- ==== Sys2Proof/Machine/Share.lean ====
section
/-! DEFINITION. Device memory and L2 as system software shapes them: lost stacks, re-levelling and parity commits (17 R378 to R380),
compression windows (R381, R383), L2 shares (R384 to R386), pinning windows (R387). -/
namespace Sys2Proof.Machine

/-! ### Stacks (17 R378 to R380) -/

/-- STACK_LOST: a stack's state becomes lost; the error log and the black box say so. Which mill's log, the syndrome and the address are not laid down. (DESIGN CHOICE, log 125.) -/
def execStackLost (n : Nat) (s : State) : Out :=
  .next (if n < 16 ∧ stackState s n = 0 then
      elogPut { s with hbm := { s.hbm with stack := s.hbm.stack ||| BitVec.ofNat 64 (2 ^ (2 * n)) } } (choose s 970 8) 7 1 0xFFFF
        (Config.syndrome s.steps).toNat (Config.choice s.steps 971) 0xFFFF
    else s)

/-- HBM_RELEVEL with GO: refused with ERR unless one stack is lost in the 15 + 1 layout and every VD's memory lies below 896 GiB; ignored while
BUSY. (DEDUCED, log 93.) -/
def execHbmRelevelGo (value : BitVec 64) (s : State) : Out :=
  let lost := ((upTo 0 16).filter (fun n => stackState s n == 1)).length
  let fits := s.vds.all (fun v => bits v.mem 40 20 == 0 || decide ((bits v.mem 30 10).toNat + (bits v.mem 40 20).toNat ≤ 896))
  answering s (if !value.getLsbD 0 || s.hbm.relevel.getLsbD 61 then s
    else if lost = 1 ∧ !s.hbm.layout.getLsbD 0 ∧ fits then { s with hbm := { s.hbm with relevel := 0x2000000000000000 } }
    else { s with hbm := { s.hbm with relevel := (s.hbm.relevel &&& 0x1FFFFFE) ||| 0x4000000000000000 } })

/-- While BUSY, stripes are copied in ascending order, as many as a free choice says. (DEDUCED, log 93.) -/
def relevelAdvance (s : State) : State :=
  if s.hbm.relevel.getLsbD 61 then
    let p := (bits s.hbm.relevel 1 24).toNat
    { s with hbm := { s.hbm with relevel := setBits s.hbm.relevel 1 (BitVec.ofNat 24 (p + choose s 972 (2 ^ 24 - p))) } }
  else s

/-- RELEVEL_COMPLETE: MODE becomes 1, the lost stack is removed. -/
def execRelevelComplete (s : State) : Out :=
  .next (if s.hbm.relevel.getLsbD 61 then
      let st := (upTo 0 16).foldl (fun (w : BitVec 64) n => if stackState s n = 1 then setBits w (2 * n) (2 : BitVec 2) else w) s.hbm.stack
      { s with hbm := { s.hbm with stack := st, layout := 1, relevel := s.hbm.relevel &&& ~~~0x2000000000000000 } }
    else s)

/-- PARITY_COMMIT: a stripe's parity is committed and its lock clears. -/
def execParityCommit (stripe : Nat) (s : State) : Out :=
  .next { s with hbm := { s.hbm with parity := s.hbm.parity.filter (fun x => x != stripe) } }

/-! ### Compression windows (17 R381, R383) -/

def winSize (r : BitVec 64) : Nat := (bits r 2 19).toNat

/-- HBM_CMPWINn: a window that is enabled takes effect once its side table is zero; any other write at once. -/
def execHbmCmpwin (win : Nat) (value : BitVec 64) (s : State) : Out :=
  let v := value &&& 0xFFFFFFFFFC
  let old := mget s.hbm.cmpwin win
  answering s (if 8 ≤ win then s
    else if winSize old = 0 ∧ winSize v ≠ 0 then { s with hbm := { s.hbm with cmpnew := mset s.hbm.cmpnew win v } }
    else { s with hbm := { s.hbm with cmpwin := mset s.hbm.cmpwin win v, cmpnew := mset s.hbm.cmpnew win 0 } })

/-- CMPWIN_ZERO_COMPLETE: the side table reads as zero and the window takes effect. -/
def execCmpwinZeroComplete (win : Nat) (s : State) : Out :=
  let v := mget s.hbm.cmpnew win
  let base := (bits (mget s.hbm.cmpmeta win) 12 40).toNat * 4096
  .next (if v = 0 then s
    else
      { s with
        mem := { s.mem with bytes := mclear s.mem.bytes base (base + 2048 * winSize v) },
        hbm := { s.hbm with cmpwin := mset s.hbm.cmpwin win v, cmpnew := mset s.hbm.cmpnew win 0 } })

/-! ### L2 shares (17 R384 to R386) -/

def sharePin (v : Vd) : Nat := (bits v.l2share 8 5).toNat
def shareBusy (v : Vd) : Bool := v.l2share.getLsbD 31

/-- VD_L2SHARE: refused when the shares would exceed 24 ways; a share that shrinks is BUSY until its ways are taken back. -/
def execVdL2share (vd : Nat) (value : BitVec 64) (s : State) : Out :=
  let v := vdOf s vd
  let ways := Nat.min 24 (bits value 0 5).toNat
  let pin := Nat.min ways (bits value 8 5).toNat
  let others := ((s.vds.filter (fun u => u.num != vd)).map shareWays).foldl (fun a n => a + n) 0
  let busy := shareBusy v || decide (ways < shareWays v) || decide (pin < sharePin v)
  answering s (if 24 < others + ways then s
    else
      let s1 := updVd s vd (fun u => { u with l2share := BitVec.ofNat 64 (ways + pin * 256 + (if busy then 2 ^ 31 else 0)) })
      let granted := s.mem.owed.filter (fun n => n != vd) ++ [vd]
      assignWays (if shareWays v < ways then { s1 with mem := { s1.mem with owed := granted } } else s1))

/-- Two lines of one set of one slice. -/
def sameSet (s : State) (a b : Nat) : Bool := homeSlice s a == homeSlice s b && l2Set a == l2Set b

/-- A VD's pins on a line are released; COUNT falls. -/
def releasePins (s : State) (vd : Nat) (x : L2Line) : State :=
  (x.pins.filter (fun q => q.1 == vd)).foldl (fun u q =>
    updCtx u q.1 q.2 (fun c => { c with pin := setBits c.pin 0 (bits c.pin 0 32 - 1) }))
    (updL2 s x.line (fun y => { y with pins := y.pins.filter (fun q => q.1 != vd) }))

/-- Pins beyond PIN in a set go, most recently pinned first. (DEDUCED, log 95.) -/
def trimPins (s : State) (vd : Nat) : State :=
  (s.mem.l2.reverse.filter (fun x => x.pins.any (fun q => q.1 == vd))).foldl (fun u x =>
    let n := (u.mem.l2.filter (fun y => sameSet u y.line x.line && y.pins.any (fun q => q.1 == vd))).length
    if sharePin (vdOf u vd) < n then releasePins u vd x else u) s

/-- Lines beyond WAYS in a set leave, written back when dirty; which of them stood in the ways taken back is a free choice. (DEDUCED, log 95.) -/
def trimLines (s : State) (vd : Nat) : State :=
  let mine := s.mem.l2.filter (fun x => x.vd == vd && x.pins.isEmpty)
  let k := choose s 973 (mine.length + 1)
  (mine.drop k ++ mine.take k).foldl (fun u x =>
    let n := (u.mem.l2.filter (fun y => y.vd == vd && sameSet u y.line x.line)).length
    if shareWays (vdOf u vd) < n then l2Drop (writeBack u x.owner x) x.line else u) s

/-- SHRINK_COMPLETE: pins and lines beyond the share are gone in every slice, the ways pass on, BUSY clears. -/
def execShrinkComplete (vd : Nat) (s : State) : Out :=
  .next (if shareBusy (vdOf s vd) then
      let s1 := trimLines (trimPins s vd) vd
      assignWays (updVd s1 vd (fun v => { v with ways := v.ways.take (shareWays v), l2share := v.l2share &&& ~~~0x80000000 }))
    else s)

/-! ### Pinning windows (17 R387) -/

/-- Whether a line lies in a window's range. -/
def inWindow (r : BitVec 64) (line : Nat) : Bool :=
  decide ((bits r 19 19).toNat * 2 ^ 21 ≤ line * 128) && decide (line * 128 < ((bits r 19 19).toNat + (bits r 38 20).toNat) * 2 ^ 21)

/-- VD_PINWINn: refused when 2^LOGN does not divide FIRST; BUSY until the lines of the old and the new range have been moved. (DEDUCED, log 95.) -/
def execVdPinwin (vd win : Nat) (value : BitVec 64) (s : State) : Out :=
  let v := value &&& 0x83FFFFFFFFFF007F
  let old := mget (vdOf s vd).pinwin win
  let bad := decide (16 ≤ win) || decide ((bits v 0 7).toNat % 2 ^ (bits v 16 3).toNat ≠ 0)
  answering s (if bad then s else updVd s vd (fun u =>
    { u with pinwin := mset u.pinwin win (v ||| 0x4000000000000000),
             pinold := if u.pinold.any (fun e => e.1 == win) then u.pinold else u.pinold ++ [(win, old)] }))

/-- PINWIN_COMPLETE: every line of both ranges has been written back and dropped, a pinned one moved; the new mapping is in force. -/
def execPinwinComplete (vd win : Nat) (s : State) : Out :=
  .next (match (vdOf s vd).pinold.find? (fun e => e.1 == win) with
    | none => s
    | some e =>
      let new := mget (vdOf s vd).pinwin win
      let mine := s.mem.l2.filter (fun x => inWindow e.2 x.line || inWindow new x.line)
      let s1 := mine.foldl (fun u x => let w := writeBack u x.owner x; if x.pins.isEmpty then l2Drop w x.line else w) s
      updVd s1 vd (fun u => { u with pinwin := mset u.pinwin win (new &&& ~~~0x4000000000000000), pinold := u.pinold.filter (fun o => o.1 != win) }))

end Sys2Proof.Machine
end

