-- ==== Sys2Proof/Machine/Fabric.lean ====
section
/-! DEFINITION. The fabric (17 R393 to R397; 11 R279) and the host's accesses to device memory (17 R388, R389; 11 R281). -/
namespace Sys2Proof.Machine

/-! ### Receiving (17 R393 to R395) -/

/-- The quota of a tenant on a port, the shared pool, and the flits held against each. -/
def quotaOf (s : State) (port tenant : Nat) : Nat := (mget s.fab.rxq (32 * port + tenant)).toNat
def poolOf (s : State) (port : Nat) : Nat := 8192 - ((upTo 0 17).map (quotaOf s port)).foldl (fun a n => a + n) 0
def poolHeld (s : State) (port : Nat) : Nat := ((s.fab.links.filter (fun l => l.port == port)).map (fun l => l.pool)).foldl (fun a n => a + n) 0

/-- Packets drain meanwhile: of the flits held on a port as many are left as a free choice says. (DESIGN CHOICE, log 97.) -/
def drainPort (s : State) (port : Nat) : State :=
  { s with fab := { s.fab with links := s.fab.links.map (fun l =>
      if l.port == port then { l with quota := choose s (975 + l.tenant) (l.quota + 1), pool := choose s (1000 + l.tenant) (l.pool + 1) } else l) } }

/-- Whether another package may write an address here for a tenant: local memory that exists, of that VD (17 R374); management has no range. (DEDUCED, log 96.) -/
def foreignMayWrite (s : State) (tenant a : Nat) : Bool := decide (a < capacity s) && (tenant == 16 || inVdMem s tenant a)

/-- Bytes written into this package's memory from outside (R281, R389): at the home slice, a copy in L2 being made dirty. (DEDUCED, log 31; DEDUCED, log 73.) -/
def outsideWrite (s : State) (a : Nat) (bs : List Byte) : State :=
  let lines := (upTo (a / 128) ((a + bs.length - 1) / 128 + 1 - a / 128))
  let s1 := lines.foldl (fun u l =>
    if (l2Find u l).isSome then updL2 u l (fun x => { x with dirty := true })
    else if decide (l * 128 < 2 ^ 50) && stackState u (parityOf u (l * 128)) != 1 then { u with hbm := { u.hbm with parity := insNat (stripeOf u (l * 128)) u.hbm.parity } }
    else u) s
  writeSpa s1 a bs

/-- The latest GWCT of writes to the lines of some bytes (11 R270). -/
def gwctBytes (s : State) (a n : Nat) : BitVec 64 :=
  (upTo (a / 128) ((a + n - 1) / 128 + 1 - a / 128)).foldl (fun g l => let h := gwctOf s l; if g.toNat < h.toNat then h else g) 0

/-- Whether a packet may reach n bytes from an address on. (DEDUCED, log 96.) -/
def foreignReaches (s : State) (tenant a n : Nat) : Bool :=
  n != 0 && foreignMayWrite s tenant (normSpa s a) && foreignMayWrite s tenant (normSpa s a + n - 1)

/-- Bytes that are read from outside; those of a poisoned line are not laid down. (DESIGN CHOICE, log 100.) -/
def outsideRead (s : State) (a n : Nat) : List Byte :=
  if poisoned s a n then (upTo 0 n).map (fun k => Config.foreign s.steps (a + k)) else readSpa s a n

/-- A store from outside, with the GWCT of what it wrote. -/
def outsideStore (s : State) (tenant : Nat) (g : BitVec 64) (a : Nat) (bs : List Byte) : State × BitVec 64 :=
  if foreignReaches s tenant a bs.length then
    let h := gwctBytes s (normSpa s a) bs.length
    (outsideWrite s (normSpa s a) bs, if g.toNat < h.toNat then h else g)
  else (s, g)

/-- An atomic from outside, on n bytes at their home slice: the old value goes back (08 R204; 10 R250). (DEDUCED, log 96.) -/
def outsideAtom (s : State) (tenant a n : Nat) (new : Nat → Nat) : State × BitVec 64 :=
  if a % n ≠ 0 ∨ foreignReaches s tenant a n = false then (s, 0)
  else
    let old := outsideRead s (normSpa s a) n
    let r := if poisoned s (normSpa s a) n then (s, 0) else outsideStore s tenant 0 a (toBytes n (new (ofBytes old)))
    ({ r.1 with sent := r.1.sent ++ [.atomicResult (BitVec.ofNat 64 (ofBytes old))] }, r.2)

/-- What an admitted packet brings, with the GTB that its acknowledgement waits for, 0 for none, and the flag of an RSTF (10 R249, R250; 11 R280). (DEDUCED, log 96.) -/
def deliverPkt (s : State) (p : FabPacket) : State × BitVec 64 × Option (Nat × Nat) :=
  let t := p.tenant.toNat
  match p.body with
  | .store a bs => let r := outsideStore s t 0 a bs; (r.1, r.2, none)
  | .atom a op ty v c => let r := outsideAtom s t a (if ty.wide then 8 else 4) (fun o => atomNew op ty o v.toNat c.toNat); (r.1, r.2, none)
  | .atomf a op v => let r := outsideAtom s t a 4 (fun o => (atomfNew op o v.toNat).1); (r.1, r.2, none)
  | .rstf d flag inc wide =>
    let r := d.foldl (fun (u : State × BitVec 64) e => outsideStore u.1 t u.2 e.1 e.2) (s, 0)
    (r.1, if wide then r.2 else 0, if flag % 8 = 0 ∧ foreignReaches s t flag 8 = true then some (normSpa s flag, inc) else none)
  | .read a n => (if foreignReaches s t a n then { s with sent := s.sent ++ [.readData (outsideRead s (normSpa s a) n)] } else s, 0, none)
  | .other => (s, 0, none)

/-- A packet that has been delivered is acknowledged once its writes are globally complete, those of a tenant on a link in their order; an RSTF's flag is
incremented when its data are, and has a GWCT of its own (10 R249; 11 R280). (DEDUCED, log 96.) -/
def lateStep (r : State × List LateAck) (e : LateAck) : State × List LateAck :=
  let u := r.1
  if e.after != 0 && decide (u.gtb.toNat ≤ e.after.toNat) then (u, r.2 ++ [e])
  else match e.flag with
    | some (a, inc) =>
      let g := gwctOf u (a / 128)
      (if poisoned u a 8 then u else outsideWrite u a (toBytes 8 ((readNat u a 8 + inc) % 2 ^ 64)), r.2 ++ [{ e with after := g, flag := none }])
    | none =>
      if r.2.any (fun k => k.port == e.port && k.tenant == e.tenant) then (u, r.2 ++ [e])
      else ({ u with sent := u.sent ++ [.ack e.port e.tenant e.seq] }, r.2)
def settleLate (s : State) : State :=
  let r := s.fab.late.foldl lateStep (s, [])
  { r.1 with fab := { r.1.fab with late := r.2 } }

/-- A packet is delivered; it is acknowledged at once when nothing holds its acknowledgement back. -/
def takePkt (s : State) (port : Nat) (p : FabPacket) : State :=
  let t := p.tenant.toNat
  let r := deliverPkt s p
  if r.2.1 = 0 ∧ r.2.2 = none ∧ s.fab.late.all (fun k => !(k.port == port && k.tenant == t)) = true then
    { r.1 with sent := r.1.sent ++ [.ack port t p.seq] }
  else
    let e : LateAck := { port := port, tenant := t, seq := p.seq, after := r.2.1, flag := r.2.2 }
    { r.1 with fab := { r.1.fab with late := s.fab.late ++ [e] } }

/-- A packet is not taken: later packets of the tenant are dropped, and one negative acknowledgement names the first missing number. -/
def gapAt (s : State) (l : Link) : State :=
  if l.gap then s else { setLink s { l with gap := true } with sent := s.sent ++ [.nack l.port l.tenant l.next] }

/-- FABRIC_PACKET_RECEIVE: a reserved tenant code goes to the error log; a bad CRC, a number not expected, or no room is a gap; else the packet is
admitted against its quota or the shared pool, delivered once and acknowledged, once it is globally complete (11 R280). (DESIGN CHOICE, log 125.) -/
def execFabricPacketReceive (port : Nat) (p : FabPacket) (s : State) : Out :=
  let t := p.tenant.toNat
  let s0 := drainPort s port
  let l := linkOf s0 port t
  let inQuota := decide (l.quota + p.flits ≤ quotaOf s0 port t)
  let inPool := decide (poolHeld s0 port + p.flits ≤ poolOf s0 port)
  .next (
    if 36 ≤ port then s
    else if 17 ≤ t then elogPut s (choose s 970 8) (Config.choice s.steps 976 % 8) 1 0xFFFF (Config.syndrome s.steps).toNat (Config.choice s.steps 977) 0xFFFF
    else if !p.crcOk || p.seq != l.next || !(inQuota || inPool) then gapAt s0 l
    else
      let l1 := { l with next := l.next + 1, gap := false, quota := if inQuota then l.quota + p.flits else l.quota,
                         pool := if inQuota then l.pool else l.pool + p.flits }
      takePkt (setLink s0 l1) port p)

/-! ### Sending (17 R395) -/

/-- Packets from a number on are sent again, in order; REPLAY counts them. -/
def replayFromSeq (s : State) (l : Link) (keep again : List (BitVec 12 × BitVec 64)) : State :=
  let s1 := setLink s { l with unacked := keep ++ again.map (fun e => (e.1, s.gtb)) }
  { s1 with
    fab := { s1.fab with port := s1.fab.port.map (fun p => if p.1 == l.port then (p.1, setBits p.2 32 (bits p.2 32 32 + BitVec.ofNat 32 again.length)) else p) },
    sent := s1.sent ++ again.map (fun e => Msg.replay l.port l.tenant e.1) }

/-- FABRIC_NACK: the packets from the number named on are replayed; those before it have arrived and stay unacknowledged until their acknowledgement. -/
def execFabricNack (port tenant : Nat) (seq : BitVec 12) (s : State) : Out :=
  let l := linkOf s port tenant
  .next (if l.unacked.any (fun e => e.1 == seq) then replayFromSeq s l (l.unacked.takeWhile (fun e => e.1 != seq)) (l.unacked.dropWhile (fun e => e.1 != seq)) else s)

/-- Whether a packet has stood unacknowledged for 2,000 GTB ticks. -/
def replayDue (s : State) (l : Link) : Bool := match l.unacked with | e :: _ => decide (e.2.toNat + 2000 ≤ s.gtb.toNat) | [] => false
def execFabricReplayTimeout (port tenant : Nat) (s : State) : Out :=
  let l := linkOf s port tenant
  .next (if replayDue s l then replayFromSeq s l [] l.unacked else s)

/-- FABRIC_ACK: cumulative. -/
def execFabricAck (port tenant : Nat) (seq : BitVec 12) (s : State) : Out :=
  let l := linkOf s port tenant
  .next (if l.unacked.any (fun e => e.1 == seq) then setLink s { l with unacked := (l.unacked.dropWhile (fun e => e.1 != seq)).drop 1 } else s)

/-! ### Coherence of the group (11 R279; 17 R396, R397) -/

/-- Another package writes a line: what this package reads of it from then on is that package's affair. (DESIGN CHOICE, log 98.) -/
def foreignLine (s : State) (line : Nat) : State := writeSpa s (line * 128) ((upTo 0 128).map (fun k => Config.foreign s.steps (line * 128 + k)))

/-- COHERENCE_INVALIDATE: the L2 copy is dropped; the acknowledgement follows once every L1 lease on the line has run out. (DESIGN CHOICE, log 98.) -/
def execCoherenceInvalidate (line : Nat) (s : State) : Out :=
  let s1 := l2Drop (foreignLine s line) line
  .next { s1 with fab := { s1.fab with invs := s1.fab.invs ++ [(line, false)] } }

/-- BACK_INVALIDATION: accesses to the line wait until its leases have run out; then the copy is written back if dirty, dropped, acknowledged. -/
def execBackInvalidation (line : Nat) (s : State) : Out :=
  .next { s with fab := { s.fab with invs := s.fab.invs ++ [(line, true)] } }

/-- Invalidations of the switches whose lines have no lease left are acknowledged. -/
def settleInvs (s : State) : State :=
  let past := fun (i : Nat × Bool) => decide ((mget s.mem.leases i.1).toNat < s.gtb.toNat)
  (s.fab.invs.filter past).foldl (fun (u : State) i =>
    let v := match l2Find u i.1 with
      | some x => if i.2 then (let w := writeBack u x.owner x; l2Drop { w with sent := w.sent ++ (if x.dirty then [Msg.writeback i.1] else []) } i.1) else u
      | none => u
    { v with fab := { v.fab with invs := v.fab.invs.erase i }, sent := v.sent ++ [.invAck i.1 (mget s.mem.leases i.1)] }) s

/-- SWITCH_FAILURE: the lines the switch held in this package's memory become home-only, its own copies are written back and dropped, the group is told to
drop its copies; then the recovery is complete: EVENTS counts it and the host is interrupted through the FM-owned logical device. (DEDUCED, log 99.) -/
def execSwitchFailure (lines : List Nat) (s : State) : Out :=
  let mine := lines.filter (fun l => decide (l < 2 ^ 43))
  let s1 := mine.foldl (fun (u : State) l =>
    let v := match l2Find u l with | some x => l2Drop (writeBack u x.owner x) l | none => u
    { v with sent := v.sent ++ [.invGroup l] }) s
  let r := setBits s1.fab.recov 32 (bits s1.fab.recov 32 32 + 1)
  .next (hostIrq { s1 with fab := { s1.fab with homeOnly := (s1.fab.homeOnly ++ mine).foldr insNat [], recov := if mine.isEmpty then r else r ||| 1 } } 16)

/-- HOMEONLY_CLEAR: writing 1 to FAB_RECOV.HOMEONLY ends home-only service. -/
def execHomeonlyClear (value : BitVec 64) (s : State) : Out :=
  answering s (if value.getLsbD 0 then { s with fab := { s.fab with homeOnly := [], recov := s.fab.recov &&& ~~~1 } } else s)

/-- CAPABILITY_ADVERTISE: a package's schemes are received and FAB_PEERCAP shows them; with no schemes, a link has trained and this package sends its own. -/
def execCapabilityAdvertise (pkg : BitVec 10) (schemes : Option (BitVec 8)) (s : State) : Out :=
  .next (match schemes with
    | some v => { s with fab := { s.fab with peercap := mset s.fab.peercap pkg.toNat (0x100#64 ||| v.setWidth 64) } }
    | none => { s with sent := s.sent ++ [.myCap] })

/-! ### The host (17 R388, R389; 16 R365, R373, R374) -/

/-- The VD through whose logical device the host reaches a local address: bound, with the address in its range. -/
def hostVd (s : State) (a : Nat) : Option Vd :=
  s.vds.find? (fun v => v.bound &&
    decide ((bits v.mem 30 10).toNat * 2 ^ 30 ≤ a) && decide (a < ((bits v.mem 30 10).toNat + (bits v.mem 40 20).toNat) * 2 ^ 30))

/-- A host request outside the usable capacity is a violation of its logical device: the device freezes and its VD stops (R365). (DESIGN CHOICE, log 10.) -/
def ldViolates (s : State) (vd a : Nat) (write : Bool) : State :=
  let m : Master := { kind := 4, vd := vd, ctx := 0, token := 0, ident := vd }
  let f : Flt := { Flt.plain .violation 0x33 0xFFFF 0 with access := if write then 2 else 1, va := BitVec.ofNat 64 a }
  let s1 := fltPost s vd { queue := .host, bytes := fltBytes s m f 0, stops := .nothing, after := none }
  stopVd (bboxFree (updVd s1 vd (fun v => { v with ldFrozen := true })) 3) vd 2

/-- A host request completes as an Unsupported Request. (DESIGN CHOICE, log 10.) -/
def unsupported (s : State) : State := { s with sent := s.sent ++ [.unsupported] }

/-- A host request of n bytes at an address goes through its logical device, or not; `go` performs it. Its own memory and that of other packages
do not pass through this package. (DESIGN CHOICE, log 10.) -/
def hostGo (s : State) (a n : Nat) (write : Bool) (go : State → State) : Out :=
  if 2 ^ 52 < a + n then .fault (.noSuchAddress a)
  else if 2 ^ 50 ≤ normSpa s a then .next (go s)
  else
    match hostVd s (normSpa s a), hostVd s (normSpa s (a + n - 1)) with
    | some v, some w =>
      if v.num ≠ w.num ∨ v.ldFrozen then .next (unsupported s)
      else if capacity s < normSpa s a + n then .next (unsupported (ldViolates s v.num a write))
      else .next (go s)
    | _, _ => .next (unsupported s)

/-- A write of the host is performed at its home slice; its GWCT is kept, for the writes posted after it wait for it (11 R281). -/
def hostWrite (s : State) (a : Nat) (bs : List Byte) : State :=
  let g := gwctBytes s a bs.length
  outsideWrite { s with fab := { s.fab with hostGw := if s.fab.hostGw.toNat < g.toNat then g else s.fab.hostGw } } a bs

/-- The line a host access touches first and last, and whether it writes. -/
def hostLines (s : State) : Instr → Option (Nat × Nat × Bool)
  | .hostMemoryAccess a (some bs) => some (normSpa s a / 128, (normSpa s a + bs.length - 1) / 128, true)
  | .hostMemoryAccess a none => some (normSpa s a / 128, normSpa s a / 128, false)
  | .hostAtomic _ a _ _ _ => some (normSpa s a / 128, normSpa s a / 128, true)
  | _ => none

/-- Whether an access of the host waits: its line is busy, or a reset has left parity commits to be made; or it writes, and an earlier write of the host is not
globally complete, so that a flag is never seen before what was posted before it (11 R281; 17 R378, R380, R383, R387, R396). (DEDUCED, log 141.) -/
def hostHeld (s : State) (i : Instr) : Bool :=
  match hostLines s i with
  | some (l, m, w) => lineBusy s l || lineBusy s m || (!s.cp.gtbRun && !s.hbm.parity.isEmpty) || (w && s.cp.gtbRun && decide (s.gtb.toNat ≤ s.fab.hostGw.toNat) && s.fab.hostGw != 0)
  | none => false

/-- HOST_MEMORY_ACCESS: a posted write, or a read of a line's bytes from the address on. What a read of a poisoned line brings the host is not laid down. (DESIGN CHOICE, log 100.) -/
def execHostMemoryAccess (addr : Nat) (write : Option (List Byte)) (s : State) : Out :=
  match write with
  | some bs => if bs.isEmpty then .next s else hostGo s addr bs.length true (fun u => if normSpa u addr < 2 ^ 50 then hostWrite u (normSpa u addr) bs else writeSpa u addr bs)
  | none =>
    let n := 128 - addr % 128
    hostGo s addr n false (fun u =>
      { u with sent := u.sent ++ [.readData (outsideRead u addr n)] })

/-- HOST_ATOMIC: a PCIe AtomicOp of 4 or 8 bytes at the home slice; the old value goes back. (DEDUCED, log 101.) -/
def execHostAtomic (op : HostAtomOp) (addr : Nat) (wide : Bool) (val cmp : BitVec 64) (s : State) : Out :=
  let n := if wide then 8 else 4
  if addr % n ≠ 0 then .next (unsupported s)
  else hostGo s addr n true (fun u =>
    let old := readNat u addr n
    let new := match op with
      | .fetchAdd => old + val.toNat
      | .swap => val.toNat
      | .cas => if old = cmp.toNat % 2 ^ (8 * n) then val.toNat else old
    let v := hostWrite u (normSpa u addr) (toBytes n (new % 2 ^ (8 * n)))
    { v with sent := v.sent ++ [.atomicResult (BitVec.ofNat 64 old)] })

end Sys2Proof.Machine
end

