-- ==== Sys2Proof/Machine/Sfu.lean ====
section
/-! DEFINITION. The functions of the special-function unit, correctly rounded (08 R185): values in fixed point with far more bits than a
rounding needs, the rest of the value standing as a sticky remainder. Exact values are found first; every other value of 2^a,
log2 a, sin(pi a) and cos(pi a) for a dyadic a is irrational. -/
namespace Sys2Proof.Machine

/-- floor(pi * 2^400) and floor(ln 2 * 2^400). -/
def piFix : Nat := 0x3243f6a8885a308d313198a2e03707344a4093822299f31d0082efa98ec4e6c89452821e638d01377be5466cf34e90c6cc0ac
def ln2Fix : Nat := 0xb17217f7d1cf79abc9e3b39803f2f6af40f343267298b62d8a0d175b8baafa2be7b876206debac98559552fb4afa1b10ed2e

/-- sum of x^(2k+1)/(2k+1)! with alternating signs, in units of 2^-400: term, running even and odd parts. (DEDUCED, log 24.) -/
def sinSeries (x2 : Nat) : Nat → Nat → Nat → Int → Int
  | 0, _, _, acc => acc
  | n + 1, k, term, acc =>
    let next := term * x2 / 2 ^ 400 / ((2 * k + 2) * (2 * k + 3))
    sinSeries x2 n (k + 1) next (if k % 2 = 0 then acc + term else acc - term)

/-- sin(pi * num/den) for 0 < num/den < 1/2, in units of 2^-400. -/
def sinPi (num den : Nat) : Nat :=
  let x := piFix * num / den
  (sinSeries (x * x / 2 ^ 400) 60 0 x 0).toNat

/-- sum of x^k/k! in units of 2^-240. (DEDUCED, log 24.) -/
def expSeries (x : Nat) : Nat → Nat → Nat → Nat → Nat
  | 0, _, _, acc => acc
  | n + 1, k, term, acc => expSeries x n (k + 1) (term * x / 2 ^ 240 / (k + 1)) (acc + term)

/-- sum of z^(2k+1)/(2k+1) in units of 2^-240. (DEDUCED, log 24.) -/
def atanhSeries (z2 : Nat) : Nat → Nat → Nat → Nat → Nat
  | 0, _, _, acc => acc
  | n + 1, k, term, acc => atanhSeries z2 n (k + 1) (term * z2 / 2 ^ 240) (acc + term / (2 * k + 1))

/-- log2 of num/den in [1, 2), in units of 2^-240. -/
def log2Fix (num den : Nat) : Nat :=
  let z := (num - den) * 2 ^ 240 / (num + den)
  let l := 2 * atanhSeries (z * z / 2 ^ 240) 90 0 z 0
  l * 2 ^ 400 / ln2Fix

/-- 2^(num/den) for 0 < num/den < 1, in units of 2^-240. -/
def exp2Fix (num den : Nat) : Nat := expSeries (ln2Fix * num / den / 2 ^ 160) 60 0 (2 ^ 240) 0

/-- A magnitude v * 2^e, inexact. -/
def roundScaled (mode : Mode) (neg : Bool) (v : Nat) (e : Int) : Nat × Flags :=
  let p := pow2frac v e
  FF.f32.round false mode neg p.1 p.2 true

/-- FEXP2. (DEDUCED, log 24.) -/
def fexp2 (mode : Mode) (a : FV) : Nat × Flags :=
  match a with
  | .nan g => FF.f32.nan (if g then flagNV else 0)
  | .inf n => (if n then 0 else FF.f32.infBits, 0)
  | .fin n m d =>
    let x : Int := if n then -(m : Int) else (m : Int)
    let k : Int := x / (d : Int)
    let r := (x % (d : Int)).toNat
    let k' : Int := if k < -400 then -400 else if 400 < k then 400 else k
    if r = 0 then
      let p := pow2frac 1 k'
      FF.f32.round false mode false p.1 p.2 false
    else roundScaled mode false (exp2Fix r d) (k' - 240)

/-- FLOG2. (DEDUCED, log 24.) -/
def flog2 (mode : Mode) (a : FV) : Nat × Flags :=
  match a with
  | .nan g => FF.f32.nan (if g then flagNV else 0)
  | .inf n => if n then FF.f32.nan flagNV else (FF.f32.infBits, 0)
  | .fin n m d =>
    if m = 0 then (FF.f32.signed true FF.f32.infBits, flagDZ)
    else if n then FF.f32.nan flagNV
    else
      let e := log2frac m d
      let num := if 0 ≤ e then m else m * 2 ^ (-e).toNat
      let den := if 0 ≤ e then d * 2 ^ e.toNat else d
      if num = den then FF.f32.roundSigned false mode e 1 false
      else
        let v : Int := e * 2 ^ 240 + (log2Fix num den : Int)
        if 0 ≤ v then roundScaled mode false v.toNat (-240) else roundScaled mode true (v.natAbs - 1) (-240)

/-- sin(pi t) for t = num/den in [0, 2): sign and, when inexact, the magnitude in units of 2^-400; else the exact 0 or 1. -/
def sinTurn (num den : Nat) : Bool × Sum Nat Nat :=
  let neg := decide (den ≤ num)
  let u := if neg then num - den else num
  let w := if den < 2 * u then den - u else u
  if w = 0 then (neg, .inr 0) else if 2 * w = den then (neg, .inr 1) else (neg, .inl (sinPi w den))

/-- FSIN: an integer gives a zero with the sign of a. (DEDUCED, log 24.) -/
def fsin (mode : Mode) (a : FV) : Nat × Flags :=
  match a with
  | .nan g => FF.f32.nan (if g then flagNV else 0)
  | .inf _ => FF.f32.nan flagNV
  | .fin n m d =>
    match sinTurn (m % (2 * d)) d with
    | (_, .inr 0) => (FF.f32.signed n 0, 0)
    | (g, .inr v) => FF.f32.round false mode (n != g) v 1 false
    | (g, .inl v) => roundScaled mode (n != g) v (-400)

/-- FCOS: an integer plus one half gives +0. (DEDUCED, log 24.) -/
def fcos (mode : Mode) (a : FV) : Nat × Flags :=
  match a with
  | .nan g => FF.f32.nan (if g then flagNV else 0)
  | .inf _ => FF.f32.nan flagNV
  | .fin _ m d =>
    -- cos(pi t) = sin(pi (t + 1/2))
    match sinTurn ((2 * m + d) % (4 * d)) (2 * d) with
    | (_, .inr 0) => (0, 0)
    | (g, .inr v) => FF.f32.round false mode g v 1 false
    | (g, .inl v) => roundScaled mode g v (-400)

/-- FRSQ and FSQRT. -/
def fsqrt (mode : Mode) (a : FV) : Nat × Flags :=
  match a with
  | .nan g => FF.f32.nan (if g then flagNV else 0)
  | .inf n => if n then FF.f32.nan flagNV else (FF.f32.infBits, 0)
  | .fin n m d => if m = 0 then (FF.f32.signed n 0, 0) else if n then FF.f32.nan flagNV else FF.f32.sqrtFrac mode m d
def frsq (mode : Mode) (a : FV) : Nat × Flags :=
  match a with
  | .nan g => FF.f32.nan (if g then flagNV else 0)
  | .inf n => if n then FF.f32.nan flagNV else (0, 0)
  | .fin n m d => if m = 0 then (FF.f32.signed n FF.f32.infBits, flagDZ) else if n then FF.f32.nan flagNV else FF.f32.sqrtFrac mode d m

/-- FRND (R186). -/
def frnd (mode : Mode) (x : Nat) : Nat × Flags :=
  match FF.f32.decode x with
  | .nan g => FF.f32.nan (if g then flagNV else 0)
  | .inf _ => (x, 0)
  | .fin n m d => FF.f32.round false .rne n (roundInt mode n m d false).1 1 false

end Sys2Proof.Machine
end

