-- ==== Sys2Proof/Machine/Float.lean ====
section
/-! DEFINITION. Float instructions (08 R181 to R188). -/
namespace Sys2Proof.Machine

/-- FB of either form and a negated source (08 R181): the sign bit inverted. -/
def negBit (b : BitVec 32) (n : Bool) : Nat := (if n then b ^^^ 0x80000000 else b).toNat
def outF (r : Nat × Flags) : FOut := { words := [BitVec.ofNat 32 r.1], preds := [], flags := r.2 }

/-- Shapes of the float forms. -/
def shF (len cls : Nat) (c : Ctl) (d : Field8) (reads : List Rd) : Shape :=
  { Shape.plain len c cls with reads := reads, writes := [{ reg := d, wid := .one }], traps := true }

def shF2 (o : OpF2) : Shape := shF 8 2 o.c o.d [Rd.of o.a .one, Rd.of o.b .one]
def shF2Imm (o : OpF2Imm) : Shape := shF 16 2 o.c o.d [Rd.of o.a .one]
def shF3 (o : OpF3) : Shape := shF 8 2 o.c o.d [Rd.of o.a .one, Rd.of o.b .one, Rd.of o.x .one]
def shF3Imm (o : OpF3Imm) : Shape := shF 16 2 o.c o.d [Rd.of o.a .one, Rd.of o.x .one]
def shF1 (cls : Nat) (o : OpF1) : Shape := shF 8 cls o.c o.d [Rd.of o.a .one]

/-- Two-operand, three-operand and one-operand f32 functions of patterns. -/
def runF2 (g : Mode → Nat → Nat → Nat × Flags) (o : OpF2) (s : State) : Out :=
  issueCompute (shF2 o)
    (fun e f => outF (g (o.rm.mode e.dyn) (negBit (e.r32 f o.a.reg) o.na) (negBit (e.r32 f o.b.reg) o.nb))) s
def runF2Imm (g : Mode → Nat → Nat → Nat × Flags) (o : OpF2Imm) (s : State) : Out :=
  issueCompute (shF2Imm o)
    (fun e f => outF (g (o.rm.mode e.dyn) (negBit (e.r32 f o.a.reg) o.na) (negBit o.imm o.nb))) s
def runF1 (cls : Nat) (g : Mode → Nat → Nat × Flags) (o : OpF1) (s : State) : Out :=
  issueCompute (shF1 cls o) (fun e f => outF (g (o.rm.mode e.dyn) (negBit (e.r32 f o.a.reg) o.na))) s

def f32v (x : Nat) : FV := FF.f32.decode x
def gAdd : Mode → Nat → Nat → Nat × Flags := fun m a b => FF.f32.add false m (f32v a) (f32v b)
def gSub : Mode → Nat → Nat → Nat × Flags := fun m a b => FF.f32.add false m (f32v a) (f32v b).negate
def gMul : Mode → Nat → Nat → Nat × Flags := fun m a b => FF.f32.mul false m (f32v a) (f32v b)
def gDiv : Mode → Nat → Nat → Nat × Flags := fun m a b => FF.f32.div false m (f32v a) (f32v b)
def gFma (m : Mode) (a b c : Nat) : Nat × Flags := FF.f32.fma false m (f32v a) (f32v b) (f32v c)
def gMin : Mode → Nat → Nat → Nat × Flags := fun _ a b => FF.f32.minmax false false a b
def gMax : Mode → Nat → Nat → Nat × Flags := fun _ a b => FF.f32.minmax false true a b
/-- FABS and FNEG (08 R184): the sign bit only; a NaN is canonicalised. -/
def gSign (g : Nat → Nat) : Mode → Nat → Nat × Flags := fun _ a => if (f32v a).isNan then FF.f32.nan (sigFlag [f32v a]) else (g a, 0)

def execFadd (o : OpF2) (s : State) : Out := runF2 gAdd o s
def execFaddImm32 (o : OpF2Imm) (s : State) : Out := runF2Imm gAdd o s
def execFsub (o : OpF2) (s : State) : Out := runF2 gSub o s
def execFsubImm32 (o : OpF2Imm) (s : State) : Out := runF2Imm gSub o s
def execFmul (o : OpF2) (s : State) : Out := runF2 gMul o s
def execFmulImm32 (o : OpF2Imm) (s : State) : Out := runF2Imm gMul o s
def execFdiv (o : OpF2) (s : State) : Out := runF2 gDiv o s
def execFdivImm32 (o : OpF2Imm) (s : State) : Out := runF2Imm gDiv o s
def execFmin (o : OpF2) (s : State) : Out := runF2 gMin o s
def execFminImm32 (o : OpF2Imm) (s : State) : Out := runF2Imm gMin o s
def execFmax (o : OpF2) (s : State) : Out := runF2 gMax o s
def execFmaxImm32 (o : OpF2Imm) (s : State) : Out := runF2Imm gMax o s
def execFfma (o : OpF3) (s : State) : Out :=
  issueCompute (shF3 o) (fun e f =>
    outF (gFma (o.rm.mode e.dyn) (negBit (e.r32 f o.a.reg) o.na) (negBit (e.r32 f o.b.reg) o.nb) (negBit (e.r32 f o.x.reg) o.nc))) s
def execFfmaImm32 (o : OpF3Imm) (s : State) : Out :=
  issueCompute (shF3Imm o) (fun e f =>
    outF (gFma (o.rm.mode e.dyn) (negBit (e.r32 f o.a.reg) o.na) (negBit o.imm o.nb) (negBit (e.r32 f o.x.reg) o.nc))) s
def execFabs (o : OpF1) (s : State) : Out := runF1 2 (gSign (fun a => a % 2 ^ 31)) o s
def execFneg (o : OpF1) (s : State) : Out := runF1 2 (gSign (fun a => a.xor (2 ^ 31))) o s
def execFrcp (o : OpF1) (s : State) : Out := runF1 3 (fun m a => FF.f32.div false m (.fin false 1 1) (f32v a)) o s
def execFrsq (o : OpF1) (s : State) : Out := runF1 3 (fun m a => frsq m (f32v a)) o s
def execFsqrt (o : OpF1) (s : State) : Out := runF1 3 (fun m a => fsqrt m (f32v a)) o s
def execFexp2 (o : OpF1) (s : State) : Out := runF1 3 (fun m a => fexp2 m (f32v a)) o s
def execFlog2 (o : OpF1) (s : State) : Out := runF1 3 (fun m a => flog2 m (f32v a)) o s
def execFsin (o : OpF1) (s : State) : Out := runF1 3 (fun m a => fsin m (f32v a)) o s
def execFcos (o : OpF1) (s : State) : Out := runF1 3 (fun m a => fcos m (f32v a)) o s
def execFrnd (o : OpF1) (s : State) : Out := runF1 2 frnd o s

/-- FCMP's test and its NV (08 R187). -/
def fcondHolds (c : FCond) (a b : FV) : Bool :=
  let o := !a.isNan && !b.isNan
  match c with
  | .eq => a.eqv b
  | .ne => !a.eqv b
  | .lt | .ltq => o && a.lt b
  | .le | .leq => o && !b.lt a
  | .gt | .gtq => o && b.lt a
  | .ge | .geq => o && !a.lt b
  | .un => !o
  | .ord => o
def fcondFlags (c : FCond) (a b : FV) : Flags :=
  let q := match c with
    | .lt | .le | .gt | .ge => (a.isNan || b.isNan)
    | _ => false
  if a.isSig || b.isSig || q then flagNV else 0
def fcmpOut (c : FCond) (k : Comb) (d : BitVec 4) (e : Env) (f a b : Nat) : FOut :=
  { words := [], preds := [combine' k (e.pred f d) (fcondHolds c (f32v a) (f32v b))], flags := fcondFlags c (f32v a) (f32v b) }
where
  combine' (c : Comb) (old t : Bool) : Bool :=
    match c with
    | .set => t
    | .and => old && t
    | .or => old || t
def fcmpShape (len : Nat) (c : Ctl) (k : Comb) (d : BitVec 4) (reads : List Rd) : Shape :=
  { Shape.plain len c 2 with reads := reads, psrc := (match k with | .set => [] | _ => [d]), pdst := [d], traps := true }
def shFcmp (o : OpFcmp) : Shape := fcmpShape 8 o.c o.comb o.d [Rd.of o.a .one, Rd.of o.b .one]
def shFcmpImm (o : OpFcmpImm) : Shape := fcmpShape 16 o.c o.comb o.d [Rd.of o.a .one]
def execFcmp (o : OpFcmp) (s : State) : Out :=
  issueCompute (shFcmp o) (fun e f =>
    fcmpOut o.cond o.comb o.d e f (negBit (e.r32 f o.a.reg) o.na) (negBit (e.r32 f o.b.reg) o.nb)) s
def execFcmpImm32 (o : OpFcmpImm) (s : State) : Out :=
  issueCompute (shFcmpImm o) (fun e f =>
    fcmpOut o.cond o.comb o.d e f (negBit (e.r32 f o.a.reg) o.na) (negBit o.imm o.nb)) s

/-- FCLASS (08 R188). -/
def fclassBit (x : Nat) : Nat :=
  let e := x / 2 ^ 23 % 256
  let t := x % 2 ^ 23
  let n := decide (2 ^ 31 ≤ x)
  if e = 255 then (if t = 0 then (if n then 0 else 7) else if t < 2 ^ 22 then 8 else 9)
  else if e = 0 then (if t = 0 then (if n then 3 else 4) else (if n then 2 else 5))
  else (if n then 1 else 6)
def execFclass (o : OpF1) (s : State) : Out :=
  issueCompute (shF1 2 o) (fun e f => outF (2 ^ fclassBit (e.r32 f o.a.reg).toNat, 0)) s

end Sys2Proof.Machine
end

