-- ==== Sys2Proof/Machine/Integer.lean ====
section
/-! DEFINITION. Integer and address instructions (07 R169 to R180). Operands are taken as exact integers of their type, the result is computed
exactly, clamped in a saturating form, and narrowed at the end. -/
namespace Sys2Proof.Machine

/-- w of a type; its signedness; its range (07 R151, R171). -/
def tyBits (ty : IntTy) : Nat := if ty.wide then 64 else 32
def tySigned : IntTy → Bool
  | .s32 | .s64 => true
  | _ => false
def tyLo (ty : IntTy) : Int := if tySigned ty then -(2 ^ (tyBits ty - 1) : Int) else 0
def tyHi (ty : IntTy) : Int := if tySigned ty then 2 ^ (tyBits ty - 1) - 1 else 2 ^ tyBits ty - 1

/-- The w-bit pattern an operand holds, as a number (07 R151). -/
def patReg (ty : IntTy) (e : Env) (f : Nat) (r : Field8) : Nat := if ty.wide then (e.r64 f r).toNat else (e.r32 f r).toNat
/-- IMM32 extended to w bits (05 R120). -/
def patImm (ty : IntTy) (imm : BitVec 32) : Nat :=
  if ty.wide then (if tySigned ty then (sext imm 64).toNat else imm.toNat) else imm.toNat
/-- The integer a pattern stands for in a type. -/
def intOf (ty : IntTy) (p : Nat) : Int := if tySigned ty && decide (2 ^ (tyBits ty - 1) ≤ p) then (p : Int) - 2 ^ tyBits ty else (p : Int)
/-- Csrc (07 R151). -/
def patC (ty : IntTy) (c : CSrc) (e : Env) (f : Nat) : Nat :=
  match c with
  | .reg s => patReg ty e f s.reg
  | .imm v => v.toNat

/-- A result narrowed to w bits (07 R169). -/
def outInt (ty : IntTy) (x : Int) : FOut :=
  if ty.wide then FOut.w64 (BitVec.ofInt 64 x) else FOut.w32 (BitVec.ofInt 32 x)
/-- The clamp of a saturating form (07 R171). -/
def clampTy (ty : IntTy) (sat : Bool) (x : Int) : Int := if !sat then x else if x < tyLo ty then tyLo ty else if tyHi ty < x then tyHi ty else x

/-- Shapes of the integer forms. -/
def shInt (len : Nat) (c : Ctl) (ty : IntTy) (d : Field8) (reads : List Rd) : Shape :=
  { Shape.plain len c 1 with reads := reads, writes := [{ reg := d, wid := tyWid ty }] }
def shInt1 (o : OpInt1) : Shape := shInt 8 o.c o.ty o.d [Rd.of o.a (tyWid o.ty)]
def shInt2 (o : OpInt2) : Shape := shInt 8 o.c o.ty o.d [Rd.of o.a (tyWid o.ty), Rd.of o.b (tyWid o.ty)]
def shInt2Imm (o : OpInt2Imm) : Shape := shInt 16 o.c o.ty o.d [Rd.of o.a (tyWid o.ty)]
def shInt3 (o : OpInt3) : Shape := shInt 8 o.c o.ty o.d ([Rd.of o.a (tyWid o.ty), Rd.of o.b (tyWid o.ty)] ++ cRds o.x (tyWid o.ty))
def shInt3Imm (o : OpInt3Imm) : Shape := shInt 16 o.c o.ty o.d (Rd.of o.a (tyWid o.ty) :: cRds o.x (tyWid o.ty))

/-- An operation on patterns of a type: one, two and three operands; the answer is the exact result (07 R170). -/
abbrev Int1 := IntTy → Nat → Int
abbrev Int2 := IntTy → Nat → Nat → Int
abbrev Int3 := IntTy → Nat → Nat → Nat → Int

def runInt1 (g : Int1) (o : OpInt1) (s : State) : Out :=
  issueCompute (shInt1 o) (fun e f => outInt o.ty (clampTy o.ty o.sat (g o.ty (patReg o.ty e f o.a.reg)))) s
def runInt2 (g : Int2) (o : OpInt2) (s : State) : Out :=
  issueCompute (shInt2 o) (fun e f => outInt o.ty (clampTy o.ty o.sat (g o.ty (patReg o.ty e f o.a.reg) (patReg o.ty e f o.b.reg)))) s
def runInt2Imm (g : Int2) (o : OpInt2Imm) (s : State) : Out :=
  issueCompute (shInt2Imm o) (fun e f => outInt o.ty (clampTy o.ty o.sat (g o.ty (patReg o.ty e f o.a.reg) (patImm o.ty o.imm)))) s
def runInt3 (g : Int3) (o : OpInt3) (s : State) : Out :=
  issueCompute (shInt3 o) (fun e f =>
    outInt o.ty (clampTy o.ty o.sat (g o.ty (patReg o.ty e f o.a.reg) (patReg o.ty e f o.b.reg) (patC o.ty o.x e f)))) s
def runInt3Imm (g : Int3) (o : OpInt3Imm) (s : State) : Out :=
  issueCompute (shInt3Imm o) (fun e f =>
    outInt o.ty (clampTy o.ty o.sat (g o.ty (patReg o.ty e f o.a.reg) (patImm o.ty o.imm) (patC o.ty o.x e f)))) s

/-! ### The exact results (07 R170 to R175) -/

def opAdd : Int2 := fun ty a b => intOf ty a + intOf ty b
def opAdd3 : Int3 := fun ty a b c => intOf ty a + intOf ty b + intOf ty c
def opSub : Int2 := fun ty a b => intOf ty a - intOf ty b
def opMul : Int2 := fun ty a b => intOf ty a * intOf ty b
/-- floor(a b / 2^w). -/
def opMulh : Int2 := fun ty a b => (intOf ty a * intOf ty b) / (2 ^ tyBits ty : Int)
def opMad : Int3 := fun ty a b c => intOf ty a * intOf ty b + intOf ty c
/-- IDIV truncates toward zero; a zero divisor gives all ones (07 R173). -/
def opDiv : Int2 := fun ty a b => if b = 0 then (if tySigned ty then -1 else tyHi ty) else (intOf ty a).tdiv (intOf ty b)
def opRem : Int2 := fun ty a b => if b = 0 then intOf ty a else (intOf ty a).tmod (intOf ty b)
def opMin : Int2 := fun ty a b => if intOf ty b < intOf ty a then intOf ty b else intOf ty a
def opMax : Int2 := fun ty a b => if intOf ty a < intOf ty b then intOf ty b else intOf ty a
def opAbs : Int1 := fun ty a => ((intOf ty a).natAbs : Int)
def opNeg : Int1 := fun ty a => -(intOf ty a)
def opSad : Int3 := fun ty a b c => ((intOf ty a - intOf ty b).natAbs : Int) + intOf ty c
def opAnd : Int2 := fun _ a b => (Nat.land a b : Nat)
def opOr : Int2 := fun _ a b => (Nat.lor a b : Nat)
def opXor : Int2 := fun _ a b => (Nat.xor a b : Nat)
def opNot : Int1 := fun ty a => (2 ^ tyBits ty - 1 - a : Nat)
/-- The number with the bits g i for i < n. -/
def bitsFrom (g : Nat → Bool) : Nat → Nat
  | 0 => 0
  | n + 1 => bitsFrom g n + (if g n then 2 ^ n else 0)
/-- LOP3: bit i is the bit of the truth table that a, b and c select (07 R170). -/
def opLop3 (lut : BitVec 8) : Int3 := fun ty a b c =>
  (bitsFrom (fun i => lut.getLsbD ((if a.testBit i then 4 else 0) + (if b.testBit i then 2 else 0) + (if c.testBit i then 1 else 0))) (tyBits ty) : Nat)
/-- Shifts by bits 31:0 of the B source, unsigned (07 R174). -/
def opShl : Int2 := fun ty a b => let n := b % 2 ^ 32; if n < tyBits ty then (a * 2 ^ n : Nat) else 0
def opShr : Int2 := fun ty a b => let n := b % 2 ^ 32; if n < tyBits ty then (a / 2 ^ n : Nat) else 0
def opSra : Int2 := fun ty a b =>
  let n := Nat.min (b % 2 ^ 32) (tyBits ty)
  (if 2 ^ (tyBits ty - 1) ≤ a then (a : Int) - 2 ^ tyBits ty else (a : Int)) / (2 ^ n : Int)
def opRotl : Int2 := fun ty a b => let n := b % 2 ^ 32 % tyBits ty; (a * 2 ^ n + a / 2 ^ (tyBits ty - n) : Nat)
/-- BFE (07 R175). -/
def opBfe : Int2 := fun ty a b =>
  let w := tyBits ty
  let pos := b % 256
  let len := Nat.min (b / 256 % 256) w
  if len = 0 then 0
  else
    let y := bitsFrom (fun i => if pos + i < w then a.testBit (pos + i) else tySigned ty && a.testBit (w - 1)) len
    if tySigned ty && y.testBit (len - 1) then (y : Int) - 2 ^ len else (y : Int)
/-- BFI (07 R175). -/
def opBfi : Int3 := fun ty a b c =>
  let w := tyBits ty
  let pos := b % 256
  let len := Nat.min (b / 256 % 256) w
  (bitsFrom (fun i => if pos ≤ i ∧ i < pos + len then a.testBit (i - pos) else c.testBit i) w : Nat)
def opPopc : Int1 := fun ty a => (((upTo 0 (tyBits ty)).filter a.testBit).length : Nat)
def opClz : Int1 := fun ty a => (if a = 0 then tyBits ty else tyBits ty - 1 - Nat.log2 a : Nat)
def opCtz : Int1 := fun ty a => (((upTo 0 (tyBits ty)).find? a.testBit).getD (tyBits ty) : Nat)
def opBrev : Int1 := fun ty a => (bitsFrom (fun i => a.testBit (tyBits ty - 1 - i)) (tyBits ty) : Nat)
def opMov : Int1 := fun ty a => intOf ty a

/-! ### The meanings -/

def execIadd (o : OpInt2) (s : State) : Out := runInt2 opAdd o s
def execIaddImm32 (o : OpInt2Imm) (s : State) : Out := runInt2Imm opAdd o s
def execIsub (o : OpInt2) (s : State) : Out := runInt2 opSub o s
def execIsubImm32 (o : OpInt2Imm) (s : State) : Out := runInt2Imm opSub o s
def execImul (o : OpInt2) (s : State) : Out := runInt2 opMul o s
def execImulImm32 (o : OpInt2Imm) (s : State) : Out := runInt2Imm opMul o s
def execImulh (o : OpInt2) (s : State) : Out := runInt2 opMulh o s
def execImulhImm32 (o : OpInt2Imm) (s : State) : Out := runInt2Imm opMulh o s
def execIdiv (o : OpInt2) (s : State) : Out := runInt2 opDiv o s
def execIdivImm32 (o : OpInt2Imm) (s : State) : Out := runInt2Imm opDiv o s
def execIrem (o : OpInt2) (s : State) : Out := runInt2 opRem o s
def execIremImm32 (o : OpInt2Imm) (s : State) : Out := runInt2Imm opRem o s
def execImin (o : OpInt2) (s : State) : Out := runInt2 opMin o s
def execIminImm32 (o : OpInt2Imm) (s : State) : Out := runInt2Imm opMin o s
def execImax (o : OpInt2) (s : State) : Out := runInt2 opMax o s
def execImaxImm32 (o : OpInt2Imm) (s : State) : Out := runInt2Imm opMax o s
def execAnd (o : OpInt2) (s : State) : Out := runInt2 opAnd o s
def execAndImm32 (o : OpInt2Imm) (s : State) : Out := runInt2Imm opAnd o s
def execOr (o : OpInt2) (s : State) : Out := runInt2 opOr o s
def execOrImm32 (o : OpInt2Imm) (s : State) : Out := runInt2Imm opOr o s
def execXor (o : OpInt2) (s : State) : Out := runInt2 opXor o s
def execXorImm32 (o : OpInt2Imm) (s : State) : Out := runInt2Imm opXor o s
def execShl (o : OpInt2) (s : State) : Out := runInt2 opShl o s
def execShlImm32 (o : OpInt2Imm) (s : State) : Out := runInt2Imm opShl o s
def execShr (o : OpInt2) (s : State) : Out := runInt2 opShr o s
def execShrImm32 (o : OpInt2Imm) (s : State) : Out := runInt2Imm opShr o s
def execSra (o : OpInt2) (s : State) : Out := runInt2 opSra o s
def execSraImm32 (o : OpInt2Imm) (s : State) : Out := runInt2Imm opSra o s
def execRotl (o : OpInt2) (s : State) : Out := runInt2 opRotl o s
def execRotlImm32 (o : OpInt2Imm) (s : State) : Out := runInt2Imm opRotl o s
def execBfe (o : OpInt2) (s : State) : Out := runInt2 opBfe o s
def execBfeImm32 (o : OpInt2Imm) (s : State) : Out := runInt2Imm opBfe o s
def execIadd3 (o : OpInt3) (s : State) : Out := runInt3 opAdd3 o s
def execImad (o : OpInt3) (s : State) : Out := runInt3 opMad o s
def execImadImm32 (o : OpInt3Imm) (s : State) : Out := runInt3Imm opMad o s
def execIsad (o : OpInt3) (s : State) : Out := runInt3 opSad o s
def execIsadImm32 (o : OpInt3Imm) (s : State) : Out := runInt3Imm opSad o s
def execBfi (o : OpInt3) (s : State) : Out := runInt3 opBfi o s
def execBfiImm32 (o : OpInt3Imm) (s : State) : Out := runInt3Imm opBfi o s
def execIabs (o : OpInt1) (s : State) : Out := runInt1 opAbs o s
def execIneg (o : OpInt1) (s : State) : Out := runInt1 opNeg o s
def execNot (o : OpInt1) (s : State) : Out := runInt1 opNot o s
def execPopc (o : OpInt1) (s : State) : Out := runInt1 opPopc o s
def execClz (o : OpInt1) (s : State) : Out := runInt1 opClz o s
def execCtz (o : OpInt1) (s : State) : Out := runInt1 opCtz o s
def execBrev (o : OpInt1) (s : State) : Out := runInt1 opBrev o s
def execMov (o : OpInt1) (s : State) : Out := runInt1 opMov o s

def shLop3 (o : OpLop3) : Shape := shInt 8 o.c o.ty o.d ([Rd.of o.a (tyWid o.ty), Rd.of o.b (tyWid o.ty)] ++ cRds o.x (tyWid o.ty))
def shLop3Imm (o : OpLop3Imm) : Shape := shInt 16 o.c o.ty o.d (Rd.of o.a (tyWid o.ty) :: cRds o.x (tyWid o.ty))
def execLop3 (o : OpLop3) (s : State) : Out :=
  issueCompute (shLop3 o)
    (fun e f => outInt o.ty (opLop3 o.lut o.ty (patReg o.ty e f o.a.reg) (patReg o.ty e f o.b.reg) (patC o.ty o.x e f))) s
def execLop3Imm32 (o : OpLop3Imm) (s : State) : Out :=
  issueCompute (shLop3Imm o)
    (fun e f => outInt o.ty (opLop3 o.lut o.ty (patReg o.ty e f o.a.reg) (patImm o.ty o.imm) (patC o.ty o.x e f))) s

/-- IADDC (07 R172): unsigned sum with the carry-in predicate; 15 means a carry-in of 0. -/
def addc (ty : IntTy) (pci : BitVec 4) (a b : Nat) (e : Env) (f : Nat) : FOut :=
  let t := a + b + (if pci != 15 && e.pred f pci then 1 else 0)
  { outInt ty (t : Int) with preds := [t.testBit (tyBits ty)] }
/-- PCI as a predicate source. -/
def pciSrc (pci : BitVec 4) : List (BitVec 4) := if pci = 15 then [] else [pci]
def shAddc (o : OpAddc) : Shape := { shInt 8 o.c o.ty o.d [Rd.of o.a (tyWid o.ty), Rd.of o.b (tyWid o.ty)] with psrc := pciSrc o.pci, pdst := [o.pco] }
def shAddcImm (o : OpAddcImm) : Shape := { shInt 16 o.c o.ty o.d [Rd.of o.a (tyWid o.ty)] with psrc := pciSrc o.pci, pdst := [o.pco] }
def execIaddc (o : OpAddc) (s : State) : Out :=
  issueCompute (shAddc o)
    (fun e f => addc o.ty o.pci (patReg o.ty e f o.a.reg) (patReg o.ty e f o.b.reg) e f) s
def execIaddcImm32 (o : OpAddcImm) (s : State) : Out :=
  issueCompute (shAddcImm o)
    (fun e f => addc o.ty o.pci (patReg o.ty e f o.a.reg) (patImm o.ty o.imm) e f) s

/-- SEL (07 R177). -/
def shSel (o : OpSel) : Shape := { shInt 8 o.c o.ty o.d [Rd.of o.a (tyWid o.ty), Rd.of o.b (tyWid o.ty)] with psrc := [o.ps] }
def shSelImm (o : OpSelImm) : Shape := { shInt 16 o.c o.ty o.d [Rd.of o.a (tyWid o.ty)] with psrc := [o.ps] }
def execSel (o : OpSel) (s : State) : Out :=
  issueCompute (shSel o)
    (fun e f => outInt o.ty (if e.pred f o.ps != o.pn then (patReg o.ty e f o.a.reg : Int) else (patReg o.ty e f o.b.reg : Int))) s
def execSelImm32 (o : OpSelImm) (s : State) : Out :=
  issueCompute (shSelImm o)
    (fun e f => outInt o.ty (if e.pred f o.ps != o.pn then (patReg o.ty e f o.a.reg : Int) else (patImm o.ty o.imm : Int))) s

/-- MOVI (07 R176). -/
def shMovi (o : OpMoviImm) : Shape := shInt 16 o.c o.ty o.d []
def shMoviX (o : OpMoviX) : Shape := shInt 16 o.c (if o.z then .z64 else .s64) o.d []
def execMoviImm32 (o : OpMoviImm) (s : State) : Out :=
  issueCompute (shMovi o) (fun _ _ => outInt o.ty (patImm o.ty o.imm : Int)) s
def execMoviX64 (o : OpMoviX) (s : State) : Out :=
  issueCompute (shMoviX o) (fun _ _ => FOut.w64 o.x) s

/-- MOVW (07 R176): a quarter of D is replaced; D is read as a source. -/
def shMovw (o : OpMovw) : Shape := shInt 8 o.c o.ty o.d [{ reg := o.d, wid := tyWid o.ty, last := false }]
def execMovw (o : OpMovw) (s : State) : Out :=
  issueCompute (shMovw o) (fun e f =>
    if o.ty.wide then FOut.w64 (setBits (e.r64 f o.d) (16 * o.k.toNat) o.imm) else FOut.w32 (setBits (e.r32 f o.d) (16 * o.k.toNat) o.imm)) s

/-- LEA (07 R178): D and A are 64 bits; TY gives the index's type. -/
def leaOut (a : BitVec 64) (b : Int) (sh : BitVec 3) : FOut := FOut.w64 (a + BitVec.ofInt 64 (b * 2 ^ sh.toNat))
def shLea (o : OpLea) : Shape := shInt 8 o.c .z64 o.d [Rd.of o.a .two, Rd.of o.b (tyWid o.ty)]
def shLeaImm (o : OpLeaImm) : Shape := shInt 16 o.c .z64 o.d [Rd.of o.a .two]
def execLea (o : OpLea) (s : State) : Out :=
  issueCompute (shLea o)
    (fun e f => leaOut (e.r64 f o.a.reg) (intOf o.ty (patReg o.ty e f o.b.reg)) o.sh) s
def execLeaImm32 (o : OpLeaImm) (s : State) : Out :=
  issueCompute (shLeaImm o)
    (fun e f => leaOut (e.r64 f o.a.reg) (intOf o.ty (patImm o.ty o.imm)) o.sh) s

/-- ICMP (07 R179). -/
def condHolds (c : Cond) (a b : Int) : Bool :=
  match c with
  | .eq => a == b
  | .ne => a != b
  | .lt => decide (a < b)
  | .le => decide (a ≤ b)
  | .gt => decide (b < a)
  | .ge => decide (b ≤ a)
def combine (c : Comb) (old t : Bool) : Bool :=
  match c with
  | .set => t
  | .and => old && t
  | .or => old || t
/-- The predicate that a combining compare also reads. -/
def combSrc (c : Comb) (d : BitVec 4) : List (BitVec 4) :=
  match c with
  | .set => []
  | _ => [d]
def shIcmp (o : OpIcmp) : Shape :=
  { Shape.plain 8 o.c 1 with reads := [Rd.of o.a (tyWid o.ty), Rd.of o.b (tyWid o.ty)], psrc := combSrc o.comb o.d, pdst := [o.d] }
def shIcmpImm (o : OpIcmpImm) : Shape := { Shape.plain 16 o.c 1 with reads := [Rd.of o.a (tyWid o.ty)], psrc := combSrc o.comb o.d, pdst := [o.d] }
def execIcmp (o : OpIcmp) (s : State) : Out :=
  issueCompute (shIcmp o)
    (fun e f => .p (combine o.comb (e.pred f o.d) (condHolds o.cond (intOf o.ty (patReg o.ty e f o.a.reg)) (intOf o.ty (patReg o.ty e f o.b.reg))))) s
def execIcmpImm32 (o : OpIcmpImm) (s : State) : Out :=
  issueCompute (shIcmpImm o)
    (fun e f => .p (combine o.comb (e.pred f o.d) (condHolds o.cond (intOf o.ty (patReg o.ty e f o.a.reg)) (intOf o.ty (patImm o.ty o.imm))))) s

end Sys2Proof.Machine
end

