-- ==== Sys2Proof/Machine/Packed.lean ====
section
/-! DEFINITION. Packed instructions (08 R189, R190). -/
namespace Sys2Proof.Machine

/-- Two element results joined (04 R92). -/
def outPair (r : Nat → Nat × Flags) : FOut :=
  { words := [BitVec.ofNat 16 (r 1).1 ++ BitVec.ofNat 16 (r 0).1], preds := [], flags := (r 0).2 ||| (r 1).2 }
/-- Element e of a pattern as a number. -/
def elN (x : BitVec 32) (e : Nat) : Nat := (el x e).toNat

/-- PT of the H forms (08 R189). -/
def ptFF (pt : Bool) : FF := if pt then .bf16 else .f16
/-- A float operation on two elements: subnormal inputs and tiny results are flushed in bf16 (04 R100). -/
abbrev H2 := Bool → Mode → Nat → Nat → Nat × Flags
def hAdd : H2 := fun pt m a b => (ptFF pt).add pt m ((ptFF pt).decodeFlush a) ((ptFF pt).decodeFlush b)
def hMul : H2 := fun pt m a b => (ptFF pt).mul pt m ((ptFF pt).decodeFlush a) ((ptFF pt).decodeFlush b)
def hMin : H2 := fun pt _ a b => (ptFF pt).minmax pt false a b
def hMax : H2 := fun pt _ a b => (ptFF pt).minmax pt true a b
def hFma (pt : Bool) (m : Mode) (a b c : Nat) : Nat × Flags :=
  (ptFF pt).fma pt m ((ptFF pt).decodeFlush a) ((ptFF pt).decodeFlush b) ((ptFF pt).decodeFlush c)

/-- PT of the V forms: 0 s16, 1 z16; a 16-bit element as an integer; a result with wrap or clamp (08 R189). -/
def vInt (pt : Bool) (a : Nat) : Int := if !pt && decide (2 ^ 15 ≤ a) then (a : Int) - 2 ^ 16 else (a : Int)
def vOut (pt sat : Bool) (x : Int) : Nat × Flags :=
  let lo : Int := if pt then 0 else -32768
  let hi : Int := if pt then 65535 else 32767
  let c := if x < lo then lo else if hi < x then hi else x
  if sat then (wrapBits 16 c, if c = x then 0 else flagSAT) else (wrapBits 16 x, 0)
abbrev V2 := Bool → Bool → Nat → Nat → Nat × Flags
def vAdd : V2 := fun pt sat a b => vOut pt sat (vInt pt a + vInt pt b)
def vSub : V2 := fun pt sat a b => vOut pt sat (vInt pt a - vInt pt b)
def vMin : V2 := fun pt _ a b => (if vInt pt b < vInt pt a then b else a, 0)
def vMax : V2 := fun pt _ a b => (if vInt pt a < vInt pt b then b else a, 0)

def shP (len : Nat) (c : Ctl) (d : Field8) (reads : List Rd) : Shape :=
  { Shape.plain len c 4 with reads := reads, writes := [{ reg := d, wid := .one }], traps := true }
def shP2 (o : OpP2) : Shape := shP 8 o.c o.d [Rd.of o.a .one, Rd.of o.b .one]
def shP2Imm (o : OpP2Imm) : Shape := shP 16 o.c o.d [Rd.of o.a .one]
def shP3 (o : OpP3) : Shape := shP 8 o.c o.d [Rd.of o.a .one, Rd.of o.b .one, Rd.of o.x .one]
def shP3Imm (o : OpP3Imm) : Shape := shP 16 o.c o.d [Rd.of o.a .one, Rd.of o.x .one]
def runH (g : H2) (o : OpP2) (s : State) : Out :=
  issueCompute (shP2 o) (fun e f =>
    outPair (fun i => g o.pt (o.rm.mode e.dyn) (elN (e.r32 f o.a.reg) i) (elN (e.r32 f o.b.reg) i))) s
def runHImm (g : H2) (o : OpP2Imm) (s : State) : Out :=
  issueCompute (shP2Imm o) (fun e f =>
    outPair (fun i => g o.pt (o.rm.mode e.dyn) (elN (e.r32 f o.a.reg) i) (elN o.imm i))) s
def runV (g : V2) (o : OpP2) (s : State) : Out :=
  issueCompute (shP2 o) (fun e f =>
    outPair (fun i => g o.pt o.sat (elN (e.r32 f o.a.reg) i) (elN (e.r32 f o.b.reg) i))) s
def runVImm (g : V2) (o : OpP2Imm) (s : State) : Out :=
  issueCompute (shP2Imm o) (fun e f =>
    outPair (fun i => g o.pt o.sat (elN (e.r32 f o.a.reg) i) (elN o.imm i))) s

def execHadd2 (o : OpP2) (s : State) : Out := runH hAdd o s
def execHadd2Imm32 (o : OpP2Imm) (s : State) : Out := runHImm hAdd o s
def execHmul2 (o : OpP2) (s : State) : Out := runH hMul o s
def execHmul2Imm32 (o : OpP2Imm) (s : State) : Out := runHImm hMul o s
def execHmin2 (o : OpP2) (s : State) : Out := runH hMin o s
def execHmin2Imm32 (o : OpP2Imm) (s : State) : Out := runHImm hMin o s
def execHmax2 (o : OpP2) (s : State) : Out := runH hMax o s
def execHmax2Imm32 (o : OpP2Imm) (s : State) : Out := runHImm hMax o s
def execHfma2 (o : OpP3) (s : State) : Out :=
  issueCompute (shP3 o) (fun e f =>
    outPair (fun i => hFma o.pt (o.rm.mode e.dyn) (elN (e.r32 f o.a.reg) i) (elN (e.r32 f o.b.reg) i) (elN (e.r32 f o.x.reg) i))) s
def execHfma2Imm32 (o : OpP3Imm) (s : State) : Out :=
  issueCompute (shP3Imm o) (fun e f =>
    outPair (fun i => hFma o.pt (o.rm.mode e.dyn) (elN (e.r32 f o.a.reg) i) (elN o.imm i) (elN (e.r32 f o.x.reg) i))) s
def execVadd2 (o : OpP2) (s : State) : Out := runV vAdd o s
def execVadd2Imm32 (o : OpP2Imm) (s : State) : Out := runVImm vAdd o s
def execVsub2 (o : OpP2) (s : State) : Out := runV vSub o s
def execVsub2Imm32 (o : OpP2Imm) (s : State) : Out := runVImm vSub o s
def execVmin2 (o : OpP2) (s : State) : Out := runV vMin o s
def execVmin2Imm32 (o : OpP2Imm) (s : State) : Out := runVImm vMin o s
def execVmax2 (o : OpP2) (s : State) : Out := runV vMax o s
def execVmax2Imm32 (o : OpP2Imm) (s : State) : Out := runVImm vMax o s

/-- One element of ACS2 (08 R190): the selected sum, whether the second was taken, whether a clamp acted. -/
def acsElem (max : Bool) (a b1 c b2 : Nat) : Nat × Bool × Bool :=
  let clamp := fun (x : Int) => if x < -32768 then (-32768 : Int) else if 32767 < x then 32767 else x
  let x1 := vInt false a + vInt false b1
  let x2 := vInt false c + vInt false b2
  let take2 := if max then decide (clamp x1 < clamp x2) else decide (clamp x2 < clamp x1)
  (wrapBits 16 (if take2 then clamp x2 else clamp x1), take2, clamp x1 != x1 || clamp x2 != x2)
def shAcs2 (o : OpAcs2) : Shape := { shP 8 o.c o.d [Rd.of o.a .one, Rd.of o.b .one, Rd.of o.x .one] with pdst := [o.pd0, o.pd1] }
def execAcs2 (o : OpAcs2) (s : State) : Out :=
  issueCompute (shAcs2 o) (fun e f =>
    let r := fun (i : Nat) => acsElem o.max (elN (e.r32 f o.a.reg) i) (elN (e.r32 f o.b.reg) i) (elN (e.r32 f o.x.reg) i)
      (elN (e.r32 f o.b.reg) (if o.swb then 1 - i else i))
    { words := [BitVec.ofNat 16 (r 1).1 ++ BitVec.ofNat 16 (r 0).1], preds := [(r 0).2.1, (r 1).2.1],
      flags := if (r 0).2.2 || (r 1).2.2 then flagSAT else 0 }) s

end Sys2Proof.Machine
end

