-- ==== Sys2Proof/Machine/Predicate.lean ====
section
/-! DEFINITION. Predicate instructions (07 R166 to R168). -/
namespace Sys2Proof.Machine

/-- The predicates of a 15-bit mask, ascending. -/
def maskPreds (m : BitVec 15) : List (BitVec 4) := ((upTo 0 15).filter (fun i => m.getLsbD i)).map (fun i => BitVec.ofNat 4 i)

/-- PSET with a mask that may differ by fibre (07 R166): every predicate listed takes its masked value
or keeps its own. -/
def psetValue (a : Src) (all : List (BitVec 4)) (mask : Env → Nat → BitVec 15) (e : Env) (f : Nat) : FOut :=
  { words := [], preds := all.map (fun p => if (mask e f).getLsbD p.toNat then (e.r32 f a.reg).getLsbD p.toNat else e.pred f p), flags := 0 }
/-- All fifteen predicates. -/
def allPreds : List (BitVec 4) := maskPreds (BitVec.allOnes 15)
def shPset (o : OpPset) : Shape := { Shape.plain 8 o.c 5 with reads := [Rd.of o.a .one, Rd.of o.b .one], psrc := allPreds, pdst := allPreds }
def shPsetImm (o : OpPsetImm) : Shape := { Shape.plain 16 o.c 5 with reads := [Rd.of o.a .one], pdst := maskPreds o.mask }

def execPset (o : OpPset) (s : State) : Out := issueCompute (shPset o) (psetValue o.a allPreds (fun e f => bits (e.r32 f o.b.reg) 0 15)) s
def execPsetImm32 (o : OpPsetImm) (s : State) : Out := issueCompute (shPsetImm o) (psetValue o.a (maskPreds o.mask) (fun _ _ => o.mask)) s

/-- PLOP (07 R168): the bit of LUT that the three predicates select. -/
def shPlop (o : OpPlop) : Shape := { Shape.plain 8 o.c 5 with psrc := [o.a, o.b, o.x], pdst := [o.d] }
def execPlop (o : OpPlop) (s : State) : Out :=
  issueCompute (shPlop o) (fun e f =>
    let i := (if e.pred f o.a then 4 else 0) + (if e.pred f o.b then 2 else 0) + (if e.pred f o.x then 1 else 0)
    .p (o.lut.getLsbD i)) s

/-- PMOV to a register (07 R167): the predicate word with bit 15 set. -/
def shPmov (o : OpD) : Shape := { Shape.plain 8 o.c 5 with writes := [{ reg := o.d, wid := .one }], psrc := allPreds }
def execPmov (o : OpD) (s : State) : Out :=
  issueCompute (shPmov o) (fun e f =>
    .w32 (allPreds.foldl (fun (acc : BitVec 32) p => if e.pred f p then acc ||| BitVec.ofNat 32 (2 ^ p.toNat) else acc) 0x8000)) s

/-- PMOV of an immediate under a mask (07 R167). -/
def shPmovImm (o : OpPmovImm) : Shape := { Shape.plain 16 o.c 5 with pdst := maskPreds o.mask }
def execPmovImm32 (o : OpPmovImm) (s : State) : Out :=
  issueCompute (shPmovImm o) (fun _ _ =>
    { words := [], preds := (maskPreds o.mask).map (fun p => o.val.getLsbD p.toNat), flags := 0 }) s

end Sys2Proof.Machine
end

