-- ==== Sys2Proof/Machine/Registers.lean ====
section
/-! DEFINITION. Writes of registers by the host, the VD's driver and CP firmware (00 R6; 17 R389 to R391), CTX_SCHED with a new weight. -/
namespace Sys2Proof.Machine

/-- CTX_SCHED_WEIGHT (15 R333): V under the old weight up to now, then the new weight. -/
def execCtxSchedWeight (vd ctx : Nat) (value : BitVec 64) (s : State) : Out := answering s (ctxWrite s vd ctx 0x201 value)

/-- The selectors that a context's descriptor holds (17 R391). -/
def descriptorSels : List Nat := [0x100, 0x101, 0x102, 0x103, 0x200, 0x201, 0x203, 0x204, 0x011, 0x00D, 0x001]

/-- W1C: each 1 clears its bit. -/
def w1c (old value mask : BitVec 64) : BitVec 64 := old &&& ~~~(value &&& mask)

/-- CPR_QSLOT (15 R332): mapping sets MAPPED in the descriptor, unmapping clears it; a slot software writes is no longer one to be mapped again (14 R312). -/
def qslotWrite (s : State) (n : Nat) (value : BitVec 64) : State :=
  let old := mget s.cp.qslot n
  let v := value &&& ~~~0x3E
  let desc := fun (w : BitVec 64) => (bits w 6 58).toNat * 64
  let s1 := if old.getLsbD 0 then setDescFlag s (desc old) 1 false else s
  let s2 : State := { s1 with
    cp := { s1.cp with qslot := mset s1.cp.qslot n v },
    vds := s1.vds.map (fun u => { u with unmapped := u.unmapped.filter (fun k => k != n) }) }
  if v.getLsbD 0 then setDescFlag s2 (desc v) 1 true else s2

/-- FAB_RXQ (17 R394): the quota that FAB_RXQSEL selects; refused when the quotas would leave less than 1,024 flits, or management less than 256. (DEDUCED, log 102.) -/
def rxqWrite (s : State) (port : Nat) (value : BitVec 64) : State :=
  let n := (mget s.fab.rxqsel port).toNat
  let others := (((upTo 0 17).filter (fun k => k != n)).map (quotaOf s port)).foldl (fun a m => a + m) 0
  if 36 ≤ port ∨ 8192 - 1024 < others + value.toNat ∨ (n = 16 ∧ value.toNat < 256) then s
  else { s with fab := { s.fab with rxq := mset s.fab.rxq (32 * port + n) value } }

/-- FAB_GRP (17 R426): the word that FAB_GRPSEL selects; the bit of the package itself keeps reading 1. A package that joins is sent FAB_MYCAP (R383). -/
def grpWrite (s : State) (value : BitVec 64) : State :=
  let n := s.fab.grpsel.toNat
  let own : BitVec 64 := if ownPkg s / 64 = n then BitVec.ofNat 64 (2 ^ (ownPkg s % 64)) else 0
  { s with fab := { s.fab with grp := mset s.fab.grp n (value &&& ~~~own) }, sent := s.sent ++ [.myCap] }

/-- Registers of a VD; those that the host writes are read-only to the VD's own driver (17 R389). (DEDUCED, log 75; DEDUCED, log 103.) -/
def vdRegWrite (s : State) (fm : Bool) (value : BitVec 64) : RegName → Option State
  | .vdSave n => some (updVd s n (fun v => { v with save := value }))
  | .vdMem n => some (if fm then updVd s n (fun v => { v with mem := value &&& 0x0FFFFFFFC0000000 }) else s)
  | .vdS2base n => some (if fm then startInv (updVd s n (fun v => { v with s2base := value &&& 0x000FFFFFFFFFF000 })) n true none 0 none false else s)
  | .vdInvaddr n => some (updVd s n (fun v => { v with invaddr := value }))
  | .vdInvlen n => some (updVd s n (fun v => { v with invlen := value }))
  | .vdDlog n =>
    let k := Nat.max 8 (bits value 8 4).toNat
    some (updVd s n (fun v => { v with dlog := { v.dlog with cfg := (value &&& 0xFFFFFFFFFFFFF001) ||| BitVec.ofNat 64 (k * 256) } }))
  | .vdDlogHead n => some (updVd s n (fun v => { v with dlog := { v.dlog with head := value } }))
  | .vdErrq n => some (updVd s n (fun v => { v with errq := { v.errq with cfg := ringWord value } }))
  | .vdErrqHead n => some (updVd s n (fun v => { v with errq := { v.errq with head := value } }))
  | .vdBte n =>
    let m := (bits (vdOf s n).btesel 0 3).toNat
    let rate := (bits value 32 32).toNat
    let b := bteOf s n m
    some (setBte s n { b with rate := rate, lvl := if (rate : Int) < b.lvl then (rate : Int) else b.lvl })
  | .vdBtesel n => some (updVd s n (fun v => { v with btesel := value &&& 7 }))
  | .bktVdRefill n => some (if fm then updVd s n (fun v => { v with bkt := { v.bkt with refill := value } }) else s)
  | .bktVdCeil n => some (if fm then updVd s n (fun v => { v with bkt := { v.bkt with ceil := value } }) else s)
  | .vdMtrcfg n => some (if fm then updVd s n (fun v => { v with mtrcfg := value &&& ~~~0xFF }) else s)
  | .vdMtrivl n => some (if fm then updVd s n (fun v => { v with mtrivl := BitVec.ofNat 64 (Nat.max 100 (bits value 0 14).toNat) }) else s)
  | .vdMtrack n => some (if fm then updVd s n (fun v => { v with mtrack := value }) else s)
  | .ctxSel n c sel => some (if descriptorSels.contains sel.toNat && (ctx? s n c).isSome then ctxWrite s n c sel.toNat value else s)
  | .ctxPriv n c => some (ctxStateWrite s n c value)
  | .bktCtxRefill n c => some (updCtx s n c (fun x => { x with bkt := { x.bkt with refill := value } }))
  | .bktCtxCeil n c => some (updCtx s n c (fun x => { x with bkt := { x.bkt with ceil := value } }))
  | _ => none

/-- Registers of BAR2, which only the FM-owned logical device reaches, and what CP firmware sets (17 R389). (DEDUCED, log 75; DEDUCED, log 94.) -/
def bar2Write (s : State) (value : BitVec 64) : RegName → State
  | .millJceil m => updMill s m (fun x => { x with jceil := value })
  | .millSched m => updMill s m (fun x => { x with sched := value })
  | .millArraywd m => updMill s m (fun x => { x with arraywd := value &&& 0xFFFFFFFF })
  | .millSpare m => updMill s m (fun x => { x with spare := (x.spare &&& 7) ||| (value &&& 0xFF00) })
  | .millMargin m => updMill s m (fun x => { x with margin := w1c x.margin value 0x3FF })
  | .millMarginth m => updMill s m (fun x => { x with marginth := value &&& 0xFF })
  | .cprQslot n => if n < 256 then qslotWrite s n value else s
  | .cprBoot => { s with cp := { s.cp with boot := (s.cp.boot &&& ~~~0x10000) ||| (value &&& 0x10000) } }
  | .cprFwaddr => { s with cp := { s.cp with fwaddr := value } }
  | .fabPsafe => { s with fab := { s.fab with psafe := value } }
  | .fabPeersel => { s with fab := { s.fab with peersel := value &&& 0x3FF } }
  | .fabRxq port => rxqWrite s port value
  | .fabRxqsel port => { s with fab := { s.fab with rxqsel := mset s.fab.rxqsel port (BitVec.ofNat 64 (Nat.min 16 (bits value 0 5).toNat)) } }
  | .fabPkgid => { s with fab := { s.fab with pkgid := value &&& 0x3FF } }
  | .fabGrpsel => { s with fab := { s.fab with grpsel := value &&& 0xF } }
  | .fabGrp => grpWrite s value
  | .fabMargin => { s with fab := { s.fab with margin := w1c s.fab.margin value 0xFFFFFFFFF } }
  | .fabTsync => { s with fab := { s.fab with tsync := w1c s.fab.tsync value 1 } }
  | .hbmCmpmeta n =>
    if n < 8 ∧ winSize (mget s.hbm.cmpwin n) = 0 ∧ mget s.hbm.cmpnew n = 0 then { s with hbm := { s.hbm with cmpmeta := mset s.hbm.cmpmeta n (value &&& 0x000FFFFFFFFFF000) } } else s
  | .weight d row cls =>
    if row < 12 ∧ cls < 40 ∧ (d < 8 ∨ row = 0) then
      setDom s { domOf s d with nextW := mset (domOf s d).nextW (40 * row + cls) (bits value 0 32) }
    else s
  | .point pid =>
    let r : OpReq := { id := s.key, pid := pid, vd := 16, point := (bits value 0 4).toNat, strand := none, fromReg := false }
    if (millsOf s pid).isEmpty then s else serveAll { s with key := s.key + 1, opreqs := s.opreqs ++ [r] } pid
  | .grantSource => { s with fab := { s.fab with source := some (bits value 0 10) } }
  | _ => s

/-- Registers of the CPR_ block of BAR2, which answer even when bring-up has failed (18 R408). -/
def RegName.cpr : RegName → Bool
  | .cprQslot _ | .cprBoot | .cprFwaddr => true
  | _ => false
/-- The VD whose control page holds a register (17 R389). -/
def RegName.vd? : RegName → Option Nat
  | .vdSave n | .vdMem n | .vdS2base n | .vdInvaddr n | .vdInvlen n | .vdDlog n | .vdDlogHead n | .vdErrq n | .vdErrqHead n
  | .vdBte n | .vdBtesel n | .bktVdRefill n | .bktVdCeil n | .vdMtrcfg n | .vdMtrivl n | .vdMtrack n
  | .ctxSel n _ _ | .ctxPriv n _ | .bktCtxRefill n _ | .bktCtxCeil n _ => some n
  | _ => none
/-- Whether a write reaches its register: the device answers, and through a VD's own logical device, that one is bound (17 R388; 18 R408). -/
def regReached (s : State) (reg : RegName) (fm : Bool) : Bool :=
  s.cp.power && (RegName.cpr reg || regsAnswer s) && (fm || (match RegName.vd? reg with | some n => (vdOf s n).bound | none => true))

/-- REGISTER_WRITE: fields without write access keep their values. -/
def execRegisterWrite (reg : RegName) (value : BitVec 64) (fm : Bool) (s : State) : Out :=
  .next (if !regReached s reg fm then s
    else match vdRegWrite s fm value reg with
      | some u => u
      | none => if fm then bar2Write s value reg else s)

end Sys2Proof.Machine
end

