-- ==== Sys2Proof/Machine/Dispatch.lean ====
section
/-! DEFINITION. One arm per instruction and step: each a direct call of its meaning. -/
namespace Sys2Proof.Machine

/-- The meaning of an instruction or step in a state. -/
def exec (i : Instr) (s : State) : Host.Outcome State Fault Refusal :=
  match i with
  | .nop o => Sys2Proof.Machine.execNop o s
  | .bra o => Sys2Proof.Machine.execBra o s
  | .brc o => Sys2Proof.Machine.execBrc o s
  | .brx o => Sys2Proof.Machine.execBrx o s
  | .call o => Sys2Proof.Machine.execCall o s
  | .callx o => Sys2Proof.Machine.execCallx o s
  | .ret o => Sys2Proof.Machine.execRet o s
  | .fspawn o => Sys2Proof.Machine.execFspawn o s
  | .fend o => Sys2Proof.Machine.execFend o s
  | .fyield o => Sys2Proof.Machine.execFyield o s
  | .fid o => Sys2Proof.Machine.execFid o s
  | .barSk o => Sys2Proof.Machine.execBarSk o s
  | .barHk o => Sys2Proof.Machine.execBarHk o s
  | .bara o => Sys2Proof.Machine.execBara o s
  | .barw o => Sys2Proof.Machine.execBarw o s
  | .vote o => Sys2Proof.Machine.execVote o s
  | .shfl o => Sys2Proof.Machine.execShfl o s
  | .shflImm32 o => Sys2Proof.Machine.execShflImm32 o s
  | .live o => Sys2Proof.Machine.execLive o s
  | .pset o => Sys2Proof.Machine.execPset o s
  | .psetImm32 o => Sys2Proof.Machine.execPsetImm32 o s
  | .plop o => Sys2Proof.Machine.execPlop o s
  | .pmov o => Sys2Proof.Machine.execPmov o s
  | .pmovImm32 o => Sys2Proof.Machine.execPmovImm32 o s
  | .iadd o => Sys2Proof.Machine.execIadd o s
  | .iaddImm32 o => Sys2Proof.Machine.execIaddImm32 o s
  | .iadd3 o => Sys2Proof.Machine.execIadd3 o s
  | .iaddc o => Sys2Proof.Machine.execIaddc o s
  | .iaddcImm32 o => Sys2Proof.Machine.execIaddcImm32 o s
  | .isub o => Sys2Proof.Machine.execIsub o s
  | .isubImm32 o => Sys2Proof.Machine.execIsubImm32 o s
  | .imul o => Sys2Proof.Machine.execImul o s
  | .imulImm32 o => Sys2Proof.Machine.execImulImm32 o s
  | .imulh o => Sys2Proof.Machine.execImulh o s
  | .imulhImm32 o => Sys2Proof.Machine.execImulhImm32 o s
  | .imad o => Sys2Proof.Machine.execImad o s
  | .imadImm32 o => Sys2Proof.Machine.execImadImm32 o s
  | .idiv o => Sys2Proof.Machine.execIdiv o s
  | .idivImm32 o => Sys2Proof.Machine.execIdivImm32 o s
  | .irem o => Sys2Proof.Machine.execIrem o s
  | .iremImm32 o => Sys2Proof.Machine.execIremImm32 o s
  | .imin o => Sys2Proof.Machine.execImin o s
  | .iminImm32 o => Sys2Proof.Machine.execIminImm32 o s
  | .imax o => Sys2Proof.Machine.execImax o s
  | .imaxImm32 o => Sys2Proof.Machine.execImaxImm32 o s
  | .iabs o => Sys2Proof.Machine.execIabs o s
  | .ineg o => Sys2Proof.Machine.execIneg o s
  | .isad o => Sys2Proof.Machine.execIsad o s
  | .isadImm32 o => Sys2Proof.Machine.execIsadImm32 o s
  | .and o => Sys2Proof.Machine.execAnd o s
  | .andImm32 o => Sys2Proof.Machine.execAndImm32 o s
  | .or o => Sys2Proof.Machine.execOr o s
  | .orImm32 o => Sys2Proof.Machine.execOrImm32 o s
  | .xor o => Sys2Proof.Machine.execXor o s
  | .xorImm32 o => Sys2Proof.Machine.execXorImm32 o s
  | .not o => Sys2Proof.Machine.execNot o s
  | .lop3 o => Sys2Proof.Machine.execLop3 o s
  | .lop3Imm32 o => Sys2Proof.Machine.execLop3Imm32 o s
  | .shl o => Sys2Proof.Machine.execShl o s
  | .shlImm32 o => Sys2Proof.Machine.execShlImm32 o s
  | .shr o => Sys2Proof.Machine.execShr o s
  | .shrImm32 o => Sys2Proof.Machine.execShrImm32 o s
  | .sra o => Sys2Proof.Machine.execSra o s
  | .sraImm32 o => Sys2Proof.Machine.execSraImm32 o s
  | .rotl o => Sys2Proof.Machine.execRotl o s
  | .rotlImm32 o => Sys2Proof.Machine.execRotlImm32 o s
  | .bfe o => Sys2Proof.Machine.execBfe o s
  | .bfeImm32 o => Sys2Proof.Machine.execBfeImm32 o s
  | .bfi o => Sys2Proof.Machine.execBfi o s
  | .bfiImm32 o => Sys2Proof.Machine.execBfiImm32 o s
  | .popc o => Sys2Proof.Machine.execPopc o s
  | .clz o => Sys2Proof.Machine.execClz o s
  | .ctz o => Sys2Proof.Machine.execCtz o s
  | .brev o => Sys2Proof.Machine.execBrev o s
  | .sel o => Sys2Proof.Machine.execSel o s
  | .selImm32 o => Sys2Proof.Machine.execSelImm32 o s
  | .mov o => Sys2Proof.Machine.execMov o s
  | .moviImm32 o => Sys2Proof.Machine.execMoviImm32 o s
  | .moviX64 o => Sys2Proof.Machine.execMoviX64 o s
  | .movw o => Sys2Proof.Machine.execMovw o s
  | .lea o => Sys2Proof.Machine.execLea o s
  | .leaImm32 o => Sys2Proof.Machine.execLeaImm32 o s
  | .icmp o => Sys2Proof.Machine.execIcmp o s
  | .icmpImm32 o => Sys2Proof.Machine.execIcmpImm32 o s
  | .fadd o => Sys2Proof.Machine.execFadd o s
  | .faddImm32 o => Sys2Proof.Machine.execFaddImm32 o s
  | .fsub o => Sys2Proof.Machine.execFsub o s
  | .fsubImm32 o => Sys2Proof.Machine.execFsubImm32 o s
  | .fmul o => Sys2Proof.Machine.execFmul o s
  | .fmulImm32 o => Sys2Proof.Machine.execFmulImm32 o s
  | .ffma o => Sys2Proof.Machine.execFfma o s
  | .ffmaImm32 o => Sys2Proof.Machine.execFfmaImm32 o s
  | .fdiv o => Sys2Proof.Machine.execFdiv o s
  | .fdivImm32 o => Sys2Proof.Machine.execFdivImm32 o s
  | .fmin o => Sys2Proof.Machine.execFmin o s
  | .fminImm32 o => Sys2Proof.Machine.execFminImm32 o s
  | .fmax o => Sys2Proof.Machine.execFmax o s
  | .fmaxImm32 o => Sys2Proof.Machine.execFmaxImm32 o s
  | .fabs o => Sys2Proof.Machine.execFabs o s
  | .fneg o => Sys2Proof.Machine.execFneg o s
  | .frcp o => Sys2Proof.Machine.execFrcp o s
  | .frsq o => Sys2Proof.Machine.execFrsq o s
  | .fsqrt o => Sys2Proof.Machine.execFsqrt o s
  | .fexp2 o => Sys2Proof.Machine.execFexp2 o s
  | .flog2 o => Sys2Proof.Machine.execFlog2 o s
  | .fsin o => Sys2Proof.Machine.execFsin o s
  | .fcos o => Sys2Proof.Machine.execFcos o s
  | .frnd o => Sys2Proof.Machine.execFrnd o s
  | .fcmp o => Sys2Proof.Machine.execFcmp o s
  | .fcmpImm32 o => Sys2Proof.Machine.execFcmpImm32 o s
  | .fclass o => Sys2Proof.Machine.execFclass o s
  | .hadd2 o => Sys2Proof.Machine.execHadd2 o s
  | .hadd2Imm32 o => Sys2Proof.Machine.execHadd2Imm32 o s
  | .hmul2 o => Sys2Proof.Machine.execHmul2 o s
  | .hmul2Imm32 o => Sys2Proof.Machine.execHmul2Imm32 o s
  | .hfma2 o => Sys2Proof.Machine.execHfma2 o s
  | .hfma2Imm32 o => Sys2Proof.Machine.execHfma2Imm32 o s
  | .hmin2 o => Sys2Proof.Machine.execHmin2 o s
  | .hmin2Imm32 o => Sys2Proof.Machine.execHmin2Imm32 o s
  | .hmax2 o => Sys2Proof.Machine.execHmax2 o s
  | .hmax2Imm32 o => Sys2Proof.Machine.execHmax2Imm32 o s
  | .vadd2 o => Sys2Proof.Machine.execVadd2 o s
  | .vadd2Imm32 o => Sys2Proof.Machine.execVadd2Imm32 o s
  | .vsub2 o => Sys2Proof.Machine.execVsub2 o s
  | .vsub2Imm32 o => Sys2Proof.Machine.execVsub2Imm32 o s
  | .vmin2 o => Sys2Proof.Machine.execVmin2 o s
  | .vmin2Imm32 o => Sys2Proof.Machine.execVmin2Imm32 o s
  | .vmax2 o => Sys2Proof.Machine.execVmax2 o s
  | .vmax2Imm32 o => Sys2Proof.Machine.execVmax2Imm32 o s
  | .acs2 o => Sys2Proof.Machine.execAcs2 o s
  | .cvt o => Sys2Proof.Machine.execCvt o s
  | .cvtb o => Sys2Proof.Machine.execCvtb o s
  | .ld o => Sys2Proof.Machine.execLd o s
  | .ldImm32 o => Sys2Proof.Machine.execLdImm32 o s
  | .st o => Sys2Proof.Machine.execSt o s
  | .stImm32 o => Sys2Proof.Machine.execStImm32 o s
  | .lds o => Sys2Proof.Machine.execLds o s
  | .ldsImm32 o => Sys2Proof.Machine.execLdsImm32 o s
  | .sts o => Sys2Proof.Machine.execSts o s
  | .stsImm32 o => Sys2Proof.Machine.execStsImm32 o s
  | .ldc o => Sys2Proof.Machine.execLdc o s
  | .ldcImm32 o => Sys2Proof.Machine.execLdcImm32 o s
  | .atom o => Sys2Proof.Machine.execAtom o s
  | .atomImm32 o => Sys2Proof.Machine.execAtomImm32 o s
  | .atomf o => Sys2Proof.Machine.execAtomf o s
  | .atomfImm32 o => Sys2Proof.Machine.execAtomfImm32 o s
  | .red o => Sys2Proof.Machine.execRed o s
  | .redImm32 o => Sys2Proof.Machine.execRedImm32 o s
  | .pft o => Sys2Proof.Machine.execPft o s
  | .cctl o => Sys2Proof.Machine.execCctl o s
  | .cctlImm32 o => Sys2Proof.Machine.execCctlImm32 o s
  | .cpin o => Sys2Proof.Machine.execCpin o s
  | .cpinImm32 o => Sys2Proof.Machine.execCpinImm32 o s
  | .cunpin o => Sys2Proof.Machine.execCunpin o s
  | .cunpinImm32 o => Sys2Proof.Machine.execCunpinImm32 o s
  | .icinv o => Sys2Proof.Machine.execIcinv o s
  | .icinvImm32 o => Sys2Proof.Machine.execIcinvImm32 o s
  | .tld o => Sys2Proof.Machine.execTld o s
  | .tst o => Sys2Proof.Machine.execTst o s
  | .tzero o => Sys2Proof.Machine.execTzero o s
  | .tmov o => Sys2Proof.Machine.execTmov o s
  | .tmma o => Sys2Proof.Machine.execTmma o s
  | .ald o => Sys2Proof.Machine.execAld o s
  | .ast o => Sys2Proof.Machine.execAst o s
  | .aclr o => Sys2Proof.Machine.execAclr o s
  | .acvt o => Sys2Proof.Machine.execAcvt o s
  | .afrag o => Sys2Proof.Machine.execAfrag o s
  | .wld o => Sys2Proof.Machine.execWld o s
  | .wlatch o => Sys2Proof.Machine.execWlatch o s
  | .sbuild o => Sys2Proof.Machine.execSbuild o s
  | .sstep o => Sys2Proof.Machine.execSstep o s
  | .slut o => Sys2Proof.Machine.execSlut o s
  | .sdrain o => Sys2Proof.Machine.execSdrain o s
  | .sclass o => Sys2Proof.Machine.execSclass o s
  | .qput o => Sys2Proof.Machine.execQput o s
  | .cwait o => Sys2Proof.Machine.execCwait o s
  | .ctest o => Sys2Proof.Machine.execCtest o s
  | .sleep o => Sys2Proof.Machine.execSleep o s
  | .sleepuntil o => Sys2Proof.Machine.execSleepuntil o s
  | .fence o => Sys2Proof.Machine.execFence o s
  | .fencex o => Sys2Proof.Machine.execFencex o s
  | .ldaq o => Sys2Proof.Machine.execLdaq o s
  | .ldaqImm32 o => Sys2Proof.Machine.execLdaqImm32 o s
  | .strl o => Sys2Proof.Machine.execStrl o s
  | .strlImm32 o => Sys2Proof.Machine.execStrlImm32 o s
  | .rstf o => Sys2Proof.Machine.execRstf o s
  | .ratom o => Sys2Proof.Machine.execRatom o s
  | .publish o => Sys2Proof.Machine.execPublish o s
  | .launch o => Sys2Proof.Machine.execLaunch o s
  | .feedput o => Sys2Proof.Machine.execFeedput o s
  | .feedpop o => Sys2Proof.Machine.execFeedpop o s
  | .idem o => Sys2Proof.Machine.execIdem o s
  | .commit o => Sys2Proof.Machine.execCommit o s
  | .jread o => Sys2Proof.Machine.execJread o s
  | .opreq o => Sys2Proof.Machine.execOpreq o s
  | .trap o => Sys2Proof.Machine.execTrap o s
  | .ebrk o => Sys2Proof.Machine.execEbrk o s
  | .tret o => Sys2Proof.Machine.execTret o s
  | .sysrd o => Sys2Proof.Machine.execSysrd o s
  | .syswr o => Sys2Proof.Machine.execSyswr o s
  | .tlbinv o => Sys2Proof.Machine.execTlbinv o s
  | .ramode o => Sys2Proof.Machine.execRamode o s
  | .loadDataReturn id lanes => Sys2Proof.Machine.execLoadDataReturn id lanes s
  | .writeComplete id lanes => Sys2Proof.Machine.execWriteComplete id lanes s
  | .globallyComplete strand => Sys2Proof.Machine.execGloballyComplete strand s
  | .cacheOpComplete id => Sys2Proof.Machine.execCacheOpComplete id s
  | .arTransferComplete id => Sys2Proof.Machine.execArTransferComplete id s
  | .fairnessPromotion spindle => Sys2Proof.Machine.execFairnessPromotion spindle s
  | .runaheadEntry strand => Sys2Proof.Machine.execRunaheadEntry strand s
  | .runaheadExit strand => Sys2Proof.Machine.execRunaheadExit strand s
  | .sleepWake strand => Sys2Proof.Machine.execSleepWake strand s
  | .sleepuntilWake strand => Sys2Proof.Machine.execSleepuntilWake strand s
  | .cwaitSatisfied strand => Sys2Proof.Machine.execCwaitSatisfied strand s
  | .feedpopReissue strand => Sys2Proof.Machine.execFeedpopReissue strand s
  | .arrayStep spindle => Sys2Proof.Machine.execArrayStep spindle s
  | .skeinRetire skein => Sys2Proof.Machine.execSkeinRetire skein s
  | .slotConsume slot => Sys2Proof.Machine.execSlotConsume slot s
  | .copy pkt chunk => Sys2Proof.Machine.execCopy pkt chunk s
  | .copyArray pkt chunk => Sys2Proof.Machine.execCopyArray pkt chunk s
  | .followOnArrayCommand pkt => Sys2Proof.Machine.execFollowOnArrayCommand pkt s
  | .gather pkt chunk => Sys2Proof.Machine.execGather pkt chunk s
  | .fill pkt chunk => Sys2Proof.Machine.execFill pkt chunk s
  | .decomp pkt chunk => Sys2Proof.Machine.execDecomp pkt chunk s
  | .remoteCopy pkt chunk => Sys2Proof.Machine.execRemoteCopy pkt chunk s
  | .signal pkt => Sys2Proof.Machine.execSignal pkt s
  | .waitSatisfied slot => Sys2Proof.Machine.execWaitSatisfied slot s
  | .halt hank => Sys2Proof.Machine.execHalt hank s
  | .resume hank => Sys2Proof.Machine.execResume hank s
  | .tickClose em => Sys2Proof.Machine.execTickClose em s
  | .readingForm vd => Sys2Proof.Machine.execReadingForm vd s
  | .voltageStepEnd pid => Sys2Proof.Machine.execVoltageStepEnd pid s
  | .frequencyStepEnd pid => Sys2Proof.Machine.execFrequencyStepEnd pid s
  | .invalidationComplete inv => Sys2Proof.Machine.execInvalidationComplete inv s
  | .arrayWatchdog spindle => Sys2Proof.Machine.execArrayWatchdog spindle s
  | .uncorrectableError err => Sys2Proof.Machine.execUncorrectableError err s
  | .correctedError err => Sys2Proof.Machine.execCorrectedError err s
  | .parityCommit stripe => Sys2Proof.Machine.execParityCommit stripe s
  | .shrinkComplete vd => Sys2Proof.Machine.execShrinkComplete vd s
  | .pinwinComplete vd win => Sys2Proof.Machine.execPinwinComplete vd win s
  | .cmpwinZeroComplete win => Sys2Proof.Machine.execCmpwinZeroComplete win s
  | .fabricReplayTimeout port tenant => Sys2Proof.Machine.execFabricReplayTimeout port tenant s
  | .schedulerRun => Sys2Proof.Machine.execSchedulerRun s
  | .grantLapse => Sys2Proof.Machine.execGrantLapse s
  | .relevelComplete => Sys2Proof.Machine.execRelevelComplete s
  | .registerFill skein block quad => Sys2Proof.Machine.execRegisterFill skein block quad s
  | .launchPacket slot => Sys2Proof.Machine.execLaunchPacket slot s
  | .feedPacket slot => Sys2Proof.Machine.execFeedPacket slot s
  | .ib slot => Sys2Proof.Machine.execIb slot s
  | .waitPacket slot => Sys2Proof.Machine.execWaitPacket slot s
  | .cprPreemptGo value => Sys2Proof.Machine.execCprPreemptGo value s
  | .powerGrant source flit => Sys2Proof.Machine.execPowerGrant source flit s
  | .vdOpreq vd value => Sys2Proof.Machine.execVdOpreq vd value s
  | .millOpcap mill value => Sys2Proof.Machine.execMillOpcap mill value s
  | .millOpfloor mill value => Sys2Proof.Machine.execMillOpfloor mill value s
  | .vdOpallow vd value => Sys2Proof.Machine.execVdOpallow vd value s
  | .millPart mill value => Sys2Proof.Machine.execMillPart mill value s
  | .supplyDroop region => Sys2Proof.Machine.execSupplyDroop region s
  | .marginWarning region => Sys2Proof.Machine.execMarginWarning region s
  | .powerOnReset boot => Sys2Proof.Machine.execPowerOnReset boot s
  | .deviceReset boot => Sys2Proof.Machine.execDeviceReset boot s
  | .cpReset boot => Sys2Proof.Machine.execCpReset boot s
  | .cpWatchdog => Sys2Proof.Machine.execCpWatchdog s
  | .tsyncLost => Sys2Proof.Machine.execTsyncLost s
  | .fabricPacketReceive port pkt => Sys2Proof.Machine.execFabricPacketReceive port pkt s
  | .fabricNack port tenant seq => Sys2Proof.Machine.execFabricNack port tenant seq s
  | .fabricAck port tenant seq => Sys2Proof.Machine.execFabricAck port tenant seq s
  | .coherenceInvalidate line => Sys2Proof.Machine.execCoherenceInvalidate line s
  | .backInvalidation line => Sys2Proof.Machine.execBackInvalidation line s
  | .switchFailure lines => Sys2Proof.Machine.execSwitchFailure lines s
  | .homeonlyClear value => Sys2Proof.Machine.execHomeonlyClear value s
  | .capabilityAdvertise pkg schemes => Sys2Proof.Machine.execCapabilityAdvertise pkg schemes s
  | .vdInvcmdGo vd value => Sys2Proof.Machine.execVdInvcmdGo vd value s
  | .vdRunGo vd value => Sys2Proof.Machine.execVdRunGo vd value s
  | .vdFltres vd value => Sys2Proof.Machine.execVdFltres vd value s
  | .cprHfltres value => Sys2Proof.Machine.execCprHfltres value s
  | .faultQueueHead queue base value => Sys2Proof.Machine.execFaultQueueHead queue base value s
  | .thawResume value => Sys2Proof.Machine.execThawResume value s
  | .thawEnd value => Sys2Proof.Machine.execThawEnd value s
  | .cprQkick value => Sys2Proof.Machine.execCprQkick value s
  | .cprAreset value => Sys2Proof.Machine.execCprAreset value s
  | .spindleLost spindle => Sys2Proof.Machine.execSpindleLost spindle s
  | .millEinj mill value => Sys2Proof.Machine.execMillEinj mill value s
  | .stackLost stack => Sys2Proof.Machine.execStackLost stack s
  | .hbmRelevelGo value => Sys2Proof.Machine.execHbmRelevelGo value s
  | .hbmCmpwin win value => Sys2Proof.Machine.execHbmCmpwin win value s
  | .vdL2share vd value => Sys2Proof.Machine.execVdL2share vd value s
  | .vdPinwin vd win value => Sys2Proof.Machine.execVdPinwin vd win value s
  | .contextCreate vd ctx => Sys2Proof.Machine.execContextCreate vd ctx s
  | .contextEnd vd ctx => Sys2Proof.Machine.execContextEnd vd ctx s
  | .bktAdj vd ctx delta => Sys2Proof.Machine.execBktAdj vd ctx delta s
  | .ctxSchedWeight vd ctx value => Sys2Proof.Machine.execCtxSchedWeight vd ctx value s
  | .ldBind ld => Sys2Proof.Machine.execLdBind ld s
  | .ldUnbind ld => Sys2Proof.Machine.execLdUnbind ld s
  | .hostAtomic op addr wide val cmp => Sys2Proof.Machine.execHostAtomic op addr wide val cmp s
  | .hostMemoryAccess addr write => Sys2Proof.Machine.execHostMemoryAccess addr write s
  | .registerWrite reg value fm => Sys2Proof.Machine.execRegisterWrite reg value fm s
  | .portDegrade port lanes => Sys2Proof.Machine.execPortDegrade port lanes s
  | .powerLoss => Sys2Proof.Machine.execPowerLoss s
  | .droopPasses region => Sys2Proof.Machine.execDroopPasses region s
  | .podTimebaseMessage gtb => Sys2Proof.Machine.execPodTimebaseMessage gtb s

end Sys2Proof.Machine
end

