-- ==== Sys2Proof/Machine/ReadRegs.lean ====
section
/-! DEFINITION. Reads of registers by the host, a VD's driver and CP firmware (00 R6; 17 R389 to R391): what each field returns. A register's word is kept
as it reads: a W1A field, a WO field and a res0 field are 0 in it. Reading changes nothing, and no row of the table is an event of its own for it.
These are the values where the register answers (regReached); what a read that nothing answers returns is the host's bus, outside this machine. -/
namespace Sys2Proof.Machine

/-- The low and the high half of a meter. -/
def loHalf (m : BitVec 128) : BitVec 64 := m.setWidth 64
def hiHalf (m : BitVec 128) : BitVec 64 := bits m 64 64

/-- A register of a context's descriptor, by its offset (17 R389, R391). -/
def descriptorRead (c : Ctx) (off : Nat) : BitVec 64 :=
  if off = 0x00 then c.bkt.lvl
  else if off = 0x08 then c.bkt.refill
  else if off = 0x10 then c.bkt.ceil
  else if off = 0x18 then c.bkt.adj
  else if off = 0x20 then loHalf c.mtr
  else if off = 0x28 then hiHalf c.mtr
  else if off = 0x30 then c.jacc
  else if off = 0x38 then c.st.setWidth 64 ||| (if c.priv then 4 else 0)
  else match [0x100, 0x101, 0x102, 0x103, 0x200, 0x201, 0x202, 0x203, 0x204, 0x011, 0x00D, 0x001][(off - 0x40) / 8]? with
    | some sel => if off % 8 = 0 then c.reg sel else 0
    | none => 0

/-- A register of a VD's control page, BAR0, by its offset (17 R389); what no register holds reads as zero. -/
def bar0Read (s : State) (vd off : Nat) : BitVec 64 :=
  let v := vdOf s vd
  let b := bteOf s vd (bits v.btesel 0 3).toNat
  if 0x40000 ≤ off then
    match ctx? s vd ((off - 0x40000) / 256) with
    | some c => descriptorRead c ((off - 0x40000) % 256)
    | none => 0
  else if 0x200 ≤ off ∧ off < 0x280 ∧ off % 8 = 0 then mget v.pinwin ((off - 0x200) / 8)
  else
    let page0 := [v.run, v.exit, v.save, v.mem, v.s2base, v.invcmd, v.invaddr, v.invlen,
      v.dlog.cfg, v.dlog.head, v.dlog.tail, v.fltq.cfg, v.fltq.head, v.fltq.tail, v.fltres, 0]
    let page1 := [v.errq.cfg, v.errq.head, v.errq.tail, v.errLost, BitVec.ofNat 64 (b.rate * 2 ^ 32), BitVec.ofInt 64 b.lvl, v.btesel, 0,
      v.jacc, loHalf v.mtr, hiHalf v.mtr, v.bkt.lvl, v.bkt.refill, v.bkt.ceil, v.bkt.adj, 0]
    let page2 := [v.mtrcfg, v.mtrivl, v.mtrack, v.opallow, v.opreq, v.l2share]
    if off % 8 = 0 then (page0 ++ page1 ++ page2).getD (off / 8) 0 else 0

/-- The registers of BAR2 that are read (17 R389): those of a mill, of an energy domain, of device memory, of the fabric and of the command processor. -/
inductive Bar2Reg where
  | millPart (m : Nat) | millOpfloor (m : Nat) | millOpcap (m : Nat) | millJceil (m : Nat) | millSched (m : Nat) | millAfr (m : Nat) | millArraywd (m : Nat)
  | millElogidx (m : Nat) | millElog (m slot word : Nat) | millEinj (m : Nat) | millSpare (m : Nat) | millOffline (m word : Nat)
  | millMargin (m : Nat) | millMarginth (m : Nat) | millStretch (m : Nat) | millOppt (m : Nat) | millStall (m : Nat) | millXfocc (m : Nat)
  | domMeas (d : Nat) | domEst (d : Nat) | domC (d : Nat) | domUnatt (d : Nat)
  | hbmStack | hbmLayout | hbmRelevel | hbmCmpwin (n : Nat) | hbmCmpmeta (n : Nat)
  | fabPgrant | fabPgexp | fabPsafe | fabPeersel | fabPeercap | fabMycap | fabPort (p : Nat) | fabRxq (p : Nat) | fabRxqsel (p : Nat) | fabRecov
  | fabPkgid | fabGrpsel | fabGrp | fabTsync | fabMargin
  | cprQslot (n : Nat) | cprQkick | cprPreempt | cprThaw | cprHfltq | cprHfltqHead | cprHfltqTail | cprHfltres | cprAreset
  | cprBboxIdx | bbox (entry word : Nat) | cprCpstat | cprReset | cprBoot | cprFwaddr
  deriving DecidableEq, Repr

/-- A 64-bit word of a log entry of 32 bytes. -/
def logWord (e : BitVec 256) (word : Nat) : BitVec 64 := if word < 4 then bits e (64 * word) 64 else 0

/-- A register of BAR2 as the FM-owned logical device and CP firmware read it. -/
def bar2Read (s : State) : Bar2Reg → BitVec 64
  | .millPart m => (millOf s m).part
  | .millOpfloor m => (millOf s m).opfloor
  | .millOpcap m => (millOf s m).opcap
  | .millJceil m => (millOf s m).jceil
  | .millSched m => (millOf s m).sched
  | .millAfr m => (millOf s m).afr
  | .millArraywd m => (millOf s m).arraywd
  | .millElogidx m => (millOf s m).elogidx
  | .millElog m slot word => logWord (mget (millOf s m).elog (slot % 64)) word
  | .millEinj m => (millOf s m).einj
  | .millSpare m => (millOf s m).spare
  | .millOffline m word => if word < 2 then bits (millOf s m).offline (64 * word) 64 else 0
  | .millMargin m => (millOf s m).margin
  | .millMarginth m => (millOf s m).marginth
  | .millStretch m => (millOf s m).stretch
  | .millOppt m => (millOf s m).oppt
  | .millStall m => (millOf s m).stall
  | .millXfocc m => (millOf s m).xfocc
  | .domMeas d => (domOf s d).meas
  | .domEst d => (domOf s d).est
  | .domC d => (domOf s d).c
  | .domUnatt d => (domOf s d).unatt
  | .hbmStack => s.hbm.stack
  | .hbmLayout => s.hbm.layout
  | .hbmRelevel => s.hbm.relevel
  | .hbmCmpwin n => if mget s.hbm.cmpnew n = 0 then mget s.hbm.cmpwin n else mget s.hbm.cmpnew n
  | .hbmCmpmeta n => mget s.hbm.cmpmeta n
  | .fabPgrant => s.fab.pgrant
  | .fabPgexp => s.fab.pgexp
  | .fabPsafe => s.fab.psafe
  | .fabPeersel => s.fab.peersel
  | .fabPeercap => mget s.fab.peercap s.fab.peersel.toNat
  | .fabMycap => s.fab.mycap
  | .fabPort p => ((s.fab.port.find? (fun e => e.1 == p)).map (fun e => e.2)).getD 0
  | .fabRxq p => mget s.fab.rxq (32 * p + (mget s.fab.rxqsel p).toNat)
  | .fabRxqsel p => mget s.fab.rxqsel p
  | .fabRecov => s.fab.recov
  | .fabPkgid => s.fab.pkgid
  | .fabGrpsel => s.fab.grpsel
  | .fabGrp =>
    mget s.fab.grp s.fab.grpsel.toNat ||| (if ownPkg s / 64 = s.fab.grpsel.toNat then BitVec.ofNat 64 (2 ^ (ownPkg s % 64)) else 0)
  | .fabTsync => s.fab.tsync
  | .fabMargin => s.fab.margin
  | .cprQslot n => mget s.cp.qslot n
  | .cprQkick => 0
  | .cprPreempt => s.cp.preempt
  | .cprThaw => s.cp.thaw
  | .cprHfltq => s.cp.hfltq.cfg
  | .cprHfltqHead => s.cp.hfltq.head
  | .cprHfltqTail => s.cp.hfltq.tail
  | .cprHfltres => s.cp.hfltres
  | .cprAreset => s.cp.areset
  | .cprBboxIdx => s.cp.bboxIdx
  | .bbox entry word => logWord (mget s.cp.bbox (entry % 2048)) word
  | .cprCpstat => s.cp.cpstat
  | .cprReset => 0
  | .cprBoot => s.cp.boot
  | .cprFwaddr => s.cp.fwaddr

end Sys2Proof.Machine
end

