-- ==== Sys2Proof/Machine/Settle.lean ====
section
/-! DEFINITION. What every step brings beside the thing it executes: the mills' stall and stretch counts (18 R400, R405), and what follows by itself once it can:
the end of a pre-emption (15 R339), contexts, spindles and lines that were leaving (17 R390; 16 R371; 17 R395), the progress of a re-levelling (17 R380). -/
namespace Sys2Proof.Machine

/-! ### Stall counters (18 R405) -/

/-- The spindle a strand lives on, while its skein is resident. -/
def residentOn (s : State) (t : Strand) : Option Nat :=
  match skein? s t.skein with
  | some x => (match hank? s x.hank with | some h => if h.st == .saved then none else some x.spindle | none => none)
  | none => none

/-- Loads and atomics. (DEDUCED, log 35.) -/
def Acc.loadOrAtomic : Acc → Bool
  | .load .. | .lds .. | .atom .. | .atomf .. | .mload .. => true
  | _ => false

/-- Whether a strand makes its spindle's cycles busy ones. (DEDUCED, log 35.) -/
def Strand.isBusy (t : Strand) : Bool := t.st != .sleeping && t.st != .parked && t.st != .barrier

/-- Whether a strand is held on a flag of a load or atomic, or stalled in FENCE, FENCEX or CWAIT. (DEDUCED, log 35; DEDUCED, log 122.) -/
def memStalled (s : State) (t : Strand) : Bool :=
  (t.st == .held && t.holds.any (fun h => t.waits.getLsbD h.1 && s.pend.any (fun p => p.id == h.2 && p.acc.loadOrAtomic))) ||
    (match t.wait with | some (.fence _) | some (.fencex _ _) | some (.cwait _ _ _ none) => true | _ => false)

/-- The busy cycles and the memory-stall cycles of a spindle in a step; a cycle in which one of its strands issues is no stall. (DESIGN CHOICE, log 14.) -/
def spindleCycles (s : State) (issued : Bool) (sp : Nat) : Nat × Nat :=
  let here := s.strands.filter (fun t => residentOn s t == some sp)
  let n := Config.spindleCycles s.steps sp
  if here.any Strand.isBusy then (n, if here.any (memStalled s) then (if issued then n - 1 else n) else 0) else (0, 0)

/-- The counts of a step are added to those of the mills: `pre` as the step found the machine, `u` as it began to execute. -/
def accrue (pre u s : State) : State :=
  let on := (u.cur.bind (strand? pre)).bind (residentOn pre)
  let counts := (dedup (pre.strands.filterMap (residentOn pre))).map (fun sp => (sp, spindleCycles pre (on == some sp) sp))
  let sum := fun (m : Nat) (f : Nat × Nat → Nat) => ((counts.filter (fun c => c.1 / 72 == m)).map (fun c => f c.2)).foldl (fun a n => a + n) 0
  { s with mills := s.mills.map (fun m =>
      { m with busy := m.busy + sum m.num Prod.fst, mstall := m.mstall + sum m.num Prod.snd,
               stretch := if s.droops.any (fun r => Region.mill? r == some m.num) then m.stretch + Config.stretched pre.steps m.num else m.stretch }) }

/-! ### What follows by itself -/

/-- What has become possible is done; strands that it has made other than Ready leave the active sets (03 R84). -/
def settleAll (s : State) : State := settleActive (arraysBegin (relevelAdvance (settleLate (settleInvs (settleDrain (settleEnding (settlePreempt s)))))))

/-- The end of a step: its counts, its end, and what follows by itself. (DESIGN CHOICE, log 14.) -/
def stepEnd (pre u s : State) : State := flipAll pre (settleAll (finish pre (accrue pre u s)))

/-- The end of a step whose outcome is a next state. -/
def stepOut (pre u : State) : Out → Out
  | .next s => .next (stepEnd pre u s)
  | .fault r => .fault r
  | .refused r => .refused r

end Sys2Proof.Machine
end

