-- ==== Sys2Proof/Machine/Engines.lean ====
section
/-! DEFINITION. What may come next (00 R8; 02 R39): the events that the outside brings, in their order; else the oldest ready strand of a
spindle or a step that an engine of the package can take, one of them by free choice. A tick close and a lapse of the power grant come when they are due. -/
namespace Sys2Proof.Machine

/-! ### The steps that the engines can take now -/

/-- Choices of parts to be performed together: all, any one, or some by free choice. (DESIGN CHOICE, log 109.) -/
def laneChoices (s : State) (n : Nat) : List (List Nat) :=
  let all := upTo 0 n
  if n ≤ 1 then [all]
  else
    let bits := choose s 980 (2 ^ n)
    [all, all.filter (fun i => bits.testBit i)] ++ all.map (fun i => [i])

/-- The events of an access in flight: its parts land in any order (11 R267), its cache operation or transfer completes. -/
def pendEvents (s : State) (p : Pending) : List Instr :=
  let can := fun (f : List Nat → Instr) => ((laneChoices s p.lanes.length).filter (fun ls => !(performing s p ls).isEmpty)).map f
  match p.acc with
  | .load .. | .lds .. | .atom (some _) .. | .atomf (some _) .. | .mload .. => can (.loadDataReturn p.id)
  | .feedpop .. =>
    let got := (upTo 0 p.lanes.length).filter (fun i => match p.lanes[i]? with | some l => !l.done && (l.size != 0 || l.elem == 1) | none => false)
    if got.isEmpty || (performing s p got).isEmpty then [] else [.loadDataReturn p.id got]
  | .store .. | .sts | .atom none .. | .atomf none .. | .mstore .. | .commitStore .. | .publish => can (.writeComplete p.id)
  | .rstf _ _ sc _ _ => can (.writeComplete p.id) ++ (if rstfReady s p sc then [.writeComplete p.id []] else [])
  | .pft .. | .cctl .. | .pin .. | .icinv => [.cacheOpComplete p.id]
  | .wld .. => if wldReady s p then [.arTransferComplete p.id] else []
  | .sbuild .. | .sdrain .. => if arFirst s p.skein p.id false then [.arTransferComplete p.id] else []

/-- The events of a strand that waits, sleeps, is held or runs ahead. -/
def strandEvents (s : State) (t : Strand) : List Instr :=
  (match t.wait with
  | some (.fence sc) => if fenceMet s t sc then [.globallyComplete t.id] else []
  | some (.cwait word stat mask none) => (match cwaitTest s word stat mask with | .ok none => [] | _ => [.cwaitSatisfied t.id])
  | some (.sleep u m h false) => if t.st == .sleeping && sleepOver s (.sleep u m h false) then [.sleepWake t.id] else []
  | some (.sleepUntil g c none) => if t.st == .sleeping && sleepOver s (.sleepUntil g c none) then [.sleepuntilWake t.id] else []
  | some (.feed _ _ _ true) => if t.st == .sleeping then [.feedpopReissue t.id] else []
  | _ => []) ++
  (match t.ra with
  | some _ => if raOver t then [.runaheadExit t.id] else []
  | none => (match skein? s t.skein with | some x => if raCanEnter s t x then [.runaheadEntry t.id] else [] | none => []))

/-- The events of a spindle: its array, its promotions, its watchdog. -/
def spindleEvents (s : State) (n : Nat) : List Instr :=
  (if (nextWork s n).isSome then [.arrayStep n] else []) ++ (if arrayLate s n then [.arrayWatchdog n] else []) ++
    (if promotionReady s n then [.fairnessPromotion n] else [])

/-- A chunk of a packet whose bytes have not moved: a free choice, or the first. (DESIGN CHOICE, log 109.) -/
def nextChunk (s : State) (p : BtePkt) : Option Nat :=
  let moved := fun (c : Nat) => p.done.contains c || p.landed.any (fun e => e.1 == c)
  let c := choose s 981 p.chunks
  if !moved c && decide (c < p.chunks) then some c
  else ((upTo 0 (p.done.length + p.landed.length + 1)).find? (fun c => !moved c)).filter (fun c => decide (c < p.chunks))

/-- The event of a packet's TYPE, for a chunk. -/
def pktInstr (p : BtePkt) (c : Nat) : List Instr :=
  match p.typ with
  | 1 => [.copy p.id c] | 2 => [.copyArray p.id c] | 3 => [.gather p.id c] | 4 => [.fill p.id c] | 5 => [.decomp p.id c] | 6 => [.remoteCopy p.id c]
  | 7 => [.signal p.id] | _ => []

/-- The events of a BTE packet, or of a SIGNAL (10 R237 to R239). -/
def pktEvents (s : State) (p : BtePkt) : List Instr :=
  if !pktServed s p then []
  else
    match p.st with
    | .waiting => if mayStart s p then pktInstr p 0 else []
    | .moving =>
      if p.fin.isSome then pktInstr p 0
      else if !p.accepted then (if mayStart s p then pktInstr p 0 else [])
      else if p.typ = 7 then (if (queueOf s p.desc).gw.toNat < s.gtb.toNat then pktInstr p 0 else [])
      else
        (p.landed.filter (fun e => e.2 == 0 || decide (e.2.toNat < s.gtb.toNat))).flatMap (fun e => pktInstr p e.1) ++
          (match nextChunk s p with
          | some c => if (chunkBucket s p.vd p.mill (chunkLen p c)).isSome then pktInstr p c else []
          | none => [])
    | .arrayCmd => (match targetSkein s p with
      | none => [.followOnArrayCommand p.id]
      | some x => if followReady s x then [.followOnArrayCommand p.id] else [])
    | .arrayWait => if s.array.any (fun w => w.pkt == some p.id) then [] else [.followOnArrayCommand p.id]
    | _ => []

/-- The slots that are mapped, from the one whose turn it is on (15 R332). (DEDUCED, log 41.) -/
def slotsInTurn (s : State) : List Nat :=
  let l := mappedSlots s
  ((l.filter (fun e => decide (s.cp.turn ≤ e.1))) ++ (l.filter (fun e => decide (e.1 < s.cp.turn)))).map (fun e => e.1)

/-- The events of the queues: the next slot that has a packet to take, and every WAIT whose test has another outcome now. -/
def slotEvents (s : State) : List Instr :=
  let l := slotsInTurn s
  (match l.find? (fun n => serveSlot s n (fun _ _ => true) != s) with | some n => [.slotConsume n] | none => []) ++
    (l.filter (fun n => match slotDesc s n with
      | some d => (match (queueOf s d).wait with
        | some w => waitOpen s d && queueOf (testWait s d w.1 w.2) d != queueOf s d
        | none => false)
      | none => false)).map .waitSatisfied

/-- The events of the command processor: retirement, halts, placement, readings, operating points, invalidations. -/
def cpEvents (s : State) : List Instr :=
  ((s.skeins.filter (canRetire s)).map (fun x => .skeinRetire x.id)) ++
    ((s.hanks.filter (haltReady s)).map (fun h => .halt h.id)) ++
    (if schedDue s then [.schedulerRun] else []) ++ (match resumeNext s with | some k => [.resume k] | none => []) ++
    ((s.vds.filter (readingDue s)).map (fun v => .readingForm v.num)) ++
    (s.changes.map (fun c => if c.volt then .voltageStepEnd c.pid else .frequencyStepEnd c.pid)) ++
    ((s.invs.filter (invReady s)).map (fun i => .invalidationComplete i.id))

/-- The events of memory and the fabric: parity commits, re-levelling, windows, shares, replays, flipped bits that are met. -/
def memEvents (s : State) : List Instr :=
  s.hbm.parity.map .parityCommit ++ (if s.hbm.relevel.getLsbD 61 then [.relevelComplete] else []) ++
    (s.hbm.cmpnew.map (fun e => .cmpwinZeroComplete e.1)) ++ ((s.vds.filter shareBusy).map (fun v => .shrinkComplete v.num)) ++
    (s.vds.flatMap (fun v => v.pinold.map (fun e => .pinwinComplete v.num e.1))) ++
    ((s.fab.links.filter (replayDue s)).map (fun l => .fabricReplayTimeout l.port l.tenant)) ++ s.mills.filterMap flippedError

/-- The spindles that have work of their own. -/
def busySpindles (s : State) : List Nat := dedup (liveSpindles s ++ s.array.filterMap (fun w => (skein? s w.skein).map (fun x => x.spindle)))

/-- The steps that the engines of the package can take now. (DEDUCED, log 15.) -/
def internalEvents (s : State) : List Instr :=
  s.pend.flatMap (pendEvents s) ++ s.strands.flatMap (strandEvents s) ++ (busySpindles s).flatMap (spindleEvents s) ++
    s.pkts.flatMap (pktEvents s) ++ slotEvents s ++ cpEvents s ++ memEvents s

/-! ### What comes next -/

/-- Everything that may come next. (DEDUCED, log 15.) -/
def turns (s : State) : List Turn := (candidates s).map Turn.strand ++ (nextReplays s).map Turn.replay ++ (internalEvents s).map Turn.event

/-- The one that comes next: the only one, or one by free choice. (DEDUCED, log 15.) -/
def chooseTurn (s : State) : List Turn → Option Turn
  | [] => none
  | [t] => some t
  | t :: u :: ts => some ((t :: u :: ts).getD (Config.next s.steps % (ts.length + 2)) t)

/-- A step that cannot be put off: a tick close or a lapse of the power grant that is due (14 R308, R320). (DEDUCED, log 20.) -/
def dueFirst (s : State) : Option Instr :=
  if tickDue s then (match s.inputs with | .tickClose _ :: _ => none | _ => some (.tickClose []))
  else if lapseDue s then some .grantLapse
  else none

/-- What could have come next and did not, with the steps it has waited for; what can come no more is forgotten. -/
def passedBy (s : State) (l : List Turn) (now : Turn) : List (Turn × Nat) :=
  let old := (s.passed.filter (fun p => l.contains p.1 && p.1 != now)).map (fun p => (p.1, p.2 + 1))
  old ++ ((l.filter (fun t => t != now && !s.passed.any (fun p => p.1 == t))).map (fun t => (t, 1)))

/-- What comes next of what can: what has waited for longer than the package lets anything wait, else a free choice (02 R57). (DESIGN CHOICE, log 134.) -/
def nextTurn (s : State) (l : List Turn) : Option Turn :=
  match s.passed.find? (fun p => decide (Config.patience < p.2) && l.contains p.1) with
  | some p => some p.1
  | none => chooseTurn s l

/-- What the package itself does next. -/
def pickOwn (s : State) : Pick :=
  match nextTurn s (turns s) with
  | none => .done s
  | some t =>
    let u := { s with passed := passedBy s (turns s) t }
    match t with
    | .strand k => turn u k
    | .replay r => replayTurn u r
    | .event i => .exec i u

/-- What the next step does: what the outside brings comes first, in its order, unless it is an access of the host that has to wait. (DESIGN CHOICE, log 4.) -/
def pick (s : State) : Pick :=
  match dueFirst s, s.inputs with
  | some i, _ => .exec i s
  | none, ev :: rest => if hostHeld s ev then pickOwn s else .exec ev { s with inputs := rest }
  | none, [] => pickOwn s

end Sys2Proof.Machine
end

