-- ==== Sys2Proof/Machine/Image.lean ====
section
/-! DEFINITION. A machine with one resident strand about to issue a given word: what a program launched from outside comes to at the
first instruction of its first clause. It stands for the bring-up, the driver's set-up and the launch that the manual has the host make (log 7). -/
namespace Sys2Proof.Machine

/-- Page tables that map the first GiB of one VD onto itself, by one leaf of each stage, and the word at code address 0x10008. -/
def imageBytes (code : List Byte) : SMap 8 :=
  let put := fun (m : SMap 8) (a v : Nat) => msetAll m a (toBytes 8 v)
  let tables := put (put (put (put (put [] 0x1000 0x2001) 0x2000 0x7F) 0x3000 0x4001) 0x4000 0x5001) 0x5000 0x7F
  msetAll tables 0x10008 code

/-- VD 0 with all of local memory, its stage-2 root and a filled bucket. -/
def imageVd (v : Vd) : Vd :=
  { v with bound := true, stopped := false, empty := false, mem := BitVec.ofNat 64 (960 * 2 ^ 40), s2base := 0x1000, l2share := 24, ways := upTo 0 24,
           bkt := { v.bkt with lvl := BitVec.ofNat 64 (2 ^ 62), ceil := BitVec.ofNat 64 (2 ^ 62) } }

/-- Context 0 of VD 0, live and privileged. -/
def imageCtx : Ctx :=
  { Ctx.create 0 0 with priv := true, ptbase := 0x3000, stopped := false, runnable := true, ractl := 0x0100000000000000,
                        bkt := { Bucket.reset with lvl := BitVec.ofNat 64 (2 ^ 62), ceil := BitVec.ofNat 64 (2 ^ 62) } }

/-- Register lines of fibres 0 to 31, all present. -/
def imageLines : List RegLine :=
  { key := .uni, st := .pinned, strand := 0 } :: { key := .pred 0, st := .pinned, strand := 0 } ::
    ((upTo 0 48).map (fun q => { key := .vec 0 q, st := .clean, strand := 0 }) ++ (upTo 0 16).map (fun n => { key := .tile n, st := .clean, strand := 0 }))

/-- A skein of one fibre with every part of the pool: 8 register granules, 8 of scratchpad, 4 of accumulators, 2 of region buffers. -/
def imageSkein : Skein :=
  { id := 2, hank := 1, rank := 0, spindle := 0, vd := 0, ctx := 0, token := 0, part := 0x84208, w := 192, fmax := 32, finit := 1,
    entry := 0x10000, base := 0x20000000, fibres := [{ id := 0, preds := 0, regs := [], live := BitVec.allOnes 48, rel := 0, lastPage := none }],
    g := [], tiles := [], accs := [], scr := [], out := [], cls := 0, wg := 0, share := [], latch := none, bar := Barrier.reset,
    lines := imageLines, written := [], opc := [], retired := false, gw := 0, l1From := 0 }

def imageClause : Clause := { start := 0x10000, size := 0, fa := 0, fb := 1, rastop := false }

/-- A strand at code address 0x10008, in the clause that starts at 0x10000. -/
def imageStrand (id : Nat) (st : StrandState) (trap : Option TrapRec) : Strand :=
  { id := id, skein := 2, fibres := [0], st := st, pc := 0x10008, clause := some imageClause, waits := 0, waitCount := 0, due := false, dueCycles := 0,
    inPlace := [], holds := [], h := 0, wait := none, again := false, trap := trap, region := none, held := [], ra := none, active := false, arith := [], ras := [],
    acks := [], hostAt := 0, block := none, faulted := none }

def imageHank : Hank :=
  { id := 1, lot := 0, index := 0, frame := 0, skeins := [2], bar := Barrier.reset, slot := 0, st := .placed, why := .preempt, saveSlot := 0,
    inShadow := false, first := 0, tq := 0, since := 0, mig := false, failed := false }

def imageLot : Lot :=
  { id := 0, vd := 0, ctx := 0, desc := 0, seq := 0, recs := [], args := [], hanks := 1, next := 1, live := 1, retired := 0, failHank := none, code := 0,
    detail := 0, cmpl := 0, sigAddr := 0, sigVal := 0, sigAdd := false, backBase := 0x20000000, nback := 1, used := [0], packet := [] }

/-- The strands: one that issues; for a word that only a handler strand may issue, the handler and the strand it was trapped from. -/
def imageStrands (handler : Bool) : List Strand :=
  if handler then [imageStrand 4 .trap none, imageStrand 3 .ready (some { cause := 5, epc := 0x10010, epcWritten := false, trapped := 4 })]
  else [imageStrand 3 .ready none]

/-- Whether only a handler strand may issue the word. -/
def needsHandler (code : List Byte) : Bool :=
  match decode { priv := true, handler := false } code with
  | .error .privileged => true
  | _ => false

/-- The state s with the word's bytes about to be issued. (DESIGN CHOICE, log 7.) -/
def placeWord (s : State) (code : List Byte) : State :=
  { s with inputs := [], cur := none, key := Nat.max s.key 10, mem := { s.mem with bytes := imageBytes code, l2 := [] },
           spindles := [], strands := imageStrands (needsHandler code), skeins := [imageSkein], hanks := [imageHank], lots := [imageLot],
           pend := [], array := [], replays := [], ctxs := [imageCtx], vds := updIf (fun v => v.num == 0) imageVd s.vds }

end Sys2Proof.Machine
end

