-- ==== Sys2Proof/Machine/Step.lean ====
section
/-! DEFINITION. One step of the package, and the state that the host's question places a word in. -/
namespace Sys2Proof.Machine

/-- One step: an event of the outside, a strand's instruction, or an engine's step; then time passes. -/
def step (s : State) : Host.Outcome State Fault Refusal :=
  match pick s with
  | .exec i u => stepOut s u (exec i u)
  | .done u => .next (stepEnd s u u)

/-- s with one strand about to issue the instruction whose bits are w; every bit above nbits is 0 up to 128 bits (log 7). -/
def State.withFetchWord (s : State) (nbits w : Nat) : State := placeWord s (leBytes 16 (w % 2 ^ nbits))

end Sys2Proof.Machine
end

