-- ==== Sys2Proof/Safety.lean ====
section
/-! DEFINITION. What counts as a safe step, and the words that claims are stated in: when a strand's instruction takes effect, what an
instruction's meaning answers, and what registers, predicates and memory hold. -/
namespace Sys2Proof

/-- The step from s answers a next state. -/
def SafeStep (s : Machine.State) : Prop := ∃ t, Machine.step s = .next t

namespace Machine

/-- The meaning of an instruction answers a next state, of which P holds. -/
def Completes (i : Instr) (s : State) (P : State → Prop) : Prop := ∃ v, exec i s = .next v ∧ P v

/-- The strand t of skein x issues, outside runahead, an instruction of shape sh, and nothing turns it away: no decode-class fault (05 R132), some
active fibre (R130), no uniform divergent write (03 R74), no stale read that is to trap (03 R87), no full completion flag (05 R125), no open region
that forbids it (10 R257), no 64 accesses of the skein unsent when it is a further one (15 R342); its operands can be delivered (03 R80). It takes effect in u: s with the issue charged, the operands delivered
(register lines may have been filled from or spilled to the backing area) and stale reads counted. There its skein is y, and its strand w stands at
the same place. -/
structure Issues (sh : Shape) (s : State) (t : Strand) (x : Skein) (u : State) (y : Skein) (w : Strand) : Prop where
  cur : s.cur = some t.id
  strand : strand? s t.id = some t
  skein : skein? s t.skein = some x
  real : t.ra = none
  legal : decodeCheck sh (privOf s t x) t x = none
  active : activeOf t x sh.ctl.guard ≠ []
  uniform : divergentWrite x (activeOf t x sh.ctl.guard) sh.writes = false
  fresh : staleTraps (chargeIssue s sh t x) x = true → staleCount sh (issueEnv sh t x s) = 0
  flags : fullFlag t sh.ctl.setf = none
  region : sh.noIdem = true → t.region = none
  state : issueState sh t x s = .ok u
  room : sh.access = true → u.undo = none → unsentOf u x < 64
  skeinNow : skein? u x.id = some y
  fibres : ∀ f ∈ activeOf t x sh.ctl.guard, (y.fibre? f).isSome = true
  strandNow : strand? u t.id = some w
  place : w.pc = t.pc ∧ w.clause = t.clause
  home : w.skein = t.skein
  same : y.hank = x.hank ∧ y.w = x.w ∧ y.fmax = x.fmax

/-- No strand is in runahead. -/
def NoEpisode (s : State) : Prop := ∀ t ∈ s.strands, t.ra = none

/-- No arithmetic trap is enabled in a context (04 R108, R109). -/
def NoTraps (u : State) (x : Skein) : Prop := ∀ c, ctx? u x.vd x.ctx = some c → fpTe c.fpctl = 0

/-! ### What registers, predicates and memory hold -/

/-- v n of a fibre of a skein, as read (03 R86). -/
def vreg (s : State) (k f n : Nat) : BitVec 32 :=
  match skein? s k with
  | some x => (match x.fibre? f with | some y => y.read n | none => 0)
  | none => 0
/-- g n of a skein. -/
def greg (s : State) (k n : Nat) : BitVec 64 := match skein? s k with | some x => mget x.g n | none => 0
/-- The predicate p of a fibre of a skein, as read (03 R70). -/
def preg (s : State) (k f : Nat) (p : BitVec 4) : Bool :=
  match skein? s k with
  | some x => (match x.fibre? f with | some y => y.pred p | none => p == 15)
  | none => p == 15

/-- The register that an operand field names holds a 32-bit value in a fibre: a uniform register holds it with zeros above (03 R72). -/
def Holds32 (s : State) (k f : Nat) (d : Field8) (v : BitVec 32) : Prop :=
  if d.toNat < 192 then vreg s k f d.toNat = v else greg s k (d.toNat - 192) = v.setWidth 64
/-- The pair or uniform register that an operand field names holds a 64-bit value (03 R69). -/
def Holds64 (s : State) (k f : Nat) (d : Field8) (v : BitVec 64) : Prop :=
  if d.toNat < 192 then vreg s k f d.toNat = bits v 0 32 ∧ vreg s k f (d.toNat + 1) = bits v 32 32 else greg s k (d.toNat - 192) = v
/-- A value of an integer type, narrowed to its width (07 R169). -/
def HoldsInt (s : State) (k f : Nat) (d : Field8) (ty : IntTy) (v : Int) : Prop :=
  if ty.wide then Holds64 s k f d (BitVec.ofInt 64 v) else Holds32 s k f d (BitVec.ofInt 32 v)

/-- The byte at a system physical address. -/
def byteAt (s : State) (a : Nat) : Byte := mget s.mem.bytes (normSpa s a)

/-- Whether the fibre f's result goes to the register d: every active fibre writes its own vector register, the lead fibre a uniform one. -/
def Writes (e : Env) (d : Field8) (f : Nat) : Prop := f ∈ e.act ∧ (d.toNat < 192 ∨ f = e.lead)

/-- FLAGS of a skein's context takes what an instruction raised, in v as against u (04 R107, R110). -/
def FlagsRaised (x : Skein) (u v : State) (fl : Flags) : Prop :=
  ∀ c, ctx? u x.vd x.ctx = some c → ctx? v x.vd x.ctx = some { c with fpctl := c.fpctl ||| fl.setWidth 64 }
/-- The OR of the flags raised in fibres (04 R107). -/
def orFlags (act : List Nat) (g : Nat → Flags) : Flags := act.foldl (fun a i => a ||| g i) 0

/-! ### Where strands stand, and what an instruction leaves alone -/

/-- The strand whose instruction is taken: s.cur, of a skein that is there, outside runahead (05 R131). -/
structure AtIssue (s : State) (t : Strand) (x : Skein) : Prop where
  cur : s.cur = some t.id
  strand : strand? s t.id = some t
  skein : skein? s t.skein = some x
  real : t.ra = none

/-- In v the strand has gone to the word after one of len bytes, and is ready (05 R122). -/
def WentOn (v : State) (t : Strand) (len : Nat) : Prop :=
  ∃ r, strand? v t.id = some r ∧ r.pc = (t.advance len).pc ∧ r.clause = (t.advance len).clause ∧ r.st = .ready ∧ r.wait = none
/-- In v the strand still stands at the instruction, and waits for w. -/
def Waits (v : State) (t : Strand) (st : StrandState) (w : Wait) : Prop :=
  ∃ r, strand? v t.id = some r ∧ r.pc = t.pc ∧ r.clause = t.clause ∧ r.st = st ∧ r.wait = some w ∧ r.again = true
/-- In v the strand stands where it stood, at the instruction. -/
def Stands (v : State) (t : Strand) : Prop := ∃ r, strand? v t.id = some r ∧ r.pc = t.pc ∧ r.clause = t.clause
/-- A fibre of a skein belongs in v to a strand that stands at a clause start. -/
def StartsAt (v : State) (k f : Nat) (pc : BitVec 64) : Prop := ∃ r ∈ v.strands, r.skein = k ∧ f ∈ r.fibres ∧ r.pc = pc ∧ r.clause = none

/-- From u to v no register or predicate changes but, in the active fibres of the skein x, the vector registers vd and those of the sources marked as a
last use, and the predicates pd; and the uniform registers gd of x. -/
structure KeepsRegs (x : Skein) (act : List Nat) (vd gd marks : List Nat) (pd : List (BitVec 4)) (u v : State) : Prop where
  others : ∀ k, k ≠ x.id → ∀ f n, vreg v k f n = vreg u k f n ∧ greg v k n = greg u k n ∧ ∀ p, preg v k f p = preg u k f p
  vregs : ∀ f n, n < 192 → (n ∉ vd ∨ f ∉ act) → (n ∉ marks ∨ f ∉ act) → vreg v x.id f n = vreg u x.id f n
  gregs : ∀ n, n ∉ gd → greg v x.id n = greg u x.id n
  preds : ∀ f p, (p ∉ pd ∨ f ∉ act) → preg v x.id f p = preg u x.id f p

/-- Every byte of memory reads in v as in u. -/
def SameBytes (u v : State) : Prop := ∀ a, byteAt v a = byteAt u a

/-- Between u and v an instruction of shape sh has changed no register, no predicate and no byte of memory, but for registers released as last uses. -/
def Quiet (sh : Shape) (x : Skein) (act : List Nat) (u v : State) : Prop := KeepsRegs x act [] [] (markedRegs sh) [] u v ∧ SameBytes u v
/-- Between u and v no register or predicate has changed but the destinations of sh and registers released as last uses. -/
def RegsBut (sh : Shape) (x : Skein) (act : List Nat) (u v : State) : Prop :=
  KeepsRegs x act (vecRegs (sh.writes.map (fun w => (w.reg, w.wid)))) ((sh.writes.filter (fun w => decide (192 ≤ w.reg.toNat))).map (fun w => w.reg.toNat - 192))
    (markedRegs sh) sh.pdst u v
/-- As Quiet, but for the destinations of sh. -/
def QuietBut (sh : Shape) (x : Skein) (act : List Nat) (u v : State) : Prop := RegsBut sh x act u v ∧ SameBytes u v

/-! ### Accesses -/

/-- The parts of an access pass the checks of 08 R194 in u: they come back, translated, in s1, where the strand still stands. -/
structure Checked (n : Need) (t : Strand) (x : Skein) (u : State) (parts : List Lane) (s1 : State) (ls : List Lane) (held walked : Bool) : Prop where
  out : checkLanes n x.id x t.pc u parts = (s1, .ok (ls, held, walked))
  stands : Stands s1 t

/-- In v an access issued in s1 is in flight for the strand alone, with its parts and the flags it will raise, and holds the completion flags that SETF
selects (05 R125, R127). -/
def Flying (v s1 : State) (t : Strand) (x : Skein) (setf : BitVec 2) (acc : Acc) (lanes : List Lane) (fl : Flags) : Prop :=
  (∃ p ∈ v.pend, p.id = s1.key ∧ p.strands = [t.id] ∧ p.skein = x.id ∧ p.acc = acc ∧ p.lanes = lanes ∧ p.flags = fl ∧ p.tflags = fl) ∧
    ∀ f ∈ flagsOf t setf, ∃ r, strand? v t.id = some r ∧ (f, s1.key) ∈ r.holds

/-! ### Computing instructions -/

/-- The shape of an instruction that computes its results from sources read at issue and writes them at once: every such constructor; none for any
other instruction. -/
def computeShape : Instr → Option Shape
  | .fid o => some (shFid o)
  | .vote o => some (shVote o)
  | .shfl o => some (shShfl 8 o.c o.d o.a [Rd.of o.b .one] o.mode o.pv (fun e f => e.r32 f o.b.reg))
  | .shflImm32 o => some (shShfl 16 o.c o.d o.a [] o.mode o.pv (fun _ _ => o.imm))
  | .pset o => some (shPset o)
  | .psetImm32 o => some (shPsetImm o)
  | .plop o => some (shPlop o)
  | .pmov o => some (shPmov o)
  | .pmovImm32 o => some (shPmovImm o)
  | .iadd o | .isub o | .imul o | .imulh o | .idiv o | .irem o | .imin o | .imax o | .and o | .or o | .xor o | .shl o | .shr o | .sra o | .rotl o
  | .bfe o => some (shInt2 o)
  | .iaddImm32 o | .isubImm32 o | .imulImm32 o | .imulhImm32 o | .idivImm32 o | .iremImm32 o | .iminImm32 o | .imaxImm32 o | .andImm32 o | .orImm32 o
  | .xorImm32 o | .shlImm32 o | .shrImm32 o | .sraImm32 o | .rotlImm32 o | .bfeImm32 o => some (shInt2Imm o)
  | .iadd3 o | .imad o | .isad o | .bfi o => some (shInt3 o)
  | .imadImm32 o | .isadImm32 o | .bfiImm32 o => some (shInt3Imm o)
  | .iabs o | .ineg o | .not o | .popc o | .clz o | .ctz o | .brev o | .mov o => some (shInt1 o)
  | .lop3 o => some (shLop3 o)
  | .lop3Imm32 o => some (shLop3Imm o)
  | .iaddc o => some (shAddc o)
  | .iaddcImm32 o => some (shAddcImm o)
  | .sel o => some (shSel o)
  | .selImm32 o => some (shSelImm o)
  | .moviImm32 o => some (shMovi o)
  | .moviX64 o => some (shMoviX o)
  | .movw o => some (shMovw o)
  | .lea o => some (shLea o)
  | .leaImm32 o => some (shLeaImm o)
  | .icmp o => some (shIcmp o)
  | .icmpImm32 o => some (shIcmpImm o)
  | .fadd o | .fsub o | .fmul o | .fdiv o | .fmin o | .fmax o => some (shF2 o)
  | .faddImm32 o | .fsubImm32 o | .fmulImm32 o | .fdivImm32 o | .fminImm32 o | .fmaxImm32 o => some (shF2Imm o)
  | .ffma o => some (shF3 o)
  | .ffmaImm32 o => some (shF3Imm o)
  | .fabs o | .fneg o | .frnd o | .fclass o => some (shF1 2 o)
  | .frcp o | .frsq o | .fsqrt o | .fexp2 o | .flog2 o | .fsin o | .fcos o => some (shF1 3 o)
  | .fcmp o => some (shFcmp o)
  | .fcmpImm32 o => some (shFcmpImm o)
  | .hadd2 o | .hmul2 o | .hmin2 o | .hmax2 o | .vadd2 o | .vsub2 o | .vmin2 o | .vmax2 o => some (shP2 o)
  | .hadd2Imm32 o | .hmul2Imm32 o | .hmin2Imm32 o | .hmax2Imm32 o | .vadd2Imm32 o | .vsub2Imm32 o | .vmin2Imm32 o | .vmax2Imm32 o => some (shP2Imm o)
  | .hfma2 o => some (shP3 o)
  | .hfma2Imm32 o => some (shP3Imm o)
  | .acs2 o => some (shAcs2 o)
  | .cvt o => some (shCvt o)
  | .cvtb o => some (if o.dir then shCvtbFrom o else shCvtbTo o)
  | _ => none

/-- The shape that an instruction word issues with: every constructor that stands for one; none for an event of the machine. -/
def isaShape (i : Instr) : Option Shape :=
  match computeShape i with
  | some sh => some sh
  | none =>
    match i with
    | .nop o => some (shNop o)
    | .bra o => some (shBra o)
    | .brc o => some (shBrc o)
    | .brx o | .ret o => some (shBrx o)
    | .call o => some (shCall o)
    | .callx o => some (shCallx o)
    | .fspawn o => some (shSpawn o)
    | .fend o | .barSk o | .barHk o => some (shBar o)
    | .fyield o => some (shFyield o)
    | .bara o => some (shBara o)
    | .barw o => some (shBarw o)
    | .live o => some (shLive o)
    | .ld o | .ldc o => some ((LoadOp.of o).shape .two)
    | .ldImm32 o | .ldcImm32 o => some ((LoadOp.ofImm o).shape .two)
    | .lds o => some ((LoadOp.of o).shape .one)
    | .ldsImm32 o => some ((LoadOp.ofImm o).shape .one)
    | .ldaq o => some ((LoadOp.ofAq o).shape .two)
    | .ldaqImm32 o => some ((LoadOp.ofAqImm o).shape .two)
    | .st o => some ((StoreOp.of o).shape .two false true)
    | .stImm32 o => some ((StoreOp.ofImm o).shape .two false true)
    | .sts o => some ((StoreOp.of o).shape .one true false)
    | .stsImm32 o => some ((StoreOp.ofImm o).shape .one true false)
    | .strl o => some ((StoreOp.ofRl o).shape .two false true)
    | .strlImm32 o => some ((StoreOp.ofRlImm o).shape .two false true)
    | .atom o => some (AtomicOp.ofAtom 8 o.c (some o.d) o.a o.b o.x o.op o.ty o.sc o.ord 0).shape
    | .atomImm32 o => some (AtomicOp.ofAtom 16 o.c (some o.d) o.a o.b o.x o.op o.ty o.sc o.ord o.imm).shape
    | .atomf o => some (AtomicOp.ofAtomf 8 o.c (some o.d) o.a o.b o.op o.sc o.ord 0).shape
    | .atomfImm32 o => some (AtomicOp.ofAtomf 16 o.c (some o.d) o.a o.b o.op o.sc o.ord o.imm).shape
    | .red o => some (AtomicOp.ofRed 8 o.c o.a o.b o.op o.sc o.ord 0).shape
    | .redImm32 o => some (AtomicOp.ofRed 16 o.c o.a o.b o.op o.sc o.ord o.imm).shape
    | .ratom o => some (AtomicOp.ofAtom 16 o.c (some o.d) o.a o.b o.x o.op o.ty o.sc o.ord o.off).shape
    | .rstf o => some (shRstf o)
    | .publish o => some (shPublish o)
    | .pft o => some (shPft o)
    | .cctl o => some (shCctl 8 o.c o.a)
    | .cctlImm32 o => some (shCctl 16 o.c o.a)
    | .cpin o | .cunpin o => some (shPin o)
    | .cpinImm32 o | .cunpinImm32 o => some (shPinImm o)
    | .icinv o => some (shIcinv o)
    | .icinvImm32 o => some (shIcinvImm o)
    | .tld o | .tst o => some (MoveOp.ofTile o).shape
    | .ald o | .ast o => some (MoveOp.ofAcc o).shape
    | .tzero o => some (skeinShape 8 o.c [] false)
    | .tmov o => some (skeinShape 8 o.c [] false)
    | .aclr o => some (skeinShape 8 o.c [] false)
    | .acvt o => some (skeinShape 8 o.c [] false)
    | .afrag o => some (skeinShape 8 o.c [Rd.of o.a .one] false)
    | .tmma o => some (skeinShape 16 o.c [] false)
    | .wld o => some { skeinShape 16 o.c [Rd.of o.a .two] true with access := true }
    | .wlatch o => some (shWlatch o)
    | .sbuild o => some (skeinShape 8 o.c [Rd.of o.a .one, Rd.of o.b .one, Rd.of o.x .one] true)
    | .sstep o => some (skeinShape 16 o.c [Rd.of o.a .one, Rd.of o.b .one] true)
    | .slut o => some (skeinShape 16 o.c [Rd.of o.a .one, Rd.of o.b .one] true)
    | .sdrain o => some (skeinShape 16 o.c [Rd.of o.a .one, Rd.of o.b .one] true)
    | .sclass o => some (shSclass o)
    | .qput o => some (shQput o .two)
    | .feedput o => some (shQput o .one)
    | .cwait o => some (shCwait o .one)
    | .ctest o => some (shCwait o .two)
    | .sleep o | .sleepuntil o => some (leadShape 8 o.c (sleepReads o) [] false)
    | .fence o => some (leadShape 8 o.c [] [] false)
    | .fencex o => some (leadShape 8 o.c [] [] false)
    | .launch o => some (shLaunch o)
    | .feedpop o => some (shFeedpop o)
    | .idem o => some (leadShape 8 o.c [] [{ reg := o.d, wid := .one }] true)
    | .commit o | .ebrk o => some (leadShape 8 o.c [] [] false)
    | .jread o => some (leadShape 8 o.c [] [{ reg := o.d, wid := .two }] false)
    | .opreq o => some (shOpreq o)
    | .trap o => some (leadShape 8 o.c [] [] false)
    | .tret o => some (shTret o)
    | .sysrd o => some (shSysrd o)
    | .syswr o => some (shSyswr o)
    | .tlbinv o => some (shTlbinv o)
    | .ramode o => some (shRamode o)
    | _ => none

/-- What a computing instruction of shape sh, issued by strand t of skein x, leaves as it was in u, the state with its operands delivered: memory and
everything else of the machine; of the strands, all but its own place; of the contexts, all but FLAGS of its own; every other skein; and of its own,
every register that is neither a destination nor a source marked as a last use, every uniform register and predicate that is no destination. -/
structure ComputeFrame (sh : Shape) (t : Strand) (x : Skein) (act : List Nat) (u v : State) : Prop where
  rest : v = { u with skeins := v.skeins, ctxs := v.ctxs, strands := v.strands }
  strands : v.strands = updIf (fun r => r.id == t.id) (fun r => { r.advance sh.len with wait := none, again := false, st := .ready }) u.strands
  ctxs : ∃ f : Flags, v.ctxs = updIf (fun c => c.vd == x.vd && c.num == x.ctx) (fun c => { c with fpctl := c.fpctl ||| f.setWidth 64 }) u.ctxs
  skeins : ∀ k, k ≠ x.id → skein? v k = skein? u k
  vregs : ∀ f n, n < 192 → (n ∉ vecRegs (sh.writes.map (fun w => (w.reg, w.wid))) ∨ f ∉ act) → (n ∉ markedRegs sh ∨ f ∉ act) →
    vreg v x.id f n = vreg u x.id f n
  gregs : ∀ n, (∀ w ∈ sh.writes, w.reg.toNat ≠ n + 192) → greg v x.id n = greg u x.id n
  preds : ∀ f p, (p ∉ sh.pdst ∨ f ∉ act) → preg v x.id f p = preg u x.id f p

/-! ### Branches and barriers -/

/-- A branch or call of shape sh whose checks succeed (07 R153, R154; 02 R36): every active fibre stands at its target, a clause start; every other fibre
of the strand at the next word; the link register, if there is one, holds the next clause start; nothing else changes. An open region allows it where no
fibre parts from another. -/
def BranchGoes (i : Instr) (sh : Shape) (reg : Bool) (target : Env → Nat → BitVec 64) (link : Option Field8) : Prop :=
  ∀ s t x u y w, Issues sh s t x u y w →
    let e := issueEnv sh t x s
    (t.region = none ∨ ∀ f ∈ t.fibres, f ∈ e.act ∧ ∀ g ∈ t.fibres, target e f = target e g) →
    (∀ f ∈ e.act, (reg = true → bits (target e f) 0 5 = 0) ∧ canonical (target e f) = true) →
    Completes i s (fun v =>
      (∀ f ∈ t.fibres, f ∈ e.act → StartsAt v x.id f (target e f)) ∧
      (∀ f ∈ t.fibres, f ∉ e.act → ∃ r ∈ v.strands, r.skein = x.id ∧ f ∈ r.fibres ∧ r.pc = (t.advance sh.len).pc ∧ r.clause = (t.advance sh.len).clause) ∧
      (∀ d f, link = some d → Writes e d f → Holds64 v x.id f d (nextClause t)) ∧ QuietBut sh x e.act u v)

/-- A branch or call that fails (07 R153): BAD-TARGET at the first active fibre whose register target is no clause start, else TRANSLATION-FAULT at the
first whose target is not canonical; no fibre moves. -/
def BranchFails (i : Instr) (sh : Shape) (reg : Bool) (target : Env → Nat → BitVec 64) : Prop :=
  ∀ s t x u y w, Issues sh s t x u y w →
    let e := issueEnv sh t x s
    (∀ f, reg = true → e.act.find? (fun f => bits (target e f) 0 5 != 0) = some f →
      exec i s = .next (deliver u w y { Flt.plain .execute 0x14 f t.pc with va := target e f })) ∧
    (∀ f, (reg = true → ∀ g ∈ e.act, bits (target e g) 0 5 = 0) → e.act.find? (fun f => !canonical (target e f)) = some f →
      exec i s = .next (deliver u w y { Flt.plain .execute 0x11 f t.pc with access := 4, va := target e f })) ∧
    (∀ f ∈ t.fibres, ∀ g ∈ t.fibres, f ∈ e.act → g ∉ e.act → t.region.isSome = true →
      (∀ f ∈ e.act, (reg = true → bits (target e f) 0 5 = 0) ∧ canonical (target e f) = true) →
      exec i s = .next (deliver u w y (Flt.plain .execute 0x1D e.lead t.pc)))

/-- No strand but those listed waits at a barrier. -/
def OnlyWaiters (s : State) (x : Skein) (hank : Bool) (ks : List Nat) : Prop := ∀ k ∈ barrierWaiters s x hank, k ∈ ks

/-- A barrier instruction that arrives and waits (02 R44, R45, R47): while earlier writes are not complete it waits for them; then its fibres arrive, in a
generation that they open or that is open and expects them. When others are still to come the strand waits; when they are the last, the counter
advances by one and the strand goes on. -/
def BarrierArrives (i : Instr) (sh : Shape) (hank : Bool) : Prop :=
  ∀ s t x u y w, Issues sh s t x u y w →
    let e := issueEnv sh t x s
    let sc := if hank then Scope.hank else Scope.skein
    let b := barrierOf u x hank
    (fenceMet u t sc = false → Completes i s (fun v => Waits v t .ready (.fence sc) ∧ Quiet sh x e.act u v ∧ barrierOf v x hank = b)) ∧
    (fenceMet u t sc = true → OnlyWaiters u x hank [] → (hank = true → (hank? u x.hank).isSome = true) → e.act.Nodup →
      let exp := if b.opened then b.expected else livingOf u x hank
      let arr := if b.opened then b.arrived else []
      (∀ f ∈ e.act, (x.id, f) ∈ exp ∧ (x.id, f) ∉ arr) →
      ((∀ p ∈ exp, p ∈ arr ∨ p.1 = x.id ∧ p.2 ∈ e.act) → Completes i s (fun v =>
        WentOn v t 8 ∧ (barrierOf v x hank).g = b.g + 1 ∧ (barrierOf v x hank).opened = false ∧ Quiet sh x e.act u v)) ∧
      ((∃ p ∈ exp, p ∉ arr ∧ ¬ (p.1 = x.id ∧ p.2 ∈ e.act)) → Completes i s (fun v =>
        (∃ r, strand? v t.id = some r ∧ r.pc = t.pc ∧ r.st = .barrier) ∧ (barrierOf v x hank).g = b.g ∧ (barrierOf v x hank).opened = true ∧
        (∀ p, p ∈ (barrierOf v x hank).arrived ↔ p ∈ arr ∨ p.1 = x.id ∧ p.2 ∈ e.act) ∧ Quiet sh x e.act u v)))

/-! ### Accesses as they issue -/

/-- How an access of memory issues (08 R193, R194; 10 R248; 11 R273): it waits for an acquire of its strand that has not been performed; a release form
then for the strand's earlier writes; a part that is not aligned is MISALIGNED, the first of the lowest fibre; once the checks pass, the access is in flight
with the parts that the instruction gives, the strand goes on, and nothing else changes. What it reads or writes comes with its completion. -/
def AccessGoes (i : Instr) (sh : Shape) (region : Bool) (fence : Option Scope) (n : Need) (parts : Env → List Lane) (acc : Acc) (post : Strand → Lane → Lane)
    (fl : Env → Flags) : Prop :=
  ∀ s t x u y w, Issues sh s t x u y w → (region = false → t.region = none) →
    let e := issueEnv sh t x s
    (∀ p, acquiring u t = some p → Completes i s (fun v => Waits v t .ready (.acquire p.id) ∧ Quiet sh x e.act u v)) ∧
    (∀ sc, fence = some sc → acquiring u t = none → fenceMet u t sc = false → Completes i s (fun v => Waits v t .ready (.fence sc) ∧ Quiet sh x e.act u v)) ∧
    (acquiring u t = none → (∀ sc, fence = some sc → fenceMet u t sc = true) →
      (∀ l, (parts e).find? (fun l => l.size != 0 && l.va.toNat % l.size != 0) = some l →
        exec i s = .next (deliver (raise u x.vd x.ctx (fl e)) w y (accFlt n 0x10 l.fibre t.pc l.va))) ∧
      (∀ s1 ls held walked, Checked n t x u (parts e) s1 ls held walked →
        Completes i s (fun v => WentOn v t sh.len ∧ Quiet sh x e.act s1 v ∧ Flying v s1 t x sh.ctl.setf acc (ls.map (post t)) (fl e))))

/-- As AccessGoes, for an access of scratchpad (01 R18; 08 R194, R200). -/
def ScrGoes (i : Instr) (sh : Shape) (write : Bool) (parts : Env → List (Lane × BitVec 32)) (acc : Acc) (fl : Env → Flags) : Prop :=
  ∀ s t x u y w, Issues sh s t x u y w →
    let e := issueEnv sh t x s
    (∀ p, acquiring u t = some p → Completes i s (fun v => Waits v t .ready (.acquire p.id) ∧ Quiet sh x e.act u v)) ∧
    (acquiring u t = none →
      (∀ f, checkScr u x t.pc write (parts e) = .error f → exec i s = .next (deliver (raise u x.vd x.ctx (fl e)) w y f)) ∧
      (∀ ls, checkScr u x t.pc write (parts e) = .ok ls →
        Completes i s (fun v => WentOn v t sh.len ∧ Quiet sh x e.act u v ∧ Flying v u t x sh.ctl.setf acc ls (fl e))))

/-- As AccessGoes, for an instruction whose parts are checked only when it is carried out (08 R205, R207, R209). -/
def PlainGoes (i : Instr) (sh : Shape) (parts : Env → List Lane) (acc : Env → Acc) : Prop :=
  ∀ s t x u y w, Issues sh s t x u y w →
    let e := issueEnv sh t x s
    (∀ p, acquiring u t = some p → Completes i s (fun v => Waits v t .ready (.acquire p.id) ∧ Quiet sh x e.act u v)) ∧
    (acquiring u t = none →
      Completes i s (fun v => WentOn v t sh.len ∧ Quiet sh x e.act u v ∧ Flying v u t x sh.ctl.setf (acc e) (parts e) 0))

/-- The parts of a load or store: one of the format's size for each active fibre, at Addr(f) (08 R193). -/
def memParts (fmt : Fmt) (a : Src) (off : BitVec 32) (e : Env) : List Lane := e.act.map (fun f => Lane.mk0 f (e.r64 f a.reg + off.signExtend 64) fmt.size)
/-- A store's parts with their bytes (04 R106). -/
def storeParts (o : StoreOp) (e : Env) : List Lane :=
  e.act.map (fun f => { Lane.mk0 f (e.r64 f o.a.reg + o.off.signExtend 64) o.fmt.size with
    data := toBytes o.fmt.size (storeMem o.fmt e.dyn (if o.fmt.wide then (e.r64 f o.b.reg).toNat else (e.r32 f o.b.reg).toNat)).1 })
/-- The flags of a store's conversions. -/
def storeRaises (o : StoreOp) (e : Env) : Flags :=
  orFlags e.act (fun f => (storeMem o.fmt e.dyn (if o.fmt.wide then (e.r64 f o.b.reg).toNat else (e.r32 f o.b.reg).toNat)).2)
/-- An atomic's parts: the operand's bytes, and the compare value of CAS (08 R201). -/
def atomParts (o : AtomicOp) (e : Env) : List Lane :=
  let n := if o.wide then 8 else 4
  let val := fun (f : Nat) (r : Field8) => if o.wide then (e.r64 f r).toNat else (e.r32 f r).toNat
  e.act.map (fun f => { Lane.mk0 f (e.r64 f o.a.reg + o.off.signExtend 64) n with
    data := toBytes n (val f o.b.reg), cmp := BitVec.ofNat 64 (match o.x with | some x => val f x.reg | none => 0) })
/-- A load takes buffered bytes of its own open region (10 R257). -/
def takesBuffered (t : Strand) (l : Lane) : Lane := { l with fwd := bufferedAt (regionStores t) l.va l.size }

/-- A store in an open region (10 R257): it goes to the region's buffer, not to memory, a STRL with its scope; each active fibre counts 8 bytes; it holds
the completion flags that SETF selects; what its conversions flag is raised with its performance. REGION-FULL above 16 KiB. -/
def StoreBuffers (i : Instr) (o : StoreOp) (fence : Option Scope) : Prop :=
  ∀ s t x u y w r, Issues (o.shape .two false true) s t x u y w → t.region = some r → acquiring u t = none →
    (∀ sc, fence = some sc → fenceMet u t sc = true) →
    let sh := o.shape .two false true
    let e := issueEnv sh t x s
    ∀ s1 ls held walked q z, Checked { Need.plain false true with buf := true } t x u (storeParts o e) s1 ls held walked →
      strand? s1 t.id = some q → skein? s1 x.id = some z →
      (r.used + 8 * ls.length ≤ 16384 → Completes i s (fun v => WentOn v t o.len ∧ Quiet sh x e.act s1 v ∧ v.pend = s1.pend ∧
        FlagsRaised x s1 v 0 ∧ ∃ a b, strand? v t.id = some a ∧ a.region = some b ∧ b.start = r.start ∧ b.used = r.used + 8 * ls.length ∧
          b.stores = r.stores ++ ls.map (fun l => { seq := s1.key, fibre := l.fibre, va := l.va, bytes := l.data, ep := o.ep, noal := o.noal, sc := fence,
                                                     flags := (storeMem o.fmt e.dyn (if o.fmt.wide then (e.r64 l.fibre o.b.reg).toNat else (e.r32 l.fibre o.b.reg).toNat)).2 }) ∧
          (ls ≠ [] → ∀ f ∈ flagsOf t o.c.setf, (f, s1.key) ∈ a.holds))) ∧
      (16384 < r.used + 8 * ls.length → exec i s = .next (deliver (raise s1 x.vd x.ctx (storeRaises o e)) q z
        { Flt.plain .execute 0x1C e.lead t.pc with access := 2 }))

/-! ### Accesses as they complete -/

/-- An address in the side table of a compression window, where the device notes the stored form of a block that it writes (17 R381). -/
def SideTable (s : State) (a : Nat) : Prop :=
  ∃ e ∈ s.hbm.cmpwin, (bits (mget s.hbm.cmpmeta e.1) 12 40).toNat * 4096 ≤ a ∧
    a < (bits (mget s.hbm.cmpmeta e.1) 12 40).toNat * 4096 + (bits (mget s.hbm.cmpwin e.1) 2 19).toNat * 2048
/-- From u to v every byte outside given ranges of addresses, and outside the side tables of compression windows, reads as before. -/
def BytesBut (u v : State) (ranges : List (Nat × Nat)) : Prop :=
  ∀ a, (∀ r ∈ ranges, ¬ (r.1 ≤ normSpa u a ∧ normSpa u a < r.1 + r.2)) → ¬ SideTable u (normSpa u a) → byteAt v a = byteAt u a

/-- The canonical form of memory: addresses strictly rising, no byte listed that equals what an unlisted address reads as. -/
def Mem.wf (m : Mem) : Bool := mwf m.bytes

/-- An access with a key is complete: it is gone, and no strand's flag is held by it (05 R125, R128). -/
def Gone (v : State) (id : Nat) : Prop := pend? v id = none ∧ ∀ r ∈ v.strands, ∀ h ∈ r.holds, h.2 ≠ id

/-- A result of n registers can land in a fibre of x: the fibre is there, its strand is not in runahead, the destination's register lines are present. -/
def CanLand (s : State) (x : Skein) (d n f : Nat) : Prop :=
  d + n ≤ 192 ∧ (x.fibre? f).isSome = true ∧ (∃ t, holderOf s x.id f = some t ∧ t.ra = none) ∧
    ∀ i, d ≤ i → i < d + n → ∃ r ∈ x.lines, r.key = lineKey f i ∧ r.st ≠ .runahead

/-- A fibre's registers from d hold the register result of a typed load of bytes (04 R105). -/
def Loaded (v : State) (k f d : Nat) (fmt : Fmt) (bs : List Byte) : Prop :=
  if fmt.wide then vreg v k f d = bits (BitVec.ofNat 64 (loadReg fmt (ofBytes bs)).1) 0 32 ∧ vreg v k f (d + 1) = bits (BitVec.ofNat 64 (loadReg fmt (ofBytes bs)).1) 32 32
  else vreg v k f d = BitVec.ofNat 32 (loadReg fmt (ofBytes bs)).1

/-- Every part of an access is done or among those performed. -/
def Finishes (p : Pending) (ls : List (Nat × Lane)) : Prop := ∀ i l, p.lanes[i]? = some l → l.done = true ∨ (i, l) ∈ ls

/-- What an atomic access leaves in memory, of its part and the old value (08 R201, R203; 10 R251); none for an access that is no atomic. -/
def atomicResult (a : Acc) (l : Lane) (o : Nat) : Option Nat :=
  match a with
  | .atom _ op ty _ => some (atomNew op ty o (ofBytes l.data) l.cmp.toNat)
  | .atomf _ op _ => some (atomfNew op o (ofBytes l.data)).1
  | .publish => some ((o + 1) % 2 ^ 64)
  | _ => none
/-- Its destination, and whether that is 64 bits wide. -/
def atomicDest : Acc → Option (Field8 × Bool)
  | .atom d _ ty _ => d.map (fun d => (d, ty.wide))
  | .atomf d _ _ => d.map (fun d => (d, false))
  | _ => none

/-! ### Array state -/

/-- The register lines of tile registers are present, and not taken by runahead (03 R79). -/
def HasTiles (y : Skein) (ns : List Nat) : Prop := ∀ n ∈ ns, ∃ r ∈ y.lines, r.key = .tile n ∧ r.st ≠ .runahead

/-- From y to z the array state keeps every element outside the tile registers ts and the accumulators as_, the share, the latch and the class. -/
def ArrayKeeps (y z : Skein) (ts as_ : List Nat) : Prop :=
  (∀ n, n / 256 ∉ ts → mget z.tiles n = mget y.tiles n) ∧ (∀ n, n / 256 ∉ as_ → mget z.accs n = mget y.accs n) ∧
    z.share = y.share ∧ z.latch = y.latch ∧ z.cls = y.cls ∧ z.wg = y.wg

/-- Array work of an operation has joined the work that stood in u, next in issue order, and holds the flags that SETF selects (05 R125; 09 R211). -/
def JoinsArray (v u : State) (t : Strand) (x : Skein) (setf : BitVec 2) (op : ArrayOp) : Prop :=
  (∃ a, v.array = u.array ++ [a] ∧ a.id = u.key ∧ a.skein = x.id ∧ a.strands = [t.id] ∧ a.op = op ∧ a.r = 0 ∧ a.b = 0 ∧ a.pkt = none) ∧
    ∀ f ∈ flagsOf t setf, ∃ r, strand? v t.id = some r ∧ (f, u.key) ∈ r.holds

/-- A skein instruction that works on whole registers at issue (09 R211, R212): it waits for the outstanding work that has not finished with the parts it
names; where it names an accumulator or the output region of a skein that has none it is NO-ACCUMULATOR; else, its tile lines present, it does what post
says of the skein before and after, raises flags, and goes on. -/
def SkeinGoes (i : Instr) (sh : Shape) (parts : List Part) (acc : Bool) (tiles : List Nat) (bad : Env → Bool) (post : Env → Skein → Skein → Prop)
    (fl : Env → Skein → Flags) : Prop :=
  ∀ s t x u y w, Issues sh s t x u y w →
    let e := issueEnv sh t x s
    (∀ p, acquiring u t = some p → Completes i s (fun v => Waits v t .ready (.acquire p.id) ∧ Quiet sh x e.act u v)) ∧
    (acquiring u t = none →
      (conflicts u x.id parts ≠ [] → Completes i s (fun v => Waits v t .ready (.skeinWork (conflicts u x.id parts)) ∧ Quiet sh x e.act u v)) ∧
      (conflicts u x.id parts = [] →
        (acc = true → accGran x = 0 → exec i s = .next (deliver u w y (Flt.plain .execute 0x16 e.lead t.pc))) ∧
        ((acc = true → accGran x ≠ 0) → bad e = false → HasTiles y tiles →
          Completes i s (fun v => WentOn v t 8 ∧ Quiet sh x e.act u v ∧ FlagsRaised x u v (fl e y) ∧ ∃ z, skein? v x.id = some z ∧ post e y z))))

/-- The elements of a clipped region, in the order i, then j, each with its address (09 R214, R215). -/
def moveElems (o : MoveOp) (base stride : BitVec 64) : List (Nat × BitVec 64) :=
  (List.range o.rows).flatMap (fun i => (List.range o.cols).map (fun j =>
    (16 * i + j, if o.tr then base + BitVec.ofNat 64 j * stride + BitVec.ofNat 64 (elemSize o.acc * i)
      else base + BitVec.ofNat 64 i * stride + BitVec.ofNat 64 (elemSize o.acc * j))))
/-- The parts of a tile or accumulator transfer: one of the element's size for each element. -/
def moveParts (o : MoveOp) (e : Env) (data : Nat → List Byte) : List Lane :=
  let base := if o.sp then (e.r32 e.lead o.a.reg + o.off).setWidth 64 else e.r64 e.lead o.a.reg + o.off.signExtend 64
  (moveElems o base ((e.r32 e.lead o.b.reg).signExtend 64)).map (fun p =>
    { Lane.mk0 e.lead p.2 (elemSize o.acc) with elem := p.1, data := data p.1 })
/-- What a skein holds at an element of a tile register or accumulator. -/
def elemAt (z : Skein) (acc : Bool) (r k : Nat) : Nat := if acc then (mget z.accs (256 * r + k)).toNat else (mget z.tiles (256 * r + k)).toNat

/-! ### Queues and feeds -/

/-- A strand's descriptor at addr passes its checks in u, with the strand's earlier loads performed and its earlier writes globally complete: it stands at d
in s1 (10 R236, R252, R254; 11 R267). -/
def Described (u : State) (t : Strand) (x : Skein) (e : Env) (addr : BitVec 64) (s1 : State) (d : Nat) : Prop :=
  acquiring u t = none ∧ loadsOf u t = [] ∧ fenceMet u t .device = true ∧ addr.toNat % 64 = 0 ∧
    ∃ l walked, l.spa = d ∧ Checked (Need.plain true true) t x u [Lane.mk0 e.lead addr 64] s1 [l] false walked

/-- From u to v the 64 bytes of a slot and, where they lie apart, the 8 bytes of its counter are written, and nothing else in memory. -/
def SlotWritten (u v : State) (slot : Nat) (bs : List Byte) (ctr n : Nat) : Prop :=
  normSpa u slot = slot → normSpa u ctr = ctr →
    BytesBut u v [(slot, 64), (ctr, 8)] ∧
    (slot + 64 ≤ ctr ∨ ctr + 8 ≤ slot →
      (∀ k b, bs[k]? = some b → ¬ SideTable u (slot + k) → mget v.mem.bytes (slot + k) = b) ∧
      (∀ k b, (toBytes 8 n)[k]? = some b → ¬ SideTable u (ctr + k) → mget v.mem.bytes (ctr + k) = b))

/-! ### Events of the machine -/

/-- Whether a strand is on a spindle, and due for promotion there (02 R41). -/
def onSpindle (s : State) (sp : Nat) (t : Strand) : Bool := match skein? s t.skein with | some x => x.spindle == sp | none => false
def isDue (s : State) (sp : Nat) (t : Strand) : Bool := onSpindle s sp t && t.due
/-- The fibres of a skein hold again what was saved of them (02 R63). -/
def Restored (z : Skein) (saved : List SavedFibre) : Prop :=
  ∀ f ∈ z.fibres, ∀ y, saved.find? (fun y => y.id == f.id) = some y → f.regs = y.regs ∧ f.preds = y.preds ∧ f.live = y.live ∧ f.rel = y.rel

/-- The consumer of the queue mapped in slot n of CPR_QSLOT takes a packet's 64 bytes from d (15 R324, R332): it may take one, and its TYPE and ORD let it. -/
structure Serves (s : State) (n d : Nat) (s1 : State) (bs : List Byte) : Prop where
  mapped : slotDesc s n = some d
  isOpen : queueOpen s d = true
  passed : (queueOf s d).zero = false
  channel : qKind s d ≠ 0 ∨ freeChannels s d (qMill s d) ≠ []
  got : consumerGet s d (nextVa s d) 64 = (s1, .ok bs)
  typ : fieldOf bs 0 1 ≠ 0
  ord : qKind s d ≠ 1 ∨ fieldOf bs 1 1 < 128 ∨ (queueOf s d).open_ = []
/-- The turn has passed to the next slot. -/
def turned (s1 : State) (n : Nat) : State := { s1 with cp := { s1.cp with turn := (n + 1) % 256 } }

/-- Each of some lines is a whole line among pieces that an engine writes. -/
def WholeLines (full : List Nat) (ps : List (Nat × Nat)) : Prop := ∀ l ∈ full, ∃ q ∈ ps, q.1 / 128 = l ∧ q.2 = 128

/-- A packet of a type, in progress (10 R237): its VD runs and nothing decided waits to be written. -/
def InProgress (s : State) (id typ : Nat) (p : BtePkt) : Prop := pkt? s id = some p ∧ p.typ = typ ∧ pktServed s p = true ∧ p.fin = none
/-- A packet that may start and is acceptable becomes accepted, with the number of its chunks (10 R239). -/
def Accepts (ev : Nat → Nat → Instr) (typ : Nat) (prep : State → BtePkt → Prep) : Prop :=
  ∀ s id c p s1 p1, InProgress s id typ p → p.st = .waiting ∨ p.st = .moving → p.accepted = false → mayStart s p = true →
    prep s p = .go s1 p1 → (pkt? s1 id).isSome = true → p1.id = id → p1.typ = typ → p1.cmpl = 0 → 0 < p1.tile →
    Completes (ev id c) s (fun v => SameBytes s1 v ∧ ∃ q, pkt? v id = some q ∧ q.accepted = true ∧ q.st = .moving ∧ q.chunks = (p1.tile + 511) / 512)
/-- The chunks of an accepted packet (10 R238 to R240): the bytes of one move, at the cost of its VD's bandwidth; once they are globally complete the chunk is done;
with the last one the packet is over, but for COPY+ARRAY, whose command follows. -/
def MovesChunks (ev : Nat → Nat → Instr) (typ : Nat) (move : State → BtePkt → Nat → MoveOut) : Prop :=
  ∀ s id c p, InProgress s id typ p → p.st = .moving → p.accepted = true → c < p.chunks → c ∉ p.done →
    (∀ b s1 g, (∀ e ∈ p.landed, e.1 ≠ c) → chunkBucket s p.vd p.mill (chunkLen p c) = some b → move s p c = .moved s1 g → (pkt? s1 id).isSome = true →
      Completes (ev id c) s (fun v => SameBytes s1 v ∧
        (∃ q, pkt? v id = some q ∧ q.landed = p.landed ++ [(c, g)] ∧ q.moved = p.moved + chunkLen p c ∧ q.done = p.done) ∧
        ((∃ d ∈ s1.vds, d.num = p.vd ∧ ∃ e ∈ d.bte, e.mill = p.mill) → (∀ d ∈ s1.vds, ∀ k ∈ s1.vds, d.num = k.num → d = k) →
          (bteOf v p.vd p.mill).lvl = (bteOf s p.vd p.mill).lvl - chunkLen p c))) ∧
    (∀ g, p.landed.find? (fun e => e.1 == c) = some (c, g) → g = 0 ∨ g.toNat < s.gtb.toNat → p.cmpl = 0 →
      ((insNat c p.done).length < p.chunks → Completes (ev id c) s (fun v => SameBytes s v ∧ ∃ q, pkt? v id = some q ∧ c ∈ q.done ∧ q.st = .moving ∧
        (∀ e ∈ q.landed, e.1 ≠ c) ∧ ∀ k ∈ p.done, k ∈ q.done)) ∧
      (p.chunks ≤ (insNat c p.done).length → typ ≠ 2 → Completes (ev id c) s (fun v => SameBytes s v ∧ pkt? v id = none)) ∧
      (p.chunks ≤ (insNat c p.done).length → typ = 2 → Completes (ev id c) s (fun v => SameBytes s v ∧ ∃ q, pkt? v id = some q ∧ q.st = .arrayCmd)))

/-- A spindle's array has been reset (16 R366): its cells are empty, it rests until at most 20,000 GTB ticks from the step's GTB, and every hank of a skein that
it reached has ended, its lot with ARRAY-RESET. -/
def ArrayWasReset (s v : State) (n : Nat) : Prop :=
  (spindleOf v n).cells = none ∧ (∃ k, k ≤ 20000 ∧ (spindleOf v n).resetUntil = some (s.gtb + BitVec.ofNat 64 k)) ∧
    ∀ x ∈ resetSkeins s n, ∀ h, hank? s x.hank = some h → (∃ k, hank? v x.hank = some k ∧ k.failed = true) ∧
      ∀ l, h.failed = false → lot? s h.lot = some l → l.failHank = none → ∃ m, lot? v h.lot = some m ∧ m.code = 7 ∧ m.detail = 0x50

/-- A host request of n bytes at an address reaches memory (17 R374, R388; 16 R365): in another space, or through a bound logical device that is not frozen, within
its range and the usable capacity. -/
def HostReaches (s : State) (a n : Nat) : Prop :=
  a + n ≤ 2 ^ 52 ∧ (2 ^ 50 ≤ normSpa s a ∨ ∃ d e, hostVd s (normSpa s a) = some d ∧ hostVd s (normSpa s (a + n - 1)) = some e ∧ d.num = e.num ∧
    d.ldFrozen = false ∧ normSpa s a + n ≤ capacity s)
/-- From s to v the bytes from a are those given, and no other byte has changed. -/
def BytesPut (s v : State) (a : Nat) (bs : List Byte) : Prop :=
  (∀ k b, bs[k]? = some b → mget v.mem.bytes (a + k) = b) ∧ ∀ k, k < a ∨ a + bs.length ≤ k → mget v.mem.bytes k = mget s.mem.bytes k

end Machine
end Sys2Proof
end

