-- ==== Sys2Proof/Certificates/Slice0/Obligations.lean ====
section
/-! DEFINITION. The statements for the provers. -/
open Sys2Proof Sys2Proof.Machine

/-! ### Computing instructions: results -/

/-- 07 R169, R170, R173 to R175: in every fibre whose result D receives, an instruction of two integer sources leaves the row's exact result, clamped
under .sat and narrowed to the width of its type; the sources are read as the instruction issues; a uniform or a vector destination. -/
def Obligations.IntegerTwoSources : Prop :=
  ∀ p ∈ ([(Instr.iadd, Instr.iaddImm32, fun ty a b => intOf ty a + intOf ty b),
      (.isub, .isubImm32, fun ty a b => intOf ty a - intOf ty b),
      (.imul, .imulImm32, fun ty a b => intOf ty a * intOf ty b),
      (.imulh, .imulhImm32, fun ty a b => (intOf ty a * intOf ty b) / (2 ^ tyBits ty : Int)),
      (.idiv, .idivImm32, fun ty a b => if b = 0 then (if tySigned ty then -1 else 2 ^ tyBits ty - 1) else (intOf ty a).tdiv (intOf ty b)),
      (.irem, .iremImm32, fun ty a b => if b = 0 then intOf ty a else (intOf ty a).tmod (intOf ty b)),
      (.imin, .iminImm32, fun ty a b => if intOf ty b < intOf ty a then intOf ty b else intOf ty a),
      (.imax, .imaxImm32, fun ty a b => if intOf ty a < intOf ty b then intOf ty b else intOf ty a),
      (.and, .andImm32, fun _ a b => (Nat.land a b : Nat)),
      (.or, .orImm32, fun _ a b => (Nat.lor a b : Nat)),
      (.xor, .xorImm32, fun _ a b => (Nat.xor a b : Nat)),
      (.shl, .shlImm32, fun ty a b => if b % 2 ^ 32 < tyBits ty then (a * 2 ^ (b % 2 ^ 32) : Nat) else 0),
      (.shr, .shrImm32, fun ty a b => if b % 2 ^ 32 < tyBits ty then (a / 2 ^ (b % 2 ^ 32) : Nat) else 0),
      (.sra, .sraImm32, fun ty a b => (if 2 ^ (tyBits ty - 1) ≤ a then (a : Int) - 2 ^ tyBits ty else (a : Int)) / (2 ^ Nat.min (b % 2 ^ 32) (tyBits ty) : Int)),
      (.rotl, .rotlImm32, fun ty a b => (a * 2 ^ (b % 2 ^ 32 % tyBits ty) + a / 2 ^ (tyBits ty - b % 2 ^ 32 % tyBits ty) : Nat)),
      (.bfe, .bfeImm32, fun ty a b =>
        let len := Nat.min (b / 256 % 256) (tyBits ty)
        if len = 0 then 0
        else
          let y := bitsFrom (fun i => if b % 256 + i < tyBits ty then a.testBit (b % 256 + i) else tySigned ty && a.testBit (tyBits ty - 1)) len
          if tySigned ty && y.testBit (len - 1) then (y : Int) - 2 ^ len else (y : Int))] :
      List ((OpInt2 → Instr) × (OpInt2Imm → Instr) × Int2)),
    (∀ o s t x u y w, Issues (shInt2 o) s t x u y w → ∀ f, Writes (issueEnv (shInt2 o) t x s) o.d f →
      Completes (p.1 o) s (fun v => HoldsInt v x.id f o.d o.ty (clampTy o.ty o.sat
        (p.2.2 o.ty (patReg o.ty (issueEnv (shInt2 o) t x s) f o.a.reg) (patReg o.ty (issueEnv (shInt2 o) t x s) f o.b.reg))))) ∧
    (∀ o s t x u y w, Issues (shInt2Imm o) s t x u y w → ∀ f, Writes (issueEnv (shInt2Imm o) t x s) o.d f →
      Completes (p.2.1 o) s (fun v => HoldsInt v x.id f o.d o.ty (clampTy o.ty o.sat
        (p.2.2 o.ty (patReg o.ty (issueEnv (shInt2Imm o) t x s) f o.a.reg) (patImm o.ty o.imm)))))

/-- 07 R170, R171, R176: the one-source integer instructions, as IntegerTwoSources. 07 R168, R170, R176 to R178: LOP3 takes bit i from its table at the
bits i of its sources; SEL takes A or B as its predicate says; MOVI an immediate, MOVW one quarter of D anew, LEA the 64-bit sum of a base and a
shifted index. -/
def Obligations.IntegerOneSourceAndMoves : Prop :=
  (
  ∀ p ∈ ([(Instr.iabs, fun ty a => ((intOf ty a).natAbs : Int)),
      (.ineg, fun ty a => -(intOf ty a)),
      (.not, fun ty a => (2 ^ tyBits ty - 1 - a : Nat)),
      (.popc, fun ty a => (((upTo 0 (tyBits ty)).filter a.testBit).length : Nat)),
      (.clz, fun ty a => (if a = 0 then tyBits ty else tyBits ty - 1 - Nat.log2 a : Nat)),
      (.ctz, fun ty a => (((upTo 0 (tyBits ty)).find? a.testBit).getD (tyBits ty) : Nat)),
      (.brev, fun ty a => (bitsFrom (fun i => a.testBit (tyBits ty - 1 - i)) (tyBits ty) : Nat)),
      (.mov, fun ty a => intOf ty a)] : List ((OpInt1 → Instr) × Int1)),
    ∀ o s t x u y w, Issues (shInt1 o) s t x u y w → ∀ f, Writes (issueEnv (shInt1 o) t x s) o.d f →
      Completes (p.1 o) s (fun v => HoldsInt v x.id f o.d o.ty (clampTy o.ty o.sat (p.2 o.ty (patReg o.ty (issueEnv (shInt1 o) t x s) f o.a.reg))))
  ) ∧ (
  (∀ o s t x u y w, Issues (shLop3 o) s t x u y w → ∀ f, Writes (issueEnv (shLop3 o) t x s) o.d f →
    let e := issueEnv (shLop3 o) t x s
    let bit := fun (n i : Nat) => (if n.testBit i then 1 else 0 : Nat)
    Completes (.lop3 o) s (fun v => HoldsInt v x.id f o.d o.ty (bitsFrom (fun i => o.lut.getLsbD
      (4 * bit (patReg o.ty e f o.a.reg) i + 2 * bit (patReg o.ty e f o.b.reg) i + bit (patC o.ty o.x e f) i)) (tyBits o.ty) : Nat))) ∧
  (∀ o s t x u y w, Issues (shLop3Imm o) s t x u y w → ∀ f, Writes (issueEnv (shLop3Imm o) t x s) o.d f →
    let e := issueEnv (shLop3Imm o) t x s
    let bit := fun (n i : Nat) => (if n.testBit i then 1 else 0 : Nat)
    Completes (.lop3Imm32 o) s (fun v => HoldsInt v x.id f o.d o.ty (bitsFrom (fun i => o.lut.getLsbD
      (4 * bit (patReg o.ty e f o.a.reg) i + 2 * bit (patImm o.ty o.imm) i + bit (patC o.ty o.x e f) i)) (tyBits o.ty) : Nat))) ∧
  (∀ o s t x u y w, Issues (shSel o) s t x u y w → ∀ f, Writes (issueEnv (shSel o) t x s) o.d f →
    let e := issueEnv (shSel o) t x s
    Completes (.sel o) s (fun v => HoldsInt v x.id f o.d o.ty
      (if e.pred f o.ps != o.pn then (patReg o.ty e f o.a.reg : Int) else (patReg o.ty e f o.b.reg : Int)))) ∧
  (∀ o s t x u y w, Issues (shSelImm o) s t x u y w → ∀ f, Writes (issueEnv (shSelImm o) t x s) o.d f →
    let e := issueEnv (shSelImm o) t x s
    Completes (.selImm32 o) s (fun v => HoldsInt v x.id f o.d o.ty
      (if e.pred f o.ps != o.pn then (patReg o.ty e f o.a.reg : Int) else (patImm o.ty o.imm : Int)))) ∧
  (∀ o s t x u y w, Issues (shMovi o) s t x u y w → ∀ f, Writes (issueEnv (shMovi o) t x s) o.d f →
    Completes (.moviImm32 o) s (fun v => HoldsInt v x.id f o.d o.ty (patImm o.ty o.imm))) ∧
  (∀ o s t x u y w, Issues (shMoviX o) s t x u y w → ∀ f, Writes (issueEnv (shMoviX o) t x s) o.d f →
    Completes (.moviX64 o) s (fun v => Holds64 v x.id f o.d o.x)) ∧
  (∀ o s t x u y w, Issues (shMovw o) s t x u y w → ∀ f, Writes (issueEnv (shMovw o) t x s) o.d f →
    let e := issueEnv (shMovw o) t x s
    Completes (.movw o) s (fun v => if o.ty.wide then Holds64 v x.id f o.d (setBits (e.r64 f o.d) (16 * o.k.toNat) o.imm)
      else Holds32 v x.id f o.d (setBits (e.r32 f o.d) (16 * o.k.toNat) o.imm))) ∧
  (∀ o s t x u y w, Issues (shLea o) s t x u y w → ∀ f, Writes (issueEnv (shLea o) t x s) o.d f →
    let e := issueEnv (shLea o) t x s
    Completes (.lea o) s (fun v => Holds64 v x.id f o.d (e.r64 f o.a.reg + BitVec.ofInt 64 (intOf o.ty (patReg o.ty e f o.b.reg) * 2 ^ o.sh.toNat)))) ∧
  (∀ o s t x u y w, Issues (shLeaImm o) s t x u y w → ∀ f, Writes (issueEnv (shLeaImm o) t x s) o.d f →
    let e := issueEnv (shLeaImm o) t x s
    Completes (.leaImm32 o) s (fun v => Holds64 v x.id f o.d (e.r64 f o.a.reg + BitVec.ofInt 64 (intOf o.ty (patImm o.ty o.imm) * 2 ^ o.sh.toNat))))
  )

/-- 07 R170, R175: the integer instructions of three sources, the third a register or an 8-bit immediate, as IntegerTwoSources. -/
def Obligations.IntegerThreeSources : Prop :=
  (∀ p ∈ ([(Instr.iadd3, fun ty a b c => intOf ty a + intOf ty b + intOf ty c),
      (.imad, fun ty a b c => intOf ty a * intOf ty b + intOf ty c),
      (.isad, fun ty a b c => ((intOf ty a - intOf ty b).natAbs : Int) + intOf ty c),
      (.bfi, fun ty a b c => (bitsFrom (fun i =>
        if b % 256 ≤ i ∧ i < b % 256 + Nat.min (b / 256 % 256) (tyBits ty) then a.testBit (i - b % 256) else c.testBit i) (tyBits ty) : Nat))] :
      List ((OpInt3 → Instr) × Int3)),
    ∀ o s t x u y w, Issues (shInt3 o) s t x u y w → ∀ f, Writes (issueEnv (shInt3 o) t x s) o.d f →
      Completes (p.1 o) s (fun v => HoldsInt v x.id f o.d o.ty (clampTy o.ty o.sat (p.2 o.ty (patReg o.ty (issueEnv (shInt3 o) t x s) f o.a.reg)
        (patReg o.ty (issueEnv (shInt3 o) t x s) f o.b.reg) (patC o.ty o.x (issueEnv (shInt3 o) t x s) f))))) ∧
  (∀ p ∈ ([(Instr.imadImm32, fun ty a b c => intOf ty a * intOf ty b + intOf ty c),
      (.isadImm32, fun ty a b c => ((intOf ty a - intOf ty b).natAbs : Int) + intOf ty c),
      (.bfiImm32, fun ty a b c => (bitsFrom (fun i =>
        if b % 256 ≤ i ∧ i < b % 256 + Nat.min (b / 256 % 256) (tyBits ty) then a.testBit (i - b % 256) else c.testBit i) (tyBits ty) : Nat))] :
      List ((OpInt3Imm → Instr) × Int3)),
    ∀ o s t x u y w, Issues (shInt3Imm o) s t x u y w → ∀ f, Writes (issueEnv (shInt3Imm o) t x s) o.d f →
      Completes (p.1 o) s (fun v => HoldsInt v x.id f o.d o.ty (clampTy o.ty o.sat (p.2 o.ty (patReg o.ty (issueEnv (shInt3Imm o) t x s) f o.a.reg)
        (patImm o.ty o.imm) (patC o.ty o.x (issueEnv (shInt3Imm o) t x s) f)))))

/-- 07 R172, R180: IADDC adds the patterns of its sources and the carry in; D takes the low w bits, PCO the carry out; on the scalar path every
active fibre takes the lead fibre's carry. -/
def Obligations.AddWithCarry : Prop :=
  (∀ o s t x u y w, Issues (shAddc o) s t x u y w →
    let e := issueEnv (shAddc o) t x s
    let sum := fun (i : Nat) => patReg o.ty e i o.a.reg + patReg o.ty e i o.b.reg + (if o.pci ≠ 15 ∧ e.pred i o.pci = true then 1 else 0)
    (∀ f, Writes e o.d f → Completes (.iaddc o) s (fun v => HoldsInt v x.id f o.d o.ty (sum f : Nat))) ∧
    (∀ f ∈ e.act, o.pco ≠ 15 → Completes (.iaddc o) s (fun v =>
      preg v x.id f o.pco = (sum (if issueClass (shAddc o) = 0 then e.lead else f)).testBit (tyBits o.ty)))) ∧
  (∀ o s t x u y w, Issues (shAddcImm o) s t x u y w →
    let e := issueEnv (shAddcImm o) t x s
    let sum := fun (i : Nat) => patReg o.ty e i o.a.reg + patImm o.ty o.imm + (if o.pci ≠ 15 ∧ e.pred i o.pci = true then 1 else 0)
    (∀ f, Writes e o.d f → Completes (.iaddcImm32 o) s (fun v => HoldsInt v x.id f o.d o.ty (sum f : Nat))) ∧
    (∀ f ∈ e.act, o.pco ≠ 15 → Completes (.iaddcImm32 o) s (fun v =>
      preg v x.id f o.pco = (sum (if issueClass (shAddcImm o) = 0 then e.lead else f)).testBit (tyBits o.ty))))

/-- 07 R179 and 08 R187: a comparison leaves in its predicate the test of its two sources, combined with the predicate's old value as COMB says;
nothing of p15; FCMP raises what R187 says. -/
def Obligations.Comparisons : Prop :=
  let test := fun (c : Cond) (a b : Int) => match c with
    | .eq => decide (a = b) | .ne => decide (a ≠ b) | .lt => decide (a < b) | .le => decide (a ≤ b) | .gt => decide (a > b) | .ge => decide (a ≥ b)
  let comb := fun (k : Comb) (old r : Bool) => match k with | .set => r | .and => old && r | .or => old || r
  (∀ o s t x u y w, Issues (shIcmp o) s t x u y w → o.d ≠ 15 → ∀ f ∈ (issueEnv (shIcmp o) t x s).act,
    let e := issueEnv (shIcmp o) t x s
    Completes (.icmp o) s (fun v => preg v x.id f o.d =
      comb o.comb (e.pred f o.d) (test o.cond (intOf o.ty (patReg o.ty e f o.a.reg)) (intOf o.ty (patReg o.ty e f o.b.reg))))) ∧
  (∀ o s t x u y w, Issues (shIcmpImm o) s t x u y w → o.d ≠ 15 → ∀ f ∈ (issueEnv (shIcmpImm o) t x s).act,
    let e := issueEnv (shIcmpImm o) t x s
    Completes (.icmpImm32 o) s (fun v => preg v x.id f o.d =
      comb o.comb (e.pred f o.d) (test o.cond (intOf o.ty (patReg o.ty e f o.a.reg)) (intOf o.ty (patImm o.ty o.imm))))) ∧
  (∀ o s t x u y w, Issues (shFcmp o) s t x u y w → NoTraps u x →
    let e := issueEnv (shFcmp o) t x s
    let a := fun (f : Nat) => f32v (negBit (e.r32 f o.a.reg) o.na)
    let b := fun (f : Nat) => f32v (negBit (e.r32 f o.b.reg) o.nb)
    (∀ f ∈ e.act, o.d ≠ 15 → Completes (.fcmp o) s (fun v => preg v x.id f o.d = comb o.comb (e.pred f o.d) (fcondHolds o.cond (a f) (b f)))) ∧
    Completes (.fcmp o) s (fun v => FlagsRaised x u v (orFlags e.act (fun f => fcondFlags o.cond (a f) (b f))))) ∧
  (∀ o s t x u y w, Issues (shFcmpImm o) s t x u y w → NoTraps u x →
    let e := issueEnv (shFcmpImm o) t x s
    let a := fun (f : Nat) => f32v (negBit (e.r32 f o.a.reg) o.na)
    let b := f32v (negBit o.imm o.nb)
    (∀ f ∈ e.act, o.d ≠ 15 → Completes (.fcmpImm32 o) s (fun v => preg v x.id f o.d = comb o.comb (e.pred f o.d) (fcondHolds o.cond (a f) b))) ∧
    Completes (.fcmpImm32 o) s (fun v => FlagsRaised x u v (orFlags e.act (fun f => fcondFlags o.cond (a f) b))))

/-- 07 R166 to R168: PSET and PMOV of an immediate set the predicates that the mask names and leave the others; PMOV reads the predicate word with
bit 15 set; PLOP takes the bit of its table that its three predicates select. -/
def Obligations.PredicateInstructions : Prop :=
  (∀ o s t x u y w, Issues (shPset o) s t x u y w → ∀ f ∈ (issueEnv (shPset o) t x s).act, ∀ q : BitVec 4, q ≠ 15 →
    let e := issueEnv (shPset o) t x s
    Completes (.pset o) s (fun v => preg v x.id f q = if (e.r32 f o.b.reg).getLsbD q.toNat then (e.r32 f o.a.reg).getLsbD q.toNat else e.pred f q)) ∧
  (∀ o s t x u y w, Issues (shPsetImm o) s t x u y w → ∀ f ∈ (issueEnv (shPsetImm o) t x s).act, ∀ q : BitVec 4, q ≠ 15 →
    o.mask.getLsbD q.toNat = true →
    Completes (.psetImm32 o) s (fun v => preg v x.id f q = ((issueEnv (shPsetImm o) t x s).r32 f o.a.reg).getLsbD q.toNat)) ∧
  (∀ o s t x u y w, Issues (shPmovImm o) s t x u y w → ∀ f ∈ (issueEnv (shPmovImm o) t x s).act, ∀ q : BitVec 4, q ≠ 15 →
    o.mask.getLsbD q.toNat = true → Completes (.pmovImm32 o) s (fun v => preg v x.id f q = o.val.getLsbD q.toNat)) ∧
  (∀ o s t x u y w, Issues (shPmov o) s t x u y w → ∀ f, Writes (issueEnv (shPmov o) t x s) o.d f →
    Completes (.pmov o) s (fun v => ∃ r : BitVec 32, Holds32 v x.id f o.d r ∧ r.getLsbD 15 = true ∧
      (∀ q : BitVec 4, q ≠ 15 → r.getLsbD q.toNat = (issueEnv (shPmov o) t x s).pred f q) ∧ (∀ i, 16 ≤ i → r.getLsbD i = false))) ∧
  (∀ o s t x u y w, Issues (shPlop o) s t x u y w → o.d ≠ 15 → ∀ f ∈ (issueEnv (shPlop o) t x s).act,
    let e := issueEnv (shPlop o) t x s
    let bit := fun (q : BitVec 4) => if e.pred f q then 1 else 0
    Completes (.plop o) s (fun v => preg v x.id f o.d = o.lut.getLsbD (4 * bit o.a + 2 * bit o.b + bit o.x)))

/-- 07 R160, R163, R164: FID reads the value its selector names; VOTE combines a predicate, or compares a register, over the active fibres, or gathers the
ballot of the reader's block; SHFL reads the register of the fibre its mode names, or its own, and says in PV which. 07 R164: the fibre that SHFL
reads lies in the reader's block of 32, at the place its mode gives, and is active. -/
def Obligations.FibreExchange : Prop :=
  (
  (∀ o s t x u y w, Issues (shFid o) s t x u y w → ∀ f, Writes (issueEnv (shFid o) t x s) o.d f →
    let h := hank? s x.hank
    let n := match o.sel with
      | .fibre => f | .rank => x.rank | .spindle => x.spindle | .frame => x.spindle % 72 / 8 | .mill => x.spindle / 72 | .slot => x.spindle % 8
      | .fmax => x.fmax | .window => x.w | .package => s.fab.pkgid.toNat % 1024
      | .skeins => (h.map (fun k => k.skeins.length)).getD 0
      | .hank => (h.map (fun k => k.index)).getD 0
      | .hanks => ((h.bind (fun k => lot? s k.lot)).map (fun l => l.hanks)).getD 0
    Completes (.fid o) s (fun v => Holds32 v x.id f o.d (BitVec.ofNat 32 n))) ∧
  (∀ o s t x u y w, Issues (shVote o) s t x u y w →
    let e := issueEnv (shVote o) t x s
    let q := fun (i : Nat) => e.pred i o.ps != o.pn
    (o.mode = .all → bits o.d 0 4 ≠ 15#4 → ∀ f ∈ e.act, Completes (.vote o) s (fun v => preg v x.id f (bits o.d 0 4) = e.act.all q)) ∧
    (o.mode = .any → bits o.d 0 4 ≠ 15#4 → ∀ f ∈ e.act, Completes (.vote o) s (fun v => preg v x.id f (bits o.d 0 4) = e.act.any q)) ∧
    (o.mode = .eq → bits o.d 0 4 ≠ 15#4 → ∀ f ∈ e.act, Completes (.vote o) s (fun v =>
      preg v x.id f (bits o.d 0 4) = decide (∀ i ∈ e.act, ∀ j ∈ e.act, e.r32 i o.a.reg = e.r32 j o.a.reg))) ∧
    (o.mode = .ballot → ∀ f, Writes e o.d f → Completes (.vote o) s (fun v => ∃ r : BitVec 32, Holds32 v x.id f o.d r ∧
      ∀ j, j < 32 → r.getLsbD j = (e.act.contains (f / 32 * 32 + j) && q (f / 32 * 32 + j))))) ∧
  (∀ o s t x u y w, Issues (shShfl 8 o.c o.d o.a [Rd.of o.b .one] o.mode o.pv (fun e f => e.r32 f o.b.reg)) s t x u y w →
    let e := issueEnv (shShfl 8 o.c o.d o.a [Rd.of o.b .one] o.mode o.pv (fun e f => e.r32 f o.b.reg)) t x s
    let src := fun (f : Nat) => shflFrom o.mode e f (e.r32 f o.b.reg)
    (∀ f, Writes e o.d f → Completes (.shfl o) s (fun v => Holds32 v x.id f o.d (e.r32 ((src f).getD f) o.a.reg))) ∧
    (∀ f ∈ e.act, o.pv ≠ 15 → Completes (.shfl o) s (fun v => preg v x.id f o.pv = (src f).isSome))) ∧
  (∀ o s t x u y w, Issues (shShfl 16 o.c o.d o.a [] o.mode o.pv (fun _ _ => o.imm)) s t x u y w →
    let e := issueEnv (shShfl 16 o.c o.d o.a [] o.mode o.pv (fun _ _ => o.imm)) t x s
    let src := fun (f : Nat) => shflFrom o.mode e f o.imm
    (∀ f, Writes e o.d f → Completes (.shflImm32 o) s (fun v => Holds32 v x.id f o.d (e.r32 ((src f).getD f) o.a.reg))) ∧
    (∀ f ∈ e.act, o.pv ≠ 15 → Completes (.shflImm32 o) s (fun v => preg v x.id f o.pv = (src f).isSome)))
  ) ∧ (
  ∀ (m : ShflMode) (e : Env) (f i : Nat) (n : BitVec 32), shflFrom m e f n = some i ↔
    i ∈ e.act ∧ i / 32 = f / 32 ∧ (match m with
      | .idx => (i % 32 : Nat) = n.toNat | .up => i % 32 + n.toNat = f % 32 | .down => i % 32 = f % 32 + n.toNat | .xor => i % 32 = (f % 32).xor n.toNat)
  )

/-- 08 R183 to R186, 04 R107, R110: the float instructions of two, three and one source leave the rounded result of the operation on their sources,
signs inverted as NEG says, in every fibre whose result D receives; FLAGS takes every flag raised in an active fibre, while none of them is enabled
to trap. -/
def Obligations.FloatResults : Prop :=
  (∀ p ∈ ([(Instr.fadd, Instr.faddImm32, gAdd), (.fsub, .fsubImm32, gSub), (.fmul, .fmulImm32, gMul), (.fdiv, .fdivImm32, gDiv),
      (.fmin, .fminImm32, gMin), (.fmax, .fmaxImm32, gMax)] : List ((OpF2 → Instr) × (OpF2Imm → Instr) × (Mode → Nat → Nat → Nat × Flags))),
    (∀ o s t x u y w, Issues (shF2 o) s t x u y w → NoTraps u x →
      let e := issueEnv (shF2 o) t x s
      let r := fun (f : Nat) => p.2.2 (o.rm.mode e.dyn) (negBit (e.r32 f o.a.reg) o.na) (negBit (e.r32 f o.b.reg) o.nb)
      (∀ f, Writes e o.d f → Completes (p.1 o) s (fun v => Holds32 v x.id f o.d (BitVec.ofNat 32 (r f).1))) ∧
      Completes (p.1 o) s (fun v => FlagsRaised x u v (orFlags e.act (fun f => (r f).2)))) ∧
    (∀ o s t x u y w, Issues (shF2Imm o) s t x u y w → NoTraps u x →
      let e := issueEnv (shF2Imm o) t x s
      let r := fun (f : Nat) => p.2.2 (o.rm.mode e.dyn) (negBit (e.r32 f o.a.reg) o.na) (negBit o.imm o.nb)
      (∀ f, Writes e o.d f → Completes (p.2.1 o) s (fun v => Holds32 v x.id f o.d (BitVec.ofNat 32 (r f).1))) ∧
      Completes (p.2.1 o) s (fun v => FlagsRaised x u v (orFlags e.act (fun f => (r f).2))))) ∧
  (∀ p ∈ ([(Instr.fabs, 2, gSign (fun a => a % 2 ^ 31)), (.fneg, 2, gSign (fun a => a.xor (2 ^ 31))),
      (.frcp, 3, fun m a => FF.f32.div false m (.fin false 1 1) (f32v a)), (.frsq, 3, fun m a => frsq m (f32v a)),
      (.fsqrt, 3, fun m a => fsqrt m (f32v a)), (.fexp2, 3, fun m a => fexp2 m (f32v a)), (.flog2, 3, fun m a => flog2 m (f32v a)),
      (.fsin, 3, fun m a => fsin m (f32v a)), (.fcos, 3, fun m a => fcos m (f32v a)), (.frnd, 2, frnd)] :
      List ((OpF1 → Instr) × Nat × (Mode → Nat → Nat × Flags))),
    ∀ o s t x u y w, Issues (shF1 p.2.1 o) s t x u y w → NoTraps u x →
      let e := issueEnv (shF1 p.2.1 o) t x s
      let r := fun (f : Nat) => p.2.2 (o.rm.mode e.dyn) (negBit (e.r32 f o.a.reg) o.na)
      (∀ f, Writes e o.d f → Completes (p.1 o) s (fun v => Holds32 v x.id f o.d (BitVec.ofNat 32 (r f).1))) ∧
      Completes (p.1 o) s (fun v => FlagsRaised x u v (orFlags e.act (fun f => (r f).2)))) ∧
  (∀ o s t x u y w, Issues (shF3 o) s t x u y w → NoTraps u x →
    let e := issueEnv (shF3 o) t x s
    let r := fun (f : Nat) => gFma (o.rm.mode e.dyn) (negBit (e.r32 f o.a.reg) o.na) (negBit (e.r32 f o.b.reg) o.nb) (negBit (e.r32 f o.x.reg) o.nc)
    (∀ f, Writes e o.d f → Completes (.ffma o) s (fun v => Holds32 v x.id f o.d (BitVec.ofNat 32 (r f).1))) ∧
    Completes (.ffma o) s (fun v => FlagsRaised x u v (orFlags e.act (fun f => (r f).2)))) ∧
  (∀ o s t x u y w, Issues (shF3Imm o) s t x u y w → NoTraps u x →
    let e := issueEnv (shF3Imm o) t x s
    let r := fun (f : Nat) => gFma (o.rm.mode e.dyn) (negBit (e.r32 f o.a.reg) o.na) (negBit o.imm o.nb) (negBit (e.r32 f o.x.reg) o.nc)
    (∀ f, Writes e o.d f → Completes (.ffmaImm32 o) s (fun v => Holds32 v x.id f o.d (BitVec.ofNat 32 (r f).1))) ∧
    Completes (.ffmaImm32 o) s (fun v => FlagsRaised x u v (orFlags e.act (fun f => (r f).2)))) ∧
  (∀ o s t x u y w, Issues (shF1 2 o) s t x u y w → NoTraps u x → ∀ f, Writes (issueEnv (shF1 2 o) t x s) o.d f →
    let a := ((issueEnv (shF1 2 o) t x s).r32 f o.a.reg)
    let cls := if bits a 23 8 = 255#8 then (if bits a 0 23 = 0#23 then (if a.getLsbD 31 then 0 else 7) else if a.getLsbD 22 then 9 else 8)
      else if bits a 23 8 = 0#8 then (if bits a 0 23 = 0#23 then (if a.getLsbD 31 then 3 else 4) else (if a.getLsbD 31 then 2 else 5))
      else (if a.getLsbD 31 then 1 else 6)
    Completes (.fclass o) s (fun v => Holds32 v x.id f o.d (BitVec.ofNat 32 (2 ^ cls)) ∧ FlagsRaised x u v 0))

/-- 08 R189, R190, 04 R92: a packed instruction computes its two 16-bit elements apart and joins them; ACS2 selects between two sums in each and leaves
the decisions in its predicates, element 1's last; flags as FloatResults. -/
def Obligations.PackedResults : Prop :=
  (∀ p ∈ ([(Instr.hadd2, Instr.hadd2Imm32, hAdd), (.hmul2, .hmul2Imm32, hMul), (.hmin2, .hmin2Imm32, hMin), (.hmax2, .hmax2Imm32, hMax)] :
      List ((OpP2 → Instr) × (OpP2Imm → Instr) × H2)),
    (∀ o s t x u y w, Issues (shP2 o) s t x u y w → NoTraps u x →
      let e := issueEnv (shP2 o) t x s
      let r := fun (f i : Nat) => p.2.2 o.pt (o.rm.mode e.dyn) (elN (e.r32 f o.a.reg) i) (elN (e.r32 f o.b.reg) i)
      (∀ f, Writes e o.d f → Completes (p.1 o) s (fun v => Holds32 v x.id f o.d (BitVec.ofNat 16 (r f 1).1 ++ BitVec.ofNat 16 (r f 0).1))) ∧
      Completes (p.1 o) s (fun v => FlagsRaised x u v (orFlags e.act (fun f => (r f 0).2 ||| (r f 1).2)))) ∧
    (∀ o s t x u y w, Issues (shP2Imm o) s t x u y w → NoTraps u x →
      let e := issueEnv (shP2Imm o) t x s
      let r := fun (f i : Nat) => p.2.2 o.pt (o.rm.mode e.dyn) (elN (e.r32 f o.a.reg) i) (elN o.imm i)
      (∀ f, Writes e o.d f → Completes (p.2.1 o) s (fun v => Holds32 v x.id f o.d (BitVec.ofNat 16 (r f 1).1 ++ BitVec.ofNat 16 (r f 0).1))) ∧
      Completes (p.2.1 o) s (fun v => FlagsRaised x u v (orFlags e.act (fun f => (r f 0).2 ||| (r f 1).2))))) ∧
  (∀ p ∈ ([(Instr.vadd2, Instr.vadd2Imm32, vAdd), (.vsub2, .vsub2Imm32, vSub), (.vmin2, .vmin2Imm32, vMin), (.vmax2, .vmax2Imm32, vMax)] :
      List ((OpP2 → Instr) × (OpP2Imm → Instr) × V2)),
    (∀ o s t x u y w, Issues (shP2 o) s t x u y w → NoTraps u x →
      let e := issueEnv (shP2 o) t x s
      let r := fun (f i : Nat) => p.2.2 o.pt o.sat (elN (e.r32 f o.a.reg) i) (elN (e.r32 f o.b.reg) i)
      (∀ f, Writes e o.d f → Completes (p.1 o) s (fun v => Holds32 v x.id f o.d (BitVec.ofNat 16 (r f 1).1 ++ BitVec.ofNat 16 (r f 0).1))) ∧
      Completes (p.1 o) s (fun v => FlagsRaised x u v (orFlags e.act (fun f => (r f 0).2 ||| (r f 1).2)))) ∧
    (∀ o s t x u y w, Issues (shP2Imm o) s t x u y w → NoTraps u x →
      let e := issueEnv (shP2Imm o) t x s
      let r := fun (f i : Nat) => p.2.2 o.pt o.sat (elN (e.r32 f o.a.reg) i) (elN o.imm i)
      (∀ f, Writes e o.d f → Completes (p.2.1 o) s (fun v => Holds32 v x.id f o.d (BitVec.ofNat 16 (r f 1).1 ++ BitVec.ofNat 16 (r f 0).1))) ∧
      Completes (p.2.1 o) s (fun v => FlagsRaised x u v (orFlags e.act (fun f => (r f 0).2 ||| (r f 1).2))))) ∧
  (∀ o s t x u y w, Issues (shP3 o) s t x u y w → NoTraps u x →
    let e := issueEnv (shP3 o) t x s
    let r := fun (f i : Nat) => hFma o.pt (o.rm.mode e.dyn) (elN (e.r32 f o.a.reg) i) (elN (e.r32 f o.b.reg) i) (elN (e.r32 f o.x.reg) i)
    (∀ f, Writes e o.d f → Completes (.hfma2 o) s (fun v => Holds32 v x.id f o.d (BitVec.ofNat 16 (r f 1).1 ++ BitVec.ofNat 16 (r f 0).1))) ∧
    Completes (.hfma2 o) s (fun v => FlagsRaised x u v (orFlags e.act (fun f => (r f 0).2 ||| (r f 1).2)))) ∧
  (∀ o s t x u y w, Issues (shP3Imm o) s t x u y w → NoTraps u x →
    let e := issueEnv (shP3Imm o) t x s
    let r := fun (f i : Nat) => hFma o.pt (o.rm.mode e.dyn) (elN (e.r32 f o.a.reg) i) (elN o.imm i) (elN (e.r32 f o.x.reg) i)
    (∀ f, Writes e o.d f → Completes (.hfma2Imm32 o) s (fun v => Holds32 v x.id f o.d (BitVec.ofNat 16 (r f 1).1 ++ BitVec.ofNat 16 (r f 0).1))) ∧
    Completes (.hfma2Imm32 o) s (fun v => FlagsRaised x u v (orFlags e.act (fun f => (r f 0).2 ||| (r f 1).2)))) ∧
  (∀ o s t x u y w, Issues (shAcs2 o) s t x u y w → NoTraps u x →
    let e := issueEnv (shAcs2 o) t x s
    let s16 := fun (r : BitVec 32) (i : Nat) => (el r i).toInt
    let clamp := fun (n : Int) => max (-32768) (min 32767 n)
    let s1 := fun (f i : Nat) => s16 (e.r32 f o.a.reg) i + s16 (e.r32 f o.b.reg) i
    let s2 := fun (f i : Nat) => s16 (e.r32 f o.x.reg) i + s16 (e.r32 f o.b.reg) (if o.swb then 1 - i else i)
    let take2 := fun (f i : Nat) => if o.max then decide (clamp (s2 f i) > clamp (s1 f i)) else decide (clamp (s2 f i) < clamp (s1 f i))
    let r := fun (f i : Nat) => BitVec.ofInt 16 (if take2 f i then clamp (s2 f i) else clamp (s1 f i))
    (∀ f, Writes e o.d f → Completes (.acs2 o) s (fun v => Holds32 v x.id f o.d (r f 1 ++ r f 0))) ∧
    (∀ f ∈ e.act, o.pd1 ≠ 15 → Completes (.acs2 o) s (fun v => preg v x.id f o.pd1 = take2 f 1)) ∧
    (∀ f ∈ e.act, o.pd0 ≠ 15 → o.pd0 ≠ o.pd1 → Completes (.acs2 o) s (fun v => preg v x.id f o.pd0 = take2 f 0)) ∧
    Completes (.acs2 o) s (fun v => FlagsRaised x u v (orFlags e.act (fun f =>
      if [0, 1].any (fun i => decide (clamp (s1 f i) ≠ s1 f i ∨ clamp (s2 f i) ≠ s2 f i)) then flagSAT else 0))))

/-- 08 R191, R192, 04 R96, R97, R104: CVT converts one value as R104 says; CVTB makes a record of block floating point of sixteen f32 values, or f32
values of the elements of a record that its mask names; the other registers of the value run keep what they held; flags as FloatResults. -/
def Obligations.Conversions : Prop :=
  (∀ o s t x u y w, Issues (shCvt o) s t x u y w → NoTraps u x →
    let e := issueEnv (shCvt o) t x s
    let r := fun (f : Nat) => Machine.cvt o.dst o.src o.sat (o.rm.mode e.dyn) (if o.src.wide then (e.r64 f o.a.reg).toNat else (e.r32 f o.a.reg).toNat)
    (∀ f, Writes e o.d f → Completes (.cvt o) s (fun v =>
      if o.dst.wide then Holds64 v x.id f o.d (BitVec.ofNat 64 (r f).1) else Holds32 v x.id f o.d (BitVec.ofNat 32 (r f).1))) ∧
    Completes (.cvt o) s (fun v => FlagsRaised x u v (orFlags e.act (fun f => (r f).2)))) ∧
  (∀ o s t x u y w, o.dir = false → Issues (shCvtbTo o) s t x u y w → NoTraps u x →
    let e := issueEnv (shCvtbTo o) t x s
    let r := fun (f : Nat) => toBfp (bwM o.bw) ((upTo 0 16).map (fun i =>
      if o.emask.getLsbD i then some (FF.f32.decode (e.r32 f (o.a.reg + BitVec.ofNat 8 i)).toNat) else none))
    (∀ f ∈ e.act, ∀ i, i < recRegs (bwM o.bw) → Completes (.cvtb o) s (fun v =>
      vreg v x.id f (o.d.toNat + i) = (wordsOf ((r f).1.bytes (bwM o.bw)) (recRegs (bwM o.bw))).getD i 0)) ∧
    Completes (.cvtb o) s (fun v => FlagsRaised x u v (orFlags e.act (fun f => (r f).2)))) ∧
  (∀ o s t x u y w, o.dir = true → Issues (shCvtbFrom o) s t x u y w → NoTraps u x →
    let e := issueEnv (shCvtbFrom o) t x s
    let rec_ := fun (f : Nat) => Bfp.ofBytes (bwM o.bw) (runBytes e f o.a.reg (recRegs (bwM o.bw)))
    ∀ f ∈ e.act, ∀ i, i < 16 → Completes (.cvtb o) s (fun v =>
      (o.emask.getLsbD i = true → vreg v x.id f (o.d.toNat + i) = BitVec.ofNat 32 (bfpToF32 (bwM o.bw) (rec_ f) i).1) ∧
      (o.emask.getLsbD i = false → o.d.toNat + i ∉ markedRegs (shCvtbFrom o) → vreg v x.id f (o.d.toNat + i) = vreg u x.id f (o.d.toNat + i))))

/-! ### Computing instructions: what they leave alone -/

/-- 05 R131, 03 R71, R85, 04 R107: a computing instruction that takes effect, with no flag enabled to trap, goes to the next word and leaves everything
as ComputeFrame says. -/
def Obligations.ComputeFrames : Prop :=
  ∀ i sh s t x u y w, computeShape i = some sh → Issues sh s t x u y w → (sh.traps = true → NoTraps u x) →
    Completes i s (fun v => ComputeFrame sh t x (issueEnv sh t x s).act u v)

/-! ### Every instruction word -/

/-- 05 R130: GUARD names a predicate and whether it is inverted; the active fibres are those of the strand, held by the skein, for which the result is 1;
0x0F makes every fibre active, 0x1F none. -/
def Obligations.ActiveFibres : Prop :=
  ∀ (t : Strand) (x : Skein) (g : BitVec 5) (f : Nat),
    (f ∈ activeOf t x g ↔ f ∈ t.fibres ∧ ∃ y, x.fibre? f = some y ∧ (y.pred (bits g 0 4) != g.getLsbD 4) = true) ∧
    (∀ y, x.fibre? f = some y → y.pred 15 = true) ∧
    (f ∈ t.fibres → (x.fibre? f).isSome = true → f ∈ activeOf t x 0x0F) ∧ f ∉ activeOf t x 0x1F

/-- 03 R70: p15 reads as 1 in every fibre, whatever its predicate word holds; a write to it, by an instruction in or outside runahead, changes nothing. A
word put back into a fibre by a restore reads so too. -/
def Obligations.PredicateFifteen : Prop :=
  (∀ f : Fibre, f.pred 15 = true) ∧ (∀ (f : Fibre) (b : Bool), f.setPred 15 b = f) ∧
    (∀ (f : Fibre) (p : BitVec 4) (b : Bool), p ≠ 15 → (f.setPred p b).pred p = b) ∧
    (∀ (f : Fibre) (p q : BitVec 4) (b : Bool), q ≠ p → (f.setPred p b).pred q = f.pred q) ∧
    (∀ (x : Skein) (fs : List Nat) (v : Nat → List Bool) (k : Nat) (f : Fibre), (x.putPreds fs v [15]).fibre? k = some f → x.fibre? k = some f) ∧
    (∀ (x : Skein) (t : Strand) (r : RaView) (k : Nat) (f : Fibre), (raRestoreSkein x t r).fibre? k = some f → f.pred 15 = true)

/-- 05 R131: an instruction word with no active fibre goes on to the next word and does nothing more: no register, predicate or byte of memory changes,
nothing is put in flight, no flag is held or raised. 05 R132, R133; 16 R361, R364: an instruction word that fails a check of the skein or the clause
takes the first decode-class fault, at its PC, whatever its guard: its hank ends, and no part of the instruction has taken effect. -/
def Obligations.IssueChecks : Prop :=
  (
  ∀ i sh, isaShape i = some sh → ∀ s t x, AtIssue s t x → decodeCheck sh (privOf s t x) t x = none → activeOf t x sh.ctl.guard = [] →
    Completes i s (fun v => WentOn v t sh.len ∧ KeepsRegs x [] [] [] [] [] s v ∧ SameBytes s v ∧ v.pend = s.pend ∧ v.array = s.array ∧
      (∀ r, strand? v t.id = some r → r.holds = t.holds) ∧ (∀ a b c d, ctx? s a b = some c → ctx? v a b = some d → d.fpctl = c.fpctl))
  ) ∧ (
  ∀ i sh, isaShape i = some sh → ∀ s t x d, AtIssue s t x → decodeCheck sh (privOf s t x) t x = some d →
    exec i s = .next (failHank s x { Flt.plain .decode (decodeCode d) (t.fibres.headD 0xFFFF) t.pc with access := 4 }) ∧
    (d = .privileged ↔ sh.priv (privOf s t x) = true) ∧
    ∀ h, hank? s x.hank = some h → h.failed = false → Completes i s (fun v =>
      (∃ g, hank? v x.hank = some g ∧ g.failed = true) ∧ (∀ r ∈ v.strands, r.skein ∉ h.skeins) ∧ v.pend = s.pend)
  )

/-- 03 R74: a uniform write by part of the living fibres raises UNIFORM-DIVERGENT-WRITE at the instruction before anything else of it is done, whatever its
effect would have been; the return address is the instruction. A write by all of them is accepted. -/
def Obligations.UniformDivergentWrite : Prop :=
  (∀ i sh, isaShape i = some sh → ∀ s t x, AtIssue s t x → decodeCheck sh (privOf s t x) t x = none → activeOf t x sh.ctl.guard ≠ [] →
    (∃ w ∈ sh.writes, 192 ≤ w.reg.toNat) → (∃ f ∈ x.fibres, f.id ∉ activeOf t x sh.ctl.guard) →
    exec i s = .next (takeTrap (chargeIssue s sh t x) t x .uniformDivergentWrite 0 t.pc)) ∧
  (∀ (x : Skein) act (ws : List Wr), (∀ f ∈ x.fibres, f.id ∈ act) → divergentWrite x act ws = false)

/-- 03 R86: a stale read, of a register released or in a quad that is not live, returns zero; with CTX_DBG.STALE 0 it is counted, one for each active fibre
and operand, and the instruction goes on; with 1 it traps, before anything is written, at the instruction, and is not counted. A write clears the
released state.
The model's own choice in it: log 138 (an operand of several registers counts once). -/
def Obligations.StaleReads : Prop :=
  (∀ (f : Fibre) (n : Nat), (f.rel.getLsbD n = true ∨ f.live.getLsbD (n / 4) = false) → f.read n = 0) ∧
  (∀ i sh, isaShape i = some sh → ∀ s t x c, AtIssue s t x → decodeCheck sh (privOf s t x) t x = none → activeOf t x sh.ctl.guard ≠ [] →
    divergentWrite x (activeOf t x sh.ctl.guard) sh.writes = false → ctx? s x.vd x.ctx = some c → c.dbg.getLsbD 0 = true →
    0 < staleCount sh (issueEnv sh t x s) → exec i s = .next (takeTrap (chargeIssue s sh t x) t x .staleRead 0 t.pc)) ∧
  (∀ sh s t x u c, t.again = false → issueState sh t x s = .ok u → ctx? s x.vd x.ctx = some c →
    ∃ d, ctx? u x.vd x.ctx = some d ∧ d.stale = c.stale + BitVec.ofNat 64 (staleCount sh (issueEnv sh t x s))) ∧
  (∀ (f : Fibre) (n : Nat) (v : BitVec 32), n < 192 → (f.write n v).stale n = false ∧ (f.write n v).read n = v)

/-- 05 R125: an instruction that would be the 256th to hold a completion flag waits at issue, having had no effect. 10 R257: a form that an open region
forbids takes IDEM-ILLEGAL, before its own effect. 15 R342: a memory instruction that finds 64 of its skein unsent waits at issue.
The model's own choice in it: log 34 (which accesses count as sent). -/
def Obligations.FullFlag : Prop :=
  (
  ∀ i sh, isaShape i = some sh → ∀ s t x u w f, AtIssue s t x → decodeCheck sh (privOf s t x) t x = none → activeOf t x sh.ctl.guard ≠ [] →
    divergentWrite x (activeOf t x sh.ctl.guard) sh.writes = false → staleTraps (chargeIssue s sh t x) x = false → issueState sh t x s = .ok u →
    strand? u t.id = some w → w.pc = t.pc → w.clause = t.clause → fullFlag t sh.ctl.setf = some f →
    255 ≤ (t.holds.filter (fun h => h.1 == f)).length ∧ f < 16 ∧
    Completes i s (fun v => Waits v t .ready (.flagFull f) ∧ KeepsRegs x [] [] [] [] [] u v ∧ SameBytes u v ∧ v.pend = u.pend)
  ) ∧ (
  ∀ i sh, isaShape i = some sh → sh.noIdem = true → ∀ s t x u, AtIssue s t x → decodeCheck sh (privOf s t x) t x = none → activeOf t x sh.ctl.guard ≠ [] →
    divergentWrite x (activeOf t x sh.ctl.guard) sh.writes = false → staleTraps (chargeIssue s sh t x) x = false → issueState sh t x s = .ok u →
    fullFlag t sh.ctl.setf = none → t.region.isSome = true →
    exec i s = .next (deliver u t x (Flt.plain .execute 0x1B ((activeOf t x sh.ctl.guard).headD 0) t.pc))
  ) ∧ (
  ∀ i sh, isaShape i = some sh → sh.access = true → ∀ s t x u w, AtIssue s t x → decodeCheck sh (privOf s t x) t x = none →
    activeOf t x sh.ctl.guard ≠ [] → divergentWrite x (activeOf t x sh.ctl.guard) sh.writes = false → staleTraps (chargeIssue s sh t x) x = false →
    issueState sh t x s = .ok u → strand? u t.id = some w → w.pc = t.pc → w.clause = t.clause → fullFlag t sh.ctl.setf = none →
    (sh.noIdem = true → t.region = none) → u.undo = none → 64 ≤ unsentOf u x → sendOldest u x = none →
    Completes i s (fun v => Waits v t .ready .unsent ∧ KeepsRegs x [] [] [] [] [] u v ∧ SameBytes u v ∧ v.pend = u.pend)
  )

/-- 03 R79, R80, R84; 08 R194: delivering an instruction's operands, and checking an access, change no register, predicate or place of a strand, while no
strand is in runahead. -/
def Obligations.DeliveryKeeps : Prop :=
  (∀ sh t x s u, NoEpisode s → issueState sh t x s = .ok u → KeepsRegs x [] [] [] [] [] s u ∧ NoEpisode u ∧
    ∀ k r, strand? s k = some r → ∃ q, strand? u k = some q ∧ q.pc = r.pc ∧ q.clause = r.clause ∧ q.st = r.st ∧ q.fibres = r.fibres) ∧
  (∀ n (t : Strand) (x : Skein) u parts s1 ls held walked, NoEpisode u → checkLanes n x.id x t.pc u parts = (s1, .ok (ls, held, walked)) →
    KeepsRegs x [] [] [] [] [] u s1 ∧ NoEpisode s1 ∧ ls.map (fun l => (l.fibre, l.va, l.size, l.data)) = parts.map (fun l => (l.fibre, l.va, l.size, l.data)) ∧
    ∀ k r, strand? u k = some r → ∃ q, strand? s1 k = some q ∧ q.pc = r.pc ∧ q.clause = r.clause ∧ q.st = r.st ∧ q.fibres = r.fibres)

/-- 04 R109: a computing instruction has its whole effect, FLAGS included; when it is of the families that trap and the flags it raised meet TE, CAUSE then
takes exactly the raised flags and ARITH-TRAP is taken, with the next word as the return address. 03 R75: with a uniform destination only the flags of the
fibre whose result is stored, the lowest-numbered active one, can trap.
The model's own choice in it: log 128 (INFO 0). -/
def Obligations.ArithTrap : Prop :=
  ∀ i sh, computeShape i = some sh → ∀ s t x u y w, Issues sh s t x u y w → ∀ c, ctx? u x.vd x.ctx = some c →
    let e := issueEnv sh t x s
    ∃ (g : Nat → Flags) (v : State) (r : Strand) (z : Skein), ComputeFrame sh t x e.act u v ∧ FlagsRaised x u v (orFlags e.act g) ∧
      strand? v t.id = some r ∧ r.pc = t.pc + BitVec.ofNat 64 sh.len ∧ skein? v x.id = some z ∧
      let fl := if sh.writes ≠ [] ∧ ∀ w ∈ sh.writes, 192 ≤ w.reg.toNat then g e.lead else orFlags e.act g
      exec i s = .next (if sh.traps = true ∧ fl &&& fpTe c.fpctl ≠ 0 then takeTrap (setCause v x.vd x.ctx fl) r z .arithTrap 0 (t.pc + BitVec.ofNat 64 sh.len) else v)

/-! ### Steps -/

/-- 00 R8; 05 R117, R132: when a strand's turn comes, outside a due tick and queued inputs, and the bytes at its PC decode to an instruction, the step is that
instruction's meaning at that state, with the strand as the one that issues and the word recorded, followed by the end of a step; for a strand at a clause
start, from where its header has let it pass. An event that the outside brings is executed as it comes, but for an access of the host that has to wait;
one that is due comes first.
The model's own choices in it: log 15 and 134 (what comes next), 17 (fetching), 20, 141 (what the host waits for). -/
def Obligations.StepRunsTheDecodedInstruction : Prop :=
  (∀ s t x c u block i, dueFirst s = none → (∀ ev, s.inputs.head? = some ev → hostHeld s ev = true) → nextTurn s (turns s) = some (.strand t.id) →
    strand? s t.id = some t → skein? s t.skein = some x → (t.ra = none → t.arith = []) → t.clause = some c →
    blockAt { s with passed := passedBy s (turns s) (.strand t.id) } t x = (u, .ok block) →
    let bs := fetchFrom t.pc block
    let n := lenBytes (BitVec.ofNat 2 (leNat (bs.take 8)))
    n ≤ bs.length → decode (privOf u t x) bs = .ok i →
    let w : State := noWait (dropFaulted { u with cur := some t.id, word := bs.take n } t) t.id
    step s = stepOut s w (exec i w)) ∧
  (∀ s t x u r v i, dueFirst s = none → (∀ ev, s.inputs.head? = some ev → hostHeld s ev = true) → nextTurn s (turns s) = some (.strand t.id) →
    strand? s t.id = some t → skein? s t.skein = some x → (t.ra = none → t.arith = []) → t.clause = none →
    passHeader { s with passed := passedBy s (turns s) (.strand t.id) } t x = (u, some r) → fetchDecode u r (nowSkein u x) = (v, some i) →
    let w : State := noWait (dropFaulted { v with cur := some r.id } r) r.id
    step s = stepOut s w (exec i w)) ∧
  (∀ s ev rest, dueFirst s = none → s.inputs = ev :: rest → hostHeld s ev = false →
    step s = stepOut s { s with inputs := rest } (exec ev { s with inputs := rest })) ∧
  (∀ s i, dueFirst s = some i → step s = stepOut s s (exec i s)) ∧
  (∀ pre u s, stepOut pre u (.next s) = .next (stepEnd pre u s)) ∧ (∀ pre u f, stepOut pre u (.fault f) = .fault f)

/-- 03 R84: the active set of a spindle holds ready strands only, after every step from any state. -/
def Obligations.ActiveStrandsAreReady : Prop :=
  ∀ s v, step s = .next v → ∀ r ∈ v.strands, r.active = true → r.st = .ready

/-- Reset values that the manual's register maps give: of a new context, a mill, a VD, the fabric and the CP, right after power-on. 03 R84: so it is at
reset, when there is no strand.
The model's own choices in it: log 1 (memory), 2 (values that the register maps do not give). -/
def Obligations.ResetValues : Prop :=
  (
  (∀ v n, let c := Ctx.create v n
    c.fpctl = 0 ∧ c.ractl = 0x0100000000000000 ∧ c.fair = 0x200 ∧ c.lease = 0x400 ∧ c.sched = 0x10000 ∧ c.tvec = 0 ∧ c.dbg = 0 ∧ c.array = 0 ∧ c.pin = 0 ∧
      c.save = 1 ∧ c.jacc = 0 ∧ c.mtr = 0 ∧ c.bkt.lvl = 0) ∧
  (∀ m ∈ State.reset.mills, m.jceil = 0 ∧ m.sched = 0x3B9ACA00 ∧ m.arraywd = 0x10000 ∧ m.opcap = 0xB ∧ m.part = 0x100 ∧ m.elogidx = 0 ∧ m.spare = 0x404) ∧
  (∀ v ∈ State.reset.vds, v.run = 1 ∧ v.exit = 0 ∧ v.save = 0 ∧ v.mtrivl = 0x3E8 ∧ v.fltres = 0 ∧ v.bound = false) ∧
  State.reset.mills.length = 8 ∧ State.reset.vds.length = 16 ∧ State.reset.doms.length = 12 ∧ State.reset.fab.port.length = 36 ∧
  State.reset.fab.psafe = 0x12309CE54000 ∧ State.reset.fab.mycap = 1 ∧ State.reset.gtb = 0 ∧ State.reset.cp.gtbRun = false ∧ State.reset.cp.cpstat = 0 ∧
  State.reset.ctxs = [] ∧ State.reset.strands = [] ∧ State.reset.mem.bytes = []
  ) ∧ (
  ∀ r ∈ State.reset.strands, r.active = true → r.st = .ready
  )

/-! ### Control -/

/-- 07 R152 to R154, 05 R124, 02 R36: where each branch and call takes its fibres, and what CALL and CALLX leave in D. 07 R153, 10 R257: how each branch
and call fails, before any fibre has moved or a link is written. -/
def Obligations.Branches : Prop :=
  (
  let imm := fun (v : BitVec 32) (e : Env) (_ : Nat) => clauseStart e.t + v.signExtend 64 * 32
  let reg := fun (a : Src) (e : Env) (f : Nat) => e.r64 f a.reg
  (∀ o, BranchGoes (.bra o) (shBra o) false (imm o.imm) none) ∧ (∀ o, BranchGoes (.brc o) (shBrc o) false (imm o.imm) none) ∧
  (∀ o, BranchGoes (.call o) (shCall o) false (imm o.imm) (some o.d)) ∧ (∀ o, BranchGoes (.brx o) (shBrx o) true (reg o.a) none) ∧
  (∀ o, BranchGoes (.callx o) (shCallx o) true (reg o.a) (some o.d)) ∧ (∀ o, BranchGoes (.ret o) (shBrx o) true (reg o.a) none)
  ) ∧ (
  let imm := fun (v : BitVec 32) (e : Env) (_ : Nat) => clauseStart e.t + v.signExtend 64 * 32
  let reg := fun (a : Src) (e : Env) (f : Nat) => e.r64 f a.reg
  (∀ o, BranchFails (.bra o) (shBra o) false (imm o.imm)) ∧ (∀ o, BranchFails (.brc o) (shBrc o) false (imm o.imm)) ∧
  (∀ o, BranchFails (.call o) (shCall o) false (imm o.imm)) ∧ (∀ o, BranchFails (.brx o) (shBrx o) true (reg o.a)) ∧
  (∀ o, BranchFails (.callx o) (shCallx o) true (reg o.a)) ∧ (∀ o, BranchFails (.ret o) (shBrx o) true (reg o.a))
  )

/-- 07 R156, R158, 02 R32, R33: FSPAWN gives each active fibre in turn the lowest free ids, as many as it asks for while they last; the new fibres stand at
the clause named, with zero predicates, live registers and the copied ones, and D takes the count and the first id; a count out of range is BAD-COUNT, a
target that is not canonical TRANSLATION-FAULT (05 R124). FEND takes its active fibres from the skein, the strand and every barrier. -/
def Obligations.SpawnAndEnd : Prop :=
  (∀ o s t x u y w, Issues (shSpawn o) s t x u y w →
    let e := issueEnv (shSpawn o) t x s
    let n := fun (f : Nat) => (e.r32 f o.a.reg).toNat
    let free := (upTo 0 y.fmax).filter (fun i => (y.fibre? i).isNone)
    let before := fun (f : Nat) => ((e.act.takeWhile (fun g => g != f)).map n).sum
    let ids := fun (f : Nat) => (free.drop (before f)).take (n f)
    (∀ f ∈ e.act, 1 ≤ n f ∧ n f ≤ 1024) → e.act.Nodup → canonical (clauseStart t + o.imm.signExtend 64 * 32) = true → NoEpisode u →
    ∀ q, touchAll (setSkein u (spawnAll o e u).1) x.id true (spawnKeys (spawnAll o e u).1 o (spawnAll o e u).2) = .ok q →
    Completes (.fspawn o) s (fun v => WentOn v t 16 ∧ SameBytes q v ∧
      (∀ f, Writes e o.d f → Holds32 v x.id f o.d (BitVec.ofNat 32 ((ids f).length * 65536 + (ids f).headD 0xFFFF))) ∧
      (∀ f ∈ e.act, ∀ c ∈ ids f, StartsAt v x.id c (clauseStart t + o.imm.signExtend 64 * 32) ∧
        (∀ p : BitVec 4, preg v x.id c p = (p == 15)) ∧
        ∀ i, i < 192 → vreg v x.id c i = if i < o.k.toNat then e.r32 f (o.b.reg + BitVec.ofNat 8 i) else 0) ∧
      (∀ f i, f ∉ free → i < 192 → (f ∉ e.act ∨ i ≠ o.d.toNat) → (i ∉ markedRegs (shSpawn o) ∨ f ∉ e.act) → vreg v x.id f i = vreg u x.id f i))) ∧
  (∀ o s t x u y w, Issues (shSpawn o) s t x u y w → ∀ f,
    (issueEnv (shSpawn o) t x s).act.find? (fun f => let n := ((issueEnv (shSpawn o) t x s).r32 f o.a.reg).toNat; n == 0 || decide (1024 < n)) = some f →
    exec (.fspawn o) s = .next (deliver u w y (Flt.plain .execute 0x15 f t.pc))) ∧
  (∀ o s t x u y w, Issues (shSpawn o) s t x u y w →
    let e := issueEnv (shSpawn o) t x s
    (∀ f ∈ e.act, 1 ≤ (e.r32 f o.a.reg).toNat ∧ (e.r32 f o.a.reg).toNat ≤ 1024) → canonical (clauseStart t + o.imm.signExtend 64 * 32) = false →
    exec (.fspawn o) s = .next (deliver u w y
      { Flt.plain .execute 0x11 e.lead t.pc with access := 4, va := clauseStart t + o.imm.signExtend 64 * 32 })) ∧
  (∀ o s t x u y w, Issues (shBar o) s t x u y w → w.wait = none → w.fibres = t.fibres →
    let act := (issueEnv (shBar o) t x s).act
    Completes (.fend o) s (fun v => SameBytes u v ∧
      (∃ z, skein? v x.id = some z ∧ (∀ f, (z.fibre? f).isSome = true ↔ (y.fibre? f).isSome = true ∧ f ∉ act) ∧
        (∀ f ∈ act, (x.id, f) ∉ z.bar.expected ∧ (x.id, f) ∉ z.bar.arrived)) ∧
      (∀ r ∈ v.strands, r.skein = x.id → ∀ f ∈ r.fibres, f ∉ act) ∧
      ((∃ f ∈ t.fibres, f ∉ act) → WentOn v t 8) ∧ v.pend.length = u.pend.length))

/-- 02 R44, R45, R47, 07 R161: BAR.SK and BAR.HK. 02 R44, R47, 07 R161, R162: BARA arrives once earlier writes are complete and goes on with D holding the
generation it arrived in; BARW goes on when the generations its fibres name have all completed, waits otherwise for those that have not, and arrives nowhere. -/
def Obligations.Barriers : Prop :=
  (
  (∀ o, BarrierArrives (.barSk o) (shBar o) false) ∧ (∀ o, BarrierArrives (.barHk o) (shBar o) true)
  ) ∧ (
  (∀ o s t x u y w, Issues (shBara o) s t x u y w →
    let e := issueEnv (shBara o) t x s
    let sc := if o.hank then Scope.hank else Scope.skein
    let b := barrierOf u x o.hank
    let exp := if b.opened then b.expected else livingOf u x o.hank
    let arr := if b.opened then b.arrived else []
    (fenceMet u t sc = false → Completes (.bara o) s (fun v => Waits v t .ready (.fence sc) ∧ Quiet (shBara o) x e.act u v)) ∧
    (fenceMet u t sc = true → OnlyWaiters u x o.hank [] → (o.hank = true → (hank? u x.hank).isSome = true) → e.act.Nodup →
      (∀ f ∈ e.act, (x.id, f) ∈ exp ∧ (x.id, f) ∉ arr) →
      Completes (.bara o) s (fun v => WentOn v t 8 ∧ QuietBut (shBara o) x e.act u v ∧
        (∀ f, Writes e o.d f → Holds32 v x.id f o.d b.g) ∧
        (barrierOf v x o.hank).g = if ∀ p ∈ exp, p ∈ arr ∨ p.1 = x.id ∧ p.2 ∈ e.act then b.g + 1 else b.g))) ∧
  (∀ o s t x u y w, Issues (shBarw o) s t x u y w → OnlyWaiters u x o.hank [] → (o.hank = true → (hank? u x.hank).isSome = true) →
    let e := issueEnv (shBarw o) t x s
    let b := barrierOf u x o.hank
    (b.opened = true → ∃ p ∈ b.expected, p ∉ b.arrived) →
    let passes := fun (f : Nat) => 1 ≤ (b.g - e.r32 f o.a.reg).toNat ∧ (b.g - e.r32 f o.a.reg).toNat ≤ 2 ^ 31
    let marks := if o.a.last then vecRegs [(o.a.reg, .one)] else []
    ((∀ f ∈ e.act, passes f) → Completes (.barw o) s (fun v => WentOn v t 8 ∧ barrierOf v x o.hank = b ∧ SameBytes u v ∧
      KeepsRegs x e.act [] [] marks [] u v)) ∧
    ((∃ f ∈ e.act, ¬ passes f) → Completes (.barw o) s (fun v => (∃ r gens, strand? v t.id = some r ∧ r.pc = t.pc ∧ r.st = .barrier ∧
      r.wait = some (.barrier o.hank true gens [] none marks e.act) ∧ (∀ f g, (f, g) ∈ gens ↔ f ∈ e.act ∧ g = e.r32 f o.a.reg ∧ ¬ passes f)) ∧
      barrierOf v x o.hank = b ∧ Quiet (shBarw o) x e.act u v)))
  )

/-- 07 R159, R165: FYIELD makes its strand the youngest and sets its wait count to zero, the others keeping their order; LIVE sets the liveness mask of
its active fibres: a quad that becomes live reads as zero, one that is not live is stale, the others keep what they hold. 05 R139: NOP, whatever its
guard, does nothing but go on to the next word. -/
def Obligations.NopYieldAndLive : Prop :=
  (
  (∀ o s t x u y w, Issues (shFyield o) s t x u y w →
    Completes (.fyield o) s (fun v => WentOn v t 8 ∧ Quiet (shFyield o) x (issueEnv (shFyield o) t x s).act u v ∧
      (∃ r, v.strands.getLast? = some r ∧ r.id = t.id ∧ r.waitCount = 0) ∧
      v.strands.filter (fun r => r.id != t.id) = u.strands.filter (fun r => r.id != t.id))) ∧
  (∀ o s t x u y w, Issues (shLive o) s t x u y w → NoEpisode u → ∀ q, touchAll u x.id true (liveKeys o x (issueEnv (shLive o) t x s).act) = .ok q →
    ∀ f ∈ (issueEnv (shLive o) t x s).act, ∀ b, y.fibre? f = some b →
    Completes (.live o) s (fun v => WentOn v t 16 ∧ SameBytes q v ∧ ∃ z a, skein? v x.id = some z ∧ z.fibre? f = some a ∧ a.preds = b.preds ∧
      (∀ q, q < 48 → a.live.getLsbD q = (o.mask.getLsbD q && decide (q < x.w / 4))) ∧
      (∀ n, n < 192 → (o.mask.getLsbD (n / 4) && decide (n / 4 < x.w / 4)) = true → b.live.getLsbD (n / 4) = false → a.stale n = false ∧ a.read n = 0) ∧
      (∀ n, n < 192 → (o.mask.getLsbD (n / 4) && decide (n / 4 < x.w / 4)) = true → b.live.getLsbD (n / 4) = true → a.stale n = b.stale n ∧ a.read n = b.read n) ∧
      (∀ n, n < 192 → (o.mask.getLsbD (n / 4) && decide (n / 4 < x.w / 4)) = false → a.stale n = true)))
  ) ∧ (
  ∀ o s t x u y w, Issues (shNop o) s t x u y w →
    exec (.nop o) s = .next { u with strands := updIf (fun r => r.id == t.id) (fun r => { r.advance 8 with wait := none, again := false, st := .ready }) u.strands } ∧
    Completes (.nop o) s (fun v => WentOn v t 8 ∧ Quiet (shNop o) x (issueEnv (shNop o) t x s).act u v)
  )

/-! ### Memory: as instructions issue -/

/-- 08 R193 to R195, R199; 10 R248; 10 R257: loads from memory, with and without an offset. 08 R194 to R196, R200: loads from and stores to scratchpad.
The model's own choices in it: log 105 (order of checks). -/
def Obligations.LoadsAndScratchpadIssue : Prop :=
  (
  let ld := fun (i : Instr) (o : LoadOp) (const acq : Bool) =>
    AccessGoes i (o.shape .two) true none (Need.plain true false) (memParts o.fmt o.a o.off) (.load o.d o.fmt const acq o.ep o.noal) takesBuffered (fun _ => 0)
  (∀ o, ld (.ld o) (LoadOp.of o) false false) ∧ (∀ o, ld (.ldImm32 o) (LoadOp.ofImm o) false false) ∧
  (∀ o, ld (.ldc o) (LoadOp.of o) true false) ∧ (∀ o, ld (.ldcImm32 o) (LoadOp.ofImm o) true false) ∧
  (∀ o, ld (.ldaq o) (LoadOp.ofAq o) false true) ∧ (∀ o, ld (.ldaqImm32 o) (LoadOp.ofAqImm o) false true)
  ) ∧ (
  let lds := fun (i : Instr) (o : LoadOp) =>
    ScrGoes i (o.shape .one) false (fun e => e.act.map (fun f => (Lane.mk0 f 0 o.fmt.size, e.r32 f o.a.reg + o.off))) (.lds o.d o.fmt) (fun _ => 0)
  let sts := fun (i : Instr) (o : StoreOp) =>
    ScrGoes i (o.shape .one true false) true (fun e => (storeParts o e).map (fun l => ({ l with va := 0 }, e.r32 l.fibre o.a.reg + o.off))) .sts (storeRaises o)
  (∀ o, lds (.lds o) (LoadOp.of o)) ∧ (∀ o, lds (.ldsImm32 o) (LoadOp.ofImm o)) ∧ (∀ o, sts (.sts o) (StoreOp.of o)) ∧ (∀ o, sts (.stsImm32 o) (StoreOp.ofImm o))
  )

/-- 08 R193, R194, R196; 04 R106; 10 R248: stores to memory outside an open region, with and without an offset, converted as they issue; STRL waits as
FENCE does at its scope. 10 R257: the same stores in an open region.
The model's own choices in it: log 105 (order of checks). -/
def Obligations.StoresIssue : Prop :=
  (
  let st := fun (i : Instr) (o : StoreOp) (fence : Option Scope) =>
    AccessGoes i (o.shape .two false true) false fence (Need.plain false true) (storeParts o) (.store o.ep o.noal) (fun _ l => l) (storeRaises o)
  (∀ o, st (.st o) (StoreOp.of o) none) ∧ (∀ o, st (.stImm32 o) (StoreOp.ofImm o) none) ∧
  (∀ o, st (.strl o) (StoreOp.ofRl o) (some o.sc)) ∧ (∀ o, st (.strlImm32 o) (StoreOp.ofRlImm o) (some o.sc))
  ) ∧ (
  (∀ o, StoreBuffers (.st o) (StoreOp.of o) none) ∧ (∀ o, StoreBuffers (.stImm32 o) (StoreOp.ofImm o) none) ∧
  (∀ o, StoreBuffers (.strl o) (StoreOp.ofRl o) (some o.sc)) ∧ (∀ o, StoreBuffers (.strlImm32 o) (StoreOp.ofRlImm o) (some o.sc))
  )

/-- 08 R201 to R204; 10 R250: atomics, with ORD 2 or 3 after the wait of a FENCE at their scope, with the space that each form allows.
The model's own choices in it: log 105 (order of checks). -/
def Obligations.AtomicsIssue : Prop :=
  let at_ := fun (i : Instr) (o : AtomicOp) =>
    AccessGoes i o.shape true (if MemOrdRel o.ord then some o.sc else none) { Need.plain true true with atomic := true, space := o.space } (atomParts o) o.acc
      (fun _ l => l) (fun _ => 0)
  (∀ o : OpAtom, at_ (.atom o) (AtomicOp.ofAtom 8 o.c (some o.d) o.a o.b o.x o.op o.ty o.sc o.ord 0)) ∧
  (∀ o : OpAtomImm, at_ (.atomImm32 o) (AtomicOp.ofAtom 16 o.c (some o.d) o.a o.b o.x o.op o.ty o.sc o.ord o.imm)) ∧
  (∀ o : OpAtomf, at_ (.atomf o) (AtomicOp.ofAtomf 8 o.c (some o.d) o.a o.b o.op o.sc o.ord 0)) ∧
  (∀ o : OpAtomfImm, at_ (.atomfImm32 o) (AtomicOp.ofAtomf 16 o.c (some o.d) o.a o.b o.op o.sc o.ord o.imm)) ∧
  (∀ o : OpRed, at_ (.red o) (AtomicOp.ofRed 8 o.c o.a o.b o.op o.sc o.ord 0)) ∧
  (∀ o : OpRedImm, at_ (.redImm32 o) (AtomicOp.ofRed 16 o.c o.a o.b o.op o.sc o.ord o.imm)) ∧
  (∀ o : OpRatom, at_ (.ratom o) { AtomicOp.ofAtom 16 o.c (some o.d) o.a o.b o.x o.op o.ty o.sc o.ord o.off with space := ratomSpace }) ∧
  (∀ op s a, atomSpace op s a = (match spaceOf s a with
    | .local_ => none | .group _ => none | .beyond _ => some 0x18 | .host => if op = .add ∨ op = .exch ∨ op = .cas then none else some 0x18)) ∧
  (∀ s a, atomfSpace s a = (match spaceOf s a with | .local_ => none | .group _ => none | .beyond _ => some 0x18 | .host => some 0x18)) ∧
  (∀ s a, ratomSpace s a = (match spaceOf s a with | .local_ => none | .group _ => none | .beyond _ => none | .host => some 0x18))

/-- 10 R249, R251: RSTF checks its data and its flag, all in one package's memory, and goes in flight; PUBLISH after the wait of a FENCE at system scope, an
atomic add to host memory alone.
The model's own choices in it: log 29 (checks of RSTF). -/
def Obligations.ReleaseForms : Prop :=
  (∀ o s t x u y w, Issues (shRstf o) s t x u y w → acquiring u t = none →
    let sh := shRstf o
    let e := issueEnv sh t x s
    let st := StoreOp.ofRstf o
    let n := Need.plain false true
    let flag : Lane := Lane.mk0 e.lead (e.r64 e.lead o.x.reg) 8
    (∀ l, (storeParts st e).find? (fun l => l.size != 0 && l.va.toNat % l.size != 0) = some l →
      exec (.rstf o) s = .next (deliver (raise u x.vd x.ctx (storeRaises st e)) w y (accFlt n 0x10 l.fibre t.pc l.va))) ∧
    (∀ s1 ls h1 w1 s2 l h2 w2, Checked n t x u (storeParts st e) s1 ls h1 w1 → Checked n t x s1 [flag] s2 [l] h2 w2 →
      (∃ p, pkgOf s2 l.spa = some p ∧ ∀ m ∈ ls, pkgOf s2 m.spa = some p) →
      Completes (.rstf o) s (fun v => WentOn v t 16 ∧ Quiet sh x e.act s2 v ∧
        Flying v s2 t x o.c.setf (.rstf l.spa (o.inc.toNat + 1) o.sc o.ep o.noal) ls (storeRaises st e))) ∧
    (∀ s1 ls h1 w1 s2 l h2 w2 q z, Checked n t x u (storeParts st e) s1 ls h1 w1 → Checked n t x s1 [flag] s2 [l] h2 w2 →
      strand? s2 t.id = some q → skein? s2 x.id = some z → (pkgOf s2 l.spa = none ∨ ∃ m ∈ ls, pkgOf s2 m.spa ≠ pkgOf s2 l.spa) →
      exec (.rstf o) s = .next (deliver (raise s2 x.vd x.ctx (storeRaises st e)) q z (accFlt n 0x19 e.lead t.pc (e.r64 e.lead o.x.reg))))) ∧
  (∀ o : OpA, AccessGoes (.publish o) (shPublish o) true (some .system)
    { Need.plain true true with atomic := true, space := fun s a => if spaceOf s a = .host then none else some 0x18 }
    (fun e => [Lane.mk0 e.lead (e.r64 e.lead o.a.reg) 8]) .publish (fun _ l => l) (fun _ => 0))

/-- 08 R205 to R207, R209: PFT, CCTL, CPIN, CUNPIN and ICINV as they issue: what they will carry out. 05 R128; 08 R205 to R209: CACHE_OP_COMPLETE carries
out a prefetch, a cache control, a pin or a purge, and completes it. CCTL: written back, dropped at the spindle's L1, dropped at the home slice unless
pinned, or given its priority; a line that is not present stays absent. ICINV of length 2^56 or more empties the VD's instruction caches; of length 0
it purges nothing. PFT and CCTL change no register.
The model's own choices in it: log 30, 32 (a prefetch is one step), 132 (which victim stops it). -/
def Obligations.CacheInstructions : Prop :=
  (
  let range := fun (a : Src) (len : Env → Nat → BitVec 64) (e : Env) => e.act.map (fun f => { Lane.mk0 f (e.r64 f a.reg) 0 with cmp := len e f })
  let line := fun (a : Src) (off : BitVec 32) (e : Env) => e.act.map (fun f => Lane.mk0 f ((e.r64 f a.reg + off.signExtend 64) &&& ~~~127) 128)
  (∀ o : OpPft, PlainGoes (.pft o) (shPft o) (fun _ => []) (fun e =>
    .pft o.l1 o.el (dedup (e.act.map (fun f => (e.r64 f o.a.reg, e.r64 f o.b.reg, e.r64 f o.x.reg)))) o.e0.toNat o.e1.toNat o.e2.toNat)) ∧
  (∀ o : OpCctl, AccessGoes (.cctl o) (shCctl 8 o.c o.a) true none (Need.plain true false) (line o.a 0) (.cctl o.cop) (fun _ l => l) (fun _ => 0)) ∧
  (∀ o : OpCctlImm, AccessGoes (.cctlImm32 o) (shCctl 16 o.c o.a) true none (Need.plain true false) (line o.a o.imm) (.cctl o.cop) (fun _ l => l) (fun _ => 0)) ∧
  (∀ o : OpPin, PlainGoes (.cpin o) (shPin o) (range o.a (fun e f => e.r64 f o.b.reg)) (fun _ => .pin false o.d)) ∧
  (∀ o : OpPinImm, PlainGoes (.cpinImm32 o) (shPinImm o) (range o.a (fun _ _ => o.imm.setWidth 64)) (fun _ => .pin false o.d)) ∧
  (∀ o : OpPin, PlainGoes (.cunpin o) (shPin o) (range o.a (fun e f => e.r64 f o.b.reg)) (fun _ => .pin true o.d)) ∧
  (∀ o : OpPinImm, PlainGoes (.cunpinImm32 o) (shPinImm o) (range o.a (fun _ _ => o.imm.setWidth 64)) (fun _ => .pin true o.d)) ∧
  (∀ o : OpIcinv, PlainGoes (.icinv o) (shIcinv o) (range o.a (fun e f => e.r64 f o.b.reg)) (fun _ => .icinv)) ∧
  (∀ o : OpIcinvImm, PlainGoes (.icinvImm32 o) (shIcinvImm o) (range o.a (fun _ _ => o.imm.setWidth 64)) (fun _ => .icinv))
  ) ∧ (
  (∀ s id p l1 el descs e0 e1 e2, pend? s id = some p → p.acc = .pft l1 el descs e0 e1 e2 →
    Completes (.cacheOpComplete id) s (fun v => Gone v id ∧ v.skeins.map (fun x => (x.id, x.fibres, x.g)) = s.skeins.map (fun x => (x.id, x.fibres, x.g)))) ∧
  (∀ s id p cop, pend? s id = some p → p.acc = .cctl cop → Completes (.cacheOpComplete id) s (fun v => Gone v id ∧
    (∀ a, ¬ SideTable s (normSpa s a) → byteAt v a = byteAt s a) ∧
    (∀ l ∈ p.lanes, let line := l.spa / 128
      match cop with
      | .wb => (∀ x, l2Find s line = some x → ∃ y, l2Find v line = some y ∧ y.dirty = false ∧ y.pins = x.pins) ∧ (l2Find s line = none → l2Find v line = none)
      | .wbinv => ∀ x, l2Find s line = some x → (x.pins = [] → l2Find v line = none) ∧ (x.pins ≠ [] → ∃ y, l2Find v line = some y ∧ y.dirty = false ∧ y.pins = x.pins)
      | .pri ep => ∀ x, l2Find s line = some x → ∃ y, l2Find v line = some y ∧ y.ep = ep ∧ y.pins = x.pins
      | .invl1 => ∀ z ∈ v.spindles, z.num = p.spindle → ∀ c ∈ z.l1, c.line ≠ line))) ∧
  (∀ s id p unpin d l x, pend? s id = some p → p.acc = .pin unpin d → p.lanes = [l] → skein? s p.skein = some x → 192 ≤ d.toNat →
    let r := if unpin then cunpinOne s p l.va l.cmp.toNat else cpinOne s p l.va l.cmp.toNat
    Completes (.cacheOpComplete id) s (fun v => Gone v id ∧ greg v x.id (d.toNat - 192) = (BitVec.ofNat 32 r.2).setWidth 64 ∧
      (l.cmp = 0 → r.2 = 0) ∧ (unpin = false → r.2 ≤ 3))) ∧
  (∀ s id p, pend? s id = some p → p.acc = .icinv → Completes (.cacheOpComplete id) s (fun v => Gone v id ∧
    ((∃ l ∈ p.lanes, 2 ^ 56 ≤ l.cmp.toNat) → ∀ z ∈ v.spindles, ∀ b ∈ z.ic, b.vd ≠ p.vd) ∧
    ((∀ l ∈ p.lanes, l.cmp = 0) → v.spindles = s.spindles ∧ v.mem = s.mem)))
  )

/-! ### Memory: as accesses complete -/

/-- 03 R82; 05 R128; 08 R195, R200; 10 R257: LOAD_DATA_RETURN writes in each fibre the register result of the bytes of its part, those that a region's
buffer holds coming from there; all parts on one line come from one copy of it; a uniform destination takes the first part's. With its last part the
load is complete. Nothing else changes in registers. 08 R195, R198; 11 R269, R272: a load takes its line's bytes from memory as they are now, or from
a copy in its spindle's L1 whose lease has not run out.
The model's own choices in it: log 18 (copies of lines), 22 (ARITH-TRAP of a load), 109 (parts). -/
def Obligations.LoadsReturn : Prop :=
  (
  (∀ s id sel p x d fmt const acq ep noal ls line u bs, pend? s id = some p → p.acc = .load d fmt const acq ep noal → skein? s p.skein = some x →
    performing s p sel = ls → ls ≠ [] → (∀ l ∈ ls, l.2.spa / 128 = line) → (ls.map (fun l => l.2.fibre)).Nodup →
    loadLine s p x line (ls.any (fun l => l.2.uncached)) const noal ep = (u, some bs) →
    let n := if fmt.wide then 2 else 1
    ((∀ l ∈ ls, CanLand s x d.toNat n l.2.fibre) → Completes (.loadDataReturn id sel) s (fun v =>
      (∀ l ∈ ls, Loaded v x.id l.2.fibre d.toNat fmt (l.2.take bs)) ∧ KeepsRegs x (ls.map (fun l => l.2.fibre)) (upTo d.toNat n) [] [] [] s v ∧
      (Finishes p ls → Gone v id))) ∧
    (192 ≤ d.toNat → ∀ l, (0, l) ∈ ls → Completes (.loadDataReturn id sel) s (fun v =>
      let r := (loadReg fmt (ofBytes (l.take bs))).1
      greg v x.id (d.toNat - 192) = (if fmt.wide then BitVec.ofNat 64 r else (BitVec.ofNat 32 r).setWidth 64) ∧ (Finishes p ls → Gone v id)))) ∧
  (∀ s id sel p x d fmt ls, pend? s id = some p → p.acc = .lds d fmt → skein? s p.skein = some x → performing s p sel = ls → ls ≠ [] →
    (ls.map (fun l => l.2.fibre)).Nodup → (∀ l ∈ ls, CanLand s x d.toNat (if fmt.wide then 2 else 1) l.2.fibre) →
    Completes (.loadDataReturn id sel) s (fun v =>
      (∀ l ∈ ls, Loaded v x.id l.2.fibre d.toNat fmt (scrRead s l.2.spa l.2.size)) ∧ SameBytes s v ∧
      KeepsRegs x (ls.map (fun l => l.2.fibre)) (upTo d.toNat (if fmt.wide then 2 else 1)) [] [] [] s v ∧ (Finishes p ls → Gone v id)))
  ) ∧ (
  ∀ s p x line uncached const noal ep v bs, loadLine s p x line uncached const noal ep = (v, some bs) →
    bs = mgetAll s.mem.bytes (normSpa s (line * 128)) 128 ∨
      ∃ c ∈ (spindleOf s x.spindle).l1, c.line = line ∧ c.bytes = bs ∧ s.gtb.toNat < c.leaseEnd.toNat ∧ x.l1From.toNat ≤ c.granted.toNat
  )

/-- 08 R196, 10 R258: WRITE_COMPLETE puts the bytes of a store's parts, or of a COMMIT's, at their addresses, the highest-numbered fibre's where they meet;
every other byte reads as before; no register changes. With its last part the store is complete. 02 R48: what is stored to the scratchpad of a retired
skein is accepted and changes nothing.
The model's own choices in it: log 22, 31, 109. -/
def Obligations.StoresComplete : Prop :=
  (∀ s id sel p ls, pend? s id = some p → (∃ ep noal, p.acc = .store ep noal) ∨ (∃ stores, p.acc = .commitStore stores) → performing s p sel = ls → ls ≠ [] →
    (∀ l ∈ ls, ∀ k, k ≤ l.2.data.length → normSpa s (l.2.spa + k) = l.2.spa + k) →
    Completes (.writeComplete id sel) s (fun v =>
      BytesBut s v (ls.map (fun l => (l.2.spa, l.2.data.length))) ∧
      (∀ before l after, ls = before ++ l :: after → ∀ k b, l.2.data[k]? = some b →
        ¬ SideTable s (l.2.spa + k) →
        (∀ m ∈ after, ¬ (m.2.spa ≤ l.2.spa + k ∧ l.2.spa + k < m.2.spa + m.2.data.length)) → mget v.mem.bytes (l.2.spa + k) = b) ∧
      (∀ k f n q, vreg v k f n = vreg s k f n ∧ greg v k n = greg s k n ∧ preg v k f q = preg s k f q) ∧ (Finishes p ls → Gone v id))) ∧
  (∀ s id sel p ls y, pend? s id = some p → p.acc = .sts ∨ (∃ a r ep noal, p.acc = .mstore a r true ep noal) → performing s p sel = ls → ls ≠ [] → (∀ l ∈ ls, skein? s (l.2.spa / 2 ^ 32) = some y) →
    (∀ l ∈ ls, l.2.spa % 2 ^ 32 + l.2.data.length ≤ 2 ^ 32) →
    Completes (.writeComplete id sel) s (fun v => SameBytes s v ∧ (Finishes p ls → Gone v id) ∧ ∃ z, skein? v y.id = some z ∧
      (∀ before l after, ls = before ++ l :: after → ∀ k b, l.2.data[k]? = some b →
        (∀ m ∈ after, ¬ (m.2.spa ≤ l.2.spa + k ∧ l.2.spa + k < m.2.spa + m.2.data.length)) → y.retired = false → mget z.scr (l.2.spa % 2 ^ 32 + k) = b) ∧
      (y.retired = true → z.scr = y.scr) ∧
      (∀ a, (∀ l ∈ ls, ¬ (l.2.spa % 2 ^ 32 ≤ a ∧ a < l.2.spa % 2 ^ 32 + l.2.data.length)) → mget z.scr a = mget y.scr a)))

/-- 08 R201 to R203; 10 R250, R251: an atomic's part is performed at its line's home slice: memory takes the new value of the old one and the operand, the
destination, where there is one, the old one; no other byte changes. 08 R201: what an integer atomic leaves in memory, of the old value o, the operand
b and the compare value c, each below 2^w.
The model's own choices in it: log 109 (parts). -/
def Obligations.AtomicsPerform : Prop :=
  (
  ∀ s id sel p x i l r, pend? s id = some p → skein? s p.skein = some x → performing s p sel = [(i, l)] → normSpa s l.spa = l.spa →
    let u := atomicLine s p.acct (l.spa / 128) l.uncached
    let o := readNat u l.spa l.size
    poisoned s l.spa l.size = false → atomicResult p.acc l o = some r →
    (atomicDest p.acc = none → Completes (.writeComplete id sel) s (fun v =>
      readNat v l.spa l.size = r % 256 ^ l.size ∧ BytesBut s v [(l.spa, l.size)] ∧ (Finishes p [(i, l)] → Gone v id))) ∧
    (∀ d wide, atomicDest p.acc = some (d, wide) → CanLand s x d.toNat (if wide then 2 else 1) l.fibre → Completes (.loadDataReturn id sel) s (fun v =>
      readNat v l.spa l.size = r % 256 ^ l.size ∧ BytesBut s v [(l.spa, l.size)] ∧ (Finishes p [(i, l)] → Gone v id) ∧
      KeepsRegs x [l.fibre] (upTo d.toNat (if wide then 2 else 1)) [] [] [] s v ∧
      (if wide then vreg v x.id l.fibre d.toNat = bits (BitVec.ofNat 64 o) 0 32 ∧ vreg v x.id l.fibre (d.toNat + 1) = bits (BitVec.ofNat 64 o) 32 32
        else vreg v x.id l.fibre d.toNat = BitVec.ofNat 32 o)))
  ) ∧ (
  ∀ (ty : IntTy) (o b c : Nat), o < 2 ^ tyBits ty → b < 2 ^ tyBits ty →
    let v := fun (n : Nat) => if tySigned ty then (if n < 2 ^ (tyBits ty - 1) then (n : Int) else (n : Int) - 2 ^ tyBits ty) else (n : Int)
    atomNew .add ty o b c = (o + b) % 2 ^ tyBits ty ∧ atomNew .exch ty o b c = b ∧ atomNew .cas ty o b c = (if o = c then b else o) ∧
    v (atomNew .min ty o b c) = min (v o) (v b) ∧ v (atomNew .max ty o b c) = max (v o) (v b) ∧
    atomNew .and ty o b c = o.land b ∧ atomNew .or ty o b c = o.lor b ∧ atomNew .xor ty o b c = o.xor b ∧
    atomNew .inc ty o b c = (if b ≤ o then 0 else o + 1) ∧ atomNew .dec ty o b c = (if o = 0 ∨ b < o then b else o - 1)
  )

/-- 10 R246, R249: GLOBALLY_COMPLETE lets a strand that waits as FENCE does go on once its earlier writes are complete and, at device scope or wider, GTB
has passed its horizon, at the scope of the group or wider its fabric writes have been acknowledged, and at system scope its writes to host windows have
reached the host's ordering point; until then the strand waits. RSTF's flag is incremented once its data is complete and, at device scope or wider,
globally complete and acknowledged.
The model's own choice in it: log 133 (when a write reaches the host's ordering point). -/
def Obligations.GlobalCompletion : Prop :=
  (∀ s k t sc, strand? s k = some t → t.wait = some (.fence sc) → 
    (∀ p ∈ s.pend, p.strands.contains k = true → ∀ q, pend? s p.id = some q → ∀ a b c d e, q.acc ≠ .rstf a b c d e) →
    Completes (.globallyComplete k) s (fun v => SameBytes s v ∧ ∃ r, strand? v k = some r ∧ r.pc = t.pc ∧ r.clause = t.clause ∧
      (r.wait = none ↔ (∀ p ∈ s.pend, p.strands.contains t.id = true → p.acc.writes = false) ∧ (sc = .skein ∨ sc = .hank ∨ t.h.toNat < s.gtb.toNat) ∧
        (sc = .skein ∨ sc = .hank ∨ sc = .device ∨ ∀ a ∈ t.acks, ∀ w ∈ (linkOf s a.1 a.2.1).unacked, w.1 ≠ a.2.2) ∧
        (sc = .system → t.hostAt.toNat < s.gtb.toNat)))) ∧
  (∀ s id p flag inc sc ep noal, pend? s id = some p → p.acc = .rstf flag inc sc ep noal → p.lanes.all (fun l => l.done) = true → normSpa s flag = flag →
    (∀ l ∈ flagPart p, (∀ q ∈ s.pend, holdsBack q p l = false) ∧ lineBusy s (l.spa / 128) = false) →
    let u := atomicLine (dropL1 s p.spindle (flag / 128)) p.acct (flag / 128) false
    let far := ∀ k ∈ p.strands, ∀ t, strand? s k = some t → fabAcked s t = true
    poisoned s flag 8 = false →
    ((sc = .skein ∨ sc = .hank ∨ p.gwct.toNat < s.gtb.toNat ∧ far) → Completes (.writeComplete id []) s (fun v =>
      readNat v flag 8 = (readNat u flag 8 + inc) % 2 ^ 64 ∧ BytesBut s v [(flag, 8)] ∧ Gone v id)) ∧
    (¬ (sc = .skein ∨ sc = .hank ∨ p.gwct.toNat < s.gtb.toNat ∧ far) → exec (.writeComplete id []) s = .next s)) ∧
  (∀ s id sel p flag inc sc ep noal ls, pend? s id = some p → p.acc = .rstf flag inc sc ep noal → performing s p sel = ls → ls ≠ [] →
    (∃ l ∈ p.lanes, l.done = false ∧ ∀ i, (i, l) ∉ ls) → (∀ l ∈ ls, ∀ k, k ≤ l.2.data.length → normSpa s (l.2.spa + k) = l.2.spa + k) →
    Completes (.writeComplete id sel) s (fun v => BytesBut s v (ls.map (fun l => (l.2.spa, l.2.data.length))) ∧
      (∀ l ∈ ls, (∀ m ∈ ls, m = l ∨ ¬ (m.2.spa < l.2.spa + l.2.data.length ∧ l.2.spa < m.2.spa + m.2.data.length)) →
        ∀ k b, l.2.data[k]? = some b → ¬ SideTable s (l.2.spa + k) → mget v.mem.bytes (l.2.spa + k) = b) ∧ (pend? v id).isSome = true))

/-- 08 R207, R208: CPIN answers 3 when a line of its range does not translate to device memory, 1 when the lines newly pinned would pass CTX_PIN.LIMIT, 2
when they do not fit in the VD's share or cannot be had there; else 0 and the count grows by them. Nothing is pinned unless it answers 0. CUNPIN, which needs
no permission, answers, and takes from the count, the lines of the range that the context had pinned; afterwards it pins none of them.
The model's own choices in it: log 30 (order of the failures). -/
def Obligations.Pins : Prop :=
  ∀ s p va len,
    (∀ v n, cpinOne s p va len = (v, n) →
      let q := pinLines p true (va &&& ~~~127) (rangeLines va len) s
      let new := (dedup q.2.1).filter (fun l => !pinnedBy q.1 p.vd p.ctx l)
      (q.2.2 = false → n = 3) ∧
      (q.2.2 = true → ∀ e, ctx? q.1 p.vd p.ctx = some e → new ≠ [] →
        ((bits e.pin 32 32).toNat < (bits e.pin 0 32).toNat + new.length → n = 1) ∧
        ((bits e.pin 0 32).toNat + new.length ≤ (bits e.pin 32 32).toNat → pinsFit q.1 p.vd new = false → n = 2) ∧
        ((bits e.pin 0 32).toNat + new.length ≤ (bits e.pin 32 32).toNat → pinsFit q.1 p.vd new = true →
          ((∃ l ∈ new, pinnedBy (new.foldl (pinLine p) q.1) p.vd p.ctx l = false) → n = 2) ∧
          ((∀ l ∈ new, pinnedBy (new.foldl (pinLine p) q.1) p.vd p.ctx l = true) → n = 0 ∧ (∀ l ∈ new, pinnedBy v p.vd p.ctx l = true) ∧
            ∀ f, ctx? v p.vd p.ctx = some f → bits f.pin 0 32 = bits e.pin 0 32 + BitVec.ofNat 32 new.length))) ∧
      (n ≠ 0 → v.mem.l2 = q.1.mem.l2)) ∧
    (∀ v n, cunpinOne s p va len = (v, n) →
      let q := pinLines p false (va &&& ~~~127) (rangeLines va len) s
      let mine := (dedup q.2.1).filter (pinnedBy q.1 p.vd p.ctx)
      n = mine.length ∧ (∀ l ∈ q.2.1, pinnedBy v p.vd p.ctx l = false) ∧
      ∀ e f, ctx? q.1 p.vd p.ctx = some e → ctx? v p.vd p.ctx = some f → bits f.pin 0 32 = bits e.pin 0 32 - BitVec.ofNat 32 mine.length)

/-! ### Tiles, accumulators and the array -/

/-- 09 R211, R212, R216, R218, R219: TZERO, TMOV, ACLR, ACVT and AFRAG work on whole registers at issue. AFRAG past the last output row is ARRAY-OPERAND,
cause 1. -/
def Obligations.WholeRegisters : Prop :=
  (∀ o : OpTzero, SkeinGoes (.tzero o) (skeinShape 8 o.c [] false) [o.d.toNat] false [o.d.toNat] (fun _ => false) (fun _ y z =>
    (∀ k, k < 256 → mget z.tiles (256 * o.d.toNat + k) = 0) ∧ ArrayKeeps y z [o.d.toNat] [] ∧ z.out = y.out) (fun _ _ => 0)) ∧
  (∀ o : OpTmov, SkeinGoes (.tmov o) (skeinShape 8 o.c [] false) [o.d.toNat, o.a.toNat] false [o.a.toNat, o.d.toNat] (fun _ => false) (fun _ y z =>
    (∀ i j, i < 16 → j < 16 → mget z.tiles (256 * o.d.toNat + 16 * i + j) = mget y.tiles (256 * o.a.toNat + if o.tr then 16 * j + i else 16 * i + j)) ∧
      ArrayKeeps y z [o.d.toNat] [] ∧ z.out = y.out) (fun _ _ => 0)) ∧
  (∀ o : OpAclr, let as_ := if o.all then List.range 8 else [o.d.toNat]
    SkeinGoes (.aclr o) (skeinShape 8 o.c [] false) (as_.map accPart) true [] (fun _ => false) (fun _ y z =>
      (∀ a ∈ as_, ∀ k, k < 256 → mget z.accs (256 * a + k) = 0) ∧ ArrayKeeps y z [] as_ ∧ z.out = y.out) (fun _ _ => 0)) ∧
  (∀ o : OpAcvt,
    let r := fun (e : Env) (y : Skein) (k : Nat) =>
      (if o.bf then FF.bf16 else FF.f16).convert (o.rm.mode e.dyn) (FF.f32.decode (mget y.accs (256 * o.a.toNat + k)).toNat)
    SkeinGoes (.acvt o) (skeinShape 8 o.c [] false) [accPart o.a.toNat, o.d.toNat] true [o.d.toNat] (fun _ => false) (fun e y z =>
      (∀ k, k < 256 → mget z.tiles (256 * o.d.toNat + k) = BitVec.ofNat 16 (r e y k).1) ∧ ArrayKeeps y z [o.d.toNat] [] ∧ z.out = y.out)
      (fun e y => orFlags (List.range 256) (fun k => (r e y k).2))) ∧
  (∀ o : OpAfrag,
    let row := fun (e : Env) => (e.r32 e.lead o.a.reg).toNat
    let at_ := fun (e : Env) (i j : Nat) => 128 * (row e + i) + 16 * o.cb.toNat + j
    SkeinGoes (.afrag o) (skeinShape 8 o.c [Rd.of o.a .one] false) [accPart o.d.toNat, outPart] true [] (fun e => decide (outRows e.x < row e + 16))
      (fun e y z => ArrayKeeps y z [] (if o.dir then [] else [o.d.toNat]) ∧
        (∀ i j, i < 16 → j < 16 → if o.dir then mget z.out (at_ e i j) = mget y.accs (256 * o.d.toNat + 16 * i + j)
          else mget z.accs (256 * o.d.toNat + 16 * i + j) = mget y.out (at_ e i j)) ∧
        (∀ n, (o.dir = true → ∀ i j, i < 16 → j < 16 → n ≠ at_ e i j) → mget z.out n = mget y.out n)) (fun _ _ => 0)) ∧
  (∀ (o : OpAfrag) s t x u y w, Issues (skeinShape 8 o.c [Rd.of o.a .one] false) s t x u y w → acquiring u t = none →
    let e := issueEnv (skeinShape 8 o.c [Rd.of o.a .one] false) t x s
    conflicts u x.id [accPart o.d.toNat, outPart] = [] → accGran x ≠ 0 → outRows x < (e.r32 e.lead o.a.reg).toNat + 16 →
    exec (.afrag o) s = .next (deliver u w y { Flt.plain .execute 0x1A e.lead t.pc with detail := 1 }))

/-- 09 R211 to R215; 10 R257: TLD and ALD clear their register and put the loads of the region's elements in flight; TST and AST put the stores of the
region's elements, read at issue, in flight, or into an open region's buffer. An element that is not aligned is MISALIGNED. 09 R213, R215:
LOAD_DATA_RETURN writes the elements of TLD and ALD that one line, or scratchpad, gives; WRITE_COMPLETE the bytes of TST and AST. -/
def Obligations.TileMoves : Prop :=
  (
  let move := fun (i : Instr) (o : MoveOp) (out : Bool) =>
    ∀ s t x u y w, Issues o.shape s t x u y w → acquiring u t = none →
      let e := issueEnv o.shape t x s
      let ids := conflicts u x.id [if o.acc then accPart o.r else o.r]
      let parts := moveParts o e (fun k => if out then toBytes (elemSize o.acc) (elemAt y o.acc o.r k) else [])
      let n := { Need.plain (!out) out with buf := out && t.region.isSome }
      let ts := if o.acc then [] else [o.r]
      let in_ := fun (v s1 : State) => WentOn v t 16 ∧ Quiet o.shape x e.act s1 v ∧ ∃ z, skein? v x.id = some z ∧ z.out = y.out ∧
        if out then ArrayKeeps y z [] [] else ArrayKeeps y z ts (if o.acc then [o.r] else []) ∧ ∀ k, k < 256 → elemAt z o.acc o.r k = 0
      (ids ≠ [] → Completes i s (fun v => Waits v t .ready (.skeinWork ids) ∧ Quiet o.shape x e.act u v)) ∧
      (ids = [] → (o.acc = true → accGran x = 0 → exec i s = .next (deliver u w y (Flt.plain .execute 0x16 e.lead t.pc)))) ∧
      (ids = [] → (o.acc = true → accGran x ≠ 0) →
        (∀ l, parts.find? (fun l => l.va.toNat % elemSize o.acc != 0) = some l → exec i s = .next (deliver u w y (accFlt n 0x10 e.lead t.pc l.va))) ∧
        (o.sp = true → ∀ ls, checkScr u x t.pc out (parts.map (fun l => (l, bits l.va 0 32))) = .ok ls → HasTiles y ts →
          Completes i s (fun v => in_ v u ∧ Flying v u t x o.c.setf (if out then .mstore o.acc o.r o.sp o.ep o.noal else .mload o.acc o.r o.rows o.cols o.sp o.ep o.noal) ls 0)) ∧
        (o.sp = false → ∀ s1 ls held walked z, Checked n t x u parts s1 ls held walked → skein? s1 x.id = some z → ArrayKeeps y z [] [] → z.out = y.out →
          HasTiles z ts →
          ((out = true → t.region = none) → Completes i s (fun v => in_ v s1 ∧
            Flying v s1 t x o.c.setf (if out then .mstore o.acc o.r o.sp o.ep o.noal else .mload o.acc o.r o.rows o.cols o.sp o.ep o.noal)
              (if out then ls else ls.map (takesBuffered t)) 0)) ∧
          (out = true → ∀ r, t.region = some r →
            let c := (o.rows * o.cols * elemSize o.acc + 7) / 8 * 8
            (r.used + c ≤ 16384 → Completes i s (fun v => in_ v s1 ∧ v.pend = s1.pend ∧ ∃ a b, strand? v t.id = some a ∧ a.region = some b ∧
              b.start = r.start ∧ b.used = r.used + c ∧
              b.stores = r.stores ++ ls.map (fun l => { seq := s1.key, fibre := l.fibre, va := l.va, bytes := l.data, ep := o.ep, noal := o.noal, sc := none,
                                                         flags := 0 }) ∧
              (ls ≠ [] → ∀ f ∈ flagsOf t o.c.setf, (f, s1.key) ∈ a.holds))) ∧
            (16384 < r.used + c → ∀ s2, touchAll s1 x.id false (ts.map (fun n => (LineKey.tile n, false))) = .ok s2 →
              exec i s = .next (deliver s2 (nowStrand s2 t) (nowSkein s2 x) { Flt.plain .execute 0x1C e.lead t.pc with access := 2 })))))
  (∀ o, move (.tld o) (MoveOp.ofTile o) false) ∧ (∀ o, move (.ald o) (MoveOp.ofAcc o) false) ∧
  (∀ o, move (.tst o) (MoveOp.ofTile o) true) ∧ (∀ o, move (.ast o) (MoveOp.ofAcc o) true)
  ) ∧ (
  (∀ s id sel p x acc r rows cols ep noal ls line u bs, pend? s id = some p → p.acc = .mload acc r rows cols false ep noal → skein? s p.skein = some x →
    HasTiles x (if acc then [] else [r]) →
    performing s p sel = ls → ls ≠ [] → (∀ l ∈ ls, l.2.spa / 128 = line) → (ls.map (fun l => l.2.elem)).Nodup → (∀ l ∈ ls, l.2.elem < 256) →
    loadLine s p x line (ls.any (fun l => l.2.uncached)) false noal ep = (u, some bs) →
    Completes (.loadDataReturn id sel) s (fun v => ∃ z, skein? v x.id = some z ∧
      (∀ l ∈ ls, elemAt z acc r l.2.elem = ofBytes (l.2.take bs) % 2 ^ (if acc then 32 else 16)) ∧
      (∀ b n k, k < 256 → (b = acc → n = r → ∀ l ∈ ls, l.2.elem ≠ k) → elemAt z b n k = elemAt x b n k) ∧ (Finishes p ls → Gone v id))) ∧
  (∀ s id sel p x acc r rows cols ep noal ls, pend? s id = some p → p.acc = .mload acc r rows cols true ep noal → skein? s p.skein = some x →
    HasTiles x (if acc then [] else [r]) →
    performing s p sel = ls → ls ≠ [] → (ls.map (fun l => l.2.elem)).Nodup → (∀ l ∈ ls, l.2.elem < 256) →
    Completes (.loadDataReturn id sel) s (fun v => SameBytes s v ∧ ∃ z, skein? v x.id = some z ∧
      (∀ l ∈ ls, elemAt z acc r l.2.elem = ofBytes (scrRead s l.2.spa l.2.size) % 2 ^ (if acc then 32 else 16)) ∧
      (∀ b n k, k < 256 → (b = acc → n = r → ∀ l ∈ ls, l.2.elem ≠ k) → elemAt z b n k = elemAt x b n k) ∧ (Finishes p ls → Gone v id))) ∧
  (∀ s id sel p acc r ep noal ls, pend? s id = some p → p.acc = .mstore acc r false ep noal → performing s p sel = ls → ls ≠ [] →
    (∀ l ∈ ls, ∀ k, k ≤ l.2.data.length → normSpa s (l.2.spa + k) = l.2.spa + k) →
    Completes (.writeComplete id sel) s (fun v => BytesBut s v (ls.map (fun l => (l.2.spa, l.2.data.length))) ∧
      (∀ before l after, ls = before ++ l :: after → ∀ k b, l.2.data[k]? = some b → ¬ SideTable s (l.2.spa + k) →
        (∀ m ∈ after, ¬ (m.2.spa ≤ l.2.spa + k ∧ l.2.spa + k < m.2.spa + m.2.data.length)) → mget v.mem.bytes (l.2.spa + k) = b) ∧ (Finishes p ls → Gone v id))) ∧
  (∀ s id sel p acc r ep noal ls y, pend? s id = some p → p.acc = .mstore acc r true ep noal → performing s p sel = ls → ls ≠ [] →
    (∀ l ∈ ls, skein? s (l.2.spa / 2 ^ 32) = some y ∧ l.2.spa % 2 ^ 32 + l.2.data.length ≤ 2 ^ 32) → y.retired = false →
    Completes (.writeComplete id sel) s (fun v => SameBytes s v ∧ (Finishes p ls → Gone v id) ∧ ∃ z, skein? v y.id = some z ∧
      ∀ before l after, ls = before ++ l :: after → ∀ k b, l.2.data[k]? = some b →
        (∀ m ∈ after, ¬ (m.2.spa ≤ l.2.spa + k ∧ l.2.spa + k < m.2.spa + m.2.data.length)) → mget z.scr (l.2.spa % 2 ^ 32 + k) = b))
  )

/-- 09 R222, R226, R227: SCLASS answers CLASS-DENIED, NO-ROOM or OK, and on OK takes the class and the share, a new share without latch and filled with zero;
WLATCH answers RANGE, MISMATCH, BAD-STREAM or OK, and on OK latches its columns from the share, older columns kept unless NEW; on any other answer the
latch stays. -/
def Obligations.ShareAndLatch : Prop :=
  (∀ o s t x u y w, Issues (shSclass o) s t x u y w → acquiring u t = none →
    let e := issueEnv (shSclass o) t x s
    conflicts u x.id [latchPart] = [] → (∀ a ∈ u.array, a.skein ≠ x.id) → ∀ c, ctxOf u y = some c →
    let used := (((occupants u y.spindle).filter (fun z => z.id != y.id && !z.retired)).map (fun z => z.wg)).sum
    let answers := fun (n : Nat) (p : Skein → Prop) => Completes (.sclass o) s (fun v => WentOn v t 8 ∧ QuietBut (shSclass o) x e.act u v ∧
      (∀ f, Writes e o.d f → Holds32 v x.id f o.d (BitVec.ofNat 32 n)) ∧ ∃ z, skein? v x.id = some z ∧ p z)
    let same := fun (z : Skein) => z.cls = y.cls ∧ z.wg = y.wg ∧ z.share = y.share ∧ z.latch = y.latch
    let denied := (bits c.array 0 2).toNat < o.cls.toNat
    let full := o.wg.toNat ≠ y.wg ∧ 16 < used + o.wg.toNat
    (denied → answers 2 same) ∧ (¬ denied → full → answers 1 same) ∧
    (¬ denied → ¬ full → o.wg.toNat = y.wg → answers 0 (fun z => z.cls = o.cls ∧ z.wg = y.wg ∧ z.share = y.share ∧ z.latch = y.latch)) ∧
    (¬ denied → ¬ full → o.wg.toNat ≠ y.wg → answers 0 (fun z => z.cls = o.cls ∧ z.wg = o.wg.toNat ∧ (∀ n, mget z.share n = 0) ∧ z.latch = none))) ∧
  (∀ o s t x u y w, Issues (shWlatch o) s t x u y w → acquiring u t = none → conflicts u x.id [latchPart] = [] →
    let e := issueEnv (shWlatch o) t x s
    let m := o.bw.toNat + 2
    let rs := 2 * m + 2
    let kb := o.kb.toNat + 1
    let nc := o.nc.toNat + 1
    let n0 := o.n0.toNat
    let off := (e.r32 e.lead o.a.reg).toNat
    let answers := fun (n : Nat) (p : Skein → Prop) => Completes (.wlatch o) s (fun v => WentOn v t 16 ∧ QuietBut (shWlatch o) x e.act u v ∧
      (∀ f, Writes e o.d f → Holds32 v x.id f o.d (BitVec.ofNat 32 n)) ∧ ∃ z, skein? v x.id = some z ∧ z.share = y.share ∧ p z)
    let range := 128 < n0 + nc ∨ off % 2 = 1 ∨ (o.cmp = false ∧ shareLen y < off + nc * kb * rs)
    let mismatch := o.new = false ∧ (∀ l, y.latch = some l → l.m ≠ m ∨ l.kb ≠ kb)
    let bad := o.cmp = true ∧ ∀ b n, plyExpand (shareFrom y off) = some (b, n) → b.length ≠ nc * kb * rs
    (range → answers 1 (fun z => z.latch = y.latch)) ∧
    (¬ range → mismatch → answers 2 (fun z => z.latch = y.latch)) ∧
    (¬ range → ¬ mismatch → bad → answers 3 (fun z => z.latch = y.latch)) ∧
    (¬ range → ¬ mismatch → ¬ bad → answers 0 (fun z => ∃ l, z.latch = some l ∧ l.m = m ∧ l.kb = kb ∧
      (∀ n, l.has n = true ↔ (n0 ≤ n ∧ n < n0 + nc) ∨ (o.new = false ∧ ∃ k, y.latch = some k ∧ k.has n = true)) ∧
      (∀ n b, n0 ≤ n → n < n0 + nc → b < kb →
        let at_ := ((n - n0) * kb + b) * rs
        (o.cmp = false → (latchedBlocks z b (n + 1))[n]? = some (Bfp.ofBytes m (mgetAll y.share (off + at_) rs))) ∧
        (o.cmp = true → ∀ q k, plyExpand (shareFrom y off) = some (q, k) →
          (latchedBlocks z b (n + 1))[n]? = some (Bfp.ofBytes m ((q.drop at_).take rs)))) ∧
      (∀ n b k, o.new = false → y.latch = some k → k.has n = true → ¬ (n0 ≤ n ∧ n < n0 + nc) →
        (latchedBlocks z b (n + 1))[n]? = (latchedBlocks y b (n + 1))[n]?))))

/-- 09 R210 to R212, R217, R224, R228 to R231: TMMA, SSTEP and SLUT join the array's work, once the loads that their registers or the share wait for have
landed; WLD, SBUILD and SDRAIN are put in flight on the AR path. What each checks first, in order, and the fault it raises. 09 R212, R229: SSTEP and
SLUT are checked in the order accumulator region, output rows, latch, depth, columns, width, alignments, range of every row.
The model's own choices in it: log 56 (flags of array work). -/
def Obligations.ArrayIssue : Prop :=
  (
  let flt := fun (e : Env) (t : Strand) (code detail : Nat) => { Flt.plain .execute code e.lead t.pc with detail := detail }
  let ar := fun (e : Env) (t : Strand) (code va : Nat) => { Flt.plain .execute code e.lead t.pc with access := 64, va := BitVec.ofNat 64 va }
  let rows := fun (i : Instr) (c : Ctl) (a b : Src) (row : BitVec 32 → BitVec 32 → RowOp) (op : List Nat → ArrayOp) =>
      ∀ s t x u y w, Issues (skeinShape 16 c [Rd.of a .one, Rd.of b .one] true) s t x u y w → acquiring u t = none →
        let sh := skeinShape 16 c [Rd.of a .one, Rd.of b .one] true
        let e := issueEnv sh t x s
        (∀ p ∈ u.pend, p.skein = x.id → ∀ off ep noal, p.acc ≠ .wld off ep noal) →
        let q := row (e.r32 e.lead a.reg) (e.r32 e.lead b.reg)
        (∀ src, rowCheck u y q = .ok src → Completes i s (fun v => WentOn v t 16 ∧ Quiet sh x e.act u v ∧ JoinsArray v u t x c.setf (op src))) ∧
        (∀ code cause va, rowCheck u y q = .error (code, cause, va) →
          exec i s = .next (deliver u w y { flt e t code cause with va := BitVec.ofNat 64 va, access := if code = 0x1A ∨ code = 0x16 then 0 else 64 }))
  (∀ o s t x u y w, Issues (skeinShape 16 o.c [] false) s t x u y w → acquiring u t = none →
    let sh := skeinShape 16 o.c [] false
    let e := issueEnv sh t x s
    let ids := pendConflicts u x.id [accPart o.d.toNat, o.a.toNat, o.b.toNat]
    (ids ≠ [] → Completes (.tmma o) s (fun v => Waits v t .ready (.skeinWork ids) ∧ Quiet sh x e.act u v)) ∧
    (ids = [] → accGran x = 0 → exec (.tmma o) s = .next (deliver u w y (flt e t 0x16 0))) ∧
    (ids = [] → accGran x ≠ 0 → HasTiles y [o.a.toNat, o.b.toNat] → Completes (.tmma o) s (fun v => WentOn v t 16 ∧ Quiet sh x e.act u v ∧
      JoinsArray v u t x o.c.setf (.tmma o.d.toNat o.a.toNat o.b.toNat o.bf o.zc (o.rows.toNat + 1) (o.cols.toNat + 1) (o.depth.toNat + 1))))) ∧
  (∀ o, rows (.sstep o) o.c o.a o.b (RowOp.ofSstep o) (ArrayOp.ofSstep o)) ∧ (∀ o, rows (.slut o) o.c o.a o.b (RowOp.ofSlut o) (ArrayOp.ofSlut o)) ∧
  (∀ o s t x u y w, Issues { skeinShape 16 o.c [Rd.of o.a .two] true with access := true } s t x u y w → acquiring u t = none →
    let sh := { skeinShape 16 o.c [Rd.of o.a .two] true with access := true }
    let e := issueEnv sh t x s
    let va := e.r64 e.lead o.a.reg
    let n := 16 * (o.len.toNat + 1)
    let beyond := shareLen x < 16 * o.boff.toNat + n
    (beyond → exec (.wld o) s = .next (deliver u w y (flt e t 0x1A 7))) ∧
    (¬ beyond → va.toNat % 16 ≠ 0 → exec (.wld o) s = .next (deliver u w y (ar e t 0x10 va.toNat))) ∧
    (¬ beyond → va.toNat % 16 = 0 → ∀ s1 ls held walked,
      Checked { Need.plain true false with path := 2 } t x u ((piecesOf va n).map (fun p => { Lane.mk0 e.lead p.1 0 with elem := p.2 })) s1 ls held walked →
      Completes (.wld o) s (fun v => WentOn v t 16 ∧ Quiet sh x e.act s1 v ∧
        Flying v s1 t x o.c.setf (.wld (16 * o.boff.toNat) o.ep o.noal) (ls.map (fun l => { l with size := l.elem })) 0))) ∧
  (∀ o s t x u y w, Issues (skeinShape 8 o.c [Rd.of o.a .one, Rd.of o.b .one, Rd.of o.x .one] true) s t x u y w → acquiring u t = none →
    let sh := skeinShape 8 o.c [Rd.of o.a .one, Rd.of o.b .one, Rd.of o.x .one] true
    let e := issueEnv sh t x s
    let a := e.r32 e.lead o.a.reg
    let b := e.r32 e.lead o.b.reg
    let kb := (e.r32 e.lead o.x.reg).toNat
    let ma := o.bw.toNat + 2
    (kb < 1 ∨ 256 < kb → exec (.sbuild o) s = .next (deliver u w y (flt e t 0x1A 6))) ∧
    (1 ≤ kb → kb ≤ 256 →
      (a.toNat % 2 ≠ 0 → exec (.sbuild o) s = .next (deliver u w y (ar e t 0x10 a.toNat))) ∧
      (a.toNat % 2 = 0 → b.toNat % 2 ≠ 0 → exec (.sbuild o) s = .next (deliver u w y (ar e t 0x10 b.toNat))) ∧
      (a.toNat % 2 = 0 → b.toNat % 2 = 0 →
        (scrTarget u x a (kb * (2 * ma + 2)) = none → exec (.sbuild o) s = .next (deliver u w y (ar e t 0x13 a.toNat))) ∧
        (∀ p, scrTarget u x a (kb * (2 * ma + 2)) = some p →
          (scrTarget u x b (kb * 136) = none → exec (.sbuild o) s = .next (deliver u w y (ar e t 0x13 b.toNat))) ∧
          (∀ q, scrTarget u x b (kb * 136) = some q → Completes (.sbuild o) s (fun v => WentOn v t 8 ∧ Quiet sh x e.act u v ∧
            Flying v u t x o.c.setf (.sbuild (scrPlace p.1.id p.2) (scrPlace q.1.id q.2) kb ma (o.klast.toNat + 1)) [] 0)))))) ∧
  (∀ o s t x u y w, Issues (skeinShape 16 o.c [Rd.of o.a .one, Rd.of o.b .one] true) s t x u y w → acquiring u t = none →
    let sh := skeinShape 16 o.c [Rd.of o.a .one, Rd.of o.b .one] true
    let e := issueEnv sh t x s
    let a := e.r32 e.lead o.a.reg
    let b := e.r32 e.lead o.b.reg
    let z := if o.ofmt = .f32 then 4 else 2
    let rows := o.rows.toNat + 1
    let nc := o.nc.toNat + 1
    let long := outRows x < o.orow.toNat + rows
    (accGran x = 0 → exec (.sdrain o) s = .next (deliver u w y (flt e t 0x16 0))) ∧
    (accGran x ≠ 0 → long → exec (.sdrain o) s = .next (deliver u w y (flt e t 0x1A 1))) ∧
    (accGran x ≠ 0 → ¬ long → a.toNat % z ≠ 0 → exec (.sdrain o) s = .next (deliver u w y (ar e t 0x10 a.toNat))) ∧
    (accGran x ≠ 0 → ¬ long → a.toNat % z = 0 → b.toNat % z ≠ 0 → exec (.sdrain o) s = .next (deliver u w y (ar e t 0x10 b.toNat))) ∧
    (accGran x ≠ 0 → ¬ long → a.toNat % z = 0 → b.toNat % z = 0 → ∀ ps, ps.length = rows →
      (∀ r, r < rows → ∃ q, scrTarget u x (a + BitVec.ofNat 32 r * b) (nc * z) = some q ∧ ps[r]? = some (scrPlace q.1.id q.2)) →
      Completes (.sdrain o) s (fun v => WentOn v t 16 ∧ Quiet sh x e.act u v ∧ ∃ mode,
        Flying v u t x o.c.setf (.sdrain ps o.ofmt o.clr mode o.orow.toNat nc) [] 0)))
  ) ∧ (
  ∀ s x o,
    (∀ src, rowCheck s x o = .ok src ↔ accGran x ≠ 0 ∧ o.orow + o.rows ≤ outRows x ∧
      (∃ l, x.latch = some l ∧ o.kb ≤ l.kb ∧ (∀ n, n < o.nc → l.has n = true) ∧ (o.lut = true → l.m = 2)) ∧
      o.a.toNat % 2 = 0 ∧ o.stride.toNat % o.alignB = 0 ∧ src.length = o.rows ∧
      ∀ r, r < o.rows → ∃ q, scrTarget s x (o.a + BitVec.ofNat 32 r * o.stride) o.bytes = some q ∧ src[r]? = some (scrPlace q.1.id q.2)) ∧
    (accGran x = 0 → rowCheck s x o = .error (0x16, 0, 0)) ∧
    (accGran x ≠ 0 →
      (outRows x < o.orow + o.rows → rowCheck s x o = .error (0x1A, 1, 0)) ∧
      (o.orow + o.rows ≤ outRows x →
        (x.latch = none → rowCheck s x o = .error (0x1A, 2, 0)) ∧
        (∀ l, x.latch = some l →
          (l.kb < o.kb → rowCheck s x o = .error (0x1A, 3, 0)) ∧
          (o.kb ≤ l.kb → (∃ n, n < o.nc ∧ l.has n = false) → rowCheck s x o = .error (0x1A, 4, 0)) ∧
          (o.kb ≤ l.kb → (∀ n, n < o.nc → l.has n = true) →
            (o.lut = true → l.m ≠ 2 → rowCheck s x o = .error (0x1A, 5, 0)) ∧
            ((o.lut = true → l.m = 2) →
              (o.a.toNat % 2 ≠ 0 → rowCheck s x o = .error (0x10, 0, o.a.toNat)) ∧
              (o.a.toNat % 2 = 0 → o.stride.toNat % o.alignB ≠ 0 → rowCheck s x o = .error (0x10, 0, o.stride.toNat)))))))
  )

/-- 09 R213, R224, R230, R231: AR_TRANSFER_COMPLETE, once the earlier work of the skein allows it: WLD's bytes reach the share, and a latch record that they
meet clears the latch; SBUILD writes a table record for each block, whose entries are the sums of R230; SDRAIN writes each output row that no later one
covers, and with CLR clears what it drained. -/
def Obligations.ArTransfers : Prop :=
  (∀ s id p x off ep noal, pend? s id = some p → p.acc = .wld off ep noal → skein? s p.skein = some x → arFirst s p.skein id true = true →
    (∀ l ∈ p.lanes, poisoned s l.spa l.size = false ∧ lineBusy s (l.spa / 128) = false) →
    let n := (p.lanes.map (fun l => l.size)).sum
    Completes (.arTransferComplete id) s (fun v => Gone v id ∧ ∃ z, skein? v x.id = some z ∧
      (∀ before l after, p.lanes = before ++ l :: after → ∀ k, k < l.size →
        mget z.share (off + (before.map (fun l => l.size)).sum + k) = mget v.mem.bytes (normSpa v l.spa + k)) ∧
      (∀ k, ¬ (off ≤ k ∧ k < off + n) → mget z.share k = mget x.share k) ∧
      (z.latch = none ∨ z.latch = x.latch) ∧ (z.latch ≠ none → ∀ l, x.latch = some l → ∀ r ∈ l.recs, ¬ (r.off < off + n ∧ off < r.off + r.len)))) ∧
  (∀ s id p src dst kb ma klast, pend? s id = some p → p.acc = .sbuild src dst kb ma klast → arFirst s p.skein id false = true → 2 ≤ ma → ma ≤ 9 →
    (∃ y, skein? s (dst / 2 ^ 32) = some y ∧ y.retired = false) → dst % 2 ^ 32 + 136 * kb ≤ 2 ^ 32 → src % 2 ^ 32 + kb * (2 * ma + 2) ≤ 2 ^ 32 →
    (src + kb * (2 * ma + 2) ≤ dst ∨ dst + 136 * kb ≤ src) →
    Completes (.arTransferComplete id) s (fun v => SameBytes s v ∧ Gone v id ∧ ∀ b, b < kb →
      let blk := Bfp.ofBytes ma (scrRead s (src + b * (2 * ma + 2)) (2 * ma + 2))
      let q := fun (i : Nat) => if blk.e = 255 ∨ (b + 1 = kb ∧ klast ≤ i) then 0 else blk.q.getD i 0
      let r := scrRead v (dst + 136 * b) 136
      fieldOf r 0 1 = blk.e ∧ fieldOf r 1 1 = ma - 2 ∧ fieldOf r 2 6 = 0 ∧
      ∀ g n, g < 4 → n < 16 → (BitVec.ofNat 16 (fieldOf r (8 + 32 * g + 2 * n) 2)).toInt =
        (if n.testBit 0 then q (4 * g) else 0) + (if n.testBit 1 then q (4 * g + 1) else 0) + (if n.testBit 2 then q (4 * g + 2) else 0) +
          (if n.testBit 3 then q (4 * g + 3) else 0))) ∧
  (∀ s id p x dsts fmt clr mode orow nc, pend? s id = some p → p.acc = .sdrain dsts fmt clr mode orow nc → skein? s p.skein = some x →
    arFirst s p.skein id false = true → nc ≤ 128 →
    let z := if fmt = .f32 then 4 else 2
    (∀ d ∈ dsts, (∃ y, skein? s (d / 2 ^ 32) = some y ∧ y.retired = false) ∧ d % 2 ^ 32 + nc * z ≤ 2 ^ 32) →
    let el := fun (v : BitVec 32) => match fmt with
      | .f32 => v.toNat
      | .f16 => (FF.f16.convert (Mode.ofCode mode) (FF.f32.decode v.toNat)).1
      | .bf16 => (FF.bf16.convert (Mode.ofCode mode) (FF.f32.decode v.toNat)).1
    Completes (.arTransferComplete id) s (fun v => SameBytes s v ∧ Gone v id ∧
      (∀ before d after, dsts = before ++ d :: after → (∀ c ∈ after, c + nc * z ≤ d ∨ d + nc * z ≤ c) → ∀ n, n < nc →
        ofBytes (scrRead v (d + n * z) z) = el (mget x.out (128 * (orow + before.length) + n)) % 256 ^ z) ∧
      ∃ y, skein? v x.id = some y ∧ ∀ k,
        mget y.out k = if clr = true ∧ 128 * orow ≤ k ∧ k < 128 * (orow + dsts.length) ∧ k % 128 < nc then 0 else mget x.out k))

/-- 04 R111 to R115; 09 R211, R217, R223, R229: the array finishes the step that it has begun, and else takes the pending step of the highest class, within
it the earliest issued. A step of TMMA gives each
element of its rows and columns its sum of products and keeps the others; a step of SSTEP or SLUT applies one block, and after the last block of a row
writes that row's columns.
The model's own choices in it: log 56 (when flags are raised). -/
def Obligations.ArraySteps : Prop :=
  (∀ s sp w, nextWork s sp = some w → (∀ a ∈ s.array, a.id < 2 ^ 64) → inReset s sp = false ∧ w ∈ s.array ∧
    (w.begun = true ∨ workReady s w = true ∧ (∀ a ∈ s.array, ∀ y, skein? s a.skein = some y → y.spindle = sp → a.begun = false) ∧
      ∀ a ∈ s.array, workReady s a = true → ∀ x y, skein? s w.skein = some x → skein? s a.skein = some y → y.spindle = sp →
        y.cls.toNat ≤ x.cls.toNat ∧ (y.cls = x.cls → w.id ≤ a.id))) ∧
  (∀ s sp w x d a b bf zc rows cols depth, nextWork s sp = some w → skein? s w.skein = some x → w.op = .tmma d a b bf zc rows cols depth →
    rows ≤ 16 → cols ≤ 16 → w.pkt = none →
    let k := if bf then FF.bf16 else FF.f16
    let el := fun (t i j : Nat) => k.decodeFlush (mget x.tiles (256 * t + 16 * i + j)).toNat
    let r := fun (i j : Nat) => tmmaElem ((List.range depth).map (fun q => el a i q)) ((List.range depth).map (fun q => el b q j))
      (if zc then 0 else (mget x.accs (256 * d + 16 * i + j)).toNat)
    Completes (.arrayStep sp) s (fun v => SameBytes s v ∧ (∀ q ∈ v.array, q.id ≠ w.id) ∧ (∀ t ∈ v.strands, ∀ h ∈ t.holds, h.2 ≠ w.id) ∧
      ∃ z, skein? v x.id = some z ∧ ArrayKeeps x z [] [d] ∧ z.out = x.out ∧
        ∀ i j, i < 16 → j < 16 → mget z.accs (256 * d + 16 * i + j) =
          if i < rows ∧ j < cols then BitVec.ofNat 32 (r i j).1 else mget x.accs (256 * d + 16 * i + j))) ∧
  (∀ s sp w x rows kb nc zero orow n, nextWork s sp = some w → skein? s w.skein = some x → w.op.stream = some (rows, kb, nc, zero, orow, n) → w.pkt = none →
    let acc := if w.b = 0 then (if zero then List.replicate nc 0 else mgetAll x.out (128 * (orow + w.r)) nc) else w.sums
    let sums := (streamBlock s x w.op w.r w.b acc).map (fun q => q.1)
    Completes (.arrayStep sp) s (fun v => SameBytes s v ∧ ∃ z, skein? v x.id = some z ∧ ArrayKeeps x z [] [] ∧
      (w.b + 1 < kb → z.out = x.out ∧ ∃ q ∈ v.array, q.id = w.id ∧ q.op = w.op ∧ q.r = w.r ∧ q.b = w.b + 1 ∧ q.sums = sums) ∧
      (kb ≤ w.b + 1 → (∀ j q, sums[j]? = some q → mget z.out (128 * (orow + w.r) + j) = q) ∧
        (∀ k, (∀ j, j < sums.length → k ≠ 128 * (orow + w.r) + j) → mget z.out k = mget x.out k) ∧
        (w.r + 1 < rows → ∃ q ∈ v.array, q.id = w.id ∧ q.op = w.op ∧ q.r = w.r + 1 ∧ q.b = 0) ∧
        (rows ≤ w.r + 1 → ∀ q ∈ v.array, q.id ≠ w.id)))) ∧
  (∀ (q : List Int) (e ma n : Nat) (w : List Int), e < 255 → (∀ v ∈ q, -256 ≤ v ∧ v ≤ 255) → w.length = 16 → (∀ v ∈ w, v = -2 ∨ v = -1 ∨ v = 0 ∨ v = 1) → n ≤ 16 →
    lutSum w (tableRec ma { e := e, q := q } n) = dot w q n)

/-! ### Waits, queues, regions, traps and system registers -/

/-- 10 R246, R247; 11 R275: FENCE goes on once the strand's earlier writes are complete and, from device scope up, GTB has passed its horizon, from the scope of
the group up its fabric writes are acknowledged, and at system scope its writes to host windows have reached the host's ordering point; FENCEX once the work
on its FROM paths that was outstanding when it first issued is done and, from LS, GTB has passed the horizons of the strand and its skein. Each waits
until then. 10 R242, R239: CTEST reads a bitmap word and leaves its bits under the mask in D; CWAIT goes on with 0 when all bits of the mask are set,
with CODE when the request is done with a non-zero CODE, and waits otherwise; CWAIT_SATISFIED ends the wait, and the instruction then leaves what that
found. Both wait for the undone accesses of their fibre to the bytes that they read (11 R267).
The model's own choices in it: log 37 (paths of FENCEX), 133 (when a write reaches the host's ordering point). -/
def Obligations.FencesAndWaits : Prop :=
  (
  (∀ o s t x u y w, Issues (leadShape 8 o.c [] [] false) s t x u y w →
    let sh := leadShape 8 o.c [] [] false
    let act := (issueEnv sh t x s).act
    let met := (∀ p ∈ u.pend, t.id ∈ p.strands → p.acc.writes = false) ∧ (o.sc = .skein ∨ o.sc = .hank ∨ t.h.toNat < u.gtb.toNat) ∧
      (o.sc = .skein ∨ o.sc = .hank ∨ o.sc = .device ∨ ∀ a ∈ t.acks, ∀ k ∈ (linkOf u a.1 a.2.1).unacked, k.1 ≠ a.2.2) ∧
      (o.sc = .system → t.hostAt.toNat < u.gtb.toNat)
    (met → Completes (.fence o) s (fun v => WentOn v t 8 ∧ Quiet sh x act u v)) ∧
    (¬ met → Completes (.fence o) s (fun v => Waits v t .ready (.fence o.sc) ∧ Quiet sh x act u v))) ∧
  (∀ o s t x u y w, Issues (leadShape 8 o.c [] [] false) s t x u y w →
    let sh := leadShape 8 o.c [] [] false
    let act := (issueEnv sh t x s).act
    ∀ ids ls, ((∀ a b, t.wait ≠ some (.fencex a b)) → ls = o.src.getLsbD 0 ∧ ∀ n, n ∈ ids ↔
        (∃ p ∈ u.pend, p.id = n ∧ p.skein = x.id ∧ (match p.acc with | .wld .. | .sbuild .. | .sdrain .. => o.src.getLsbD 2 | _ => o.src.getLsbD 0) = true) ∨
          (o.src.getLsbD 2 = true ∧ ∃ a ∈ u.array, a.id = n ∧ a.skein = x.id)) →
      ((∃ a b, t.wait = some (.fencex a b)) → t.wait = some (.fencex ids ls)) →
      let met := (∀ n ∈ ids, (∀ p ∈ u.pend, p.id ≠ n) ∧ ∀ a ∈ u.array, a.id ≠ n) ∧ (ls = true → t.h.toNat < u.gtb.toNat ∧ y.gw.toNat < u.gtb.toNat)
      (met → Completes (.fencex o) s (fun v => WentOn v t 8 ∧ Quiet sh x act u v)) ∧
      (¬ met → Completes (.fencex o) s (fun v => (∃ l, Waits v t .ready (.fencex l ls) ∧ ∀ n, n ∈ l ↔ n ∈ ids) ∧ Quiet sh x act u v)))
  ) ∧ (
  (∀ o wid i, (i = Instr.cwait o ∧ wid = Wid.one ∨ i = Instr.ctest o ∧ wid = Wid.two) → ∀ s t x u y w, Issues (shCwait o wid) s t x u y w →
    (∀ a b c d, t.wait ≠ some (.cwait a b c (some d))) → acquiring u t = none →
    let e := issueEnv (shCwait o wid) t x s
    let a := e.r64 e.lead o.a.reg
    let m := e.r64 e.lead o.b.reg
    let n := Need.plain true false
    (a.toNat % 64 ≠ 0 → exec i s = .next (deliver u w y (accFlt n 0x10 e.lead t.pc a))) ∧
    (a.toNat % 64 = 0 → ∀ s1 lw lst held walked,
      Checked n t x u [Lane.mk0 e.lead (a + 64 + BitVec.ofNat 64 (8 * o.w.toNat)) 8, Lane.mk0 e.lead (a + 8) 4] s1 [lw, lst] held walked →
      let word := BitVec.ofNat 64 (readNat s1 lw.spa 8)
      let stat := readNat s1 lst.spa 4
      let own := ownWork e ((lw.spa, 8) :: (if i = .ctest o then [] else [(lst.spa, 4)])) s1
      (own ≠ [] → Completes i s (fun v => Waits v t .ready (.skeinWork own) ∧ Quiet (shCwait o wid) x e.act s1 v)) ∧
      (i = .ctest o → own = [] → ∀ k, (homeRead s1 x lw.spa 8).2 = some k → Completes i s (fun v => WentOn v t 16 ∧ RegsBut (shCwait o wid) x e.act s1 v ∧
        ∀ f, Writes e o.d f → Holds64 v x.id f o.d (BitVec.ofNat 64 k &&& m))) ∧
      (i = .cwait o → own = [] → poisoned s1 lw.spa 8 = false → poisoned s1 lst.spa 4 = false →
        let goes := fun (c : Nat) => Completes i s (fun v => WentOn v t 16 ∧ RegsBut (shCwait o wid) x e.act s1 v ∧
          ∀ f, Writes e o.d f → Holds32 v x.id f o.d (BitVec.ofNat 32 c))
        (word &&& m = m → goes 0) ∧
        (word &&& m ≠ m → stat / 2 ^ 31 % 2 = 1 → stat % 256 ≠ 0 → goes (stat % 256)) ∧
        (word &&& m ≠ m → (stat / 2 ^ 31 % 2 = 1 → stat % 256 = 0) → Completes i s (fun v =>
          Waits v t .ready (.cwait lw.spa lst.spa m none) ∧ Quiet (shCwait o wid) x e.act s1 v))))) ∧
  (∀ o s t x u y w a b m st, Issues (shCwait o .one) s t x u y w → t.wait = some (.cwait a b m (some st)) →
    let e := issueEnv (shCwait o .one) t x s
    Completes (.cwait o) s (fun v => WentOn v t 16 ∧ QuietBut (shCwait o .one) x e.act u v ∧ ∀ f, Writes e o.d f → Holds32 v x.id f o.d st)) ∧
  (∀ s k t x a b m, strand? s k = some t → skein? s t.skein = some x → t.wait = some (.cwait a b m none) → poisoned s a 8 = false → poisoned s b 4 = false →
    let word := BitVec.ofNat 64 (readNat s a 8)
    let stat := readNat s b 4
    let ends := fun (c : Nat) => Completes (.cwaitSatisfied k) s (fun v => ∃ r, strand? v k = some r ∧ r.pc = t.pc ∧ r.wait = some (.cwait a b m (some (BitVec.ofNat 32 c))))
    (word &&& m = m → ends 0) ∧ (word &&& m ≠ m → stat / 2 ^ 31 % 2 = 1 → stat % 256 ≠ 0 → ends (stat % 256)) ∧
    (word &&& m ≠ m → (stat / 2 ^ 31 % 2 = 1 → stat % 256 = 0) → exec (.cwaitSatisfied k) s = .next s))
  )

/-- 10 R243, R244, R261: SLEEP and SLEEPUNTIL, their wakes, and PROMISE-MISSED, which a check that finds DONE 0 takes with the next word as its return address. -/
def Obligations.Sleeps : Prop :=
  let sh := fun (o : OpSleep) => leadShape 8 o.c (sleepReads o) [] false
  (∀ o s t x u y w, Issues (sh o) s t x u y w → (∀ a b c, t.wait ≠ some (.sleep a b c true)) → acquiring u t = none →
    let e := issueEnv (sh o) t x s
    let n := (e.r64 e.lead o.a.reg).toNat
    let till := if n = 0 then none else some (u.gtb.toNat + n)
    (o.flag = false → n = 0 → Completes (.sleep o) s (fun v => WentOn v t 8 ∧ Quiet (sh o) x e.act u v)) ∧
    (o.flag = false → n ≠ 0 → Completes (.sleep o) s (fun v => Waits v t .sleeping (.sleep till none false false) ∧ Quiet (sh o) x e.act u v)) ∧
    (o.flag = true → ∀ s1 l held walked, Checked (Need.plain true false) t x u [Lane.mk0 e.lead (e.r64 e.lead o.b.reg) 0] s1 [l] held walked →
      Completes (.sleep o) s (fun v => Waits v t .sleeping (.sleep till (some (l.spa / 128)) false false) ∧ Quiet (sh o) x e.act s1 v))) ∧
  (∀ o s t x u y w a b c, Issues (sh o) s t x u y w → t.wait = some (.sleep a b c true) →
    Completes (.sleep o) s (fun v => WentOn v t 8 ∧ Quiet (sh o) x (issueEnv (sh o) t x s).act u v)) ∧
  (∀ s k t a b c, strand? s k = some t → t.st = .sleeping → t.wait = some (.sleep a b c false) →
    let wakes := c = true ∨ ∃ d, a = some d ∧ d ≤ s.gtb.toNat
    (wakes → Completes (.sleepWake k) s (fun v => SameBytes s v ∧ ∃ r, strand? v k = some r ∧ r.st = .ready ∧ r.pc = t.pc ∧ r.wait = some (.sleep a b c true))) ∧
    (¬ wakes → exec (.sleepWake k) s = .next s)) ∧
  (∀ o s t x u y w, Issues (sh o) s t x u y w → (∀ a b c, t.wait ≠ some (.sleepUntil a b (some c))) → acquiring u t = none →
    let e := issueEnv (sh o) t x s
    let g := e.r64 e.lead o.a.reg
    let b := e.r64 e.lead o.b.reg
    (o.flag = false → u.gtb.toNat < g.toNat → Completes (.sleepuntil o) s (fun v => Waits v t .sleeping (.sleepUntil g none none) ∧ Quiet (sh o) x e.act u v)) ∧
    (o.flag = false → g.toNat ≤ u.gtb.toNat → Completes (.sleepuntil o) s (fun v => WentOn v t 8 ∧ Quiet (sh o) x e.act u v)) ∧
    (o.flag = true → b.toNat % 64 ≠ 0 → exec (.sleepuntil o) s = .next (deliver u w y (accFlt (Need.plain true false) 0x10 e.lead t.pc b))) ∧
    (o.flag = true → b.toNat % 64 = 0 → ∀ s1 l held walked z, Checked (Need.plain true false) t x u [Lane.mk0 e.lead (b + 8) 4] s1 [l] held walked →
      skein? s1 x.id = some z →
      (s1.gtb.toNat < g.toNat → Completes (.sleepuntil o) s (fun v => Waits v t .sleeping (.sleepUntil g (some l.spa) none) ∧ Quiet (sh o) x e.act s1 v)) ∧
      (g.toNat ≤ s1.gtb.toNat →
        let q := homeRead s1 x l.spa 4
        (∀ n, q.2 = some n → n / 2 ^ 31 % 2 = 1 → Completes (.sleepuntil o) s (fun v => WentOn v t 8 ∧ KeepsRegs x e.act [] [] (markedRegs (sh o)) [] s1 v)) ∧
        (∀ n, q.2 = some n → n / 2 ^ 31 % 2 = 0 → ∃ s2 r k, KeepsRegs x e.act [] [] (markedRegs (sh o)) [] s1 s2 ∧ r.id = t.id ∧ r.pc = t.pc ∧ k.id = x.id ∧
          k.vd = z.vd ∧ k.ctx = z.ctx ∧ exec (.sleepuntil o) s = .next (takeTrap s2 r k .promiseMissed (q.1.gtb.toNat % 2 ^ 32) (r.nextPc 8)))))) ∧
  (∀ o s t x u y w a b g, Issues (sh o) s t x u y w → t.wait = some (.sleepUntil a b (some (g, false))) →
    Completes (.sleepuntil o) s (fun v => WentOn v t 8 ∧ Quiet (sh o) x (issueEnv (sh o) t x s).act u v)) ∧
  (∀ o s t x u y w a b g, Issues (sh o) s t x u y w → t.wait = some (.sleepUntil a b (some (g, true))) → markedRegs (sh o) = [] →
    exec (.sleepuntil o) s = .next (takeTrap u w y .promiseMissed (g.toNat % 2 ^ 32) (w.nextPc 8))) ∧
  (∀ s k t x g chk, strand? s k = some t → skein? s t.skein = some x → t.st = .sleeping → t.wait = some (.sleepUntil g chk none) →
    (s.gtb.toNat < g.toNat → exec (.sleepuntilWake k) s = .next s) ∧
    (g.toNat ≤ s.gtb.toNat →
      (chk = none → Completes (.sleepuntilWake k) s (fun v => SameBytes s v ∧
        ∃ r, strand? v k = some r ∧ r.st = .ready ∧ r.pc = t.pc ∧ r.wait = some (.sleepUntil g chk (some (s.gtb, false))))) ∧
      (∀ a n, chk = some a → (homeRead s x a 4).2 = some n → Completes (.sleepuntilWake k) s (fun v =>
        ∃ r, strand? v k = some r ∧ r.st = .ready ∧ r.pc = t.pc ∧ r.wait = some (.sleepUntil g chk (some ((homeRead s x a 4).1.gtb, decide (n / 2 ^ 31 % 2 = 0))))))))

/-- 10 R235, R236, R241, R252, R254: with the descriptor checked, QPUT, LAUNCH and FEEDPUT refuse, or claim the next slot or record and write it, and
nothing else in memory. QPUT's D is 0, or the promise; FEEDPUT's 2, 1 or 0; LAUNCH's 3 or 2 where it refuses, and otherwise what the parser decides.
10 R236, R252, R254: QPUT, FEEDPUT and LAUNCH wait, before all else, for the strand's earlier loads (11 R267) and as FENCE at device scope does.
The model's own choices in it: log 36 (misaligned descriptors), 45, 57 (malformed queues). -/
def Obligations.QueuePuts : Prop :=
  (
  (∀ o s t x u y w s1 d, Issues (shQput o .two) s t x u y w →
    let sh := shQput o .two
    let e := issueEnv sh t x s
    Described u t x e (e.r64 e.lead o.a.reg) s1 d →
    let s2 := homeAccess s1 (acctOf x) (d / 128) false false false .normal
    let bs := uniBytes e o.b.reg
    let done := fun (v : State) (p : BitVec 64) => WentOn v t 8 ∧ ∀ f, Writes e o.d f → Holds64 v x.id f o.d p
    (qOk s2 d 0 = false → Completes (.qput o) s (fun v => done v 0)) ∧
    (qOk s2 d 0 = true → ∀ s3 pages, checkRing (Need.plain false true) e s2 (qBase s2 d) (qLog s2 d) = .ok s3 pages → Stands s3 t →
      (qFree s3 d = false → Completes (.qput o) s (fun v => done v 0 ∧ QuietBut sh x e.act s3 v)) ∧
      (qFree s3 d = true → Completes (.qput o) s (fun v =>
        let slot := ringAt pages (qWidx s3 d) (qLog s3 d)
        let q := takenBytes s3 d +
          waitingBytes (fun i => readSpa s3 (ringAt pages i (qLog s3 d)) 64) (qRidx s3 d) ((qWidx s3 d + 2 ^ 64 - qRidx s3 d) % 2 ^ 64)
        let rate := (bteOf s3 (descVd s3 d) (qMill s3 d)).rate
        done v (if rate = 0 then BitVec.allOnes 64
          else BitVec.ofNat 64 (s3.gtb.toNat + (if fieldOf bs 0 1 = 6 then 8000 else 2000) + (10000 * (q + pktBytes bs) + rate - 1) / rate)) ∧
        RegsBut sh x e.act s3 v ∧ SlotWritten s3 v slot bs (d + 16) (qWidx s3 d + 1))))) ∧
  (∀ o s t x u y w s1 d, Issues (shQput o .one) s t x u y w →
    let sh := shQput o .one
    let e := issueEnv sh t x s
    Described u t x e (e.r64 e.lead o.a.reg) s1 d →
    let s2 := homeAccess s1 (acctOf x) (d / 128) false false false .normal
    let bs := uniBytes e o.b.reg
    let done := fun (v : State) (n : BitVec 32) => WentOn v t 8 ∧ ∀ f, Writes e o.d f → Holds32 v x.id f o.d n
    (feedOk s2 d = false → Completes (.feedput o) s (fun v => done v 2 ∧ QuietBut sh x e.act s2 v)) ∧
    (feedOk s2 d = true → ∀ s3 pages, checkRing (Need.plain false true) e s2 (qBase s2 d) (qLog s2 d) = .ok s3 pages → Stands s3 t →
      (feedRoom s3 d = false → Completes (.feedput o) s (fun v => done v 1 ∧ QuietBut sh x e.act s3 v)) ∧
      (feedRoom s3 d = true → Completes (.feedput o) s (fun v => done v 0 ∧ RegsBut sh x e.act s3 v ∧
        (normSpa s3 (d + 16) = d + 16 → (∀ k, k < 8 → ¬ SideTable s3 (d + 16 + k)) →
          SlotWritten s3 v (ringAt pages (fTail s3 d) (qLog s3 d)) bs (d + 16) (fTail s3 d + 1)))))) ∧
  (∀ o s t x u y w s1 d, Issues (shLaunch o) s t x u y w → (∀ a b c d e, t.wait ≠ some (.launch a b (some c) d e)) →
    let sh := shLaunch o
    let e := issueEnv sh t x s
    Described u t x e (e.r64 e.lead o.b.reg) s1 d →
    let done := fun (v : State) (n : BitVec 32) => WentOn v t 16 ∧ ∀ f, Writes e o.d f → Holds32 v x.id f o.d n
    let bs := [0x10, if o.pwv then 1 else 0, 0, 0] ++ toBytes 4 (e.r32 e.lead o.x.reg).toNat ++ toBytes 8 (e.r64 e.lead o.a.reg).toNat ++ zeros 40 ++
      toBytes 4 o.pw.toNat ++ zeros 4
    (qOk s1 d 1 = false → Completes (.launch o) s (fun v => done v 3 ∧ QuietBut sh x e.act s1 v)) ∧
    (qOk s1 d 1 = true → ∀ s2 pages, checkRing (Need.plain false true) e s1 (qBase s1 d) (qLog s1 d) = .ok s2 pages → Stands s2 t →
      (qFree s2 d = false → Completes (.launch o) s (fun v => done v 2 ∧ QuietBut sh x e.act s2 v)) ∧
      (qFree s2 d = true → Completes (.launch o) s (fun v => Waits v t .ready (.launch d (qWidx s2 d) none u.word (operandsNow e u.word)) ∧
        SlotWritten s2 v (ringAt pages (qWidx s2 d) (qLog s2 d)) bs (d + 16) (qWidx s2 d + 1))))) ∧
  (∀ o s t x u y w a b st c d, Issues (shLaunch o) s t x u y w → t.wait = some (.launch a b (some st) c d) →
    let e := issueEnv (shLaunch o) t x s
    Completes (.launch o) s (fun v => WentOn v t 16 ∧ QuietBut (shLaunch o) x e.act u v ∧ ∀ f, Writes e o.d f → Holds32 v x.id f o.d st))
  ) ∧ (
  let waits := fun (i : Instr) (sh : Shape) => ∀ s t x u y w, Issues sh s t x u y w → (∀ a b c d e, t.wait ≠ some (.launch a b (some c) d e)) → acquiring u t = none →
    (loadsOf u t ≠ [] → Completes i s (fun v => Waits v t .ready (.skeinWork (loadsOf u t)) ∧ Quiet sh x (issueEnv sh t x s).act u v)) ∧
    (loadsOf u t = [] → fenceMet u t .device = false → Completes i s (fun v => Waits v t .ready (.fence .device) ∧ Quiet sh x (issueEnv sh t x s).act u v))
  (∀ o, waits (.qput o) (shQput o .two)) ∧ (∀ o, waits (.feedput o) (shQput o .one)) ∧ (∀ o, waits (.launch o) (shLaunch o))
  )

/-- 02 R53, R54, R56; 10 R253, R255: FEEDPOP takes BAD-FEED for a malformed descriptor; else records go to its active fibres in their order, those requeued first
whose pages are resident, lowest index first, then from HEAD, until the feed has no more: then the strand sleeps until an append wakes it, and issues again for
the fibres left, at the address that was read first. A record
that has been taken lands in sixteen registers of its fibre.
The model's own choices in it: log 36 (misaligned descriptors), 116 (records to be delivered again). -/
def Obligations.FeedPops : Prop :=
  (∀ o s t x u y w s1 l walked, Issues (shFeedpop o) s t x u y w → acquiring u t = none →
    let e := issueEnv (shFeedpop o) t x s
    let va := popAddr o e u
    Checked (Need.plain true true) t x u [Lane.mk0 e.lead va 64] s1 [l] false walked → va.toNat % 64 = 0 → popAddr o e s1 = va →
    (∀ q z, strand? s1 t.id = some q → skein? s1 x.id = some z → feedOk s1 l.spa = false →
      exec (.feedpop o) s = .next (deliver s1 q z (accFlt (Need.plain true true) 0x1F e.lead t.pc va))) ∧
    (feedOk s1 l.spa = true → ∀ s2 pages, checkRing (Need.plain true true) e s1 (qBase s1 l.spa) (qLog s1 l.spa) = .ok s2 pages → Stands s2 t →
      popAddr o e s2 = va →
      let serves := fun (id : Nat) (r : State × List Nat) =>
        (r.2 = [] → Completes (.feedpop o) s (fun v => WentOn v t 8 ∧ v.mem = r.1.mem ∧ v.pend = r.1.pend)) ∧
        (r.2 ≠ [] → Completes (.feedpop o) s (fun v => Waits v t .sleeping (.feed l.spa id r.2 false) ∧ v.mem = r.1.mem ∧ v.pend = r.1.pend))
      (openPop s2 t = none → serves s2.key (feedServe l.spa va s2.key t.id o.hold pages (acctOf x)
        (inFlight s2 e o.c.setf (.feedpop o.d o.hold l.spa) (e.act.map (fun f => Lane.mk0 f 0 0)) false false 0) e.act)) ∧
      (∀ p, openPop s2 t = some p → serves p.id (feedServe l.spa va p.id t.id o.hold pages (acctOf x) s2
        ((p.lanes.filter (fun l => l.size == 0)).map (fun l => l.fibre)))))) ∧
  (∀ o e s, (openPop s e.t = none → popAddr o e s = e.r64 e.lead o.a.reg) ∧
    ∀ p q qs, openPop s e.t = some p → p.ops = q :: qs → popAddr o e s = q.2.1) ∧
  (∀ d va id k hold pages acct s f fs,
    (popIndex s d = none → feedServe d va id k hold pages acct s (f :: fs) = (s, f :: fs)) ∧
    (∀ s1 i, popIndex s d = some (s1, i) → ∃ s2, feedServe d va id k hold pages acct s (f :: fs) = feedServe d va id k hold pages acct s2 fs ∧
      (∀ p l, pend? s id = some p → l ∈ p.lanes → l.fibre = f → l.size = 0 → ∃ q m, pend? s2 id = some q ∧ m ∈ q.lanes ∧ m.fibre = f ∧ m.size = 64 ∧
        m.spa = ringAt pages i (qLog s1 d)) ∧
      (hold = true → ∀ t, strand? s k = some t → ∃ r, strand? s2 k = some r ∧ r.held = t.held ++ [{ desc := d, va := va, idx := i }]))) ∧
  (∀ s d,
    let mine := fun (r : Nat × Nat × Option (BitVec 64)) => r.1 = d ∧ ∀ k, r.2.2 = some k → k ∉ tokensUsed s
    ((∃ r ∈ s.requeued, mine r) → ∃ v r, popIndex s d = some (v, r.2.1) ∧ r ∈ s.requeued ∧ mine r ∧ (∀ q ∈ s.requeued, mine q → r.2.1 ≤ q.2.1) ∧
      v.requeued = s.requeued.erase r ∧ v.mem = s.mem) ∧
    ((∀ r ∈ s.requeued, ¬ mine r) → readNat s (d + 24) 8 = readNat s (d + 16) 8 → popIndex s d = none) ∧
    ((∀ r ∈ s.requeued, ¬ mine r) → readNat s (d + 24) 8 ≠ readNat s (d + 16) 8 → ∃ v, popIndex s d = some (v, readNat s (d + 24) 8) ∧
      readNat v (d + 24) 8 = (readNat s (d + 24) 8 + 1) % 2 ^ 64)) ∧
  (∀ s k t a b c, strand? s k = some t → t.st = .sleeping → t.wait = some (.feed a b c true) →
    Completes (.feedpopReissue k) s (fun v => SameBytes s v ∧ ∃ r, strand? v k = some r ∧ r.st = .ready ∧ r.pc = t.pc ∧ r.wait = t.wait)) ∧
  (∀ s id sel p x d hold desc ls, pend? s id = some p → p.acc = .feedpop d hold desc → skein? s p.skein = some x → performing s p sel = ls → ls ≠ [] →
    (∀ l ∈ ls, l.2.elem = 0 ∧ l.2.size = 64 ∧ CanLand s x d.toNat 16 l.2.fibre) → (ls.map (fun l => l.2.fibre)).Nodup →
    Completes (.loadDataReturn id sel) s (fun v => SameBytes s v ∧ (∀ l ∈ ls, ∀ j, j < 16 → vreg v x.id l.2.fibre (d.toNat + j) = BitVec.ofNat 32 (fieldOf l.2.data (4 * j) 4)) ∧
      KeepsRegs x (ls.map (fun l => l.2.fibre)) (upTo d.toNat 16) [] [] [] s v ∧ (Finishes p ls → Gone v id)))

/-- 01 R17; 10 R256, R258, R259: IDEM opens a region when the skein has a region buffer to spare, waits while it has none free, and is NO-REGION-BUFFER where it has
none at all; COMMIT puts the region's stores in flight in program order, closes the region and releases held records; JREAD, once no work of its strand is
outstanding, leaves the energy state in D.
The model's own choices in it: log 23, 26, 106 (what JREAD waits for), 137 (COMMIT issued again after a halt, and its SETF). -/
def Obligations.Regions : Prop :=
  (∀ o s t x u y w, Issues (leadShape 8 o.c [] [{ reg := o.d, wid := .one }] true) s t x u y w →
    let sh := leadShape 8 o.c [] [{ reg := o.d, wid := .one }] true
    let e := issueEnv sh t x s
    let cap := 4 * (bits y.part 18 6).toNat
    let used := (u.strands.filter (fun r => r.skein == x.id && r.region.isSome)).length
    (cap = 0 → exec (.idem o) s = .next (deliver u w y (Flt.plain .execute 0x17 e.lead t.pc))) ∧
    (cap ≠ 0 → cap ≤ used → Completes (.idem o) s (fun v => Waits v t .ready .regionBuf ∧ Quiet sh x e.act u v)) ∧
    (used < cap → Completes (.idem o) s (fun v => WentOn v t 8 ∧ QuietBut sh x e.act u v ∧ (∀ f, Writes e o.d f → Holds32 v x.id f o.d 0) ∧
      ∃ r g, strand? v t.id = some r ∧ r.region = some g ∧ g.start = t.pc ∧ g.dest = o.d ∧ g.act = e.act ∧ g.used = 0 ∧ g.stores = []))) ∧
  (∀ o s t x u y w, Issues (leadShape 8 o.c [] [] false) s t x u y w → acquiring u t = none →
    let sh := leadShape 8 o.c [] [] false
    let act := (issueEnv sh t x s).act
    (t.region = none → Completes (.commit o) s (fun v => WentOn v t 8 ∧ KeepsRegs x act [] [] [] [] u v ∧ v.pend = u.pend ∧
      ∃ r, strand? v t.id = some r ∧ r.held = [])) ∧
    (∀ g, t.region = some g → ∀ s1 ls held walked,
      Checked (Need.plain false true) t x u (g.stores.map (fun b => { Lane.mk0 b.fibre b.va b.bytes.length with data := b.bytes })) s1 ls held walked →
      Completes (.commit o) s (fun v => WentOn v t 8 ∧ KeepsRegs x act [] [] [] [] s1 v ∧ (∃ r, strand? v t.id = some r ∧ r.region = none ∧ (s1.undo = none → r.held = [])) ∧
        (ls = [] → v.pend = s1.pend) ∧ (ls ≠ [] → Flying v s1 t x o.c.setf (.commitStore g.stores) ls 0)))) ∧
  (∀ o s t x u y w, Issues (leadShape 8 o.c [] [{ reg := o.d, wid := .two }] false) s t x u y w →
    let sh := leadShape 8 o.c [] [{ reg := o.d, wid := .two }] false
    let e := issueEnv sh t x s
    let reads := fun (c : Ctx) => Completes (.jread o) s (fun v => WentOn v t 8 ∧ QuietBut sh x e.act u v ∧ ∀ f, Writes e o.d f → Holds64 v x.id f o.d
        (match o.sel with | .acc => c.jacc | .mlo => c.mtr.setWidth 64 | .mhi => BitVec.ofNat 64 (c.mtr.toNat / 2 ^ 64) | .bkt => c.bkt.lvl))
    let idle := (∀ p ∈ u.pend, t.id ∉ p.strands) ∧ ∀ a ∈ u.array, t.id ∉ a.strands
    (t.wait = none → idle → ∀ c, ctxOf s x = some c → reads c) ∧ (t.wait ≠ none → idle → ∀ c, ctxOf u x = some c → reads c) ∧
    (t.wait = none ∨ (∃ l, t.wait = some (.skeinWork l)) → ¬ idle →
      ∃ v ids, exec (.jread o) s = .next v ∧ ids ≠ [] ∧ ∃ r, strand? v t.id = some r ∧ r.pc = t.pc ∧ r.wait = some (.skeinWork ids)))

/-- 10 R261, R262: TRAP suspends its strand and enters the handler with USER-TRAP, its code in INFO and the next word as EPC; EBRK parks its strand at the
next word with a token; TRET ends the handler and makes the trapped strand ready at EPC, or a word further, and a written EPC that is no clause start
is BAD-TARGET. 10 R261: a trap suspends the strand at its PC and starts a handler strand with the same fibres at CTX_TVEC, its flags idle, with CAUSE
and EPC; an open region goes with it. With CTX_TVEC 0, or in a handler, an open region ends and the hank with TRAP-UNHANDLED.
The model's own choices in it: log 27 (the handler strand), 28 (TRET of a split handler). -/
def Obligations.TrapsAndReturns : Prop :=
  (
  (∀ o s t x u y w, Issues (leadShape 8 o.c [] [] false) s t x u y w →
    exec (.trap o) s = .next (takeTrap u w y .userTrap o.code.toNat (w.nextPc 8))) ∧
  (∀ o s t x u y w, Issues (leadShape 8 o.c [] [] false) s t x u y w →
    exec (.ebrk o) s = .next (parkStrand u (w.advance 8) x (Flt.plain .debug 0 (issueEnv (leadShape 8 o.c [] [] false) t x s).lead t.pc)) ∧
    Completes (.ebrk o) s (fun v => ∃ r tok, strand? v t.id = some r ∧ r.st = .parked ∧ r.pc = (t.advance 8).pc ∧ r.wait = some (.token tok))) ∧
  (∀ o s t x u y w r, Issues (shTret o) s t x u y w → t.trap = some r →
    let e := issueEnv (shTret o) t x s
    (r.epcWritten = true → (o.nxt = true ∨ r.epc.toNat % 32 ≠ 0) → exec (.tret o) s = .next (deliver u w y { Flt.plain .execute 0x14 e.lead t.pc with va := r.epc })) ∧
    (∀ q, strand? u r.trapped = some q → q.id ≠ t.id → (∀ f ∈ q.fibres, f ∈ w.fibres) →
      (o.nxt = false → (r.epcWritten = true → r.epc.toNat % 32 = 0) → Completes (.tret o) s (fun v => strand? v t.id = none ∧ v.mem = u.mem ∧ KeepsRegs x [] [] [] [] [] u v ∧
        ∃ a, strand? v q.id = some a ∧ a.st = .ready ∧ a.pc = r.epc ∧ a.fibres = q.fibres ∧ a.wait = none ∧ a.region = w.region ∧ a.held = w.held ∧
          (r.epcWritten = true → a.clause = none))) ∧
      (o.nxt = true → r.epcWritten = false → ∀ u1 block q1 h1, fetchBlock u t x r.epc = (u1, .ok block) → strand? u1 r.trapped = some q1 → q1.id = q.id →
        q1.fibres = q.fibres → strand? u1 t.id = some h1 → h1.fibres = w.fibres →
        Completes (.tret o) s (fun v => strand? v t.id = none ∧ ∃ a, strand? v q.id = some a ∧ a.st = .ready ∧ a.fibres = q.fibres ∧
          (∀ c n, q1.clause = some c → r.epc ≠ c.start + BitVec.ofNat 64 (32 * (c.size.toNat + 1)) →
            n = lenBytes (BitVec.ofNat 2 (ofBytes ((fetchFrom r.epc block).take 8))) → a.pc = r.epc + BitVec.ofNat 64 n)))))
  ) ∧ (
  ∀ (s : State) (t : Strand) (x : Skein) (c : TrapCause) (info : Nat) (epc : BitVec 64) (k : Ctx), strand? s t.id = some t → ctx? s x.vd x.ctx = some k →
    (k.tvec ≠ 0 → t.trap = none →
      let v := takeTrap s t x c info epc
      (∃ h ∈ v.strands, h.id = s.key ∧ h.skein = t.skein ∧ h.fibres = t.fibres ∧ h.pc = k.tvec ∧ h.clause = none ∧ h.st = .ready ∧ h.holds = [] ∧
        h.region = t.region ∧ h.held = t.held ∧
        h.trap = some { cause := BitVec.ofNat 64 (info % 2 ^ 32 * 2 ^ 32 + c.code), epc := epc, epcWritten := false, trapped := t.id }) ∧
      (∃ r, strand? v t.id = some r ∧ r.st = .trap ∧ r.pc = t.pc ∧ r.clause = t.clause ∧ r.region = none ∧ r.holds = t.holds) ∧
      v.skeins = s.skeins ∧ v.mem = s.mem ∧ v.ctxs = s.ctxs) ∧
    (k.tvec = 0 ∨ t.trap.isSome = true → takeTrap s t x c info epc = failHank (failRegion s t x) x (Flt.plain .execute 0x1E (t.fibres.headD 0xFFFF) t.pc))
  )

/-- 10 R263; 00 R6; 02 R42, R64; 03 R87; 04 R108; 08 R208; 09 R221; 11 R274; 15 R333, R343; 16 R351: what SYSRD reads by each selector. 10 R263, R264; 00
R6; 16 R351, R354: what SYSWR does to each register it can write, what RAMODE does to CTX_RACTL, and TLBINV, which starts an invalidation of the VD's
stage 1, sweeps what it covers, and waits.
The model's own choices in it: log 11 (unlisted selectors). -/
def Obligations.SystemRegisters : Prop :=
  (
  ∀ o s t x u y w, Issues (shSysrd o) s t x u y w →
    let e := issueEnv (shSysrd o) t x s
    let reads := fun (n : Nat) (v : BitVec 64) => o.sel.toNat = n →
      Completes (.sysrd o) s (fun r => WentOn r t 8 ∧ QuietBut (shSysrd o) x e.act u r ∧ ∀ f, Writes e o.d f → Holds64 r x.id f o.d v)
    (acquiring u t = none → reads 0x000 u.gtb) ∧
    (∀ p, acquiring u t = some p → o.sel.toNat = 0 → Completes (.sysrd o) s (fun r => Waits r t .ready (.acquire p.id) ∧ Quiet (shSysrd o) x e.act u r)) ∧ reads 0x00E (y.token.setWidth 64) ∧ reads 0x013 t.h ∧
    reads 0x012 ((bits (millOf u (millOfSpindle y.spindle)).oppt 0 4).setWidth 64) ∧
    (t.trap = none → reads 0x00F 0 ∧ reads 0x010 0) ∧ (∀ r, t.trap = some r → reads 0x00F r.cause ∧ reads 0x010 r.epc) ∧
    (∀ c, ctxOf u y = some c → reads 0x001 c.fpctl ∧ reads 0x002 c.ra.epi ∧ reads 0x003 c.ra.ins ∧ reads 0x004 c.ra.pfl ∧ reads 0x005 c.ra.wlk ∧
      reads 0x006 c.ra.use ∧ reads 0x007 c.ra.stp ∧ reads 0x008 c.ra.cap ∧ reads 0x009 c.ra.fj ∧ reads 0x00A c.regFill ∧ reads 0x00B c.regSpill ∧
      reads 0x00C c.stale ∧ reads 0x00D c.pin ∧ reads 0x011 c.tvec ∧ reads 0x100 c.fair ∧ reads 0x101 c.ractl ∧ reads 0x102 c.dbg ∧ reads 0x103 c.array ∧
      reads 0x200 c.lease ∧ reads 0x201 c.sched ∧ reads 0x202 c.vj ∧ reads 0x203 c.save ∧ reads 0x204 c.ptbase)
  ) ∧ (
  (∀ o s t x u y w, Issues (shSyswr o) s t x u y w →
    let e := issueEnv (shSyswr o) t x s
    let v := e.r64 e.lead o.a.reg
    let done := fun (r : State) => WentOn r t 8 ∧ KeepsRegs x e.act [] [] (markedRegs (shSyswr o)) [] u r ∧ SameBytes u r
    (o.sel = 0x010 → ∀ q, w.trap = some q → Completes (.syswr o) s (fun r => done r ∧
      ∃ a, strand? r t.id = some a ∧ a.trap = some { q with epc := v &&& ~~~7, epcWritten := true })) ∧
    (o.sel ≠ 0x010 → ∀ c, ctx? u x.vd x.ctx = some c →
      let writes := fun (n : Nat) (p : Ctx → Prop) => o.sel.toNat = n → Completes (.syswr o) s (fun r => done r ∧ ∃ d, ctx? r x.vd x.ctx = some d ∧ p d)
      writes 0x001 (fun d => d.fpctl = v &&& 0x33F3F3F) ∧ writes 0x00D (fun d => bits d.pin 32 32 = bits v 32 32 ∧ bits d.pin 0 32 = bits c.pin 0 32) ∧
      writes 0x011 (fun d => d.tvec = v &&& ~~~31) ∧
      writes 0x100 (fun d => d.fair.toNat = max 128 (min 8192 (v.toNat % 2 ^ 14))) ∧
      writes 0x101 (fun d => bits d.ractl 32 32 = bits v 32 32 ∧ bits d.ractl 0 32 = bits v 0 32 &&& 1) ∧
      writes 0x102 (fun d => d.dbg = v &&& 1) ∧ writes 0x103 (fun d => d.array = v &&& 3) ∧
      writes 0x200 (fun d => d.lease.toNat = max 256 (min 4096 (v.toNat % 2 ^ 13))) ∧
      writes 0x201 (fun d => bits d.sched 0 6 = bits v 0 6 ∧ bits d.sched 8 16 = (if bits v 8 16 = 0 then 1 else bits v 8 16) ∧ d.vb = c.vj ∧ d.ab = c.jacc) ∧
      (hanksOf u x.vd x.ctx ≠ [] → writes 0x203 (fun d => d.save = c.save)) ∧
      (hanksOf u x.vd x.ctx = [] → writes 0x203 (fun d => bits d.save 16 48 = bits v 16 48 ∧
        (bits d.save 0 16).toNat = max 1 (min 256 (v.toNat % 512)))) ∧
      writes 0x204 (fun d => d.ptbase = v &&& 0x0000FFFFFFFFF000))) ∧
  (∀ o s t x u y w c, Issues (shRamode o) s t x u y w → ctx? u x.vd x.ctx = some c →
    Completes (.ramode o) s (fun v => WentOn v t 8 ∧ Quiet (shRamode o) x (issueEnv (shRamode o) t x s).act u v ∧
      ∃ d, ctx? v x.vd x.ctx = some d ∧ d.ractl.getLsbD 0 = o.on ∧ ∀ k, 0 < k → d.ractl.getLsbD k = c.ractl.getLsbD k)) ∧
  (∀ o s t x u y w, Issues (shTlbinv o) s t x u y w →
    let sh := shTlbinv o
    let e := issueEnv sh t x s
    let a := (e.r64 e.lead o.a.reg).toNat
    let len := match o.kind with | .page => some 1 | .range => some (e.r64 e.lead o.b.reg).toNat | .all => none
    ((∀ n, t.wait ≠ some (.invalidation n)) → Completes (.tlbinv o) s (fun v => Waits v t .ready (.invalidation u.key) ∧ SameBytes u v ∧
      (∃ i ∈ v.invs, i.id = u.key ∧ i.vd = x.vd ∧ i.stage2 = false ∧ i.ctx = none ∧ i.lo = a ∧ i.len = len) ∧
      ∀ z ∈ v.spindles, ∀ q ∈ z.tlb, q.vd = x.vd → ∃ n, len = some n ∧ ¬ (a < q.lpage + 2 ^ q.llg ∧ q.lpage < a + n))) ∧
    (∀ n, t.wait = some (.invalidation n) → Completes (.tlbinv o) s (fun v => WentOn v t 8 ∧ Quiet sh x e.act u v)))
  )

/-- 10 R260; 14 R318, R319; 18 R402, R404: OPREQ, with no other request or change of its partition in progress, leaves BAD-POINT, NOT-DEDICATED, BELOW-FLOOR or
BEYOND-ALLOWANCE in D and changes no point, or DONE at once where the partition already runs at the point; otherwise a change starts, the voltage step first
when the point rises and the frequency step first when it falls, and the strand waits for the answer, which D then takes.
The model's own choices in it: log 75, 76. -/
def Obligations.OperatingPoints : Prop :=
  (∀ o s t x u y w, Issues (shOpreq o) s t x u y w → (∀ a b, t.wait ≠ some (.opreq a b)) →
    let e := issueEnv (shOpreq o) t x s
    let p := (e.r32 e.lead o.a.reg).toNat
    let pid := (millOf u (millOfSpindle x.spindle)).pid
    (∀ r ∈ u.opreqs, r.pid ≠ pid) → (∀ c ∈ u.changes, c.pid ≠ pid) →
    let answers := fun (n : BitVec 32) => Completes (.opreq o) s (fun v => WentOn v t 8 ∧ QuietBut (shOpreq o) x e.act u v ∧
      v.mills = u.mills ∧ v.changes = u.changes ∧ ∀ f, Writes e o.d f → Holds32 v x.id f o.d n)
    let mine := x.vd ≠ 16 ∧ pid ≠ 8 ∧ partShared u pid = false ∧ dedicatedTo u pid x.vd = true
    (11 < p → answers 4) ∧
    (p ≤ 11 → x.vd ≠ 16 → ¬ mine → answers 3) ∧
    (p ≤ 11 → mine → p < floorOf u pid → answers 1) ∧
    (p ≤ 11 → mine → floorOf u pid ≤ p → effMax u pid < p → answers 2) ∧
    (p ≤ 11 → mine → floorOf u pid ≤ p → p ≤ effMax u pid → pointOf u pid = p → answers 0) ∧
    (p ≤ 11 → mine → floorOf u pid ≤ p → p ≤ effMax u pid → pointOf u pid ≠ p → Completes (.opreq o) s (fun v =>
      Waits v t .ready (.opreq u.key none) ∧ Quiet (shOpreq o) x e.act u v ∧
      ∃ c ∈ v.changes, c.pid = pid ∧ c.from_ = pointOf u pid ∧ c.target = p ∧ c.volt = decide (pointOf u pid < p) ∧ c.first = true))) ∧
  (∀ o s t x u y w a st, Issues (shOpreq o) s t x u y w → t.wait = some (.opreq a (some st)) →
    let e := issueEnv (shOpreq o) t x s
    Completes (.opreq o) s (fun v => WentOn v t 8 ∧ QuietBut (shOpreq o) x e.act u v ∧ ∀ f, Writes e o.d f → Holds32 v x.id f o.d st)) ∧
  (∀ s pid, floorOf s pid ≤ 11 ∧ (∀ m ∈ s.mills, m.pid = pid → min 11 (bits m.opfloor 0 4).toNat ≤ floorOf s pid) ∧
    effMax s pid ≤ 11 ∧ (∀ m ∈ s.mills, m.pid = pid → effMax s pid ≤ (bits m.opcap 0 4).toNat))
/-! ### Events of strands, queues and packets -/

/-- 02 R34, R41, R48, R58, R59, R63; 03 R80: the steps that the machine takes for strands and skeins: a promotion that is due puts the due strands of its spindle
first, their order and their counts kept; a held strand that may enters runahead, its fibres saved and its outstanding loads' destinations
INV; an episode ends with the held clause's flags idle, everything as at entry; a register line that is absent is filled; a skein whose fibres
have ended and whose work is complete retires, and with the last of its hank the hank, which its lot counts.
The model's own choices in it: log 16 (merges), 21 (register lines), 33 (when a miss is known). -/
def Obligations.StrandEvents : Prop :=
  (∀ s sp, promotionReady s sp = true → Completes (.fairnessPromotion sp) s (fun v => ∃ pre post, v = { s with strands := pre ++ post } ∧
    pre.map (fun t => (t.id, t.waitCount)) = (s.strands.filter (isDue s sp)).map (fun t => (t.id, t.waitCount)) ∧
    (∀ t ∈ pre, t.due = false ∧ t.dueCycles = 0 ∧ t.inPlace = []) ∧
    post = s.strands.filter (fun t => !isDue s sp t))) ∧
  (∀ s k t x, strand? s k = some t → skein? s t.skein = some x → raCanEnter s t x = true → Completes (.runaheadEntry k) s (fun v =>
    v.mem = s.mem ∧ v.pend.map (fun p => { p with sent := false }) = s.pend.map (fun p => { p with sent := false }) ∧
    (∀ c, ctx? s x.vd x.ctx = some c → ∃ d, ctx? v x.vd x.ctx = some d ∧ d.ra.epi = c.ra.epi + 1) ∧
    ∃ r m, strand? v k = some r ∧ r.st = .runahead ∧ r.pc = t.pc ∧ r.clause = none ∧ r.ra = some m ∧ m.pc = t.pc ∧ m.waits = t.waits ∧ m.spent = 0 ∧
      (∀ f ∈ x.fibres, f.id ∈ t.fibres → ∃ y ∈ m.saved, y.id = f.id ∧ y.regs = f.regs ∧ y.preds = f.preds ∧ y.live = f.live ∧ y.rel = f.rel) ∧
      (∀ p ∈ s.pend, t.id ∈ p.strands → ∀ d n, p.acc.dest = some (d, n) → d.toNat < 192 → ∀ l ∈ p.lanes, l.done = false → ∀ i < n,
        (l.fibre, d.toNat + i) ∈ m.invR))) ∧
  (∀ s k t m, strand? s k = some t → t.ra = some m → t.waitMet m.waits = true → Completes (.runaheadExit k) s (fun v =>
    v.mem = s.mem ∧ v.pend = s.pend ∧ strand? v k = some { t with ra := none, st := .ready, pc := m.pc, clause := none, waits := m.waits, wait := none } ∧
    ∀ x, skein? s t.skein = some x → ∃ z, skein? v t.skein = some z ∧ Restored z m.saved ∧ z.g = x.g ∧ z.tiles = x.tiles ∧ z.accs = x.accs)) ∧
  (∀ s k b q x t s1, skein? s k = some x → strandOfBlock s x b = some t → mayRun s x = true → (∀ l ∈ x.lines, l.key ≠ .vec b q) → 4 * q < x.w →
    (∃ u, makeRoom s k false = .ok (u, true)) → touchLine s k (.vec b q) false false = .ok s1 → Completes (.registerFill k b q) s (fun v => v = s1 ∧
      ∀ z, skein? v k = some z → ∃ l ∈ z.lines, l.key = .vec b q ∧ l.st = .clean)) ∧
  (∀ s k x h, skein? s k = some x → canRetire s x = true → hank? s x.hank = some h → (∀ c ∈ s.ctxs, c.ending = false) →
    ((∃ j ∈ h.skeins, j ≠ k ∧ ∃ y, skein? s j = some y ∧ y.retired = false) → Completes (.skeinRetire k) s (fun v =>
      skein? v k = some { x with retired := true, cls := 0, wg := 0, share := [], latch := none } ∧ hank? v x.hank = some h ∧ v.lots = s.lots ∧ (∀ p ∈ v.pend, p.skein ≠ k) ∧ v.strands = s.strands)) ∧
    ((∀ j ∈ h.skeins, j ≠ k → ∀ y, skein? s j = some y → y.retired = true) → Completes (.skeinRetire k) s (fun v =>
      hank? v x.hank = none ∧ (∀ j ∈ h.skeins, skein? v j = none) ∧ (∀ t ∈ v.strands, t.skein ∉ h.skeins) ∧
      ∀ l, lot? s h.lot = some l → 1 < l.live → ∃ m, lot? v h.lot = some m ∧ m.live = l.live - 1 ∧ m.retired = l.retired + (if h.failed then 0 else 1))))

/-- 10 R237, R239, R253; 15 R324 to R326, R330, R332: what the consumer of a mapped queue does with the packet that is next: of a BTE queue the packet is taken,
in its order; of a launch queue a LAUNCH whose checks pass becomes a lot, a FEED of one more record appends it, an IB puts its packets next, a WAIT whose value is
reached is done and one whose value is not stands, to be tested again. The turn passes to the next slot.
The model's own choices in it: log 41, 42, 52, 53, 54, 58. -/
def Obligations.QueueConsumers : Prop :=
  (∀ s n d s1 bs, Serves s n d s1 bs → qKind s d = 0 → badBte bs = false → Completes (.slotConsume n) s (fun v => v.cp.turn = (n + 1) % 256 ∧
    ∃ p, v.pkts = s1.pkts ++ [p] ∧ p.id = s1.key ∧ p.desc = d ∧ p.bytes = bs ∧ p.st = .waiting ∧ p.accepted = false ∧ p.slot = qRidx s1 d ∧
      p.seq = (queueOf s1 d).seq ∧ p.seq ∈ (queueOf v d).open_ ∧ (queueOf v d).seq = p.seq + 1 ∧ p.vd = descVd s1 d ∧ p.ctx = descCtx s1 d)) ∧
  (∀ s n d s1 bs, Serves s n d s1 bs → qKind s d = 1 → (fieldOf bs 0 1 = 0x10 → exec (.slotConsume n) s = exec (.launchPacket n) s) ∧
    (fieldOf bs 0 1 = 0x11 → exec (.slotConsume n) s = exec (.feedPacket n) s) ∧ (fieldOf bs 0 1 = 0x12 → exec (.slotConsume n) s = exec (.ib n) s) ∧
    (fieldOf bs 0 1 = 0x13 → exec (.slotConsume n) s = exec (.waitPacket n) s)) ∧
  (∀ s n d s1 bs s2 pd s3 av, Serves s n d s1 bs → qKind s d = 1 → fieldOf bs 0 1 = 0x10 → launchEarly bs = 0 → fieldOf bs 8 8 % 64 = 0 →
    consumerGet (turned s1 n) d (BitVec.ofNat 64 (fieldOf bs 8 8)) 256 = (s2, .ok pd) →
    let l := launchIn bs pd
    launchBadDesc pd l = false → (l.argn = 0 ∨ l.args.toNat % 8 = 0) → consumerGet s2 d l.args (8 * l.argn) = (s3, .ok av) → fieldOf pd 1 1 ≤ 8 →
    l.recs.any recTooLarge = false → Completes (.launchPacket n) s (fun v => v.cp.turn = (n + 1) % 256 ∧
      ∃ k, v.lots = s3.lots ++ [k] ∧ k.id = s3.key ∧ k.vd = descVd s3 d ∧ k.ctx = descCtx s3 d ∧ k.desc = d ∧ k.recs = l.recs ∧ k.hanks = fieldOf bs 4 4 ∧
        k.next = 0 ∧ k.live = 0 ∧ k.cmpl = l.cmpl ∧ k.packet = bs ∧ (∀ i, i < l.argn → k.args[i]? = some (BitVec.ofNat 64 (fieldOf av (8 * i) 8))))) ∧
  (∀ s n d s1 bs s2 fd fs u s3 r s4 spa rest u2, Serves s n d s1 bs → qKind s d = 1 → fieldOf bs 0 1 = 0x11 → badFeed bs = false → fieldOf bs 16 8 % 64 = 0 →
    xlatePieces (fun a => { consumerReq (turned s1 n) d a true with read := true }) 4 (turned s1 n) [(BitVec.ofNat 64 (fieldOf bs 16 8), 64)] = .ok s2 ((fd, 64) :: fs) u →
    feedOk s2 fd = true →
    let k := (queueOf (turned s1 n) d).fed
    fieldOf bs 32 4 = k + 1 → feedRoom s2 fd = true → r.length = 64 → consumerGet s2 d (BitVec.ofNat 64 (fieldOf bs 24 8) + BitVec.ofNat 64 (64 * k)) 64 = (s3, .ok r) →
    xlatePieces (fun a => consumerReq s3 d a true) 4 s3 [(BitVec.ofNat 64 (qBase s3 fd + slotOff (fTail s3 fd) (qLog s3 fd)), 64)] = .ok s4 ((spa, 64) :: rest) u2 →
    let acct := queueAcct s4 (descVd s4 d) (descCtx s4 d) false
    let s5 := engineLine (engineLine (noteGw s4 d (gwctOf s4 (spa / 128))) acct (spa / 128) true false) acct (fd / 128) true false
    exec (.feedPacket n) s = .next (feedEnds (feedAppend s5 fd spa r) d bs (k + 1) 0) ∧
      SlotWritten s5 (feedAppend s5 fd spa r) spa r (fd + 16) (fTail s5 fd + 1)) ∧
  (∀ s n d s1 bs, Serves s n d s1 bs → qKind s d = 1 → fieldOf bs 0 1 = 0x12 → badIb bs = false → (queueOf s1 d).ibs.length < 4 → Completes (.ib n) s (fun v =>
    v.cp.turn = (n + 1) % 256 ∧ SameBytes s1 v ∧
    queueOf v d = { queueOf s1 d with seq := (queueOf s1 d).seq + 1,
                                      ibs := { addr := BitVec.ofNat 64 (fieldOf bs 8 8), left := fieldOf bs 16 4 } :: (queueOf s1 d).ibs })) ∧
  (∀ s n d s1 bs s2 b, Serves s n d s1 bs → qKind s d = 1 → fieldOf bs 0 1 = 0x13 → badWait bs = false →
    consumerGet (turned s1 n) d (BitVec.ofNat 64 (fieldOf bs 8 8)) 8 = (s2, .ok b) → Completes (.waitPacket n) s (fun v => v.cp.turn = (n + 1) % 256 ∧
      (fieldOf bs 16 8 ≤ ofBytes b → (queueOf v d).wait = none ∧ (queueOf v d).seq = (queueOf s2 d).seq + 1) ∧
      (ofBytes b < fieldOf bs 16 8 → fieldOf bs 16 8 < 2 ^ 64 → (queueOf v d).wait = some (BitVec.ofNat 64 (fieldOf bs 8 8), BitVec.ofNat 64 (fieldOf bs 16 8)) ∧
        SameBytes s2 v))) ∧
  (∀ s n d w s1 b, slotDesc s n = some d → waitOpen s d = true → (queueOf s d).wait = some w → consumerGet s d w.1 8 = (s1, .ok b) →
    Completes (.waitSatisfied n) s (fun v => (w.2.toNat ≤ ofBytes b → (queueOf v d).wait = none ∧ (queueOf v d).seq = (queueOf s1 d).seq + 1) ∧
      (ofBytes b < w.2.toNat → (queueOf v d).wait = some w ∧ SameBytes s1 v)))

/-- 10 R237 to R240; 17 R382: the packets of the BTEs: each type is accepted, moves its chunks and is done; what the chunks of COPY, REMOTE_COPY, GATHER and
FILL move, as bytes; COPY+ARRAY without its skein is NO-TARGET, outside it SCRATCH-RANGE; its array command joins the array work of its skein; SIGNAL stores or adds its value once the
queue's earlier writes are globally complete, and that of a launch queue goes by the CP path.
The model's own choices in it: log 46, 48, 49 (a chunk that fails), 51. -/
def Obligations.TilePackets : Prop :=
  (Accepts .copy 1 noPrep ∧ Accepts .copyArray 2 prepCopyArray ∧ Accepts .gather 3 noPrep ∧ Accepts .fill 4 noPrep ∧ Accepts .decomp 5 prepDecomp ∧
    Accepts .remoteCopy 6 prepRemote) ∧
  (MovesChunks .copy 1 copyChunk ∧ MovesChunks .copyArray 2 copyArrayChunk ∧ MovesChunks .gather 3 gatherChunk ∧ MovesChunks .fill 4 fillChunk ∧
    MovesChunks .decomp 5 decompChunk ∧ MovesChunks .remoteCopy 6 copyChunk) ∧
  (∀ s p c s1 ds u s2 bs,
    let at_ := fun (base : BitVec 64) (o : Nat) (g : Nat × Nat × Nat) =>
      (base + BitVec.ofNat 64 g.1 * BitVec.ofNat 64 (fieldOf p.bytes o 8) + BitVec.ofNat 64 g.2.1, g.2.2)
    xlatePieces (pktReq s p true) 1 s (((chunkSegs p c).map (at_ p.dst 48)).flatMap (fun r => piecesOf r.1 r.2)) = .ok s1 ds u →
    (∀ q ∈ ds, lineBusy s1 (q.1 / 128) = false) → engineGet s1 p 1 ((chunkSegs p c).map (at_ p.src 40)) = .ok s2 bs →
    ∃ full, WholeLines full ds ∧ copyChunk s p c = .moved (writeFull (p.acct s2) u full s2 ds bs 0).1 (writeFull (p.acct s2) u full s2 ds bs 0).2) ∧
  (∀ s p c s0 ix s1 ds u s2 bs, engineGet s p 3 ((chunkSegs p c).map (fun g => (BitVec.ofNat 64 (fieldOf p.bytes 32 8) + BitVec.ofNat 64 (4 * g.1), 4))) = .ok s0 ix →
    xlatePieces (pktReq s0 p true) 1 s0 (piecesOf (p.dst + BitVec.ofNat 64 (512 * c)) (chunkLen p c)) = .ok s1 ds u →
    (∀ q ∈ ds, lineBusy s1 (q.1 / 128) = false) →
    engineGet s1 p 3 ((upTo 0 (chunkSegs p c).length).filterMap (fun k => ((chunkSegs p c)[k]?).map (fun g =>
      (p.src + BitVec.ofNat 64 (fieldOf ix (4 * k) 4) * BitVec.ofNat 64 p.len + BitVec.ofNat 64 g.2.1, g.2.2)))) = .ok s2 bs →
    ∃ full, WholeLines full ds ∧ gatherChunk s p c = .moved (writeFull (p.acct s2) u full s2 ds bs 0).1 (writeFull (p.acct s2) u full s2 ds bs 0).2) ∧
  (∀ s p c s1 ds u, xlatePieces (pktReq s p true) 1 s (piecesOf (p.dst + BitVec.ofNat 64 (512 * c)) (chunkLen p c)) = .ok s1 ds u →
    (∀ q ∈ ds, lineBusy s1 (q.1 / 128) = false) → ∃ bs g v full, WholeLines full ds ∧ fillChunk s p c = .moved v g ∧
      v = (writeFull (p.acct s1) u full s1 ds bs 0).1 ∧ bs.length = chunkLen p c ∧
      ∀ k, k < chunkLen p c → bs[k]? = some (p.bytes.getD (32 + (512 * c + k) % 8) 0)) ∧
  (∀ a u full s ps bs g, (∀ q ∈ ps, normSpa s q.1 = q.1) → ps.Pairwise (fun q r => q.1 + q.2 ≤ r.1 ∨ r.1 + r.2 ≤ q.1) → (ps.map (fun q => q.2)).sum = bs.length →
    let v := (writeFull a u full s ps bs g).1
    BytesBut s v ps ∧ ∀ i q, ps[i]? = some q → ∀ k, k < q.2 → ¬ SideTable s (q.1 + k) →
      bs[((ps.take i).map (fun q => q.2)).sum + k]? = some (mget v.mem.bytes (q.1 + k))) ∧
  (∀ s id c p, InProgress s id 2 p → p.st = .waiting → mayStart s p = true →
    (targetSkein s p = none → exec (.copyArray id c) s = .next (packetDone s p 7 0)) ∧
    (∀ x, targetSkein s p = some x → scrDest s x p 0 p.len = none → exec (.copyArray id c) s = .next (packetDone s p 8 0x23))) ∧
  (∀ s id p x row op src, pkt? s id = some p → p.st = .arrayCmd → pktServed s p = true → targetSkein s p = some x → followReady s x = true →
    followOp p = some (row, op) → rowCheck s x row = .ok src → Completes (.followOnArrayCommand id) s (fun v => v.mem = s.mem ∧
      (∃ w, v.array = s.array ++ [w] ∧ w.id = s.key ∧ w.skein = x.id ∧ w.op = op src ∧ w.pkt = some id ∧ w.strands = []) ∧
      ∃ q, pkt? v id = some q ∧ q.st = .arrayWait ∧ q.skein = some x.id)) ∧
  (∀ s id p s1 a u, InProgress s id 7 p → mayStart s p = true → qKind s p.desc ≠ 1 → p.st = .moving → p.accepted = true →
    (queueOf s p.desc).gw.toNat < s.gtb.toNat → p.cmpl = 0 → p.dst.toNat % 8 = 0 →
    let add := decide (p.opt % 4 = 1)
    xlatePieces (fun va => { pktReq s p true va with read := add }) 1 s [(p.dst, 8)] = .ok s1 [(a, 8)] u → (add = true → poisoned s1 a 8 = false) →
    let n := if add then (readNat s1 a 8 + fieldOf p.bytes 32 8) % 2 ^ 64 else fieldOf p.bytes 32 8
    Completes (.signal id) s (fun v => pkt? v id = none ∧ (normSpa s1 a = a → BytesBut s1 v [(a, 8)] ∧
      ∀ k, k < 8 → ¬ SideTable s1 (a + k) → (toBytes 8 n)[k]? = some (mget v.mem.bytes (a + k))))) ∧
  (∀ s id p, InProgress s id 7 p → mayStart s p = true → qKind s p.desc = 1 → (vdOf s (descVd s p.desc)).stopped = false → (vdOf s (descVd s p.desc)).empty = false →
    (vdOf s (descVd s p.desc)).withheld = [] → Completes (.signal id) s (fun v => pkt? v id = none ∧ v.mem = s.mem ∧ ∃ w, v.writes = s.writes ++ [w] ∧ w.va = p.dst ∧ w.desc = p.desc ∧
      w.bytes = toBytes 8 (fieldOf p.bytes 32 8) ∧ w.add = if p.opt % 4 = 1 then some (BitVec.ofNat 64 (fieldOf p.bytes 32 8)) else none))

/-- 14 R299, R311, R312; 15 R333, R335, R339 to R341, R343, R345; 17 R390: what the scheduler and writes of its registers do: CPR_PREEMPT names the hanks that quiesce; a
quiescent hank halts, what had not left its spindles kept as replay entries, or is dropped when its context ends; a saved hank that is placed stands in its
frame again; a run of the scheduler places the next fresh hank; a context is created, and ends; a bucket takes DELTA, and its level decides what is stopped; a
new weight leaves V as it is.
The model's own choices in it: log 34, 60, 62, 63, 112, 115. -/
def Obligations.SchedulerEvents : Prop :=
  (∀ s value, (s.cp.preempt.getLsbD 23 = true → Completes (.cprPreemptGo value) s (fun v => v = s)) ∧
    (s.cp.preempt.getLsbD 23 = false → value.getLsbD 0 = true →
      let vd := (bits value 17 4).toNat
      let named := if value.getLsbD 21 then hanksOfVd s vd else hanksOf s vd (bits value 7 10).toNat
      Completes (.cprPreemptGo value) s (fun v => v.cp.preempt = (value &&& 0x7FFF80) ||| 0x800000 ∧
        (value.getLsbD 21 = true → (∃ d ∈ s.vds, d.num = vd) → (vdOf v vd).stopped = true ∧ (vdOf v vd).run = 0) ∧
        ∀ h, hank? s h.id = some h → h.id ∈ named → h.st = .placed →
          ∃ k, hank? v h.id = some k ∧ k.st = .quiescing ∧ k.why = .preempt ∧ k.tq = s.gtb ∧ k.mig = value.getLsbD 22))) ∧
  (∀ s id h, hank? s id = some h → haltReady s h = true → (∀ p ∈ s.pend, p.skein ∈ h.skeins → match p.acc with | .pft .. => False | _ => True) →
    (h.why ≠ .ending → Completes (.halt id) s (fun v => (∃ k, hank? v id = some k ∧ k.st = .saved) ∧
      (∀ p ∈ s.pend, p.skein ∈ h.skeins → recordable p = true → sleepsIn s p = false →
        ∃ r ∈ v.replays, r.id = p.id ∧ r.array = false ∧ r.skein = p.skein ∧ r.strands = p.strands ∧ r.word = p.word ∧ r.pc = p.pc ∧ r.ops = p.ops ∧ r.stores = p.leftStores) ∧
      (∀ a ∈ s.array, a.skein ∈ h.skeins → a.pkt = none →
        ∃ r ∈ v.replays, r.id = a.id ∧ r.array = true ∧ r.skein = a.skein ∧ r.word = a.word ∧ r.pc = a.pc ∧ r.ops = a.ops ∧ r.r = a.r ∧ r.b = a.b ∧ r.flags = a.flags))) ∧
    (h.why = .ending → Completes (.halt id) s (fun v => hank? v id = none ∧ ∀ t ∈ v.strands, t.skein ∉ h.skeins))) ∧
  (∀ s id c h l fr slots, firstPlace (settleRunnable s) = some (c, .saved h l, fr, slots) → h.id = id → (∀ p ∈ s.pend, p.dlogHeld = false) →
    Completes (.resume id) s (fun v => (∃ k, hank? v id = some k ∧ k.st = .placed ∧ k.frame = fr ∧ k.inShadow = false) ∧
      ∀ x ∈ s.skeins, x.id ∈ h.skeins → ∃ y ∈ v.skeins, y.id = x.id ∧ y.spindle = fr * 8 + slots.getD x.rank 0)) ∧
  (∀ s c l fr slots, firstPlace (settleRunnable s) = some (c, .fresh l, fr, slots) → (∀ h ∈ s.hanks, h.id < s.key) →
    Completes .schedulerRun s (fun v => (∃ h ∈ v.hanks, h.id = s.key ∧ h.lot = l.id ∧ h.index = l.next ∧ h.frame = fr) ∧
      ∀ r e, l.recs[r]? = some e → ∃ x ∈ v.skeins, x.hank = s.key ∧ x.rank = r ∧ x.vd = l.vd ∧ x.ctx = l.ctx ∧ x.entry = e.entry ∧ x.w = e.w ∧ x.part = e.pw)) ∧
  (∀ s vd n, (vdOf s vd).bound = true → (vdOf s vd).ending = false → vd < 16 → n < 1024 → ctx? s vd n = none →
    Completes (.contextCreate vd n) s (fun v => v = { s with ctxs := s.ctxs ++ [Ctx.create vd n] })) ∧
  (∀ s vd n c, ctx? s vd n = some c → Completes (.contextEnd vd n) s (fun v => (∃ d, ctx? v vd n = some d ∧ d.ending = true ∧ d.runnable = false) ∧
    (∀ h ∈ allHanks v vd n, h.st ≠ .saved) ∧
    ∀ h ∈ allHanks s vd n, h.st = .placed → (∀ g ∈ s.hanks, g.id = h.id → g = h) → ∃ k, hank? v h.id = some k ∧ k.st = .quiescing ∧ k.why = .ending)) ∧
  (∀ s vd n d, (∀ a ∈ s.ctxs, ∀ b ∈ s.ctxs, a.vd = b.vd → a.num = b.num → a = b) → ∀ c, ctx? s vd n = some c → regsAnswer s = true → Completes (.bktAdj vd (some n) d) s (fun v =>
    ∃ e, ctx? v vd n = some e ∧ e.bkt = { c.bkt with adj := d, lvl := c.bkt.lvl + d } ∧
      e.stopped = decide (s64 (c.bkt.lvl + d) ≤ 0 ∨ s64 (vdOf s vd).bkt.lvl ≤ 0))) ∧
  (∀ s vd d, (∃ x ∈ s.vds, x.num = vd) → (∀ a ∈ s.vds, ∀ b ∈ s.vds, a.num = b.num → a = b) → regsAnswer s = true → Completes (.bktAdj vd none d) s (fun v =>
    (vdOf v vd).bkt = { (vdOf s vd).bkt with adj := d, lvl := (vdOf s vd).bkt.lvl + d } ∧ (vdOf v vd).empty = decide (s64 ((vdOf s vd).bkt.lvl + d) ≤ 0))) ∧
  (∀ s vd n c value, ctx? s vd n = some c → regsAnswer s = true → Completes (.ctxSchedWeight vd n value) s (fun v => ∃ d, ctx? v vd n = some d ∧ d.vj = c.vj ∧
    bits d.sched 8 16 = (if bits value 8 16 = 0 then 1 else bits value 8 16) ∧ bits d.sched 0 6 = bits value 0 6 ∧ d.jacc = c.jacc))

/-! ### Events of metering, operating points and frequency regions -/

/-- 14 R301, R303, R305, R308, R311, R312, R316, R320; 18 R402: the close of a tick with its readings: the tick counts, each domain shows its reading, its ratio within bounds and its
next weights, every account is folded (stated where no halted hank is placed at that close, which charges it), no level exceeds its ceiling, and a context is stopped exactly when a level is zero or below; a reading goes to its
slot of the ring; a grant of the source in order is accepted and answered, and lapses to SAFE; the pod's message sets the GTB once; a change of point moves
voltage and frequency one after the other, a limit that has moved meanwhile leads it elsewhere, and one that moves leads a partition away from its point; droops and margin warnings.
The model's own choices in it: log 20, 68 to 74, 77. -/
def Obligations.MeteringAndPoints : Prop :=
  (∀ s em, tickDue s = true → (∀ d ∈ s.vds, d.ending = false) → Completes (.tickClose em) s (fun v => v.tick = s.tick + 1 ∧
    (∀ d, d < 12 → (∃ x ∈ s.doms, x.num = d) → (domOf v d).weights = (domOf s d).nextW ∧
      2 ^ 19 ≤ (bits (domOf v d).c 0 30).toNat ∧ (bits (domOf v d).c 0 30).toNat ≤ 2 ^ 21 ∧
      (∀ m, em[d]? = some (some m) → (domOf v d).meas = BitVec.ofNat 64 m ∧ (domOf v d).c.getLsbD 31 = false) ∧
      (em[d]? = some none → (domOf v d).c = BitVec.ofNat 64 (2 ^ 31 + 2 ^ 20))) ∧
    ((∀ h ∈ s.hanks, h.st ≠ .saved) → ∀ c ∈ v.ctxs, c.num < 1024 ∧ c.est = [] ∧ c.gran = [] ∧ c.foldAt = c.jacc ∧
      (s.cp.cpstat.getLsbD 1 = false → c.bkt.ceil.toNat < 2 ^ 63 → s64 c.bkt.lvl ≤ c.bkt.ceil.toNat)) ∧
    ((∀ a ∈ s.ctxs, ∀ b ∈ s.ctxs, a.vd = b.vd → a.num = b.num → a = b) →
      ∀ c ∈ v.ctxs, (c.stopped = true ↔ s64 c.bkt.lvl ≤ 0 ∨ s64 (vdOf v c.vd).bkt.lvl ≤ 0)))) ∧
  (∀ s n d, s.vds.find? (fun x => x.num == n) = some d → readingDue s d = true →
    (d.reading.final = false → Completes (.readingForm n) s (fun v =>
      let a := hostSpa ((bits d.mtrcfg 12 52).toNat * 4096 + 53248 * (d.reading.seq.toNat % 2 ^ (bits d.mtrcfg 8 4).toNat))
      (∀ k, a + 50112 ≤ k ∨ k < a → mget v.mem.bytes k = mget s.mem.bytes k) ∧ (∀ k b, (readingHead s d)[k]? = some b → mget v.mem.bytes (a + k) = b) ∧
      (∀ k b, (toBytes 4 1 ++ toBytes 4 50112 ++ toBytes 2 d.num ++ zeros 6 ++ toBytes 8 (d.reading.seq + 1).toNat)[k]? = some b →
        mget v.mem.bytes (a + k) = b) ∧
      (vdOf v n).reading.seq = d.reading.seq + 1 ∧ (vdOf v n).reading.prev = d.mtr ∧ (vdOf v n).reading.first = s.tick)) ∧
    (d.reading.final = true → Completes (.readingForm n) s (fun v => vdOf v n = Vd.reset n ∧ ∀ x ∈ v.mem.l2, x.vd ≠ n))) ∧
  (∀ s source flit,
    let f := padTo 128 flit
    let seq := BitVec.ofNat 32 (fieldOf f 4 4)
    (s.fab.source ≠ some source → Completes (.powerGrant source flit) s (fun v => v = s)) ∧
    (s.fab.source = some source → fieldOf f 0 1 = 0x31 → fieldOf f 1 1 = 1 → fieldOf f 2 2 = 0 → fieldOf f 32 96 = 0 → seq ≠ s.fab.lastSeq →
      (seq - s.fab.lastSeq).toNat ≤ 2 ^ 31 → Completes (.powerGrant source flit) s (fun v => v.fab.lastSeq = seq ∧ v.fab.pgrant = s.fab.pgrant ∧
        v.fab.grants = s.fab.grants ++
          [{ amount := BitVec.ofNat 64 (fieldOf f 8 8), start := BitVec.ofNat 64 (fieldOf f 16 8), expire := BitVec.ofNat 64 (fieldOf f 24 8) }] ∧
        ∃ r, v.sent = s.sent ++ [.flit r] ∧ r.length = 128 ∧ fieldOf r 0 1 = 0x32 ∧ fieldOf r 4 4 = seq.toNat))) ∧
  (∀ s, lapseDue s = true → Completes .grantLapse s (fun v => v.fab = { s.fab with pgrant := s.fab.psafe } ∧ v.mem = s.mem ∧ v.cp.bboxIdx = s.cp.bboxIdx + 1)) ∧
  (∀ s g, s.cp.power = true → s.cp.bootCount ≠ 0 → bootCode s = 0 → s.cp.cpstat.getLsbD 0 = true →
    (s.cp.gtbRun = false → Completes (.podTimebaseMessage g) s (fun v => v.gtb = g ∧ v.cp.gtbRun = true ∧ v.cp.boot.getLsbD 0 = true ∧
      v.tick.toNat = g.toNat / Config.tickLen % 2 ^ 64)) ∧
    (s.cp.gtbRun = true → Completes (.podTimebaseMessage g) s (fun v => v = s))) ∧
  (∀ s vd value, regsAnswer s = true → (∃ d ∈ s.vds, d.num = vd) →
    let own := (s.mills.find? (fun m => dedicatedTo s m.pid vd)).map Mill.pid
    let pid := if value.getLsbD 7 then (millOf s (bits value 4 3).toNat).pid else own.getD 8
    let r : OpReq := { id := s.key, pid := pid, vd := vd, point := (bits value 0 4).toNat, strand := none, fromReg := true }
    Completes (.vdOpreq vd value) s (fun v => bits (vdOf v vd).opreq 0 8 = bits value 0 8 ∧
      (changing s pid = false → (∀ q ∈ s.opreqs, q.pid ≠ pid) →
        (opDecide s r ≠ 0 → bits (vdOf v vd).opreq 8 3 = BitVec.ofNat 3 (opDecide s r) ∧ v.changes = s.changes) ∧
        (opDecide s r = 0 → pointOf s pid ≠ r.point → ∃ c ∈ v.changes, c.pid = pid ∧ c.target = r.point ∧ c.first = true ∧
          c.volt = decide (pointOf s pid < r.point))))) ∧
  (∀ s pid volt c, s.changes.find? (fun c => c.pid == pid && c.volt == volt) = some c →
    Completes (if volt then .voltageStepEnd pid else .frequencyStepEnd pid) s (fun v =>
      (∀ m ∈ v.mills, m.num ∈ c.mills → (if volt then m.volt else m.freq) = c.target) ∧
      (c.first = false → ∀ m ∈ v.mills, m.num ∈ c.mills → bits m.oppt 0 4 = BitVec.ofNat 4 c.target) ∧
      (c.first = true → c.gather = true ∨ c.target ≤ effMax s pid ∧ floorOf s pid ≤ c.target →
        ∃ d ∈ v.changes, d.pid = pid ∧ d.mills = c.mills ∧ d.target = c.target ∧ d.volt = !volt ∧ d.first = false) ∧
      (c.first = true → c.gather = false → effMax s pid < c.target ∧ limitPoint s pid ≠ c.target ∨ c.target < floorOf s pid →
        ∃ d ∈ v.changes, d.pid = pid ∧ d.mills = c.mills ∧ d.target = limitPoint s pid ∧ d.first = true))) ∧
  (∀ s mill value, regsAnswer s = true → (∃ m ∈ s.mills, m.num = mill) →
    let pid := (millOf s mill).pid
    (let s1 := updMill s mill (fun m => { m with opcap := value &&& 0xF })
     Completes (.millOpcap mill value) s (fun v => (millOf v mill).opcap = value &&& 0xF ∧ (changing s pid = false → effMax s1 pid < pointOf s pid →
      limitPoint s1 pid ≠ pointOf s pid → ∃ c ∈ v.changes, c.pid = pid ∧ c.target = limitPoint s1 pid))) ∧
    (let s1 := updMill s mill (fun m => { m with opfloor := value &&& 0xF })
     Completes (.millOpfloor mill value) s (fun v => (millOf v mill).opfloor = value &&& 0xF ∧ (changing s pid = false → pointOf s pid ≤ effMax s1 pid →
      pointOf s pid < floorOf s1 pid → ∃ c ∈ v.changes, c.pid = pid ∧ c.target = floorOf s1 pid))) ∧
    (mill < 8 → (∀ h ∈ s.hanks, h.st = .saved ∨ h.frame / 9 ≠ mill) → changing s pid = false → (value.getLsbD 8 = true ∨ oneBit (bits value 16 16) = true) →
      Completes (.millPart mill value) s (fun v => (millOf v mill).part = value &&& 0xFFFF0107)) ∧
    ((∃ h ∈ s.hanks, h.st ≠ .saved ∧ h.frame / 9 = mill) ∨ changing s pid = true → Completes (.millPart mill value) s (fun v => v = s))) ∧
  (∀ s vd value, regsAnswer s = true → (∃ d ∈ s.vds, d.num = vd) → Completes (.vdOpallow vd value) s (fun v => (vdOf v vd).opallow = BitVec.ofNat 64 (min 11 (bits value 0 4).toNat))) ∧
  (∀ s r, Completes (.supplyDroop r) s (fun v => r ∈ v.droops ∧ v = { s with droops := v.droops }) ∧
    Completes (.droopPasses r) s (fun v => r ∉ v.droops ∧ v = { s with droops := v.droops })) ∧
  (∀ s m n, n < 9 → (∃ x ∈ s.mills, x.num = m) → Completes (.marginWarning (.frame m n)) s (fun v => (millOf v m).margin = (millOf s m).margin ||| BitVec.ofNat 64 (2 ^ n))) ∧
  (∀ s m, (∃ x ∈ s.mills, x.num = m) → Completes (.marginWarning (.l2net m)) s (fun v => (millOf v m).margin = (millOf s m).margin ||| 0x200)) ∧
  (∀ s n, n < 36 → Completes (.marginWarning (.port n)) s (fun v => v.fab.margin = s.fab.margin ||| BitVec.ofNat 64 (2 ^ n)))

/-! ### Events of faults, errors, memory, the fabric, the host -/

/-- 15 R330; 16 R355, R356, R358, R363, R365 to R369, R371: an invalidation sweeps as it starts and completes, in order, when nothing translated before is outstanding; VD_RUN; a token
written resumes what its record stopped, another is ignored; a fault queue's waiting record goes in when room is made; what was frozen is thawed, or ended; an array
reset; every error is logged, and does to its unit what R367 says; a spindle that is lost takes its hanks with it and gives its number to a spare.
The model's own choices in it: log 59, 85 to 92, 104, 114, 125. -/
def Obligations.FaultEvents : Prop :=
  (
  (∀ s id i, s.invs.find? (fun i => i.id == id) = some i → invReady s i = true → Completes (.invalidationComplete id) s (fun v =>
    (∀ j ∈ v.invs, j.id ≠ id) ∧ (∀ x ∈ v.spindles, ∀ t ∈ x.tlb, i.sweeps t = false) ∧
    (∀ x ∈ v.skeins, x.vd = i.vd → ∀ f ∈ x.fibres, f.lastPage = none) ∧ v.mem = s.mem ∧ v.strands = s.strands ∧
    (i.reg = true → (vdOf v i.vd).invcmd.getLsbD 1 = false))) ∧
  (∀ s vd value, regsAnswer s = true → (∃ d ∈ s.vds, d.num = vd) → value.getLsbD 0 = true → (vdOf s vd).invcmd.getLsbD 1 = false → Completes (.vdInvcmdGo vd value) s (fun v =>
    (vdOf v vd).invcmd.getLsbD 1 = true ∧ ∃ i, v.invs = s.invs ++ [i] ∧ i.id = s.key ∧ i.vd = vd ∧ i.stage2 = value.getLsbD 5 ∧ i.reg = true ∧
      i.ctx = (if value.getLsbD 5 then none else some (bits value 6 10).toNat) ∧ i.lo = (vdOf s vd).invaddr.toNat ∧
      i.len = (if bits value 3 2 = 0 then some 1 else if bits value 3 2 = 1 then some (vdOf s vd).invlen.toNat else none) ∧
      ∀ x ∈ v.spindles, ∀ t ∈ x.tlb, i.sweeps t = false)) ∧
  (∀ s vd value, regsAnswer s = true → (∃ d ∈ s.vds, d.num = vd) →
    (value.getLsbD 0 = false → Completes (.vdRunGo vd value) s (fun v => vdOf v vd = { vdOf s vd with run := 0 } ∧ v.ctxs = s.ctxs ∧ v.hanks = s.hanks)) ∧
    (value.getLsbD 0 = true → (vdOf s vd).ldFrozen = true ∨ (vdOf s vd).bound = false → Completes (.vdRunGo vd value) s (fun v => v = s)) ∧
    (value.getLsbD 0 = true → (vdOf s vd).ldFrozen = false → (vdOf s vd).bound = true → (vdCtxs s vd ≠ [] ∨ ∀ hdr, recRead s vd 0 64 = some hdr → fieldOf hdr 0 4 ≠ 1) → (vdOf s vd).ownHeld = [] → (∀ p ∈ s.pend, p.dlogHeld = false) →
      Completes (.vdRunGo vd value) s (fun v => (vdOf v vd).stopped = false ∧ (vdOf v vd).run = 1 ∧ (vdOf v vd).exit = 0 ∧
        v.writes = s.writes ∧ (vdOf v vd).withheld = (vdOf s vd).withheld ∧ ((vdOf s vd).empty = false → mayWrite v (vdOf v vd) = true) ∧
        ∀ p ∈ v.pkts, p.vd = vd → p.st ≠ .replay))) ∧
  (∀ s value host vd k t x tk, host = true ∨ regsAnswer s = true → let ev := if host then Instr.cprHfltres value else Instr.vdFltres vd value
    (tk ∈ s.tokens → tk.value = value → tk.host = host → (∀ u ∈ s.tokens, u.value = value → u = tk) → tk.stops = .strand k → strand? s k = some t →
      skein? s t.skein = some x → (host = false → x.vd = vd) → t.st = .parked → t.wait = some (.token value) → Completes ev s (fun v =>
        strand? v k = some { t with st := .ready, wait := none } ∧ (∀ u ∈ v.tokens, u.value ≠ value) ∧ v.mem = s.mem)) ∧
    ((∀ u ∈ s.tokens, u.value ≠ value) → Completes ev s (fun v => v.strands = s.strands ∧ v.pkts = s.pkts ∧ v.queues = s.queues ∧ v.writes = s.writes ∧
      v.tokens = s.tokens))) ∧
  (∀ s q base value, (match q with | .vd n => regsAnswer s = true ∧ ∃ d ∈ s.vds, d.num = n | .host => True) →
    let r := if base then { fltRing s q with cfg := ringWord value } else { fltRing s q with head := value }
    ((∀ w ∈ s.flts, w.queue ≠ q) → Completes (.faultQueueHead q base value) s (fun v => fltRing v q = r ∧ v.mem = s.mem ∧ v.flts = s.flts)) ∧
    (∀ w, s.flts = [w] → w.queue = q → r.full = false → w.bytes.length = 64 → Completes (.faultQueueHead q base value) s (fun v =>
      fltRing v q = { r with tail := r.tail + 1 } ∧ v.flts = [] ∧ BytesPut s v (hostSpa (r.baseAddr + 64 * (r.tail.toNat % r.size))) w.bytes))) ∧
  (∀ s value,
    let id := (bits value 16 16).toNat
    (value.getLsbD 0 = false → Completes (.thawResume value) s (fun v => v = { s with cp := v.cp }) ∧ Completes (.thawEnd value) s (fun v => v = { s with cp := v.cp })) ∧
    (value.getLsbD 0 = true → bits value 4 3 = 1 → ∀ c, ctx? s (id / 1024) (id % 1024) = some c → c.st = 2 →
      Completes (.thawResume value) s (fun v => ctx? v (id / 1024) (id % 1024) = some { c with st := 1 }) ∧
      Completes (.thawEnd value) s (fun v => ∀ d, ctx? v (id / 1024) (id % 1024) = some d → d.ending = true ∧ d.runnable = false)) ∧
    (value.getLsbD 0 = true → bits value 4 3 = 2 → ∀ d, frozenQueue s id = some d → normSpa s (d + 35) = d + 35 →
      Completes (.thawResume value) s (fun v => descFlag v d 0 = false ∧ ∀ a, a ≠ d + 35 → mget v.mem.bytes a = mget s.mem.bytes a)) ∧
    (value.getLsbD 0 = true → bits value 4 3 = 3 → Completes (.thawResume value) s (fun v => frozenOn v id = [] ∧ v.mem = s.mem ∧
      ∀ p ∈ frozenOn s id, ∃ q ∈ v.pkts, q.id = p.id ∧ q.st = if p.accepted then .moving else .waiting)) ∧
    (value.getLsbD 0 = true → bits value 4 3 = 4 → (vdOf s id).ldFrozen = true →
      Completes (.thawResume value) s (fun v => (vdOf v id).ldFrozen = false ∧ v.mem = s.mem) ∧
      Completes (.thawEnd value) s (fun v => (vdOf v id).bound = false ∧ (vdOf v id).ending = true))) ∧
  (∀ s value q, s.queues.find? (fun q => q.skipIb && descQid s q.desc == (bits value 0 16).toNat && !descFlag s q.desc 0) = some q →
    Completes (.cprQkick value) s (fun v => (queueOf v q.desc).skipIb = false ∧ (queueOf v q.desc).seq = q.seq + 1)) ∧
  (∀ s value, (value.getLsbD 15 = false → Completes (.cprAreset value) s (fun v => v = { s with cp := { s.cp with areset := value &&& 0x3FF } })) ∧
    (value.getLsbD 15 = true → (bits value 0 10).toNat < 576 → Completes (.cprAreset value) s (fun v =>
      v.cp.areset = value &&& 0x3FF ∧ ArrayWasReset s v (bits value 0 10).toNat)))
  ) ∧ (
  (∀ s n, arrayLate s n = true → Completes (.arrayWatchdog n) s (fun v => ArrayWasReset s v n)) ∧
  (∀ s e, (∃ m ∈ s.mills, m.num = e.mill) → Completes (.correctedError e) s (fun v => v = { s with mills := v.mills, cp := v.cp } ∧
    (millOf v e.mill).elogidx = (millOf s e.mill).elogidx + 1)) ∧
  (∀ s e, (∃ m ∈ s.mills, m.num = e.mill) →
    let n := e.spindle.getD (72 * e.mill)
    let line := normSpa s e.addr / 128
    let i := (millOf s e.mill).elogidx
    Completes (.uncorrectableError e) s (fun v =>
      (millOf v e.mill).elogidx = i + 1 ∧ (bits (mget (millOf v e.mill).elog (i.toNat % 64)) 64 8).toNat = ErrUnit.code e.unit ∧
      (e.unit = .l2 → v.strands = s.strands ∧ v.skeins = s.skeins ∧ v.mem.bytes = s.mem.bytes ∧
        (∀ x, l2Find s line = some x → x.dirty = true → line ∈ v.mem.poison ∧ mget v.mem.synd line = e.syndrome ∧ v.mem.l2 = s.mem.l2) ∧
        (∀ x, l2Find s line = some x → x.dirty = false → l2Find v line = none ∧ v.mem.poison = s.mem.poison) ∧ (l2Find s line = none → v.mem = s.mem)) ∧
      (e.unit = .devmem → v.strands = s.strands ∧ v.skeins = s.skeins ∧ v.mem.bytes = s.mem.bytes ∧
        ((∃ k, k < 16 ∧ stackState s k = 1) → line ∈ v.mem.poison ∧ mget v.mem.synd line = e.syndrome) ∧ ((∀ k, k < 16 → stackState s k ≠ 1) → v.mem = s.mem)) ∧
      (e.unit = .icache ∨ e.unit = .l1 → v.mem = s.mem ∧ v.lots = s.lots) ∧
      (e.unit = .array → (spindleOf v n).cells = none ∧ ∃ k, k ≤ 20000 ∧ (spindleOf v n).resetUntil = some (s.gtb + BitVec.ofNat 64 k)) ∧
      (e.unit = .weight ∨ e.unit = .pool ∧ e.clean = false → occupants s n ≠ [] → ∃ x ∈ occupants s n, ∀ h, hank? v x.hank = some h → h.failed = true) ∧
      (e.unit = .shadow → shadowed s n ≠ [] → ∃ x ∈ shadowed s n, ∀ h, hank? v x.hank = some h → h.failed = true))) ∧
  (∀ s n, n < 576 → (∃ m ∈ s.mills, m.num = n / 72) → Completes (.spindleLost n) s (fun v =>
    (∀ x ∈ v.spindles, x.num ≠ n) ∧ (∀ x ∈ occupants s n ++ shadowed s n, ∀ h, hank? v x.hank = some h → h.failed = true) ∧
    (sparesLeft (millOf s (n / 72)) ≠ 0 → sparesLeft (millOf v (n / 72)) + 1 = sparesLeft (millOf s (n / 72)) ∧
      (millOf v (n / 72)).offline = (millOf s (n / 72)).offline) ∧
    (sparesLeft (millOf s (n / 72)) = 0 → (millOf v (n / 72)).offline.getLsbD (n % 72) = true))) ∧
  (∀ s m value, regsAnswer s = true → (∃ x ∈ s.mills, x.num = m) → Completes (.millEinj m value) s (fun v =>
    (millOf v m).einj.getLsbD 0 = (value.getLsbD 0 && bits value 27 3 != 7 && (bits value 25 2 == 1 || bits value 25 2 == 2)) ∧
    bits (millOf v m).einj 25 39 = bits value 25 39 ∧ bits (millOf v m).einj 1 24 = 0))
  )

/-- 17 R378 to R381, R383 to R387, R393 to R397; 18 R409: parity commits, a lost stack, re-levelling, compression windows; shares and pinning windows of L2; acknowledgements,
replays and packets of the fabric; invalidations of the group, a switch's failure; capabilities, degraded ports and the time base lost.
The model's own choices in it: log 93 to 99, 125 (owners and units in the error log), 133, 142 (whole stripes). -/
def Obligations.MemoryAndFabric : Prop :=
  (
  (∀ s k, Completes (.parityCommit k) s (fun v => k ∉ v.hbm.parity ∧ (∀ j, j ≠ k → (j ∈ v.hbm.parity ↔ j ∈ s.hbm.parity)) ∧ v.mem = s.mem)) ∧
  (∀ s n, n < 16 → stackState s n = 0 → Completes (.stackLost n) s (fun v => stackState v n = 1 ∧ (∀ k, k < 16 → k ≠ n → stackState v k = stackState s k) ∧ v.mem = s.mem)) ∧
  (∀ s value, regsAnswer s = true → value.getLsbD 0 = true → s.hbm.relevel.getLsbD 61 = false →
    let lost := ((List.range 16).filter (fun n => stackState s n == 1)).length
    let fits := ∀ d ∈ s.vds, bits d.mem 40 20 = 0 ∨ (bits d.mem 30 10).toNat + (bits d.mem 40 20).toNat ≤ 896
    (lost = 1 → s.hbm.layout.getLsbD 0 = false → fits → Completes (.hbmRelevelGo value) s (fun v => v.hbm.relevel = 0x2000000000000000)) ∧
    (¬ (lost = 1 ∧ s.hbm.layout.getLsbD 0 = false ∧ fits) → Completes (.hbmRelevelGo value) s (fun v => v.hbm.relevel.getLsbD 62 = true ∧ v.hbm.relevel.getLsbD 61 = false))) ∧
  (∀ s, s.hbm.relevel.getLsbD 61 = true → Completes .relevelComplete s (fun v => v.hbm.layout = 1 ∧ v.hbm.relevel.getLsbD 61 = false ∧ v.mem = s.mem ∧
    ∀ n, n < 16 → stackState v n = if stackState s n = 1 then 2 else stackState s n)) ∧
  (∀ s w value, regsAnswer s = true → w < 8 → let r := value &&& 0xFFFFFFFFFC
    (winSize (mget s.hbm.cmpwin w) = 0 → winSize r ≠ 0 → Completes (.hbmCmpwin w value) s (fun v => mget v.hbm.cmpnew w = r ∧ v.hbm.cmpwin = s.hbm.cmpwin)) ∧
    (winSize (mget s.hbm.cmpwin w) ≠ 0 ∨ winSize r = 0 → Completes (.hbmCmpwin w value) s (fun v => mget v.hbm.cmpwin w = r ∧ mget v.hbm.cmpnew w = 0))) ∧
  (∀ s w, mget s.hbm.cmpnew w ≠ 0 →
    let base := (bits (mget s.hbm.cmpmeta w) 12 40).toNat * 4096
    let size := 2048 * winSize (mget s.hbm.cmpnew w)
    Completes (.cmpwinZeroComplete w) s (fun v => mget v.hbm.cmpwin w = mget s.hbm.cmpnew w ∧ mget v.hbm.cmpnew w = 0 ∧
      (∀ a, base ≤ a → a < base + size → mget v.mem.bytes a = 0) ∧ ∀ a, a < base ∨ base + size ≤ a → mget v.mem.bytes a = mget s.mem.bytes a)) ∧
  (∀ s vd value, regsAnswer s = true → (∃ d ∈ s.vds, d.num = vd) →
    let ways := min 24 (bits value 0 5).toNat
    let pin := min ways (bits value 8 5).toNat
    let others := ((s.vds.filter (fun u => u.num != vd)).map shareWays).sum
    (others + ways ≤ 24 → Completes (.vdL2share vd value) s (fun v => shareWays (vdOf v vd) = ways ∧ sharePin (vdOf v vd) = pin ∧
      (shareBusy (vdOf v vd) = true ↔ shareBusy (vdOf s vd) = true ∨ ways < shareWays (vdOf s vd) ∨ pin < sharePin (vdOf s vd)))) ∧
    (24 < others + ways → Completes (.vdL2share vd value) s (fun v => v = s))) ∧
  (∀ s vd, (∃ d ∈ s.vds, d.num = vd) → shareBusy (vdOf s vd) = true → Completes (.shrinkComplete vd) s (fun v => shareBusy (vdOf v vd) = false ∧
    shareWays (vdOf v vd) = shareWays (vdOf s vd) ∧ (vdOf v vd).ways.length ≤ shareWays (vdOf s vd) ∧ BytesBut s v [])) ∧
  (∀ s vd w value, regsAnswer s = true → (∃ d ∈ s.vds, d.num = vd) → w < 16 → (bits value 0 7).toNat % 2 ^ (bits value 16 3).toNat = 0 → Completes (.vdPinwin vd w value) s (fun v =>
    mget (vdOf v vd).pinwin w = (value &&& 0x83FFFFFFFFFF007F) ||| 0x4000000000000000 ∧ v.mem = s.mem ∧
    ((∀ o ∈ (vdOf s vd).pinold, o.1 ≠ w) → (w, mget (vdOf s vd).pinwin w) ∈ (vdOf v vd).pinold))) ∧
  (∀ s vd w e, (∃ d ∈ s.vds, d.num = vd) → (vdOf s vd).pinold.find? (fun e => e.1 == w) = some e → Completes (.pinwinComplete vd w) s (fun v =>
    mget (vdOf v vd).pinwin w = mget (vdOf s vd).pinwin w &&& ~~~0x4000000000000000 ∧ (∀ o ∈ (vdOf v vd).pinold, o.1 ≠ w) ∧ BytesBut s v [] ∧
    ∀ x ∈ v.mem.l2, inWindow e.2 x.line = true ∨ inWindow (mget (vdOf s vd).pinwin w) x.line = true → x.dirty = false ∧ x.pins ≠ []))
  ) ∧ (
  (∀ s port tenant q pre g post, (linkOf s port tenant).unacked = pre ++ (q, g) :: post → (∀ e ∈ pre, e.1 ≠ q) →
    Completes (.fabricAck port tenant q) s (fun v => (linkOf v port tenant).unacked = post ∧ v.mem = s.mem ∧ v.sent = s.sent) ∧
    Completes (.fabricNack port tenant q) s (fun v => (linkOf v port tenant).unacked = pre ++ ((q, g) :: post).map (fun e => (e.1, s.gtb)) ∧ v.mem = s.mem ∧
      v.sent = s.sent ++ ((q, g) :: post).map (fun e => Msg.replay port tenant e.1))) ∧
  (∀ s port tenant, replayDue s (linkOf s port tenant) = true → Completes (.fabricReplayTimeout port tenant) s (fun v =>
    (linkOf v port tenant).unacked = (linkOf s port tenant).unacked.map (fun e => (e.1, s.gtb)) ∧ v.mem = s.mem ∧
    v.sent = s.sent ++ (linkOf s port tenant).unacked.map (fun e => Msg.replay port tenant e.1))) ∧
  (∀ s port p, port < 36 → p.tenant.toNat < 17 →
    let t := p.tenant.toNat
    let l := linkOf s port t
    (p.crcOk = false ∨ p.seq ≠ l.next → Completes (.fabricPacketReceive port p) s (fun v => v.mem = s.mem ∧ (linkOf v port t).next = l.next ∧
      (linkOf v port t).gap = true ∧ v.sent = s.sent ++ if l.gap then [] else [.nack port t l.next])) ∧
    (let u := drainPort s port
     p.crcOk = true → p.seq = l.next → ((linkOf u port t).quota + p.flits ≤ quotaOf s port t ∨ poolHeld u port + p.flits ≤ poolOf s port) →
      Completes (.fabricPacketReceive port p) s (fun v => (linkOf v port t).next = l.next + 1 ∧ (linkOf v port t).gap = false ∧
        (p.body = .other → (∀ k ∈ s.fab.late, ¬ (k.port = port ∧ k.tenant = t)) → v.mem = s.mem ∧ v.sent = s.sent ++ [.ack port t p.seq] ∧ v.fab.late = s.fab.late) ∧
        (∀ a bs, p.body = .store a bs → foreignReaches s t a bs.length = true → normSpa s (normSpa s a) = normSpa s a → BytesPut s v (normSpa s a) bs ∧
          let g := gwctBytes s (normSpa s a) bs.length
          (g ≠ 0 → v.sent = s.sent ∧ v.fab.late = s.fab.late ++ [{ port := port, tenant := t, seq := p.seq, after := g, flag := none }])) ∧
        (∀ a op ty x c, p.body = .atom a op ty x c → let n := if ty.wide then 8 else 4
          a % n = 0 → foreignReaches s t a n = true → poisoned s (normSpa s a) n = false → normSpa s (normSpa s a) = normSpa s a →
          BytesPut s v (normSpa s a) (toBytes n (atomNew op ty (readNat s (normSpa s a) n) x.toNat c.toNat)) ∧
          Msg.atomicResult (BitVec.ofNat 64 (readNat s (normSpa s a) n)) ∈ v.sent)))) ∧
  (∀ s line, Completes (.coherenceInvalidate line) s (fun v => l2Find v line = none ∧ (line, false) ∈ v.fab.invs ∧
    ∀ k, k < normSpa s (line * 128) ∨ normSpa s (line * 128) + 128 ≤ k → mget v.mem.bytes k = mget s.mem.bytes k)) ∧
  (∀ s line, Completes (.backInvalidation line) s (fun v => lineBusy v line = true ∧ v.mem = s.mem ∧ v.fab.invs = s.fab.invs ++ [(line, true)])) ∧
  (∀ s ls, Completes (.switchFailure ls) s (fun v => (∀ l ∈ ls, l < 2 ^ 43 → l ∈ v.fab.homeOnly ∧ l2Find v l = none ∧ Msg.invGroup l ∈ v.sent) ∧
    bits v.fab.recov 32 32 = bits s.fab.recov 32 32 + 1 ∧ ((∃ l ∈ ls, l < 2 ^ 43) → v.fab.recov.getLsbD 0 = true) ∧ Msg.hostIrq 16 ∈ v.sent ∧ BytesBut s v [])) ∧
  (∀ s value, regsAnswer s = true → (value.getLsbD 0 = true → Completes (.homeonlyClear value) s (fun v => v.fab.homeOnly = [] ∧ v.fab.recov.getLsbD 0 = false ∧ v.mem = s.mem)) ∧
    (value.getLsbD 0 = false → Completes (.homeonlyClear value) s (fun v => v = s))) ∧
  (∀ s pkg, (∀ b, Completes (.capabilityAdvertise pkg (some b)) s (fun v => mget v.fab.peercap pkg.toNat = 0x100#64 ||| b.setWidth 64 ∧ v.mem = s.mem)) ∧
    Completes (.capabilityAdvertise pkg none) s (fun v => v = { s with sent := s.sent ++ [.myCap] })) ∧
  (∀ s port lanes, Completes (.portDegrade port lanes) s (fun v => v = { s with fab := { s.fab with port := v.fab.port } } ∧
    (∀ p ∈ v.fab.port, p.1 = port → bits p.2 4 4 = lanes) ∧ ∀ p, p.1 ≠ port → (p ∈ v.fab.port ↔ p ∈ s.fab.port))) ∧
  (∀ s, Completes .tsyncLost s (fun v => v.fab.tsync.getLsbD 0 = true ∧ v.sent = s.sent ++ [.hostIrq 16] ∧ v.mem = s.mem))
  )

/-- 00 R6; 16 R365; 17 R373, R374, R388 to R392; 18 R406 to R408: resets and bring-up by the image's outcome, what they keep; the watchdog; binding and the end of a VD; a host's accesses to memory through its
logical device; what a write leaves in each register that software writes, once the device answers it, and what a read of some returns.
The model's own choices in it: log 9, 10, 72, 80 to 84, 100 to 103. -/
def Obligations.BringUpAndHost : Prop :=
  (
  (∀ s boot, let code := imageCode s.cp.fuses boot.flash
    Completes (.powerOnReset boot) s (fun v => v.strands = [] ∧ v.skeins = [] ∧ v.ctxs = [] ∧ v.gtb = 0 ∧ v.cp.gtbRun = false ∧ v.cp.fuses = s.cp.fuses ∧ v.cp.bootCount = 1 ∧
      (∀ a, mget v.mem.bytes a = if 2 ^ 50 ≤ a then mget s.mem.bytes a else 0) ∧ v.cp.boot.getLsbD 0 = false ∧
      (code ≠ 0 → v.cp.cpstat = 0 ∧ bits v.cp.boot 8 8 = BitVec.ofNat 8 code) ∧
      (code = 0 → boot.failed = [] → v.cp.cpstat = 1 ∧ bits v.cp.boot 8 8 = 0))) ∧
  (∀ s boot, s.cp.power = true → (∀ e ∈ s.mem.bytes, e.2 ≠ 0) →
    let code := imageCode s.cp.fuses (if s.cp.boot.getLsbD 16 then boot.host else boot.flash)
    Completes (.deviceReset boot) s (fun v => v.strands = [] ∧ v.skeins = [] ∧ v.ctxs = [] ∧ v.gtb = 0 ∧ v.cp.gtbRun = false ∧ v.cp.fuses = s.cp.fuses ∧
      v.cp.bootCount = s.cp.bootCount + 1 ∧ v.hbm.parity = s.hbm.parity ∧ (∀ a, 2 ^ 50 ≤ a → mget v.mem.bytes a = mget s.mem.bytes a) ∧
      (code ≠ 0 → v.cp.cpstat = 0 ∧ bits v.cp.boot 8 8 = BitVec.ofNat 8 code) ∧
      (code = 0 → boot.failed = [] → v.cp.cpstat = 1 ∧ bits v.cp.boot 8 8 = 0))) ∧
  (∀ s boot, s.cp.power = true →
    let img := if s.cp.boot.getLsbD 16 then boot.host else boot.flash
    let code := imageCode s.cp.fuses img
    Completes (.cpReset boot) s (fun v => v = { s with cp := v.cp } ∧ v.cp.boot.getLsbD 0 = s.cp.boot.getLsbD 0 ∧ bits v.cp.boot 8 8 = BitVec.ofNat 8 code ∧
      (code ≠ 0 → v.cp.cpstat = 0) ∧ (code = 0 → v.cp.cpstat = 1 ∧ ∃ f, img = some f ∧ v.cp.entry = f.entry ∧ ∀ k b, f.body[k]? = some b → mget v.cp.tcm k = b))) ∧
  (∀ s, Completes .powerLoss s (fun v => v.cp.power = false ∧ v.cp.fuses = s.cp.fuses ∧ v.strands = [] ∧ v.skeins = [] ∧ v.cp.bboxIdx = 0 ∧
    ∀ a, mget v.mem.bytes a = if 2 ^ 50 ≤ a then mget s.mem.bytes a else 0)) ∧
  (∀ s, (s.cp.cpstat.getLsbD 0 = true → Completes .cpWatchdog s (fun v => v.cp.cpstat.getLsbD 1 = true ∧ v = { s with cp := v.cp })) ∧
    (s.cp.cpstat.getLsbD 0 = false → Completes .cpWatchdog s (fun v => v = s))) ∧
  (∀ s ld, s.cp.boot.getLsbD 0 = true → ld < 16 → (∃ d ∈ s.vds, d.num = ld) → (vdOf s ld).bound = false → (vdOf s ld).ending = false →
    Completes (.ldBind ld) s (fun v => (vdOf v ld).bound = true ∧ (vdOf v ld).reading.first = s.tick)) ∧
  (∀ s ld, (vdOf s ld).bound = true → Completes (.ldUnbind ld) s (fun v => (vdOf v ld).bound = false ∧ (vdOf v ld).ending = true)) ∧
  (∀ s op addr wide val cmp,
    let n := if wide then 8 else 4
    let old := readNat s addr n
    let new := match op with | .fetchAdd => old + val.toNat | .swap => val.toNat | .cas => if old = cmp.toNat % 2 ^ (8 * n) then val.toNat else old
    (addr % n = 0 → HostReaches s addr n → Completes (.hostAtomic op addr wide val cmp) s (fun v => v.sent = s.sent ++ [.atomicResult (BitVec.ofNat 64 old)] ∧
      BytesPut s v (normSpa s addr) (toBytes n new))) ∧
    (addr % n ≠ 0 → Completes (.hostAtomic op addr wide val cmp) s (fun v => v = { s with sent := s.sent ++ [.unsupported] })) ∧
    (addr % n = 0 → 2 ^ 52 < addr + n → exec (.hostAtomic op addr wide val cmp) s = .fault (.noSuchAddress addr))) ∧
  (∀ s addr, let n := 128 - addr % 128
    (HostReaches s addr n → poisoned s addr n = false → Completes (.hostMemoryAccess addr none) s (fun v => v = { s with sent := s.sent ++ [.readData (readSpa s addr n)] })) ∧
    (2 ^ 52 < addr + n → exec (.hostMemoryAccess addr none) s = .fault (.noSuchAddress addr)) ∧
    (addr + n ≤ 2 ^ 52 → normSpa s addr < 2 ^ 50 → hostVd s (normSpa s addr) = none →
      Completes (.hostMemoryAccess addr none) s (fun v => v = { s with sent := s.sent ++ [.unsupported] })) ∧
    ∀ bs, bs ≠ [] → HostReaches s addr bs.length → Completes (.hostMemoryAccess addr (some bs)) s (fun v => BytesPut s v (normSpa s addr) bs ∧ v.sent = s.sent))
  ) ∧ (
  (∀ s reg value fm, regReached s reg fm = false → Completes (.registerWrite reg value fm) s (fun v => v = s)) ∧
  (∀ s reg fm, regReached s reg fm = true ↔ s.cp.power = true ∧
    ((∃ n, reg = .cprQslot n) ∨ reg = .cprBoot ∨ reg = .cprFwaddr ∨ s.cp.boot.getLsbD 0 = true ∨ bits s.cp.boot 8 8 = 0) ∧
    (fm = true ∨ ∀ n, RegName.vd? reg = some n → (vdOf s n).bound = true)) ∧
  (∀ s n m value d, regsAnswer s = false → ∀ i ∈ [Instr.vdOpreq n value, .millOpcap m value, .millOpfloor m value, .vdOpallow n value, .millPart m value,
      .homeonlyClear value, .vdInvcmdGo n value, .vdRunGo n value, .vdFltres n value, .millEinj m value, .hbmRelevelGo value, .hbmCmpwin m value,
      .vdL2share n value, .vdPinwin n m value, .bktAdj n none d, .bktAdj n (some m) d, .ctxSchedWeight n m value], Completes i s (fun v => v = s)) ∧
  (∀ p ∈ ([(RegName.vdSave, fun x v => { v with save := x }), (.vdInvaddr, fun x v => { v with invaddr := x }), (.vdInvlen, fun x v => { v with invlen := x }),
      (.vdDlogHead, fun x v => { v with dlog := { v.dlog with head := x } }), (.vdErrqHead, fun x v => { v with errq := { v.errq with head := x } }),
      (.vdErrq, fun x v => { v with errq := { v.errq with cfg := (x &&& ~~~0xFFF) ||| BitVec.ofNat 64 (256 * (if (bits x 8 4).toNat < 4 ∨ 12 < (bits x 8 4).toNat then 4 else (bits x 8 4).toNat)) } }),
      (.vdDlog, fun x v => { v with dlog := { v.dlog with cfg := (x &&& 0xFFFFFFFFFFFFF001) ||| BitVec.ofNat 64 (256 * max 8 (bits x 8 4).toNat) } }),
      (.vdBtesel, fun x v => { v with btesel := x &&& 7 })] : List ((Nat → RegName) × (BitVec 64 → Vd → Vd))),
    ∀ s n value fm, regReached s (p.1 n) fm = true → Completes (.registerWrite (p.1 n) value fm) s (fun v => v = updVd s n (p.2 value))) ∧
  (∀ p ∈ ([(RegName.vdMem, fun x v => { v with mem := x &&& 0x0FFFFFFFC0000000 }), (.bktVdRefill, fun x v => { v with bkt := { v.bkt with refill := x } }),
      (.bktVdCeil, fun x v => { v with bkt := { v.bkt with ceil := x } }), (.vdMtrcfg, fun x v => { v with mtrcfg := x &&& ~~~0xFF }),
      (.vdMtrivl, fun x v => { v with mtrivl := BitVec.ofNat 64 (max 100 (bits x 0 14).toNat) }), (.vdMtrack, fun x v => { v with mtrack := x })]
      : List ((Nat → RegName) × (BitVec 64 → Vd → Vd))),
    ∀ s n value, regsAnswer s = true → Completes (.registerWrite (p.1 n) value true) s (fun v => v = updVd s n (p.2 value)) ∧
      Completes (.registerWrite (p.1 n) value false) s (fun v => v = s)) ∧
  (∀ s n value, regsAnswer s = true → (∃ d ∈ s.vds, d.num = n) → Completes (.registerWrite (.vdS2base n) value true) s (fun v =>
    (vdOf v n).s2base = value &&& 0x000FFFFFFFFFF000 ∧ ∃ i, v.invs = s.invs ++ [i] ∧ i.vd = n ∧ i.stage2 = true ∧ i.len = none)) ∧
  (∀ s n value fm, regReached s (.vdBte n) fm = true → (∃ d ∈ s.vds, d.num = n ∧ ∃ b ∈ d.bte, b.mill = (bits d.btesel 0 3).toNat) → (∀ a ∈ s.vds, ∀ b ∈ s.vds, a.num = b.num → a = b) →
    let m := (bits (vdOf s n).btesel 0 3).toNat
    Completes (.registerWrite (.vdBte n) value fm) s (fun v => (bteOf v n m).rate = (bits value 32 32).toNat ∧
      (bteOf v n m).lvl = min ((bits value 32 32).toNat : Int) (bteOf s n m).lvl)) ∧
  (∀ p ∈ ([(RegName.millJceil, fun x m => { m with jceil := x }), (.millSched, fun x m => { m with sched := x }),
      (.millArraywd, fun x m => { m with arraywd := x &&& 0xFFFFFFFF }), (.millSpare, fun x m => { m with spare := (m.spare &&& 7) ||| (x &&& 0xFF00) }),
      (.millMargin, fun x m => { m with margin := m.margin &&& ~~~(x &&& 0x3FF) }), (.millMarginth, fun x m => { m with marginth := x &&& 0xFF })]
      : List ((Nat → RegName) × (BitVec 64 → Mill → Mill))),
    ∀ s n value, regsAnswer s = true → Completes (.registerWrite (p.1 n) value true) s (fun v => v = updMill s n (p.2 value)) ∧
      Completes (.registerWrite (p.1 n) value false) s (fun v => v = s)) ∧
  (∀ p ∈ ([(RegName.fabPsafe, fun x f => { f with psafe := x }), (.fabPeersel, fun x f => { f with peersel := x &&& 0x3FF }),
      (.fabPkgid, fun x f => { f with pkgid := x &&& 0x3FF }), (.fabGrpsel, fun x f => { f with grpsel := x &&& 0xF }),
      (.fabMargin, fun x f => { f with margin := f.margin &&& ~~~(x &&& 0xFFFFFFFFF) }), (.fabTsync, fun x f => { f with tsync := f.tsync &&& ~~~(x &&& 1) }),
      (.grantSource, fun x f => { f with source := some (bits x 0 10) })] : List (RegName × (BitVec 64 → Fab → Fab))),
    ∀ s value, regsAnswer s = true → Completes (.registerWrite p.1 value true) s (fun v => v = { s with fab := p.2 value s.fab }) ∧
      Completes (.registerWrite p.1 value false) s (fun v => v = s)) ∧
  (∀ s d row cls value, regsAnswer s = true → row < 12 → cls < 40 → (d < 8 ∨ row = 0) → (∃ x ∈ s.doms, x.num = d) →
    Completes (.registerWrite (.weight d row cls) value true) s (fun v => mget (domOf v d).nextW (40 * row + cls) = bits value 0 32 ∧ (domOf v d).weights = (domOf s d).weights)) ∧
  (∀ s n value, s.cp.power = true → n < 256 → (mget s.cp.qslot n).getLsbD 0 = false →
    Completes (.registerWrite (.cprQslot n) value true) s (fun v => mget v.cp.qslot n = value &&& ~~~0x3E ∧
      (value.getLsbD 0 = true → descFlag v ((bits value 6 58).toNat * 64) 1 = true) ∧ (value.getLsbD 0 = false → v.mem = s.mem))) ∧
  (∀ s vd n c sel value fm, regReached s (.ctxSel vd n sel) fm = true → ctx? s vd n = some c → sel.toNat ∈ [0x100, 0x101, 0x102, 0x103, 0x200, 0x201, 0x011, 0x00D, 0x001] →
    Completes (.registerWrite (.ctxSel vd n sel) value fm) s (fun v => ctx? v vd n = some (c.setReg sel.toNat value))) ∧
  (∀ s value fm, Completes (.registerWrite .readOnly value fm) s (fun v => v = s)) ∧
  (∀ s n value fm, regReached s (.vdSave n) fm = true → (∃ d ∈ s.vds, d.num = n) → Completes (.registerWrite (.vdSave n) value fm) s (fun v => bar0Read v n 0x10 = value)) ∧
  (∀ s value, regsAnswer s = true → Completes (.registerWrite .fabPkgid value true) s (fun v => bar2Read v .fabPkgid = value &&& 0x3FF)) ∧
  (∀ s, bar2Read s .cprQkick = 0 ∧ bar2Read s .cprReset = 0)
  )
/-- R116, R118, R120, R138, R139 and the worked encodings of the instruction chapters: the decoder reads the words that the
spec spells out as the instructions it says they are. From the example of 05_encoding, the bytes of LD.z32.fa v8, [v2 + 64]
as they lie in a fetch block, and IADD v4, v5~, v6; ICMP.lt p1, v4, v9; a guarded BRC; BRA to two blocks before; the word of
ACS2.swb, of ATOM.cas.z32.dev.fa, of TMMA.f16, of WLATCH.bfp4.new.cmp.fa and SSTEP.bfp4.zero.fa, of QPUT, of FENCE.dev, of FENCEX
bt, ls, of SHFL.idx and of VOTE.ballot; the canonical NOP. NOP with a modifier bit set is RESERVED-FN, with a D field
RESERVED-BIT; opcode 0x40 with LEN 11 is ILLEGAL-OPCODE; and a header where an instruction should stand is BAD-CLAUSE. -/
def Obligations.DecodeWords : Prop :=
  let p : Privilege := { priv := false, handler := false }
  let k : Ctl := { guard := 0x0F, setf := 0 }
  let kA : Ctl := { guard := 0x0F, setf := 1 }
  decode p [0xC2, 0xBE, 0x10, 0x04, 0x00, 0x00, 0x40, 0x00, 0x40, 0x00, 0x00, 0x00, 0x00, 0x00, 0x00, 0x00] =
      .ok (.ldImm32 { c := kA, d := 8, a := { reg := 2, last := false }, fmt := .z32, ep := .normal, noal := false, imm := 64 }) ∧
  decode p [0x01, 0x3D, 0x08, 0x0A, 0x0C, 0x02, 0x00, 0x00] =
      .ok (.iadd { c := k, d := 4, a := { reg := 5, last := true }, b := { reg := 6, last := false }, ty := .s32, sat := false }) ∧
  decodeTableWord 64 0x0000_0000_0000_3C01 = some (.nop { c := k }) ∧
  decodeTableWord 64 0x0200_0012_0802_3DC1 =
    some (.icmp { c := k, d := 1, a := { reg := 4, last := false }, b := { reg := 9, last := false }, ty := .s32, cond := .lt, comb := .set }) ∧
  decodeTableWord 96 0x0000_0000_0000_0000_0000_040A = some (.brc { c := { guard := 1, setf := 0 }, imm := 0 }) ∧
  decodeTableWord 96 0xFFFF_FFFE_0000_0000_0000_3C06 = some (.bra { c := k, imm := BitVec.ofInt 32 (-2) }) ∧
  decodeTableWord 64 0x1540_3004_020E_3EA5 =
    some (.acs2 { c := k, d := 7, a := { reg := 1, last := false }, b := { reg := 2, last := false }, x := { reg := 3, last := false },
                  pd0 := 4, pd1 := 5, swb := true, max := false }) ∧
  decodeTableWord 64 0x0970_5008_0414_BEE1 =
    some (.atom { c := kA, d := 10, a := { reg := 2, last := false }, b := { reg := 4, last := false }, x := { reg := 5, last := false },
                  op := .cas, ty := .z32, sc := .device, ord := .relaxed }) ∧
  decodeTableWord 128 0x0000_0000_0000_0642_0000_0006_0402_3F53 =
    some (.tmma { c := k, d := 1, a := 2, b := 3, bf := false, zc := false, depth := 6, cols := 4, rows := 2 }) ∧
  decodeTableWord 96 0x0000_8000_01A0_0001_8402_BF86 =
    some (.wlatch { c := kA, d := 1, a := { reg := 194, last := false }, bw := 2, cmp := true, new := true, kb := 0, n0 := 0, nc := 1 }) ∧
  decodeTableWord 128 0x0000_0000_2812_0000_0000_0189_8600_BF8F =
    some (.sstep { c := kA, a := { reg := 195, last := false }, b := { reg := 196, last := false }, rows := 0, kb := 0, klast := 2, nc := 1,
                   zero := true, abw := 2, orow := 0 }) ∧
  decodeTableWord 64 0x0000_0191_A1A8_3FA1 =
    some (.qput { c := k, d := 212, a := { reg := 208, last := false }, b := { reg := 200, last := false } }) ∧
  decodeTableWord 64 0x0020_0000_0000_3FB5 = some (.fence { c := k, sc := .device }) ∧
  decodeTableWord 64 0x0220_0000_0000_3FB9 = some (.fencex { c := k, src := 2, dst := 1 }) ∧
  decodeTableWord 64 0x03C0_001A_0204_3C65 =
    some (.shfl { c := k, d := 2, a := { reg := 1, last := false }, b := { reg := 13, last := false }, mode := .idx, pv := 15 }) ∧
  decodeTableWord 64 0x0130_0000_0014_3C61 =
    some (.vote { c := k, mode := .ballot, d := 10, a := { reg := 0, last := false }, ps := 4, pn := false }) ∧
  decode p [0x01, 0x3C, 0x00, 0x00, 0x00, 0x00, 0x10, 0x00] = .error .reservedFn ∧
  decode p [0x01, 0x3C, 0x02, 0x00, 0x00, 0x00, 0x00, 0x00] = .error .reservedBit ∧
  decode p [0x03, 0x3D, 0x00, 0x00, 0x00, 0x00, 0x00, 0x00] = .error .illegalOpcode ∧
  decode p [0x80, 0x00, 0xF4, 0x01, 0x00, 0x00, 0x00, 0x00] = .error .badClause

/-- R116 to R121, R132, R134 to R138: the encoding is one to one. An instruction is a word exactly when it is one of the
grid's rows (an event is none). The bytes of every well-formed instruction, with whatever stands after them, decode to
that instruction with every operand at every value it may have, for a strand with the privilege the instruction needs.
And whatever decodes to an instruction is well formed, is one the strand may issue, and is the encoding of that instruction, byte for byte. -/
def Obligations.DecodeEncode : Prop :=
  (∀ i : Instr, (encode i).isSome = (isaShape i).isSome) ∧
  (∀ (i : Instr) (p : Privilege) (bs rest : List Byte), i.wf = true → needPriv p i = false → encodeBytes i = some bs →
    decode p (bs ++ rest) = .ok i) ∧
  (∀ (i : Instr) (p : Privilege) (bs : List Byte), 16 ≤ bs.length → decode p bs = .ok i →
    i.wf = true ∧ needPriv p i = false ∧ ∃ w, encodeBytes i = some w ∧ bs.take w.length = w)
end

