-- ==== Sys2Proof/Laws/Maps.lean ====
section
/-! SUPPORT. Laws of sparse stores: reads after writes, and that every operation keeps the canonical form; of lists found by key; of byte lists. -/
namespace Sys2Proof.Machine

/-! ### Reads after writes -/

theorem mget_of_lt {w : Nat} (m : SMap w) : ∀ (lo k : Nat), mrising lo m = true → k < lo → mget m k = 0 := by
  induction m with
  | nil => intros; rfl
  | cons e t ih =>
    obtain ⟨a, v⟩ := e
    intro lo k h hk
    simp only [mrising, Bool.and_eq_true, decide_eq_true_eq] at h
    have hne : k ≠ a := by omega
    simp only [mget, hne, if_false]
    exact ih (a + 1) k h.2 (by omega)

theorem mget_mdel {w : Nat} (m : SMap w) (k j : Nat) : mget (mdel m k) j = if j = k then 0 else mget m j := by
  induction m with
  | nil => simp [mdel, mget]
  | cons e t ih =>
    obtain ⟨a, v⟩ := e
    by_cases hk : k = a
    · subst hk
      simp only [mdel, if_true, ih, mget]
      split <;> simp_all
    · simp only [mdel, hk, if_false, mget, ih]
      by_cases hj : j = a
      · subst hj; simp [Ne.symm hk]
      · simp [hj]

theorem mget_mins {w : Nat} (m : SMap w) (k j : Nat) (x : BitVec w) : mget (mins m k x) j = if j = k then x else mget m j := by
  induction m with
  | nil => simp [mins, mget]
  | cons e t ih =>
    obtain ⟨a, v⟩ := e
    simp only [mins]
    split
    · by_cases hj : j = k <;> simp [mget, hj]
    · split
      · rename_i h1 h2
        subst h2
        by_cases hj : j = k <;> simp [mget, hj]
      · rename_i h1 h2
        simp only [mget, ih]
        by_cases hj : j = a
        · subst hj; simp [Ne.symm h2]
        · simp [hj]

/-- A read after a write. -/
theorem mget_mset {w : Nat} (m : SMap w) (k j : Nat) (x : BitVec w) : mget (mset m k x) j = if j = k then x else mget m j := by
  unfold mset
  split
  · rename_i h0; subst h0; exact mget_mdel m k j
  · exact mget_mins m k j x

/-! ### The canonical form is kept -/

theorem mrising_mono {w : Nat} (m : SMap w) (lo lo' : Nat) (h : mrising lo m = true) (hl : lo' ≤ lo) : mrising lo' m = true := by
  cases m with
  | nil => rfl
  | cons e t =>
    obtain ⟨a, v⟩ := e
    simp only [mrising, Bool.and_eq_true, decide_eq_true_eq] at h ⊢
    exact ⟨⟨by omega, h.1.2⟩, h.2⟩

theorem mrising_mdel {w : Nat} (m : SMap w) (k : Nat) : ∀ lo, mrising lo m = true → mrising lo (mdel m k) = true := by
  induction m with
  | nil => intros; rfl
  | cons e t ih =>
    obtain ⟨a, v⟩ := e
    intro lo h
    have h' := h
    simp only [mrising, Bool.and_eq_true, decide_eq_true_eq] at h'
    simp only [mdel]
    split
    · exact mrising_mono _ (a + 1) lo (ih (a + 1) h'.2) (by omega)
    · simp only [mrising, Bool.and_eq_true, decide_eq_true_eq]
      exact ⟨h'.1, ih (a + 1) h'.2⟩

theorem mrising_mins {w : Nat} (m : SMap w) (k : Nat) (x : BitVec w) (hx : x ≠ 0) :
    ∀ lo, mrising lo m = true → lo ≤ k → mrising lo (mins m k x) = true := by
  induction m with
  | nil =>
    intro lo _ hk
    simp only [mins, mrising, Bool.and_eq_true, decide_eq_true_eq, and_true]
    exact ⟨by omega, by simpa using hx⟩
  | cons e t ih =>
    obtain ⟨a, v⟩ := e
    intro lo h hk
    have h' := h
    simp only [mrising, Bool.and_eq_true, decide_eq_true_eq] at h'
    simp only [mins]
    split
    · simp only [mrising, Bool.and_eq_true, decide_eq_true_eq]
      exact ⟨⟨by omega, by simpa using hx⟩, ⟨by omega, h'.1.2⟩, h'.2⟩
    · split
      · simp only [mrising, Bool.and_eq_true, decide_eq_true_eq]
        exact ⟨⟨h'.1.1, by simpa using hx⟩, h'.2⟩
      · simp only [mrising, Bool.and_eq_true, decide_eq_true_eq]
        exact ⟨h'.1, ih (a + 1) h'.2 (by omega)⟩

theorem mwf_mset {w : Nat} (m : SMap w) (k : Nat) (x : BitVec w) (h : mwf m = true) : mwf (mset m k x) = true := by
  unfold mset mwf
  split
  · exact mrising_mdel m k 0 h
  · rename_i hx; exact mrising_mins m k x hx 0 h (by omega)

theorem mwf_msetAll {w : Nat} (xs : List (BitVec w)) : ∀ (m : SMap w) (k : Nat), mwf m = true → mwf (msetAll m k xs) = true := by
  induction xs with
  | nil => intro m k h; exact h
  | cons x xs ih => intro m k h; exact ih _ _ (mwf_mset m k x h)

theorem mrising_filter {w : Nat} (p : Nat × BitVec w → Bool) (m : SMap w) : ∀ lo, mrising lo m = true → mrising lo (m.filter p) = true := by
  induction m with
  | nil => intros; rfl
  | cons e t ih =>
    obtain ⟨a, v⟩ := e
    intro lo h
    simp only [mrising, Bool.and_eq_true, decide_eq_true_eq] at h
    rw [List.filter_cons]
    split
    · simp only [mrising, Bool.and_eq_true, decide_eq_true_eq]
      exact ⟨h.1, ih (a + 1) h.2⟩
    · exact mrising_mono _ (a + 1) lo (ih (a + 1) h.2) (by omega)

theorem mwf_mclear {w : Nat} (m : SMap w) (lo hi : Nat) (h : mwf m = true) : mwf (mclear m lo hi) = true :=
  mrising_filter _ m 0 h

/-- A read after a write of several values. -/
theorem mget_msetAll {w : Nat} (xs : List (BitVec w)) : ∀ (m : SMap w) (k j : Nat),
    mget (msetAll m k xs) j = if k ≤ j ∧ j < k + xs.length then xs.getD (j - k) 0 else mget m j := by
  induction xs with
  | nil => intro m k j; simp [msetAll] <;> omega
  | cons x xs ih =>
    intro m k j
    rw [msetAll, ih, mget_mset]
    by_cases h1 : j = k
    · subst h1; simp <;> omega
    · by_cases h2 : k ≤ j ∧ j < k + (x :: xs).length
      · have h3 : k + 1 ≤ j ∧ j < k + 1 + xs.length := by simp at h2; omega
        obtain ⟨d, hd⟩ : ∃ d, j - k = d + 1 := ⟨j - k - 1, by omega⟩
        have hd' : j - (k + 1) = d := by omega
        rw [if_pos h3, if_pos h2, hd, hd']; simp
      · have h3 : ¬(k + 1 ≤ j ∧ j < k + 1 + xs.length) := by simp at h2; omega
        rw [if_neg h3, if_neg h2, if_neg h1]

/-- A read after a range is zeroed. -/
theorem mget_mclear {w : Nat} (m : SMap w) (lo hi j : Nat) : mget (mclear m lo hi) j = if lo ≤ j ∧ j < hi then 0 else mget m j := by
  induction m with
  | nil => simp [mclear, mget]
  | cons e t ih =>
    obtain ⟨a, v⟩ := e
    simp only [mclear, List.filter_cons] at ih ⊢
    by_cases ha : a < lo ∨ hi ≤ a
    · have : (decide (a < lo) || decide (hi ≤ a)) = true := by simpa using ha
      simp only [this, if_true, mget, ih]
      by_cases hj : j = a
      · subst hj; simp; omega
      · simp [hj]
    · have : (decide (a < lo) || decide (hi ≤ a)) = false := by simpa using ha
      simp only [this, Bool.false_eq_true, if_false, mget, ih]
      by_cases hj : j = a
      · subst hj; have : lo ≤ j ∧ j < hi := by omega
        simp [this]
      · simp [hj]

theorem length_mgetAll {w : Nat} (m : SMap w) (n : Nat) : ∀ k, (mgetAll m k n).length = n := by
  induction n with
  | zero => intro k; rfl
  | succ n ih => intro k; simp [mgetAll, ih]

/-! ### Lists found by key -/

theorem upTo_length (n : Nat) : ∀ lo, (upTo lo n).length = n := by
  induction n with
  | zero => intro lo; rfl
  | succ n ih => intro lo; simp [upTo, ih]

theorem mem_upTo (n : Nat) : ∀ lo i, i ∈ upTo lo n ↔ lo ≤ i ∧ i < lo + n := by
  induction n with
  | zero => intro lo i; simp [upTo]
  | succ n ih => intro lo i; simp [upTo, ih]; omega

/-- Finding by a property that an update does not touch. -/
theorem find?_updIf {α : Type} (p q : α → Bool) (f : α → α) (hq : ∀ a, q (f a) = q a) (l : List α) :
    (updIf p f l).find? q = (l.find? q).map (fun a => if p a then f a else a) := by
  induction l with
  | nil => rfl
  | cons a t ih =>
    simp only [updIf, List.map_cons, List.find?_cons] at ih ⊢
    by_cases hp : p a <;> by_cases h : q a <;> simp_all

theorem length_toBytes (n : Nat) : ∀ v, (toBytes n v).length = n := by
  induction n with
  | zero => intro v; rfl
  | succ n ih => intro v; simp [toBytes, ih]

theorem ofBytes_toBytes (n : Nat) : ∀ v, ofBytes (toBytes n v) = v % 256 ^ n := by
  induction n with
  | zero => intro v; simp [toBytes, ofBytes, Nat.mod_one]
  | succ n ih =>
    intro v
    rw [toBytes, ofBytes, ih, Nat.pow_succ, Nat.mul_comm (256 ^ n) 256, Nat.mod_mul]
    simp

end Sys2Proof.Machine
end

