-- ==== Sys2Proof/Laws/State.lean ====
section
/-! SUPPORT. Laws of the state's updates: what each leaves of every field, and finding the parts of a state after one. -/
namespace Sys2Proof.Machine

@[simp] theorem updStrand_steps (s : State) (k : Nat) (f : Strand → Strand) : (updStrand s k f).steps = s.steps := rfl
@[simp] theorem updStrand_inputs (s : State) (k : Nat) (f : Strand → Strand) : (updStrand s k f).inputs = s.inputs := rfl
@[simp] theorem updStrand_cur (s : State) (k : Nat) (f : Strand → Strand) : (updStrand s k f).cur = s.cur := rfl
@[simp] theorem updStrand_word (s : State) (k : Nat) (f : Strand → Strand) : (updStrand s k f).word = s.word := rfl
@[simp] theorem updStrand_undo (s : State) (k : Nat) (f : Strand → Strand) : (updStrand s k f).undo = s.undo := rfl
@[simp] theorem updStrand_key (s : State) (k : Nat) (f : Strand → Strand) : (updStrand s k f).key = s.key := rfl
@[simp] theorem updStrand_gtb (s : State) (k : Nat) (f : Strand → Strand) : (updStrand s k f).gtb = s.gtb := rfl
@[simp] theorem updStrand_tick (s : State) (k : Nat) (f : Strand → Strand) : (updStrand s k f).tick = s.tick := rfl
@[simp] theorem updStrand_mem (s : State) (k : Nat) (f : Strand → Strand) : (updStrand s k f).mem = s.mem := rfl
@[simp] theorem updStrand_spindles (s : State) (k : Nat) (f : Strand → Strand) : (updStrand s k f).spindles = s.spindles := rfl
@[simp] theorem updStrand_strands (s : State) (k : Nat) (f : Strand → Strand) : (updStrand s k f).strands = updIf (fun u => u.id == k) f s.strands := rfl
@[simp] theorem updStrand_skeins (s : State) (k : Nat) (f : Strand → Strand) : (updStrand s k f).skeins = s.skeins := rfl
@[simp] theorem updStrand_hanks (s : State) (k : Nat) (f : Strand → Strand) : (updStrand s k f).hanks = s.hanks := rfl
@[simp] theorem updStrand_pend (s : State) (k : Nat) (f : Strand → Strand) : (updStrand s k f).pend = s.pend := rfl
@[simp] theorem updStrand_array (s : State) (k : Nat) (f : Strand → Strand) : (updStrand s k f).array = s.array := rfl
@[simp] theorem updStrand_replays (s : State) (k : Nat) (f : Strand → Strand) : (updStrand s k f).replays = s.replays := rfl
@[simp] theorem updStrand_lots (s : State) (k : Nat) (f : Strand → Strand) : (updStrand s k f).lots = s.lots := rfl
@[simp] theorem updStrand_queues (s : State) (k : Nat) (f : Strand → Strand) : (updStrand s k f).queues = s.queues := rfl
@[simp] theorem updStrand_pkts (s : State) (k : Nat) (f : Strand → Strand) : (updStrand s k f).pkts = s.pkts := rfl
@[simp] theorem updStrand_writes (s : State) (k : Nat) (f : Strand → Strand) : (updStrand s k f).writes = s.writes := rfl
@[simp] theorem updStrand_flts (s : State) (k : Nat) (f : Strand → Strand) : (updStrand s k f).flts = s.flts := rfl
@[simp] theorem updStrand_tokens (s : State) (k : Nat) (f : Strand → Strand) : (updStrand s k f).tokens = s.tokens := rfl
@[simp] theorem updStrand_invs (s : State) (k : Nat) (f : Strand → Strand) : (updStrand s k f).invs = s.invs := rfl
@[simp] theorem updStrand_opreqs (s : State) (k : Nat) (f : Strand → Strand) : (updStrand s k f).opreqs = s.opreqs := rfl
@[simp] theorem updStrand_changes (s : State) (k : Nat) (f : Strand → Strand) : (updStrand s k f).changes = s.changes := rfl
@[simp] theorem updStrand_ctxs (s : State) (k : Nat) (f : Strand → Strand) : (updStrand s k f).ctxs = s.ctxs := rfl
@[simp] theorem updStrand_vds (s : State) (k : Nat) (f : Strand → Strand) : (updStrand s k f).vds = s.vds := rfl
@[simp] theorem updStrand_mills (s : State) (k : Nat) (f : Strand → Strand) : (updStrand s k f).mills = s.mills := rfl
@[simp] theorem updStrand_doms (s : State) (k : Nat) (f : Strand → Strand) : (updStrand s k f).doms = s.doms := rfl
@[simp] theorem updStrand_cp (s : State) (k : Nat) (f : Strand → Strand) : (updStrand s k f).cp = s.cp := rfl
@[simp] theorem updStrand_fab (s : State) (k : Nat) (f : Strand → Strand) : (updStrand s k f).fab = s.fab := rfl
@[simp] theorem updStrand_hbm (s : State) (k : Nat) (f : Strand → Strand) : (updStrand s k f).hbm = s.hbm := rfl
@[simp] theorem updStrand_droops (s : State) (k : Nat) (f : Strand → Strand) : (updStrand s k f).droops = s.droops := rfl
@[simp] theorem updStrand_requeued (s : State) (k : Nat) (f : Strand → Strand) : (updStrand s k f).requeued = s.requeued := rfl
@[simp] theorem updStrand_sent (s : State) (k : Nat) (f : Strand → Strand) : (updStrand s k f).sent = s.sent := rfl
@[simp] theorem updStrand_passed (s : State) (k : Nat) (f : Strand → Strand) : (updStrand s k f).passed = s.passed := rfl

@[simp] theorem updSkein_steps (s : State) (k : Nat) (f : Skein → Skein) : (updSkein s k f).steps = s.steps := rfl
@[simp] theorem updSkein_inputs (s : State) (k : Nat) (f : Skein → Skein) : (updSkein s k f).inputs = s.inputs := rfl
@[simp] theorem updSkein_cur (s : State) (k : Nat) (f : Skein → Skein) : (updSkein s k f).cur = s.cur := rfl
@[simp] theorem updSkein_word (s : State) (k : Nat) (f : Skein → Skein) : (updSkein s k f).word = s.word := rfl
@[simp] theorem updSkein_undo (s : State) (k : Nat) (f : Skein → Skein) : (updSkein s k f).undo = s.undo := rfl
@[simp] theorem updSkein_key (s : State) (k : Nat) (f : Skein → Skein) : (updSkein s k f).key = s.key := rfl
@[simp] theorem updSkein_gtb (s : State) (k : Nat) (f : Skein → Skein) : (updSkein s k f).gtb = s.gtb := rfl
@[simp] theorem updSkein_tick (s : State) (k : Nat) (f : Skein → Skein) : (updSkein s k f).tick = s.tick := rfl
@[simp] theorem updSkein_mem (s : State) (k : Nat) (f : Skein → Skein) : (updSkein s k f).mem = s.mem := rfl
@[simp] theorem updSkein_spindles (s : State) (k : Nat) (f : Skein → Skein) : (updSkein s k f).spindles = s.spindles := rfl
@[simp] theorem updSkein_strands (s : State) (k : Nat) (f : Skein → Skein) : (updSkein s k f).strands = s.strands := rfl
@[simp] theorem updSkein_skeins (s : State) (k : Nat) (f : Skein → Skein) : (updSkein s k f).skeins = updIf (fun u => u.id == k) f s.skeins := rfl
@[simp] theorem updSkein_hanks (s : State) (k : Nat) (f : Skein → Skein) : (updSkein s k f).hanks = s.hanks := rfl
@[simp] theorem updSkein_pend (s : State) (k : Nat) (f : Skein → Skein) : (updSkein s k f).pend = s.pend := rfl
@[simp] theorem updSkein_array (s : State) (k : Nat) (f : Skein → Skein) : (updSkein s k f).array = s.array := rfl
@[simp] theorem updSkein_replays (s : State) (k : Nat) (f : Skein → Skein) : (updSkein s k f).replays = s.replays := rfl
@[simp] theorem updSkein_lots (s : State) (k : Nat) (f : Skein → Skein) : (updSkein s k f).lots = s.lots := rfl
@[simp] theorem updSkein_queues (s : State) (k : Nat) (f : Skein → Skein) : (updSkein s k f).queues = s.queues := rfl
@[simp] theorem updSkein_pkts (s : State) (k : Nat) (f : Skein → Skein) : (updSkein s k f).pkts = s.pkts := rfl
@[simp] theorem updSkein_writes (s : State) (k : Nat) (f : Skein → Skein) : (updSkein s k f).writes = s.writes := rfl
@[simp] theorem updSkein_flts (s : State) (k : Nat) (f : Skein → Skein) : (updSkein s k f).flts = s.flts := rfl
@[simp] theorem updSkein_tokens (s : State) (k : Nat) (f : Skein → Skein) : (updSkein s k f).tokens = s.tokens := rfl
@[simp] theorem updSkein_invs (s : State) (k : Nat) (f : Skein → Skein) : (updSkein s k f).invs = s.invs := rfl
@[simp] theorem updSkein_opreqs (s : State) (k : Nat) (f : Skein → Skein) : (updSkein s k f).opreqs = s.opreqs := rfl
@[simp] theorem updSkein_changes (s : State) (k : Nat) (f : Skein → Skein) : (updSkein s k f).changes = s.changes := rfl
@[simp] theorem updSkein_ctxs (s : State) (k : Nat) (f : Skein → Skein) : (updSkein s k f).ctxs = s.ctxs := rfl
@[simp] theorem updSkein_vds (s : State) (k : Nat) (f : Skein → Skein) : (updSkein s k f).vds = s.vds := rfl
@[simp] theorem updSkein_mills (s : State) (k : Nat) (f : Skein → Skein) : (updSkein s k f).mills = s.mills := rfl
@[simp] theorem updSkein_doms (s : State) (k : Nat) (f : Skein → Skein) : (updSkein s k f).doms = s.doms := rfl
@[simp] theorem updSkein_cp (s : State) (k : Nat) (f : Skein → Skein) : (updSkein s k f).cp = s.cp := rfl
@[simp] theorem updSkein_fab (s : State) (k : Nat) (f : Skein → Skein) : (updSkein s k f).fab = s.fab := rfl
@[simp] theorem updSkein_hbm (s : State) (k : Nat) (f : Skein → Skein) : (updSkein s k f).hbm = s.hbm := rfl
@[simp] theorem updSkein_droops (s : State) (k : Nat) (f : Skein → Skein) : (updSkein s k f).droops = s.droops := rfl
@[simp] theorem updSkein_requeued (s : State) (k : Nat) (f : Skein → Skein) : (updSkein s k f).requeued = s.requeued := rfl
@[simp] theorem updSkein_sent (s : State) (k : Nat) (f : Skein → Skein) : (updSkein s k f).sent = s.sent := rfl
@[simp] theorem updSkein_passed (s : State) (k : Nat) (f : Skein → Skein) : (updSkein s k f).passed = s.passed := rfl

@[simp] theorem updCtx_steps (s : State) (v c : Nat) (f : Ctx → Ctx) : (updCtx s v c f).steps = s.steps := rfl
@[simp] theorem updCtx_inputs (s : State) (v c : Nat) (f : Ctx → Ctx) : (updCtx s v c f).inputs = s.inputs := rfl
@[simp] theorem updCtx_cur (s : State) (v c : Nat) (f : Ctx → Ctx) : (updCtx s v c f).cur = s.cur := rfl
@[simp] theorem updCtx_word (s : State) (v c : Nat) (f : Ctx → Ctx) : (updCtx s v c f).word = s.word := rfl
@[simp] theorem updCtx_undo (s : State) (v c : Nat) (f : Ctx → Ctx) : (updCtx s v c f).undo = s.undo := rfl
@[simp] theorem updCtx_key (s : State) (v c : Nat) (f : Ctx → Ctx) : (updCtx s v c f).key = s.key := rfl
@[simp] theorem updCtx_gtb (s : State) (v c : Nat) (f : Ctx → Ctx) : (updCtx s v c f).gtb = s.gtb := rfl
@[simp] theorem updCtx_tick (s : State) (v c : Nat) (f : Ctx → Ctx) : (updCtx s v c f).tick = s.tick := rfl
@[simp] theorem updCtx_mem (s : State) (v c : Nat) (f : Ctx → Ctx) : (updCtx s v c f).mem = s.mem := rfl
@[simp] theorem updCtx_spindles (s : State) (v c : Nat) (f : Ctx → Ctx) : (updCtx s v c f).spindles = s.spindles := rfl
@[simp] theorem updCtx_strands (s : State) (v c : Nat) (f : Ctx → Ctx) : (updCtx s v c f).strands = s.strands := rfl
@[simp] theorem updCtx_skeins (s : State) (v c : Nat) (f : Ctx → Ctx) : (updCtx s v c f).skeins = s.skeins := rfl
@[simp] theorem updCtx_hanks (s : State) (v c : Nat) (f : Ctx → Ctx) : (updCtx s v c f).hanks = s.hanks := rfl
@[simp] theorem updCtx_pend (s : State) (v c : Nat) (f : Ctx → Ctx) : (updCtx s v c f).pend = s.pend := rfl
@[simp] theorem updCtx_array (s : State) (v c : Nat) (f : Ctx → Ctx) : (updCtx s v c f).array = s.array := rfl
@[simp] theorem updCtx_replays (s : State) (v c : Nat) (f : Ctx → Ctx) : (updCtx s v c f).replays = s.replays := rfl
@[simp] theorem updCtx_lots (s : State) (v c : Nat) (f : Ctx → Ctx) : (updCtx s v c f).lots = s.lots := rfl
@[simp] theorem updCtx_queues (s : State) (v c : Nat) (f : Ctx → Ctx) : (updCtx s v c f).queues = s.queues := rfl
@[simp] theorem updCtx_pkts (s : State) (v c : Nat) (f : Ctx → Ctx) : (updCtx s v c f).pkts = s.pkts := rfl
@[simp] theorem updCtx_writes (s : State) (v c : Nat) (f : Ctx → Ctx) : (updCtx s v c f).writes = s.writes := rfl
@[simp] theorem updCtx_flts (s : State) (v c : Nat) (f : Ctx → Ctx) : (updCtx s v c f).flts = s.flts := rfl
@[simp] theorem updCtx_tokens (s : State) (v c : Nat) (f : Ctx → Ctx) : (updCtx s v c f).tokens = s.tokens := rfl
@[simp] theorem updCtx_invs (s : State) (v c : Nat) (f : Ctx → Ctx) : (updCtx s v c f).invs = s.invs := rfl
@[simp] theorem updCtx_opreqs (s : State) (v c : Nat) (f : Ctx → Ctx) : (updCtx s v c f).opreqs = s.opreqs := rfl
@[simp] theorem updCtx_changes (s : State) (v c : Nat) (f : Ctx → Ctx) : (updCtx s v c f).changes = s.changes := rfl
@[simp] theorem updCtx_ctxs (s : State) (v c : Nat) (f : Ctx → Ctx) : (updCtx s v c f).ctxs = updIf (fun u => u.vd == v && u.num == c) f s.ctxs := rfl
@[simp] theorem updCtx_vds (s : State) (v c : Nat) (f : Ctx → Ctx) : (updCtx s v c f).vds = s.vds := rfl
@[simp] theorem updCtx_mills (s : State) (v c : Nat) (f : Ctx → Ctx) : (updCtx s v c f).mills = s.mills := rfl
@[simp] theorem updCtx_doms (s : State) (v c : Nat) (f : Ctx → Ctx) : (updCtx s v c f).doms = s.doms := rfl
@[simp] theorem updCtx_cp (s : State) (v c : Nat) (f : Ctx → Ctx) : (updCtx s v c f).cp = s.cp := rfl
@[simp] theorem updCtx_fab (s : State) (v c : Nat) (f : Ctx → Ctx) : (updCtx s v c f).fab = s.fab := rfl
@[simp] theorem updCtx_hbm (s : State) (v c : Nat) (f : Ctx → Ctx) : (updCtx s v c f).hbm = s.hbm := rfl
@[simp] theorem updCtx_droops (s : State) (v c : Nat) (f : Ctx → Ctx) : (updCtx s v c f).droops = s.droops := rfl
@[simp] theorem updCtx_requeued (s : State) (v c : Nat) (f : Ctx → Ctx) : (updCtx s v c f).requeued = s.requeued := rfl
@[simp] theorem updCtx_sent (s : State) (v c : Nat) (f : Ctx → Ctx) : (updCtx s v c f).sent = s.sent := rfl
@[simp] theorem updCtx_passed (s : State) (v c : Nat) (f : Ctx → Ctx) : (updCtx s v c f).passed = s.passed := rfl

@[simp] theorem updVd_steps (s : State) (v : Nat) (f : Vd → Vd) : (updVd s v f).steps = s.steps := rfl
@[simp] theorem updVd_inputs (s : State) (v : Nat) (f : Vd → Vd) : (updVd s v f).inputs = s.inputs := rfl
@[simp] theorem updVd_cur (s : State) (v : Nat) (f : Vd → Vd) : (updVd s v f).cur = s.cur := rfl
@[simp] theorem updVd_word (s : State) (v : Nat) (f : Vd → Vd) : (updVd s v f).word = s.word := rfl
@[simp] theorem updVd_undo (s : State) (v : Nat) (f : Vd → Vd) : (updVd s v f).undo = s.undo := rfl
@[simp] theorem updVd_key (s : State) (v : Nat) (f : Vd → Vd) : (updVd s v f).key = s.key := rfl
@[simp] theorem updVd_gtb (s : State) (v : Nat) (f : Vd → Vd) : (updVd s v f).gtb = s.gtb := rfl
@[simp] theorem updVd_tick (s : State) (v : Nat) (f : Vd → Vd) : (updVd s v f).tick = s.tick := rfl
@[simp] theorem updVd_mem (s : State) (v : Nat) (f : Vd → Vd) : (updVd s v f).mem = s.mem := rfl
@[simp] theorem updVd_spindles (s : State) (v : Nat) (f : Vd → Vd) : (updVd s v f).spindles = s.spindles := rfl
@[simp] theorem updVd_strands (s : State) (v : Nat) (f : Vd → Vd) : (updVd s v f).strands = s.strands := rfl
@[simp] theorem updVd_skeins (s : State) (v : Nat) (f : Vd → Vd) : (updVd s v f).skeins = s.skeins := rfl
@[simp] theorem updVd_hanks (s : State) (v : Nat) (f : Vd → Vd) : (updVd s v f).hanks = s.hanks := rfl
@[simp] theorem updVd_pend (s : State) (v : Nat) (f : Vd → Vd) : (updVd s v f).pend = s.pend := rfl
@[simp] theorem updVd_array (s : State) (v : Nat) (f : Vd → Vd) : (updVd s v f).array = s.array := rfl
@[simp] theorem updVd_replays (s : State) (v : Nat) (f : Vd → Vd) : (updVd s v f).replays = s.replays := rfl
@[simp] theorem updVd_lots (s : State) (v : Nat) (f : Vd → Vd) : (updVd s v f).lots = s.lots := rfl
@[simp] theorem updVd_queues (s : State) (v : Nat) (f : Vd → Vd) : (updVd s v f).queues = s.queues := rfl
@[simp] theorem updVd_pkts (s : State) (v : Nat) (f : Vd → Vd) : (updVd s v f).pkts = s.pkts := rfl
@[simp] theorem updVd_writes (s : State) (v : Nat) (f : Vd → Vd) : (updVd s v f).writes = s.writes := rfl
@[simp] theorem updVd_flts (s : State) (v : Nat) (f : Vd → Vd) : (updVd s v f).flts = s.flts := rfl
@[simp] theorem updVd_tokens (s : State) (v : Nat) (f : Vd → Vd) : (updVd s v f).tokens = s.tokens := rfl
@[simp] theorem updVd_invs (s : State) (v : Nat) (f : Vd → Vd) : (updVd s v f).invs = s.invs := rfl
@[simp] theorem updVd_opreqs (s : State) (v : Nat) (f : Vd → Vd) : (updVd s v f).opreqs = s.opreqs := rfl
@[simp] theorem updVd_changes (s : State) (v : Nat) (f : Vd → Vd) : (updVd s v f).changes = s.changes := rfl
@[simp] theorem updVd_ctxs (s : State) (v : Nat) (f : Vd → Vd) : (updVd s v f).ctxs = s.ctxs := rfl
@[simp] theorem updVd_vds (s : State) (v : Nat) (f : Vd → Vd) : (updVd s v f).vds = updIf (fun u => u.num == v) f s.vds := rfl
@[simp] theorem updVd_mills (s : State) (v : Nat) (f : Vd → Vd) : (updVd s v f).mills = s.mills := rfl
@[simp] theorem updVd_doms (s : State) (v : Nat) (f : Vd → Vd) : (updVd s v f).doms = s.doms := rfl
@[simp] theorem updVd_cp (s : State) (v : Nat) (f : Vd → Vd) : (updVd s v f).cp = s.cp := rfl
@[simp] theorem updVd_fab (s : State) (v : Nat) (f : Vd → Vd) : (updVd s v f).fab = s.fab := rfl
@[simp] theorem updVd_hbm (s : State) (v : Nat) (f : Vd → Vd) : (updVd s v f).hbm = s.hbm := rfl
@[simp] theorem updVd_droops (s : State) (v : Nat) (f : Vd → Vd) : (updVd s v f).droops = s.droops := rfl
@[simp] theorem updVd_requeued (s : State) (v : Nat) (f : Vd → Vd) : (updVd s v f).requeued = s.requeued := rfl
@[simp] theorem updVd_sent (s : State) (v : Nat) (f : Vd → Vd) : (updVd s v f).sent = s.sent := rfl
@[simp] theorem updVd_passed (s : State) (v : Nat) (f : Vd → Vd) : (updVd s v f).passed = s.passed := rfl

@[simp] theorem updMill_steps (s : State) (m : Nat) (f : Mill → Mill) : (updMill s m f).steps = s.steps := rfl
@[simp] theorem updMill_inputs (s : State) (m : Nat) (f : Mill → Mill) : (updMill s m f).inputs = s.inputs := rfl
@[simp] theorem updMill_cur (s : State) (m : Nat) (f : Mill → Mill) : (updMill s m f).cur = s.cur := rfl
@[simp] theorem updMill_word (s : State) (m : Nat) (f : Mill → Mill) : (updMill s m f).word = s.word := rfl
@[simp] theorem updMill_undo (s : State) (m : Nat) (f : Mill → Mill) : (updMill s m f).undo = s.undo := rfl
@[simp] theorem updMill_key (s : State) (m : Nat) (f : Mill → Mill) : (updMill s m f).key = s.key := rfl
@[simp] theorem updMill_gtb (s : State) (m : Nat) (f : Mill → Mill) : (updMill s m f).gtb = s.gtb := rfl
@[simp] theorem updMill_tick (s : State) (m : Nat) (f : Mill → Mill) : (updMill s m f).tick = s.tick := rfl
@[simp] theorem updMill_mem (s : State) (m : Nat) (f : Mill → Mill) : (updMill s m f).mem = s.mem := rfl
@[simp] theorem updMill_spindles (s : State) (m : Nat) (f : Mill → Mill) : (updMill s m f).spindles = s.spindles := rfl
@[simp] theorem updMill_strands (s : State) (m : Nat) (f : Mill → Mill) : (updMill s m f).strands = s.strands := rfl
@[simp] theorem updMill_skeins (s : State) (m : Nat) (f : Mill → Mill) : (updMill s m f).skeins = s.skeins := rfl
@[simp] theorem updMill_hanks (s : State) (m : Nat) (f : Mill → Mill) : (updMill s m f).hanks = s.hanks := rfl
@[simp] theorem updMill_pend (s : State) (m : Nat) (f : Mill → Mill) : (updMill s m f).pend = s.pend := rfl
@[simp] theorem updMill_array (s : State) (m : Nat) (f : Mill → Mill) : (updMill s m f).array = s.array := rfl
@[simp] theorem updMill_replays (s : State) (m : Nat) (f : Mill → Mill) : (updMill s m f).replays = s.replays := rfl
@[simp] theorem updMill_lots (s : State) (m : Nat) (f : Mill → Mill) : (updMill s m f).lots = s.lots := rfl
@[simp] theorem updMill_queues (s : State) (m : Nat) (f : Mill → Mill) : (updMill s m f).queues = s.queues := rfl
@[simp] theorem updMill_pkts (s : State) (m : Nat) (f : Mill → Mill) : (updMill s m f).pkts = s.pkts := rfl
@[simp] theorem updMill_writes (s : State) (m : Nat) (f : Mill → Mill) : (updMill s m f).writes = s.writes := rfl
@[simp] theorem updMill_flts (s : State) (m : Nat) (f : Mill → Mill) : (updMill s m f).flts = s.flts := rfl
@[simp] theorem updMill_tokens (s : State) (m : Nat) (f : Mill → Mill) : (updMill s m f).tokens = s.tokens := rfl
@[simp] theorem updMill_invs (s : State) (m : Nat) (f : Mill → Mill) : (updMill s m f).invs = s.invs := rfl
@[simp] theorem updMill_opreqs (s : State) (m : Nat) (f : Mill → Mill) : (updMill s m f).opreqs = s.opreqs := rfl
@[simp] theorem updMill_changes (s : State) (m : Nat) (f : Mill → Mill) : (updMill s m f).changes = s.changes := rfl
@[simp] theorem updMill_ctxs (s : State) (m : Nat) (f : Mill → Mill) : (updMill s m f).ctxs = s.ctxs := rfl
@[simp] theorem updMill_vds (s : State) (m : Nat) (f : Mill → Mill) : (updMill s m f).vds = s.vds := rfl
@[simp] theorem updMill_mills (s : State) (m : Nat) (f : Mill → Mill) : (updMill s m f).mills = updIf (fun u => u.num == m) f s.mills := rfl
@[simp] theorem updMill_doms (s : State) (m : Nat) (f : Mill → Mill) : (updMill s m f).doms = s.doms := rfl
@[simp] theorem updMill_cp (s : State) (m : Nat) (f : Mill → Mill) : (updMill s m f).cp = s.cp := rfl
@[simp] theorem updMill_fab (s : State) (m : Nat) (f : Mill → Mill) : (updMill s m f).fab = s.fab := rfl
@[simp] theorem updMill_hbm (s : State) (m : Nat) (f : Mill → Mill) : (updMill s m f).hbm = s.hbm := rfl
@[simp] theorem updMill_droops (s : State) (m : Nat) (f : Mill → Mill) : (updMill s m f).droops = s.droops := rfl
@[simp] theorem updMill_requeued (s : State) (m : Nat) (f : Mill → Mill) : (updMill s m f).requeued = s.requeued := rfl
@[simp] theorem updMill_sent (s : State) (m : Nat) (f : Mill → Mill) : (updMill s m f).sent = s.sent := rfl
@[simp] theorem updMill_passed (s : State) (m : Nat) (f : Mill → Mill) : (updMill s m f).passed = s.passed := rfl

@[simp] theorem debitAcct_steps (s : State) (a : Acct) (d : Int) : (debitAcct s a d).steps = s.steps := by
  obtain ⟨v, c⟩ := a; cases c <;> rfl
@[simp] theorem addEst_steps (s : State) (a : Acct) (d n : Nat) : (addEst s a d n).steps = s.steps := by
  obtain ⟨v, c⟩ := a; cases c <;> rfl
@[simp] theorem charge_steps (s : State) (a : Acct) (d c n : Nat) : (charge s a d c n).steps = s.steps := by
  unfold charge; dsimp only; split <;> simp
@[simp] theorem debitAcct_inputs (s : State) (a : Acct) (d : Int) : (debitAcct s a d).inputs = s.inputs := by
  obtain ⟨v, c⟩ := a; cases c <;> rfl
@[simp] theorem addEst_inputs (s : State) (a : Acct) (d n : Nat) : (addEst s a d n).inputs = s.inputs := by
  obtain ⟨v, c⟩ := a; cases c <;> rfl
@[simp] theorem charge_inputs (s : State) (a : Acct) (d c n : Nat) : (charge s a d c n).inputs = s.inputs := by
  unfold charge; dsimp only; split <;> simp
@[simp] theorem debitAcct_cur (s : State) (a : Acct) (d : Int) : (debitAcct s a d).cur = s.cur := by
  obtain ⟨v, c⟩ := a; cases c <;> rfl
@[simp] theorem addEst_cur (s : State) (a : Acct) (d n : Nat) : (addEst s a d n).cur = s.cur := by
  obtain ⟨v, c⟩ := a; cases c <;> rfl
@[simp] theorem charge_cur (s : State) (a : Acct) (d c n : Nat) : (charge s a d c n).cur = s.cur := by
  unfold charge; dsimp only; split <;> simp
@[simp] theorem debitAcct_word (s : State) (a : Acct) (d : Int) : (debitAcct s a d).word = s.word := by
  obtain ⟨v, c⟩ := a; cases c <;> rfl
@[simp] theorem addEst_word (s : State) (a : Acct) (d n : Nat) : (addEst s a d n).word = s.word := by
  obtain ⟨v, c⟩ := a; cases c <;> rfl
@[simp] theorem charge_word (s : State) (a : Acct) (d c n : Nat) : (charge s a d c n).word = s.word := by
  unfold charge; dsimp only; split <;> simp
@[simp] theorem debitAcct_undo (s : State) (a : Acct) (d : Int) : (debitAcct s a d).undo = s.undo := by
  obtain ⟨v, c⟩ := a; cases c <;> rfl
@[simp] theorem addEst_undo (s : State) (a : Acct) (d n : Nat) : (addEst s a d n).undo = s.undo := by
  obtain ⟨v, c⟩ := a; cases c <;> rfl
@[simp] theorem charge_undo (s : State) (a : Acct) (d c n : Nat) : (charge s a d c n).undo = s.undo := by
  unfold charge; dsimp only; split <;> simp
@[simp] theorem debitAcct_key (s : State) (a : Acct) (d : Int) : (debitAcct s a d).key = s.key := by
  obtain ⟨v, c⟩ := a; cases c <;> rfl
@[simp] theorem addEst_key (s : State) (a : Acct) (d n : Nat) : (addEst s a d n).key = s.key := by
  obtain ⟨v, c⟩ := a; cases c <;> rfl
@[simp] theorem charge_key (s : State) (a : Acct) (d c n : Nat) : (charge s a d c n).key = s.key := by
  unfold charge; dsimp only; split <;> simp
@[simp] theorem debitAcct_gtb (s : State) (a : Acct) (d : Int) : (debitAcct s a d).gtb = s.gtb := by
  obtain ⟨v, c⟩ := a; cases c <;> rfl
@[simp] theorem addEst_gtb (s : State) (a : Acct) (d n : Nat) : (addEst s a d n).gtb = s.gtb := by
  obtain ⟨v, c⟩ := a; cases c <;> rfl
@[simp] theorem charge_gtb (s : State) (a : Acct) (d c n : Nat) : (charge s a d c n).gtb = s.gtb := by
  unfold charge; dsimp only; split <;> simp
@[simp] theorem debitAcct_tick (s : State) (a : Acct) (d : Int) : (debitAcct s a d).tick = s.tick := by
  obtain ⟨v, c⟩ := a; cases c <;> rfl
@[simp] theorem addEst_tick (s : State) (a : Acct) (d n : Nat) : (addEst s a d n).tick = s.tick := by
  obtain ⟨v, c⟩ := a; cases c <;> rfl
@[simp] theorem charge_tick (s : State) (a : Acct) (d c n : Nat) : (charge s a d c n).tick = s.tick := by
  unfold charge; dsimp only; split <;> simp
@[simp] theorem debitAcct_mem (s : State) (a : Acct) (d : Int) : (debitAcct s a d).mem = s.mem := by
  obtain ⟨v, c⟩ := a; cases c <;> rfl
@[simp] theorem addEst_mem (s : State) (a : Acct) (d n : Nat) : (addEst s a d n).mem = s.mem := by
  obtain ⟨v, c⟩ := a; cases c <;> rfl
@[simp] theorem charge_mem (s : State) (a : Acct) (d c n : Nat) : (charge s a d c n).mem = s.mem := by
  unfold charge; dsimp only; split <;> simp
@[simp] theorem debitAcct_spindles (s : State) (a : Acct) (d : Int) : (debitAcct s a d).spindles = s.spindles := by
  obtain ⟨v, c⟩ := a; cases c <;> rfl
@[simp] theorem addEst_spindles (s : State) (a : Acct) (d n : Nat) : (addEst s a d n).spindles = s.spindles := by
  obtain ⟨v, c⟩ := a; cases c <;> rfl
@[simp] theorem charge_spindles (s : State) (a : Acct) (d c n : Nat) : (charge s a d c n).spindles = s.spindles := by
  unfold charge; dsimp only; split <;> simp
@[simp] theorem debitAcct_strands (s : State) (a : Acct) (d : Int) : (debitAcct s a d).strands = s.strands := by
  obtain ⟨v, c⟩ := a; cases c <;> rfl
@[simp] theorem addEst_strands (s : State) (a : Acct) (d n : Nat) : (addEst s a d n).strands = s.strands := by
  obtain ⟨v, c⟩ := a; cases c <;> rfl
@[simp] theorem charge_strands (s : State) (a : Acct) (d c n : Nat) : (charge s a d c n).strands = s.strands := by
  unfold charge; dsimp only; split <;> simp
@[simp] theorem debitAcct_skeins (s : State) (a : Acct) (d : Int) : (debitAcct s a d).skeins = s.skeins := by
  obtain ⟨v, c⟩ := a; cases c <;> rfl
@[simp] theorem addEst_skeins (s : State) (a : Acct) (d n : Nat) : (addEst s a d n).skeins = s.skeins := by
  obtain ⟨v, c⟩ := a; cases c <;> rfl
@[simp] theorem charge_skeins (s : State) (a : Acct) (d c n : Nat) : (charge s a d c n).skeins = s.skeins := by
  unfold charge; dsimp only; split <;> simp
@[simp] theorem debitAcct_hanks (s : State) (a : Acct) (d : Int) : (debitAcct s a d).hanks = s.hanks := by
  obtain ⟨v, c⟩ := a; cases c <;> rfl
@[simp] theorem addEst_hanks (s : State) (a : Acct) (d n : Nat) : (addEst s a d n).hanks = s.hanks := by
  obtain ⟨v, c⟩ := a; cases c <;> rfl
@[simp] theorem charge_hanks (s : State) (a : Acct) (d c n : Nat) : (charge s a d c n).hanks = s.hanks := by
  unfold charge; dsimp only; split <;> simp
@[simp] theorem debitAcct_pend (s : State) (a : Acct) (d : Int) : (debitAcct s a d).pend = s.pend := by
  obtain ⟨v, c⟩ := a; cases c <;> rfl
@[simp] theorem addEst_pend (s : State) (a : Acct) (d n : Nat) : (addEst s a d n).pend = s.pend := by
  obtain ⟨v, c⟩ := a; cases c <;> rfl
@[simp] theorem charge_pend (s : State) (a : Acct) (d c n : Nat) : (charge s a d c n).pend = s.pend := by
  unfold charge; dsimp only; split <;> simp
@[simp] theorem debitAcct_array (s : State) (a : Acct) (d : Int) : (debitAcct s a d).array = s.array := by
  obtain ⟨v, c⟩ := a; cases c <;> rfl
@[simp] theorem addEst_array (s : State) (a : Acct) (d n : Nat) : (addEst s a d n).array = s.array := by
  obtain ⟨v, c⟩ := a; cases c <;> rfl
@[simp] theorem charge_array (s : State) (a : Acct) (d c n : Nat) : (charge s a d c n).array = s.array := by
  unfold charge; dsimp only; split <;> simp
@[simp] theorem debitAcct_replays (s : State) (a : Acct) (d : Int) : (debitAcct s a d).replays = s.replays := by
  obtain ⟨v, c⟩ := a; cases c <;> rfl
@[simp] theorem addEst_replays (s : State) (a : Acct) (d n : Nat) : (addEst s a d n).replays = s.replays := by
  obtain ⟨v, c⟩ := a; cases c <;> rfl
@[simp] theorem charge_replays (s : State) (a : Acct) (d c n : Nat) : (charge s a d c n).replays = s.replays := by
  unfold charge; dsimp only; split <;> simp
@[simp] theorem debitAcct_lots (s : State) (a : Acct) (d : Int) : (debitAcct s a d).lots = s.lots := by
  obtain ⟨v, c⟩ := a; cases c <;> rfl
@[simp] theorem addEst_lots (s : State) (a : Acct) (d n : Nat) : (addEst s a d n).lots = s.lots := by
  obtain ⟨v, c⟩ := a; cases c <;> rfl
@[simp] theorem charge_lots (s : State) (a : Acct) (d c n : Nat) : (charge s a d c n).lots = s.lots := by
  unfold charge; dsimp only; split <;> simp
@[simp] theorem debitAcct_queues (s : State) (a : Acct) (d : Int) : (debitAcct s a d).queues = s.queues := by
  obtain ⟨v, c⟩ := a; cases c <;> rfl
@[simp] theorem addEst_queues (s : State) (a : Acct) (d n : Nat) : (addEst s a d n).queues = s.queues := by
  obtain ⟨v, c⟩ := a; cases c <;> rfl
@[simp] theorem charge_queues (s : State) (a : Acct) (d c n : Nat) : (charge s a d c n).queues = s.queues := by
  unfold charge; dsimp only; split <;> simp
@[simp] theorem debitAcct_pkts (s : State) (a : Acct) (d : Int) : (debitAcct s a d).pkts = s.pkts := by
  obtain ⟨v, c⟩ := a; cases c <;> rfl
@[simp] theorem addEst_pkts (s : State) (a : Acct) (d n : Nat) : (addEst s a d n).pkts = s.pkts := by
  obtain ⟨v, c⟩ := a; cases c <;> rfl
@[simp] theorem charge_pkts (s : State) (a : Acct) (d c n : Nat) : (charge s a d c n).pkts = s.pkts := by
  unfold charge; dsimp only; split <;> simp
@[simp] theorem debitAcct_writes (s : State) (a : Acct) (d : Int) : (debitAcct s a d).writes = s.writes := by
  obtain ⟨v, c⟩ := a; cases c <;> rfl
@[simp] theorem addEst_writes (s : State) (a : Acct) (d n : Nat) : (addEst s a d n).writes = s.writes := by
  obtain ⟨v, c⟩ := a; cases c <;> rfl
@[simp] theorem charge_writes (s : State) (a : Acct) (d c n : Nat) : (charge s a d c n).writes = s.writes := by
  unfold charge; dsimp only; split <;> simp
@[simp] theorem debitAcct_flts (s : State) (a : Acct) (d : Int) : (debitAcct s a d).flts = s.flts := by
  obtain ⟨v, c⟩ := a; cases c <;> rfl
@[simp] theorem addEst_flts (s : State) (a : Acct) (d n : Nat) : (addEst s a d n).flts = s.flts := by
  obtain ⟨v, c⟩ := a; cases c <;> rfl
@[simp] theorem charge_flts (s : State) (a : Acct) (d c n : Nat) : (charge s a d c n).flts = s.flts := by
  unfold charge; dsimp only; split <;> simp
@[simp] theorem debitAcct_tokens (s : State) (a : Acct) (d : Int) : (debitAcct s a d).tokens = s.tokens := by
  obtain ⟨v, c⟩ := a; cases c <;> rfl
@[simp] theorem addEst_tokens (s : State) (a : Acct) (d n : Nat) : (addEst s a d n).tokens = s.tokens := by
  obtain ⟨v, c⟩ := a; cases c <;> rfl
@[simp] theorem charge_tokens (s : State) (a : Acct) (d c n : Nat) : (charge s a d c n).tokens = s.tokens := by
  unfold charge; dsimp only; split <;> simp
@[simp] theorem debitAcct_invs (s : State) (a : Acct) (d : Int) : (debitAcct s a d).invs = s.invs := by
  obtain ⟨v, c⟩ := a; cases c <;> rfl
@[simp] theorem addEst_invs (s : State) (a : Acct) (d n : Nat) : (addEst s a d n).invs = s.invs := by
  obtain ⟨v, c⟩ := a; cases c <;> rfl
@[simp] theorem charge_invs (s : State) (a : Acct) (d c n : Nat) : (charge s a d c n).invs = s.invs := by
  unfold charge; dsimp only; split <;> simp
@[simp] theorem debitAcct_opreqs (s : State) (a : Acct) (d : Int) : (debitAcct s a d).opreqs = s.opreqs := by
  obtain ⟨v, c⟩ := a; cases c <;> rfl
@[simp] theorem addEst_opreqs (s : State) (a : Acct) (d n : Nat) : (addEst s a d n).opreqs = s.opreqs := by
  obtain ⟨v, c⟩ := a; cases c <;> rfl
@[simp] theorem charge_opreqs (s : State) (a : Acct) (d c n : Nat) : (charge s a d c n).opreqs = s.opreqs := by
  unfold charge; dsimp only; split <;> simp
@[simp] theorem debitAcct_changes (s : State) (a : Acct) (d : Int) : (debitAcct s a d).changes = s.changes := by
  obtain ⟨v, c⟩ := a; cases c <;> rfl
@[simp] theorem addEst_changes (s : State) (a : Acct) (d n : Nat) : (addEst s a d n).changes = s.changes := by
  obtain ⟨v, c⟩ := a; cases c <;> rfl
@[simp] theorem charge_changes (s : State) (a : Acct) (d c n : Nat) : (charge s a d c n).changes = s.changes := by
  unfold charge; dsimp only; split <;> simp
@[simp] theorem debitAcct_mills (s : State) (a : Acct) (d : Int) : (debitAcct s a d).mills = s.mills := by
  obtain ⟨v, c⟩ := a; cases c <;> rfl
@[simp] theorem addEst_mills (s : State) (a : Acct) (d n : Nat) : (addEst s a d n).mills = s.mills := by
  obtain ⟨v, c⟩ := a; cases c <;> rfl
@[simp] theorem charge_mills (s : State) (a : Acct) (d c n : Nat) : (charge s a d c n).mills = s.mills := by
  unfold charge; dsimp only; split <;> simp
@[simp] theorem debitAcct_doms (s : State) (a : Acct) (d : Int) : (debitAcct s a d).doms = s.doms := by
  obtain ⟨v, c⟩ := a; cases c <;> rfl
@[simp] theorem addEst_doms (s : State) (a : Acct) (d n : Nat) : (addEst s a d n).doms = s.doms := by
  obtain ⟨v, c⟩ := a; cases c <;> rfl
@[simp] theorem charge_doms (s : State) (a : Acct) (d c n : Nat) : (charge s a d c n).doms = s.doms := by
  unfold charge; dsimp only; split <;> simp
@[simp] theorem debitAcct_cp (s : State) (a : Acct) (d : Int) : (debitAcct s a d).cp = s.cp := by
  obtain ⟨v, c⟩ := a; cases c <;> rfl
@[simp] theorem addEst_cp (s : State) (a : Acct) (d n : Nat) : (addEst s a d n).cp = s.cp := by
  obtain ⟨v, c⟩ := a; cases c <;> rfl
@[simp] theorem charge_cp (s : State) (a : Acct) (d c n : Nat) : (charge s a d c n).cp = s.cp := by
  unfold charge; dsimp only; split <;> simp
@[simp] theorem debitAcct_fab (s : State) (a : Acct) (d : Int) : (debitAcct s a d).fab = s.fab := by
  obtain ⟨v, c⟩ := a; cases c <;> rfl
@[simp] theorem addEst_fab (s : State) (a : Acct) (d n : Nat) : (addEst s a d n).fab = s.fab := by
  obtain ⟨v, c⟩ := a; cases c <;> rfl
@[simp] theorem charge_fab (s : State) (a : Acct) (d c n : Nat) : (charge s a d c n).fab = s.fab := by
  unfold charge; dsimp only; split <;> simp
@[simp] theorem debitAcct_hbm (s : State) (a : Acct) (d : Int) : (debitAcct s a d).hbm = s.hbm := by
  obtain ⟨v, c⟩ := a; cases c <;> rfl
@[simp] theorem addEst_hbm (s : State) (a : Acct) (d n : Nat) : (addEst s a d n).hbm = s.hbm := by
  obtain ⟨v, c⟩ := a; cases c <;> rfl
@[simp] theorem charge_hbm (s : State) (a : Acct) (d c n : Nat) : (charge s a d c n).hbm = s.hbm := by
  unfold charge; dsimp only; split <;> simp
@[simp] theorem debitAcct_droops (s : State) (a : Acct) (d : Int) : (debitAcct s a d).droops = s.droops := by
  obtain ⟨v, c⟩ := a; cases c <;> rfl
@[simp] theorem addEst_droops (s : State) (a : Acct) (d n : Nat) : (addEst s a d n).droops = s.droops := by
  obtain ⟨v, c⟩ := a; cases c <;> rfl
@[simp] theorem charge_droops (s : State) (a : Acct) (d c n : Nat) : (charge s a d c n).droops = s.droops := by
  unfold charge; dsimp only; split <;> simp
@[simp] theorem debitAcct_requeued (s : State) (a : Acct) (d : Int) : (debitAcct s a d).requeued = s.requeued := by
  obtain ⟨v, c⟩ := a; cases c <;> rfl
@[simp] theorem addEst_requeued (s : State) (a : Acct) (d n : Nat) : (addEst s a d n).requeued = s.requeued := by
  obtain ⟨v, c⟩ := a; cases c <;> rfl
@[simp] theorem charge_requeued (s : State) (a : Acct) (d c n : Nat) : (charge s a d c n).requeued = s.requeued := by
  unfold charge; dsimp only; split <;> simp
@[simp] theorem debitAcct_sent (s : State) (a : Acct) (d : Int) : (debitAcct s a d).sent = s.sent := by
  obtain ⟨v, c⟩ := a; cases c <;> rfl
@[simp] theorem debitAcct_passed (s : State) (a : Acct) (d : Int) : (debitAcct s a d).passed = s.passed := by
  obtain ⟨v, c⟩ := a; cases c <;> rfl
@[simp] theorem addEst_sent (s : State) (a : Acct) (d n : Nat) : (addEst s a d n).sent = s.sent := by
  obtain ⟨v, c⟩ := a; cases c <;> rfl
@[simp] theorem addEst_passed (s : State) (a : Acct) (d n : Nat) : (addEst s a d n).passed = s.passed := by
  obtain ⟨v, c⟩ := a; cases c <;> rfl
@[simp] theorem charge_sent (s : State) (a : Acct) (d c n : Nat) : (charge s a d c n).sent = s.sent := by
  unfold charge; dsimp only; split <;> simp
@[simp] theorem charge_passed (s : State) (a : Acct) (d c n : Nat) : (charge s a d c n).passed = s.passed := by
  unfold charge; dsimp only; split <;> simp

/-! ### Finding the parts -/

theorem skein?_updSkein (s : State) (k j : Nat) (f : Skein → Skein) (hf : ∀ y, (f y).id = y.id) :
    skein? (updSkein s k f) j = (skein? s j).map (fun y => if y.id == k then f y else y) := by
  unfold skein?
  rw [updSkein_skeins]
  exact find?_updIf _ _ _ (fun a => by simp [hf]) _

theorem skein?_updSkein_of_ne (s : State) (k j : Nat) (f : Skein → Skein) (hf : ∀ y, (f y).id = y.id) (h : j ≠ k) :
    skein? (updSkein s k f) j = skein? s j := by
  rw [skein?_updSkein s k j f hf]
  cases hx : skein? s j with
  | none => rfl
  | some y =>
    have : y.id = j := by simpa [skein?] using List.find?_some hx
    simp [this, h]

theorem skein?_updSkein_self (s : State) (k : Nat) (f : Skein → Skein) (hf : ∀ y, (f y).id = y.id) :
    skein? (updSkein s k f) k = (skein? s k).map f := by
  rw [skein?_updSkein s k k f hf]
  cases hx : skein? s k with
  | none => rfl
  | some y =>
    have : y.id = k := by simpa [skein?] using List.find?_some hx
    simp [this]

theorem strand?_updStrand_self (s : State) (k : Nat) (f : Strand → Strand) (hf : ∀ y, (f y).id = y.id) :
    strand? (updStrand s k f) k = (strand? s k).map f := by
  unfold strand?
  rw [updStrand_strands, find?_updIf _ _ _ (fun a => by simp [hf]) _]
  cases hx : List.find? (fun t => t.id == k) s.strands with
  | none => rfl
  | some y =>
    have : y.id = k := by simpa using List.find?_some hx
    simp [this]

theorem skein?_id (s : State) (k : Nat) (x : Skein) (h : skein? s k = some x) : x.id = k := by
  simpa [skein?] using List.find?_some h
theorem strand?_id (s : State) (k : Nat) (t : Strand) (h : strand? s k = some t) : t.id = k := by
  simpa [strand?] using List.find?_some h

@[simp] theorem skein?_updStrand (s : State) (k j : Nat) (f : Strand → Strand) : skein? (updStrand s k f) j = skein? s j := rfl
@[simp] theorem skein?_updCtx (s : State) (v c j : Nat) (f : Ctx → Ctx) : skein? (updCtx s v c f) j = skein? s j := rfl
@[simp] theorem skein?_updVd (s : State) (v j : Nat) (f : Vd → Vd) : skein? (updVd s v f) j = skein? s j := rfl
@[simp] theorem skein?_charge (s : State) (a : Acct) (d c n j : Nat) : skein? (charge s a d c n) j = skein? s j := by simp [skein?]
@[simp] theorem strand?_updSkein (s : State) (k j : Nat) (f : Skein → Skein) : strand? (updSkein s k f) j = strand? s j := rfl
@[simp] theorem strand?_updCtx (s : State) (v c j : Nat) (f : Ctx → Ctx) : strand? (updCtx s v c f) j = strand? s j := rfl
@[simp] theorem strand?_charge (s : State) (a : Acct) (d c n j : Nat) : strand? (charge s a d c n) j = strand? s j := by simp [strand?]

end Sys2Proof.Machine
end

