-- ==== Sys2Proof/Laws/Issue.lean ====
section
/-! SUPPORT. Laws of issue: what an instruction that takes effect comes to, and what a computing instruction leaves in its destinations. -/
namespace Sys2Proof.Machine

/-- Under Issues, the meaning is its body's effect in u, settled. -/
theorem issue_of_issues {sh : Shape} {s : State} {t : Strand} {x : Skein} {u : State} {y : Skein} {w : Strand} (h : Issues sh s t x u y w)
    (ra : Env → State → RaRes) (body : Env → State → Res) :
    issue sh ra body s = .next (settle sh (issueEnv sh t x s) (body (issueEnv sh t x s) u)) := by
  have hact : (issueEnv sh t x s).act.isEmpty = false := by
    have := h.active
    simp only [issueEnv]
    cases hq : activeOf t x sh.ctl.guard with
    | nil => exact absurd hq this
    | cons a l => rfl
  have hst : (staleTraps (chargeIssue s sh t x) x && decide (0 < staleCount sh (issueEnv sh t x s))) = false := by
    cases hs : staleTraps (chargeIssue s sh t x) x with
    | false => rfl
    | true => simp [h.fresh hs]
  have hreg : (sh.noIdem && t.region.isSome) = false := by
    cases hn : sh.noIdem with
    | false => rfl
    | true => simp [h.region hn]
  have hroom : (sh.access && u.undo.isNone && decide (64 ≤ unsentOf u x)) = false := by
    cases ha : sh.access with
    | false => rfl
    | true =>
      cases hn : u.undo with
      | some _ => rfl
      | none => simpa using h.room ha hn
  have hu : divergentWrite x (issueEnv sh t x s).act sh.writes = false := h.uniform
  unfold issue
  simp only [h.cur, Option.bind_some, h.strand, h.skein, h.legal, h.real, Option.isSome_none]
  unfold issueReal
  simp only [hact, hu, hst, h.state, h.flags, hreg, hroom, Bool.false_eq_true, if_false]

/-- Every instruction word's meaning is an issue of its shape. -/
theorem exec_isa (i : Instr) (sh : Shape) (h : isaShape i = some sh) : ∃ ra body, ∀ s, exec i s = issue sh ra body s := by
  cases i
  case cvtb o =>
    cases hd : o.dir with
    | false =>
      have : sh = shCvtbTo o := by simpa [isaShape, computeShape, hd, eq_comm] using h
      subst this
      exact ⟨_, _, fun s => by show execCvtb o s = _; unfold execCvtb; simp only [hd]; rfl⟩
    | true =>
      have : sh = shCvtbFrom o := by simpa [isaShape, computeShape, hd, eq_comm] using h
      subst this
      exact ⟨_, _, fun s => by show execCvtb o s = _; unfold execCvtb; simp only [hd]; rfl⟩
  all_goals first
    | (cases h; exact ⟨_, _, fun _ => rfl⟩)
    | (simp [isaShape, computeShape] at h; done)

end Sys2Proof.Machine
end

