-- ==== Sys2Proof/Laws/Regs.lean ====
section
/-! SUPPORT. Laws of registers: what a read gives after a write, in a fibre and in a skein. -/
namespace Sys2Proof.Machine

theorem getLsbD_pow (w n m : Nat) : (BitVec.ofNat w (2 ^ n)).getLsbD m = (decide (m < w) && decide (m = n)) := by
  simp only [BitVec.getLsbD_ofNat, Nat.testBit_two_pow]
  congr 1
  exact decide_eq_decide.mpr ⟨Eq.symm, Eq.symm⟩

theorem testBit_fifteen (i : Nat) : Nat.testBit 15 i = decide (i < 4) := by
  by_cases h : i < 4
  · have : i = 0 ∨ i = 1 ∨ i = 2 ∨ i = 3 := by omega
    rcases this with h | h | h | h <;> subst h <;> decide
  · simp only [h, decide_false]
    exact Nat.testBit_lt_two_pow (Nat.lt_of_lt_of_le (by decide : 15 < 2 ^ 4) (Nat.pow_le_pow_right (by decide) (by omega)))

theorem getLsbD_quad (q m : Nat) (hm : m < 192) : (BitVec.ofNat 192 (15 * 2 ^ (4 * q))).getLsbD m = decide (m / 4 = q) := by
  simp only [BitVec.getLsbD_ofNat, hm, decide_true, Bool.true_and, Nat.testBit_mul_two_pow, testBit_fifteen]
  by_cases h1 : 4 * q ≤ m
  · simp only [h1, decide_true, Bool.true_and]
    exact decide_eq_decide.mpr (by omega)
  · have : m / 4 ≠ q := by omega
    simp [h1, this]

/-- A register that has just been written reads as written. -/
theorem read_write_self (f : Fibre) (n : Nat) (v : BitVec 32) (hn : n < 192) : (f.write n v).read n = v := by
  have hq : n / 4 < 48 := by omega
  unfold Fibre.write Fibre.read Fibre.stale
  dsimp only
  obtain ⟨za, ea⟩ : ∃ y, BitVec.ofNat 192 (2 ^ n) = y := ⟨_, rfl⟩
  simp only [ea]
  obtain ⟨zb, eb⟩ : ∃ y, BitVec.ofNat 48 (2 ^ (n / 4)) = y := ⟨_, rfl⟩
  simp only [eb]
  have ga : ∀ i, za.getLsbD i = (decide (i < 192) && decide (i = n)) := fun i => ea ▸ getLsbD_pow 192 n i
  have gb : ∀ i, zb.getLsbD i = (decide (i < 48) && decide (i = n / 4)) := fun i => eb ▸ getLsbD_pow 48 (n / 4) i
  cases hl : f.live.getLsbD (n / 4) <;> simp [-BitVec.getLsbD_eq_getElem, hl, mget_mset, ga, gb, hn, hq]

/-- A register other than the one written reads as before. -/
theorem read_write_ne (f : Fibre) (n m : Nat) (v : BitVec 32) (hm : m < 192) (h : m ≠ n) : (f.write n v).read m = f.read m := by
  have hq : m / 4 < 48 := by omega
  unfold Fibre.write Fibre.read Fibre.stale
  dsimp only
  obtain ⟨za, ea⟩ : ∃ y, BitVec.ofNat 192 (2 ^ n) = y := ⟨_, rfl⟩
  simp only [ea]
  obtain ⟨zb, eb⟩ : ∃ y, BitVec.ofNat 48 (2 ^ (n / 4)) = y := ⟨_, rfl⟩
  simp only [eb]
  have ga : ∀ i, za.getLsbD i = (decide (i < 192) && decide (i = n)) := fun i => ea ▸ getLsbD_pow 192 n i
  have gb : ∀ i, zb.getLsbD i = (decide (i < 48) && decide (i = n / 4)) := fun i => eb ▸ getLsbD_pow 48 (n / 4) i
  obtain ⟨zq, eq4⟩ : ∃ y, BitVec.ofNat 192 (15 * 2 ^ (4 * (n / 4))) = y := ⟨_, rfl⟩
  simp only [eq4]
  have gq : ∀ i, i < 192 → zq.getLsbD i = decide (i / 4 = n / 4) := fun i hi => eq4 ▸ getLsbD_quad (n / 4) i hi
  cases hl : f.live.getLsbD (n / 4) with
  | true => simp [-BitVec.getLsbD_eq_getElem, hl, mget_mset, ga, gb, hm, h]
  | false =>
    by_cases he : m / 4 = n / 4
    · have h1 : 4 * (n / 4) ≤ m ∧ m < 4 * (n / 4) + 4 := by omega
      simp [-BitVec.getLsbD_eq_getElem, he, hl, mget_mset, mget_mclear, ga, gb, gq, hm, h, h1]
    · have h1 : ¬(4 * (n / 4) ≤ m ∧ m < 4 * (n / 4) + 4) := by omega
      simp [-BitVec.getLsbD_eq_getElem, he, hl, mget_mset, mget_mclear, ga, gb, gq, hm, h, h1, hq]

@[simp] theorem write_id (f : Fibre) (n : Nat) (v : BitVec 32) : (f.write n v).id = f.id := by
  unfold Fibre.write; dsimp only; split <;> rfl
@[simp] theorem write_preds (f : Fibre) (n : Nat) (v : BitVec 32) : (f.write n v).preds = f.preds := by
  unfold Fibre.write; dsimp only; split <;> rfl

/-- Finding a fibre after an update of fibres that keeps their numbers. -/
theorem fibre?_map (l : List Fibre) (g : Fibre → Fibre) (hg : ∀ y, (g y).id = y.id) (f : Nat) :
    (l.map g).find? (fun y => y.id == f) = (l.find? (fun y => y.id == f)).map g := by
  induction l with
  | nil => rfl
  | cons a t ih =>
    simp only [List.map_cons, List.find?_cons, hg]
    split <;> simp_all

theorem fibre?_id (x : Skein) (f : Nat) (y : Fibre) (h : x.fibre? f = some y) : y.id = f := by
  simpa [Skein.fibre?] using List.find?_some h

/-! ### One 32-bit or 64-bit destination -/

theorem put32_fibre? (x : Skein) (d : Field8) (fs : List Nat) (v : Nat → BitVec 32) (f : Nat) (hd : d.toNat < 192) :
    (x.put32 d fs v).fibre? f = (x.fibre? f).map (fun y => if fs.contains y.id then y.write d.toNat (v y.id) else y) := by
  unfold Skein.put32 Skein.fibre?
  rw [if_pos hd]
  exact fibre?_map _ _ (fun y => by split <;> simp) f
theorem put64_fibre? (x : Skein) (d : Field8) (fs : List Nat) (v : Nat → BitVec 64) (f : Nat) (hd : d.toNat < 192) :
    (x.put64 d fs v).fibre? f = (x.fibre? f).map (fun y =>
      if fs.contains y.id then (y.write d.toNat (bits (v y.id) 0 32)).write (d.toNat + 1) (bits (v y.id) 32 32) else y) := by
  unfold Skein.put64 Skein.fibre?
  rw [if_pos hd]
  exact fibre?_map _ _ (fun y => by split <;> simp) f
theorem put32_fibres_uniform (x : Skein) (d : Field8) (fs : List Nat) (v : Nat → BitVec 32) (hd : ¬d.toNat < 192) :
    (x.put32 d fs v).fibres = x.fibres := by
  unfold Skein.put32; rw [if_neg hd]; cases fs <;> rfl
theorem put64_fibres_uniform (x : Skein) (d : Field8) (fs : List Nat) (v : Nat → BitVec 64) (hd : ¬d.toNat < 192) :
    (x.put64 d fs v).fibres = x.fibres := by
  unfold Skein.put64; rw [if_neg hd]; cases fs <;> rfl
theorem put32_g_vector (x : Skein) (d : Field8) (fs : List Nat) (v : Nat → BitVec 32) (hd : d.toNat < 192) : (x.put32 d fs v).g = x.g := by
  unfold Skein.put32; rw [if_pos hd]
theorem put64_g_vector (x : Skein) (d : Field8) (fs : List Nat) (v : Nat → BitVec 64) (hd : d.toNat < 192) : (x.put64 d fs v).g = x.g := by
  unfold Skein.put64; rw [if_pos hd]
theorem put32_g (x : Skein) (d : Field8) (f : Nat) (fs : List Nat) (v : Nat → BitVec 32) (n : Nat) (hd : ¬d.toNat < 192) :
    mget (x.put32 d (f :: fs) v).g n = if n = d.toNat - 192 then (v f).setWidth 64 else mget x.g n := by
  unfold Skein.put32; rw [if_neg hd]; exact mget_mset _ _ _ _
theorem put64_g (x : Skein) (d : Field8) (f : Nat) (fs : List Nat) (v : Nat → BitVec 64) (n : Nat) (hd : ¬d.toNat < 192) :
    mget (x.put64 d (f :: fs) v).g n = if n = d.toNat - 192 then v f else mget x.g n := by
  unfold Skein.put64; rw [if_neg hd]; exact mget_mset _ _ _ _
@[simp] theorem put32_id (x : Skein) (d : Field8) (fs : List Nat) (v : Nat → BitVec 32) : (x.put32 d fs v).id = x.id := by
  unfold Skein.put32; split
  · rfl
  · cases fs <;> rfl
@[simp] theorem put64_id (x : Skein) (d : Field8) (fs : List Nat) (v : Nat → BitVec 64) : (x.put64 d fs v).id = x.id := by
  unfold Skein.put64; split
  · rfl
  · cases fs <;> rfl

/-! ### Predicates -/

@[simp] theorem setPred_id (f : Fibre) (p : BitVec 4) (v : Bool) : (f.setPred p v).id = f.id := by
  unfold Fibre.setPred; split <;> rfl
@[simp] theorem setPred_read (f : Fibre) (p : BitVec 4) (v : Bool) (n : Nat) : (f.setPred p v).read n = f.read n := by
  unfold Fibre.setPred; split <;> rfl

theorem pred_setPred_self (f : Fibre) (p : BitVec 4) (v : Bool) (h : p ≠ 15) : (f.setPred p v).pred p = v := by
  have hp : p.toNat < 16 := p.isLt
  unfold Fibre.setPred Fibre.pred
  rw [if_neg h]
  obtain ⟨z, ea⟩ : ∃ y, BitVec.ofNat 16 (2 ^ p.toNat) = y := ⟨_, rfl⟩
  simp only [ea]
  have ga : ∀ i, z.getLsbD i = (decide (i < 16) && decide (i = p.toNat)) := fun i => ea ▸ getLsbD_pow 16 p.toNat i
  cases v <;> simp [-BitVec.getLsbD_eq_getElem, ga, hp]
  simpa using h

theorem pred_setPred_ne (f : Fibre) (p q : BitVec 4) (v : Bool) (h : q ≠ p) : (f.setPred p v).pred q = f.pred q := by
  have hq : q.toNat < 16 := q.isLt
  have hne : q.toNat ≠ p.toNat := fun e => h (BitVec.eq_of_toNat_eq e)
  unfold Fibre.setPred Fibre.pred
  split
  · rfl
  · obtain ⟨z, ea⟩ : ∃ y, BitVec.ofNat 16 (2 ^ p.toNat) = y := ⟨_, rfl⟩
    simp only [ea]
    have ga : ∀ i, z.getLsbD i = (decide (i < 16) && decide (i = p.toNat)) := fun i => ea ▸ getLsbD_pow 16 p.toNat i
    cases v <;> simp [-BitVec.getLsbD_eq_getElem, ga, hne, hq]

end Sys2Proof.Machine
end

