-- ==== Sys2Proof/Laws/Compute.lean ====
section
/-! SUPPORT. Laws of computing instructions: what issueCompute leaves in the destinations, and what it leaves alone. -/
namespace Sys2Proof.Machine

/-! ### Traps -/

theorem fpTe_or (v : BitVec 64) (f : Flags) : fpTe (v ||| f.setWidth 64) = fpTe v := by
  unfold fpTe bits
  ext i hi
  have : f.getLsbD (8 + i) = false := BitVec.getLsbD_of_ge f _ (by omega)
  simp only [BitVec.getElem_extractLsb', BitVec.getLsbD_or, BitVec.getLsbD_setWidth, this, Bool.and_false, Bool.or_false]

theorem raise_skeins (s : State) (v c : Nat) (f : Flags) : (raise s v c f).skeins = s.skeins := by unfold raise; split <;> simp
theorem raise_mem (s : State) (v c : Nat) (f : Flags) : (raise s v c f).mem = s.mem := by unfold raise; split <;> simp
theorem raise_strands (s : State) (v c : Nat) (f : Flags) : (raise s v c f).strands = s.strands := by unfold raise; split <;> simp

theorem ctx?_raise (s : State) (v c : Nat) (f : Flags) :
    ctx? (raise s v c f) v c = (ctx? s v c).map (fun d => if f = 0 then d else { d with fpctl := d.fpctl ||| f.setWidth 64 }) := by
  unfold raise
  split
  · simp
  · rename_i h
    unfold ctx?
    rw [updCtx_ctxs, find?_updIf _ _ _ (fun a => by rfl)]
    cases hx : s.ctxs.find? (fun u => u.vd == v && u.num == c) with
    | none => rfl
    | some d =>
      have := List.find?_some hx
      simp at this
      simp [this]

/-! ### After the effect -/

theorem release_fibre? (x : Skein) (act regs : List Nat) (f : Nat) (y : Fibre) (h : x.fibre? f = some y) :
    ∃ z, (x.release act regs).fibre? f = some z ∧ z.id = y.id ∧ z.preds = y.preds ∧
      ∀ n, n < 192 → (n ∉ regs ∨ f ∉ act) → z.read n = y.read n := by
  unfold Skein.release
  split
  · exact ⟨y, h, rfl, rfl, fun _ _ _ => rfl⟩
  · have hid : y.id = f := fibre?_id x f y h
    refine ⟨if act.contains y.id then { y with rel := y.rel ||| regs.foldl (fun (m : BitVec 192) n => m ||| BitVec.ofNat 192 (2 ^ n)) 0 } else y, ?_, ?_, ?_, ?_⟩
    · simp only [Skein.fibre?] at h ⊢
      rw [fibre?_map _ _ (fun y => by split <;> rfl), h]; rfl
    · split <;> rfl
    · split <;> rfl
    · intro n hn hc
      have hm : ∀ (l : List Nat) (m : BitVec 192), n ∉ l →
          (l.foldl (fun (m : BitVec 192) n => m ||| BitVec.ofNat 192 (2 ^ n)) m).getLsbD n = m.getLsbD n := by
        intro l
        induction l with
        | nil => intros; rfl
        | cons a l ih =>
          intro m ha
          simp only [List.mem_cons, not_or] at ha
          rw [List.foldl_cons, ih _ ha.2, BitVec.getLsbD_or, getLsbD_pow]
          simp [ha.1]
      split
      · rename_i ha
        rcases hc with hc | hc
        · simp only [Fibre.read, Fibre.stale, BitVec.getLsbD_or, hm regs 0 hc]
          simp
        · exact absurd (by simpa [hid] using ha) hc
      · rfl

theorem release_g (x : Skein) (act regs : List Nat) : (x.release act regs).g = x.g := by unfold Skein.release; split <;> rfl
theorem release_id (x : Skein) (act regs : List Nat) : (x.release act regs).id = x.id := by unfold Skein.release; split <;> rfl

theorem used_id (x : Skein) (sh : Shape) (act : List Nat) (k : Nat) : (x.used sh act k).id = x.id := release_id _ _ _

/-- What afterUse leaves of the skein: registers released, nothing else that a program reads. -/
theorem afterUse_skein (sh : Shape) (e : Env) (s : State) (y : Skein) (h : skein? s e.x.id = some y) :
    ∃ z, skein? (afterUse sh e s) e.x.id = some z ∧ z.g = y.g ∧
      ∀ f d, y.fibre? f = some d → ∃ c, z.fibre? f = some c ∧ c.preds = d.preds ∧
        ∀ n, n < 192 → (n ∉ released sh ∨ f ∉ e.act) → c.read n = d.read n := by
  unfold afterUse
  split
  · exact ⟨y, h, rfl, fun f d hd => ⟨d, hd, rfl, fun _ _ _ => rfl⟩⟩
  · rw [skein?_updSkein_self _ _ _ (fun y => used_id y _ _ _), h]
    refine ⟨_, rfl, release_g _ _ _, ?_⟩
    intro f d hd
    obtain ⟨c, hc, _, hp, hr⟩ := release_fibre? y e.act (released sh) f d hd
    exact ⟨c, hc, hp, hr⟩

theorem afterUse_skein_ne (sh : Shape) (e : Env) (s : State) (k : Nat) (h : k ≠ e.x.id) : skein? (afterUse sh e s) k = skein? s k := by
  unfold afterUse
  split
  · rfl
  · exact skein?_updSkein_of_ne _ _ _ _ (fun y => used_id y _ _ _) h

theorem afterUse_mem (sh : Shape) (e : Env) (s : State) : (afterUse sh e s).mem = s.mem := by
  unfold afterUse; split <;> rfl
theorem afterUse_strands (sh : Shape) (e : Env) (s : State) : (afterUse sh e s).strands = s.strands := by
  unfold afterUse; split <;> rfl
theorem afterUse_ctxs (sh : Shape) (e : Env) (s : State) : (afterUse sh e s).ctxs = s.ctxs := by
  unfold afterUse; split <;> rfl

@[simp] theorem advanceStrand_mem (s : State) (k n : Nat) : (advanceStrand s k n).mem = s.mem := rfl
@[simp] theorem advanceStrand_ctxs (s : State) (k n : Nat) : (advanceStrand s k n).ctxs = s.ctxs := rfl
@[simp] theorem skein?_advanceStrand (s : State) (k n j : Nat) : skein? (advanceStrand s k n) j = skein? s j := rfl

/-! ### The destinations -/

/-- Predicates written one after another. -/
def predsOnto (ps : List (BitVec 4)) (b : Nat → Bool) (l : List Nat) (y : Fibre) : Fibre := l.foldl (fun y i => y.setPred (ps.getD i 15) (b i)) y

theorem predsOnto_id (ps : List (BitVec 4)) (b : Nat → Bool) (l : List Nat) : ∀ y : Fibre, (predsOnto ps b l y).id = y.id := by
  induction l with
  | nil => intro y; rfl
  | cons a l ih => intro y; exact (ih _).trans (setPred_id _ _ _)
theorem predsOnto_read (ps : List (BitVec 4)) (b : Nat → Bool) (n : Nat) (l : List Nat) : ∀ y : Fibre, (predsOnto ps b l y).read n = y.read n := by
  induction l with
  | nil => intro y; rfl
  | cons a l ih => intro y; exact (ih _).trans (setPred_read _ _ _ _)
theorem predsOnto_pred_ne (ps : List (BitVec 4)) (b : Nat → Bool) (q : BitVec 4) (l : List Nat) : ∀ y : Fibre,
    (∀ i ∈ l, ps.getD i 15 ≠ q) → (predsOnto ps b l y).pred q = y.pred q := by
  induction l with
  | nil => intro y _; rfl
  | cons a l ih =>
    intro y h
    exact (ih _ (fun i hi => h i (List.mem_cons_of_mem _ hi))).trans (pred_setPred_ne _ _ _ _ (Ne.symm (h a (List.mem_cons_self ..))))
/-- The predicate last written under a name holds its value. -/
theorem predsOnto_pred (ps : List (BitVec 4)) (b : Nat → Bool) (n : Nat) : ∀ (m lo : Nat) (y : Fibre), lo ≤ n → n < lo + m → ps.getD n 15 ≠ 15 →
    (∀ i, n < i → i < lo + m → ps.getD i 15 ≠ ps.getD n 15) → (predsOnto ps b (upTo lo m) y).pred (ps.getD n 15) = b n := by
  intro m
  induction m with
  | zero => intro lo y h1 h2; omega
  | succ m ih =>
    intro lo y h1 h2 h15 hd
    by_cases he : lo = n
    · subst he
      refine (predsOnto_pred_ne ps b _ (upTo (lo + 1) m) _ ?_).trans (pred_setPred_self _ _ _ h15)
      intro i hi
      rw [mem_upTo] at hi
      exact hd i (by omega) (by omega)
    · exact ih (lo + 1) _ (by omega) (by omega) h15 (fun i hi hl => hd i hi (by omega))

theorem putPreds_fibre? (x : Skein) (fs : List Nat) (v : Nat → List Bool) (ps : List (BitVec 4)) (f : Nat) :
    (x.putPreds fs v ps).fibre? f = (x.fibre? f).map (fun y =>
      if fs.contains y.id then predsOnto ps (fun i => (v y.id).getD i false) (upTo 0 ps.length) y else y) := by
  unfold Skein.putPreds
  cases hp : ps.isEmpty with
  | true =>
    have : ps = [] := List.isEmpty_iff.mp hp
    subst this
    simp [predsOnto, upTo]
  | false =>
    simp only [Bool.false_eq_true, if_false, Skein.fibre?]
    exact fibre?_map x.fibres (fun y => if fs.contains y.id then predsOnto ps (fun i => (v y.id).getD i false) (upTo 0 ps.length) y else y)
      (fun y => by split <;> simp [predsOnto_id]) f
theorem putPreds_g (x : Skein) (fs : List Nat) (v : Nat → List Bool) (ps : List (BitVec 4)) : (x.putPreds fs v ps).g = x.g := by
  unfold Skein.putPreds; split <;> rfl
@[simp] theorem putPreds_id (x : Skein) (fs : List Nat) (v : Nat → List Bool) (ps : List (BitVec 4)) : (x.putPreds fs v ps).id = x.id := by
  unfold Skein.putPreds; split <;> rfl

@[simp] theorem putWords_id (fs : List Nat) (v : Nat → List (BitVec 32)) (ws : List Wr) : ∀ (x : Skein) (n : Nat), (x.putWords fs v ws n).id = x.id := by
  induction ws with
  | nil => intro x n; rfl
  | cons a ws ih =>
    intro x n
    simp only [Skein.putWords, ih]
    split
    · simp
    · simp
    · rename_i m _
      have : ∀ (l : List Nat) (z : Skein), (l.foldl (fun z i => z.put32 (a.reg + BitVec.ofNat 8 i) fs (fun f => (v f).getD (n + i) 0)) z).id = z.id := by
        intro l
        induction l with
        | nil => intro z; rfl
        | cons b l ihl => intro z; rw [List.foldl_cons, ihl]; simp
      exact this _ _
@[simp] theorem putOuts_id (x : Skein) (sh : Shape) (fs : List Nat) (outs : List (Nat × FOut)) : (x.putOuts sh fs outs).id = x.id := by
  simp [Skein.putOuts]

/-- The result of a fibre in a list of results by fibre. -/
theorem outOf_map (g : Nat → FOut) (act : List Nat) (i : Nat) (h : i ∈ act) : outOf (act.map (fun j => (j, g j))) i = g i := by
  unfold outOf
  induction act with
  | nil => cases h
  | cons a l ih =>
    rw [List.map_cons, List.find?_cons]
    by_cases he : a = i
    · subst he; simp
    · have : i ∈ l := by cases h with
        | head => exact absurd rfl he
        | tail _ h => exact h
      simp only [beq_eq_false_iff_ne.mpr he]
      exact ih this

/-! ### A computing instruction -/

/-- The fibre whose sources a fibre's result comes from: on the scalar path the lead fibre (03 R75). -/
def whose (sh : Shape) (e : Env) (i : Nat) : Nat := if issueClass sh = 0 then e.lead else i
/-- The results of a computing instruction. -/
def computed (sh : Shape) (f : Env → Nat → FOut) (e : Env) : List (Nat × FOut) := e.act.map (fun i => (i, f e (whose sh e i)))

/-- The flags that a computing instruction raises. -/
def raisedBy (outs : List (Nat × FOut)) : Flags := outs.foldl (fun (acc : Flags) o => acc ||| o.2.flags) 0
/-- The state a computing instruction comes to when no arithmetic trap is taken. -/
def computedState (sh : Shape) (f : Env → Nat → FOut) (e : Env) (u : State) : State :=
  advanceStrand (afterUse sh e (raise (updSkein u e.x.id (fun x => x.putOuts sh e.act (computed sh f e))) e.x.vd e.x.ctx (raisedBy (computed sh f e))))
    e.t.id sh.len

/-- What a computing instruction comes to. -/
theorem compute_eq {sh : Shape} {s : State} {t : Strand} {x : Skein} {u : State} {y : Skein} {w : Strand} (h : Issues sh s t x u y w)
    (nt : sh.traps = true → NoTraps u x) (ra : Env → State → RaRes) (f : Env → Nat → FOut) :
    issue sh ra (compute sh f) s = .next (computedState sh f (issueEnv sh t x s) u) := by
  generalize he : issueEnv sh t x s = e
  have hex : e.x = x := by rw [← he]; rfl
  have hfl : compute sh f e u = .flags (updSkein u e.x.id (fun x => x.putOuts sh e.act (computed sh f e))) (raisedBy (computed sh f e))
      (keptFlags sh (computed sh f e) (raisedBy (computed sh f e))) := by
    unfold compute raisedBy computed whose
    cases hc : (issueClass sh == 0) <;> simp_all
  unfold computedState
  generalize keptFlags sh (computed sh f e) (raisedBy (computed sh f e)) = kept at *
  generalize raisedBy (computed sh f e) = fl at *
  have hn : trapsOn (advanceStrand (afterUse sh e (raise (updSkein u e.x.id (fun x => x.putOuts sh e.act (computed sh f e))) e.x.vd e.x.ctx fl)) e.t.id sh.len)
      e.x.vd e.x.ctx kept = false ∨ sh.traps = false := by
    cases ht : sh.traps with
    | false => exact .inr rfl
    | true =>
      refine .inl ?_
      have hq := nt ht
      unfold trapsOn ctx?
      rw [advanceStrand_ctxs, afterUse_ctxs]
      have := ctx?_raise (updSkein u e.x.id (fun x => x.putOuts sh e.act (computed sh f e))) e.x.vd e.x.ctx fl
      unfold ctx? at this
      rw [this, updSkein_ctxs]
      cases hc : u.ctxs.find? (fun c => c.vd == e.x.vd && c.num == e.x.ctx) with
      | none => rfl
      | some c =>
        have hz : fpTe c.fpctl = 0 := hq c (by unfold ctx?; rw [← hex]; exact hc)
        show (match Option.map (fun d : Ctx => if fl = 0 then d else { d with fpctl := d.fpctl ||| fl.setWidth 64 }) (some c) with
          | some c => kept &&& fpTe c.fpctl != 0
          | none => false) = false
        by_cases hf : fl = 0
        · rw [Option.map_some, if_pos hf]; simp [hz]
        · rw [Option.map_some, if_neg hf]; simp [fpTe_or, hz]
  rw [issue_of_issues h, he, hfl]
  unfold settle
  dsimp only
  rw [if_neg]
  rcases hn with hn | hn <;> simp [hn]

theorem computedState_mem (sh : Shape) (f : Env → Nat → FOut) (e : Env) (u : State) : (computedState sh f e u).mem = u.mem := by
  unfold computedState
  rw [advanceStrand_mem, afterUse_mem, raise_mem]; rfl

theorem computedState_skein_ne (sh : Shape) (f : Env → Nat → FOut) (e : Env) (u : State) (k : Nat) (hk : k ≠ e.x.id) :
    skein? (computedState sh f e u) k = skein? u k := by
  unfold computedState
  rw [skein?_advanceStrand, afterUse_skein_ne _ _ _ _ hk]
  unfold skein?
  rw [raise_skeins]
  exact skein?_updSkein_of_ne _ _ _ _ (fun y => putOuts_id _ _ _ _) hk

theorem computedState_skein (sh : Shape) (f : Env → Nat → FOut) (e : Env) (u : State) (y : Skein) (h : skein? u e.x.id = some y) :
    ∃ z, skein? (computedState sh f e u) e.x.id = some z ∧ z.g = (y.putOuts sh e.act (computed sh f e)).g ∧
      ∀ i d, (y.putOuts sh e.act (computed sh f e)).fibre? i = some d →
        ∃ c, z.fibre? i = some c ∧ c.preds = d.preds ∧ ∀ n, n < 192 → (n ∉ released sh ∨ i ∉ e.act) → c.read n = d.read n := by
  unfold computedState
  have h1 : skein? (updSkein u e.x.id (fun x => x.putOuts sh e.act (computed sh f e))) e.x.id = some (y.putOuts sh e.act (computed sh f e)) := by
    rw [skein?_updSkein_self _ _ _ (fun y => putOuts_id _ _ _ _), h]; rfl
  have hy : skein? (raise (updSkein u e.x.id (fun x => x.putOuts sh e.act (computed sh f e))) e.x.vd e.x.ctx (raisedBy (computed sh f e))) e.x.id =
      some (y.putOuts sh e.act (computed sh f e)) := by
    unfold skein? at h1 ⊢
    rw [raise_skeins]; exact h1
  exact afterUse_skein sh e _ _ hy

/-! ### Its destinations -/

theorem not_released (sh : Shape) (hl : sh.late = false) (n : Nat) (h : n ∈ vecRegs (sh.writes.map (fun w => (w.reg, w.wid)))) : n ∉ released sh := by
  unfold released
  simp only [hl, Bool.false_eq_true, if_false, List.mem_filter, not_and]
  intro _
  simpa using h

theorem whose_of_vector (sh : Shape) (e : Env) (i : Nat) (d : Field8) (wd : Wid) (hc : sh.cls ≠ 0) (hw : sh.writes = [{ reg := d, wid := wd }])
    (hd : d.toNat < 192) : whose sh e i = i := by
  unfold whose issueClass
  have : ¬(192 ≤ d.toNat) := by omega
  simp [hw, this, hc]

theorem putOuts_fibre? (x : Skein) (sh : Shape) (fs : List Nat) (outs : List (Nat × FOut)) (f : Nat) :
    (x.putOuts sh fs outs).fibre? f = ((x.putWords fs (fun f => (outOf outs f).words) sh.writes 0).fibre? f).map (fun y =>
      if fs.contains y.id then predsOnto sh.pdst (fun i => ((outOf outs y.id).preds).getD i false) (upTo 0 sh.pdst.length) y else y) :=
  putPreds_fibre? _ _ _ _ _
theorem putOuts_g (x : Skein) (sh : Shape) (fs : List Nat) (outs : List (Nat × FOut)) :
    (x.putOuts sh fs outs).g = (x.putWords fs (fun f => (outOf outs f).words) sh.writes 0).g := putPreds_g _ _ _ _

theorem vreg_of (s : State) (k f n : Nat) (x : Skein) (y : Fibre) (hx : skein? s k = some x) (hy : x.fibre? f = some y) : vreg s k f n = y.read n := by
  simp [vreg, hx, hy]
theorem greg_of (s : State) (k n : Nat) (x : Skein) (hx : skein? s k = some x) : greg s k n = mget x.g n := by simp [greg, hx]
theorem preg_of (s : State) (k f : Nat) (p : BitVec 4) (x : Skein) (y : Fibre) (hx : skein? s k = some x) (hy : x.fibre? f = some y) :
    preg s k f p = y.pred p := by simp [preg, hx, hy]

theorem lead_cons (e : Env) (h : e.act ≠ []) : ∃ l, e.act = e.lead :: l := by
  unfold Env.lead
  cases he : e.act with
  | nil => exact absurd he h
  | cons a l => exact ⟨l, by simp⟩

theorem whose_lead (sh : Shape) (e : Env) : whose sh e e.lead = e.lead := by unfold whose; split <;> rfl

/-- A fibre's registers after a computing instruction with one 32-bit destination. -/
theorem compute_one {sh : Shape} {s : State} {t : Strand} {x : Skein} {u : State} {y : Skein} {w : Strand} (h : Issues sh s t x u y w)
    (f : Env → Nat → FOut) (d : Field8) (hc : sh.cls ≠ 0) (hl : sh.late = false) (hw : sh.writes = [{ reg := d, wid := .one }]) (i : Nat)
    (hi : Writes (issueEnv sh t x s) d i) :
    Holds32 (computedState sh f (issueEnv sh t x s) u) x.id i d ((f (issueEnv sh t x s) i).words.getD 0 0) := by
  obtain ⟨e, he⟩ : ∃ e, e = issueEnv sh t x s := ⟨_, rfl⟩
  have hex : e.x = x := by rw [he]; rfl
  have hact : e.act ≠ [] := by rw [he]; exact h.active
  rw [← he] at hi ⊢
  obtain ⟨z, hz, hg, hr⟩ := computedState_skein sh f e u y (by rw [hex]; exact h.skeinNow)
  rw [hex] at hz
  unfold Holds32
  by_cases hd : d.toNat < 192
  · rw [if_pos hd]
    have hfib : (y.fibre? i).isSome = true := h.fibres i (by have := hi.1; rw [he] at this; exact this)
    obtain ⟨q, hq⟩ := Option.isSome_iff_exists.mp hfib
    have hput : (y.putOuts sh e.act (computed sh f e)).fibre? i = some (predsOnto sh.pdst (fun j => ((outOf (computed sh f e) i).preds).getD j false)
        (upTo 0 sh.pdst.length) (q.write d.toNat ((f e i).words.getD 0 0))) := by
      have hid : q.id = i := fibre?_id _ _ _ hq
      rw [putOuts_fibre?, hw]
      simp only [Skein.putWords]
      rw [put32_fibre? _ _ _ _ _ hd, hq]
      have hc1 : e.act.contains i = true := by simpa using hi.1
      simp only [Option.map_some, hid, hc1, if_true, write_id, computed, outOf_map _ _ _ hi.1, whose_of_vector sh e i d .one hc hw hd]
    obtain ⟨c, hc1, _, hread⟩ := hr i _ hput
    have hnr : d.toNat ∉ released sh := not_released sh hl _ (by simp [hw, vecRegs, hd, Wid.len, upTo])
    rw [vreg_of _ _ _ _ _ _ hz hc1, hread _ hd (.inl hnr), predsOnto_read, read_write_self _ _ _ hd]
  · rw [if_neg hd, greg_of _ _ _ _ hz, hg, putOuts_g, hw]
    simp only [Skein.putWords]
    have hlead : i = e.lead := by rcases hi.2 with h1 | h1; exact absurd h1 hd; exact h1
    obtain ⟨l, hcons⟩ := lead_cons e hact
    rw [hcons, put32_g _ _ _ _ _ _ hd, if_pos rfl, hlead]
    rw [computed, outOf_map _ _ _ (by rw [hcons]; exact List.mem_cons_self ..), whose_lead]

theorem wide_pair (sh : Shape) (p : Privilege) (t : Strand) (x : Skein) (d : Field8) (hw : sh.writes = [{ reg := d, wid := .two }]) (hd : d.toNat < 192)
    (h : decodeCheck sh p t x = none) : d.toNat + 1 < 192 := by
  unfold decodeCheck at h
  dsimp only at h
  split at h
  · cases h
  · split at h
    · cases h
    · split at h
      · cases h
      · rename_i hp
        have : ¬(d.toNat % 2 = 1) := by
          intro hodd
          apply hp
          simp [pairBad, hw, hd, hodd]
        omega

/-- A fibre's registers after a computing instruction with one 64-bit destination. -/
theorem compute_two {sh : Shape} {s : State} {t : Strand} {x : Skein} {u : State} {y : Skein} {w : Strand} (h : Issues sh s t x u y w)
    (f : Env → Nat → FOut) (d : Field8) (hc : sh.cls ≠ 0) (hl : sh.late = false) (hw : sh.writes = [{ reg := d, wid := .two }]) (i : Nat)
    (hi : Writes (issueEnv sh t x s) d i) (v : BitVec 64)
    (hv : (f (issueEnv sh t x s) i).words.getD 1 0 ++ (f (issueEnv sh t x s) i).words.getD 0 0 = v) :
    Holds64 (computedState sh f (issueEnv sh t x s) u) x.id i d v := by
  obtain ⟨e, he⟩ : ∃ e, e = issueEnv sh t x s := ⟨_, rfl⟩
  have hex : e.x = x := by rw [he]; rfl
  have hact : e.act ≠ [] := by rw [he]; exact h.active
  rw [← he] at hi hv ⊢
  obtain ⟨z, hz, hg, hr⟩ := computedState_skein sh f e u y (by rw [hex]; exact h.skeinNow)
  rw [hex] at hz
  unfold Holds64
  by_cases hd : d.toNat < 192
  · rw [if_pos hd]
    have hd1 := wide_pair sh _ t x d hw hd h.legal
    have hfib : (y.fibre? i).isSome = true := h.fibres i (by have := hi.1; rw [he] at this; exact this)
    obtain ⟨q, hq⟩ := Option.isSome_iff_exists.mp hfib
    have hput : (y.putOuts sh e.act (computed sh f e)).fibre? i = some (predsOnto sh.pdst (fun j => ((outOf (computed sh f e) i).preds).getD j false)
        (upTo 0 sh.pdst.length) ((q.write d.toNat (bits v 0 32)).write (d.toNat + 1) (bits v 32 32))) := by
      have hid : q.id = i := fibre?_id _ _ _ hq
      rw [putOuts_fibre?, hw]
      simp only [Skein.putWords]
      rw [put64_fibre? _ _ _ _ _ hd, hq]
      have hc1 : e.act.contains i = true := by simpa using hi.1
      simp only [Option.map_some, hid, hc1, if_true, write_id, computed, outOf_map _ _ _ hi.1, whose_of_vector sh e i d .two hc hw hd, Nat.zero_add, hv]
    obtain ⟨c, hc1, _, hread⟩ := hr i _ hput
    have hnr : d.toNat ∉ released sh ∧ d.toNat + 1 ∉ released sh :=
      ⟨not_released sh hl _ (by simp [hw, vecRegs, hd, Wid.len, upTo]), not_released sh hl _ (by simp [hw, vecRegs, hd, Wid.len, upTo])⟩
    rw [vreg_of _ _ _ _ _ _ hz hc1, vreg_of _ _ _ _ _ _ hz hc1, hread _ hd (.inl hnr.1), hread _ hd1 (.inl hnr.2), predsOnto_read, predsOnto_read,
      read_write_self _ _ _ hd1, read_write_ne _ _ _ _ hd (by omega), read_write_self _ _ _ hd]
    exact ⟨rfl, rfl⟩
  · rw [if_neg hd, greg_of _ _ _ _ hz, hg, putOuts_g, hw]
    simp only [Skein.putWords]
    have hlead : i = e.lead := by rcases hi.2 with h1 | h1; exact absurd h1 hd; exact h1
    obtain ⟨l, hcons⟩ := lead_cons e hact
    rw [hcons, put64_g _ _ _ _ _ _ hd, if_pos rfl]
    rw [computed, outOf_map _ _ _ (by rw [hcons]; exact List.mem_cons_self ..), whose_lead, ← hlead, hv]

theorem bits_join (v : BitVec 64) : (bits v 32 32 : BitVec 32) ++ (bits v 0 32 : BitVec 32) = v := by
  unfold bits
  ext i hi
  simp only [BitVec.getElem_append]
  by_cases h : i < 32
  · simp [h]; rfl
  · have h1 : 32 + (i - 32) = i := by omega
    simp [h, h1]; rfl

/-- A computing instruction whose one destination takes an integer of a type. -/
theorem compute_int {sh : Shape} {s : State} {t : Strand} {x : Skein} {u : State} {y : Skein} {w : Strand} (h : Issues sh s t x u y w)
    (f : Env → Nat → FOut) (d : Field8) (ty : IntTy) (v : Int) (hc : sh.cls ≠ 0) (hl : sh.late = false)
    (hw : sh.writes = [{ reg := d, wid := tyWid ty }]) (i : Nat) (hi : Writes (issueEnv sh t x s) d i)
    (hf : (f (issueEnv sh t x s) i).words = (outInt ty v).words) : HoldsInt (computedState sh f (issueEnv sh t x s) u) x.id i d ty v := by
  unfold HoldsInt
  by_cases hty : ty.wide = true
  · rw [if_pos hty]
    refine compute_two h f d hc hl (by rw [hw]; simp [tyWid, hty]) i hi _ ?_
    rw [hf]
    simp only [outInt, hty, if_true, FOut.w64, List.getD_cons_succ, List.getD_cons_zero]
    exact bits_join _
  · rw [if_neg hty]
    have := compute_one h f d hc hl (by rw [hw]; simp [tyWid, hty]) i hi
    rw [hf] at this
    simpa [outInt, hty, FOut.w32] using this

/-- A computing instruction whose one destination takes a 64-bit value. -/
theorem compute_w64 {sh : Shape} {s : State} {t : Strand} {x : Skein} {u : State} {y : Skein} {w : Strand} (h : Issues sh s t x u y w)
    (f : Env → Nat → FOut) (d : Field8) (v : BitVec 64) (hc : sh.cls ≠ 0) (hl : sh.late = false) (hw : sh.writes = [{ reg := d, wid := .two }]) (i : Nat)
    (hi : Writes (issueEnv sh t x s) d i) (hf : (f (issueEnv sh t x s) i).words = (FOut.w64 v).words) :
    Holds64 (computedState sh f (issueEnv sh t x s) u) x.id i d v := by
  refine compute_two h f d hc hl hw i hi _ ?_
  rw [hf]
  exact bits_join _

/-- The flags that a computing instruction raises are ORed into its context's FLAGS. -/
theorem computedState_flags (sh : Shape) (f : Env → Nat → FOut) (e : Env) (u : State) :
    FlagsRaised e.x u (computedState sh f e u) (raisedBy (computed sh f e)) := by
  intro c hc
  unfold computedState
  unfold ctx?
  rw [advanceStrand_ctxs, afterUse_ctxs]
  have := ctx?_raise (updSkein u e.x.id (fun x => x.putOuts sh e.act (computed sh f e))) e.x.vd e.x.ctx (raisedBy (computed sh f e))
  unfold ctx? at this hc
  rw [this, updSkein_ctxs, hc]
  simp only [Option.map_some]
  split
  · rename_i h0
    rw [h0]
    simp
  · rfl

theorem issueClass_eq (sh : Shape) (h : sh.cls ≠ 1) : issueClass sh = sh.cls := by
  unfold issueClass
  rw [if_neg]
  intro hh; exact h hh.1
theorem whose_eq (sh : Shape) (e : Env) (i : Nat) (h : issueClass sh ≠ 0) : whose sh e i = i := if_neg h
theorem raisedBy_computed (sh : Shape) (f : Env → Nat → FOut) (e : Env) (h : issueClass sh ≠ 0) :
    raisedBy (computed sh f e) = orFlags e.act (fun i => (f e i).flags) := by
  unfold raisedBy computed orFlags
  rw [List.foldl_map]
  simp only [whose_eq sh e _ h]

/-! ### Registers that a result does not name -/

theorem put32_read (x : Skein) (d : Field8) (fs : List Nat) (v : Nat → BitVec 32) (f n : Nat) (hn : n < 192) (h : d.toNat = n → f ∉ fs) :
    ((x.put32 d fs v).fibre? f).map (fun y => y.read n) = (x.fibre? f).map (fun y => y.read n) := by
  by_cases hd : d.toNat < 192
  · rw [put32_fibre? _ _ _ _ _ hd]
    cases hy : x.fibre? f with
    | none => rfl
    | some y =>
      have hid := fibre?_id _ _ _ hy
      simp only [Option.map_some, hid]
      by_cases hc : f ∈ fs
      · have hne : n ≠ d.toNat := fun e => h e.symm hc
        simp only [List.contains_eq_mem, hc, decide_true, if_true]
        rw [read_write_ne _ _ _ _ hn hne]
      · simp [hc]
  · unfold Skein.fibre?
    rw [put32_fibres_uniform _ _ _ _ hd]
theorem put64_read (x : Skein) (d : Field8) (fs : List Nat) (v : Nat → BitVec 64) (f n : Nat) (hn : n < 192)
    (h : d.toNat = n ∨ d.toNat + 1 = n → f ∉ fs) :
    ((x.put64 d fs v).fibre? f).map (fun y => y.read n) = (x.fibre? f).map (fun y => y.read n) := by
  by_cases hd : d.toNat < 192
  · rw [put64_fibre? _ _ _ _ _ hd]
    cases hy : x.fibre? f with
    | none => rfl
    | some y =>
      have hid := fibre?_id _ _ _ hy
      simp only [Option.map_some, hid]
      by_cases hc : f ∈ fs
      · have hne : n ≠ d.toNat := fun e => h (.inl e.symm) hc
        have hne1 : n ≠ d.toNat + 1 := fun e => h (.inr e.symm) hc
        simp only [List.contains_eq_mem, hc, decide_true, if_true]
        rw [read_write_ne _ _ _ _ hn hne1, read_write_ne _ _ _ _ hn hne]
      · simp [hc]
  · unfold Skein.fibre?
    rw [put64_fibres_uniform _ _ _ _ hd]

theorem put32_preds (x : Skein) (d : Field8) (fs : List Nat) (v : Nat → BitVec 32) (f : Nat) :
    ((x.put32 d fs v).fibre? f).map Fibre.preds = (x.fibre? f).map Fibre.preds := by
  by_cases hd : d.toNat < 192
  · rw [put32_fibre? _ _ _ _ _ hd, Option.map_map]
    congr 1
    funext y
    simp only [Function.comp]
    split <;> simp
  · unfold Skein.fibre?
    rw [put32_fibres_uniform _ _ _ _ hd]
theorem put64_preds (x : Skein) (d : Field8) (fs : List Nat) (v : Nat → BitVec 64) (f : Nat) :
    ((x.put64 d fs v).fibre? f).map Fibre.preds = (x.fibre? f).map Fibre.preds := by
  by_cases hd : d.toNat < 192
  · rw [put64_fibre? _ _ _ _ _ hd, Option.map_map]
    congr 1
    funext y
    simp only [Function.comp]
    split <;> simp
  · unfold Skein.fibre?
    rw [put64_fibres_uniform _ _ _ _ hd]

theorem put32_g_other (x : Skein) (d : Field8) (fs : List Nat) (v : Nat → BitVec 32) (n : Nat) (h : d.toNat ≠ n + 192) :
    mget (x.put32 d fs v).g n = mget x.g n := by
  by_cases hd : d.toNat < 192
  · rw [put32_g_vector _ _ _ _ hd]
  · cases fs with
    | nil => unfold Skein.put32; rw [if_neg hd]
    | cons a l => rw [put32_g _ _ _ _ _ _ hd, if_neg (by omega)]
theorem put64_g_other (x : Skein) (d : Field8) (fs : List Nat) (v : Nat → BitVec 64) (n : Nat) (h : d.toNat ≠ n + 192) :
    mget (x.put64 d fs v).g n = mget x.g n := by
  by_cases hd : d.toNat < 192
  · rw [put64_g_vector _ _ _ _ hd]
  · cases fs with
    | nil => unfold Skein.put64; rw [if_neg hd]
    | cons a l => rw [put64_g _ _ _ _ _ _ hd, if_neg (by omega)]

/-- The runs among destinations lie below v192. -/
def RunsLow (ws : List Wr) : Prop := ∀ w ∈ ws, ∀ m, w.wid = .run m → w.reg.toNat + m ≤ 192

theorem runsLow_of_legal (sh : Shape) (p : Privilege) (t : Strand) (x : Skein) (h : decodeCheck sh p t x = none) : RunsLow sh.writes := by
  unfold decodeCheck at h
  dsimp only at h
  split at h
  · cases h
  · split at h
    · cases h
    · split at h
      · cases h
      · split at h
        · cases h
        · rename_i hw
          intro w hm m he
          simp only [Bool.or_eq_true, not_or, windowBad, List.any_eq_true, not_exists, not_and] at hw
          have := hw.1 (w.reg, w.wid) (by simp only [List.mem_append, List.mem_map]; exact .inr ⟨w, hm, rfl⟩)
          simp only [he, decide_eq_true_eq] at this
          have hm : Nat.min x.w 192 ≤ 192 := Nat.min_le_right x.w 192
          omega

theorem run_reg (d : Field8) (m i : Nat) (h : d.toNat + m ≤ 192) (hi : i < m) : (d + BitVec.ofNat 8 i).toNat = d.toNat + i := by
  simp only [BitVec.toNat_add, BitVec.toNat_ofNat]
  omega

/-- A property of skeins that every single result keeps, all results keep. -/
theorem putWords_keeps (P : Skein → Prop) (fs : List Nat) (v : Nat → List (BitVec 32)) (ws : List Wr) (low : RunsLow ws)
    (one : ∀ x d val, P x → (∃ w ∈ ws, w.wid = .one ∧ w.reg = d ∨ (∃ m i, w.wid = .run m ∧ i < m ∧ d = w.reg + BitVec.ofNat 8 i)) → P (x.put32 d fs val))
    (two : ∀ x d val, P x → (∃ w ∈ ws, w.wid = .two ∧ w.reg = d) → P (x.put64 d fs val)) :
    ∀ (x : Skein) (n : Nat), P x → P (x.putWords fs v ws n) := by
  induction ws with
  | nil => intro x n h; exact h
  | cons a l ih =>
    intro x n h
    have low' : RunsLow l := fun w hw => low w (List.mem_cons_of_mem _ hw)
    refine ih low' (fun x d val hx hw => one x d val hx ?_) (fun x d val hx hw => two x d val hx ?_) _ _ ?_
    · obtain ⟨w, hm, hr⟩ := hw; exact ⟨w, List.mem_cons_of_mem _ hm, hr⟩
    · obtain ⟨w, hm, hr⟩ := hw; exact ⟨w, List.mem_cons_of_mem _ hm, hr⟩
    · cases hwid : a.wid with
      | one => exact one _ _ _ h ⟨a, List.mem_cons_self .., .inl ⟨hwid, rfl⟩⟩
      | two => exact two _ _ _ h ⟨a, List.mem_cons_self .., hwid, rfl⟩
      | run m =>
        have : ∀ (k : List Nat), (∀ i ∈ k, i < m) → ∀ z, P z →
            P (k.foldl (fun z i => z.put32 (a.reg + BitVec.ofNat 8 i) fs (fun f => (v f).getD (n + i) 0)) z) := by
          intro k
          induction k with
          | nil => intro _ z hz; exact hz
          | cons b k ihk =>
            intro hk z hz
            rw [List.foldl_cons]
            exact ihk (fun i hi => hk i (List.mem_cons_of_mem _ hi)) _
              (one _ _ _ hz ⟨a, List.mem_cons_self .., .inr ⟨m, b, hwid, hk b (List.mem_cons_self ..), rfl⟩⟩)
        exact this _ (fun i hi => by rw [mem_upTo] at hi; omega) x h

theorem mem_vecRegs (ws : List Wr) (w : Wr) (hw : w ∈ ws) (n : Nat) (h192 : w.reg.toNat < 192) (h1 : w.reg.toNat ≤ n) (h2 : n < w.reg.toNat + w.wid.len) :
    n ∈ vecRegs (ws.map (fun w => (w.reg, w.wid))) := by
  simp only [vecRegs, List.mem_flatMap, List.mem_map]
  exact ⟨(w.reg, w.wid), ⟨w, hw, rfl⟩, by rw [if_pos h192, mem_upTo]; exact ⟨h1, h2⟩⟩

theorem putWords_read (x : Skein) (fs : List Nat) (v : Nat → List (BitVec 32)) (ws : List Wr) (k f n : Nat) (hn : n < 192) (low : RunsLow ws)
    (h : n ∉ vecRegs (ws.map (fun w => (w.reg, w.wid))) ∨ f ∉ fs) :
    ((x.putWords fs v ws k).fibre? f).map (fun y => y.read n) = (x.fibre? f).map (fun y => y.read n) := by
  refine putWords_keeps (fun z => (z.fibre? f).map (fun y => y.read n) = (x.fibre? f).map (fun y => y.read n)) fs v ws low ?_ ?_ x k rfl
  · intro z d val hz hw
    refine (put32_read z d fs val f n hn ?_).trans hz
    intro hd hf
    rcases h with h | h
    · apply h
      obtain ⟨w, hm, ⟨h1, h2⟩ | ⟨m, i, h1, h2, h3⟩⟩ := hw
      · exact mem_vecRegs ws w hm n (by rw [h2]; omega) (by rw [h2]; omega) (by rw [h1, h2]; simp [Wid.len]; omega)
      · have hl := low w hm m h1
        have := run_reg w.reg m i hl h2
        rw [← h3] at this
        exact mem_vecRegs ws w hm n (by omega) (by omega) (by rw [h1]; simp [Wid.len]; omega)
    · exact h hf
  · intro z d val hz hw
    refine (put64_read z d fs val f n hn ?_).trans hz
    intro hd hf
    rcases h with h | h
    · apply h
      obtain ⟨w, hm, h1, h2⟩ := hw
      exact mem_vecRegs ws w hm n (by rw [h2]; omega) (by rw [h2]; omega) (by rw [h1, h2]; simp [Wid.len]; omega)
    · exact h hf

theorem putWords_preds (x : Skein) (fs : List Nat) (v : Nat → List (BitVec 32)) (ws : List Wr) (k f : Nat) (low : RunsLow ws) :
    ((x.putWords fs v ws k).fibre? f).map Fibre.preds = (x.fibre? f).map Fibre.preds :=
  putWords_keeps (fun z => (z.fibre? f).map Fibre.preds = (x.fibre? f).map Fibre.preds) fs v ws low
    (fun z d val hz _ => (put32_preds z d fs val f).trans hz) (fun z d val hz _ => (put64_preds z d fs val f).trans hz) x k rfl

theorem putWords_g (x : Skein) (fs : List Nat) (v : Nat → List (BitVec 32)) (ws : List Wr) (k n : Nat) (low : RunsLow ws)
    (h : ∀ w ∈ ws, w.reg.toNat ≠ n + 192) : mget (x.putWords fs v ws k).g n = mget x.g n := by
  refine putWords_keeps (fun z => mget z.g n = mget x.g n) fs v ws low ?_ ?_ x k rfl
  · intro z d val hz hw
    refine (put32_g_other z d fs val n ?_).trans hz
    obtain ⟨w, hm, ⟨h1, h2⟩ | ⟨m, i, h1, h2, h3⟩⟩ := hw
    · rw [← h2]; exact h w hm
    · have hl := low w hm m h1
      have := run_reg w.reg m i hl h2
      rw [← h3] at this
      omega
  · intro z d val hz hw
    obtain ⟨w, hm, h1, h2⟩ := hw
    exact (put64_g_other z d fs val n (by rw [← h2]; exact h w hm)).trans hz

theorem putWords_isSome (x : Skein) (fs : List Nat) (v : Nat → List (BitVec 32)) (ws : List Wr) (k f : Nat) (low : RunsLow ws) :
    ((x.putWords fs v ws k).fibre? f).isSome = (x.fibre? f).isSome := by
  have := congrArg Option.isSome (putWords_preds x fs v ws k f low)
  simpa using this

/-! ### Its predicates -/

/-- A predicate after a computing instruction that writes it last in its place of the list. -/
theorem compute_pred {sh : Shape} {s : State} {t : Strand} {x : Skein} {u : State} {y : Skein} {w : Strand} (h : Issues sh s t x u y w)
    (f : Env → Nat → FOut) (i : Nat) (hi : i ∈ (issueEnv sh t x s).act) (n : Nat) (hn : n < sh.pdst.length) (h15 : sh.pdst.getD n 15 ≠ 15)
    (hlast : ∀ j, n < j → j < sh.pdst.length → sh.pdst.getD j 15 ≠ sh.pdst.getD n 15) :
    preg (computedState sh f (issueEnv sh t x s) u) x.id i (sh.pdst.getD n 15) =
      ((f (issueEnv sh t x s) (whose sh (issueEnv sh t x s) i)).preds).getD n false := by
  obtain ⟨e, he⟩ : ∃ e, e = issueEnv sh t x s := ⟨_, rfl⟩
  have hex : e.x = x := by rw [he]; rfl
  rw [← he] at hi ⊢
  obtain ⟨z, hz, _, hr⟩ := computedState_skein sh f e u y (by rw [hex]; exact h.skeinNow)
  rw [hex] at hz
  have hfib : (y.fibre? i).isSome = true := h.fibres i (by have := hi; rw [he] at this; exact this)
  have hput := putOuts_fibre? y sh e.act (computed sh f e) i
  cases hq : (y.putWords e.act (fun f_1 => (outOf (computed sh f e) f_1).words) sh.writes 0).fibre? i with
  | none =>
    exfalso
    have := putWords_isSome y e.act (fun f_1 => (outOf (computed sh f e) f_1).words) sh.writes 0 i (runsLow_of_legal _ _ _ _ h.legal)
    rw [hq, hfib] at this
    cases this
  | some q =>
    rw [hq] at hput
    have hid : q.id = i := fibre?_id _ _ _ hq
    have hc1 : e.act.contains i = true := by simpa using hi
    simp only [Option.map_some, hid, hc1, if_true, computed, outOf_map _ _ _ hi] at hput
    obtain ⟨c, hc2, hp, _⟩ := hr i _ hput
    rw [preg_of _ _ _ _ _ _ hz hc2]
    have hpred : ∀ (a b : Fibre) (p : BitVec 4), a.preds = b.preds → a.pred p = b.pred p := by
      intro a b p hab; unfold Fibre.pred; rw [hab]
    rw [hpred _ _ _ hp]
    exact predsOnto_pred _ _ n _ 0 q (by omega) (by omega) h15 (fun j hj hl => hlast j hj (by omega))

/-! ### What it leaves alone -/

theorem vreg_map (s : State) (k f n : Nat) (x : Skein) (h : skein? s k = some x) : vreg s k f n = ((x.fibre? f).map (fun y => y.read n)).getD 0 := by
  unfold vreg; rw [h]; dsimp only; cases x.fibre? f <;> rfl
theorem preg_map (s : State) (k f : Nat) (q : BitVec 4) (x : Skein) (h : skein? s k = some x) :
    preg s k f q = match (x.fibre? f).map Fibre.preds with | some v => (q == 15 || v.getLsbD q.toNat) | none => q == 15 := by
  unfold preg; rw [h]; dsimp only; cases x.fibre? f <;> rfl

theorem release_read (x : Skein) (act regs : List Nat) (f n : Nat) (hn : n < 192) (h : n ∉ regs ∨ f ∉ act) :
    ((x.release act regs).fibre? f).map (fun y => y.read n) = (x.fibre? f).map (fun y => y.read n) := by
  cases hy : x.fibre? f with
  | some y =>
    obtain ⟨z, hz, _, _, hr⟩ := release_fibre? x act regs f y hy
    rw [hz]
    simp [hr n hn h]
  | none =>
    have : (x.release act regs).fibre? f = none := by
      unfold Skein.release
      split
      · exact hy
      · simp only [Skein.fibre?] at hy ⊢
        rw [fibre?_map _ _ (fun y => by split <;> rfl), hy]; rfl
    rw [this]
theorem release_preds (x : Skein) (act regs : List Nat) (f : Nat) : ((x.release act regs).fibre? f).map Fibre.preds = (x.fibre? f).map Fibre.preds := by
  unfold Skein.release
  split
  · rfl
  · simp only [Skein.fibre?]
    rw [fibre?_map _ _ (fun y => by split <;> rfl), Option.map_map]
    congr 1
    funext y
    simp only [Function.comp]
    split <;> rfl

/-- The skein after a computing instruction: its results, then its marked sources released. -/
theorem computedState_skein_eq (sh : Shape) (f : Env → Nat → FOut) (e : Env) (u : State) (y : Skein) (h : skein? u e.x.id = some y) :
    ∃ z, skein? (computedState sh f e u) e.x.id = some z ∧ z.g = (y.putOuts sh e.act (computed sh f e)).g ∧
      ∀ i, (z.fibre? i).map Fibre.preds = ((y.putOuts sh e.act (computed sh f e)).fibre? i).map Fibre.preds ∧
        ∀ n, n < 192 → (n ∉ markedRegs sh ∨ i ∉ e.act) →
          (z.fibre? i).map (fun c => c.read n) = ((y.putOuts sh e.act (computed sh f e)).fibre? i).map (fun c => c.read n) := by
  unfold computedState
  have h1 : skein? (updSkein u e.x.id (fun x => x.putOuts sh e.act (computed sh f e))) e.x.id = some (y.putOuts sh e.act (computed sh f e)) := by
    rw [skein?_updSkein_self _ _ _ (fun y => putOuts_id _ _ _ _), h]; rfl
  have hy : skein? (raise (updSkein u e.x.id (fun x => x.putOuts sh e.act (computed sh f e))) e.x.vd e.x.ctx (raisedBy (computed sh f e))) e.x.id =
      some (y.putOuts sh e.act (computed sh f e)) := by
    unfold skein? at h1 ⊢
    rw [raise_skeins]; exact h1
  rw [skein?_advanceStrand]
  unfold afterUse
  split
  · exact ⟨_, hy, rfl, fun i => ⟨rfl, fun n _ _ => rfl⟩⟩
  · rw [skein?_updSkein_self _ _ _ (fun y => used_id y _ _ _), hy]
    refine ⟨_, rfl, release_g _ _ _, fun i => ⟨release_preds _ _ _ _, fun n hn hm => release_read _ _ _ _ _ hn ?_⟩⟩
    rcases hm with hm | hm
    · left
      intro hr
      exact hm (List.mem_filter.mp hr).1
    · exact .inr hm

/-- What a computing instruction leaves of its skein: registers that it neither writes nor marks, uniform registers and predicates that it does not
write. -/
theorem computedState_frame {sh : Shape} {s : State} {t : Strand} {x : Skein} {u : State} {y : Skein} {w : Strand} (h : Issues sh s t x u y w)
    (f : Env → Nat → FOut) :
    (∀ i n, n < 192 → (n ∉ vecRegs (sh.writes.map (fun w => (w.reg, w.wid))) ∨ i ∉ (issueEnv sh t x s).act) →
      (n ∉ markedRegs sh ∨ i ∉ (issueEnv sh t x s).act) → vreg (computedState sh f (issueEnv sh t x s) u) x.id i n = vreg u x.id i n) ∧
    (∀ n, (∀ w ∈ sh.writes, w.reg.toNat ≠ n + 192) → greg (computedState sh f (issueEnv sh t x s) u) x.id n = greg u x.id n) ∧
    (∀ i q, (q ∉ sh.pdst ∨ i ∉ (issueEnv sh t x s).act) → preg (computedState sh f (issueEnv sh t x s) u) x.id i q = preg u x.id i q) := by
  obtain ⟨e, he⟩ : ∃ e, e = issueEnv sh t x s := ⟨_, rfl⟩
  have hex : e.x = x := by rw [he]; rfl
  rw [← he]
  have low := runsLow_of_legal _ _ _ _ h.legal
  obtain ⟨z, hz, hg, hr⟩ := computedState_skein_eq sh f e u y (by rw [hex]; exact h.skeinNow)
  rw [hex] at hz
  refine ⟨?_, ?_, ?_⟩
  · intro i n hn hw hm
    rw [vreg_map _ _ _ _ _ hz, vreg_map _ _ _ _ _ h.skeinNow, (hr i).2 n hn hm, putOuts_fibre?, Option.map_map,
      ← putWords_read y e.act (fun f_1 => (outOf (computed sh f e) f_1).words) sh.writes 0 i n hn low hw]
    congr 2
    funext c
    simp only [Function.comp]
    split
    · exact predsOnto_read _ _ _ _ _
    · rfl
  · intro n hw
    rw [greg_of _ _ _ _ hz, greg_of _ _ _ _ h.skeinNow, hg, putOuts_g, putWords_g _ _ _ _ _ _ low hw]
  · intro i q hq
    rw [preg_map _ _ _ _ _ hz, preg_map _ _ _ _ _ h.skeinNow, (hr i).1, putOuts_fibre?, Option.map_map,
      ← putWords_preds y e.act (fun f_1 => (outOf (computed sh f e) f_1).words) sh.writes 0 i low]
    cases hc : (y.putWords e.act (fun f_1 => (outOf (computed sh f e) f_1).words) sh.writes 0).fibre? i with
    | none => rfl
    | some c =>
      have hid := fibre?_id _ _ _ hc
      simp only [Option.map_some, Function.comp, hid]
      split
      · rename_i hin
        have hq' : q ∉ sh.pdst := by
          rcases hq with hq | hq
          · exact hq
          · exact absurd (by simpa using hin) hq
        have := predsOnto_pred_ne sh.pdst (fun j => ((outOf (computed sh f e) i).preds).getD j false) q (upTo 0 sh.pdst.length) c (by
          intro j hj heq
          rw [mem_upTo] at hj
          apply hq'
          rw [← heq, List.getD_eq_getElem?_getD, List.getElem?_eq_getElem (by omega)]
          exact List.getElem_mem _)
        exact this
      · rfl

end Sys2Proof.Machine
end

