-- ==== Sys2Proof/Laws/Delivery.lean ====
section
/-! SUPPORT. Laws of operand delivery: charging an issue, moving register lines and translating for them change no register, no predicate and no
place of a strand, while no strand is in runahead. -/
namespace Sys2Proof.Machine

/-- A skein but for its register-line directory, the lines ever written and operand caches; a strand but for its wait and its place in the active set. -/
def Skein.bare (x : Skein) : Skein := { x with lines := [], written := [], opc := [] }
def Strand.bare (t : Strand) : Strand := { t with wait := none, active := false }

/-- The states hold the same skeins and strands, but for those. -/
structure Alike (s u : State) : Prop where
  skeins : u.skeins.map Skein.bare = s.skeins.map Skein.bare
  strands : u.strands.map Strand.bare = s.strands.map Strand.bare

theorem Alike.refl (s : State) : Alike s s := ⟨rfl, rfl⟩
theorem Alike.trans {s u v : State} (h : Alike s u) (k : Alike u v) : Alike s v := ⟨k.skeins.trans h.skeins, k.strands.trans h.strands⟩
/-- An update of neither skeins nor strands. -/
theorem Alike.of_eq {s u : State} (h : u.skeins = s.skeins) (k : u.strands = s.strands) : Alike s u := ⟨by rw [h], by rw [k]⟩

theorem NoEpisode.alike {s u : State} (h : NoEpisode s) (a : Alike s u) : NoEpisode u := by
  intro t ht
  have : t.bare ∈ s.strands.map Strand.bare := by rw [← a.strands]; exact List.mem_map_of_mem ht
  obtain ⟨r, hr, he⟩ := List.mem_map.mp this
  have h1 : r.bare.ra = t.bare.ra := by rw [he]
  exact h1.symm.trans (h r hr)

theorem map_updIf_bare {α β : Type} (g : α → β) (p : α → Bool) (f : α → α) (l : List α) (h : ∀ a, g (f a) = g a) : (updIf p f l).map g = l.map g := by
  unfold updIf
  rw [List.map_map]
  apply List.map_congr_left
  intro a _
  simp only [Function.comp]
  split
  · exact h a
  · rfl

theorem Alike.updSkein (s : State) (k : Nat) (f : Skein → Skein) (h : ∀ y, (f y).bare = y.bare) : Alike s (updSkein s k f) :=
  ⟨map_updIf_bare _ _ _ _ h, rfl⟩
theorem Alike.updStrand (s : State) (k : Nat) (f : Strand → Strand) (h : ∀ y, (f y).bare = y.bare) : Alike s (updStrand s k f) :=
  ⟨rfl, map_updIf_bare _ _ _ _ h⟩
theorem Alike.charge (s : State) (a : Acct) (d c n : Nat) : Alike s (charge s a d c n) := .of_eq (by simp) (by simp)
theorem Alike.updCtx (s : State) (v c : Nat) (f : Ctx → Ctx) : Alike s (updCtx s v c f) := .of_eq rfl rfl
theorem Alike.updVd (s : State) (v : Nat) (f : Vd → Vd) : Alike s (updVd s v f) := .of_eq rfl rfl

theorem Alike.foldl {α : Type} (f : State → α → State) (h : ∀ s a, Alike s (f s a)) (l : List α) : ∀ s, Alike s (l.foldl f s) := by
  induction l with
  | nil => exact fun s => .refl s
  | cons a l ih => exact fun s => (h s a).trans (ih _)
/-- The same, where each round needs that no strand is in runahead. -/
theorem Alike.foldl' {α : Type} (f : State → α → State) (h : ∀ s a, NoEpisode s → Alike s (f s a)) (l : List α) : ∀ s, NoEpisode s → Alike s (l.foldl f s) := by
  induction l with
  | nil => exact fun s _ => .refl s
  | cons a l ih => exact fun s n => (h s a n).trans (ih _ (n.alike (h s a n)))

/-! ### Memory and L2 -/

theorem Alike.wakeMonitors (s : State) (lo hi : Nat) : Alike s (wakeMonitors s lo hi) := by
  refine ⟨rfl, ?_⟩
  unfold Machine.wakeMonitors
  rw [List.map_map]
  apply List.map_congr_left
  intro t _
  simp only [Function.comp]
  split <;> rfl

theorem Alike.writeSpa (s : State) (a : Nat) (bs : List Byte) : Alike s (writeSpa s a bs) := by
  unfold Machine.writeSpa
  split
  · exact .refl s
  · dsimp only
    refine Alike.trans ?_ (.wakeMonitors _ _ _)
    exact .of_eq rfl rfl

theorem Alike.writeSome (s : State) (a : Nat) (bs : List (Option Byte)) : Alike s (writeSome s a bs) := by
  unfold Machine.writeSome
  split
  · exact .refl s
  · dsimp only
    refine Alike.trans ?_ (.wakeMonitors _ _ _)
    exact .of_eq rfl rfl

theorem Alike.fabSend (s : State) (a : Acct) (n : Nat) : Alike s (fabSend s a n).1 := by
  unfold Machine.fabSend
  dsimp only
  split
  · exact (Alike.charge s _ _ _ _).trans (.of_eq rfl rfl)
  · exact .charge s _ _ _ _
theorem Alike.fabTrip (s : State) (a : Acct) : Alike s (fabTrip s a) := (Alike.fabSend s a 1).trans (.charge _ _ _ _ _)

theorem Alike.hbmRead (s : State) (a : Acct) (line : Nat) : Alike s (hbmRead s a line) := by
  unfold Machine.hbmRead
  dsimp only
  split
  · exact Alike.foldl _ (fun u n => .charge u _ _ _ _) _ s
  · exact .charge s _ _ _ _

theorem Alike.hbmPut (s : State) (a : Acct) (line : Nat) (full : Bool) : Alike s (hbmPut s a line full) := by
  unfold Machine.hbmPut
  dsimp only
  have h0 : Alike s (if onLost s (line * 128) = true then s else Machine.charge s a (hbmDom (stackOf s (line * 128))) 33 2) := by
    split
    · exact .refl s
    · exact .charge _ _ _ _ _
  generalize (if onLost s (line * 128) = true then s else Machine.charge s a (hbmDom (stackOf s (line * 128))) 33 2) = s0 at *
  have h1 : Alike s0 (if stackState s (parityOf s (line * 128)) = 1 then s0
      else if full = true then
        (if line * 128 / 4096 % stripeUnits s (line * 128) + 1 = stripeUnits s (line * 128) then
          Machine.charge s0 a (hbmDom (parityOf s (line * 128))) 33 2 else s0)
      else
      { Machine.charge s0 a (hbmDom (parityOf s (line * 128))) 34 1 with
        hbm := { (Machine.charge s0 a (hbmDom (parityOf s (line * 128))) 34 1).hbm with
          parity := insNat (stripeOf s (line * 128)) (Machine.charge s0 a (hbmDom (parityOf s (line * 128))) 34 1).hbm.parity } }) := by
    split
    · exact .refl _
    · split
      · split
        · exact .charge _ _ _ _ _
        · exact .refl _
      · exact (Alike.charge s0 a (hbmDom (parityOf s (line * 128))) 34 1).trans (.of_eq rfl rfl)
  split
  · exact h0.trans h1
  · exact (h0.trans h1).trans (.of_eq rfl rfl)
theorem Alike.hbmWrite (s : State) (a : Acct) (line : Nat) : Alike s (hbmWrite s a line) := .hbmPut s a line false

theorem Alike.writeBack (s : State) (a : Acct) (x : L2Line) : Alike s (writeBack s a x) := by
  unfold Machine.writeBack
  split
  · dsimp only
    have h : ∀ (u v : State), Alike u v → Alike u (updL2 v x.line (fun y => { y with dirty := false })) := fun u v k => k.trans (.of_eq rfl rfl)
    apply h
    split
    · exact (Alike.charge _ _ _ _ _).trans (.hbmWrite _ _ _)
    · exact (Alike.charge _ _ _ _ _).trans (.fabSend _ _ _)
  · exact .refl s

theorem Alike.l2Evict (s : State) (a : Acct) (line : Nat) : Alike s (l2Evict s a line) := by
  unfold Machine.l2Evict
  split
  · exact .refl s
  · exact (Alike.writeBack s _ _).trans (.of_eq rfl rfl)

theorem Alike.l2Fill (s : State) (a : Acct) (line : Nat) (noal : Bool) (ep : Ep) (ra : Bool) : Alike s (l2Fill s a line noal ep ra) := by
  unfold Machine.l2Fill
  dsimp only
  split
  · split
    · exact .hbmRead _ _ _
    · exact .fabTrip _ _
  · have h : ∀ (v : State) (m : Mem), Alike s v → Alike s { v with mem := m } := fun v m k => k.trans (.of_eq rfl rfl)
    apply h
    refine (Alike.l2Evict s a line).trans ?_
    split
    · exact (Alike.charge _ _ _ _ _).trans (.hbmRead _ _ _)
    · exact .fabTrip _ _

theorem Alike.l2Access (s : State) (a : Acct) (line : Nat) (write noal : Bool) (ep : Ep) (ra : Bool) : Alike s (l2Access s a line write noal ep ra).1 := by
  unfold Machine.l2Access
  dsimp only
  refine (Alike.charge s a (homeMill s line) 16 1).trans ?_
  generalize Machine.charge s a (homeMill s line) 16 1 = s1
  split
  · dsimp only
    have h : ∀ (v : State) (f : L2Line → L2Line), Alike s1 v → Alike s1 (hintL2 (updL2 v line f) line ep) := by
      intro v f k
      refine k.trans ?_
      unfold hintL2
      split
      · exact .of_eq rfl rfl
      · exact .of_eq rfl rfl
    apply h
    split
    · split
      · exact .updCtx _ _ _ _
      · exact .refl _
    · exact .refl _
  · split
    · exact .l2Fill _ _ _ _ _ _
    · split
      · dsimp only
        split
        · exact .hbmWrite _ _ _
        · exact .fabTrip _ _
      · dsimp only
        have h : ∀ (v : State) (m : Mem), Alike s1 v → Alike s1 { v with mem := m } := fun v m k => k.trans (.of_eq rfl rfl)
        apply h
        refine (Alike.l2Evict s1 a line).trans ?_
        split
        · exact .refl _
        · exact .fabTrip _ _

/-! ### Translation -/

theorem Alike.pteSet (s : State) (a b : Nat) : Alike s (pteSet s a b) := by
  unfold Machine.pteSet
  dsimp only
  split
  · exact .refl s
  · exact .writeSpa _ _ _
theorem Alike.pteAccess (s : State) (pf : Bool) (a : Nat) : Alike s (pteAccess s pf a) := by
  unfold Machine.pteAccess
  split
  · exact .refl s
  · exact .pteSet _ _ _

theorem raEnd_of_none (s : State) (t : Strand) (st : StrandState) (h : t.ra = none) : raEnd s t st = s := by unfold raEnd; rw [h]

theorem endEpisodes_of_none (s : State) (h : Hank) (n : NoEpisode s) : endEpisodes s h = s := by
  unfold endEpisodes
  have : ∀ (l : List Strand), (∀ t ∈ l, t.ra = none) → l.foldl (fun u t => raEnd u t .held) s = s := by
    intro l
    induction l with
    | nil => intros; rfl
    | cons a l ih =>
      intro hl
      rw [List.foldl_cons, raEnd_of_none _ _ _ (hl a (List.mem_cons_self ..))]
      exact ih (fun t ht => hl t (List.mem_cons_of_mem _ ht))
  exact this _ (fun t ht => n t (List.mem_filter.mp ht).1)

theorem Alike.haltHank (s : State) (id : Nat) (why : HaltWhy) (mig : Bool) (n : NoEpisode s) : Alike s (haltHank s id why mig) := by
  unfold Machine.haltHank
  split
  · exact .refl s
  · rename_i h _
    dsimp only
    have k : ∀ g : Hank, Alike s (setHank s g) := fun g => .of_eq rfl rfl
    cases h.st with
    | placed => dsimp only; rw [endEpisodes_of_none _ _ (n.alike (k _))]; exact k _
    | quiescing => exact k _
    | saved => exact k _

theorem Alike.stopVd (s : State) (vd reason : Nat) (n : NoEpisode s) : Alike s (stopVd s vd reason) := by
  unfold Machine.stopVd haltVd
  dsimp only
  have h0 : Alike s (restCtxs (Machine.updVd s vd (fun u => { u with stopped := true, run := 0, exit := BitVec.ofNat 64 reason })) vd) := .of_eq rfl rfl
  exact ((h0.trans (Alike.foldl' _ (fun u h m => .haltHank u h _ _ m) _ _ (n.alike h0)))).trans (.of_eq rfl rfl)

theorem Alike.s2Dirty (s : State) (vd l g lg : Nat) (n : NoEpisode s) : Alike s (s2Dirty s vd l g lg).1 := by
  unfold Machine.s2Dirty
  dsimp only
  split
  · exact .refl s
  · split
    · exact .pteSet _ _ _
    · split
      · dsimp only
        split
        · exact .refl s
        · exact .stopVd _ _ _ n
      · exact ((Alike.pteSet s l 6).trans (.writeSpa _ _ _)).trans (.of_eq rfl rfl)

theorem Alike.walkLocks (s : State) : Alike s (walkLocks s) := by
  unfold Machine.walkLocks
  split
  · exact .of_eq rfl rfl
  · exact .refl s

theorem Alike.walkEnd (s : State) (q : XReq) (used : List (Nat × Nat × Nat)) (l1 l2 : Leaf) (gpa : Nat) (n : NoEpisode s) :
    Alike s (walkEnd s q used l1 l2 gpa).1 := by
  unfold Machine.walkEnd
  dsimp only
  have h2 : Alike s (Machine.pteAccess (Machine.pteAccess s q.pf l1.at_) q.pf l2.at_) := (Alike.pteAccess _ _ _).trans (.pteAccess _ _ _)
  split
  · have h3 := fun g => h2.trans (Alike.s2Dirty _ q.vd l2.at_ g l2.lg (n.alike h2))
    split
    · rename_i s3 he
      have h4 := congrArg Prod.fst he ▸ h3 _; exact h4
    · rename_i s3 he
      have h4 := congrArg Prod.fst he ▸ h3 _; exact h4.trans (.pteSet _ _ _)
  · exact h2

theorem Alike.walkIn (s : State) (q : XReq) (n : NoEpisode s) : Alike s (walkIn s q).1 := by
  unfold Machine.walkIn
  dsimp only
  obtain ⟨w, hw⟩ : ∃ w, walkOf s q = w := ⟨_, rfl⟩
  simp only [hw]
  have h1 : Alike s (w.used.foldl (fun u a => Machine.pteAccess u q.pf a.1) (Machine.charge s q.acct q.mill 20 w.steps)) :=
    (Alike.charge s q.acct q.mill 20 w.steps).trans
      (Alike.foldl (fun (u : State) (a : Nat × Nat × Nat) => Machine.pteAccess u q.pf a.1) (fun u a => Alike.pteAccess u q.pf a.1) _ _)
  cases ho : w.out with
  | error e => exact h1
  | ok r =>
    obtain ⟨l1, l2, gpa⟩ := r
    dsimp only
    cases finalCheck s q l1 l2 gpa with
    | some e => exact h1
    | none => exact h1.trans (Alike.walkEnd _ q w.used l1 l2 gpa (n.alike h1))
theorem Alike.walk (s : State) (q : XReq) (n : NoEpisode s) : Alike s (walk s q).1 :=
  (Alike.walkLocks s).trans (.walkIn _ q (n.alike (.walkLocks s)))

theorem Alike.tlbPut (s : State) (sp : Nat) (t : Trans) : Alike s (tlbPut s sp t) := by
  unfold Machine.tlbPut setSpindle
  dsimp only
  split <;> exact .of_eq rfl rfl

theorem Alike.xlate (s : State) (q : XReq) (last : Option Trans) (sp : Option Nat) (n : NoEpisode s) : Alike s (xlate s q last sp).1 := by
  have hput : ∀ k, Alike s (match Machine.walk s q with
      | (s1, .ok a t1 h w) => ((Machine.tlbPut s1 k t1, XOut.ok a t1 h w) : State × XOut)
      | r => r).1 := by
    intro k
    have := Alike.walk s q n
    generalize Machine.walk s q = r at *
    obtain ⟨s1, o⟩ := r
    cases o with
    | ok a t1 h w => exact this.trans (.tlbPut _ _ _)
    | err e => exact this
  unfold Machine.xlate
  split
  · exact .refl s
  · split
    · exact .charge _ _ _ _ _
    · split
      · exact .walk s q n
      · split
        · dsimp only
          have h : ∀ (b : Bool) (o : XOut) (r : State × XOut), Alike s r.1 → Alike s (if b = true then (s, o) else r).1 := by
            intro b o r k; cases b
            · exact k
            · exact .refl s
          exact h _ _ _ (hput _)
        · exact hput _

/-! ### Register lines -/

theorem Alike.backing (s : State) (x : Skein) (off : Nat) (data : Option (List (Option Byte))) (n : NoEpisode s) (u : State)
    (h : backing s x off data = .ok u) : Alike s u := by
  unfold Machine.backing at h
  dsimp only at h
  have hx := fun q => Alike.xlate s q none (some x.spindle) n
  generalize XReq.mk x.vd x.ctx _ _ _ _ _ _ _ _ _ = q at h
  have hx := hx q
  generalize Machine.xlate s q none (some x.spindle) = r at h hx
  obtain ⟨s1, o⟩ := r
  cases o with
  | err e => cases h
  | ok spa t1 hd wk =>
    have h2 := Alike.trans hx (Alike.foldl (fun u i => (Machine.l2Access u (acctOf x) (spa / 128 + i) data.isSome false .normal false).1)
      (fun u i => .l2Access u _ _ _ _ _ _) (upTo 0 4) s1)
    dsimp only at h h2
    generalize List.foldl (fun u i => (Machine.l2Access u (acctOf x) (spa / 128 + i) data.isSome false .normal false).1) s1 (upTo 0 4) = s2 at h h2
    cases data with
    | none => injection h with h; exact h ▸ h2
    | some bs => injection h with h; exact h ▸ h2.trans (.writeSome _ _ _)

theorem Alike.makeRoom (s : State) (xk : Nat) (ra : Bool) (n : NoEpisode s) (u : State) (b : Bool) (h : makeRoom s xk ra = .ok (u, b)) : Alike s u := by
  unfold Machine.makeRoom at h
  split at h
  · injection h with h; injection h with h; exact h ▸ .refl s
  · split at h
    · injection h with h; injection h with h; exact h ▸ .refl s
    · split at h
      · injection h with h; injection h with h; exact h ▸ .refl s
      · rename_i x hx _ l hv
        dsimp only at h
        have h1 : Alike s (Machine.updSkein s xk (fun y => { y with lines := y.lines.erase l })) := .updSkein _ _ _ (fun y => rfl)
        split at h
        · split at h
          · injection h with h; injection h with h; exact h ▸ h1
          · split at h
            · cases h
            · rename_i s2 he
              injection h with h; injection h with h
              exact h ▸ ((h1.trans (.backing _ _ _ _ (n.alike h1) _ he)).trans (.charge _ _ _ _ _)).trans (.updCtx _ _ _ _)
        · injection h with h; injection h with h
          subst h
          refine h1.trans ⟨rfl, ?_⟩
          simp only [Machine.updStrand, updIf]
          rw [List.map_map]
          apply List.map_congr_left
          intro t ht
          have : t.ra = none := (n.alike h1) t ht
          simp only [Function.comp]
          split
          · rw [this]
          · rfl
        · injection h with h; injection h with h; exact h ▸ h1

theorem Alike.addLine (s : State) (xk : Nat) (k : LineKey) (write : Bool) : Alike s (addLine s xk k write) := .updSkein _ _ _ (fun _ => rfl)

theorem Alike.bringLine (s : State) (x : Skein) (k : LineKey) (write whole : Bool) (n : NoEpisode s) (u : State)
    (h : bringLine s x k write whole = .ok u) : Alike s u := by
  unfold Machine.bringLine at h
  split at h
  · injection h with h; exact h ▸ .addLine _ _ _ _
  · split at h
    · cases h
    · rename_i s1 he
      injection h with h
      exact h ▸ (((Alike.backing _ _ _ _ n _ he).trans (.charge _ _ _ _ _)).trans (.updCtx _ _ _ _)).trans (.addLine _ _ _ _)

theorem Alike.touchLine (s0 : State) (xk : Nat) (k : LineKey) (write whole : Bool) (n0 : NoEpisode s0) (u : State)
    (h : touchLine s0 xk k write whole = .ok u) : Alike s0 u := by
  unfold Machine.touchLine at h
  dsimp only at h
  have a0 : Alike s0 (if write then Machine.updSkein s0 xk (fun y => if y.written.contains k then y else { y with written := y.written ++ [k] }) else s0) := by
    split
    · refine .updSkein _ _ _ (fun y => ?_)
      split <;> rfl
    · exact .refl _
  generalize (if write then Machine.updSkein s0 xk (fun y => if y.written.contains k then y else { y with written := y.written ++ [k] }) else s0) = s at *
  have n := n0.alike a0
  refine a0.trans ?_
  split at h
  · injection h with h; exact h ▸ .refl s
  · split at h
    · injection h with h; exact h ▸ .updSkein _ _ _ (fun y => rfl)
    · split at h
      · cases h
      · rename_i s1 hm
        injection h with h
        exact h ▸ Alike.makeRoom s xk false n s1 false hm
      · rename_i s1 hm
        have h1 := Alike.makeRoom s xk false n s1 true hm
        exact h1.trans (.bringLine _ _ _ _ _ (n.alike h1) u h)

theorem Alike.touchAll (xk : Nat) (write : Bool) (l : List (LineKey × Bool)) : ∀ (s : State), NoEpisode s → ∀ u, touchAll s xk write l = .ok u → Alike s u := by
  induction l with
  | nil => intro s n u h; injection h with h; exact h ▸ .refl s
  | cons a l ih =>
    intro s n u h
    obtain ⟨k, whole⟩ := a
    unfold Machine.touchAll at h
    split at h
    · cases h
    · rename_i s1 he
      have h1 := Alike.touchLine s xk k write whole n s1 he
      exact h1.trans (ih s1 (n.alike h1) u h)

/-! ### Operand caches and issue -/

theorem Alike.opcPut (s : State) (t : Strand) (x : Skein) (r : Nat) (dirty : Bool) : Alike s (opcPut s t x r dirty) := by
  unfold Machine.opcPut
  split
  · exact .refl s
  · split
    · split
      · exact .updSkein _ _ _ (fun y => rfl)
      · exact .refl s
    · dsimp only
      split
      · split
        · exact .charge _ _ _ _ _
        · exact .refl _
      split
      · exact .updSkein _ _ _ (fun y => rfl)
      · split
        · exact .updSkein _ _ _ (fun y => rfl)
        · refine Alike.trans ?_ (.updSkein _ _ _ (fun y => rfl))
          split
          · exact Alike.trans (Alike.updSkein s x.id (fun z => { z with opc := z.opc.erase _ }) (fun y => rfl)) (.charge _ _ _ _ _)
          · exact .updSkein _ _ _ (fun y => rfl)

theorem Alike.opcRead (s : State) (t : Strand) (x : Skein) (r : Nat) : Alike s (opcRead s t x r) := by
  unfold Machine.opcRead
  dsimp only
  split
  · exact .charge _ _ _ _ _
  · exact (Alike.charge s _ _ _ _).trans (.opcPut _ _ _ _ _)

theorem Alike.leaveActive (s : State) (t : Strand) : Alike s (leaveActive s t) := by
  unfold Machine.leaveActive
  split
  · exact .updStrand _ _ _ (fun y => rfl)
  · dsimp only
    refine Alike.trans (Alike.trans ?_ (.charge _ _ _ _ _)) (.updStrand _ _ _ ?_)
    · exact .updSkein _ _ _ (fun y => rfl)
    · exact fun y => rfl

theorem Alike.joinActive (s : State) (t : Strand) (x : Skein) : Alike s (joinActive s t x) := by
  unfold Machine.joinActive
  split
  · exact .refl s
  · dsimp only
    have h1 : Alike s (Machine.updStrand s t.id (fun u => { u with active := true })) := .updStrand _ _ _ (fun y => rfl)
    split
    · exact h1
    · split
      · split
        · exact .refl s
        · exact h1.trans (.leaveActive _ _)
      · exact .refl s

theorem Alike.chargeIssue (s : State) (sh : Shape) (t : Strand) (x : Skein) : Alike s (chargeIssue s sh t x) := by
  unfold Machine.chargeIssue
  split
  · exact .refl s
  · refine (Alike.charge s (acctOf x) (millOfSpindle x.spindle) (issueClass sh) 1).trans ?_
    dsimp only
    split
    · exact .refl _
    · exact .joinActive _ _ _

theorem Alike.deliverOperands (s : State) (t : Strand) (x : Skein) (act rf : List Nat) (reads : List Rd) (writes : List Wr) (n : NoEpisode s) (u : State)
    (h : deliverOperands s t x act rf reads writes = .ok u) : Alike s u := by
  unfold Machine.deliverOperands at h
  dsimp only at h
  split at h
  · cases h
  · rename_i s1 he1
    have h1 := Alike.touchAll _ _ _ s n s1 he1
    split at h
    · cases h
    · rename_i s2 he2
      have h2 := h1.trans (Alike.touchAll _ _ _ s1 (n.alike h1) s2 he2)
      injection h with h
      exact h ▸ ((h2.trans (Alike.foldl _ (fun u r => .opcRead u _ _ r) _ _)).trans (.charge _ _ _ _ _)).trans
        (Alike.foldl _ (fun u r => .opcPut u _ _ r _) _ _)

/-- Issue and operand delivery leave every register, every predicate and every strand's place as they were. -/
theorem Alike.issueState (sh : Shape) (t : Strand) (x : Skein) (s u : State) (n : NoEpisode s) (h : issueState sh t x s = .ok u) : Alike s u := by
  unfold Machine.issueState at h
  dsimp only at h
  have h0 := Alike.chargeIssue s sh t x
  split at h
  · injection h with h; exact h ▸ h0
  · split at h
    · cases h
    · rename_i s1 he
      have h1 := h0.trans (Alike.deliverOperands _ _ _ _ _ _ _ (n.alike h0) s1 he)
      injection h with h
      subst h
      split
      · exact h1
      · exact h1.trans (.updCtx _ _ _ _)

/-! ### What that means for a skein and a strand -/

theorem find?_map_bare {α β : Type} (g : α → β) (p : α → Bool) (q : β → Bool) (hq : ∀ a, q (g a) = p a) (l : List α) :
    (l.map g).find? q = (l.find? p).map g := by
  induction l with
  | nil => rfl
  | cons a l ih =>
    simp only [List.map_cons, List.find?_cons, hq, ih]
    split <;> rfl

theorem Alike.skein? {s u : State} (a : Alike s u) (k : Nat) : (Machine.skein? u k).map Skein.bare = (Machine.skein? s k).map Skein.bare := by
  unfold Machine.skein?
  have h := fun l => find?_map_bare Skein.bare (fun x => x.id == k) (fun x => x.id == k) (fun x => rfl) l
  rw [← h s.skeins, ← a.skeins, h u.skeins]
theorem Alike.strand? {s u : State} (a : Alike s u) (k : Nat) : (Machine.strand? u k).map Strand.bare = (Machine.strand? s k).map Strand.bare := by
  unfold Machine.strand?
  have h := fun l => find?_map_bare Strand.bare (fun x => x.id == k) (fun x => x.id == k) (fun x => rfl) l
  rw [← h s.strands, ← a.strands, h u.strands]

theorem Alike.skein_some {s u : State} (a : Alike s u) (k : Nat) (x : Skein) (h : Machine.skein? s k = some x) :
    ∃ y, Machine.skein? u k = some y ∧ y.bare = x.bare := by
  have := a.skein? k
  rw [h] at this
  cases hy : Machine.skein? u k with
  | none => rw [hy] at this; cases this
  | some y => rw [hy] at this; exact ⟨y, rfl, by simpa using this⟩
theorem Alike.strand_some {s u : State} (a : Alike s u) (k : Nat) (x : Strand) (h : Machine.strand? s k = some x) :
    ∃ y, Machine.strand? u k = some y ∧ y.bare = x.bare := by
  have := a.strand? k
  rw [h] at this
  cases hy : Machine.strand? u k with
  | none => rw [hy] at this; cases this
  | some y => rw [hy] at this; exact ⟨y, rfl, by simpa using this⟩

end Sys2Proof.Machine
end

