-- ==== Sys2Proof/Laws/Fields.lean ====
section
/-! SUPPORT. Reading back a field that the encoder put into a word: the code of every enumerated value names that value, a slice of
an appended word is the part it covers, and the setters of Raw. -/
namespace Sys2Proof

@[simp] theorem tyOf_tyCode (t : IntTy) : tyOf (tyCode t) = t := by cases t <;> rfl
@[simp] theorem rmOf_rmCode (t : Rm) : rmOf (rmCode t) = t := by cases t <;> rfl
@[simp] theorem fmtOf_fmtCode (t : Fmt) : fmtOf (fmtCode t) = t := by cases t <;> rfl
@[simp] theorem epOf_epCode (t : Ep) : epOf (epCode t) = t := by cases t <;> rfl
@[simp] theorem scOf_scCode (t : Scope) : scOf (scCode t) = t := by cases t <;> rfl
@[simp] theorem ordOf_ordCode (t : MemOrd) : ordOf (ordCode t) = t := by cases t <;> rfl
@[simp] theorem aopOf_aopCode (t : AtomOp) : aopOf (aopCode t) = t := by cases t <;> rfl
@[simp] theorem afopOf_afopCode (t : AtomFOp) : afopOf (afopCode t) = t := by cases t <;> rfl
@[simp] theorem condOf_condCode (t : Cond) : condOf (condCode t) = t := by cases t <;> rfl
@[simp] theorem combOf_combCode (t : Comb) : combOf (combCode t) = t := by cases t <;> rfl
@[simp] theorem fcondOf_fcondCode (t : FCond) : fcondOf (fcondCode t) = t := by cases t <;> rfl
@[simp] theorem voteOf_voteCode (t : VoteMode) : voteOf (voteCode t) = t := by cases t <;> rfl
@[simp] theorem shflOf_shflCode (t : ShflMode) : shflOf (shflCode t) = t := by cases t <;> rfl
@[simp] theorem fidOf_fidCode (t : FidSel) : fidOf (fidCode t) = t := by cases t <;> rfl
@[simp] theorem drainOf_drainCode (t : DrainFmt) : drainOf (drainCode t) = t := by cases t <;> rfl
@[simp] theorem jselOf_jselCode (t : JSel) : jselOf (jselCode t) = t := by cases t <;> rfl
@[simp] theorem invOf_invCode (t : InvKind) : invOf (invCode t) = t := by cases t <;> rfl
@[simp] theorem copOf_copCode (t : CctlOp) : copOf (copCode t) (epvCode t) = t := by
  cases t <;> first | rfl | (rename_i e; cases e <;> rfl)
@[simp] theorem redOf_parts (t : RedOp) (h : t.wf = true) : redOf (redFl t) (redTy t) (redAop t) = t := by
  cases t with
  | int a ty => cases a <;> cases ty <;> first | rfl | exact absurd h (by decide)
  | flt a => cases a <;> rfl

/-- The low part of an appended word. -/
@[simp] theorem slice_low {v w : Nat} (a : BitVec v) (b : BitVec w) :
    BitVec.extractLsb' (n := no_index (v + w)) 0 w (no_index (a ++ b)) = b := BitVec.extractLsb'_append_eq_right
/-- A slice that lies in the high part. -/
@[simp] theorem slice_high {v w : Nat} (a : BitVec v) (b : BitVec w) (s l : Nat) (h : w ≤ s) :
    BitVec.extractLsb' (n := no_index (v + w)) s l (no_index (a ++ b)) = a.extractLsb' (s - w) l :=
  BitVec.extractLsb'_append_eq_of_le h
/-- A slice that lies in the low part. -/
@[simp] theorem slice_inner {v w : Nat} (a : BitVec v) (b : BitVec w) (s l : Nat) (h : s + l ≤ w) :
    BitVec.extractLsb' (n := no_index (v + w)) s l (no_index (a ++ b)) = b.extractLsb' s l :=
  BitVec.extractLsb'_append_eq_of_add_le h
@[simp] theorem bit_eq_one (b : Bool) : (bit b == 1#1) = b := by cases b <;> rfl

@[simp] theorem Raw.fb_slice (r : Raw) (i : Nat) : r.fb i = (r.fn.extractLsb' i 1 == 1#1) := by
  cases h : r.fb i <;> simp_all [Raw.fb, BitVec.eq_of_getLsbD_eq_iff]
@[simp] theorem Raw.xb_slice (r : Raw) (i : Nat) : r.xb i = (r.ext.extractLsb' i 1 == 1#1) := by
  cases h : r.xb i <;> simp_all [Raw.xb, BitVec.eq_of_getLsbD_eq_iff]

/- The setters and getters of a word, unfolded. -/
@[simp] theorem rawBase_eq (op : BitVec 8) (len : BitVec 2) (c : Ctl) : rawBase op len c =
    { fn := 0, c := 0, lc := false, lb := false, la := false, b := 0, a := 0, d := 0,
      setf := c.setf, guard := c.guard, op := op, len := len, ext := 0 } := rfl
@[simp] theorem Raw.setA_eq (r : Raw) (s : Src) : r.setA s = { r with a := s.reg, la := s.last } := rfl
@[simp] theorem Raw.setB_eq (r : Raw) (s : Src) : r.setB s = { r with b := s.reg, lb := s.last } := rfl
@[simp] theorem Raw.setC_eq (r : Raw) (s : Src) : r.setC s = { r with c := s.reg, lc := s.last } := rfl
@[simp] theorem Raw.setD_eq (r : Raw) (d : Field8) : r.setD d = { r with d := d } := rfl
@[simp] theorem Raw.setFn_eq (r : Raw) (fn : BitVec 12) : r.setFn fn = { r with fn := fn } := rfl
@[simp] theorem Raw.setImm_eq (r : Raw) (v : BitVec 32) : r.setImm v = { r with ext := (0#32 ++ v : BitVec 64) } := rfl
@[simp] theorem Raw.setX_eq (r : Raw) (x : BitVec 64) : r.setX x = { r with ext := x } := rfl
@[simp] theorem Raw.ctl_eq (r : Raw) : r.ctl = { guard := r.guard, setf := r.setf } := rfl
@[simp] theorem Raw.srcA_eq (r : Raw) : r.srcA = { reg := r.a, last := r.la } := rfl
@[simp] theorem Raw.srcB_eq (r : Raw) : r.srcB = { reg := r.b, last := r.lb } := rfl
@[simp] theorem Raw.srcC_eq (r : Raw) : r.srcC = { reg := r.c, last := r.lc } := rfl
@[simp] theorem Raw.imm_eq (r : Raw) : r.imm = r.ext.extractLsb' 0 32 := rfl
@[simp] theorem Raw.f_eq (r : Raw) (lo n : Nat) : r.f lo n = r.fn.extractLsb' lo n := rfl
@[simp] theorem Raw.x_eq (r : Raw) (lo n : Nat) : r.x lo n = r.ext.extractLsb' lo n := rfl
@[simp] theorem Raw.ty_eq (r : Raw) : r.ty = tyOf (r.fn.extractLsb' 0 2) := rfl
@[simp] theorem low4_up4 (v : BitVec 4) : low4 (up4 v) = v := by simp [low4, up4]
@[simp] theorem low3_up3 (v : BitVec 3) : low3 (up3 v) = v := by simp [low3, up3]
@[simp] theorem Raw.setCS_reg (r : Raw) (s : Src) : r.setCS (.reg s) = { r with c := s.reg, lc := s.last } := rfl
@[simp] theorem Raw.setCS_imm (r : Raw) (v : BitVec 8) : r.setCS (.imm v) = { r with c := v } := rfl
@[simp] theorem Raw.setCS_op (r : Raw) (x : CSrc) : (r.setCS x).op = r.op := by cases x <;> rfl
@[simp] theorem Raw.setCS_len (r : Raw) (x : CSrc) : (r.setCS x).len = r.len := by cases x <;> rfl
@[simp] theorem Raw.setReg_op (r : Raw) (b : Bool) (v : Field8) : (r.setReg b v).op = r.op := by cases b <;> rfl
@[simp] theorem Raw.setReg_len (r : Raw) (b : Bool) (v : Field8) : (r.setReg b v).len = r.len := by cases b <;> rfl
@[simp] theorem csImm_reg (s : Src) : csImm (.reg s) = false := rfl
@[simp] theorem csImm_imm (v : BitVec 8) : csImm (.imm v) = true := rfl
@[simp] theorem Raw.getCS_eq (r : Raw) : r.getCS = if r.fb 2 then .imm r.c else .reg r.srcC := rfl
@[simp] theorem Raw.casC_eq (r : Raw) (op : AtomOp) : r.casC op = if op = .cas then r.srcC else { reg := 0, last := false } := rfl
@[simp] theorem intFn_eq (opx : BitVec 8) (sat ci : Bool) (ty : IntTy) :
    intFn opx sat ci ty = (opx ++ bit sat ++ bit ci ++ tyCode ty : BitVec 12) := rfl
@[simp] theorem fltFn_eq (opx : BitVec 6) (nc nb na : Bool) (rm : BitVec 3) :
    fltFn opx nc nb na rm = (opx ++ bit nc ++ bit nb ++ bit na ++ rm : BitVec 12) := rfl
@[simp] theorem pkFn_eq (sat pt : Bool) (rm : Rm) : pkFn sat pt rm = (0#7 ++ bit sat ++ bit pt ++ rmCode rm : BitVec 12) := rfl
@[simp] theorem memFn_eq (sc : BitVec 3) (noal : Bool) (ep : Ep) (f : Fmt) :
    memFn sc noal ep f = (0#2 ++ sc ++ bit noal ++ epCode ep ++ fmtCode f : BitVec 12) := rfl
@[simp] theorem atomFn_eq (fl : Bool) (o : MemOrd) (sc : Scope) (ty : BitVec 2) (aop : BitVec 4) :
    atomFn fl o sc ty aop = (bit fl ++ ordCode o ++ scCode sc ++ ty ++ aop : BitVec 12) := rfl
@[simp] theorem xferFn_eq (sp tr : Bool) (ep : Ep) (noal : Bool) :
    xferFn sp tr ep noal = (0#5 ++ bit noal ++ epCode ep ++ 0#2 ++ bit tr ++ bit sp : BitVec 12) := rfl
@[simp] theorem xferX_eq (off : BitVec 32) (cols rows : BitVec 4) :
    xferX off cols rows = (off ++ 0#24 ++ cols ++ rows : BitVec 64) := rfl

@[simp] theorem bwOf_ok (v : BitVec 3) (h : bwOk v = true) : bwOf v = v := by
  simp_all [bwOk, bwOf]
/-- An unused source is the zero source. -/
theorem Src.unused_eq {s : Src} (h : s.unused = true) : s = { reg := 0, last := false } := by
  obtain ⟨r, l⟩ := s
  simp_all [Src.unused]
theorem Src.zero_fields {s : Src} (h : s.unused = true) : 0#8 = s.reg ∧ s.last = false := by
  simp [Src.unused_eq h]
@[simp] theorem halves (v : BitVec 16) : (v.extractLsb' 8 8 ++ v.extractLsb' 0 8 : BitVec 16) = v := by
  have h := BitVec.extractLsb'_append_extractLsb'_eq_extractLsb' (x := v) (start₁ := 0) (len₁ := 8) (start₂ := 8) (len₂ := 8) rfl
  simpa using h
theorem low_bit (v : BitVec 2) (h : v.toNat < 2) : (0#1 ++ v.extractLsb' 0 1 : BitVec 2) = v := by
  revert h; revert v; decide
theorem low4_small (v : BitVec 8) (h : v.toNat < 16) : up4 (low4 v) = v := by
  revert h; revert v; decide

/- Each operand shape is read back as it was written. -/
@[simp] theorem getC_enc (op : BitVec 8) (o : OpC) :
    getC (encC op o) = o := by
  simp [getC, encC]
@[simp] theorem getBranchImm_enc (op : BitVec 8) (o : OpBranchImm) :
    getBranchImm (encBranchImm op o) = o := by
  simp [getBranchImm, encBranchImm]
@[simp] theorem getCall_enc (op : BitVec 8) (o : OpCall) :
    getCall (encCall op o) = o := by
  simp [getCall, encCall]
@[simp] theorem getBranchReg_enc (op : BitVec 8) (o : OpBranchReg) :
    getBranchReg (encBranchReg op o) = o := by
  simp [getBranchReg, encBranchReg]
@[simp] theorem getCallReg_enc (op : BitVec 8) (o : OpCallReg) :
    getCallReg (encCallReg op o) = o := by
  simp [getCallReg, encCallReg]
@[simp] theorem getSpawn_enc (op : BitVec 8) (o : OpSpawn) (h : o.wf = true) :
    getSpawn (encSpawn op o) = o := by
  obtain ⟨oc, od, oa, ob, ok, oimm⟩ := o
  simp_all [getSpawn, encSpawn, OpSpawn.wf]
  intro hk; exact Src.zero_fields (h.2.resolve_left (fun hn => hn hk))
@[simp] theorem getFid_enc (op : BitVec 8) (o : OpFid) :
    getFid (encFid op o) = o := by
  simp [getFid, encFid]
@[simp] theorem getBara_enc (op : BitVec 8) (o : OpBara) :
    getBara (encBara op o) = o := by
  simp [getBara, encBara]
@[simp] theorem getBarw_enc (op : BitVec 8) (o : OpBarw) :
    getBarw (encBarw op o) = o := by
  simp [getBarw, encBarw]
@[simp] theorem getVote_enc (op : BitVec 8) (o : OpVote) (h : o.wf = true) :
    getVote (encVote op o) = o := by
  obtain ⟨oc, omode, od, oa, ops, opn⟩ := o
  simp_all [getVote, encVote, OpVote.wf]
  cases omode <;> simp_all <;> first | exact ⟨low4_small _ h.1, Src.zero_fields h.2⟩ | exact Src.zero_fields h | exact low4_small _ h | exact ⟨low4_small _ h.1, h.2.1.symm⟩ | exact low4_small _ h.1
@[simp] theorem getShfl_enc (op : BitVec 8) (o : OpShfl) :
    getShfl (encShfl op o) = o := by
  simp [getShfl, encShfl]
@[simp] theorem getShflImm_enc (op : BitVec 8) (o : OpShflImm) :
    getShflImm (encShflImm op o) = o := by
  simp [getShflImm, encShflImm]
@[simp] theorem getLive_enc (op : BitVec 8) (o : OpLive) :
    getLive (encLive op o) = o := by
  simp [getLive, encLive]
@[simp] theorem getPset_enc (op : BitVec 8) (o : OpPset) :
    getPset (encPset op o) = o := by
  simp [getPset, encPset]
@[simp] theorem getPsetImm_enc (op : BitVec 8) (o : OpPsetImm) :
    getPsetImm (encPsetImm op o) = o := by
  simp [getPsetImm, encPsetImm]
@[simp] theorem getD_enc (op : BitVec 8) (o : OpD) :
    getD (encD op o) = o := by
  simp [getD, encD]
@[simp] theorem getPmovImm_enc (op : BitVec 8) (o : OpPmovImm) :
    getPmovImm (encPmovImm op o) = o := by
  simp [getPmovImm, encPmovImm]
@[simp] theorem getPlop_enc (op : BitVec 8) (o : OpPlop) :
    getPlop (encPlop op o) = o := by
  simp [getPlop, encPlop]
@[simp] theorem getInt1_enc (op : BitVec 8) (sat : Bool) (o : OpInt1) (h : o.wf sat = true) :
    getInt1 sat (encInt1 op o) = o := by
  obtain ⟨oc, od, oa, oty, osat⟩ := o
  cases sat <;> simp_all [getInt1, encInt1, OpInt1.wf]
@[simp] theorem getInt2_enc (op : BitVec 8) (sat : Bool) (o : OpInt2) (h : o.wf sat = true) :
    getInt2 sat (encInt2 op o) = o := by
  obtain ⟨oc, od, oa, ob, oty, osat⟩ := o
  cases sat <;> simp_all [getInt2, encInt2, OpInt2.wf]
@[simp] theorem getInt2Imm_enc (op : BitVec 8) (sat : Bool) (o : OpInt2Imm) (h : o.wf sat = true) :
    getInt2Imm sat (encInt2Imm op o) = o := by
  obtain ⟨oc, od, oa, oimm, oty, osat⟩ := o
  cases sat <;> simp_all [getInt2Imm, encInt2Imm, OpInt2Imm.wf]
@[simp] theorem getInt3_enc (op : BitVec 8) (sat : Bool) (o : OpInt3) (h : o.wf sat = true) :
    getInt3 sat (encInt3 op o) = o := by
  obtain ⟨oc, od, oa, ob, ox, oty, osat⟩ := o
  cases sat <;> cases ox <;> simp_all [getInt3, encInt3, OpInt3.wf]
@[simp] theorem getInt3Imm_enc (op : BitVec 8) (sat : Bool) (o : OpInt3Imm) (h : o.wf sat = true) :
    getInt3Imm sat (encInt3Imm op o) = o := by
  obtain ⟨oc, od, oa, oimm, ox, oty, osat⟩ := o
  cases sat <;> cases ox <;> simp_all [getInt3Imm, encInt3Imm, OpInt3Imm.wf]
@[simp] theorem getLop3_enc (op : BitVec 8) (o : OpLop3) :
    getLop3 (encLop3 op o) = o := by
  obtain ⟨oc, od, oa, ob, ox, oty, olut⟩ := o
  cases ox <;> simp_all [getLop3, encLop3]
@[simp] theorem getLop3Imm_enc (op : BitVec 8) (o : OpLop3Imm) :
    getLop3Imm (encLop3Imm op o) = o := by
  obtain ⟨oc, od, oa, oimm, ox, oty, olut⟩ := o
  cases ox <;> simp_all [getLop3Imm, encLop3Imm]
@[simp] theorem getAddc_enc (op : BitVec 8) (o : OpAddc) :
    getAddc (encAddc op o) = o := by
  simp [getAddc, encAddc]
@[simp] theorem getAddcImm_enc (op : BitVec 8) (o : OpAddcImm) :
    getAddcImm (encAddcImm op o) = o := by
  simp [getAddcImm, encAddcImm]
@[simp] theorem getSel_enc (op : BitVec 8) (o : OpSel) :
    getSel (encSel op o) = o := by
  simp [getSel, encSel]
@[simp] theorem getSelImm_enc (op : BitVec 8) (o : OpSelImm) :
    getSelImm (encSelImm op o) = o := by
  simp [getSelImm, encSelImm]
@[simp] theorem getMoviImm_enc (op : BitVec 8) (o : OpMoviImm) :
    getMoviImm (encMoviImm op o) = o := by
  simp [getMoviImm, encMoviImm]
@[simp] theorem getMoviX_enc (op : BitVec 8) (o : OpMoviX) :
    getMoviX (encMoviX op o) = o := by
  simp [getMoviX, encMoviX]
@[simp] theorem getMovw_enc (op : BitVec 8) (o : OpMovw) (h : o.wf = true) :
    getMovw (encMovw op o) = o := by
  obtain ⟨oc, od, oimm, oty, ok⟩ := o
  simp_all [getMovw, encMovw, OpMovw.wf]
  intro hw; exact low_bit _ (by have := h.resolve_left (by simp [hw]); omega)
@[simp] theorem getLea_enc (op : BitVec 8) (o : OpLea) :
    getLea (encLea op o) = o := by
  simp [getLea, encLea]
@[simp] theorem getLeaImm_enc (op : BitVec 8) (o : OpLeaImm) :
    getLeaImm (encLeaImm op o) = o := by
  simp [getLeaImm, encLeaImm]
@[simp] theorem getIcmp_enc (op : BitVec 8) (o : OpIcmp) :
    getIcmp (encIcmp op o) = o := by
  simp [getIcmp, encIcmp]
@[simp] theorem getIcmpImm_enc (op : BitVec 8) (o : OpIcmpImm) :
    getIcmpImm (encIcmpImm op o) = o := by
  simp [getIcmpImm, encIcmpImm]
@[simp] theorem getF1_enc (op : BitVec 8) (rm : Bool) (o : OpF1) (h : o.wf rm = true) :
    getF1 rm (encF1 op o) = o := by
  obtain ⟨oc, od, oa, orm, ona⟩ := o
  cases rm <;> simp_all [getF1, encF1, OpF1.wf]
@[simp] theorem getF2_enc (op : BitVec 8) (rm : Bool) (o : OpF2) (h : o.wf rm = true) :
    getF2 rm (encF2 op o) = o := by
  obtain ⟨oc, od, oa, ob, orm, ona, onb⟩ := o
  cases rm <;> simp_all [getF2, encF2, OpF2.wf]
@[simp] theorem getF2Imm_enc (op : BitVec 8) (rm : Bool) (o : OpF2Imm) (h : o.wf rm = true) :
    getF2Imm rm (encF2Imm op o) = o := by
  obtain ⟨oc, od, oa, oimm, orm, ona, onb⟩ := o
  cases rm <;> simp_all [getF2Imm, encF2Imm, OpF2Imm.wf]
@[simp] theorem getF3_enc (op : BitVec 8) (o : OpF3) :
    getF3 (encF3 op o) = o := by
  simp [getF3, encF3]
@[simp] theorem getF3Imm_enc (op : BitVec 8) (o : OpF3Imm) :
    getF3Imm (encF3Imm op o) = o := by
  simp [getF3Imm, encF3Imm]
@[simp] theorem getFcmp_enc (op : BitVec 8) (o : OpFcmp) :
    getFcmp (encFcmp op o) = o := by
  simp [getFcmp, encFcmp]
@[simp] theorem getFcmpImm_enc (op : BitVec 8) (o : OpFcmpImm) :
    getFcmpImm (encFcmpImm op o) = o := by
  simp [getFcmpImm, encFcmpImm]
@[simp] theorem getP2_enc (op : BitVec 8) (rm sat : Bool) (o : OpP2) (h : o.wf rm sat = true) :
    getP2 rm sat (encP2 op o) = o := by
  obtain ⟨oc, od, oa, ob, orm, opt, osat⟩ := o
  cases rm <;> cases sat <;> simp_all [getP2, encP2, OpP2.wf]
@[simp] theorem getP2Imm_enc (op : BitVec 8) (rm sat : Bool) (o : OpP2Imm) (h : o.wf rm sat = true) :
    getP2Imm rm sat (encP2Imm op o) = o := by
  obtain ⟨oc, od, oa, oimm, orm, opt, osat⟩ := o
  cases rm <;> cases sat <;> simp_all [getP2Imm, encP2Imm, OpP2Imm.wf]
@[simp] theorem getP3_enc (op : BitVec 8) (o : OpP3) :
    getP3 (encP3 op o) = o := by
  simp [getP3, encP3]
@[simp] theorem getP3Imm_enc (op : BitVec 8) (o : OpP3Imm) :
    getP3Imm (encP3Imm op o) = o := by
  simp [getP3Imm, encP3Imm]
@[simp] theorem getAcs2_enc (op : BitVec 8) (o : OpAcs2) :
    getAcs2 (encAcs2 op o) = o := by
  simp [getAcs2, encAcs2]
@[simp] theorem getCvt_enc (op : BitVec 8) (o : OpCvt) (h : o.wf = true) :
    getCvt (encCvt op o) = o := by
  obtain ⟨oc, od, oa, odst, osrc, osat, orm⟩ := o
  simp_all [getCvt, encCvt, OpCvt.wf]
  exact ⟨fun hs => h.2.resolve_left (by simp [hs]), fun hc => (h.1.resolve_left (by simp [hc])).symm⟩
@[simp] theorem getCvtb_enc (op : BitVec 8) (o : OpCvtb) (h : bwOk o.bw = true) :
    getCvtb (encCvtb op o) = o := by
  obtain ⟨oc, od, oa, obw, odir, oemask⟩ := o
  simp_all [getCvtb, encCvtb]
@[simp] theorem getLoad_enc (op : BitVec 8) (hint : Bool) (o : OpLoad) (h : o.wf hint = true) :
    getLoad hint (encLoad op o) = o := by
  obtain ⟨oc, od, oa, ofmt, oep, onoal⟩ := o
  cases hint <;> simp_all [getLoad, encLoad, OpLoad.wf]
@[simp] theorem getLoadImm_enc (op : BitVec 8) (hint : Bool) (o : OpLoadImm) (h : o.wf hint = true) :
    getLoadImm hint (encLoadImm op o) = o := by
  obtain ⟨oc, od, oa, ofmt, oep, onoal, oimm⟩ := o
  cases hint <;> simp_all [getLoadImm, encLoadImm, OpLoadImm.wf]
@[simp] theorem getStore_enc (op : BitVec 8) (hint : Bool) (o : OpStore) (h : o.wf hint = true) :
    getStore hint (encStore op o) = o := by
  obtain ⟨oc, oa, ob, ofmt, oep, onoal⟩ := o
  cases hint <;> simp_all [getStore, encStore, OpStore.wf]
@[simp] theorem getStoreImm_enc (op : BitVec 8) (hint : Bool) (o : OpStoreImm) (h : o.wf hint = true) :
    getStoreImm hint (encStoreImm op o) = o := by
  obtain ⟨oc, oa, ob, ofmt, oep, onoal, oimm⟩ := o
  cases hint <;> simp_all [getStoreImm, encStoreImm, OpStoreImm.wf]
@[simp] theorem getLdaq_enc (op : BitVec 8) (o : OpLdaq) :
    getLdaq (encLdaq op o) = o := by
  simp [getLdaq, encLdaq]
@[simp] theorem getLdaqImm_enc (op : BitVec 8) (o : OpLdaqImm) :
    getLdaqImm (encLdaqImm op o) = o := by
  simp [getLdaqImm, encLdaqImm]
@[simp] theorem getStrl_enc (op : BitVec 8) (o : OpStrl) :
    getStrl (encStrl op o) = o := by
  simp [getStrl, encStrl]
@[simp] theorem getStrlImm_enc (op : BitVec 8) (o : OpStrlImm) :
    getStrlImm (encStrlImm op o) = o := by
  simp [getStrlImm, encStrlImm]
@[simp] theorem getAtom_enc (op : BitVec 8) (o : OpAtom) (h : o.wf = true) :
    getAtom (encAtom op o) = o := by
  obtain ⟨oc, od, oa, ob, ox, oop, oty, osc, oord⟩ := o
  simp_all [getAtom, encAtom, OpAtom.wf]
  intro hc; exact Src.zero_fields (h.resolve_left hc)
@[simp] theorem getAtomImm_enc (op : BitVec 8) (o : OpAtomImm) (h : o.wf = true) :
    getAtomImm (encAtomImm op o) = o := by
  obtain ⟨oc, od, oa, ob, ox, oop, oty, osc, oord, oimm⟩ := o
  simp_all [getAtomImm, encAtomImm, OpAtomImm.wf]
  intro hc; exact Src.zero_fields (h.resolve_left hc)
@[simp] theorem getAtomf_enc (op : BitVec 8) (o : OpAtomf) :
    getAtomf (encAtomf op o) = o := by
  simp [getAtomf, encAtomf]
@[simp] theorem getAtomfImm_enc (op : BitVec 8) (o : OpAtomfImm) :
    getAtomfImm (encAtomfImm op o) = o := by
  simp [getAtomfImm, encAtomfImm]
@[simp] theorem getRed_enc (op : BitVec 8) (o : OpRed) (h : o.op.wf = true) :
    getRed (encRed op o) = o := by
  obtain ⟨oc, oa, ob, oop, osc, oord⟩ := o
  simp_all [getRed, encRed]
@[simp] theorem getRedImm_enc (op : BitVec 8) (o : OpRedImm) (h : o.op.wf = true) :
    getRedImm (encRedImm op o) = o := by
  obtain ⟨oc, oa, ob, oop, osc, oord, oimm⟩ := o
  simp_all [getRedImm, encRedImm]
@[simp] theorem getPft_enc (op : BitVec 8) (o : OpPft) :
    getPft (encPft op o) = o := by
  simp [getPft, encPft]
@[simp] theorem getCctl_enc (op : BitVec 8) (o : OpCctl) :
    getCctl (encCctl op o) = o := by
  simp [getCctl, encCctl]
@[simp] theorem getCctlImm_enc (op : BitVec 8) (o : OpCctlImm) :
    getCctlImm (encCctlImm op o) = o := by
  simp [getCctlImm, encCctlImm]
@[simp] theorem getPin_enc (op : BitVec 8) (o : OpPin) :
    getPin (encPin op o) = o := by
  simp [getPin, encPin]
@[simp] theorem getPinImm_enc (op : BitVec 8) (o : OpPinImm) :
    getPinImm (encPinImm op o) = o := by
  simp [getPinImm, encPinImm]
@[simp] theorem getIcinv_enc (op : BitVec 8) (o : OpIcinv) :
    getIcinv (encIcinv op o) = o := by
  simp [getIcinv, encIcinv]
@[simp] theorem getIcinvImm_enc (op : BitVec 8) (o : OpIcinvImm) :
    getIcinvImm (encIcinvImm op o) = o := by
  simp [getIcinvImm, encIcinvImm]
@[simp] theorem getTileXfer_enc (op : BitVec 8) (store : Bool) (o : OpTileXfer) (h : o.wf = true) :
    getTileXfer store (encTileXfer op store o) = o := by
  obtain ⟨oc, or, oa, ob, osp, otr, oep, onoal, ooff, ocols, orows⟩ := o
  cases store <;> cases osp <;> simp_all [getTileXfer, encTileXfer, OpTileXfer.wf, Raw.setReg, Raw.regOf]
@[simp] theorem getAccXfer_enc (op : BitVec 8) (store : Bool) (o : OpAccXfer) (h : o.wf = true) :
    getAccXfer store (encAccXfer op store o) = o := by
  obtain ⟨oc, or, oa, ob, osp, otr, oep, onoal, ooff, ocols, orows⟩ := o
  cases store <;> cases osp <;> simp_all [getAccXfer, encAccXfer, OpAccXfer.wf, Raw.setReg, Raw.regOf]
@[simp] theorem getTzero_enc (op : BitVec 8) (o : OpTzero) :
    getTzero (encTzero op o) = o := by
  simp [getTzero, encTzero]
@[simp] theorem getTmov_enc (op : BitVec 8) (o : OpTmov) :
    getTmov (encTmov op o) = o := by
  simp [getTmov, encTmov]
@[simp] theorem getAclr_enc (op : BitVec 8) (o : OpAclr) (h : (!o.all || o.d == 0) = true) :
    getAclr (encAclr op o) = o := by
  obtain ⟨oc, od, oall⟩ := o
  simp_all [getAclr, encAclr]
  exact fun ha => (h.resolve_left (by simp [ha])).symm
@[simp] theorem getTmma_enc (op : BitVec 8) (o : OpTmma) :
    getTmma (encTmma op o) = o := by
  simp [getTmma, encTmma]
@[simp] theorem getAcvt_enc (op : BitVec 8) (o : OpAcvt) :
    getAcvt (encAcvt op o) = o := by
  simp [getAcvt, encAcvt]
@[simp] theorem getAfrag_enc (op : BitVec 8) (o : OpAfrag) :
    getAfrag (encAfrag op o) = o := by
  simp [getAfrag, encAfrag]
@[simp] theorem getWld_enc (op : BitVec 8) (o : OpWld) :
    getWld (encWld op o) = o := by
  simp [getWld, encWld]
@[simp] theorem getWlatch_enc (op : BitVec 8) (o : OpWlatch) (h : bwOk o.bw = true) :
    getWlatch (encWlatch op o) = o := by
  obtain ⟨oc, od, oa, obw, ocmp, onew, okb, on0, onc⟩ := o
  simp_all [getWlatch, encWlatch]
@[simp] theorem getSbuild_enc (op : BitVec 8) (o : OpSbuild) (h : bwOk o.bw = true) :
    getSbuild (encSbuild op o) = o := by
  obtain ⟨oc, oa, ob, ox, obw, oklast⟩ := o
  simp_all [getSbuild, encSbuild]
@[simp] theorem getSstep_enc (op : BitVec 8) (o : OpSstep) (h : bwOk o.abw = true) :
    getSstep (encSstep op o) = o := by
  obtain ⟨oc, oa, ob, orows, okb, oklast, onc, ozero, oabw, oorow⟩ := o
  simp_all [getSstep, encSstep]
@[simp] theorem getSlut_enc (op : BitVec 8) (o : OpSlut) :
    getSlut (encSlut op o) = o := by
  simp [getSlut, encSlut]
@[simp] theorem getSdrain_enc (op : BitVec 8) (o : OpSdrain) (h : (o.ofmt != .f32 || o.rm == .rne) = true) :
    getSdrain (encSdrain op o) = o := by
  obtain ⟨oc, oa, ob, oofmt, oclr, orm, oorow, orows, onc⟩ := o
  simp_all [getSdrain, encSdrain]
  exact fun ha => (h.resolve_left (by simp [ha])).symm
@[simp] theorem getSclass_enc (op : BitVec 8) (o : OpSclass) (h : decide (o.wg.toNat ≤ 16) = true) :
    getSclass (encSclass op o) = o := by
  obtain ⟨oc, od, ocls, owg⟩ := o
  simp_all [getSclass, encSclass]
@[simp] theorem getQput_enc (op : BitVec 8) (o : OpQput) :
    getQput (encQput op o) = o := by
  simp [getQput, encQput]
@[simp] theorem getCwait_enc (op : BitVec 8) (o : OpCwait) :
    getCwait (encCwait op o) = o := by
  simp [getCwait, encCwait]
@[simp] theorem getSleep_enc (op : BitVec 8) (o : OpSleep) (h : o.wf = true) :
    getSleep (encSleep op o) = o := by
  obtain ⟨oc, oa, ob, oflag⟩ := o
  simp_all [getSleep, encSleep, OpSleep.wf]
  intro hc; exact Src.zero_fields (h.resolve_left (by simp [hc]))
@[simp] theorem getFence_enc (op : BitVec 8) (o : OpFence) :
    getFence (encFence op o) = o := by
  simp [getFence, encFence]
@[simp] theorem getFencex_enc (op : BitVec 8) (o : OpFencex) (h : (o.src != 0 && o.dst != 0) = true) :
    getFencex (encFencex op o) = o := by
  obtain ⟨oc, osrc, odst⟩ := o
  simp_all [getFencex, encFencex]
@[simp] theorem getRstf_enc (op : BitVec 8) (o : OpRstf) :
    getRstf (encRstf op o) = o := by
  simp [getRstf, encRstf]
@[simp] theorem getRatom_enc (op : BitVec 8) (o : OpRatom) (h : o.wf = true) :
    getRatom (encRatom op o) = o := by
  obtain ⟨oc, od, oa, ob, ox, oop, oty, osc, oord, ooff⟩ := o
  simp_all [getRatom, encRatom, OpRatom.wf]
  intro hc; exact Src.zero_fields (h.resolve_left hc)
@[simp] theorem getA_enc (op : BitVec 8) (o : OpA) :
    getA (encA op o) = o := by
  simp [getA, encA]
@[simp] theorem getLaunch_enc (op : BitVec 8) (o : OpLaunch) :
    getLaunch (encLaunch op o) = o := by
  simp [getLaunch, encLaunch]
@[simp] theorem getFeedpop_enc (op : BitVec 8) (o : OpFeedpop) :
    getFeedpop (encFeedpop op o) = o := by
  simp [getFeedpop, encFeedpop]
@[simp] theorem getJread_enc (op : BitVec 8) (o : OpJread) :
    getJread (encJread op o) = o := by
  simp [getJread, encJread]
@[simp] theorem getDA_enc (op : BitVec 8) (o : OpDA) :
    getDA (encDA op o) = o := by
  simp [getDA, encDA]
@[simp] theorem getSysrd_enc (op : BitVec 8) (o : OpSysrd) :
    getSysrd (encSysrd op o) = o := by
  simp [getSysrd, encSysrd]
@[simp] theorem getSyswr_enc (op : BitVec 8) (o : OpSyswr) :
    getSyswr (encSyswr op o) = o := by
  simp [getSyswr, encSyswr]
@[simp] theorem getTlbinv_enc (op : BitVec 8) (o : OpTlbinv) (h : o.wf = true) :
    getTlbinv (encTlbinv op o) = o := by
  obtain ⟨oc, oa, ob, okind⟩ := o
  cases okind
  · simp_all [getTlbinv, encTlbinv, OpTlbinv.wf, invCode, invOf]
    exact (Src.unused_eq h).symm
  · simp_all [getTlbinv, encTlbinv, OpTlbinv.wf, invCode, invOf]
  · simp_all [getTlbinv, encTlbinv, OpTlbinv.wf, invCode, invOf]
    exact ⟨(Src.unused_eq h.1).symm, (Src.unused_eq h.2).symm⟩

@[simp] theorem getC0_enc (op : BitVec 8) (o : OpC) (h : (o.c.setf == 0) = true) :
    getC0 (encC op o) = o := by
  obtain ⟨c, f⟩ := o
  simp_all [getC0, encC]

end Sys2Proof
end

