-- ==== Sys2Proof/Laws/Memory.lean ====
section
/-! SUPPORT. Every operation that writes memory keeps its canonical form, and reset's memory has it: a write of bytes, what a bring-up or a loss of power
leaves, the zeroing of a window's table, the image of the host's question. -/
namespace Sys2Proof.Machine

theorem reset_memory_wf : State.reset.mem.wf = true := rfl

theorem wakeMonitors_mem (s : State) (lo hi : Nat) : (wakeMonitors s lo hi).mem = s.mem := rfl

theorem writeSpa_wf (s : State) (a : Nat) (bs : List Byte) (h : s.mem.wf = true) : (writeSpa s a bs).mem.wf = true := by
  unfold writeSpa
  split
  · exact h
  · exact mwf_msetAll bs _ _ h

/-- Bytes written read back, wherever the write reaches; every other byte reads as before. -/
theorem writeSpa_get (s : State) (a j : Nat) (bs : List Byte) :
    mget (writeSpa s a bs).mem.bytes j = mget (msetAll s.mem.bytes (normSpa s a) bs) j := by
  unfold writeSpa
  split
  · rename_i hb
    rw [List.isEmpty_iff.mp hb]
    rfl
  · rfl

theorem foreignBytes_wf (m : SMap 8) (h : mwf m = true) : mwf (foreignBytes m) = true := mrising_filter _ m 0 h

theorem mrising_afterReset (n : Nat) (m : SMap 8) : ∀ lo, mrising lo m = true → mrising lo (afterReset n m) = true := by
  induction m with
  | nil => intros; rfl
  | cons e t ih =>
    obtain ⟨a, v⟩ := e
    intro lo h
    have h' := h
    simp only [mrising, Bool.and_eq_true, decide_eq_true_eq] at h'
    have ht := ih (a + 1) h'.2
    by_cases hz : (if a < 2 ^ 50 then Config.afterReset n a else v) = 0
    · have : afterReset n ((a, v) :: t) = afterReset n t := by simp only [afterReset, List.filterMap_cons, hz, if_true]
      rw [this]
      exact mrising_mono _ (a + 1) lo ht (by omega)
    · have : afterReset n ((a, v) :: t) = (a, if a < 2 ^ 50 then Config.afterReset n a else v) :: afterReset n t := by
        simp only [afterReset, List.filterMap_cons, hz, if_false]
      rw [this]
      simp only [mrising, Bool.and_eq_true, decide_eq_true_eq]
      exact ⟨⟨h'.1.1, by simpa using hz⟩, ht⟩

theorem afterReset_wf (n : Nat) (m : SMap 8) (h : mwf m = true) : mwf (afterReset n m) = true := mrising_afterReset n m 0 h

theorem mclear_wf (m : Mem) (lo hi : Nat) (h : m.wf = true) : ({ m with bytes := mclear m.bytes lo hi } : Mem).wf = true := mwf_mclear _ lo hi h

theorem mset_wf (m : Mem) (k : Nat) (b : Byte) (h : m.wf = true) : ({ m with bytes := mset m.bytes k b } : Mem).wf = true := mwf_mset _ k b h

theorem placeWord_wf (s : State) (code : List Byte) : (placeWord s code).mem.wf = true := by
  simp only [placeWord, Mem.wf, imageBytes]
  exact mwf_msetAll _ _ _ (by decide)

end Sys2Proof.Machine
end

