-- ==== Sys2Proof/Laws/PerInstr.lean ====
section
/-! SUPPORT. Statements made of every instruction, one lemma per constructor of Instr. -/
namespace Sys2Proof

/-- The row of the grid of R134 that a word with this opcode and this length names. -/
theorem lookup_of (r : Raw) (k : Nat) (f : Raw → Instr) (hk : r.op.toNat * 4 + r.len.toNat = k)
    (h : (opTable.find? fun e => e.1 == k).map (·.2) = some f) : lookup r = some (f r) := by
  subst hk
  unfold lookup
  split <;> simp_all

namespace Laws.RoundTrip

/-- The word of a well-formed instruction names, by its opcode, its length and its fields, the instruction it was written for
(R116 to R121, R134). An event is no word. -/
def Statement (i : Instr) : Prop := i.wf = true → ∀ r, encode i = some r → lookup r = some i

theorem nop (o : OpC) : Statement (.nop o) := fun h _ e => by
  cases e
  exact (lookup_of _ 1 _ rfl rfl).trans (congrArg some (congrArg Instr.nop (getC0_enc _ _ h)))
theorem bra (o : OpBranchImm) : Statement (.bra o) := fun h _ e => by
  cases e
  exact (lookup_of _ 6 _ rfl rfl).trans (congrArg some (congrArg _ (getBranchImm_enc _ o)))
theorem brc (o : OpBranchImm) : Statement (.brc o) := fun h _ e => by
  cases e
  exact (lookup_of _ 10 _ rfl rfl).trans (congrArg some (congrArg _ (getBranchImm_enc _ o)))
theorem brx (o : OpBranchReg) : Statement (.brx o) := fun h _ e => by
  cases e
  exact (lookup_of _ 13 _ rfl rfl).trans (congrArg some (congrArg _ (getBranchReg_enc _ o)))
theorem call (o : OpCall) : Statement (.call o) := fun h _ e => by
  cases e
  exact (lookup_of _ 18 _ rfl rfl).trans (congrArg some (congrArg _ (getCall_enc _ o)))
theorem callx (o : OpCallReg) : Statement (.callx o) := fun h _ e => by
  cases e
  exact (lookup_of _ 21 _ rfl rfl).trans (congrArg some (congrArg _ (getCallReg_enc _ o)))
theorem ret (o : OpBranchReg) : Statement (.ret o) := fun h _ e => by
  cases e
  exact (lookup_of _ 25 _ rfl rfl).trans (congrArg some (congrArg _ (getBranchReg_enc _ o)))
theorem fspawn (o : OpSpawn) : Statement (.fspawn o) := fun h _ e => by
  cases e
  exact (lookup_of _ 34 _ rfl rfl).trans (congrArg some (congrArg _ (getSpawn_enc _ o h)))
theorem fend (o : OpC) : Statement (.fend o) := fun h _ e => by
  cases e
  exact (lookup_of _ 37 _ rfl rfl).trans (congrArg some (congrArg _ (getC_enc _ o)))
theorem fyield (o : OpC) : Statement (.fyield o) := fun h _ e => by
  cases e
  exact (lookup_of _ 41 _ rfl rfl).trans (congrArg some (congrArg Instr.fyield (getC0_enc _ _ h)))
theorem fid (o : OpFid) : Statement (.fid o) := fun h _ e => by
  cases e
  exact (lookup_of _ 45 _ rfl rfl).trans (congrArg some (congrArg _ (getFid_enc _ o)))
theorem barSk (o : OpC) : Statement (.barSk o) := fun h _ e => by
  cases e
  exact (lookup_of _ 65 _ rfl rfl).trans (congrArg some (congrArg _ (getC_enc _ o)))
theorem barHk (o : OpC) : Statement (.barHk o) := fun h _ e => by
  cases e
  exact (lookup_of _ 69 _ rfl rfl).trans (congrArg some (congrArg _ (getC_enc _ o)))
theorem bara (o : OpBara) : Statement (.bara o) := fun h _ e => by
  cases e
  exact (lookup_of _ 73 _ rfl rfl).trans (congrArg some (congrArg _ (getBara_enc _ o)))
theorem barw (o : OpBarw) : Statement (.barw o) := fun h _ e => by
  cases e
  exact (lookup_of _ 77 _ rfl rfl).trans (congrArg some (congrArg _ (getBarw_enc _ o)))
theorem vote (o : OpVote) : Statement (.vote o) := fun h _ e => by
  cases e
  exact (lookup_of _ 97 _ rfl rfl).trans (congrArg some (congrArg _ (getVote_enc _ o h)))
theorem shfl (o : OpShfl) : Statement (.shfl o) := fun h _ e => by
  cases e
  exact (lookup_of _ 101 _ rfl rfl).trans (congrArg some (congrArg _ (getShfl_enc _ o)))
theorem shflImm32 (o : OpShflImm) : Statement (.shflImm32 o) := fun h _ e => by
  cases e
  exact (lookup_of _ 102 _ rfl rfl).trans (congrArg some (congrArg _ (getShflImm_enc _ o)))
theorem live (o : OpLive) : Statement (.live o) := fun h _ e => by
  cases e
  exact (lookup_of _ 115 _ rfl rfl).trans (congrArg some (congrArg _ (getLive_enc _ o)))
theorem pset (o : OpPset) : Statement (.pset o) := fun h _ e => by
  cases e
  exact (lookup_of _ 129 _ rfl rfl).trans (congrArg some (congrArg _ (getPset_enc _ o)))
theorem psetImm32 (o : OpPsetImm) : Statement (.psetImm32 o) := fun h _ e => by
  cases e
  exact (lookup_of _ 130 _ rfl rfl).trans (congrArg some (congrArg _ (getPsetImm_enc _ o)))
theorem plop (o : OpPlop) : Statement (.plop o) := fun h _ e => by
  cases e
  exact (lookup_of _ 133 _ rfl rfl).trans (congrArg some (congrArg _ (getPlop_enc _ o)))
theorem pmov (o : OpD) : Statement (.pmov o) := fun h _ e => by
  cases e
  exact (lookup_of _ 137 _ rfl rfl).trans (congrArg some (congrArg _ (getD_enc _ o)))
theorem pmovImm32 (o : OpPmovImm) : Statement (.pmovImm32 o) := fun h _ e => by
  cases e
  exact (lookup_of _ 138 _ rfl rfl).trans (congrArg some (congrArg _ (getPmovImm_enc _ o)))
theorem iadd (o : OpInt2) : Statement (.iadd o) := fun h _ e => by
  cases e
  exact (lookup_of _ 257 _ rfl rfl).trans (congrArg some (congrArg _ (getInt2_enc _ true o h)))
theorem iaddImm32 (o : OpInt2Imm) : Statement (.iaddImm32 o) := fun h _ e => by
  cases e
  exact (lookup_of _ 258 _ rfl rfl).trans (congrArg some (congrArg _ (getInt2Imm_enc _ true o h)))
theorem iadd3 (o : OpInt3) : Statement (.iadd3 o) := fun h _ e => by
  cases e
  exact (lookup_of _ 261 _ (by simp [encInt3]) rfl).trans (congrArg some (congrArg _ (getInt3_enc _ true o h)))
theorem iaddc (o : OpAddc) : Statement (.iaddc o) := fun h _ e => by
  cases e
  exact (lookup_of _ 265 _ rfl rfl).trans (congrArg some (congrArg _ (getAddc_enc _ o)))
theorem iaddcImm32 (o : OpAddcImm) : Statement (.iaddcImm32 o) := fun h _ e => by
  cases e
  exact (lookup_of _ 266 _ rfl rfl).trans (congrArg some (congrArg _ (getAddcImm_enc _ o)))
theorem isub (o : OpInt2) : Statement (.isub o) := fun h _ e => by
  cases e
  exact (lookup_of _ 269 _ rfl rfl).trans (congrArg some (congrArg _ (getInt2_enc _ true o h)))
theorem isubImm32 (o : OpInt2Imm) : Statement (.isubImm32 o) := fun h _ e => by
  cases e
  exact (lookup_of _ 270 _ rfl rfl).trans (congrArg some (congrArg _ (getInt2Imm_enc _ true o h)))
theorem imul (o : OpInt2) : Statement (.imul o) := fun h _ e => by
  cases e
  exact (lookup_of _ 273 _ rfl rfl).trans (congrArg some (congrArg _ (getInt2_enc _ true o h)))
theorem imulImm32 (o : OpInt2Imm) : Statement (.imulImm32 o) := fun h _ e => by
  cases e
  exact (lookup_of _ 274 _ rfl rfl).trans (congrArg some (congrArg _ (getInt2Imm_enc _ true o h)))
theorem imulh (o : OpInt2) : Statement (.imulh o) := fun h _ e => by
  cases e
  exact (lookup_of _ 277 _ rfl rfl).trans (congrArg some (congrArg _ (getInt2_enc _ false o h)))
theorem imulhImm32 (o : OpInt2Imm) : Statement (.imulhImm32 o) := fun h _ e => by
  cases e
  exact (lookup_of _ 278 _ rfl rfl).trans (congrArg some (congrArg _ (getInt2Imm_enc _ false o h)))
theorem imad (o : OpInt3) : Statement (.imad o) := fun h _ e => by
  cases e
  exact (lookup_of _ 281 _ (by simp [encInt3]) rfl).trans (congrArg some (congrArg _ (getInt3_enc _ true o h)))
theorem imadImm32 (o : OpInt3Imm) : Statement (.imadImm32 o) := fun h _ e => by
  cases e
  exact (lookup_of _ 282 _ (by simp [encInt3Imm]) rfl).trans (congrArg some (congrArg _ (getInt3Imm_enc _ true o h)))
theorem idiv (o : OpInt2) : Statement (.idiv o) := fun h _ e => by
  cases e
  exact (lookup_of _ 285 _ rfl rfl).trans (congrArg some (congrArg _ (getInt2_enc _ true o h)))
theorem idivImm32 (o : OpInt2Imm) : Statement (.idivImm32 o) := fun h _ e => by
  cases e
  exact (lookup_of _ 286 _ rfl rfl).trans (congrArg some (congrArg _ (getInt2Imm_enc _ true o h)))
theorem irem (o : OpInt2) : Statement (.irem o) := fun h _ e => by
  cases e
  exact (lookup_of _ 289 _ rfl rfl).trans (congrArg some (congrArg _ (getInt2_enc _ false o h)))
theorem iremImm32 (o : OpInt2Imm) : Statement (.iremImm32 o) := fun h _ e => by
  cases e
  exact (lookup_of _ 290 _ rfl rfl).trans (congrArg some (congrArg _ (getInt2Imm_enc _ false o h)))
theorem imin (o : OpInt2) : Statement (.imin o) := fun h _ e => by
  cases e
  exact (lookup_of _ 293 _ rfl rfl).trans (congrArg some (congrArg _ (getInt2_enc _ false o h)))
theorem iminImm32 (o : OpInt2Imm) : Statement (.iminImm32 o) := fun h _ e => by
  cases e
  exact (lookup_of _ 294 _ rfl rfl).trans (congrArg some (congrArg _ (getInt2Imm_enc _ false o h)))
theorem imax (o : OpInt2) : Statement (.imax o) := fun h _ e => by
  cases e
  exact (lookup_of _ 297 _ rfl rfl).trans (congrArg some (congrArg _ (getInt2_enc _ false o h)))
theorem imaxImm32 (o : OpInt2Imm) : Statement (.imaxImm32 o) := fun h _ e => by
  cases e
  exact (lookup_of _ 298 _ rfl rfl).trans (congrArg some (congrArg _ (getInt2Imm_enc _ false o h)))
theorem iabs (o : OpInt1) : Statement (.iabs o) := fun h _ e => by
  cases e
  exact (lookup_of _ 301 _ rfl rfl).trans (congrArg some (congrArg _ (getInt1_enc _ true o h)))
theorem ineg (o : OpInt1) : Statement (.ineg o) := fun h _ e => by
  cases e
  exact (lookup_of _ 305 _ rfl rfl).trans (congrArg some (congrArg _ (getInt1_enc _ true o h)))
theorem isad (o : OpInt3) : Statement (.isad o) := fun h _ e => by
  cases e
  exact (lookup_of _ 309 _ (by simp [encInt3]) rfl).trans (congrArg some (congrArg _ (getInt3_enc _ false o h)))
theorem isadImm32 (o : OpInt3Imm) : Statement (.isadImm32 o) := fun h _ e => by
  cases e
  exact (lookup_of _ 310 _ (by simp [encInt3Imm]) rfl).trans (congrArg some (congrArg _ (getInt3Imm_enc _ false o h)))
theorem and (o : OpInt2) : Statement (.and o) := fun h _ e => by
  cases e
  exact (lookup_of _ 321 _ rfl rfl).trans (congrArg some (congrArg _ (getInt2_enc _ false o h)))
theorem andImm32 (o : OpInt2Imm) : Statement (.andImm32 o) := fun h _ e => by
  cases e
  exact (lookup_of _ 322 _ rfl rfl).trans (congrArg some (congrArg _ (getInt2Imm_enc _ false o h)))
theorem or (o : OpInt2) : Statement (.or o) := fun h _ e => by
  cases e
  exact (lookup_of _ 325 _ rfl rfl).trans (congrArg some (congrArg _ (getInt2_enc _ false o h)))
theorem orImm32 (o : OpInt2Imm) : Statement (.orImm32 o) := fun h _ e => by
  cases e
  exact (lookup_of _ 326 _ rfl rfl).trans (congrArg some (congrArg _ (getInt2Imm_enc _ false o h)))
theorem xor (o : OpInt2) : Statement (.xor o) := fun h _ e => by
  cases e
  exact (lookup_of _ 329 _ rfl rfl).trans (congrArg some (congrArg _ (getInt2_enc _ false o h)))
theorem xorImm32 (o : OpInt2Imm) : Statement (.xorImm32 o) := fun h _ e => by
  cases e
  exact (lookup_of _ 330 _ rfl rfl).trans (congrArg some (congrArg _ (getInt2Imm_enc _ false o h)))
theorem not (o : OpInt1) : Statement (.not o) := fun h _ e => by
  cases e
  exact (lookup_of _ 333 _ rfl rfl).trans (congrArg some (congrArg _ (getInt1_enc _ false o h)))
theorem lop3 (o : OpLop3) : Statement (.lop3 o) := fun h _ e => by
  cases e
  exact (lookup_of _ 337 _ (by simp [encLop3]) rfl).trans (congrArg some (congrArg _ (getLop3_enc _ o)))
theorem lop3Imm32 (o : OpLop3Imm) : Statement (.lop3Imm32 o) := fun h _ e => by
  cases e
  exact (lookup_of _ 338 _ (by simp [encLop3Imm]) rfl).trans (congrArg some (congrArg _ (getLop3Imm_enc _ o)))
theorem shl (o : OpInt2) : Statement (.shl o) := fun h _ e => by
  cases e
  exact (lookup_of _ 353 _ rfl rfl).trans (congrArg some (congrArg _ (getInt2_enc _ false o h)))
theorem shlImm32 (o : OpInt2Imm) : Statement (.shlImm32 o) := fun h _ e => by
  cases e
  exact (lookup_of _ 354 _ rfl rfl).trans (congrArg some (congrArg _ (getInt2Imm_enc _ false o h)))
theorem shr (o : OpInt2) : Statement (.shr o) := fun h _ e => by
  cases e
  exact (lookup_of _ 357 _ rfl rfl).trans (congrArg some (congrArg _ (getInt2_enc _ false o h)))
theorem shrImm32 (o : OpInt2Imm) : Statement (.shrImm32 o) := fun h _ e => by
  cases e
  exact (lookup_of _ 358 _ rfl rfl).trans (congrArg some (congrArg _ (getInt2Imm_enc _ false o h)))
theorem sra (o : OpInt2) : Statement (.sra o) := fun h _ e => by
  cases e
  exact (lookup_of _ 361 _ rfl rfl).trans (congrArg some (congrArg _ (getInt2_enc _ false o h)))
theorem sraImm32 (o : OpInt2Imm) : Statement (.sraImm32 o) := fun h _ e => by
  cases e
  exact (lookup_of _ 362 _ rfl rfl).trans (congrArg some (congrArg _ (getInt2Imm_enc _ false o h)))
theorem rotl (o : OpInt2) : Statement (.rotl o) := fun h _ e => by
  cases e
  exact (lookup_of _ 365 _ rfl rfl).trans (congrArg some (congrArg _ (getInt2_enc _ false o h)))
theorem rotlImm32 (o : OpInt2Imm) : Statement (.rotlImm32 o) := fun h _ e => by
  cases e
  exact (lookup_of _ 366 _ rfl rfl).trans (congrArg some (congrArg _ (getInt2Imm_enc _ false o h)))
theorem bfe (o : OpInt2) : Statement (.bfe o) := fun h _ e => by
  cases e
  exact (lookup_of _ 385 _ rfl rfl).trans (congrArg some (congrArg _ (getInt2_enc _ false o h)))
theorem bfeImm32 (o : OpInt2Imm) : Statement (.bfeImm32 o) := fun h _ e => by
  cases e
  exact (lookup_of _ 386 _ rfl rfl).trans (congrArg some (congrArg _ (getInt2Imm_enc _ false o h)))
theorem bfi (o : OpInt3) : Statement (.bfi o) := fun h _ e => by
  cases e
  exact (lookup_of _ 389 _ (by simp [encInt3]) rfl).trans (congrArg some (congrArg _ (getInt3_enc _ false o h)))
theorem bfiImm32 (o : OpInt3Imm) : Statement (.bfiImm32 o) := fun h _ e => by
  cases e
  exact (lookup_of _ 390 _ (by simp [encInt3Imm]) rfl).trans (congrArg some (congrArg _ (getInt3Imm_enc _ false o h)))
theorem popc (o : OpInt1) : Statement (.popc o) := fun h _ e => by
  cases e
  exact (lookup_of _ 393 _ rfl rfl).trans (congrArg some (congrArg _ (getInt1_enc _ false o h)))
theorem clz (o : OpInt1) : Statement (.clz o) := fun h _ e => by
  cases e
  exact (lookup_of _ 397 _ rfl rfl).trans (congrArg some (congrArg _ (getInt1_enc _ false o h)))
theorem ctz (o : OpInt1) : Statement (.ctz o) := fun h _ e => by
  cases e
  exact (lookup_of _ 401 _ rfl rfl).trans (congrArg some (congrArg _ (getInt1_enc _ false o h)))
theorem brev (o : OpInt1) : Statement (.brev o) := fun h _ e => by
  cases e
  exact (lookup_of _ 405 _ rfl rfl).trans (congrArg some (congrArg _ (getInt1_enc _ false o h)))
theorem sel (o : OpSel) : Statement (.sel o) := fun h _ e => by
  cases e
  exact (lookup_of _ 417 _ rfl rfl).trans (congrArg some (congrArg _ (getSel_enc _ o)))
theorem selImm32 (o : OpSelImm) : Statement (.selImm32 o) := fun h _ e => by
  cases e
  exact (lookup_of _ 418 _ rfl rfl).trans (congrArg some (congrArg _ (getSelImm_enc _ o)))
theorem mov (o : OpInt1) : Statement (.mov o) := fun h _ e => by
  cases e
  exact (lookup_of _ 421 _ rfl rfl).trans (congrArg some (congrArg _ (getInt1_enc _ false o h)))
theorem moviImm32 (o : OpMoviImm) : Statement (.moviImm32 o) := fun h _ e => by
  cases e
  exact (lookup_of _ 426 _ rfl rfl).trans (congrArg some (congrArg _ (getMoviImm_enc _ o)))
theorem moviX64 (o : OpMoviX) : Statement (.moviX64 o) := fun h _ e => by
  cases e
  exact (lookup_of _ 427 _ rfl rfl).trans (congrArg some (congrArg _ (getMoviX_enc _ o)))
theorem movw (o : OpMovw) : Statement (.movw o) := fun h _ e => by
  cases e
  exact (lookup_of _ 429 _ rfl rfl).trans (congrArg some (congrArg _ (getMovw_enc _ o h)))
theorem lea (o : OpLea) : Statement (.lea o) := fun h _ e => by
  cases e
  exact (lookup_of _ 433 _ rfl rfl).trans (congrArg some (congrArg _ (getLea_enc _ o)))
theorem leaImm32 (o : OpLeaImm) : Statement (.leaImm32 o) := fun h _ e => by
  cases e
  exact (lookup_of _ 434 _ rfl rfl).trans (congrArg some (congrArg _ (getLeaImm_enc _ o)))
theorem icmp (o : OpIcmp) : Statement (.icmp o) := fun h _ e => by
  cases e
  exact (lookup_of _ 449 _ rfl rfl).trans (congrArg some (congrArg _ (getIcmp_enc _ o)))
theorem icmpImm32 (o : OpIcmpImm) : Statement (.icmpImm32 o) := fun h _ e => by
  cases e
  exact (lookup_of _ 450 _ rfl rfl).trans (congrArg some (congrArg _ (getIcmpImm_enc _ o)))
theorem fadd (o : OpF2) : Statement (.fadd o) := fun h _ e => by
  cases e
  exact (lookup_of _ 513 _ rfl rfl).trans (congrArg some (congrArg _ (getF2_enc _ true o h)))
theorem faddImm32 (o : OpF2Imm) : Statement (.faddImm32 o) := fun h _ e => by
  cases e
  exact (lookup_of _ 514 _ rfl rfl).trans (congrArg some (congrArg _ (getF2Imm_enc _ true o h)))
theorem fsub (o : OpF2) : Statement (.fsub o) := fun h _ e => by
  cases e
  exact (lookup_of _ 517 _ rfl rfl).trans (congrArg some (congrArg _ (getF2_enc _ true o h)))
theorem fsubImm32 (o : OpF2Imm) : Statement (.fsubImm32 o) := fun h _ e => by
  cases e
  exact (lookup_of _ 518 _ rfl rfl).trans (congrArg some (congrArg _ (getF2Imm_enc _ true o h)))
theorem fmul (o : OpF2) : Statement (.fmul o) := fun h _ e => by
  cases e
  exact (lookup_of _ 521 _ rfl rfl).trans (congrArg some (congrArg _ (getF2_enc _ true o h)))
theorem fmulImm32 (o : OpF2Imm) : Statement (.fmulImm32 o) := fun h _ e => by
  cases e
  exact (lookup_of _ 522 _ rfl rfl).trans (congrArg some (congrArg _ (getF2Imm_enc _ true o h)))
theorem ffma (o : OpF3) : Statement (.ffma o) := fun h _ e => by
  cases e
  exact (lookup_of _ 525 _ rfl rfl).trans (congrArg some (congrArg _ (getF3_enc _ o)))
theorem ffmaImm32 (o : OpF3Imm) : Statement (.ffmaImm32 o) := fun h _ e => by
  cases e
  exact (lookup_of _ 526 _ rfl rfl).trans (congrArg some (congrArg _ (getF3Imm_enc _ o)))
theorem fdiv (o : OpF2) : Statement (.fdiv o) := fun h _ e => by
  cases e
  exact (lookup_of _ 529 _ rfl rfl).trans (congrArg some (congrArg _ (getF2_enc _ true o h)))
theorem fdivImm32 (o : OpF2Imm) : Statement (.fdivImm32 o) := fun h _ e => by
  cases e
  exact (lookup_of _ 530 _ rfl rfl).trans (congrArg some (congrArg _ (getF2Imm_enc _ true o h)))
theorem fmin (o : OpF2) : Statement (.fmin o) := fun h _ e => by
  cases e
  exact (lookup_of _ 533 _ rfl rfl).trans (congrArg some (congrArg _ (getF2_enc _ false o h)))
theorem fminImm32 (o : OpF2Imm) : Statement (.fminImm32 o) := fun h _ e => by
  cases e
  exact (lookup_of _ 534 _ rfl rfl).trans (congrArg some (congrArg _ (getF2Imm_enc _ false o h)))
theorem fmax (o : OpF2) : Statement (.fmax o) := fun h _ e => by
  cases e
  exact (lookup_of _ 537 _ rfl rfl).trans (congrArg some (congrArg _ (getF2_enc _ false o h)))
theorem fmaxImm32 (o : OpF2Imm) : Statement (.fmaxImm32 o) := fun h _ e => by
  cases e
  exact (lookup_of _ 538 _ rfl rfl).trans (congrArg some (congrArg _ (getF2Imm_enc _ false o h)))
theorem fabs (o : OpF1) : Statement (.fabs o) := fun h _ e => by
  cases e
  exact (lookup_of _ 541 _ rfl rfl).trans (congrArg some (congrArg _ (getF1_enc _ false o h)))
theorem fneg (o : OpF1) : Statement (.fneg o) := fun h _ e => by
  cases e
  exact (lookup_of _ 545 _ rfl rfl).trans (congrArg some (congrArg _ (getF1_enc _ false o h)))
theorem frcp (o : OpF1) : Statement (.frcp o) := fun h _ e => by
  cases e
  exact (lookup_of _ 577 _ rfl rfl).trans (congrArg some (congrArg _ (getF1_enc _ true o h)))
theorem frsq (o : OpF1) : Statement (.frsq o) := fun h _ e => by
  cases e
  exact (lookup_of _ 581 _ rfl rfl).trans (congrArg some (congrArg _ (getF1_enc _ true o h)))
theorem fsqrt (o : OpF1) : Statement (.fsqrt o) := fun h _ e => by
  cases e
  exact (lookup_of _ 585 _ rfl rfl).trans (congrArg some (congrArg _ (getF1_enc _ true o h)))
theorem fexp2 (o : OpF1) : Statement (.fexp2 o) := fun h _ e => by
  cases e
  exact (lookup_of _ 589 _ rfl rfl).trans (congrArg some (congrArg _ (getF1_enc _ true o h)))
theorem flog2 (o : OpF1) : Statement (.flog2 o) := fun h _ e => by
  cases e
  exact (lookup_of _ 593 _ rfl rfl).trans (congrArg some (congrArg _ (getF1_enc _ true o h)))
theorem fsin (o : OpF1) : Statement (.fsin o) := fun h _ e => by
  cases e
  exact (lookup_of _ 597 _ rfl rfl).trans (congrArg some (congrArg _ (getF1_enc _ true o h)))
theorem fcos (o : OpF1) : Statement (.fcos o) := fun h _ e => by
  cases e
  exact (lookup_of _ 601 _ rfl rfl).trans (congrArg some (congrArg _ (getF1_enc _ true o h)))
theorem frnd (o : OpF1) : Statement (.frnd o) := fun h _ e => by
  cases e
  exact (lookup_of _ 609 _ rfl rfl).trans (congrArg some (congrArg _ (getF1_enc _ true o h)))
theorem fcmp (o : OpFcmp) : Statement (.fcmp o) := fun h _ e => by
  cases e
  exact (lookup_of _ 613 _ rfl rfl).trans (congrArg some (congrArg _ (getFcmp_enc _ o)))
theorem fcmpImm32 (o : OpFcmpImm) : Statement (.fcmpImm32 o) := fun h _ e => by
  cases e
  exact (lookup_of _ 614 _ rfl rfl).trans (congrArg some (congrArg _ (getFcmpImm_enc _ o)))
theorem fclass (o : OpF1) : Statement (.fclass o) := fun h _ e => by
  cases e
  exact (lookup_of _ 617 _ rfl rfl).trans (congrArg some (congrArg _ (getF1_enc _ false o h)))
theorem hadd2 (o : OpP2) : Statement (.hadd2 o) := fun h _ e => by
  cases e
  exact (lookup_of _ 641 _ rfl rfl).trans (congrArg some (congrArg _ (getP2_enc _ true false o h)))
theorem hadd2Imm32 (o : OpP2Imm) : Statement (.hadd2Imm32 o) := fun h _ e => by
  cases e
  exact (lookup_of _ 642 _ rfl rfl).trans (congrArg some (congrArg _ (getP2Imm_enc _ true false o h)))
theorem hmul2 (o : OpP2) : Statement (.hmul2 o) := fun h _ e => by
  cases e
  exact (lookup_of _ 645 _ rfl rfl).trans (congrArg some (congrArg _ (getP2_enc _ true false o h)))
theorem hmul2Imm32 (o : OpP2Imm) : Statement (.hmul2Imm32 o) := fun h _ e => by
  cases e
  exact (lookup_of _ 646 _ rfl rfl).trans (congrArg some (congrArg _ (getP2Imm_enc _ true false o h)))
theorem hfma2 (o : OpP3) : Statement (.hfma2 o) := fun h _ e => by
  cases e
  exact (lookup_of _ 649 _ rfl rfl).trans (congrArg some (congrArg _ (getP3_enc _ o)))
theorem hfma2Imm32 (o : OpP3Imm) : Statement (.hfma2Imm32 o) := fun h _ e => by
  cases e
  exact (lookup_of _ 650 _ rfl rfl).trans (congrArg some (congrArg _ (getP3Imm_enc _ o)))
theorem hmin2 (o : OpP2) : Statement (.hmin2 o) := fun h _ e => by
  cases e
  exact (lookup_of _ 653 _ rfl rfl).trans (congrArg some (congrArg _ (getP2_enc _ true false o h)))
theorem hmin2Imm32 (o : OpP2Imm) : Statement (.hmin2Imm32 o) := fun h _ e => by
  cases e
  exact (lookup_of _ 654 _ rfl rfl).trans (congrArg some (congrArg _ (getP2Imm_enc _ true false o h)))
theorem hmax2 (o : OpP2) : Statement (.hmax2 o) := fun h _ e => by
  cases e
  exact (lookup_of _ 657 _ rfl rfl).trans (congrArg some (congrArg _ (getP2_enc _ true false o h)))
theorem hmax2Imm32 (o : OpP2Imm) : Statement (.hmax2Imm32 o) := fun h _ e => by
  cases e
  exact (lookup_of _ 658 _ rfl rfl).trans (congrArg some (congrArg _ (getP2Imm_enc _ true false o h)))
theorem vadd2 (o : OpP2) : Statement (.vadd2 o) := fun h _ e => by
  cases e
  exact (lookup_of _ 661 _ rfl rfl).trans (congrArg some (congrArg _ (getP2_enc _ false true o h)))
theorem vadd2Imm32 (o : OpP2Imm) : Statement (.vadd2Imm32 o) := fun h _ e => by
  cases e
  exact (lookup_of _ 662 _ rfl rfl).trans (congrArg some (congrArg _ (getP2Imm_enc _ false true o h)))
theorem vsub2 (o : OpP2) : Statement (.vsub2 o) := fun h _ e => by
  cases e
  exact (lookup_of _ 665 _ rfl rfl).trans (congrArg some (congrArg _ (getP2_enc _ false true o h)))
theorem vsub2Imm32 (o : OpP2Imm) : Statement (.vsub2Imm32 o) := fun h _ e => by
  cases e
  exact (lookup_of _ 666 _ rfl rfl).trans (congrArg some (congrArg _ (getP2Imm_enc _ false true o h)))
theorem vmin2 (o : OpP2) : Statement (.vmin2 o) := fun h _ e => by
  cases e
  exact (lookup_of _ 669 _ rfl rfl).trans (congrArg some (congrArg _ (getP2_enc _ false false o h)))
theorem vmin2Imm32 (o : OpP2Imm) : Statement (.vmin2Imm32 o) := fun h _ e => by
  cases e
  exact (lookup_of _ 670 _ rfl rfl).trans (congrArg some (congrArg _ (getP2Imm_enc _ false false o h)))
theorem vmax2 (o : OpP2) : Statement (.vmax2 o) := fun h _ e => by
  cases e
  exact (lookup_of _ 673 _ rfl rfl).trans (congrArg some (congrArg _ (getP2_enc _ false false o h)))
theorem vmax2Imm32 (o : OpP2Imm) : Statement (.vmax2Imm32 o) := fun h _ e => by
  cases e
  exact (lookup_of _ 674 _ rfl rfl).trans (congrArg some (congrArg _ (getP2Imm_enc _ false false o h)))
theorem acs2 (o : OpAcs2) : Statement (.acs2 o) := fun h _ e => by
  cases e
  exact (lookup_of _ 677 _ rfl rfl).trans (congrArg some (congrArg _ (getAcs2_enc _ o)))
theorem cvt (o : OpCvt) : Statement (.cvt o) := fun h _ e => by
  cases e
  exact (lookup_of _ 689 _ rfl rfl).trans (congrArg some (congrArg _ (getCvt_enc _ o h)))
theorem cvtb (o : OpCvtb) : Statement (.cvtb o) := fun h _ e => by
  cases e
  exact (lookup_of _ 695 _ rfl rfl).trans (congrArg some (congrArg _ (getCvtb_enc _ o h)))
theorem ld (o : OpLoad) : Statement (.ld o) := fun h _ e => by
  cases e
  exact (lookup_of _ 705 _ rfl rfl).trans (congrArg some (congrArg _ (getLoad_enc _ true o h)))
theorem ldImm32 (o : OpLoadImm) : Statement (.ldImm32 o) := fun h _ e => by
  cases e
  exact (lookup_of _ 706 _ rfl rfl).trans (congrArg some (congrArg _ (getLoadImm_enc _ true o h)))
theorem st (o : OpStore) : Statement (.st o) := fun h _ e => by
  cases e
  exact (lookup_of _ 709 _ rfl rfl).trans (congrArg some (congrArg _ (getStore_enc _ true o h)))
theorem stImm32 (o : OpStoreImm) : Statement (.stImm32 o) := fun h _ e => by
  cases e
  exact (lookup_of _ 710 _ rfl rfl).trans (congrArg some (congrArg _ (getStoreImm_enc _ true o h)))
theorem lds (o : OpLoad) : Statement (.lds o) := fun h _ e => by
  cases e
  exact (lookup_of _ 713 _ rfl rfl).trans (congrArg some (congrArg _ (getLoad_enc _ false o h)))
theorem ldsImm32 (o : OpLoadImm) : Statement (.ldsImm32 o) := fun h _ e => by
  cases e
  exact (lookup_of _ 714 _ rfl rfl).trans (congrArg some (congrArg _ (getLoadImm_enc _ false o h)))
theorem sts (o : OpStore) : Statement (.sts o) := fun h _ e => by
  cases e
  exact (lookup_of _ 717 _ rfl rfl).trans (congrArg some (congrArg _ (getStore_enc _ false o h)))
theorem stsImm32 (o : OpStoreImm) : Statement (.stsImm32 o) := fun h _ e => by
  cases e
  exact (lookup_of _ 718 _ rfl rfl).trans (congrArg some (congrArg _ (getStoreImm_enc _ false o h)))
theorem ldc (o : OpLoad) : Statement (.ldc o) := fun h _ e => by
  cases e
  exact (lookup_of _ 721 _ rfl rfl).trans (congrArg some (congrArg _ (getLoad_enc _ true o h)))
theorem ldcImm32 (o : OpLoadImm) : Statement (.ldcImm32 o) := fun h _ e => by
  cases e
  exact (lookup_of _ 722 _ rfl rfl).trans (congrArg some (congrArg _ (getLoadImm_enc _ true o h)))
theorem atom (o : OpAtom) : Statement (.atom o) := fun h _ e => by
  cases e
  exact (lookup_of _ 737 _ rfl rfl).trans (congrArg some (congrArg _ (getAtom_enc _ o h)))
theorem atomImm32 (o : OpAtomImm) : Statement (.atomImm32 o) := fun h _ e => by
  cases e
  exact (lookup_of _ 738 _ rfl rfl).trans (congrArg some (congrArg _ (getAtomImm_enc _ o h)))
theorem atomf (o : OpAtomf) : Statement (.atomf o) := fun h _ e => by
  cases e
  exact (lookup_of _ 741 _ rfl rfl).trans (congrArg some (congrArg _ (getAtomf_enc _ o)))
theorem atomfImm32 (o : OpAtomfImm) : Statement (.atomfImm32 o) := fun h _ e => by
  cases e
  exact (lookup_of _ 742 _ rfl rfl).trans (congrArg some (congrArg _ (getAtomfImm_enc _ o)))
theorem red (o : OpRed) : Statement (.red o) := fun h _ e => by
  cases e
  exact (lookup_of _ 745 _ rfl rfl).trans (congrArg some (congrArg _ (getRed_enc _ o h)))
theorem redImm32 (o : OpRedImm) : Statement (.redImm32 o) := fun h _ e => by
  cases e
  exact (lookup_of _ 746 _ rfl rfl).trans (congrArg some (congrArg _ (getRedImm_enc _ o h)))
theorem pft (o : OpPft) : Statement (.pft o) := fun h _ e => by
  cases e
  exact (lookup_of _ 771 _ rfl rfl).trans (congrArg some (congrArg _ (getPft_enc _ o)))
theorem cctl (o : OpCctl) : Statement (.cctl o) := fun h _ e => by
  cases e
  exact (lookup_of _ 773 _ rfl rfl).trans (congrArg some (congrArg _ (getCctl_enc _ o)))
theorem cctlImm32 (o : OpCctlImm) : Statement (.cctlImm32 o) := fun h _ e => by
  cases e
  exact (lookup_of _ 774 _ rfl rfl).trans (congrArg some (congrArg _ (getCctlImm_enc _ o)))
theorem cpin (o : OpPin) : Statement (.cpin o) := fun h _ e => by
  cases e
  exact (lookup_of _ 777 _ rfl rfl).trans (congrArg some (congrArg _ (getPin_enc _ o)))
theorem cpinImm32 (o : OpPinImm) : Statement (.cpinImm32 o) := fun h _ e => by
  cases e
  exact (lookup_of _ 778 _ rfl rfl).trans (congrArg some (congrArg _ (getPinImm_enc _ o)))
theorem cunpin (o : OpPin) : Statement (.cunpin o) := fun h _ e => by
  cases e
  exact (lookup_of _ 781 _ rfl rfl).trans (congrArg some (congrArg _ (getPin_enc _ o)))
theorem cunpinImm32 (o : OpPinImm) : Statement (.cunpinImm32 o) := fun h _ e => by
  cases e
  exact (lookup_of _ 782 _ rfl rfl).trans (congrArg some (congrArg _ (getPinImm_enc _ o)))
theorem icinv (o : OpIcinv) : Statement (.icinv o) := fun h _ e => by
  cases e
  exact (lookup_of _ 785 _ rfl rfl).trans (congrArg some (congrArg _ (getIcinv_enc _ o)))
theorem icinvImm32 (o : OpIcinvImm) : Statement (.icinvImm32 o) := fun h _ e => by
  cases e
  exact (lookup_of _ 786 _ rfl rfl).trans (congrArg some (congrArg _ (getIcinvImm_enc _ o)))
theorem tld (o : OpTileXfer) : Statement (.tld o) := fun h _ e => by
  cases e
  exact (lookup_of _ 835 _ rfl rfl).trans (congrArg some (congrArg _ (getTileXfer_enc _ false o h)))
theorem tst (o : OpTileXfer) : Statement (.tst o) := fun h _ e => by
  cases e
  exact (lookup_of _ 839 _ rfl rfl).trans (congrArg some (congrArg _ (getTileXfer_enc _ true o h)))
theorem tzero (o : OpTzero) : Statement (.tzero o) := fun h _ e => by
  cases e
  exact (lookup_of _ 841 _ rfl rfl).trans (congrArg some (congrArg _ (getTzero_enc _ o)))
theorem tmov (o : OpTmov) : Statement (.tmov o) := fun h _ e => by
  cases e
  exact (lookup_of _ 845 _ rfl rfl).trans (congrArg some (congrArg _ (getTmov_enc _ o)))
theorem tmma (o : OpTmma) : Statement (.tmma o) := fun h _ e => by
  cases e
  exact (lookup_of _ 851 _ rfl rfl).trans (congrArg some (congrArg _ (getTmma_enc _ o)))
theorem ald (o : OpAccXfer) : Statement (.ald o) := fun h _ e => by
  cases e
  exact (lookup_of _ 867 _ rfl rfl).trans (congrArg some (congrArg _ (getAccXfer_enc _ false o h)))
theorem ast (o : OpAccXfer) : Statement (.ast o) := fun h _ e => by
  cases e
  exact (lookup_of _ 871 _ rfl rfl).trans (congrArg some (congrArg _ (getAccXfer_enc _ true o h)))
theorem aclr (o : OpAclr) : Statement (.aclr o) := fun h _ e => by
  cases e
  exact (lookup_of _ 873 _ rfl rfl).trans (congrArg some (congrArg _ (getAclr_enc _ o h)))
theorem acvt (o : OpAcvt) : Statement (.acvt o) := fun h _ e => by
  cases e
  exact (lookup_of _ 877 _ rfl rfl).trans (congrArg some (congrArg _ (getAcvt_enc _ o)))
theorem afrag (o : OpAfrag) : Statement (.afrag o) := fun h _ e => by
  cases e
  exact (lookup_of _ 881 _ rfl rfl).trans (congrArg some (congrArg _ (getAfrag_enc _ o)))
theorem wld (o : OpWld) : Statement (.wld o) := fun h _ e => by
  cases e
  exact (lookup_of _ 899 _ rfl rfl).trans (congrArg some (congrArg _ (getWld_enc _ o)))
theorem wlatch (o : OpWlatch) : Statement (.wlatch o) := fun h _ e => by
  cases e
  exact (lookup_of _ 902 _ rfl rfl).trans (congrArg some (congrArg _ (getWlatch_enc _ o h)))
theorem sbuild (o : OpSbuild) : Statement (.sbuild o) := fun h _ e => by
  cases e
  exact (lookup_of _ 905 _ rfl rfl).trans (congrArg some (congrArg _ (getSbuild_enc _ o h)))
theorem sstep (o : OpSstep) : Statement (.sstep o) := fun h _ e => by
  cases e
  exact (lookup_of _ 911 _ rfl rfl).trans (congrArg some (congrArg _ (getSstep_enc _ o h)))
theorem slut (o : OpSlut) : Statement (.slut o) := fun h _ e => by
  cases e
  exact (lookup_of _ 915 _ rfl rfl).trans (congrArg some (congrArg _ (getSlut_enc _ o)))
theorem sdrain (o : OpSdrain) : Statement (.sdrain o) := fun h _ e => by
  cases e
  exact (lookup_of _ 918 _ rfl rfl).trans (congrArg some (congrArg _ (getSdrain_enc _ o h)))
theorem sclass (o : OpSclass) : Statement (.sclass o) := fun h _ e => by
  cases e
  exact (lookup_of _ 921 _ rfl rfl).trans (congrArg some (congrArg _ (getSclass_enc _ o h)))
theorem qput (o : OpQput) : Statement (.qput o) := fun h _ e => by
  cases e
  exact (lookup_of _ 929 _ rfl rfl).trans (congrArg some (congrArg _ (getQput_enc _ o)))
theorem cwait (o : OpCwait) : Statement (.cwait o) := fun h _ e => by
  cases e
  exact (lookup_of _ 934 _ rfl rfl).trans (congrArg some (congrArg _ (getCwait_enc _ o)))
theorem ctest (o : OpCwait) : Statement (.ctest o) := fun h _ e => by
  cases e
  exact (lookup_of _ 938 _ rfl rfl).trans (congrArg some (congrArg _ (getCwait_enc _ o)))
theorem sleep (o : OpSleep) : Statement (.sleep o) := fun h _ e => by
  cases e
  exact (lookup_of _ 941 _ rfl rfl).trans (congrArg some (congrArg _ (getSleep_enc _ o h)))
theorem sleepuntil (o : OpSleep) : Statement (.sleepuntil o) := fun h _ e => by
  cases e
  exact (lookup_of _ 945 _ rfl rfl).trans (congrArg some (congrArg _ (getSleep_enc _ o h)))
theorem fence (o : OpFence) : Statement (.fence o) := fun h _ e => by
  cases e
  exact (lookup_of _ 949 _ rfl rfl).trans (congrArg some (congrArg _ (getFence_enc _ o)))
theorem fencex (o : OpFencex) : Statement (.fencex o) := fun h _ e => by
  cases e
  exact (lookup_of _ 953 _ rfl rfl).trans (congrArg some (congrArg _ (getFencex_enc _ o h)))
theorem ldaq (o : OpLdaq) : Statement (.ldaq o) := fun h _ e => by
  cases e
  exact (lookup_of _ 957 _ rfl rfl).trans (congrArg some (congrArg _ (getLdaq_enc _ o)))
theorem ldaqImm32 (o : OpLdaqImm) : Statement (.ldaqImm32 o) := fun h _ e => by
  cases e
  exact (lookup_of _ 958 _ rfl rfl).trans (congrArg some (congrArg _ (getLdaqImm_enc _ o)))
theorem strl (o : OpStrl) : Statement (.strl o) := fun h _ e => by
  cases e
  exact (lookup_of _ 961 _ rfl rfl).trans (congrArg some (congrArg _ (getStrl_enc _ o)))
theorem strlImm32 (o : OpStrlImm) : Statement (.strlImm32 o) := fun h _ e => by
  cases e
  exact (lookup_of _ 962 _ rfl rfl).trans (congrArg some (congrArg _ (getStrlImm_enc _ o)))
theorem rstf (o : OpRstf) : Statement (.rstf o) := fun h _ e => by
  cases e
  exact (lookup_of _ 967 _ rfl rfl).trans (congrArg some (congrArg _ (getRstf_enc _ o)))
theorem ratom (o : OpRatom) : Statement (.ratom o) := fun h _ e => by
  cases e
  exact (lookup_of _ 971 _ rfl rfl).trans (congrArg some (congrArg _ (getRatom_enc _ o h)))
theorem publish (o : OpA) : Statement (.publish o) := fun h _ e => by
  cases e
  exact (lookup_of _ 973 _ rfl rfl).trans (congrArg some (congrArg _ (getA_enc _ o)))
theorem launch (o : OpLaunch) : Statement (.launch o) := fun h _ e => by
  cases e
  exact (lookup_of _ 979 _ rfl rfl).trans (congrArg some (congrArg _ (getLaunch_enc _ o)))
theorem feedput (o : OpQput) : Statement (.feedput o) := fun h _ e => by
  cases e
  exact (lookup_of _ 981 _ rfl rfl).trans (congrArg some (congrArg _ (getQput_enc _ o)))
theorem feedpop (o : OpFeedpop) : Statement (.feedpop o) := fun h _ e => by
  cases e
  exact (lookup_of _ 985 _ rfl rfl).trans (congrArg some (congrArg _ (getFeedpop_enc _ o)))
theorem idem (o : OpD) : Statement (.idem o) := fun h _ e => by
  cases e
  exact (lookup_of _ 989 _ rfl rfl).trans (congrArg some (congrArg _ (getD_enc _ o)))
theorem commit (o : OpC) : Statement (.commit o) := fun h _ e => by
  cases e
  exact (lookup_of _ 993 _ rfl rfl).trans (congrArg some (congrArg _ (getC_enc _ o)))
theorem jread (o : OpJread) : Statement (.jread o) := fun h _ e => by
  cases e
  exact (lookup_of _ 997 _ rfl rfl).trans (congrArg some (congrArg _ (getJread_enc _ o)))
theorem opreq (o : OpDA) : Statement (.opreq o) := fun h _ e => by
  cases e
  exact (lookup_of _ 1001 _ rfl rfl).trans (congrArg some (congrArg _ (getDA_enc _ o)))
theorem trap (o : OpTrap) : Statement (.trap o) := fun h _ e => by
  cases e
  exact (lookup_of _ 1009 _ rfl rfl).trans (congrArg some (by simp [getTrapCell, encTrap]))
theorem ebrk (o : OpC) : Statement (.ebrk o) := fun h _ e => by
  cases e
  exact (lookup_of _ 1009 _ rfl rfl).trans (congrArg some (by simp [getTrapCell, encEbrk]))
theorem tret (o : OpTret) : Statement (.tret o) := fun h _ e => by
  cases e
  exact (lookup_of _ 1009 _ rfl rfl).trans (congrArg some (by simp [getTrapCell, encTret]))
theorem sysrd (o : OpSysrd) : Statement (.sysrd o) := fun h _ e => by
  cases e
  exact (lookup_of _ 1013 _ rfl rfl).trans (congrArg some (congrArg _ (getSysrd_enc _ o)))
theorem syswr (o : OpSyswr) : Statement (.syswr o) := fun h _ e => by
  cases e
  exact (lookup_of _ 1017 _ rfl rfl).trans (congrArg some (congrArg _ (getSyswr_enc _ o)))
theorem tlbinv (o : OpTlbinv) : Statement (.tlbinv o) := fun h _ e => by
  cases e
  exact (lookup_of _ 1021 _ rfl rfl).trans (congrArg some ((show getFFCell (encTlbinv 0xFF o) = .tlbinv (getTlbinv (encTlbinv 0xFF o)) from by simp [getFFCell, encTlbinv]).trans (congrArg Instr.tlbinv (getTlbinv_enc _ _ h))))
theorem ramode (o : OpRamode) : Statement (.ramode o) := fun h _ e => by
  cases e
  exact (lookup_of _ 1021 _ rfl rfl).trans (congrArg some (by simp [getFFCell, encRamode]))
theorem loadDataReturn (id : Nat) (lanes : List Nat) : Statement (.loadDataReturn id lanes) := fun _ _ e => by cases e
theorem writeComplete (id : Nat) (lanes : List Nat) : Statement (.writeComplete id lanes) := fun _ _ e => by cases e
theorem globallyComplete (strand : Nat) : Statement (.globallyComplete strand) := fun _ _ e => by cases e
theorem cacheOpComplete (id : Nat) : Statement (.cacheOpComplete id) := fun _ _ e => by cases e
theorem arTransferComplete (id : Nat) : Statement (.arTransferComplete id) := fun _ _ e => by cases e
theorem fairnessPromotion (spindle : Nat) : Statement (.fairnessPromotion spindle) := fun _ _ e => by cases e
theorem runaheadEntry (strand : Nat) : Statement (.runaheadEntry strand) := fun _ _ e => by cases e
theorem runaheadExit (strand : Nat) : Statement (.runaheadExit strand) := fun _ _ e => by cases e
theorem sleepWake (strand : Nat) : Statement (.sleepWake strand) := fun _ _ e => by cases e
theorem sleepuntilWake (strand : Nat) : Statement (.sleepuntilWake strand) := fun _ _ e => by cases e
theorem cwaitSatisfied (strand : Nat) : Statement (.cwaitSatisfied strand) := fun _ _ e => by cases e
theorem feedpopReissue (strand : Nat) : Statement (.feedpopReissue strand) := fun _ _ e => by cases e
theorem arrayStep (spindle : Nat) : Statement (.arrayStep spindle) := fun _ _ e => by cases e
theorem skeinRetire (skein : Nat) : Statement (.skeinRetire skein) := fun _ _ e => by cases e
theorem slotConsume (slot : Nat) : Statement (.slotConsume slot) := fun _ _ e => by cases e
theorem copy (pkt chunk : Nat) : Statement (.copy pkt chunk) := fun _ _ e => by cases e
theorem copyArray (pkt chunk : Nat) : Statement (.copyArray pkt chunk) := fun _ _ e => by cases e
theorem followOnArrayCommand (pkt : Nat) : Statement (.followOnArrayCommand pkt) := fun _ _ e => by cases e
theorem gather (pkt chunk : Nat) : Statement (.gather pkt chunk) := fun _ _ e => by cases e
theorem fill (pkt chunk : Nat) : Statement (.fill pkt chunk) := fun _ _ e => by cases e
theorem decomp (pkt chunk : Nat) : Statement (.decomp pkt chunk) := fun _ _ e => by cases e
theorem remoteCopy (pkt chunk : Nat) : Statement (.remoteCopy pkt chunk) := fun _ _ e => by cases e
theorem signal (pkt : Nat) : Statement (.signal pkt) := fun _ _ e => by cases e
theorem waitSatisfied (slot : Nat) : Statement (.waitSatisfied slot) := fun _ _ e => by cases e
theorem halt (hank : Nat) : Statement (.halt hank) := fun _ _ e => by cases e
theorem resume (hank : Nat) : Statement (.resume hank) := fun _ _ e => by cases e
theorem tickClose (em : List (Option Nat)) : Statement (.tickClose em) := fun _ _ e => by cases e
theorem readingForm (vd : Nat) : Statement (.readingForm vd) := fun _ _ e => by cases e
theorem voltageStepEnd (pid : Nat) : Statement (.voltageStepEnd pid) := fun _ _ e => by cases e
theorem frequencyStepEnd (pid : Nat) : Statement (.frequencyStepEnd pid) := fun _ _ e => by cases e
theorem invalidationComplete (inv : Nat) : Statement (.invalidationComplete inv) := fun _ _ e => by cases e
theorem arrayWatchdog (spindle : Nat) : Statement (.arrayWatchdog spindle) := fun _ _ e => by cases e
theorem uncorrectableError (err : ErrSite) : Statement (.uncorrectableError err) := fun _ _ e => by cases e
theorem correctedError (err : ErrSite) : Statement (.correctedError err) := fun _ _ e => by cases e
theorem parityCommit (stripe : Nat) : Statement (.parityCommit stripe) := fun _ _ e => by cases e
theorem shrinkComplete (vd : Nat) : Statement (.shrinkComplete vd) := fun _ _ e => by cases e
theorem pinwinComplete (vd win : Nat) : Statement (.pinwinComplete vd win) := fun _ _ e => by cases e
theorem cmpwinZeroComplete (win : Nat) : Statement (.cmpwinZeroComplete win) := fun _ _ e => by cases e
theorem fabricReplayTimeout (port tenant : Nat) : Statement (.fabricReplayTimeout port tenant) := fun _ _ e => by cases e
theorem schedulerRun : Statement (.schedulerRun) := fun _ _ e => by cases e
theorem grantLapse : Statement (.grantLapse) := fun _ _ e => by cases e
theorem relevelComplete : Statement (.relevelComplete) := fun _ _ e => by cases e
theorem registerFill (skein block quad : Nat) : Statement (.registerFill skein block quad) := fun _ _ e => by cases e
theorem launchPacket (slot : Nat) : Statement (.launchPacket slot) := fun _ _ e => by cases e
theorem feedPacket (slot : Nat) : Statement (.feedPacket slot) := fun _ _ e => by cases e
theorem ib (slot : Nat) : Statement (.ib slot) := fun _ _ e => by cases e
theorem waitPacket (slot : Nat) : Statement (.waitPacket slot) := fun _ _ e => by cases e
theorem cprPreemptGo (value : BitVec 64) : Statement (.cprPreemptGo value) := fun _ _ e => by cases e
theorem powerGrant (source : BitVec 10) (flit : List Byte) : Statement (.powerGrant source flit) := fun _ _ e => by cases e
theorem vdOpreq (vd : Nat) (value : BitVec 64) : Statement (.vdOpreq vd value) := fun _ _ e => by cases e
theorem millOpcap (mill : Nat) (value : BitVec 64) : Statement (.millOpcap mill value) := fun _ _ e => by cases e
theorem millOpfloor (mill : Nat) (value : BitVec 64) : Statement (.millOpfloor mill value) := fun _ _ e => by cases e
theorem vdOpallow (vd : Nat) (value : BitVec 64) : Statement (.vdOpallow vd value) := fun _ _ e => by cases e
theorem millPart (mill : Nat) (value : BitVec 64) : Statement (.millPart mill value) := fun _ _ e => by cases e
theorem supplyDroop (region : Region) : Statement (.supplyDroop region) := fun _ _ e => by cases e
theorem marginWarning (region : Region) : Statement (.marginWarning region) := fun _ _ e => by cases e
theorem powerOnReset (boot : BootInput) : Statement (.powerOnReset boot) := fun _ _ e => by cases e
theorem deviceReset (boot : BootInput) : Statement (.deviceReset boot) := fun _ _ e => by cases e
theorem cpReset (boot : BootInput) : Statement (.cpReset boot) := fun _ _ e => by cases e
theorem cpWatchdog : Statement (.cpWatchdog) := fun _ _ e => by cases e
theorem tsyncLost : Statement (.tsyncLost) := fun _ _ e => by cases e
theorem fabricPacketReceive (port : Nat) (pkt : FabPacket) : Statement (.fabricPacketReceive port pkt) := fun _ _ e => by cases e
theorem fabricNack (port tenant : Nat) (seq : BitVec 12) : Statement (.fabricNack port tenant seq) := fun _ _ e => by cases e
theorem fabricAck (port tenant : Nat) (seq : BitVec 12) : Statement (.fabricAck port tenant seq) := fun _ _ e => by cases e
theorem coherenceInvalidate (line : Nat) : Statement (.coherenceInvalidate line) := fun _ _ e => by cases e
theorem backInvalidation (line : Nat) : Statement (.backInvalidation line) := fun _ _ e => by cases e
theorem switchFailure (lines : List Nat) : Statement (.switchFailure lines) := fun _ _ e => by cases e
theorem homeonlyClear (value : BitVec 64) : Statement (.homeonlyClear value) := fun _ _ e => by cases e
theorem capabilityAdvertise (pkg : BitVec 10) (schemes : Option (BitVec 8)) : Statement (.capabilityAdvertise pkg schemes) := fun _ _ e => by cases e
theorem vdInvcmdGo (vd : Nat) (value : BitVec 64) : Statement (.vdInvcmdGo vd value) := fun _ _ e => by cases e
theorem vdRunGo (vd : Nat) (value : BitVec 64) : Statement (.vdRunGo vd value) := fun _ _ e => by cases e
theorem vdFltres (vd : Nat) (value : BitVec 64) : Statement (.vdFltres vd value) := fun _ _ e => by cases e
theorem cprHfltres (value : BitVec 64) : Statement (.cprHfltres value) := fun _ _ e => by cases e
theorem faultQueueHead (queue : FltQueue) (base : Bool) (value : BitVec 64) : Statement (.faultQueueHead queue base value) := fun _ _ e => by cases e
theorem thawResume (value : BitVec 64) : Statement (.thawResume value) := fun _ _ e => by cases e
theorem thawEnd (value : BitVec 64) : Statement (.thawEnd value) := fun _ _ e => by cases e
theorem cprQkick (value : BitVec 64) : Statement (.cprQkick value) := fun _ _ e => by cases e
theorem cprAreset (value : BitVec 64) : Statement (.cprAreset value) := fun _ _ e => by cases e
theorem spindleLost (spindle : Nat) : Statement (.spindleLost spindle) := fun _ _ e => by cases e
theorem millEinj (mill : Nat) (value : BitVec 64) : Statement (.millEinj mill value) := fun _ _ e => by cases e
theorem stackLost (stack : Nat) : Statement (.stackLost stack) := fun _ _ e => by cases e
theorem hbmRelevelGo (value : BitVec 64) : Statement (.hbmRelevelGo value) := fun _ _ e => by cases e
theorem hbmCmpwin (win : Nat) (value : BitVec 64) : Statement (.hbmCmpwin win value) := fun _ _ e => by cases e
theorem vdL2share (vd : Nat) (value : BitVec 64) : Statement (.vdL2share vd value) := fun _ _ e => by cases e
theorem vdPinwin (vd win : Nat) (value : BitVec 64) : Statement (.vdPinwin vd win value) := fun _ _ e => by cases e
theorem contextCreate (vd ctx : Nat) : Statement (.contextCreate vd ctx) := fun _ _ e => by cases e
theorem contextEnd (vd ctx : Nat) : Statement (.contextEnd vd ctx) := fun _ _ e => by cases e
theorem bktAdj (vd : Nat) (ctx : Option Nat) (delta : BitVec 64) : Statement (.bktAdj vd ctx delta) := fun _ _ e => by cases e
theorem ctxSchedWeight (vd ctx : Nat) (value : BitVec 64) : Statement (.ctxSchedWeight vd ctx value) := fun _ _ e => by cases e
theorem ldBind (ld : Nat) : Statement (.ldBind ld) := fun _ _ e => by cases e
theorem ldUnbind (ld : Nat) : Statement (.ldUnbind ld) := fun _ _ e => by cases e
theorem hostAtomic (op : HostAtomOp) (addr : Nat) (wide : Bool) (val cmp : BitVec 64) : Statement (.hostAtomic op addr wide val cmp) := fun _ _ e => by cases e
theorem hostMemoryAccess (addr : Nat) (write : Option (List Byte)) : Statement (.hostMemoryAccess addr write) := fun _ _ e => by cases e
theorem registerWrite (reg : RegName) (value : BitVec 64) (fm : Bool) : Statement (.registerWrite reg value fm) := fun _ _ e => by cases e
theorem portDegrade (port : Nat) (lanes : BitVec 4) : Statement (.portDegrade port lanes) := fun _ _ e => by cases e
theorem powerLoss : Statement (.powerLoss) := fun _ _ e => by cases e
theorem droopPasses (region : Region) : Statement (.droopPasses region) := fun _ _ e => by cases e
theorem podTimebaseMessage (gtb : BitVec 64) : Statement (.podTimebaseMessage gtb) := fun _ _ e => by cases e

end Laws.RoundTrip
end Sys2Proof
end

