-- ==== Sys2Proof/Tests/Slice0.lean ====
section
/-! SUPPORT. Tests: one word of each instruction of the table, put together from the spec's field tables, decodes to the
instruction; ill-formed terms and words are refused; a few results; and, for every statement with hypotheses, states and operands that meet them. -/
set_option maxRecDepth 100000
namespace Sys2Proof.Tests
open Sys2Proof.Machine

/-! ### Decoding: words written out from 05 R116 to R121, R134 to R138 and each instruction's fields -/

def words_control1 : List (Nat × Nat) :=
  [(64, 0x0000_0000_0000_3C01),
   (96, 0xFFFF_FFFE_0000_0000_0000_3C06),
   (96, 0x0000_0005_0000_0000_0000_0C0A),
   (64, 0x0000_0200_0400_3C0D),
   (96, 0x0000_0007_0000_0000_0028_3C12),
   (64, 0x0000_0000_0428_3C15),
   (64, 0x0000_0000_2800_0819),
   (96, 0x0000_0010_0040_0420_0612_3C22),
   (64, 0x0000_0000_0000_3C25),
   (64, 0x0000_0000_0000_3C29),
   (64, 0x0050_0000_0002_3C2D),
   (64, 0x0000_0000_0000_3C41),
   (64, 0x0000_0000_0000_3C45),
   (64, 0x0010_0000_0002_3C49)]
def samples_control1 : List Instr :=
  [.nop ⟨⟨15, 0⟩⟩,
   .bra ⟨⟨15, 0⟩, 0xFFFFFFFE⟩,
   .brc ⟨⟨3, 0⟩, 5⟩,
   .brx ⟨⟨15, 0⟩, ⟨2, true⟩⟩,
   .call ⟨⟨15, 0⟩, 20, 7⟩,
   .callx ⟨⟨15, 0⟩, 20, ⟨2, false⟩⟩,
   .ret ⟨⟨2, 0⟩, ⟨20, false⟩⟩,
   .fspawn ⟨⟨15, 0⟩, 9, ⟨3, false⟩, ⟨16, true⟩, 4, 0x10⟩,
   .fend ⟨⟨15, 0⟩⟩,
   .fyield ⟨⟨15, 0⟩⟩,
   .fid ⟨⟨15, 0⟩, 1, .spindle⟩,
   .barSk ⟨⟨15, 0⟩⟩,
   .barHk ⟨⟨15, 0⟩⟩,
   .bara ⟨⟨15, 0⟩, 1, true⟩]
theorem test_decode_control1 : words_control1.map (fun p => decodeTableWord p.1 p.2) = samples_control1.map some := by decide

def words_control2 : List (Nat × Nat) :=
  [(64, 0x0000_0000_0200_3C4D),
   (64, 0x0550_0000_0004_3C61),
   (64, 0x03E0_021A_0402_3C65),
   (96, 0x0000_0010_0130_0000_0402_3C66),
   (128, 0x0000_8000_0000_0003_0000_0000_0000_3C73),
   (64, 0x0000_0404_0200_3C81),
   (96, 0x0000_7FFF_0000_0000_0200_3C82),
   (64, 0x0300_4006_0402_3C85),
   (64, 0x0000_0000_000C_3C89),
   (96, 0x0007_0005_0000_0000_0000_3C8A)]
def samples_control2 : List Instr :=
  [.barw ⟨⟨15, 0⟩, ⟨1, false⟩, false⟩,
   .vote ⟨⟨15, 0⟩, .any, 2, ⟨0, false⟩, 5, true⟩,
   .shfl ⟨⟨15, 0⟩, 1, ⟨2, true⟩, ⟨13, false⟩, .down, 15⟩,
   .shflImm32 ⟨⟨15, 0⟩, 1, ⟨2, false⟩, 16, .xor, 4⟩,
   .live ⟨⟨15, 0⟩, 0x800000000003⟩,
   .pset ⟨⟨15, 0⟩, ⟨1, false⟩, ⟨2, true⟩⟩,
   .psetImm32 ⟨⟨15, 0⟩, ⟨1, false⟩, 0x7FFF⟩,
   .plop ⟨⟨15, 0⟩, 1, 2, 3, 4, 0x30⟩,
   .pmov ⟨⟨15, 0⟩, 6⟩,
   .pmovImm32 ⟨⟨15, 0⟩, 0x5, 0x7⟩]
theorem test_decode_control2 : words_control2.map (fun p => decodeTableWord p.1 p.2) = samples_control2.map some := by decide

def words_integer1 : List (Nat × Nat) :=
  [(64, 0x00A0_0590_080C_3D01),
   (96, 0x8000_0001_0010_0200_0A0C_3D02),
   (64, 0x004F_E004_020C_3D05),
   (64, 0xF310_0004_020C_3D09),
   (96, 0x0000_0009_2F10_0000_020C_3D0A),
   (64, 0x00A0_0590_080C_3D0D),
   (96, 0x8000_0001_0010_0200_0A0C_3D0E),
   (64, 0x00A0_0590_080C_3D11),
   (96, 0x8000_0001_0010_0200_0A0C_3D12),
   (64, 0x0020_0590_080C_3D15),
   (96, 0x8000_0001_0010_0200_0A0C_3D16),
   (64, 0x0090_8808_040C_3D19),
   (96, 0x0000_000B_0000_3000_020C_3D1A),
   (64, 0x00A0_0590_080C_3D1D)]
def samples_integer1 : List Instr :=
  [.iadd ⟨⟨15, 0⟩, 6, ⟨4, false⟩, ⟨200, true⟩, .s64, true⟩,
   .iaddImm32 ⟨⟨15, 0⟩, 6, ⟨5, true⟩, 0x80000001, .z32, false⟩,
   .iadd3 ⟨⟨15, 0⟩, 6, ⟨1, false⟩, ⟨2, false⟩, .imm 0xFE, .s32, false⟩,
   .iaddc ⟨⟨15, 0⟩, 6, ⟨1, false⟩, ⟨2, false⟩, .z32, 3, 15⟩,
   .iaddcImm32 ⟨⟨15, 0⟩, 6, ⟨1, false⟩, 9, .z32, 15, 2⟩,
   .isub ⟨⟨15, 0⟩, 6, ⟨4, false⟩, ⟨200, true⟩, .s64, true⟩,
   .isubImm32 ⟨⟨15, 0⟩, 6, ⟨5, true⟩, 0x80000001, .z32, false⟩,
   .imul ⟨⟨15, 0⟩, 6, ⟨4, false⟩, ⟨200, true⟩, .s64, true⟩,
   .imulImm32 ⟨⟨15, 0⟩, 6, ⟨5, true⟩, 0x80000001, .z32, false⟩,
   .imulh ⟨⟨15, 0⟩, 6, ⟨4, false⟩, ⟨200, true⟩, .s64, false⟩,
   .imulhImm32 ⟨⟨15, 0⟩, 6, ⟨5, true⟩, 0x80000001, .z32, false⟩,
   .imad ⟨⟨15, 0⟩, 6, ⟨2, false⟩, ⟨4, false⟩, .reg ⟨8, true⟩, .z32, true⟩,
   .imadImm32 ⟨⟨15, 0⟩, 6, ⟨1, false⟩, 11, .reg ⟨3, false⟩, .s32, false⟩,
   .idiv ⟨⟨15, 0⟩, 6, ⟨4, false⟩, ⟨200, true⟩, .s64, true⟩]
theorem test_decode_integer1 : words_integer1.map (fun p => decodeTableWord p.1 p.2) = samples_integer1.map some := by decide

def words_integer2 : List (Nat × Nat) :=
  [(96, 0x8000_0001_0010_0200_0A0C_3D1E),
   (64, 0x0020_0590_080C_3D21),
   (96, 0x8000_0001_0010_0200_0A0C_3D22),
   (64, 0x0020_0590_080C_3D25),
   (96, 0x8000_0001_0010_0200_0A0C_3D26),
   (64, 0x0020_0590_080C_3D29),
   (96, 0x8000_0001_0010_0200_0A0C_3D2A),
   (64, 0x0080_0000_020C_3D2D),
   (64, 0x0020_0000_040C_3D31),
   (64, 0x0010_3004_020C_3D35),
   (96, 0x0000_0002_0050_3000_020C_3D36),
   (64, 0x0020_0590_080C_3D41),
   (96, 0x8000_0001_0010_0200_0A0C_3D42),
   (64, 0x0020_0590_080C_3D45)]
def samples_integer2 : List Instr :=
  [.idivImm32 ⟨⟨15, 0⟩, 6, ⟨5, true⟩, 0x80000001, .z32, false⟩,
   .irem ⟨⟨15, 0⟩, 6, ⟨4, false⟩, ⟨200, true⟩, .s64, false⟩,
   .iremImm32 ⟨⟨15, 0⟩, 6, ⟨5, true⟩, 0x80000001, .z32, false⟩,
   .imin ⟨⟨15, 0⟩, 6, ⟨4, false⟩, ⟨200, true⟩, .s64, false⟩,
   .iminImm32 ⟨⟨15, 0⟩, 6, ⟨5, true⟩, 0x80000001, .z32, false⟩,
   .imax ⟨⟨15, 0⟩, 6, ⟨4, false⟩, ⟨200, true⟩, .s64, false⟩,
   .imaxImm32 ⟨⟨15, 0⟩, 6, ⟨5, true⟩, 0x80000001, .z32, false⟩,
   .iabs ⟨⟨15, 0⟩, 6, ⟨1, false⟩, .s32, true⟩,
   .ineg ⟨⟨15, 0⟩, 6, ⟨2, false⟩, .s64, false⟩,
   .isad ⟨⟨15, 0⟩, 6, ⟨1, false⟩, ⟨2, false⟩, .reg ⟨3, false⟩, .z32, false⟩,
   .isadImm32 ⟨⟨15, 0⟩, 6, ⟨1, false⟩, 2, .imm 3, .z32, false⟩,
   .and ⟨⟨15, 0⟩, 6, ⟨4, false⟩, ⟨200, true⟩, .s64, false⟩,
   .andImm32 ⟨⟨15, 0⟩, 6, ⟨5, true⟩, 0x80000001, .z32, false⟩,
   .or ⟨⟨15, 0⟩, 6, ⟨4, false⟩, ⟨200, true⟩, .s64, false⟩]
theorem test_decode_integer2 : words_integer2.map (fun p => decodeTableWord p.1 p.2) = samples_integer2.map some := by decide

def words_integer3 : List (Nat × Nat) :=
  [(96, 0x8000_0001_0010_0200_0A0C_3D46),
   (64, 0x0020_0590_080C_3D49),
   (96, 0x8000_0001_0010_0200_0A0C_3D4A),
   (64, 0x0010_0000_020C_3D4D),
   (64, 0x9600_3004_020C_3D51),
   (96, 0x0000_0002_E840_3000_020C_3D52)]
def samples_integer3 : List Instr :=
  [.orImm32 ⟨⟨15, 0⟩, 6, ⟨5, true⟩, 0x80000001, .z32, false⟩,
   .xor ⟨⟨15, 0⟩, 6, ⟨4, false⟩, ⟨200, true⟩, .s64, false⟩,
   .xorImm32 ⟨⟨15, 0⟩, 6, ⟨5, true⟩, 0x80000001, .z32, false⟩,
   .not ⟨⟨15, 0⟩, 6, ⟨1, false⟩, .z32, false⟩,
   .lop3 ⟨⟨15, 0⟩, 6, ⟨1, false⟩, ⟨2, false⟩, .reg ⟨3, false⟩, .s32, 0x96⟩,
   .lop3Imm32 ⟨⟨15, 0⟩, 6, ⟨1, false⟩, 2, .imm 3, .s32, 0xE8⟩]
theorem test_decode_integer3 : words_integer3.map (fun p => decodeTableWord p.1 p.2) = samples_integer3.map some := by decide

def words_bits1 : List (Nat × Nat) :=
  [(64, 0x0020_0590_080C_3D61),
   (96, 0x8000_0001_0010_0200_0A0C_3D62),
   (64, 0x0020_0590_080C_3D65),
   (96, 0x8000_0001_0010_0200_0A0C_3D66),
   (64, 0x0020_0590_080C_3D69),
   (96, 0x8000_0001_0010_0200_0A0C_3D6A),
   (64, 0x0020_0590_080C_3D6D),
   (96, 0x8000_0001_0010_0200_0A0C_3D6E),
   (64, 0x0020_0590_080C_3D81),
   (96, 0x8000_0001_0010_0200_0A0C_3D82),
   (64, 0x0000_3004_020C_3D85),
   (96, 0x0000_0804_0000_3000_020C_3D86),
   (64, 0x0030_0200_040C_3D89),
   (64, 0x0030_0200_040C_3D8D)]
def samples_bits1 : List Instr :=
  [.shl ⟨⟨15, 0⟩, 6, ⟨4, false⟩, ⟨200, true⟩, .s64, false⟩,
   .shlImm32 ⟨⟨15, 0⟩, 6, ⟨5, true⟩, 0x80000001, .z32, false⟩,
   .shr ⟨⟨15, 0⟩, 6, ⟨4, false⟩, ⟨200, true⟩, .s64, false⟩,
   .shrImm32 ⟨⟨15, 0⟩, 6, ⟨5, true⟩, 0x80000001, .z32, false⟩,
   .sra ⟨⟨15, 0⟩, 6, ⟨4, false⟩, ⟨200, true⟩, .s64, false⟩,
   .sraImm32 ⟨⟨15, 0⟩, 6, ⟨5, true⟩, 0x80000001, .z32, false⟩,
   .rotl ⟨⟨15, 0⟩, 6, ⟨4, false⟩, ⟨200, true⟩, .s64, false⟩,
   .rotlImm32 ⟨⟨15, 0⟩, 6, ⟨5, true⟩, 0x80000001, .z32, false⟩,
   .bfe ⟨⟨15, 0⟩, 6, ⟨4, false⟩, ⟨200, true⟩, .s64, false⟩,
   .bfeImm32 ⟨⟨15, 0⟩, 6, ⟨5, true⟩, 0x80000001, .z32, false⟩,
   .bfi ⟨⟨15, 0⟩, 6, ⟨1, false⟩, ⟨2, false⟩, .reg ⟨3, false⟩, .s32, false⟩,
   .bfiImm32 ⟨⟨15, 0⟩, 6, ⟨1, false⟩, 0x0804, .reg ⟨3, false⟩, .s32, false⟩,
   .popc ⟨⟨15, 0⟩, 6, ⟨2, true⟩, .z64, false⟩,
   .clz ⟨⟨15, 0⟩, 6, ⟨2, true⟩, .z64, false⟩]
theorem test_decode_bits1 : words_bits1.map (fun p => decodeTableWord p.1 p.2) = samples_bits1.map some := by decide

def words_bits2 : List (Nat × Nat) :=
  [(64, 0x0030_0200_040C_3D91),
   (64, 0x0030_0200_040C_3D95),
   (64, 0x1310_0004_020C_3DA1),
   (96, 0x0000_0002_0310_0000_020C_3DA2),
   (64, 0x0010_0001_FE0C_3DA5),
   (96, 0x1234_5678_0020_0000_000C_3DAA),
   (128, 0x1234_5678_9ABC_DEF0_0030_0000_000C_3DAB),
   (64, 0x0330_017D_DE0C_3DAD),
   (64, 0x0700_000A_040C_3DB1),
   (96, 0x0000_0005_0210_0000_040C_3DB2),
   (64, 0x2200_0012_0202_3DC1),
   (96, 0x0000_0009_1530_0000_041C_3DC2)]
def samples_bits2 : List Instr :=
  [.ctz ⟨⟨15, 0⟩, 6, ⟨2, true⟩, .z64, false⟩,
   .brev ⟨⟨15, 0⟩, 6, ⟨2, true⟩, .z64, false⟩,
   .sel ⟨⟨15, 0⟩, 6, ⟨1, false⟩, ⟨2, false⟩, .z32, 3, true⟩,
   .selImm32 ⟨⟨15, 0⟩, 6, ⟨1, false⟩, 2, .z32, 3, false⟩,
   .mov ⟨⟨15, 0⟩, 6, ⟨255, false⟩, .z32, false⟩,
   .moviImm32 ⟨⟨15, 0⟩, 6, 0x12345678, .s64⟩,
   .moviX64 ⟨⟨15, 0⟩, 6, 0x123456789ABCDEF0, true⟩,
   .movw ⟨⟨15, 0⟩, 6, 0xBEEF, .z64, 3⟩,
   .lea ⟨⟨15, 0⟩, 6, ⟨2, false⟩, ⟨5, false⟩, .s32, 7⟩,
   .leaImm32 ⟨⟨15, 0⟩, 6, ⟨2, false⟩, 5, .z32, 2⟩,
   .icmp ⟨⟨15, 0⟩, 1, ⟨1, false⟩, ⟨9, false⟩, .s32, .lt, .or⟩,
   .icmpImm32 ⟨⟨15, 0⟩, 14, ⟨2, false⟩, 9, .z64, .ge, .and⟩]
theorem test_decode_bits2 : words_bits2.map (fun p => decodeTableWord p.1 p.2) = samples_bits2.map some := by decide

def words_float1 : List (Nat × Nat) :=
  [(64, 0x00B0_0404_020C_3E01),
   (96, 0x3F80_0000_0170_0000_020C_3E02),
   (64, 0x00B0_0404_020C_3E05),
   (96, 0x3F80_0000_0170_0000_020C_3E06),
   (64, 0x00B0_0404_020C_3E09),
   (96, 0x3F80_0000_0170_0000_020C_3E0A),
   (64, 0x0210_3804_020C_3E0D),
   (96, 0x4000_0000_01A0_3000_020C_3E0E),
   (64, 0x00B0_0404_020C_3E11),
   (96, 0x3F80_0000_0170_0000_020C_3E12),
   (64, 0x0080_0404_020C_3E15),
   (96, 0x3F80_0000_0100_0000_020C_3E16),
   (64, 0x0080_0404_020C_3E19),
   (96, 0x3F80_0000_0100_0000_020C_3E1A)]
def samples_float1 : List Instr :=
  [.fadd ⟨⟨15, 0⟩, 6, ⟨1, false⟩, ⟨2, true⟩, .rdn, true, false⟩,
   .faddImm32 ⟨⟨15, 0⟩, 6, ⟨1, false⟩, 0x3F800000, .dyn, false, true⟩,
   .fsub ⟨⟨15, 0⟩, 6, ⟨1, false⟩, ⟨2, true⟩, .rdn, true, false⟩,
   .fsubImm32 ⟨⟨15, 0⟩, 6, ⟨1, false⟩, 0x3F800000, .dyn, false, true⟩,
   .fmul ⟨⟨15, 0⟩, 6, ⟨1, false⟩, ⟨2, true⟩, .rdn, true, false⟩,
   .fmulImm32 ⟨⟨15, 0⟩, 6, ⟨1, false⟩, 0x3F800000, .dyn, false, true⟩,
   .ffma ⟨⟨15, 0⟩, 6, ⟨1, false⟩, ⟨2, false⟩, ⟨3, true⟩, .rtz, false, false, true⟩,
   .ffmaImm32 ⟨⟨15, 0⟩, 6, ⟨1, false⟩, 0x40000000, ⟨3, false⟩, .rup, true, true, false⟩,
   .fdiv ⟨⟨15, 0⟩, 6, ⟨1, false⟩, ⟨2, true⟩, .rdn, true, false⟩,
   .fdivImm32 ⟨⟨15, 0⟩, 6, ⟨1, false⟩, 0x3F800000, .dyn, false, true⟩,
   .fmin ⟨⟨15, 0⟩, 6, ⟨1, false⟩, ⟨2, true⟩, .rne, true, false⟩,
   .fminImm32 ⟨⟨15, 0⟩, 6, ⟨1, false⟩, 0x3F800000, .rne, false, true⟩,
   .fmax ⟨⟨15, 0⟩, 6, ⟨1, false⟩, ⟨2, true⟩, .rne, true, false⟩,
   .fmaxImm32 ⟨⟨15, 0⟩, 6, ⟨1, false⟩, 0x3F800000, .rne, false, true⟩]
theorem test_decode_float1 : words_float1.map (fun p => decodeTableWord p.1 p.2) = samples_float1.map some := by decide

def words_float2 : List (Nat × Nat) :=
  [(64, 0x0000_0000_020C_3E1D),
   (64, 0x0000_0000_020C_3E21),
   (64, 0x0000_0000_020C_3E69),
   (64, 0x00A0_0000_020C_3E41),
   (64, 0x00A0_0000_020C_3E45),
   (64, 0x00A0_0000_020C_3E49),
   (64, 0x00A0_0000_020C_3E4D),
   (64, 0x00A0_0000_020C_3E51),
   (64, 0x00A0_0000_020C_3E55),
   (64, 0x00A0_0000_020C_3E59),
   (64, 0x00A0_0000_020C_3E61),
   (64, 0x6C80_0004_0208_3E65),
   (96, 0x0000_0000_2500_0000_0208_3E66)]
def samples_float2 : List Instr :=
  [.fabs ⟨⟨15, 0⟩, 6, ⟨1, false⟩, .rne, false⟩,
   .fneg ⟨⟨15, 0⟩, 6, ⟨1, false⟩, .rne, false⟩,
   .fclass ⟨⟨15, 0⟩, 6, ⟨1, false⟩, .rne, false⟩,
   .frcp ⟨⟨15, 0⟩, 6, ⟨1, false⟩, .rup, true⟩,
   .frsq ⟨⟨15, 0⟩, 6, ⟨1, false⟩, .rup, true⟩,
   .fsqrt ⟨⟨15, 0⟩, 6, ⟨1, false⟩, .rup, true⟩,
   .fexp2 ⟨⟨15, 0⟩, 6, ⟨1, false⟩, .rup, true⟩,
   .flog2 ⟨⟨15, 0⟩, 6, ⟨1, false⟩, .rup, true⟩,
   .fsin ⟨⟨15, 0⟩, 6, ⟨1, false⟩, .rup, true⟩,
   .fcos ⟨⟨15, 0⟩, 6, ⟨1, false⟩, .rup, true⟩,
   .frnd ⟨⟨15, 0⟩, 6, ⟨1, false⟩, .rup, true⟩,
   .fcmp ⟨⟨15, 0⟩, 4, ⟨1, false⟩, ⟨2, false⟩, true, false, .ord, .and⟩,
   .fcmpImm32 ⟨⟨15, 0⟩, 4, ⟨1, false⟩, 0, false, true, .geq, .set⟩]
theorem test_decode_float2 : words_float2.map (fun p => decodeTableWord p.1 p.2) = samples_float2.map some := by decide

def words_packed1 : List (Nat × Nat) :=
  [(64, 0x0090_0004_020C_3E81),
   (96, 0x3C00_3C00_0000_0000_020C_3E82),
   (64, 0x0090_0004_020C_3E85),
   (96, 0x3C00_3C00_0000_0000_020C_3E86),
   (64, 0x00B0_3004_020C_3E89),
   (96, 0x0000_0007_0000_3000_020C_3E8A),
   (64, 0x0090_0004_020C_3E8D),
   (96, 0x3C00_3C00_0000_0000_020C_3E8E),
   (64, 0x0090_0004_020C_3E91),
   (96, 0x3C00_3C00_0000_0000_020C_3E92),
   (64, 0x0180_0004_020C_3E95),
   (96, 0x3C00_3C00_0000_0000_020C_3E96),
   (64, 0x0180_0004_020C_3E99),
   (96, 0x3C00_3C00_0000_0000_020C_3E9A)]
def samples_packed1 : List Instr :=
  [.hadd2 ⟨⟨15, 0⟩, 6, ⟨1, false⟩, ⟨2, false⟩, .rtz, true, false⟩,
   .hadd2Imm32 ⟨⟨15, 0⟩, 6, ⟨1, false⟩, 0x3C003C00, .rne, false, false⟩,
   .hmul2 ⟨⟨15, 0⟩, 6, ⟨1, false⟩, ⟨2, false⟩, .rtz, true, false⟩,
   .hmul2Imm32 ⟨⟨15, 0⟩, 6, ⟨1, false⟩, 0x3C003C00, .rne, false, false⟩,
   .hfma2 ⟨⟨15, 0⟩, 6, ⟨1, false⟩, ⟨2, false⟩, ⟨3, false⟩, .rdn, true⟩,
   .hfma2Imm32 ⟨⟨15, 0⟩, 6, ⟨1, false⟩, 7, ⟨3, false⟩, .rne, false⟩,
   .hmin2 ⟨⟨15, 0⟩, 6, ⟨1, false⟩, ⟨2, false⟩, .rtz, true, false⟩,
   .hmin2Imm32 ⟨⟨15, 0⟩, 6, ⟨1, false⟩, 0x3C003C00, .rne, false, false⟩,
   .hmax2 ⟨⟨15, 0⟩, 6, ⟨1, false⟩, ⟨2, false⟩, .rtz, true, false⟩,
   .hmax2Imm32 ⟨⟨15, 0⟩, 6, ⟨1, false⟩, 0x3C003C00, .rne, false, false⟩,
   .vadd2 ⟨⟨15, 0⟩, 6, ⟨1, false⟩, ⟨2, false⟩, .rne, true, true⟩,
   .vadd2Imm32 ⟨⟨15, 0⟩, 6, ⟨1, false⟩, 0x3C003C00, .rne, false, false⟩,
   .vsub2 ⟨⟨15, 0⟩, 6, ⟨1, false⟩, ⟨2, false⟩, .rne, true, true⟩,
   .vsub2Imm32 ⟨⟨15, 0⟩, 6, ⟨1, false⟩, 0x3C003C00, .rne, false, false⟩]
theorem test_decode_packed1 : words_packed1.map (fun p => decodeTableWord p.1 p.2) = samples_packed1.map some := by decide

def words_packed2 : List (Nat × Nat) :=
  [(64, 0x0080_0004_020C_3E9D),
   (96, 0x3C00_3C00_0000_0000_020C_3E9E),
   (64, 0x0080_0004_020C_3EA1),
   (96, 0x3C00_3C00_0000_0000_020C_3EA2),
   (64, 0x1540_3004_020E_3EA5),
   (64, 0x1580_0000_020C_3EB1),
   (128, 0x0000_0000_0000_FFFE_0050_0000_2040_3EB7)]
def samples_packed2 : List Instr :=
  [.vmin2 ⟨⟨15, 0⟩, 6, ⟨1, false⟩, ⟨2, false⟩, .rne, true, false⟩,
   .vmin2Imm32 ⟨⟨15, 0⟩, 6, ⟨1, false⟩, 0x3C003C00, .rne, false, false⟩,
   .vmax2 ⟨⟨15, 0⟩, 6, ⟨1, false⟩, ⟨2, false⟩, .rne, true, false⟩,
   .vmax2Imm32 ⟨⟨15, 0⟩, 6, ⟨1, false⟩, 0x3C003C00, .rne, false, false⟩,
   .acs2 ⟨⟨15, 0⟩, 7, ⟨1, false⟩, ⟨2, false⟩, ⟨3, false⟩, 4, 5, true, false⟩,
   .cvt ⟨⟨15, 0⟩, 6, ⟨1, false⟩, .s8, .s32, true, .rne⟩,
   .cvtb ⟨⟨15, 0⟩, 32, ⟨16, false⟩, 2, true, 0xFFFE⟩]
theorem test_decode_packed2 : words_packed2.map (fun p => decodeTableWord p.1 p.2) = samples_packed2.map some := by decide

def words_memory1 : List (Nat × Nat) :=
  [(64, 0x06A0_0200_040C_3EC1),
   (96, 0x0000_0040_0060_0000_040C_3EC2),
   (64, 0x0130_000C_0400_3EC5),
   (96, 0xFFFF_FFC0_0400_040C_0400_3EC6),
   (64, 0x00A0_0200_040C_3EC9),
   (96, 0x0000_0040_0060_0000_040C_3ECA),
   (64, 0x0030_000C_0400_3ECD),
   (96, 0xFFFF_FFC0_0000_040C_0400_3ECE),
   (64, 0x06A0_0200_040C_3ED1),
   (96, 0x0000_0040_0060_0000_040C_3ED2),
   (64, 0x6970_3004_140E_BEE1),
   (96, 0x0000_0008_0E80_0004_1410_3EE2),
   (64, 0x4430_0004_140E_3EE5),
   (96, 0x0000_0004_2020_0004_140E_3EE6)]
def samples_memory1 : List Instr :=
  [.ld ⟨⟨15, 0⟩, 6, ⟨2, true⟩, .f32, .last, true⟩,
   .ldImm32 ⟨⟨15, 0⟩, 6, ⟨2, false⟩, .z64, .normal, false, 64⟩,
   .st ⟨⟨15, 0⟩, ⟨2, false⟩, ⟨6, false⟩, .s16, .first, false⟩,
   .stImm32 ⟨⟨15, 0⟩, ⟨2, false⟩, ⟨6, true⟩, .z8, .normal, true, 0xFFFFFFC0⟩,
   .lds ⟨⟨15, 0⟩, 6, ⟨2, true⟩, .f32, .normal, false⟩,
   .ldsImm32 ⟨⟨15, 0⟩, 6, ⟨2, false⟩, .z64, .normal, false, 64⟩,
   .sts ⟨⟨15, 0⟩, ⟨2, false⟩, ⟨6, false⟩, .s16, .normal, false⟩,
   .stsImm32 ⟨⟨15, 0⟩, ⟨2, false⟩, ⟨6, true⟩, .z8, .normal, false, 0xFFFFFFC0⟩,
   .ldc ⟨⟨15, 0⟩, 6, ⟨2, true⟩, .f32, .last, true⟩,
   .ldcImm32 ⟨⟨15, 0⟩, 6, ⟨2, false⟩, .z64, .normal, false, 64⟩,
   .atom ⟨⟨15, 1⟩, 7, ⟨10, false⟩, ⟨2, false⟩, ⟨3, false⟩, .cas, .z32, .device, .acqRel⟩,
   .atomImm32 ⟨⟨15, 0⟩, 8, ⟨10, false⟩, ⟨2, false⟩, ⟨0, false⟩, .inc, .s64, .group, .relaxed, 8⟩,
   .atomf ⟨⟨15, 0⟩, 7, ⟨10, false⟩, ⟨2, false⟩, .hadd2, .hank, .release⟩,
   .atomfImm32 ⟨⟨15, 0⟩, 7, ⟨10, false⟩, ⟨2, false⟩, .fmax, .skein, .acquire, 4⟩]
theorem test_decode_memory1 : words_memory1.map (fun p => decodeTableWord p.1 p.2) = samples_memory1.map some := by decide

def words_memory2 : List (Nat × Nat) :=
  [(64, 0x4E00_0004_1400_3EE9),
   (96, 0x0000_0004_9000_0004_1400_3EEA),
   (128, 0x0020_0010_0020_007F_0000_6008_0400_3F03),
   (64, 0x0130_0000_0400_3F05),
   (96, 0x0000_0080_0020_0000_0400_3F06),
   (64, 0x0000_0008_040C_3F09),
   (96, 0x0000_1000_0000_0000_040C_3F0A),
   (64, 0x0000_0008_040C_3F0D),
   (96, 0x0000_1000_0000_0000_040C_3F0E),
   (64, 0x0000_0008_0400_3F11),
   (96, 0x0000_0020_0000_0000_0400_3F12)]
def samples_memory2 : List Instr :=
  [.red ⟨⟨15, 0⟩, ⟨10, false⟩, ⟨2, false⟩, .int .add .s64, .group, .release⟩,
   .redImm32 ⟨⟨15, 0⟩, ⟨10, false⟩, ⟨2, false⟩, .flt .fadd, .system, .relaxed, 4⟩,
   .pft ⟨⟨15, 0⟩, ⟨2, false⟩, ⟨4, false⟩, ⟨6, false⟩, true, false, 1, 2, 0x7F⟩,
   .cctl ⟨⟨15, 0⟩, ⟨2, false⟩, .pri .last⟩,
   .cctlImm32 ⟨⟨15, 0⟩, ⟨2, false⟩, .wbinv, 128⟩,
   .cpin ⟨⟨15, 0⟩, 6, ⟨2, false⟩, ⟨4, false⟩⟩,
   .cpinImm32 ⟨⟨15, 0⟩, 6, ⟨2, false⟩, 4096⟩,
   .cunpin ⟨⟨15, 0⟩, 6, ⟨2, false⟩, ⟨4, false⟩⟩,
   .cunpinImm32 ⟨⟨15, 0⟩, 6, ⟨2, false⟩, 4096⟩,
   .icinv ⟨⟨15, 0⟩, ⟨2, false⟩, ⟨4, false⟩⟩,
   .icinvImm32 ⟨⟨15, 0⟩, ⟨2, false⟩, 32⟩]
theorem test_decode_memory2 : words_memory2.map (fun p => decodeTableWord p.1 p.2) = samples_memory2.map some := by decide

def words_tile1 : List (Nat × Nat) :=
  [(128, 0x0000_0040_0000_003F_0620_0408_040A_3F43),
   (128, 0xFFFF_FFFF_0000_0001_0010_5008_0400_3F47),
   (64, 0x0000_0000_0008_3F49),
   (64, 0x0010_0000_080A_3F4D),
   (128, 0x0000_0000_0000_0642_0000_0006_0402_3F53),
   (128, 0x0000_0000_0000_00FF_0100_0008_040E_3F63),
   (128, 0x0000_0000_0000_00FF_0400_7008_0400_3F67),
   (64, 0x0000_0000_0004_3F69),
   (64, 0x0090_0000_0E1E_3F6D),
   (64, 0x00E0_0000_1206_3F71),
   (128, 0x0000_0000_0001_FFFF_0100_0000_0400_3F83),
   (96, 0x001F_C01F_0120_0000_0402_3F86),
   (64, 0x07A0_3004_0200_3F89),
   (128, 0x0000_0FFF_4FFE_1FFF_0000_0004_0200_3F8F)]
def samples_tile1 : List Instr :=
  [.tld ⟨⟨15, 0⟩, 5, ⟨2, false⟩, ⟨4, true⟩, false, true, .last, true, 0x40, 3, 15⟩,
   .tst ⟨⟨15, 0⟩, 5, ⟨2, false⟩, ⟨4, false⟩, true, false, .normal, false, 0xFFFFFFFF, 0, 1⟩,
   .tzero ⟨⟨15, 0⟩, 4⟩,
   .tmov ⟨⟨15, 0⟩, 5, 4, true⟩,
   .tmma ⟨⟨15, 0⟩, 1, 2, 3, false, false, 6, 4, 2⟩,
   .ald ⟨⟨15, 0⟩, 7, ⟨2, false⟩, ⟨4, false⟩, false, false, .first, false, 0, 15, 15⟩,
   .ast ⟨⟨15, 0⟩, 7, ⟨2, false⟩, ⟨4, false⟩, false, false, .normal, true, 0, 15, 15⟩,
   .aclr ⟨⟨15, 0⟩, 2, false⟩,
   .acvt ⟨⟨15, 0⟩, 15, 7, .rtz, true⟩,
   .afrag ⟨⟨15, 0⟩, 3, ⟨9, false⟩, 6, true⟩,
   .wld ⟨⟨15, 0⟩, ⟨2, false⟩, .first, false, 0x7FFF, 3⟩,
   .wlatch ⟨⟨15, 0⟩, 1, ⟨2, false⟩, 2, false, true, 31, 64, 63⟩,
   .sbuild ⟨⟨15, 0⟩, ⟨1, false⟩, ⟨2, false⟩, ⟨3, false⟩, 2, 15⟩,
   .sstep ⟨⟨15, 0⟩, ⟨1, false⟩, ⟨2, false⟩, 255, 31, 14, 127, true, 4, 0xFFF⟩]
theorem test_decode_tile1 : words_tile1.map (fun p => decodeTableWord p.1 p.2) = samples_tile1.map some := by decide

def words_tile2 : List (Nat × Nat) :=
  [(128, 0x0000_0010_07F0_1F03_0000_0004_0200_3F93),
   (96, 0x07F0_3010_00D0_0004_0200_3F96),
   (64, 0x0430_0000_0002_3F99)]
def samples_tile2 : List Instr :=
  [.slut ⟨⟨15, 0⟩, ⟨1, false⟩, ⟨2, false⟩, 3, 31, 127, false, 16⟩,
   .sdrain ⟨⟨15, 0⟩, ⟨1, false⟩, ⟨2, false⟩, .f16, true, .rtz, 16, 3, 127⟩,
   .sclass ⟨⟨15, 0⟩, 1, 3, 16⟩]
theorem test_decode_tile2 : words_tile2.map (fun p => decodeTableWord p.1 p.2) = samples_tile2.map some := by decide

def words_async1 : List (Nat × Nat) :=
  [(64, 0x0000_0591_A1A8_3FA1),
   (96, 0x0080_1234_0000_0008_040C_3FA6),
   (96, 0x0000_0001_0000_0008_040C_3FAA),
   (64, 0x0010_0008_0400_3FAD),
   (64, 0x0000_0000_0400_3FB1),
   (64, 0x0020_0000_0000_3FB5),
   (64, 0x2220_0000_0000_3FB9),
   (64, 0x1040_0000_040C_3FBD),
   (96, 0x0000_0008_2660_0000_040C_3FBE),
   (64, 0x1860_000C_0400_3FC1),
   (96, 0x0000_0010_0040_000C_0400_3FC2),
   (128, 0x0000_0000_0000_0020_1060_800C_0800_3FC7),
   (128, 0x0000_0000_FFFF_FFF8_3360_0010_080C_3FCB),
   (64, 0x0000_0000_0400_3FCD)]
def samples_async1 : List Instr :=
  [.qput ⟨⟨15, 0⟩, 212, ⟨208, false⟩, ⟨200, true⟩⟩,
   .cwait ⟨⟨15, 0⟩, 6, ⟨2, false⟩, ⟨4, false⟩, 0x801234⟩,
   .ctest ⟨⟨15, 0⟩, 6, ⟨2, false⟩, ⟨4, false⟩, 1⟩,
   .sleep ⟨⟨15, 0⟩, ⟨2, false⟩, ⟨4, false⟩, true⟩,
   .sleepuntil ⟨⟨15, 0⟩, ⟨2, false⟩, ⟨0, false⟩, false⟩,
   .fence ⟨⟨15, 0⟩, .device⟩,
   .fencex ⟨⟨15, 0⟩, 2, 17⟩,
   .ldaq ⟨⟨15, 0⟩, 6, ⟨2, false⟩, .z32, .normal, false, .device⟩,
   .ldaqImm32 ⟨⟨15, 0⟩, 6, ⟨2, false⟩, .z64, .last, true, .system, 8⟩,
   .strl ⟨⟨15, 0⟩, ⟨2, false⟩, ⟨6, false⟩, .z64, .normal, false, .group⟩,
   .strlImm32 ⟨⟨15, 0⟩, ⟨2, false⟩, ⟨6, false⟩, .z32, .normal, false, .skein, 16⟩,
   .rstf ⟨⟨15, 0⟩, ⟨4, false⟩, ⟨6, false⟩, ⟨8, false⟩, .z64, .normal, false, .device, 0x20, 0⟩,
   .ratom ⟨⟨15, 0⟩, 6, ⟨4, false⟩, ⟨8, false⟩, ⟨0, false⟩, .exch, .z64, .system, .acquire, 0xFFFFFFF8⟩,
   .publish ⟨⟨15, 0⟩, ⟨2, false⟩⟩]
theorem test_decode_async1 : words_async1.map (fun p => decodeTableWord p.1 p.2) = samples_async1.map some := by decide

def words_async2 : List (Nat × Nat) :=
  [(128, 0x0000_0001_0005_0505_0000_8008_040C_3FD3),
   (64, 0x0000_01A0_040C_3FD5),
   (64, 0x0010_0000_0420_3FD9),
   (64, 0x0000_0000_000C_3FDD),
   (64, 0x0000_0000_0000_3FE1),
   (64, 0x0020_0000_000C_3FE5),
   (64, 0x0000_0000_060C_3FE9),
   (64, 0xAA80_0000_0000_3FF1),
   (64, 0x0010_0000_0000_3FF1),
   (64, 0x0060_0000_0000_3FF1),
   (64, 0x1030_0000_000C_3FF5),
   (64, 0x0010_0000_0C00_3FF9),
   (64, 0x0020_0008_0400_3FFD),
   (64, 0x0030_0000_0000_3FFD)]
def samples_async2 : List Instr :=
  [.launch ⟨⟨15, 0⟩, 6, ⟨2, false⟩, ⟨4, false⟩, ⟨8, false⟩, 0x50505, true⟩,
   .feedput ⟨⟨15, 0⟩, 6, ⟨2, false⟩, ⟨208, false⟩⟩,
   .feedpop ⟨⟨15, 0⟩, 16, ⟨2, false⟩, true⟩,
   .idem ⟨⟨15, 0⟩, 6⟩,
   .commit ⟨⟨15, 0⟩⟩,
   .jread ⟨⟨15, 0⟩, 6, .mhi⟩,
   .opreq ⟨⟨15, 0⟩, 6, ⟨3, false⟩⟩,
   .trap ⟨⟨15, 0⟩, 0x2AA⟩,
   .ebrk ⟨⟨15, 0⟩⟩,
   .tret ⟨⟨15, 0⟩, true⟩,
   .sysrd ⟨⟨15, 0⟩, 6, 0x103⟩,
   .syswr ⟨⟨15, 0⟩, ⟨6, false⟩, 0x001⟩,
   .tlbinv ⟨⟨15, 0⟩, ⟨2, false⟩, ⟨4, false⟩, .range⟩,
   .ramode ⟨⟨15, 0⟩, true⟩]
theorem test_decode_async2 : words_async2.map (fun p => decodeTableWord p.1 p.2) = samples_async2.map some := by decide


/-! ### States -/

def k0 : Ctl := { guard := 0x0F, setf := 0 }
/-- A fibre with predicates, and the registers listed. -/
def fib (id : Nat) (p : BitVec 16) (l : SMap 32) : Fibre := { id := id, preds := p, regs := l, live := BitVec.allOnes 48, rel := 0, lastPage := none }
/-- The image of the host's question, about to issue, GTB past 0; fibre 0 with every predicate 1 and the registers listed. -/
def one (l : SMap 32) : State :=
  { placeWord State.reset [] with cur := some 3, gtb := 1, skeins := [{ imageSkein with fibres := [fib 0 0xFFFF l] }] }
/-- The same with fibres 0 and 1, of which only 0 has its predicates 0 to 14 set. -/
def two (l m : SMap 32) : State :=
  { one [] with skeins := [{ imageSkein with fibres := [fib 0 0xFFFF l, fib 1 0x8000 m] }]
                strands := [{ imageStrand 3 .ready none with fibres := [0, 1] }] }
/-- v2, v4, v8, v10 and g2, g3 as even pairs and uniform registers that point into the mapped memory. -/
def mem : State :=
  { placeWord State.reset [] with cur := some 3, gtb := 1, skeins := [{ imageSkein with fibres := [fib 0 0xFFFF [(2, 0x100000), (4, 0x100040), (8, 0x100080), (10, 0x100000)]] }] }
def src (n : Nat) : Src := { reg := BitVec.ofNat 8 n, last := false }
/-- A strand that issues anew what it stalled at. -/
def again : State := { one [] with strands := [{ imageStrand 3 .ready none with again := true }] }
/-- The strand that issues in s, its skein, and of an instruction its shape, the state it takes effect in, and its strand and skein there. -/
def tOf (s : State) : Strand := ((s.cur.bind (strand? s))).getD (imageStrand 3 .ready none)
def xOf (s : State) : Skein := (skein? s (tOf s).skein).getD imageSkein
def shOf (i : Instr) : Shape := (isaShape i).getD (shNop { c := k0 })
def uOf (i : Instr) (s : State) : State :=
  match issueState (shOf i) (tOf s) (xOf s) s with
  | .ok u => u
  | .error _ => s
def yOf (i : Instr) (s : State) : Skein := (skein? (uOf i s) (xOf s).id).getD imageSkein
def wOf (i : Instr) (s : State) : Strand := (strand? (uOf i s) (tOf s).id).getD (imageStrand 3 .ready none)
def eOf (i : Instr) (s : State) : Env := issueEnv (shOf i) (tOf s) (xOf s) s
def okState (i : Instr) (s : State) : Bool :=
  match issueState (shOf i) (tOf s) (xOf s) s with
  | .ok _ => true
  | .error _ => false

/-- Whether an instruction's word comes to issue in s, before the checks of its operands' delivery. -/
def arrives (i : Instr) (s : State) : Bool :=
  (isaShape i).isSome && decide (s.cur = some (tOf s).id) && decide (strand? s (tOf s).id = some (tOf s)) &&
    decide (skein? s (tOf s).skein = some (xOf s)) && (tOf s).ra.isNone
theorem arrives_spec {i : Instr} {s : State} (h : arrives i s = true) : isaShape i = some (shOf i) ∧ AtIssue s (tOf s) (xOf s) := by
  simp only [arrives, Bool.and_eq_true, decide_eq_true_eq] at h
  obtain ⟨⟨⟨⟨h0, h1⟩, h2⟩, h3⟩, h4⟩ := h
  obtain ⟨sh, hs⟩ := Option.isSome_iff_exists.mp h0
  exact ⟨by simp [shOf, hs], ⟨h1, h2, h3, by simpa using h4⟩⟩

/-- Whether the hypotheses of Issues hold of it. -/
def issuesB (i : Instr) (s : State) : Bool :=
  let sh := shOf i
  let act := activeOf (tOf s) (xOf s) sh.ctl.guard
  arrives i s && decide (decodeCheck sh (privOf s (tOf s) (xOf s)) (tOf s) (xOf s) = none) && !act.isEmpty &&
    !divergentWrite (xOf s) act sh.writes && (!staleTraps (chargeIssue s sh (tOf s) (xOf s)) (xOf s) || decide (staleCount sh (eOf i s) = 0)) &&
    (fullFlag (tOf s) sh.ctl.setf).isNone && (!sh.noIdem || (tOf s).region.isNone) && okState i s &&
    (!sh.access || (uOf i s).undo.isSome || decide (unsentOf (uOf i s) (xOf s) < 64)) && decide (skein? (uOf i s) (xOf s).id = some (yOf i s)) && act.all (fun f => ((yOf i s).fibre? f).isSome) &&
    decide (strand? (uOf i s) (tOf s).id = some (wOf i s)) && decide ((wOf i s).pc = (tOf s).pc) && decide ((wOf i s).clause = (tOf s).clause) &&
    decide ((wOf i s).skein = (tOf s).skein) && decide ((yOf i s).hank = (xOf s).hank) && decide ((yOf i s).w = (xOf s).w) &&
    decide ((yOf i s).fmax = (xOf s).fmax)

theorem okState_spec {i : Instr} {s : State} (h : okState i s = true) : issueState (shOf i) (tOf s) (xOf s) s = .ok (uOf i s) := by
  unfold okState at h
  unfold uOf
  split at h <;> simp_all

/-- The instruction i issues in s: what it takes effect in. -/
abbrev IssuesIn (i : Instr) (s : State) : Prop := Issues (shOf i) s (tOf s) (xOf s) (uOf i s) (yOf i s) (wOf i s)

theorem issues_of {i : Instr} {s : State} (h : issuesB i s = true) : isaShape i = some (shOf i) ∧ IssuesIn i s := by
  simp only [issuesB, Bool.and_eq_true, decide_eq_true_eq] at h
  obtain ⟨⟨⟨⟨⟨⟨⟨⟨⟨⟨⟨⟨⟨⟨⟨⟨⟨h0, h4⟩, h5⟩, h6⟩, h7⟩, h8⟩, h9⟩, hok⟩, hr⟩, hy⟩, h10⟩, hw⟩, h11⟩, h12⟩, h13⟩, h14⟩, h15⟩, h16⟩ := h
  obtain ⟨hs, ⟨a1, a2, a3, a4⟩⟩ := arrives_spec h0
  refine ⟨hs, ⟨a1, a2, a3, a4, h4, by simpa using h5, by simpa using h6, ?_, by simpa using h8, ?_, okState_spec hok, ?_, hy, by simpa using h10, hw, ⟨h11, h12⟩, h13,
    ⟨h14, h15, h16⟩⟩⟩
  · intro hst
    have := (Bool.or_eq_true _ _).mp h7
    rcases this with hn | hd
    · simp [hst] at hn
    · exact of_decide_eq_true hd
  · intro hn; simpa [hn] using h9
  · intro ha hu; simpa [ha, hu] using hr

/-- Whether parts pass the checks of an access. -/
def checkedB (n : Need) (t : Strand) (x : Skein) (u : State) (parts : List Lane) : Bool :=
  match checkLanes n x.id x t.pc u parts with
  | (s1, .ok _) => (match strand? s1 t.id with | some r => decide (r.pc = t.pc) && decide (r.clause = t.clause) | none => false)
  | _ => false
theorem checked_of {n : Need} {t : Strand} {x : Skein} {u : State} {parts : List Lane} (h : checkedB n t x u parts = true) :
    ∃ s1 ls held walked, Checked n t x u parts s1 ls held walked := by
  unfold checkedB at h
  split at h
  · rename_i s1 r hc
    obtain ⟨ls, held, walked⟩ := r
    split at h
    · rename_i q hq
      simp only [Bool.and_eq_true, decide_eq_true_eq] at h
      exact ⟨s1, ls, held, walked, hc, q, hq, h.1, h.2⟩
    · simp at h
  · simp at h

/-! ### Ill-formed terms are refused, one for each check -/

def illFormed : List Instr :=
  [.nop ⟨⟨15, 1⟩⟩, .fyield ⟨⟨15, 2⟩⟩, .fspawn ⟨⟨15, 0⟩, 9, ⟨3, false⟩, ⟨16, false⟩, 33, 0x10⟩, .fspawn ⟨⟨15, 0⟩, 9, ⟨3, false⟩, ⟨16, false⟩, 0, 0x10⟩,
   .vote ⟨⟨15, 0⟩, .any, 16, ⟨0, false⟩, 5, true⟩, .vote ⟨⟨15, 0⟩, .eq, 2, ⟨1, false⟩, 5, false⟩, .vote ⟨⟨15, 0⟩, .all, 2, ⟨1, false⟩, 5, false⟩,
   .movw ⟨⟨15, 0⟩, 6, 0xBEEF, .z32, 2⟩, .cvt ⟨⟨15, 0⟩, 6, ⟨1, false⟩, .s8, .s32, true, .rtz⟩, .cvt ⟨⟨15, 0⟩, 6, ⟨1, false⟩, .s32, .f32, true, .rne⟩,
   .cvtb ⟨⟨15, 0⟩, 32, ⟨16, false⟩, 7, true, 0⟩, .fabs ⟨⟨15, 0⟩, 6, ⟨1, false⟩, .rtz, false⟩, .fabs ⟨⟨15, 0⟩, 6, ⟨1, false⟩, .rne, true⟩,
   .fmin ⟨⟨15, 0⟩, 6, ⟨1, false⟩, ⟨2, false⟩, .rtz, false, false⟩, .fminImm32 ⟨⟨15, 0⟩, 6, ⟨1, false⟩, 0, .rtz, false, false⟩,
   .vadd2 ⟨⟨15, 0⟩, 6, ⟨1, false⟩, ⟨2, false⟩, .rtz, true, false⟩, .hadd2 ⟨⟨15, 0⟩, 6, ⟨1, false⟩, ⟨2, false⟩, .rne, true, true⟩,
   .imulh ⟨⟨15, 0⟩, 6, ⟨4, false⟩, ⟨6, false⟩, .s64, true⟩, .imulhImm32 ⟨⟨15, 0⟩, 6, ⟨5, false⟩, 1, .z32, true⟩, .popc ⟨⟨15, 0⟩, 6, ⟨4, false⟩, .z32, true⟩,
   .lds ⟨⟨15, 0⟩, 6, ⟨2, false⟩, .f32, .last, false⟩, .ldsImm32 ⟨⟨15, 0⟩, 6, ⟨2, false⟩, .f32, .normal, true, 0⟩,
   .sts ⟨⟨15, 0⟩, ⟨2, false⟩, ⟨6, false⟩, .z8, .normal, true⟩, .stsImm32 ⟨⟨15, 0⟩, ⟨2, false⟩, ⟨6, false⟩, .z8, .last, false, 0⟩,
   .atom ⟨⟨15, 0⟩, 7, ⟨10, false⟩, ⟨2, false⟩, ⟨3, false⟩, .add, .z32, .device, .acqRel⟩,
   .atomImm32 ⟨⟨15, 0⟩, 7, ⟨10, false⟩, ⟨2, false⟩, ⟨3, false⟩, .add, .z32, .device, .acqRel, 0⟩,
   .ratom ⟨⟨15, 0⟩, 6, ⟨4, false⟩, ⟨8, false⟩, ⟨0, true⟩, .exch, .z64, .system, .acquire, 0⟩,
   .red ⟨⟨15, 0⟩, ⟨10, false⟩, ⟨2, false⟩, .int .exch .s64, .group, .release⟩, .red ⟨⟨15, 0⟩, ⟨10, false⟩, ⟨2, false⟩, .int .cas .s64, .group, .release⟩,
   .tld ⟨⟨15, 0⟩, 5, ⟨2, false⟩, ⟨4, false⟩, true, true, .last, false, 0, 3, 15⟩, .ald ⟨⟨15, 0⟩, 5, ⟨2, false⟩, ⟨4, false⟩, true, true, .normal, true, 0, 3, 15⟩,
   .aclr ⟨⟨15, 0⟩, 2, true⟩, .wlatch ⟨⟨15, 0⟩, 1, ⟨2, false⟩, 7, false, true, 31, 64, 63⟩, .sbuild ⟨⟨15, 0⟩, ⟨1, false⟩, ⟨2, false⟩, ⟨3, false⟩, 7, 15⟩,
   .sstep ⟨⟨15, 0⟩, ⟨1, false⟩, ⟨2, false⟩, 255, 31, 14, 127, true, 7, 0⟩, .sdrain ⟨⟨15, 0⟩, ⟨1, false⟩, ⟨2, false⟩, .f32, true, .rtz, 16, 3, 127⟩,
   .sclass ⟨⟨15, 0⟩, 1, 3, 17⟩, .sleep ⟨⟨15, 0⟩, ⟨2, false⟩, ⟨4, false⟩, false⟩, .sleepuntil ⟨⟨15, 0⟩, ⟨2, false⟩, ⟨4, false⟩, false⟩,
   .fencex ⟨⟨15, 0⟩, 0, 1⟩, .fencex ⟨⟨15, 0⟩, 2, 0⟩, .sysrd ⟨⟨15, 0⟩, 6, 0x014⟩, .sysrd ⟨⟨15, 0⟩, 6, 0x205⟩, .syswr ⟨⟨15, 0⟩, ⟨6, false⟩, 0x202⟩,
   .tlbinv ⟨⟨15, 0⟩, ⟨2, false⟩, ⟨4, false⟩, .page⟩, .tlbinv ⟨⟨15, 0⟩, ⟨2, false⟩, ⟨0, false⟩, .all⟩]
theorem test_ill_formed : illFormed.all (fun i => !i.wf) = true := by decide

/-! ### Words that are refused, and with what (05 R121, R132) -/

def usr : Privilege := { priv := false, handler := false }
def refusal (w : Nat) : Option DecodeFault :=
  match decode usr (leBytes 16 w) with
  | .ok _ => none
  | .error f => some f
/-- A reserved opcode; a zero word; TRET of a strand that handles no trap; SYSRD of a reserved selector. -/
theorem test_refused : [0x3D03, 0, 0x0060_0000_0000_3FF1, 0x0140_0000_000C_3FF5].map refusal =
    [some .illegalOpcode, some .badClause, some .privileged, some .reservedFn] := by decide

/-! ### What a few instructions leave (06 R167 to R170, R177, R178; 07 R182, R188) -/

/-- v6 and v7 of fibre 0 after the instruction. -/
def leaves (i : Instr) (l : SMap 32) : Option (BitVec 32 × BitVec 32) :=
  match exec i (one l) with
  | .next v => some (vreg v 2 0 6, vreg v 2 0 7)
  | _ => none
def i2 (ty : IntTy) (sat : Bool) : OpInt2 := { c := k0, d := 6, a := src 2, b := src 4, ty := ty, sat := sat }
theorem test_add_wraps : leaves (.iadd (i2 .z32 false)) [(2, 0xFFFFFFFF), (4, 2)] = some (1, 0) := by decide
theorem test_add_saturates : leaves (.iadd (i2 .s32 true)) [(2, 0x7FFFFFFF), (4, 2)] = some (0x7FFFFFFF, 0) := by decide
theorem test_add_pairs : leaves (.iadd (i2 .z64 false)) [(2, 0xFFFFFFFF), (3, 1), (4, 1)] = some (0, 2) := by decide
theorem test_divide_by_zero : leaves (.idiv (i2 .z32 false)) [(2, 7)] = some (0xFFFFFFFF, 0) ∧ leaves (.irem (i2 .z32 false)) [(2, 7)] = some (7, 0) := by decide
theorem test_mulh_signed : leaves (.imulh (i2 .s32 false)) [(2, 0xFFFFFFFF), (4, 2)] = some (0xFFFFFFFF, 0) := by decide
theorem test_float_add : leaves (.fadd { c := k0, d := 6, a := src 2, b := src 4, rm := .rne, na := false, nb := false }) [(2, 0x3F800000), (4, 0x40000000)] = some (0x40400000, 0) := by
  decide

/-! ### Reset -/

/-- 00 R6: no strand, GTB 0, every register of a fresh context as its table says. -/
theorem test_reset : State.reset.strands = [] ∧ State.reset.gtb = 0 ∧ (Ctx.create 0 0).fair = 0x200 ∧ (Ctx.create 0 0).lease = 0x400 ∧ (Ctx.create 0 0).sched = 0x10000 ∧
    State.reset.mills.map (fun m => m.part) = List.replicate 8 0x100 := by decide
/-! ### Witnesses: the hypotheses of the statements can be met -/

theorem all_issue (l : List Instr) (s : State) (h : l.all (issuesB · s) = true) : ∀ i ∈ l, isaShape i = some (shOf i) ∧ IssuesIn i s :=
  fun i hi => issues_of (List.all_eq_true.mp h i hi)
/-- Where an instruction issues, its lead fibre is one whose result reaches D, whatever D names. -/
theorem lead_writes {i : Instr} {s : State} (h : IssuesIn i s) (d : Field8) : Writes (eOf i s) d (eOf i s).lead := by
  have ha := h.active
  refine ⟨?_, .inr rfl⟩
  simp only [eOf, issueEnv, Env.lead]
  revert ha
  cases activeOf (tOf s) (xOf s) (shOf i).ctl.guard <;> simp

/-- No arithmetic trap is enabled. -/
theorem no_traps : NoTraps (one []) (xOf (one [])) := by
  intro c h
  have : ctx? (one []) (xOf (one [])).vd (xOf (one [])).ctx = some imageCtx := by decide
  rw [this] at h
  cases h
  rfl

theorem witness_issue_control : ∀ i ∈ samples_control1 ++ samples_control2, isaShape i = some (shOf i) ∧ IssuesIn i (one []) := all_issue _ _ (by decide)
theorem witness_issue_integer : ∀ i ∈ samples_integer1 ++ samples_integer2 ++ samples_integer3, isaShape i = some (shOf i) ∧ IssuesIn i (one []) :=
  all_issue _ _ (by decide)
theorem witness_issue_bits : ∀ i ∈ samples_bits1 ++ samples_bits2, isaShape i = some (shOf i) ∧ IssuesIn i (one []) := all_issue _ _ (by decide)
theorem witness_issue_float : ∀ i ∈ samples_float1 ++ samples_float2, isaShape i = some (shOf i) ∧ IssuesIn i (one []) := all_issue _ _ (by decide)
theorem witness_issue_packed : ∀ i ∈ samples_packed1 ++ samples_packed2, isaShape i = some (shOf i) ∧ IssuesIn i again := all_issue _ _ (by decide)
theorem witness_issue_memory : ∀ i ∈ samples_memory1 ++ samples_memory2, isaShape i = some (shOf i) ∧ IssuesIn i (one []) := all_issue _ _ (by decide)
theorem witness_issue_tile : ∀ i ∈ samples_tile1 ++ samples_tile2, isaShape i = some (shOf i) ∧ IssuesIn i (one []) := all_issue _ _ (by decide)
theorem witness_issue_async : ∀ i ∈ samples_async1, isaShape i = some (shOf i) ∧ IssuesIn i (one []) := all_issue _ _ (by decide)

theorem witness_comparisons_modes : ∀ m ∈ [VoteMode.all, .any, .eq, .ballot],
    IssuesIn (.vote { c := k0, mode := m, d := 3, a := if m = .eq then src 4 else src 0, ps := 0, pn := false }) (one []) ∧ bits (3 : Field8) 0 4 ≠ 15#4 := fun m h =>
  ⟨(issues_of (List.all_eq_true.mp (by decide : ([VoteMode.all, .any, .eq, .ballot].all fun m =>
    issuesB (.vote { c := k0, mode := m, d := 3, a := if m = .eq then src 4 else src 0, ps := 0, pn := false }) (one [])) = true) m h)).2, by decide⟩
theorem witness_carry_out :
    IssuesIn (.iaddc { c := k0, d := 6, a := src 1, b := src 2, ty := .z32, pco := 3, pci := 15 }) (one []) ∧
    IssuesIn (.iaddcImm32 { c := k0, d := 6, a := src 1, imm := 9, ty := .z32, pco := 0, pci := 2 }) (one []) ∧ (3 : BitVec 4) ≠ 15 ∧ (0 : BitVec 4) ≠ 15 :=
  ⟨(issues_of (by decide)).2, (issues_of (by decide)).2, by decide, by decide⟩
theorem witness_cvtb_to : IssuesIn (.cvtb { c := k0, d := 32, a := src 64, bw := 2, dir := false, emask := 0xFFFF }) again := (issues_of (by decide)).2

/-! Every instruction word. -/

theorem witness_no_active_fibre : isaShape (.nop { c := { guard := 0x1F, setf := 0 } }) = some (shNop { c := { guard := 0x1F, setf := 0 } }) ∧
    AtIssue (one []) (tOf (one [])) (xOf (one [])) ∧
    decodeCheck (shNop { c := { guard := 0x1F, setf := 0 } }) (privOf (one []) (tOf (one [])) (xOf (one []))) (tOf (one [])) (xOf (one [])) = none ∧
    activeOf (tOf (one [])) (xOf (one [])) 0x1F = [] :=
  ⟨rfl, (arrives_spec (i := .nop { c := k0 }) (by decide)).2, by decide, by decide⟩
/-- An instruction that each check of R132 turns away, in a state where it does. -/
def refusedBy : List (Instr × State × DecodeFault) :=
  [(.ramode { c := k0, on := true }, { one [] with ctxs := [{ imageCtx with priv := false }] }, .privileged),
   (.mov { c := { k0 with setf := 1 }, d := 1, a := src 2, ty := .z32, sat := false },
      { one [] with strands := [{ imageStrand 3 .ready none with clause := some { imageClause with fa := 15 } }] }, .flagSlot),
   (.mov { c := k0, d := 1, a := src 2, ty := .z64, sat := false }, one [], .registerPair),
   (.mov { c := k0, d := 16, a := src 2, ty := .z32, sat := false },
      { one [] with skeins := [{ imageSkein with fibres := [fib 0 0xFFFF []], w := 16 }] }, .windowRange)]
theorem witness_decode_checks : ∀ p ∈ refusedBy, (isaShape p.1 = some (shOf p.1) ∧ AtIssue p.2.1 (tOf p.2.1) (xOf p.2.1)) ∧
    decodeCheck (shOf p.1) (privOf p.2.1 (tOf p.2.1) (xOf p.2.1)) (tOf p.2.1) (xOf p.2.1) = some p.2.2 ∧
    hank? p.2.1 (xOf p.2.1).hank = some imageHank ∧ imageHank.failed = false := fun p h => by
  have := List.all_eq_true.mp (by decide : (refusedBy.all fun p => arrives p.1 p.2.1 &&
    decide (decodeCheck (shOf p.1) (privOf p.2.1 (tOf p.2.1) (xOf p.2.1)) (tOf p.2.1) (xOf p.2.1) = some p.2.2) &&
    decide (hank? p.2.1 (xOf p.2.1).hank = some imageHank)) = true) p h
  simp only [Bool.and_eq_true, decide_eq_true_eq] at this
  exact ⟨arrives_spec this.1.1, this.1.2, this.2, rfl⟩

/-- IADD g8, v1, v2 under p0, of fibre 0 alone. -/
def addUniform : Instr := .iadd { c := { guard := 0, setf := 0 }, d := 200, a := src 1, b := src 2, ty := .s32, sat := false }
theorem witness_uniform_divergent_write : (isaShape addUniform = some (shOf addUniform) ∧ AtIssue (two [] []) (tOf (two [] [])) (xOf (two [] []))) ∧
    decodeCheck (shOf addUniform) (privOf (two [] []) (tOf (two [] [])) (xOf (two [] []))) (tOf (two [] [])) (xOf (two [] [])) = none ∧
    activeOf (tOf (two [] [])) (xOf (two [] [])) (shOf addUniform).ctl.guard = [0] ∧ (∃ w ∈ (shOf addUniform).writes, 192 ≤ w.reg.toNat) ∧
    (∃ f ∈ (xOf (two [] [])).fibres, f.id ∉ [0]) := by
  refine ⟨arrives_spec (by decide), by decide, by decide, by decide, by decide⟩

/-- IADD v6, v1, v2 with v1 released, where stale reads trap. -/
def addStale : Instr := .iadd { c := k0, d := 6, a := src 1, b := src 2, ty := .s32, sat := false }
def stale (dbg : BitVec 64) : State :=
  { one [] with skeins := [{ imageSkein with fibres := [{ fib 0 0xFFFF [] with rel := 2 }] }], ctxs := [{ imageCtx with dbg := dbg }] }
theorem witness_stale_read_trap : (isaShape addStale = some (shOf addStale) ∧ AtIssue (stale 1) (tOf (stale 1)) (xOf (stale 1))) ∧
    decodeCheck (shOf addStale) (privOf (stale 1) (tOf (stale 1)) (xOf (stale 1))) (tOf (stale 1)) (xOf (stale 1)) = none ∧
    activeOf (tOf (stale 1)) (xOf (stale 1)) (shOf addStale).ctl.guard ≠ [] ∧
    divergentWrite (xOf (stale 1)) (activeOf (tOf (stale 1)) (xOf (stale 1)) (shOf addStale).ctl.guard) (shOf addStale).writes = false ∧
    ctx? (stale 1) 0 0 = some { imageCtx with dbg := 1 } ∧ 0 < staleCount (shOf addStale) (eOf addStale (stale 1)) :=
  ⟨arrives_spec (by decide), by decide, by decide, by decide, by decide, by decide⟩
theorem witness_stale_read_count : (tOf (stale 0)).again = false ∧ issueState (shOf addStale) (tOf (stale 0)) (xOf (stale 0)) (stale 0) = .ok (uOf addStale (stale 0)) ∧
    ctx? (stale 0) 0 0 = some imageCtx ∧ staleCount (shOf addStale) (eOf addStale (stale 0)) = 1 :=
  ⟨by decide, okState_spec (by decide), by decide, by decide⟩

/-- FULL-FLAG: the strand holds flag 0, which slot A names, 255 times. -/
def movA : Instr := .mov { c := { k0 with setf := 1 }, d := 1, a := src 2, ty := .z32, sat := false }
def flagFull : State := { one [] with strands := [{ imageStrand 3 .ready none with holds := List.replicate 255 (0, 90) }] }
theorem witness_flag_full : (isaShape movA = some (shOf movA) ∧ AtIssue flagFull (tOf flagFull) (xOf flagFull)) ∧
    decodeCheck (shOf movA) (privOf flagFull (tOf flagFull) (xOf flagFull)) (tOf flagFull) (xOf flagFull) = none ∧
    activeOf (tOf flagFull) (xOf flagFull) (shOf movA).ctl.guard ≠ [] ∧
    divergentWrite (xOf flagFull) (activeOf (tOf flagFull) (xOf flagFull) (shOf movA).ctl.guard) (shOf movA).writes = false ∧
    staleTraps (chargeIssue flagFull (shOf movA) (tOf flagFull) (xOf flagFull)) (xOf flagFull) = false ∧
    issueState (shOf movA) (tOf flagFull) (xOf flagFull) flagFull = .ok (uOf movA flagFull) ∧
    strand? (uOf movA flagFull) (tOf flagFull).id = some (wOf movA flagFull) ∧ (wOf movA flagFull).pc = (tOf flagFull).pc ∧
    (wOf movA flagFull).clause = (tOf flagFull).clause ∧ fullFlag (tOf flagFull) (shOf movA).ctl.setf = some 0 :=
  ⟨arrives_spec (by decide), by decide, by decide, by decide, by decide, okState_spec (by decide), by decide, by decide, by decide, by decide⟩
/-- A strand with an open region. -/
def region0 : IdemRegion := { start := 0x10000, clause := imageClause, dest := 6, act := [0], used := 0, stores := [], opened := 0 }
def inRegion : State := { mem with strands := [{ imageStrand 3 .ready none with region := some region0 }] }
/-- ATOM, which a region forbids. -/
def atomIn : Instr := .atom { c := k0, d := 6, a := src 2, b := src 4, x := src 0, op := .add, ty := .z32, sc := .device, ord := .relaxed }
theorem witness_region_forbids : (isaShape atomIn = some (shOf atomIn) ∧ AtIssue inRegion (tOf inRegion) (xOf inRegion)) ∧ (shOf atomIn).noIdem = true ∧
    decodeCheck (shOf atomIn) (privOf inRegion (tOf inRegion) (xOf inRegion)) (tOf inRegion) (xOf inRegion) = none ∧
    activeOf (tOf inRegion) (xOf inRegion) (shOf atomIn).ctl.guard ≠ [] ∧
    divergentWrite (xOf inRegion) (activeOf (tOf inRegion) (xOf inRegion) (shOf atomIn).ctl.guard) (shOf atomIn).writes = false ∧
    staleTraps (chargeIssue inRegion (shOf atomIn) (tOf inRegion) (xOf inRegion)) (xOf inRegion) = false ∧
    issueState (shOf atomIn) (tOf inRegion) (xOf inRegion) inRegion = .ok (uOf atomIn inRegion) ∧
    fullFlag (tOf inRegion) (shOf atomIn).ctl.setf = none ∧ (tOf inRegion).region.isSome = true :=
  ⟨arrives_spec (by decide), by decide, by decide, by decide, by decide, by decide, okState_spec (by decide), by decide, by decide⟩

/-- LD.z32 v6, [v2] in mapped memory. -/
def ld0 : OpLoad := { c := k0, d := 6, a := src 2, fmt := .z32, ep := .normal, noal := false }
theorem witness_delivery : NoEpisode mem ∧ issueState (shOf (.ld ld0)) (tOf mem) (xOf mem) mem = .ok (uOf (.ld ld0) mem) ∧ NoEpisode (uOf (.ld ld0) mem) ∧
    ∃ s1 ls held walked, checkLanes (Need.plain true false) (xOf mem).id (xOf mem) (tOf mem).pc (uOf (.ld ld0) mem)
      (memParts .z32 (src 2) 0 (eOf (.ld ld0) mem)) = (s1, .ok (ls, held, walked)) := by
  refine ⟨by unfold NoEpisode; decide, okState_spec (by decide), by unfold NoEpisode; decide, ?_⟩
  obtain ⟨s1, ls, held, walked, h⟩ := checked_of (n := Need.plain true false) (t := tOf mem) (x := xOf mem) (u := uOf (.ld ld0) mem)
    (parts := memParts .z32 (src 2) 0 (eOf (.ld ld0) mem)) (by decide)
  exact ⟨s1, ls, held, walked, h.out⟩

/-- FADD in a context that traps on every flag. -/
def faddT : Instr := .fadd { c := k0, d := 6, a := src 1, b := src 2, rm := .rne, na := false, nb := false }
def trapping : State := { one [(1, 0x7F7FFFFF), (2, 0x7F7FFFFF)] with ctxs := [{ imageCtx with fpctl := 0x3F00 }] }
theorem witness_arith_trap : computeShape faddT = some (shOf faddT) ∧ IssuesIn faddT trapping ∧
    ctx? (uOf faddT trapping) (xOf trapping).vd (xOf trapping).ctx = some { imageCtx with fpctl := 0x3F00 } ∧ fpTe 0x3F00 = 0x3F :=
  ⟨rfl, (issues_of (by decide)).2, by decide, by decide⟩

/-! Steps. -/

/-- One strand about to issue the canonical NOP. -/
def runs : State := { one [] with cur := none, mem := { (one []).mem with bytes := imageBytes (leBytes 8 0x3C01) } }
/-- The same at the clause start, the header 0x00FF0000 before the NOP. -/
def atStart : State :=
  { runs with strands := [{ imageStrand 3 .ready none with pc := 0x10000, clause := none }]
              mem := { runs.mem with bytes := msetAll runs.mem.bytes 0x10000 (leBytes 8 0x00FF0000) } }
def t0 : Strand := { imageStrand 3 .ready none with waitCount := 0, due := false, dueCycles := 0, inPlace := [] }
def blockOf (s : State) (t : Strand) : State × List Byte :=
  match fetchBlock (setStrand s t) t imageSkein t.pc with
  | (u, .ok b) => (u, b)
  | (u, .error _) => (u, [])
theorem witness_step_word : dueFirst runs = none ∧ runs.inputs = [] ∧ chooseTurn runs (turns runs) = some (.strand 3) ∧ strand? runs 3 = some t0 ∧
    t0.clause = some imageClause ∧ t0.arith = [] ∧
    (match fetchBlock (setStrand runs t0) t0 (xOf (one [])) t0.pc with
     | (u, .ok block) => decide (8 ≤ (fetchFrom t0.pc block).length) && decide (lenBytes (BitVec.ofNat 2 (leNat ((fetchFrom t0.pc block).take 8))) = 8) &&
         (match decode (privOf u t0 (xOf (one []))) (fetchFrom t0.pc block) with | .ok i => decide (i = .nop { c := k0 }) | .error _ => false)
     | (_, .error _) => false) = true :=
  ⟨by decide, by decide, by decide, by decide, by decide, by decide, by decide⟩
theorem witness_step_clause_start : dueFirst atStart = none ∧ atStart.inputs = [] ∧ chooseTurn atStart (turns atStart) = some (.strand 3) ∧
    (match passHeader atStart { t0 with pc := 0x10000, clause := none } (xOf (one [])) with
     | (u, some r) => (match fetchDecode u r (nowSkein u (xOf (one []))) with | (_, some i) => decide (i = .nop { c := k0 }) | _ => false)
     | _ => false) = true :=
  ⟨by decide, by decide, by decide, by decide⟩
theorem witness_step_input : ∃ v, step { State.reset with inputs := [.droopPasses .hostCp] } = .next v := ⟨_, rfl⟩

/-! Control. -/

/-- Where the branches go: a register target of 0x10000 in v2, v3. -/
def goes : State := one [(2, 0x10000)]
theorem witness_branches_go : ∀ i ∈ [Instr.bra { c := k0, imm := 0 }, .brc { c := k0, imm := 1 }, .call { c := k0, d := 20, imm := 2 }, .brx { c := k0, a := src 2 },
    .callx { c := k0, d := 20, a := src 2 }, .ret { c := k0, a := src 2 }],
    IssuesIn i goes ∧ (tOf goes).region = none ∧ (∀ f ∈ (eOf i goes).act, bits ((eOf i goes).r64 f 2) 0 5 = 0 ∧ canonical ((eOf i goes).r64 f 2) = true) ∧
      canonical (clauseStart (tOf goes) + 64) = true := fun i h => by
  have := List.all_eq_true.mp (by decide : ([Instr.bra { c := k0, imm := 0 }, .brc { c := k0, imm := 1 }, .call { c := k0, d := 20, imm := 2 }, .brx { c := k0, a := src 2 },
    .callx { c := k0, d := 20, a := src 2 }, .ret { c := k0, a := src 2 }].all fun i => issuesB i goes &&
      (eOf i goes).act.all fun f => decide (bits ((eOf i goes).r64 f 2) 0 5 = 0) && canonical ((eOf i goes).r64 f 2)) = true) i h
  simp only [Bool.and_eq_true, List.all_eq_true, decide_eq_true_eq] at this
  exact ⟨(issues_of this.1).2, by decide, this.2, by decide⟩
/-- A target that is no clause start, in the first fibre; one that is not canonical; a direct target outside the canonical addresses. -/
theorem witness_branches_fail_bad : ∀ i ∈ [Instr.brx { c := k0, a := src 2 }, .callx { c := k0, d := 20, a := src 2 }, .ret { c := k0, a := src 2 }],
    IssuesIn i (one [(2, 0x10008)]) ∧ (eOf i (one [(2, 0x10008)])).act.find? (fun f => bits ((eOf i (one [(2, 0x10008)])).r64 f 2) 0 5 != 0) = some 0 := fun i h => by
  have := List.all_eq_true.mp (by decide : ([Instr.brx { c := k0, a := src 2 }, .callx { c := k0, d := 20, a := src 2 }, .ret { c := k0, a := src 2 }].all fun i =>
    issuesB i (one [(2, 0x10008)]) && decide ((eOf i (one [(2, 0x10008)])).act.find? (fun f => bits ((eOf i (one [(2, 0x10008)])).r64 f 2) 0 5 != 0) = some 0)) = true) i h
  simp only [Bool.and_eq_true, decide_eq_true_eq] at this
  exact ⟨(issues_of this.1).2, this.2⟩
theorem witness_branches_fail_canonical : ∀ i ∈ [Instr.brx { c := k0, a := src 2 }, .callx { c := k0, d := 20, a := src 2 }, .ret { c := k0, a := src 2 }],
    IssuesIn i (one [(3, 0x40000000)]) ∧ (eOf i (one [(3, 0x40000000)])).act.find? (fun f => !canonical ((eOf i (one [(3, 0x40000000)])).r64 f 2)) = some 0 := fun i h => by
  have := List.all_eq_true.mp (by decide : ([Instr.brx { c := k0, a := src 2 }, .callx { c := k0, d := 20, a := src 2 }, .ret { c := k0, a := src 2 }].all fun i =>
    issuesB i (one [(3, 0x40000000)]) &&
      decide ((eOf i (one [(3, 0x40000000)])).act.find? (fun f => !canonical ((eOf i (one [(3, 0x40000000)])).r64 f 2)) = some 0)) = true) i h
  simp only [Bool.and_eq_true, decide_eq_true_eq] at this
  exact ⟨(issues_of this.1).2, this.2⟩
def high : State :=
  { one [] with strands := [{ imageStrand 3 .ready none with pc := 0x00FFFFFFFFFFFFE8, clause := some { imageClause with start := 0x00FFFFFFFFFFFFE0 } }] }
theorem witness_branches_fail_direct : ∀ i ∈ [Instr.bra { c := k0, imm := 1 }, .brc { c := k0, imm := 1 }, .call { c := k0, d := 20, imm := 1 }],
    IssuesIn i high ∧ canonical (clauseStart (tOf high) + (1 : BitVec 32).signExtend 64 * 32) = false := fun i h =>
  ⟨(issues_of (List.all_eq_true.mp (by decide : ([Instr.bra { c := k0, imm := 1 }, .brc { c := k0, imm := 1 }, .call { c := k0, d := 20, imm := 1 }].all fun i =>
    issuesB i high) = true) i h)).2, by decide⟩
/-- BRC under p0 of fibre 0 alone splits a strand with an open region. -/
def splits : State := { two [(2, 0x10000)] [] with strands := [{ imageStrand 3 .ready none with fibres := [0, 1], region := some region0 }] }
theorem witness_branches_fail_split : ∀ i ∈ [Instr.brc { c := { guard := 0, setf := 0 }, imm := 0 }, .brx { c := { guard := 0, setf := 0 }, a := src 2 },
    .callx { c := { guard := 0, setf := 0 }, d := 20, a := src 2 }, .ret { c := { guard := 0, setf := 0 }, a := src 2 }],
    IssuesIn i splits ∧ (eOf i splits).act = [0] ∧ (tOf splits).fibres = [0, 1] ∧ (tOf splits).region.isSome = true := fun i h => by
  have := List.all_eq_true.mp (by decide : ([Instr.brc { c := { guard := 0, setf := 0 }, imm := 0 }, .brx { c := { guard := 0, setf := 0 }, a := src 2 },
    .callx { c := { guard := 0, setf := 0 }, d := 20, a := src 2 }, .ret { c := { guard := 0, setf := 0 }, a := src 2 }].all fun i =>
      issuesB i splits && decide ((eOf i splits).act = [0])) = true) i h
  simp only [Bool.and_eq_true, decide_eq_true_eq] at this
  exact ⟨(issues_of this.1).2, this.2, rfl, rfl⟩

def spawn0 : Instr := .fspawn { c := k0, d := 9, a := src 3, b := src 16, k := 4, imm := 2 }
theorem witness_spawn : IssuesIn spawn0 (one [(3, 3)]) ∧ (eOf spawn0 (one [(3, 3)])).act = [0] ∧ ((eOf spawn0 (one [(3, 3)])).r32 0 3).toNat = 3 :=
  ⟨(issues_of (by decide)).2, by decide, by decide⟩
theorem witness_spawn_count : IssuesIn spawn0 (one [(3, 1025)]) ∧
    (eOf spawn0 (one [(3, 1025)])).act.find? (fun f => let n := ((eOf spawn0 (one [(3, 1025)])).r32 f 3).toNat; n == 0 || decide (1024 < n)) = some 0 :=
  ⟨(issues_of (by decide)).2, by decide⟩
/-- FEND in fibre 0 alone. -/
def fend0 : Instr := .fend { c := { guard := 0, setf := 0 } }
theorem witness_fend : IssuesIn fend0 (two [] []) ∧ (wOf fend0 (two [] [])).wait = none ∧ (wOf fend0 (two [] [])).fibres = (tOf (two [] [])).fibres ∧
    (1 ∈ (tOf (two [] [])).fibres ∧ 1 ∉ (eOf fend0 (two [] [])).act) :=
  ⟨(issues_of (by decide)).2, by decide, by decide, by decide⟩

/-- A store in flight of the strand that issues. -/
def pend0 (acc : Acc) (lanes : List Lane) : Pending :=
  { id := 9, strands := [3], skein := 2, spindle := 0, vd := 0, ctx := 0, acc := acc, lanes := lanes, miss := false, dlogHeld := false, gwct := 0, pc := 0x10008,
    flags := 0, word := [], ops := [], sent := false, tflags := 0 }
def storing (s : State) : State := { s with pend := [pend0 (.store .normal false) []] }
theorem witness_barriers_fence : ∀ i ∈ [Instr.barSk { c := k0 }, .barHk { c := k0 }, .bara { c := k0, d := 6, hank := false }, .bara { c := k0, d := 6, hank := true }],
    IssuesIn i (storing (one [])) ∧ fenceMet (uOf i (storing (one []))) (tOf (storing (one []))) .skein = false ∧
      fenceMet (uOf i (storing (one []))) (tOf (storing (one []))) .hank = false := fun i h => by
  have := List.all_eq_true.mp (by decide : ([Instr.barSk { c := k0 }, .barHk { c := k0 }, .bara { c := k0, d := 6, hank := false },
    .bara { c := k0, d := 6, hank := true }].all fun i => issuesB i (storing (one [])) && !fenceMet (uOf i (storing (one []))) (tOf (storing (one []))) .skein &&
      !fenceMet (uOf i (storing (one []))) (tOf (storing (one []))) .hank) = true) i h
  simp only [Bool.and_eq_true, Bool.not_eq_true'] at this
  exact ⟨(issues_of this.1.1).2, this.1.2, this.2⟩
/-- Whether what the barrier statements ask holds of an arrival in s: nothing to wait for, nobody waiting, the fibres expected and not yet there. -/
def arrivesB (i : Instr) (s : State) (hank : Bool) : Bool :=
  let u := uOf i s
  let b := barrierOf u (xOf s) hank
  let exp := if b.opened then b.expected else livingOf u (xOf s) hank
  let arr := if b.opened then b.arrived else []
  issuesB i s && fenceMet u (tOf s) .hank && (barrierWaiters u (xOf s) hank).isEmpty && (hank? u (xOf s).hank).isSome && decide (eOf i s).act.Nodup &&
    (eOf i s).act.all (fun f => exp.contains ((xOf s).id, f) && !arr.contains ((xOf s).id, f))
/-- The last of the expected fibres to arrive: the only one; others still to come: fibre 1. -/
theorem witness_barriers_last : ([Instr.barSk { c := k0 }, .bara { c := k0, d := 6, hank := false }].all (arrivesB · (one []) false) &&
    [Instr.barHk { c := k0 }, .bara { c := k0, d := 6, hank := true }].all (arrivesB · (one []) true)) = true ∧
    livingOf (one []) (xOf (one [])) false = [(2, 0)] ∧ livingOf (one []) (xOf (one [])) true = [(2, 0)] := ⟨by decide, by decide, by decide⟩
def g0 : Ctl := { guard := 0, setf := 0 }
theorem witness_barriers_more : ([Instr.barSk { c := g0 }, .bara { c := g0, d := 6, hank := false }].all (arrivesB · (two [] []) false) &&
    [Instr.barHk { c := g0 }, .bara { c := g0, d := 6, hank := true }].all (arrivesB · (two [] []) true)) = true ∧
    livingOf (two [] []) (xOf (two [] [])) false = [(2, 0), (2, 1)] := ⟨by decide, by decide⟩
/-- BARW of generation 0, with one completed and with none. -/
def barw0 (hank : Bool) : Instr := .barw { c := k0, a := src 1, hank := hank }
def generation (g : BitVec 32) : State :=
  { one [] with skeins := [{ imageSkein with fibres := [fib 0 0xFFFF []], bar := { Barrier.reset with g := g } }]
                hanks := [{ imageHank with bar := { Barrier.reset with g := g } }] }
theorem witness_barw : ∀ hank ∈ [false, true], ∀ g ∈ [(1 : BitVec 32), 0, 0x80000000, 0x80000001], IssuesIn (barw0 hank) (generation g) ∧
    barrierWaiters (uOf (barw0 hank) (generation g)) (xOf (generation g)) hank = [] ∧ (hank? (uOf (barw0 hank) (generation g)) (xOf (generation g)).hank).isSome = true ∧
    (barrierOf (uOf (barw0 hank) (generation g)) (xOf (generation g)) hank).opened = false ∧
    (barrierOf (uOf (barw0 hank) (generation g)) (xOf (generation g)) hank).g - (eOf (barw0 hank) (generation g)).r32 0 1 = g := fun hank h g hg => by
  have := List.all_eq_true.mp (List.all_eq_true.mp (by decide : ([false, true].all fun hank => [(1 : BitVec 32), 0, 0x80000000, 0x80000001].all fun g =>
    issuesB (barw0 hank) (generation g) && decide (barrierWaiters (uOf (barw0 hank) (generation g)) (xOf (generation g)) hank = []) &&
      (hank? (uOf (barw0 hank) (generation g)) (xOf (generation g)).hank).isSome &&
      decide ((barrierOf (uOf (barw0 hank) (generation g)) (xOf (generation g)) hank).opened = false) &&
      decide ((barrierOf (uOf (barw0 hank) (generation g)) (xOf (generation g)) hank).g - (eOf (barw0 hank) (generation g)).r32 0 1 = g)) = true) hank h) g hg
  simp only [Bool.and_eq_true, decide_eq_true_eq] at this
  exact ⟨(issues_of this.1.1.1.1).2, this.1.1.1.2, this.1.1.2, this.1.2, this.2⟩
theorem witness_live : IssuesIn (.live { c := k0, mask := 0xFFFF0000000F }) (one []) ∧
    ((yOf (.live { c := k0, mask := 0xFFFF0000000F }) (one [])).fibre? 0).isSome = true := ⟨(issues_of (by decide)).2, by decide⟩

/-! Memory: as instructions issue. -/

/-- The strand waits for an acquire in flight. -/
def acquiring0 : State := { mem with pend := [pend0 (.load 6 .z32 false true .normal false) []] }
theorem witness_acquire : ∀ i ∈ [Instr.ld ld0, .lds ld0, .ldaq { c := k0, d := 6, a := src 2, fmt := .z32, ep := .normal, noal := false, sc := .device },
    .st { c := k0, a := src 2, b := src 4, fmt := .z32, ep := .normal, noal := false }, atomIn, .pft { c := k0, a := src 2, b := src 4, x := src 8, el := false, l1 := false, e2 := 0, e1 := 0, e0 := 0 },
    .cpin { c := k0, d := 6, a := src 2, b := src 4 }, .tzero { c := k0, d := 1 }],
    IssuesIn i acquiring0 ∧ (acquiring (uOf i acquiring0) (tOf acquiring0)).isSome = true := fun i h => by
  have := List.all_eq_true.mp (by decide : ([Instr.ld ld0, .lds ld0, .ldaq { c := k0, d := 6, a := src 2, fmt := .z32, ep := .normal, noal := false, sc := .device },
    .st { c := k0, a := src 2, b := src 4, fmt := .z32, ep := .normal, noal := false }, atomIn, .pft { c := k0, a := src 2, b := src 4, x := src 8, el := false, l1 := false, e2 := 0, e1 := 0, e0 := 0 },
    .cpin { c := k0, d := 6, a := src 2, b := src 4 }, .tzero { c := k0, d := 1 }].all fun i => issuesB i acquiring0 && (acquiring (uOf i acquiring0) (tOf acquiring0)).isSome) = true) i h
  simp only [Bool.and_eq_true] at this
  exact ⟨(issues_of this.1).2, this.2⟩

def st0 : OpStore := { c := k0, a := src 2, b := src 6, fmt := .z32, ep := .normal, noal := false }
def stI : OpStoreImm := { c := k0, a := src 2, b := src 6, fmt := .z64, ep := .normal, noal := false, imm := 8 }
def rl0 : OpStrl := { c := k0, a := src 2, b := src 6, fmt := .z32, ep := .normal, noal := false, sc := .device }
def rlI : OpStrlImm := { c := k0, a := src 2, b := src 6, fmt := .z32, ep := .normal, noal := false, sc := .skein, imm := 4 }
def ldI : OpLoadImm := { c := k0, d := 6, a := src 2, fmt := .z64, ep := .normal, noal := false, imm := 8 }
def aq0 : OpLdaq := { c := k0, d := 6, a := src 2, fmt := .z32, ep := .normal, noal := false, sc := .device }
def aqI : OpLdaqImm := { c := k0, d := 6, a := src 2, fmt := .z32, ep := .normal, noal := false, sc := .system, imm := 4 }
def at0 : OpAtom := { c := k0, d := 6, a := src 2, b := src 4, x := src 0, op := .add, ty := .z32, sc := .device, ord := .acqRel }
def atI : OpAtomImm := { c := k0, d := 6, a := src 2, b := src 4, x := src 0, op := .add, ty := .z32, sc := .device, ord := .relaxed, imm := 4 }
def af0 : OpAtomf := { c := k0, d := 6, a := src 2, b := src 4, op := .fadd, sc := .device, ord := .release }
def afI : OpAtomfImm := { c := k0, d := 6, a := src 2, b := src 4, op := .fadd, sc := .device, ord := .relaxed, imm := 4 }
def rd0 : OpRed := { c := k0, a := src 2, b := src 4, op := .int .add .z32, sc := .device, ord := .release }
def rdI : OpRedImm := { c := k0, a := src 2, b := src 4, op := .flt .fadd, sc := .device, ord := .relaxed, imm := 4 }
def ra0 : OpRatom := { c := k0, d := 6, a := src 2, b := src 4, x := src 0, op := .add, ty := .z32, sc := .device, ord := .relaxed, off := 4 }
def atNeed (o : AtomicOp) : Need := { Need.plain true true with atomic := true, space := o.space }
def cctlParts (off : BitVec 32) (e : Env) : List Lane := e.act.map (fun f => Lane.mk0 f ((e.r64 f 2 + off.signExtend 64) &&& ~~~127) 128)
/-- Accesses of memory: the instruction, what its checks need, and its parts. -/
def accesses : List (Instr × Need × (Env → List Lane)) :=
  [(.ld ld0, Need.plain true false, memParts .z32 (src 2) 0), (.ldImm32 ldI, Need.plain true false, memParts .z64 (src 2) 8),
   (.ldc ld0, Need.plain true false, memParts .z32 (src 2) 0), (.ldcImm32 ldI, Need.plain true false, memParts .z64 (src 2) 8),
   (.ldaq aq0, Need.plain true false, memParts .z32 (src 2) 0), (.ldaqImm32 aqI, Need.plain true false, memParts .z32 (src 2) 4),
   (.st st0, Need.plain false true, storeParts (StoreOp.of st0)), (.stImm32 stI, Need.plain false true, storeParts (StoreOp.ofImm stI)),
   (.strl rl0, Need.plain false true, storeParts (StoreOp.ofRl rl0)), (.strlImm32 rlI, Need.plain false true, storeParts (StoreOp.ofRlImm rlI))]
def atomics : List (Instr × AtomicOp) :=
  [(.atom at0, AtomicOp.ofAtom 8 at0.c (some at0.d) at0.a at0.b at0.x at0.op at0.ty at0.sc at0.ord 0),
   (.atomImm32 atI, AtomicOp.ofAtom 16 atI.c (some atI.d) atI.a atI.b atI.x atI.op atI.ty atI.sc atI.ord atI.imm),
   (.atomf af0, AtomicOp.ofAtomf 8 af0.c (some af0.d) af0.a af0.b af0.op af0.sc af0.ord 0),
   (.atomfImm32 afI, AtomicOp.ofAtomf 16 afI.c (some afI.d) afI.a afI.b afI.op afI.sc afI.ord afI.imm),
   (.red rd0, AtomicOp.ofRed 8 rd0.c rd0.a rd0.b rd0.op rd0.sc rd0.ord 0), (.redImm32 rdI, AtomicOp.ofRed 16 rdI.c rdI.a rdI.b rdI.op rdI.sc rdI.ord rdI.imm),
   (.ratom ra0, { AtomicOp.ofAtom 16 ra0.c (some ra0.d) ra0.a ra0.b ra0.x ra0.op ra0.ty ra0.sc ra0.ord ra0.off with space := ratomSpace })]
/-- In s the instruction issues, no acquire holds it back, and its parts pass the checks. -/
def Passes (i : Instr) (s : State) (n : Need) (parts : Env → List Lane) : Prop :=
  IssuesIn i s ∧ acquiring (uOf i s) (tOf s) = none ∧ fenceMet (uOf i s) (tOf s) .system = true ∧ (parts (eOf i s)).length = 1 ∧
    ∃ s1 ls held walked, Checked n (tOf s) (xOf s) (uOf i s) (parts (eOf i s)) s1 ls held walked
def passesB (i : Instr) (s : State) (n : Need) (parts : Env → List Lane) : Bool :=
  issuesB i s && (acquiring (uOf i s) (tOf s)).isNone && fenceMet (uOf i s) (tOf s) .system && decide ((parts (eOf i s)).length = 1) &&
    checkedB n (tOf s) (xOf s) (uOf i s) (parts (eOf i s))
theorem passes_of {i : Instr} {s : State} {n : Need} {parts : Env → List Lane} (h : passesB i s n parts = true) : Passes i s n parts := by
  simp only [passesB, Bool.and_eq_true, decide_eq_true_eq, Option.isNone_iff_eq_none] at h
  exact ⟨(issues_of h.1.1.1.1).2, h.1.1.1.2, h.1.1.2, h.1.2, checked_of h.2⟩
theorem witness_accesses : ∀ p ∈ accesses, Passes p.1 mem p.2.1 p.2.2 := fun p h =>
  passes_of (List.all_eq_true.mp (by decide : (accesses.all fun p => passesB p.1 mem p.2.1 p.2.2) = true) p h)
theorem witness_atomics : ∀ p ∈ atomics, Passes p.1 mem (atNeed p.2) (atomParts p.2) := fun p h =>
  passes_of (List.all_eq_true.mp (by decide : (atomics.all fun p => passesB p.1 mem (atNeed p.2) (atomParts p.2)) = true) p h)
theorem witness_cctl : Passes (.cctl { c := k0, a := src 2, cop := .wb }) mem (Need.plain true false) (cctlParts 0) ∧
    Passes (.cctlImm32 { c := k0, a := src 2, cop := .wbinv, imm := 128 }) mem (Need.plain true false) (cctlParts 128) :=
  ⟨passes_of (by decide), passes_of (by decide)⟩
/-- A release form with a store of its strand in flight; a part that is not aligned. -/
theorem witness_release_waits : ∀ i ∈ [Instr.strl rl0, .strlImm32 rlI, .atom at0, .atomf af0, .red rd0], IssuesIn i (storing mem) ∧
    acquiring (uOf i (storing mem)) (tOf (storing mem)) = none ∧ fenceMet (uOf i (storing mem)) (tOf (storing mem)) .device = false ∧
    fenceMet (uOf i (storing mem)) (tOf (storing mem)) .skein = false := fun i h => by
  have := List.all_eq_true.mp (by decide : ([Instr.strl rl0, .strlImm32 rlI, .atom at0, .atomf af0, .red rd0].all fun i => issuesB i (storing mem) &&
    (acquiring (uOf i (storing mem)) (tOf (storing mem))).isNone && !fenceMet (uOf i (storing mem)) (tOf (storing mem)) .device &&
    !fenceMet (uOf i (storing mem)) (tOf (storing mem)) .skein) = true) i h
  simp only [Bool.and_eq_true, Bool.not_eq_true', Option.isNone_iff_eq_none] at this
  exact ⟨(issues_of this.1.1.1).2, this.1.1.2, this.1.2, this.2⟩
def odd : State := one [(2, 0x100002), (4, 1)]
theorem witness_misaligned : ∀ p ∈ accesses, IssuesIn p.1 odd ∧ acquiring (uOf p.1 odd) (tOf odd) = none ∧
    ((p.2.2 (eOf p.1 odd)).find? (fun l => l.size != 0 && l.va.toNat % l.size != 0)).isSome = true := fun p h => by
  have := List.all_eq_true.mp (by decide : (accesses.all fun p => issuesB p.1 odd && (acquiring (uOf p.1 odd) (tOf odd)).isNone &&
    ((p.2.2 (eOf p.1 odd)).find? (fun l => l.size != 0 && l.va.toNat % l.size != 0)).isSome) = true) p h
  simp only [Bool.and_eq_true, Option.isNone_iff_eq_none] at this
  exact ⟨(issues_of this.1.1).2, this.1.2, this.2⟩
theorem witness_misaligned_atomics : ∀ p ∈ atomics, IssuesIn p.1 odd ∧ acquiring (uOf p.1 odd) (tOf odd) = none ∧
    ((atomParts p.2 (eOf p.1 odd)).find? (fun l => l.size != 0 && l.va.toNat % l.size != 0)).isSome = true := fun p h => by
  have := List.all_eq_true.mp (by decide : (atomics.all fun p => issuesB p.1 odd && (acquiring (uOf p.1 odd) (tOf odd)).isNone &&
    ((atomParts p.2 (eOf p.1 odd)).find? (fun l => l.size != 0 && l.va.toNat % l.size != 0)).isSome) = true) p h
  simp only [Bool.and_eq_true, Option.isNone_iff_eq_none] at this
  exact ⟨(issues_of this.1.1).2, this.1.2, this.2⟩
/-- Scratchpad: in range; out of range. -/
def scrLd (s : State) (off : BitVec 32) : List (Lane × BitVec 32) := (eOf (.lds ld0) s).act.map (fun f => (Lane.mk0 f 0 4, (eOf (.lds ld0) s).r32 f 2 + off))
theorem witness_scratchpad : ∀ i ∈ [Instr.lds ld0, .ldsImm32 ldI, .sts st0, .stsImm32 stI], IssuesIn i (one []) ∧ acquiring (uOf i (one [])) (tOf (one [])) = none :=
  fun i h => by
    have := List.all_eq_true.mp (by decide : ([Instr.lds ld0, .ldsImm32 ldI, .sts st0, .stsImm32 stI].all fun i => issuesB i (one []) &&
      (acquiring (uOf i (one [])) (tOf (one []))).isNone) = true) i h
    simp only [Bool.and_eq_true, Option.isNone_iff_eq_none] at this
    exact ⟨(issues_of this.1).2, this.2⟩
theorem witness_scratchpad_range :
    (match checkScr (uOf (.lds ld0) (one [])) (xOf (one [])) 0x10008 false (scrLd (one []) 0) with | .ok ls => decide (ls.length = 1) | .error _ => false) = true ∧
    (match checkScr (uOf (.lds ld0) (one [])) (xOf (one [])) 0x10008 false (scrLd (one []) 0x00FFFFF0) with | .ok _ => false | .error _ => true) = true :=
  ⟨by decide, by decide⟩
/-- A store in an open region, with room in the buffer and with none. -/
def region1 (used : Nat) : State := { mem with strands := [{ imageStrand 3 .ready none with region := some { region0 with used := used } }] }
theorem witness_store_buffers : ∀ i ∈ [(Instr.st st0, StoreOp.of st0), (.stImm32 stI, StoreOp.ofImm stI), (.strl rl0, StoreOp.ofRl rl0), (.strlImm32 rlI, StoreOp.ofRlImm rlI)],
    ∀ used ∈ [0, 16384], Passes i.1 (region1 used) { Need.plain false true with buf := true } (storeParts i.2) ∧
      (tOf (region1 used)).region = some { region0 with used := used } := fun i hi used hu => by
  have := List.all_eq_true.mp (List.all_eq_true.mp (by decide : ([(Instr.st st0, StoreOp.of st0), (.stImm32 stI, StoreOp.ofImm stI), (.strl rl0, StoreOp.ofRl rl0),
    (.strlImm32 rlI, StoreOp.ofRlImm rlI)].all fun i => [0, 16384].all fun used => passesB i.1 (region1 used) { Need.plain false true with buf := true } (storeParts i.2)) = true) i hi) used hu
  exact ⟨passes_of this, rfl⟩
/-- RSTF of data and flag in one package's memory; PUBLISH to a host window that fibre 0's last-page register maps. -/
def rstf0 : OpRstf := { c := k0, a := src 2, b := src 6, x := src 8, fmt := .z32, ep := .normal, noal := false, sc := .device, off := 0x40, inc := 0 }
theorem witness_rstf : Passes (.rstf rstf0) mem (Need.plain false true) (storeParts (StoreOp.ofRstf rstf0)) ∧
    Passes (.rstf rstf0) mem (Need.plain false true) (fun e => [Lane.mk0 e.lead (e.r64 e.lead 8) 8]) ∧ pkgOf mem 0x100040 = some 0 ∧ pkgOf mem 0x100080 = some 0 :=
  ⟨passes_of (by decide), passes_of (by decide), by decide, by decide⟩
def hostPage : Trans :=
  { vd := 0, ctx := 0, vpage := 0x100000, lg := 12, spage := 2 ^ 51, r := true, w := true, x := false, uncached := true, eng := false, dt := true, leaf1 := 0, leaf2 := 0,
    gpage := 0, lg2 := 12, acc := true, lpage := 0x100000, llg := 12, tabs := [] }
def host : State := { mem with skeins := [{ imageSkein with fibres := [{ fib 0 0xFFFF [(2, 0x100000)] with lastPage := some hostPage }] }] }
theorem witness_publish : Passes (.publish { c := k0, a := src 2 }) host
    { Need.plain true true with atomic := true, space := fun s a => if spaceOf s a = .host then none else some 0x18 } (fun e => [Lane.mk0 e.lead (e.r64 e.lead 2) 8]) :=
  passes_of (by decide)

/-! Memory: as accesses complete. -/

/-- An access in flight, of one part at an address, issued by nobody else. -/
def lane0 (spa : Nat) (data : List Byte) : Lane := { Lane.mk0 0 (BitVec.ofNat 64 spa) data.length with spa := spa, data := data }
def bufStore : BufStore := { seq := 1, fibre := 0, va := 0x100000, bytes := [1, 2, 3, 4], ep := .normal, noal := false, sc := none, flags := 0 }
def flying (acc : Acc) (lanes : List Lane) : State := { mem with pend := [pend0 acc lanes] }
theorem witness_pft : (pend? (flying (.pft false false [(0x100000, 0, 0)] 127 0 0) []) 9).isSome = true := by decide
theorem witness_cacheOp : ∀ acc ∈ [Acc.cctl .wb, .cctl .invl1, .cctl .wbinv, .cctl (.pri .last), .icinv], (pend? (flying acc [lane0 0x100000 []]) 9).isSome = true := by decide
theorem witness_pin : pend? (flying (.pin false 200) [lane0 0x100000 []]) 9 = some (pend0 (.pin false 200) [lane0 0x100000 []]) ∧
    skein? (flying (.pin false 200) [lane0 0x100000 []]) 2 = some (xOf mem) ∧ 192 ≤ (200 : Field8).toNat := ⟨by decide, by decide, by decide⟩
/-- LOAD_DATA_RETURN: the line is read, and v6 can take the result; a uniform destination; scratchpad. -/
def loading (d : Field8) : State := flying (.load d .z32 false false .normal false) [lane0 0x100000 [0, 0, 0, 0]]
theorem can_land (p : List Pending) (d n : Nat) (h : d + n ≤ 192) : CanLand { mem with pend := p } (xOf mem) d n 0 := by
  refine ⟨h, rfl, ⟨tOf mem, rfl, rfl⟩, fun i h1 h2 => ?_⟩
  have : i / 4 < 48 := by omega
  refine ⟨{ key := .vec 0 (i / 4), st := .clean, strand := 0 }, ?_, by simp [lineKey], by simp⟩
  have hm : ∀ q, q < 48 → ({ key := .vec 0 q, st := .clean, strand := 0 } : RegLine) ∈ (xOf mem).lines := by decide
  exact hm _ this
theorem witness_load : pend? (loading 6) 9 = some (pend0 (.load 6 .z32 false false .normal false) [lane0 0x100000 [0, 0, 0, 0]]) ∧
    performing (loading 6) (pend0 (.load 6 .z32 false false .normal false) [lane0 0x100000 [0, 0, 0, 0]]) [0] = [(0, lane0 0x100000 [0, 0, 0, 0])] ∧
    (lane0 0x100000 [0, 0, 0, 0]).spa / 128 = 0x2000 ∧ CanLand (loading 6) (xOf mem) 6 1 0 ∧
    (loadLine (loading 6) (pend0 (.load 6 .z32 false false .normal false) [lane0 0x100000 [0, 0, 0, 0]]) (xOf mem) 0x2000 false false false .normal).2 =
      some (List.replicate 128 0) :=
  ⟨by decide, by decide, by decide, can_land _ 6 1 (by decide), by decide⟩
theorem witness_load_uniform : (pend? (loading 200) 9).map (fun p => performing (loading 200) p [0]) = some [(0, lane0 0x100000 [0, 0, 0, 0])] := by decide
def ldsing : State := flying (.lds 6 .z32) [lane0 (2 * 2 ^ 32) [0, 0, 0, 0]]
theorem witness_lds : (pend? ldsing 9).map (fun p => performing ldsing p [0]) = some [(0, lane0 (2 * 2 ^ 32) [0, 0, 0, 0])] ∧ CanLand ldsing (xOf mem) 6 1 0 :=
  ⟨by decide, can_land _ 6 1 (by decide)⟩
theorem witness_store : ∀ acc ∈ [Acc.store .normal false, .sts, .commitStore [bufStore]],
    (pend? (flying acc [lane0 (2 * 2 ^ 32) [1, 2, 3, 4]]) 9).map (fun p => performing (flying acc [lane0 (2 * 2 ^ 32) [1, 2, 3, 4]]) p [0]) =
      some [(0, lane0 (2 * 2 ^ 32) [1, 2, 3, 4])] ∧ normSpa mem (2 * 2 ^ 32) = 2 * 2 ^ 32 ∧ skein? (flying acc []) (2 * 2 ^ 32 / 2 ^ 32) = some (xOf mem) := by decide
theorem witness_atomic : ∀ acc ∈ [Acc.atom none .add .z32 false, .atom (some 6) .cas .z32 false, .atomf none .fadd false, .atomf (some 6) .fmax false, .publish],
    (pend? (flying acc [lane0 0x100000 [1, 0, 0, 0]]) 9).map (fun p => performing (flying acc [lane0 0x100000 [1, 0, 0, 0]]) p [0]) =
      some [(0, lane0 0x100000 [1, 0, 0, 0])] ∧ (atomicResult acc (lane0 0x100000 [1, 0, 0, 0]) 0).isSome = true ∧ poisoned (flying acc []) 0x100000 4 = false := by decide
theorem witness_atomic_lands : CanLand (flying (.atom (some 6) .cas .z32 false) []) (xOf mem) 6 1 0 := can_land _ 6 1 (by decide)
/-- A strand that waits as FENCE does, its writes complete, in flight, and not yet globally complete; RSTF's flag due and not due; its data to come. -/
def fenced (p : List Pending) (h : BitVec 64) : State :=
  { mem with pend := p, strands := [{ imageStrand 3 .ready none with wait := some (.fence .device), again := true, h := h }] }
theorem witness_fence_waits : strand? (fenced [] 0) 3 = some { imageStrand 3 .ready none with wait := some (.fence .device), again := true, h := 0 } ∧
    strand? (fenced [] 5) 3 = some { imageStrand 3 .ready none with wait := some (.fence .device), again := true, h := 5 } ∧
    strand? (fenced [pend0 (.store .normal false) []] 0) 3 = some { imageStrand 3 .ready none with wait := some (.fence .device), again := true, h := 0 } ∧
    (fenced [] 0).gtb = 1 := ⟨rfl, rfl, rfl, rfl⟩
def rstfing (g : BitVec 64) (lanes : List Lane) : Pending := { pend0 (.rstf 0x100080 1 .device .normal false) lanes with gwct := g }
theorem witness_rstf_flag : pend? { mem with pend := [rstfing 0 []] } 9 = some (rstfing 0 []) ∧ pend? { mem with pend := [rstfing 1 []] } 9 = some (rstfing 1 []) ∧
    (rstfing 0 []).gwct.toNat < mem.gtb.toNat ∧ ¬ (rstfing 1 []).gwct.toNat < mem.gtb.toNat ∧ normSpa mem 0x100080 = 0x100080 ∧
    poisoned mem 0x100080 8 = false := ⟨rfl, rfl, by decide, by decide, by decide, by decide⟩
theorem witness_rstf_data : performing { mem with pend := [rstfing 0 [lane0 0x100000 [1], lane0 0x100100 [2]]] } (rstfing 0 [lane0 0x100000 [1], lane0 0x100100 [2]]) [0] =
    [(0, lane0 0x100000 [1])] ∧ (lane0 0x100100 [2]).done = false := by decide
/-- CPIN of a range that does not translate, over the limit, without room, and that fits; CUNPIN of a pinned line. -/
def pinning (pin : BitVec 64) (share : Nat) : State :=
  { mem with ctxs := [{ imageCtx with pin := pin }], vds := updIf (fun v => v.num == 0) (fun v => { v with l2share := BitVec.ofNat 64 share, ways := upTo 0 share }) mem.vds }
def pinLine (s : State) (va : BitVec 64) : State × List Nat × Bool := pinLines (pend0 (.pin false 6) []) true va (rangeLines va 128) s
theorem witness_pins : (pinLine (pinning 0 24) 0x40000000).2.2 = false ∧ (pinLine (pinning 0 24) 0x100000).2 = ([0x2000], true) ∧
    pinnedBy (pinLine (pinning 0 24) 0x100000).1 0 0 0x2000 = false ∧ (ctx? (pinLine (pinning 0 24) 0x100000).1 0 0).isSome = true := by decide
theorem pins_fit_one (u : State) (l n : Nat) (h0 : u.mem.l2 = []) (h1 : pinnedVd u 0 l = false) (h2 : pinWays u 0 = n) : pinsFit u 0 [l] = decide (1 ≤ n) := by
  unfold pinsFit
  simp [h0, h1, h2]
theorem witness_pins_fit : pinsFit (pinLine (pinning 0 0x118) 0x100000).1 0 [0x2000] = true ∧ pinsFit (pinLine (pinning 0 24) 0x100000).1 0 [0x2000] = false :=
  ⟨pins_fit_one _ 0x2000 1 (by decide) (by decide) (by decide), pins_fit_one _ 0x2000 0 (by decide) (by decide) (by decide)⟩

/-! Tiles, accumulators and the array. -/

/-- The skein's array state as given, v1, v2, v4 of fibre 0 as listed. -/
def arr (l : SMap 32) (f : Skein → Skein) : State := { one [] with skeins := [f { imageSkein with fibres := [fib 0 0xFFFF l] }] }
def noAcc (x : Skein) : Skein := { x with part := 0x80208 }
def tz : Instr := .tzero { c := k0, d := 4 }
def afr (dir : Bool) : Instr := .afrag { c := k0, d := 3, a := src 9, cb := 6, dir := dir }
def wholes : List (Instr × List Part) :=
  [(tz, [4]), (.tmov { c := k0, d := 5, a := 4, tr := true }, [5, 4]), (.aclr { c := k0, d := 2, all := false }, [accPart 2]),
   (.aclr { c := k0, d := 2, all := true }, (List.range 8).map accPart), (.acvt { c := k0, d := 15, a := 7, rm := .rtz, bf := true }, [accPart 7, 15]),
   (afr true, [accPart 3, outPart]), (afr false, [accPart 3, outPart])]
/-- In s the instruction issues, no acquire holds it back, and the outstanding work names the parts, or does not. -/
def Meets (i : Instr) (s : State) (parts : List Part) (waits : Bool) : Prop :=
  IssuesIn i s ∧ acquiring (uOf i s) (tOf s) = none ∧ (conflicts (uOf i s) (xOf s).id parts = [] ↔ waits = false)
def meetsB (i : Instr) (s : State) (parts : List Part) (waits : Bool) : Bool :=
  issuesB i s && (acquiring (uOf i s) (tOf s)).isNone && ((conflicts (uOf i s) (xOf s).id parts).isEmpty == !waits)
theorem meets_of {i : Instr} {s : State} {parts : List Part} {waits : Bool} (h : meetsB i s parts waits = true) : Meets i s parts waits := by
  simp only [meetsB, Bool.and_eq_true, Option.isNone_iff_eq_none, beq_iff_eq] at h
  refine ⟨(issues_of h.1.1).2, h.1.2, ?_⟩
  cases hc : conflicts (uOf i s) (xOf s).id parts <;> cases waits <;> simp_all
def busyArr : State := { one [] with pend := [pend0 (.mload false 4 1 1 true .normal false) [], pend0 (.mload true 2 1 1 true .normal false) [], pend0 (.mload true 7 1 1 true .normal false) [],
                                        pend0 (.mload true 3 1 1 true .normal false) []] }
theorem witness_whole : ∀ p ∈ wholes, Meets p.1 (one []) p.2 false ∧ Meets p.1 busyArr p.2 true := fun p h => by
  have := List.all_eq_true.mp (by decide : (wholes.all fun p => meetsB p.1 (one []) p.2 false && meetsB p.1 busyArr p.2 true) = true) p h
  rw [Bool.and_eq_true] at this
  exact ⟨meets_of this.1, meets_of this.2⟩
theorem witness_whole_tiles : ∀ p ∈ wholes, HasTiles (yOf p.1 (one [])) (List.range 16) ∧ accGran (xOf (one [])) ≠ 0 := fun p h => by
  have hl := List.all_eq_true.mp (by decide : (wholes.all fun p => (List.range 16).all fun n =>
    (yOf p.1 (one [])).lines.any (fun r => r.key == .tile n && r.st != .runahead)) = true) p h
  refine ⟨fun n hn => ?_, by decide⟩
  obtain ⟨r, hr, hk⟩ := List.any_eq_true.mp (List.all_eq_true.mp hl n hn)
  exact ⟨r, hr, by simpa using hk⟩
/-- No accumulators in the partition; an acquire of the strand in flight. -/
theorem witness_whole_none : Meets (afr true) (arr [] noAcc) [accPart 3, outPart] false ∧ accGran (xOf (arr [] noAcc)) = 0 :=
  ⟨meets_of (by decide), by decide⟩
theorem witness_whole_acquires : ∀ p ∈ wholes, IssuesIn p.1 acquiring0 ∧ (acquiring (uOf p.1 acquiring0) (tOf acquiring0)).isSome = true := fun p h => by
  have := List.all_eq_true.mp (by decide : (wholes.all fun p => issuesB p.1 acquiring0 && (acquiring (uOf p.1 acquiring0) (tOf acquiring0)).isSome) = true) p h
  rw [Bool.and_eq_true] at this
  exact ⟨(issues_of this.1).2, this.2⟩
/-- AFRAG past the last output row. -/
def farRow : State := one [(9, 0x1F0)]
theorem witness_afrag_row : Meets (afr true) farRow [accPart 3, outPart] false ∧
    outRows (xOf farRow) < ((eOf (afr true) farRow).r32 (eOf (afr true) farRow).lead 9).toNat + 16 := ⟨meets_of (by decide), by decide⟩

def mvT (sp : Bool) : OpTileXfer := { c := k0, r := 5, a := src 2, b := src 6, sp := sp, tr := false, ep := .normal, noal := false, off := 0, cols := 1, rows := 0 }
def mvA (sp : Bool) : OpAccXfer := { c := k0, r := 5, a := src 2, b := src 6, sp := sp, tr := false, ep := .normal, noal := false, off := 0, cols := 1, rows := 0 }
def tileOps (sp : Bool) : List (Instr × MoveOp × Bool) :=
  [(.tld (mvT sp), MoveOp.ofTile (mvT sp), false), (.ald (mvA sp), MoveOp.ofAcc (mvA sp), false), (.tst (mvT sp), MoveOp.ofTile (mvT sp), true),
   (.ast (mvA sp), MoveOp.ofAcc (mvA sp), true)]
def tileParts (p : Instr × MoveOp × Bool) (s : State) : List Lane :=
  moveParts p.2.1 (eOf p.1 s) (fun k => if p.2.2 then toBytes (elemSize p.2.1.acc) (elemAt (yOf p.1 s) p.2.1.acc p.2.1.r k) else [])
def tilePart (o : MoveOp) : Part := if o.acc then accPart o.r else o.r
theorem witness_tile_moves : ∀ p ∈ tileOps false, Meets p.1 mem [tilePart p.2.1] false ∧ accGran (xOf mem) ≠ 0 ∧ (tileParts p mem).length = 2 ∧
    ∃ s1 ls held walked, Checked { Need.plain (!p.2.2) p.2.2 with buf := p.2.2 && (tOf mem).region.isSome } (tOf mem) (xOf mem) (uOf p.1 mem) (tileParts p mem) s1 ls held walked :=
  fun p h => by
    have := List.all_eq_true.mp (by decide : ((tileOps false).all fun p => meetsB p.1 mem [tilePart p.2.1] false && decide ((tileParts p mem).length = 2) &&
      checkedB { Need.plain (!p.2.2) p.2.2 with buf := p.2.2 && (tOf mem).region.isSome } (tOf mem) (xOf mem) (uOf p.1 mem) (tileParts p mem)) = true) p h
    simp only [Bool.and_eq_true, decide_eq_true_eq] at this
    exact ⟨meets_of this.1.1, by decide, this.1.2, checked_of this.2⟩
theorem witness_tile_scratchpad : ∀ p ∈ tileOps true, Meets p.1 (one []) [tilePart p.2.1] false ∧
    (match checkScr (uOf p.1 (one [])) (xOf (one [])) (tOf (one [])).pc p.2.2 ((tileParts p (one [])).map (fun l => (l, bits l.va 0 32))) with
      | .ok ls => decide (ls.length = 2) | .error _ => false) = true := fun p h => by
  have := List.all_eq_true.mp (by decide : ((tileOps true).all fun p => meetsB p.1 (one []) [tilePart p.2.1] false &&
    (match checkScr (uOf p.1 (one [])) (xOf (one [])) (tOf (one [])).pc p.2.2 ((tileParts p (one [])).map (fun l => (l, bits l.va 0 32))) with
      | .ok ls => decide (ls.length = 2) | .error _ => false)) = true) p h
  rw [Bool.and_eq_true] at this
  exact ⟨meets_of this.1, this.2⟩
def oddTile : State := one [(2, 0x100001)]
theorem witness_tile_misaligned : ∀ p ∈ tileOps false, Meets p.1 oddTile [tilePart p.2.1] false ∧
    ((tileParts p oddTile).find? (fun l => l.va.toNat % elemSize p.2.1.acc != 0)).isSome = true := fun p h => by
  have := List.all_eq_true.mp (by decide : ((tileOps false).all fun p => meetsB p.1 oddTile [tilePart p.2.1] false &&
    ((tileParts p oddTile).find? (fun l => l.va.toNat % elemSize p.2.1.acc != 0)).isSome) = true) p h
  rw [Bool.and_eq_true] at this
  exact ⟨meets_of this.1, this.2⟩
theorem witness_tile_region : ∀ p ∈ (tileOps false).drop 2, ∀ used ∈ [0, 16384], Meets p.1 (region1 used) [tilePart p.2.1] false ∧
    (tOf (region1 used)).region = some { region0 with used := used } ∧
    ∃ s1 ls held walked, Checked { Need.plain false true with buf := true } (tOf (region1 used)) (xOf (region1 used)) (uOf p.1 (region1 used)) (tileParts p (region1 used)) s1 ls held walked :=
  fun p h used hu => by
    have := List.all_eq_true.mp (List.all_eq_true.mp (by decide : (((tileOps false).drop 2).all fun p => [0, 16384].all fun used =>
      meetsB p.1 (region1 used) [tilePart p.2.1] false && checkedB { Need.plain false true with buf := true } (tOf (region1 used)) (xOf (region1 used))
        (uOf p.1 (region1 used)) (tileParts p (region1 used))) = true) p h) used hu
    rw [Bool.and_eq_true] at this
    exact ⟨meets_of this.1, rfl, checked_of this.2⟩
def tileFlying (sp acc : Bool) : State := flying (.mload acc 5 1 1 sp .normal false) [{ lane0 (if sp then 2 * 2 ^ 32 else 0x100000) [0, 0] with elem := 3 }]
theorem witness_tile_returns : ∀ sp ∈ [true, false], ∀ acc ∈ [true, false],
    ((pend? (tileFlying sp acc) 9).map (fun p => (performing (tileFlying sp acc) p [0]).map (fun l => (l.1, l.2.elem)))) = some [(0, 3)] := by decide
theorem witness_tile_line : ((pend? (tileFlying false false) 9).map (fun p => (loadLine (tileFlying false false) p (xOf mem) 0x2000 false false true .normal).2)) =
    some (some (List.replicate 128 0)) := by decide
theorem witness_tile_completes : ∀ sp ∈ [true, false],
    ((pend? (flying (.mstore false 5 sp .normal false) [lane0 0x100000 [1, 2]]) 9).map (fun p => (performing (flying (.mstore false 5 sp .normal false) [lane0 0x100000 [1, 2]]) p [0]).length)) =
      some 1 ∧ normSpa (flying (.mstore false 5 sp .normal false) []) 0x100000 = 0x100000 := by decide

/-- The share and the latch. -/
def share (wg : Nat) (l : Option Latch) (x : Skein) : Skein := { x with wg := wg, latch := l }
def latch0 : Latch := { m := 2, kb := 1, recs := [{ off := 0, len := 6, n0 := 0, nc := 1, cmp := false, cols := [0] }] }
def scl (cls : BitVec 2) (wg : BitVec 5) : Instr := .sclass { c := k0, d := 6, cls := cls, wg := wg }
theorem witness_sclass : Meets (scl 1 16) (one []) [latchPart] false ∧ Meets (scl 0 16) (one []) [latchPart] false ∧ Meets (scl 0 0) (one []) [latchPart] false ∧
    Meets (scl 0 17) (one []) [latchPart] false ∧ (∀ a ∈ (uOf (scl 0 16) (one [])).array, a.skein ≠ (xOf (one [])).id) ∧
    (bits imageCtx.array 0 2).toNat < 1 ∧ ctxOf (one []) (xOf (one [])) = some imageCtx :=
  ⟨meets_of (by decide), meets_of (by decide), meets_of (by decide), meets_of (by decide), by decide, by decide, by decide⟩
def wla (cmp new : Bool) (kb : BitVec 8) (n0 nc : BitVec 7) : Instr :=
  .wlatch { c := k0, d := 6, a := src 2, bw := 0, cmp := cmp, new := new, kb := kb, n0 := n0, nc := nc }
/-- WLATCH answers OK, MISMATCH (another depth), BAD-STREAM (two bytes are no stream), RANGE (an odd offset; a column past 127). -/
theorem witness_wlatch : Meets (wla false true 0 0 0) (arr [] (share 1 none)) [latchPart] false ∧ Meets (wla false false 0 1 0) (arr [] (share 1 (some latch0))) [latchPart] false ∧
    Meets (wla false false 1 0 0) (arr [] (share 1 (some latch0))) [latchPart] false ∧ latch0.kb ≠ 2 ∧
    Meets (wla true true 0 0 0) (arr [(2, 0x7FFE)] (share 1 none)) [latchPart] false ∧
    plyExpand (shareFrom (yOf (wla true true 0 0 0) (arr [(2, 0x7FFE)] (share 1 none))) 0x7FFE) = none ∧
    Meets (wla false true 0 0 0) (arr [(2, 1)] (share 1 none)) [latchPart] false ∧ Meets (wla false true 0 127 1) (arr [] (share 1 none)) [latchPart] false :=
  ⟨meets_of (by decide), meets_of (by decide), meets_of (by decide), by decide, meets_of (by decide), by decide, meets_of (by decide), meets_of (by decide)⟩

def tm0 : Instr := .tmma { c := k0, d := 1, a := 2, b := 4, bf := false, zc := false, depth := 1, cols := 1, rows := 1 }
def ss0 : OpSstep := { c := k0, a := src 2, b := src 4, rows := 1, kb := 0, klast := 15, nc := 0, zero := true, abw := 0, orow := 0 }
def sl0 : OpSlut := { c := k0, a := src 2, b := src 4, rows := 1, kb := 0, nc := 0, zero := true, orow := 0 }
def latched (b : BitVec 32) : State := arr [(4, b)] (share 1 (some latch0))
/-- TMMA without and with a load of one of its registers outstanding, and without accumulators. -/
theorem witness_tmma : IssuesIn tm0 (one []) ∧ acquiring (uOf tm0 (one [])) (tOf (one [])) = none ∧ pendConflicts (uOf tm0 (one [])) 2 [accPart 1, 2, 4] = [] ∧
    IssuesIn tm0 busyArr ∧ acquiring (uOf tm0 busyArr) (tOf busyArr) = none ∧ pendConflicts (uOf tm0 busyArr) 2 [accPart 1, 2, 4] ≠ [] ∧
    IssuesIn tm0 (arr [] noAcc) ∧ acquiring (uOf tm0 (arr [] noAcc)) (tOf (arr [] noAcc)) = none ∧ pendConflicts (uOf tm0 (arr [] noAcc)) 2 [accPart 1, 2, 4] = [] :=
  ⟨(issues_of (by decide)).2, by decide, by decide, (issues_of (by decide)).2, by decide, by decide, (issues_of (by decide)).2, by decide, by decide⟩
/-- SSTEP and SLUT with every check passed, and with each check failed. -/
theorem witness_rows : (∀ i ∈ [Instr.sstep ss0, .slut sl0], IssuesIn i (latched 136) ∧ acquiring (uOf i (latched 136)) (tOf (latched 136)) = none ∧
      ∀ p ∈ (uOf i (latched 136)).pend, p.skein = (xOf (latched 136)).id → ∀ off ep noal, p.acc ≠ .wld off ep noal) ∧
    rowCheck (uOf (.sstep ss0) (latched 136)) (yOf (.sstep ss0) (latched 136)) (RowOp.ofSstep ss0 0 136) = .ok [2 * 2 ^ 32, 2 * 2 ^ 32 + 136] ∧
    rowCheck (uOf (.slut sl0) (latched 136)) (yOf (.slut sl0) (latched 136)) (RowOp.ofSlut sl0 0 136) = .ok [2 * 2 ^ 32, 2 * 2 ^ 32 + 136] := by
  refine ⟨fun i h => ?_, by rfl, by rfl⟩
  have := List.all_eq_true.mp (by decide : ([Instr.sstep ss0, .slut sl0].all fun i => issuesB i (latched 136) && (acquiring (uOf i (latched 136)) (tOf (latched 136))).isNone &&
    (uOf i (latched 136)).pend.isEmpty) = true) i h
  simp only [Bool.and_eq_true, Option.isNone_iff_eq_none, List.isEmpty_iff] at this
  exact ⟨(issues_of this.1.1).2, this.1.2, by rw [this.2]; simp⟩
theorem witness_row_checks : ∀ p ∈ [(xOf (arr [] noAcc), RowOp.ofSstep ss0 0 8, 0x16, 0, 0), (xOf (latched 0), RowOp.ofSstep { ss0 with orow := 495 } 0 8, 0x1A, 1, 0),
      (xOf (one []), RowOp.ofSstep ss0 0 8, 0x1A, 2, 0), (xOf (latched 0), RowOp.ofSstep { ss0 with kb := 1 } 0 8, 0x1A, 3, 0),
      (xOf (latched 0), RowOp.ofSlut { sl0 with nc := 1 } 0 8, 0x1A, 4, 0), (xOf (arr [] (share 1 (some { latch0 with m := 3 }))), RowOp.ofSlut sl0 0 8, 0x1A, 5, 0),
      (xOf (latched 0), RowOp.ofSstep ss0 1 8, 0x10, 0, 1), (xOf (latched 0), RowOp.ofSlut sl0 0 4, 0x10, 0, 4), (xOf (latched 0), RowOp.ofSstep ss0 0x7FFFE 8, 0x13, 0, 0x7FFFE)],
    (match rowCheck (one []) p.1 p.2.1 with | .ok _ => none | .error e => some e) = some p.2.2 := by decide
def wl0 (boff : BitVec 15) : Instr := .wld { c := k0, a := src 2, ep := .normal, noal := false, boff := boff, len := 0 }
def wldAt (a : BitVec 32) : State := { mem with skeins := [share 1 none { imageSkein with fibres := [fib 0 0xFFFF [(2, a)]] }] }
/-- WLD in range, past the end of the share, and misaligned. -/
theorem witness_wld : IssuesIn (wl0 0) (wldAt 0x100000) ∧ acquiring (uOf (wl0 0) (wldAt 0x100000)) (tOf (wldAt 0x100000)) = none ∧
    (∃ s1 ls held walked, Checked { Need.plain true false with path := 2 } (tOf (wldAt 0x100000)) (xOf (wldAt 0x100000)) (uOf (wl0 0) (wldAt 0x100000))
      ((piecesOf 0x100000 16).map (fun p => { Lane.mk0 0 p.1 0 with elem := p.2 })) s1 ls held walked) ∧
    IssuesIn (wl0 2048) (wldAt 0x100000) ∧ acquiring (uOf (wl0 2048) (wldAt 0x100000)) (tOf (wldAt 0x100000)) = none ∧ shareLen (xOf (wldAt 0x100000)) < 16 * 2048 + 16 ∧
    IssuesIn (wl0 0) (wldAt 0x100008) ∧ acquiring (uOf (wl0 0) (wldAt 0x100008)) (tOf (wldAt 0x100008)) = none :=
  ⟨(issues_of (by decide)).2, by decide, checked_of (by decide), (issues_of (by decide)).2, by decide, by decide, (issues_of (by decide)).2, by decide⟩
def sb0 : Instr := .sbuild { c := k0, a := src 2, b := src 4, x := src 6, bw := 0, klast := 15 }
def sbAt (a b kb : BitVec 32) : State := arr [(2, a), (4, b), (6, kb)] id
/-- SBUILD in range; a depth of 0; each address misaligned; each out of range. -/
theorem witness_sbuild : ∀ p ∈ [(0, 0x100, 1), (0, 0x100, 0), (1, 0x100, 1), (0, 0x101, 1), (0x7FFFE, 0x100, 1), (0, 0x7FFFE, 1)],
    IssuesIn sb0 (sbAt p.1 p.2.1 p.2.2) ∧ acquiring (uOf sb0 (sbAt p.1 p.2.1 p.2.2)) (tOf (sbAt p.1 p.2.1 p.2.2)) = none := fun p h => by
  have := List.all_eq_true.mp (by decide : ([(0, 0x100, 1), (0, 0x100, 0), (1, 0x100, 1), (0, 0x101, 1), (0x7FFFE, 0x100, 1), (0, 0x7FFFE, 1)].all
    fun (p : BitVec 32 × BitVec 32 × BitVec 32) => issuesB sb0 (sbAt p.1 p.2.1 p.2.2) && (acquiring (uOf sb0 (sbAt p.1 p.2.1 p.2.2)) (tOf (sbAt p.1 p.2.1 p.2.2))).isNone) = true) p h
  simp only [Bool.and_eq_true, Option.isNone_iff_eq_none] at this
  exact ⟨(issues_of this.1).2, this.2⟩
theorem witness_sbuild_places : (scrTarget (one []) (xOf (one [])) 0 6).isSome = true ∧ (scrTarget (one []) (xOf (one [])) 0x7FFFE 6).isSome = false ∧
    (scrTarget (one []) (xOf (one [])) 0x100 136).isSome = true ∧ (scrTarget (one []) (xOf (one [])) 0x7FFFE 136).isSome = false := by decide
def sd0 (orow : BitVec 12) : Instr := .sdrain { c := k0, a := src 2, b := src 4, ofmt := .f32, clr := true, rm := .rne, orow := orow, rows := 1, nc := 0 }
def sdAt (a b : BitVec 32) (f : Skein → Skein) : State := arr [(2, a), (4, b)] f
/-- SDRAIN in range; without accumulators; past the last output row; misaligned. -/
theorem witness_sdrain : (∀ p ∈ [(0, 8), (2, 8), (0, 2)], IssuesIn (sd0 0) (sdAt p.1 p.2 id) ∧ acquiring (uOf (sd0 0) (sdAt p.1 p.2 id)) (tOf (sdAt p.1 p.2 id)) = none) ∧
    IssuesIn (sd0 0) (sdAt 0 8 noAcc) ∧ acquiring (uOf (sd0 0) (sdAt 0 8 noAcc)) (tOf (sdAt 0 8 noAcc)) = none ∧
    IssuesIn (sd0 495) (sdAt 0 8 id) ∧ acquiring (uOf (sd0 495) (sdAt 0 8 id)) (tOf (sdAt 0 8 id)) = none ∧ outRows (xOf (sdAt 0 8 id)) < 495 + 2 := by
  refine ⟨fun p h => ?_, (issues_of (by decide)).2, by decide, (issues_of (by decide)).2, by decide, by decide⟩
  have := List.all_eq_true.mp (by decide : ([(0, 8), (2, 8), (0, 2)].all fun (p : BitVec 32 × BitVec 32) => issuesB (sd0 0) (sdAt p.1 p.2 id) &&
    (acquiring (uOf (sd0 0) (sdAt p.1 p.2 id)) (tOf (sdAt p.1 p.2 id))).isNone) = true) p h
  simp only [Bool.and_eq_true, Option.isNone_iff_eq_none] at this
  exact ⟨(issues_of this.1).2, this.2⟩
theorem witness_sdrain_rows : ∀ r < 2, (scrTarget (one []) (xOf (one [])) (0 + BitVec.ofNat 32 r * 8) (1 * 4)).map (fun q => scrPlace q.1.id q.2) = some (2 * 2 ^ 32 + 8 * r) := by decide

/-- WLD, SBUILD and SDRAIN in flight, nothing of the skein before them. -/
def arFlying (acc : Acc) (lanes : List Lane) : State := { flying acc lanes with skeins := [share 1 (some latch0) imageSkein] }
theorem witness_wld_completes : arFirst (arFlying (.wld 16 .normal false) [lane0 0x100000 []]) 2 9 true = true ∧
    poisoned (arFlying (.wld 16 .normal false) [lane0 0x100000 []]) 0x100000 16 = false := by decide
theorem witness_sbuild_completes : arFirst (arFlying (.sbuild (2 * 2 ^ 32) (2 * 2 ^ 32 + 256) 1 2 16) []) 2 9 false = true ∧
    (skein? (arFlying (.sbuild (2 * 2 ^ 32) (2 * 2 ^ 32 + 256) 1 2 16) []) ((2 * 2 ^ 32 + 256) / 2 ^ 32)).isSome = true ∧
    (2 * 2 ^ 32 + 256) % 2 ^ 32 + 136 * 1 ≤ 2 ^ 32 ∧ 2 * 2 ^ 32 + 1 * (2 * 2 + 2) ≤ 2 * 2 ^ 32 + 256 := by decide
theorem witness_sdrain_completes : arFirst (arFlying (.sdrain [2 * 2 ^ 32] .f32 true 0 0 1) []) 2 9 false = true ∧
    (skein? (arFlying (.sdrain [2 * 2 ^ 32] .f32 true 0 0 1) []) (2 * 2 ^ 32 / 2 ^ 32)).isSome = true ∧ 2 * 2 ^ 32 % 2 ^ 32 + 1 * 4 ≤ 2 ^ 32 := by decide
/-- Work of the array: TMMA; SSTEP at its first block and row, of one row and block and of two. -/
def work (op : ArrayOp) : ArrayWork :=
  { id := 5, strands := [3], skein := 2, spindle := 0, op := op, r := 0, b := 0, sums := [], pkt := none, started := false, begun := false, flags := 0, startGtb := 0, pc := 0x10008, word := [], ops := [] }
def working (op : ArrayOp) : State := { arr [] (share 1 (some latch0)) with array := [work op] }
theorem witness_array_steps : ∀ op ∈ [ArrayOp.tmma 1 2 4 false false 2 2 2, .sstep [2 * 2 ^ 32] 1 16 1 true 2 0, .sstep [2 * 2 ^ 32, 2 * 2 ^ 32] 2 16 1 false 2 0, .slut [2 * 2 ^ 32] 1 1 true 0],
    nextWork (working op) 0 = some (work op) ∧ (skein? (working op) 2).isSome = true ∧ (∀ a ∈ (working op).array, a.id < 2 ^ 64) := by decide

/-! Waits, queues, regions, traps and system registers. -/

/-- The strand issues anew what waits as given, in mapped memory with the bytes given at 0x100000. -/
def waiting (w : Wait) : State := { mem with strands := [{ imageStrand 3 .ready none with wait := some w, again := true }] }
def holding (bs : List Byte) : State := { mem with mem := { mem.mem with bytes := msetAll mem.mem.bytes 0x100000 bs } }
def atDesc (e : Env) : List Lane := [Lane.mk0 e.lead (e.r64 e.lead 2) 64]
theorem witness_fence : IssuesIn (.fence { c := k0, sc := .device }) mem ∧ (∀ p ∈ (uOf (.fence { c := k0, sc := .device }) mem).pend, p.acc.writes = false) ∧
    (tOf mem).h.toNat < (uOf (.fence { c := k0, sc := .device }) mem).gtb.toNat ∧ IssuesIn (.fence { c := k0, sc := .hank }) (storing mem) ∧
    ∃ p ∈ (uOf (.fence { c := k0, sc := .hank }) (storing mem)).pend, (tOf (storing mem)).id ∈ p.strands ∧ p.acc.writes = true :=
  ⟨(issues_of (by decide)).2, by decide, by decide, (issues_of (by decide)).2, by decide⟩
def fx (src : BitVec 5) : Instr := .fencex { c := k0, dst := 2, src := src }
/-- FENCEX with nothing outstanding, with a store outstanding, and one that has waited for it. -/
theorem witness_fencex : IssuesIn (fx 1) mem ∧ IssuesIn (fx 1) (storing mem) ∧ (uOf (fx 1) (storing mem)).pend = [pend0 (.store .normal false) []] ∧
    IssuesIn (fx 1) (waiting (.fencex [9] true)) ∧ (tOf (waiting (.fencex [9] true))).wait = some (.fencex [9] true) ∧ (uOf (fx 1) (waiting (.fencex [9] true))).pend = [] :=
  ⟨(issues_of (by decide)).2, (issues_of (by decide)).2, by decide, (issues_of (by decide)).2, by decide, by decide⟩
/-- A request whose bitmap word 0 is 1 at 0x100040, its STATUS 0 or done with CODE 3; the mask is v8. -/
def cw : OpCwait := { c := k0, d := 6, a := src 2, b := src 8, w := 0 }
def request (stat : Nat) : State :=
  { mem with skeins := [{ imageSkein with fibres := [fib 0 0xFFFF [(2, 0x100000), (8, 3)]] }]
             mem := { mem.mem with bytes := msetAll mem.mem.bytes 0x100000 (zeros 8 ++ toBytes 4 stat ++ zeros 52 ++ [1]) } }
def cwLanes (e : Env) : List Lane := [Lane.mk0 e.lead (e.r64 e.lead 2 + 64) 8, Lane.mk0 e.lead (e.r64 e.lead 2 + 8) 4]
theorem witness_cwait : ∀ i ∈ [Instr.cwait cw, .ctest cw], ∀ stat ∈ [0, 0x80000003], IssuesIn i (request stat) ∧ (tOf (request stat)).wait = none ∧
    acquiring (uOf i (request stat)) (tOf (request stat)) = none ∧
    ∃ s1 ls held walked, Checked (Need.plain true false) (tOf (request stat)) (xOf (request stat)) (uOf i (request stat)) (cwLanes (eOf i (request stat))) s1 ls held walked :=
  fun i hi stat hs => by
    have := List.all_eq_true.mp (List.all_eq_true.mp (by decide : ([Instr.cwait cw, .ctest cw].all fun i => [0, 0x80000003].all fun stat =>
      issuesB i (request stat) && (acquiring (uOf i (request stat)) (tOf (request stat))).isNone &&
      checkedB (Need.plain true false) (tOf (request stat)) (xOf (request stat)) (uOf i (request stat)) (cwLanes (eOf i (request stat)))) = true) i hi) stat hs
    simp only [Bool.and_eq_true, Option.isNone_iff_eq_none] at this
    exact ⟨(issues_of this.1.1).2, rfl, this.1.2, checked_of this.2⟩
theorem witness_cwait_words : readNat (request 0x80000003) 0x100040 8 = 1 ∧ readNat (request 0x80000003) 0x100008 4 = 0x80000003 ∧
    poisoned (request 0) 0x100040 8 = false ∧ poisoned (request 0) 0x100008 4 = false := by decide
theorem witness_cwait_done : IssuesIn (.cwait cw) (waiting (.cwait 0x100040 0x100008 3 (some 3))) ∧
    (tOf (waiting (.cwait 0x100040 0x100008 3 (some 3)))).wait = some (.cwait 0x100040 0x100008 3 (some 3)) := ⟨(issues_of (by decide)).2, by decide⟩
theorem witness_cwait_satisfied (stat : Nat) : strand? { request stat with strands := (waiting (.cwait 0x100040 0x100008 1 none)).strands } 3 =
    some { imageStrand 3 .ready none with wait := some (.cwait 0x100040 0x100008 1 none), again := true } := rfl
/-- SLEEP and SLEEPUNTIL, with and without a monitored line and a checked STATUS, before and after they wake; a B that is not aligned. -/
def sp0 (flag : Bool) : OpSleep := { c := k0, a := src 8, b := src 2, flag := flag }
def sleeper (n : BitVec 32) (b : BitVec 32) : State := { mem with skeins := [{ imageSkein with fibres := [fib 0 0xFFFF [(2, b), (8, n)]] }] }
theorem witness_sleeps : ∀ i ∈ [Instr.sleep (sp0 false), .sleep (sp0 true), .sleepuntil (sp0 false), .sleepuntil (sp0 true)], ∀ n ∈ [0, 100],
    IssuesIn i (sleeper n 0x100000) ∧ (tOf (sleeper n 0x100000)).wait = none ∧ acquiring (uOf i (sleeper n 0x100000)) (tOf (sleeper n 0x100000)) = none := fun i hi n hn => by
  have := List.all_eq_true.mp (List.all_eq_true.mp (by decide : ([Instr.sleep (sp0 false), .sleep (sp0 true), .sleepuntil (sp0 false), .sleepuntil (sp0 true)].all fun i =>
    [0, 100].all fun n => issuesB i (sleeper n 0x100000) && (acquiring (uOf i (sleeper n 0x100000)) (tOf (sleeper n 0x100000))).isNone) = true) i hi) n hn
  simp only [Bool.and_eq_true, Option.isNone_iff_eq_none] at this
  exact ⟨(issues_of this.1).2, rfl, this.2⟩
theorem witness_sleep_lines : ∀ n ∈ [0, 100], (∃ s1 ls held walked, Checked (Need.plain true false) (tOf (sleeper n 0x100000)) (xOf (sleeper n 0x100000))
      (uOf (.sleep (sp0 true)) (sleeper n 0x100000)) [Lane.mk0 0 0x100000 0] s1 ls held walked) ∧
    ∃ s1 ls held walked, Checked (Need.plain true false) (tOf (sleeper n 0x100000)) (xOf (sleeper n 0x100000))
      (uOf (.sleepuntil (sp0 true)) (sleeper n 0x100000)) [Lane.mk0 0 0x100008 4] s1 ls held walked := fun n hn => by
  have := List.all_eq_true.mp (by decide : ([0, 100].all fun n =>
    checkedB (Need.plain true false) (tOf (sleeper n 0x100000)) (xOf (sleeper n 0x100000)) (uOf (.sleep (sp0 true)) (sleeper n 0x100000)) [Lane.mk0 0 0x100000 0] &&
    checkedB (Need.plain true false) (tOf (sleeper n 0x100000)) (xOf (sleeper n 0x100000)) (uOf (.sleepuntil (sp0 true)) (sleeper n 0x100000)) [Lane.mk0 0 0x100008 4]) = true) n hn
  rw [Bool.and_eq_true] at this
  exact ⟨checked_of this.1, checked_of this.2⟩
theorem witness_sleepuntil_misaligned : IssuesIn (.sleepuntil (sp0 true)) (sleeper 0 0x100008) := (issues_of (by decide)).2
theorem witness_sleepuntil_status (done : Bool) :
    (homeRead (holding (zeros 8 ++ toBytes 4 (if done then 0x80000000 else 0))) (xOf mem) 0x100008 4).2 = some (if done then 0x80000000 else 0) := by
  cases done <;> decide
theorem witness_woken : IssuesIn (.sleep (sp0 false)) (waiting (.sleep none none true true)) ∧ IssuesIn (.sleepuntil (sp0 false)) (waiting (.sleepUntil 1 none (some (1, false)))) ∧
    IssuesIn (.sleepuntil (sp0 false)) (waiting (.sleepUntil 1 none (some (1, true)))) ∧ markedRegs (shOf (.sleepuntil (sp0 false))) = [] :=
  ⟨(issues_of (by decide)).2, (issues_of (by decide)).2, (issues_of (by decide)).2, by decide⟩
def asleep (w : Wait) : State := { mem with strands := [{ imageStrand 3 .sleeping none with wait := some w, again := true }] }
theorem witness_wakes (w : Wait) : strand? (asleep w) 3 = some { imageStrand 3 .sleeping none with wait := some w, again := true } ∧
    skein? (asleep w) 2 = some (xOf mem) := ⟨rfl, rfl⟩

/-- A queue descriptor at 0x100000 (BASE, LOG2N, KIND), a ring at 0x101000, free and full; a malformed one; QPUT, LAUNCH, FEEDPUT. -/
def queue (kind log w r : Nat) : State := holding (toBytes 8 0x101000 ++ [BitVec.ofNat 8 log, BitVec.ofNat 8 kind] ++ zeros 6 ++ toBytes 8 w ++ toBytes 8 r ++ zeros 32)
def puts : List (Instr × Nat) := [(.qput { c := k0, d := 6, a := src 2, b := src 192 }, 0), (.feedput { c := k0, d := 6, a := src 2, b := src 192 }, 0),
  (.launch { c := k0, d := 6, a := src 0, b := src 2, x := src 0, pw := 0x50505, pwv := true }, 1)]
theorem witness_puts : ∀ p ∈ puts, ∀ w ∈ [0, 16], IssuesIn p.1 (queue p.2 4 w 0) ∧ (tOf (queue p.2 4 w 0)).wait = none ∧
    acquiring (uOf p.1 (queue p.2 4 w 0)) (tOf (queue p.2 4 w 0)) = none ∧ fenceMet (uOf p.1 (queue p.2 4 w 0)) (tOf (queue p.2 4 w 0)) .device = true ∧
    ∃ s1 ls held walked, Checked (Need.plain true true) (tOf (queue p.2 4 w 0)) (xOf (queue p.2 4 w 0)) (uOf p.1 (queue p.2 4 w 0)) (atDesc (eOf p.1 (queue p.2 4 w 0)))
      s1 ls held walked := fun p hp w hw => by
  have := List.all_eq_true.mp (List.all_eq_true.mp (by decide : (puts.all fun p => [0, 16].all fun w => issuesB p.1 (queue p.2 4 w 0) &&
    (acquiring (uOf p.1 (queue p.2 4 w 0)) (tOf (queue p.2 4 w 0))).isNone && fenceMet (uOf p.1 (queue p.2 4 w 0)) (tOf (queue p.2 4 w 0)) .device &&
    checkedB (Need.plain true true) (tOf (queue p.2 4 w 0)) (xOf (queue p.2 4 w 0)) (uOf p.1 (queue p.2 4 w 0)) (atDesc (eOf p.1 (queue p.2 4 w 0)))) = true) p hp) w hw
  simp only [Bool.and_eq_true, Option.isNone_iff_eq_none] at this
  exact ⟨(issues_of this.1.1.1).2, rfl, this.1.1.2, this.1.2, checked_of this.2⟩
def ringOk (i : Instr) (n : Need) (s : State) : Bool :=
  match checkRing n (eOf i s) s (qBase s 0x100000) (qLog s 0x100000) with
  | .ok u pages => decide (pages = [0x101000]) && (match strand? u 3 with | some r => decide (r.pc = (tOf s).pc) && decide (r.clause = (tOf s).clause) | none => false)
  | _ => false
theorem witness_put_rings : ∀ p ∈ puts, ∀ w ∈ [0, 16], ringOk p.1 (Need.plain false true) (queue p.2 4 w 0) = true := by decide
theorem witness_put_kinds : qOk (queue 0 4 0 0) 0x100000 0 = true ∧ qOk (queue 1 4 0 0) 0x100000 1 = true ∧ qOk (queue 1 4 0 0) 0x100000 0 = false ∧
    feedOk (queue 0 4 0 0) 0x100000 = true ∧ feedOk (queue 0 3 0 0) 0x100000 = false ∧ qFree (queue 0 4 16 0) 0x100000 = false ∧ qFree (queue 0 4 0 0) 0x100000 = true ∧
    feedRoom (queue 0 4 16 0) 0x100000 = false ∧ feedRoom (queue 0 4 0 0) 0x100000 = true := by decide
theorem witness_put_waits : ∀ p ∈ puts, IssuesIn p.1 (storing mem) ∧ acquiring (uOf p.1 (storing mem)) (tOf (storing mem)) = none ∧
    fenceMet (uOf p.1 (storing mem)) (tOf (storing mem)) .device = false := fun p h => by
  have := List.all_eq_true.mp (by decide : (puts.all fun p => issuesB p.1 (storing mem) && (acquiring (uOf p.1 (storing mem)) (tOf (storing mem))).isNone &&
    !fenceMet (uOf p.1 (storing mem)) (tOf (storing mem)) .device) = true) p h
  simp only [Bool.and_eq_true, Bool.not_eq_true', Option.isNone_iff_eq_none] at this
  exact ⟨(issues_of this.1.1).2, this.1.2, this.2⟩
theorem witness_launch_done : IssuesIn (.launch { c := k0, d := 6, a := src 0, b := src 2, x := src 0, pw := 0, pwv := false }) (waiting (.launch 0x100000 0 (some 1) [] [])) :=
  (issues_of (by decide)).2
/-- FEEDPOP of a feed with a record, of an empty one, and of a malformed one. -/
def fp0 : OpFeedpop := { c := k0, d := 16, a := src 2, hold := true }
theorem witness_feedpop : ∀ p ∈ [(4, 1), (4, 0), (3, 0)], IssuesIn (.feedpop fp0) (queue 0 p.1 p.2 0) ∧
    acquiring (uOf (.feedpop fp0) (queue 0 p.1 p.2 0)) (tOf (queue 0 p.1 p.2 0)) = none ∧ openPop (uOf (.feedpop fp0) (queue 0 p.1 p.2 0)) (tOf (queue 0 p.1 p.2 0)) = none ∧
    ∃ s1 ls held walked, Checked (Need.plain true true) (tOf (queue 0 p.1 p.2 0)) (xOf (queue 0 p.1 p.2 0)) (uOf (.feedpop fp0) (queue 0 p.1 p.2 0))
      (atDesc (eOf (.feedpop fp0) (queue 0 p.1 p.2 0))) s1 ls held walked := fun p hp => by
  have := List.all_eq_true.mp (by decide : ([(4, 1), (4, 0), (3, 0)].all fun (p : Nat × Nat) => issuesB (.feedpop fp0) (queue 0 p.1 p.2 0) &&
    (acquiring (uOf (.feedpop fp0) (queue 0 p.1 p.2 0)) (tOf (queue 0 p.1 p.2 0))).isNone && (openPop (uOf (.feedpop fp0) (queue 0 p.1 p.2 0)) (tOf (queue 0 p.1 p.2 0))).isNone &&
    checkedB (Need.plain true true) (tOf (queue 0 p.1 p.2 0)) (xOf (queue 0 p.1 p.2 0)) (uOf (.feedpop fp0) (queue 0 p.1 p.2 0)) (atDesc (eOf (.feedpop fp0) (queue 0 p.1 p.2 0)))) = true) p hp
  simp only [Bool.and_eq_true, Option.isNone_iff_eq_none] at this
  exact ⟨(issues_of this.1.1.1).2, this.1.1.2, this.1.2, checked_of this.2⟩
theorem witness_feedpop_ring : ringOk (.feedpop fp0) (Need.plain true true) (queue 0 4 1 0) = true := by decide
theorem witness_pop_index : (popIndex (queue 0 4 1 0) 0x100000).isSome = true ∧ popIndex (queue 0 4 0 0) 0x100000 = none ∧
    (popIndex { queue 0 4 1 0 with requeued := [(0x100000, 7, none)] } 0x100000).map (fun r => r.2) = some 7 := ⟨by decide, by decide, by decide⟩
theorem witness_feed_wakes : strand? (asleep (.feed 0x100000 5 [0] true)) 3 = some { imageStrand 3 .sleeping none with wait := some (.feed 0x100000 5 [0] true), again := true } := rfl
def feeding : State := flying (.feedpop 16 true 0x100000) [{ lane0 0x101000 (zeros 64) with elem := 0 }]
theorem witness_feed_lands : (pend? feeding 9).map (fun p => performing feeding p [0]) = some [(0, { lane0 0x101000 (zeros 64) with elem := 0 })] ∧
    CanLand feeding (xOf mem) 16 16 0 := ⟨by decide, can_land _ 16 16 (by decide)⟩

/-- IDEM with a buffer to spare, with every buffer in use, and without any; COMMIT with and without a region; JREAD with and without outstanding work. -/
def noBuffers : State := arr [] (fun x => { x with part := 0x04208 })
def fullBuffers : State := { one [] with strands := (imageStrand 3 .ready none) :: (upTo 10 8).map (fun k => { imageStrand k .ready none with fibres := [], region := some region0 }) }
def idem0 : Instr := .idem { c := k0, d := 6 }
def used0 (s : State) : Nat := ((uOf idem0 s).strands.filter (fun r => r.skein == (xOf s).id && r.region.isSome)).length
theorem witness_idem : IssuesIn idem0 (one []) ∧ used0 (one []) < 4 * (bits (yOf idem0 (one [])).part 18 6).toNat ∧
    IssuesIn idem0 noBuffers ∧ 4 * (bits (yOf idem0 noBuffers).part 18 6).toNat = 0 ∧
    IssuesIn idem0 fullBuffers ∧ 4 * (bits (yOf idem0 fullBuffers).part 18 6).toNat ≤ used0 fullBuffers :=
  ⟨(issues_of (by decide)).2, by decide, (issues_of (by decide)).2, by decide, (issues_of (by decide)).2, by decide⟩
def committing (l : List BufStore) : State := { mem with strands := [{ imageStrand 3 .ready none with region := some { region0 with stores := l } }] }
theorem witness_commit : IssuesIn (.commit { c := k0 }) mem ∧ (tOf mem).region = none ∧ ∀ l ∈ [[], [bufStore]], IssuesIn (.commit { c := k0 }) (committing l) ∧
    acquiring (uOf (.commit { c := k0 }) (committing l)) (tOf (committing l)) = none ∧ (tOf (committing l)).region = some { region0 with stores := l } ∧
    ∃ s1 ls held walked, Checked (Need.plain false true) (tOf (committing l)) (xOf (committing l)) (uOf (.commit { c := k0 }) (committing l))
      (l.map (fun b => { Lane.mk0 b.fibre b.va b.bytes.length with data := b.bytes })) s1 ls held walked := by
  refine ⟨(issues_of (by decide)).2, rfl, fun l hl => ?_⟩
  have := List.all_eq_true.mp (by decide : ([[], [bufStore]].all fun l => issuesB (.commit { c := k0 }) (committing l) &&
    (acquiring (uOf (.commit { c := k0 }) (committing l)) (tOf (committing l))).isNone &&
    checkedB (Need.plain false true) (tOf (committing l)) (xOf (committing l)) (uOf (.commit { c := k0 }) (committing l))
      (l.map (fun b => { Lane.mk0 b.fibre b.va b.bytes.length with data := b.bytes }))) = true) l hl
  simp only [Bool.and_eq_true, Option.isNone_iff_eq_none] at this
  exact ⟨(issues_of this.1.1).2, this.1.2, rfl, checked_of this.2⟩
def jr : Instr := .jread { c := k0, d := 6, sel := .acc }
theorem witness_jread : IssuesIn jr mem ∧ (uOf jr mem).pend = [] ∧ (uOf jr mem).array = [] ∧ (ctxOf mem (xOf mem)).isSome = true ∧
    IssuesIn jr (storing mem) ∧ ∃ p ∈ (uOf jr (storing mem)).pend, (tOf (storing mem)).id ∈ p.strands :=
  ⟨(issues_of (by decide)).2, by decide, by decide, by decide, (issues_of (by decide)).2, by decide⟩
/-- A handler strand issues TRET: EPC as it was; written, and a clause start or none. -/
def handling (epc : BitVec 64) (written : Bool) : State :=
  { one [] with strands := [imageStrand 4 .trap none, imageStrand 3 .ready (some { cause := 5, epc := epc, epcWritten := written, trapped := 4 })] }
def tret0 (nxt : Bool) : Instr := .tret { c := k0, nxt := nxt }
theorem witness_traps : IssuesIn (.trap { c := k0, code := 0x2AA }) (one []) ∧ IssuesIn (.ebrk { c := k0 }) (one []) :=
  ⟨(issues_of (by decide)).2, (issues_of (by decide)).2⟩
theorem witness_tret : ∀ nxt ∈ [true, false], ∀ p ∈ [(0x10010, false), (0x10000, true), (0x10008, true)], IssuesIn (tret0 nxt) (handling p.1 p.2) ∧
    strand? (uOf (tret0 nxt) (handling p.1 p.2)) 4 = some (imageStrand 4 .trap none) ∧ (imageStrand 4 .trap none).fibres = (wOf (tret0 nxt) (handling p.1 p.2)).fibres := fun nxt hn p hp => by
  have := List.all_eq_true.mp (List.all_eq_true.mp (by decide : ([true, false].all fun nxt => [(0x10010, false), (0x10000, true), (0x10008, true)].all fun (p : BitVec 64 × Bool) =>
    issuesB (tret0 nxt) (handling p.1 p.2) && decide (strand? (uOf (tret0 nxt) (handling p.1 p.2)) 4 = some (imageStrand 4 .trap none)) &&
    decide ((imageStrand 4 .trap none).fibres = (wOf (tret0 nxt) (handling p.1 p.2)).fibres)) = true) nxt hn) p hp
  simp only [Bool.and_eq_true, decide_eq_true_eq] at this
  exact ⟨(issues_of this.1.1).2, this.1.2, this.2⟩
theorem witness_tret_next : (match fetchBlock (uOf (tret0 true) (handling 0x10010 false)) (tOf (handling 0x10010 false)) (xOf (one [])) 0x10010 with
    | (u, .ok _) => (match strand? u 4, strand? u 3 with | some a, some b => decide (a.fibres = [0]) && decide (b.fibres = [0]) | _, _ => false) | _ => false) = true := by decide
/-- A trap of a strand whose context has a handler, has none, and in a handler. -/
def tvec (v : BitVec 64) : State := { one [] with ctxs := [{ imageCtx with tvec := v }] }
theorem witness_trap_entry : strand? (tvec 0x20000) 3 = some (tOf (tvec 0x20000)) ∧ ctx? (tvec 0x20000) 0 0 = some { imageCtx with tvec := 0x20000 } ∧
    (tOf (tvec 0x20000)).trap = none ∧ ctx? (tvec 0) 0 0 = some { imageCtx with tvec := 0 } ∧ (tOf (handling 0x10010 false)).trap.isSome = true :=
  ⟨rfl, rfl, rfl, rfl, rfl⟩
/-- SYSRD of every register, SYSWR of every register it writes, outside a handler and in one; RAMODE; TLBINV. -/
def sysSels : List (BitVec 12) := [0x000, 0x001, 0x002, 0x003, 0x004, 0x005, 0x006, 0x007, 0x008, 0x009, 0x00A, 0x00B, 0x00C, 0x00D, 0x00E, 0x00F, 0x010, 0x011, 0x012, 0x013,
  0x100, 0x101, 0x102, 0x103, 0x200, 0x201, 0x202, 0x203, 0x204]
theorem witness_sysrd : ∀ n ∈ sysSels, IssuesIn (.sysrd { c := k0, d := 6, sel := n }) (one []) ∧ IssuesIn (.sysrd { c := k0, d := 6, sel := n }) (handling 0x10010 false) := fun n h => by
  have := List.all_eq_true.mp (by decide : (sysSels.all fun n => issuesB (.sysrd { c := k0, d := 6, sel := n }) (one []) &&
    issuesB (.sysrd { c := k0, d := 6, sel := n }) (handling 0x10010 false)) = true) n h
  rw [Bool.and_eq_true] at this
  exact ⟨(issues_of this.1).2, (issues_of this.2).2⟩
theorem witness_syswr : (∀ n ∈ [(0x001 : BitVec 12), 0x00D, 0x011, 0x100, 0x101, 0x102, 0x103, 0x200, 0x201, 0x203, 0x204],
      IssuesIn (.syswr { c := k0, a := src 2, sel := n }) (one []) ∧ ctx? (uOf (.syswr { c := k0, a := src 2, sel := n }) (one [])) 0 0 ≠ none) ∧
    IssuesIn (.syswr { c := k0, a := src 2, sel := 0x010 }) (handling 0x10010 false) ∧ hanksOf (one []) 0 0 = [1] ∧ hanksOf (one []) 0 1 = [] := by
  refine ⟨fun n h => ?_, (issues_of (by decide)).2, by decide, by decide⟩
  have := List.all_eq_true.mp (by decide : ([(0x001 : BitVec 12), 0x00D, 0x011, 0x100, 0x101, 0x102, 0x103, 0x200, 0x201, 0x203, 0x204].all fun n =>
    issuesB (.syswr { c := k0, a := src 2, sel := n }) (one []) && (ctx? (uOf (.syswr { c := k0, a := src 2, sel := n }) (one [])) 0 0).isSome) = true) n h
  rw [Bool.and_eq_true] at this
  exact ⟨(issues_of this.1).2, fun hn => by simp [hn] at this⟩
theorem witness_ramode_tlbinv : (∀ on ∈ [true, false], IssuesIn (.ramode { c := k0, on := on }) (one [])) ∧
    (∀ k ∈ [InvKind.page, .range, .all], IssuesIn (.tlbinv { c := k0, a := src 2, b := src 4, kind := k }) (one []) ∧
      IssuesIn (.tlbinv { c := k0, a := src 2, b := src 4, kind := k }) (waiting (.invalidation 5))) := by
  refine ⟨fun on h => ?_, fun k h => ?_⟩
  · exact (issues_of (List.all_eq_true.mp (by decide : ([true, false].all fun on => issuesB (.ramode { c := k0, on := on }) (one [])) = true) on h)).2
  · have := List.all_eq_true.mp (by decide : ([InvKind.page, .range, .all].all fun k => issuesB (.tlbinv { c := k0, a := src 2, b := src 4, kind := k }) (one []) &&
      issuesB (.tlbinv { c := k0, a := src 2, b := src 4, kind := k }) (waiting (.invalidation 5))) = true) k h
    rw [Bool.and_eq_true] at this
    exact ⟨(issues_of this.1).2, (issues_of this.2).2⟩
/-- OPREQ: mill 0 is partition 0 alone, dedicated to VD 0 with an allowance; requests of every answer. -/
def dedicated (p : BitVec 32) (allow floor : BitVec 64) : State :=
  { one [(3, p)] with mills := updIf (fun m => m.num == 0) (fun m => { m with part := 0x00010000, opfloor := floor }) ((one []).mills.map (fun m => { m with part := 0x101 }))
                      vds := updIf (fun v => v.num == 0) (fun v => { v with opallow := allow }) (one []).vds }
def opr : Instr := .opreq { c := k0, d := 6, a := src 3 }
/-- Points 12, below the floor 2, above the allowance 5, at point 0 already, and 4. -/
theorem witness_opreq : ∀ p ∈ [((12 : BitVec 32), (5 : BitVec 64), (0 : BitVec 64)), (1, 5, 2), (6, 5, 0), (0, 5, 0), (4, 5, 0)], IssuesIn opr (dedicated p.1 p.2.1 p.2.2) ∧
    (uOf opr (dedicated p.1 p.2.1 p.2.2)).opreqs = [] ∧ (uOf opr (dedicated p.1 p.2.1 p.2.2)).changes = [] := fun p h => by
  have := List.all_eq_true.mp (by decide : ([((12 : BitVec 32), (5 : BitVec 64), (0 : BitVec 64)), (1, 5, 2), (6, 5, 0), (0, 5, 0), (4, 5, 0)].all fun p =>
    issuesB opr (dedicated p.1 p.2.1 p.2.2) && (uOf opr (dedicated p.1 p.2.1 p.2.2)).opreqs.isEmpty && (uOf opr (dedicated p.1 p.2.1 p.2.2)).changes.isEmpty) = true) p h
  simp only [Bool.and_eq_true, List.isEmpty_iff] at this
  exact ⟨(issues_of this.1.1).2, this.1.2, this.2⟩
theorem witness_opreq_points : partShared (dedicated 4 5 2) 0 = false ∧ dedicatedTo (dedicated 4 5 2) 0 0 = true ∧ floorOf (dedicated 4 5 2) 0 = 2 ∧
    effMax (dedicated 4 5 2) 0 = 5 ∧ pointOf (dedicated 4 5 2) 0 = 0 ∧ dedicatedTo (one []) 0 0 = false := by decide
theorem witness_opreq_answered : IssuesIn opr (waiting (.opreq 5 (some 0))) := (issues_of (by decide)).2

/-! Events. -/

/-- A strand is due, the one that has issued in its place stands at a clause start, and the cycles have passed. -/
def dueState : State :=
  { one [] with strands := [{ imageStrand 3 .ready none with clause := none, pc := 0x10000 }, { imageStrand 4 .ready none with fibres := [1], due := true, dueCycles := 100000, inPlace := [3] }] }
theorem witness_promotion : promotionReady dueState 0 = true := by decide
/-- A strand in an episode whose flags are idle. -/
def ra0V : RaView := { saved := [{ id := 0, preds := 0, regs := [], live := 0, rel := 0 }], invR := [], invP := [], invG := [], g := [], gSet := [], poisoned := [], pc := 0x10000, clause := none, waits := 1, spent := 0, lines := 0, dirty := 0 }
theorem witness_runahead_exit : strand? { one [] with strands := [{ imageStrand 3 .runahead none with ra := some ra0V }] } 3 = some { imageStrand 3 .runahead none with ra := some ra0V } ∧
    ({ imageStrand 3 .runahead none with ra := some ra0V } : Strand).waitMet 1 = true := ⟨rfl, by decide⟩
/-- A strand held at a clause start by a flag of a load that missed, RASTOP 0 there, runahead on. -/
def heldState : State :=
  { loading 6 with strands := [{ imageStrand 3 .held none with pc := 0x10000, clause := none, waits := 1, holds := [(0, 9)] }]
                   ctxs := [{ imageCtx with ractl := imageCtx.ractl ||| 1 }]
                   pend := [{ pend0 (.load 6 .z32 false false .normal false) [lane0 0x100000 [0, 0, 0, 0]] with miss := true }]
                   mem := { mem.mem with bytes := msetAll mem.mem.bytes 0x10000 (leBytes 8 0x00FF0000) } }
def noQuad : State := arr [] (fun x => { x with lines := x.lines.filter (fun l => l.key != .vec 0 1), fibres := [fib 0 0xFFFF []] })
theorem witness_register_fill : skein? noQuad 2 = some (xOf noQuad) ∧ strandOfBlock noQuad (xOf noQuad) 0 = some (tOf noQuad) ∧ mayRun noQuad (xOf noQuad) = true ∧
    (∀ l ∈ (xOf noQuad).lines, l.key ≠ .vec 0 1) ∧ 4 * 1 < (xOf noQuad).w ∧ (match touchLine noQuad 2 (.vec 0 1) false false with | .ok _ => true | .error _ => false) = true :=
  ⟨by decide, by decide, by decide, by decide, by decide, by decide⟩
def retiring : State := arr [] (fun x => { x with fibres := [], gw := 0 })
theorem witness_retire : canRetire retiring (xOf retiring) = true ∧ hank? retiring 1 = some imageHank ∧ (∀ c ∈ retiring.ctxs, c.ending = false) ∧
    (∀ j ∈ imageHank.skeins, j ≠ 2 → ∀ y, skein? retiring j = some y → y.retired = true) := by
  refine ⟨by decide, rfl, by decide, fun j h hn => ?_⟩
  simp [imageHank] at h
  exact absurd h hn

/-- A queue of a kind at 0x100000, mapped in slot 0, the packet in its first slot at 0x101000. -/
def serving (kind : Nat) (bs : List Byte) : State :=
  { queue kind 4 1 0 with cp := { mem.cp with qslot := [(0, 0x100001)] }
                          mem := { mem.mem with bytes := msetAll (queue kind 4 1 0).mem.bytes 0x101000 bs } }
def packet (head : List Byte) : List Byte := head ++ zeros (64 - head.length)
def servesB (s : State) (bs : List Byte) : Bool :=
  decide (slotDesc s 0 = some 0x100000) && queueOpen s 0x100000 && (match consumerGet s 0x100000 (nextVa s 0x100000) 64 with | (_, .ok b) => decide (b = bs) | _ => false) &&
    decide (fieldOf bs 0 1 ≠ 0) && decide (fieldOf bs 1 1 < 128) && !(queueOf s 0x100000).zero && (qKind s 0x100000 != 0 || !(freeChannels s 0x100000 (qMill s 0x100000)).isEmpty)
theorem serves_of {s : State} {bs : List Byte} (h : servesB s bs = true) : ∃ s1, Serves s 0 0x100000 s1 bs := by
  simp only [servesB, Bool.and_eq_true, decide_eq_true_eq] at h
  obtain ⟨⟨⟨⟨⟨⟨h1, h2⟩, h3⟩, h4⟩, h5⟩, h6⟩, h7⟩ := h
  split at h3
  · rename_i s1 b hc
    exact ⟨s1, h1, h2, by simpa using h6, by simpa using h7, by rw [hc, of_decide_eq_true h3], h4, .inr (.inl h5)⟩
  · simp at h3
def copyPkt : List Byte := packet ([1, 0, 0, 0] ++ toBytes 4 128 ++ zeros 8 ++ toBytes 8 0x103000 ++ toBytes 8 0x102000)
def feedPkt : List Byte := packet ([0x11, 0] ++ zeros 14 ++ toBytes 8 0x104000 ++ toBytes 8 0x105000 ++ toBytes 4 1)
def ibPkt : List Byte := packet ([0x12, 0] ++ zeros 6 ++ toBytes 8 0x105000 ++ toBytes 4 1)
def waitPkt (v : Nat) : List Byte := packet ([0x13, 0] ++ zeros 6 ++ toBytes 8 0x105000 ++ toBytes 8 v)
def launchPkt : List Byte := packet ([0x10, 0, 0, 0] ++ toBytes 4 1 ++ toBytes 8 0x106000)
theorem witness_serves : (∃ s1, Serves (serving 0 copyPkt) 0 0x100000 s1 copyPkt) ∧ (∃ s1, Serves (serving 1 feedPkt) 0 0x100000 s1 feedPkt) ∧
    (∃ s1, Serves (serving 1 ibPkt) 0 0x100000 s1 ibPkt) ∧ (∃ s1, Serves (serving 1 (waitPkt 0)) 0 0x100000 s1 (waitPkt 0)) ∧
    (∃ s1, Serves (serving 1 (waitPkt 1)) 0 0x100000 s1 (waitPkt 1)) ∧ (∃ s1, Serves (serving 1 launchPkt) 0 0x100000 s1 launchPkt) :=
  ⟨serves_of (by decide), serves_of (by decide), serves_of (by decide), serves_of (by decide), serves_of (by decide), serves_of (by decide)⟩
theorem witness_packets : badBte copyPkt = false ∧ badFeed feedPkt = false ∧ badIb ibPkt = false ∧ badWait (waitPkt 1) = false ∧ launchEarly launchPkt = 0 ∧
    qKind (serving 0 copyPkt) 0x100000 = 0 ∧ qKind (serving 1 ibPkt) 0x100000 = 1 := by decide
/-- The descriptor at 0x106000 of a launch of one skein, entry 0x10000, fmax 32, finit 1, w 8; backing 0x20000000. -/
def desc0 : List Byte := [1, 1, 0] ++ zeros 13 ++ toBytes 8 0x20000000 ++ toBytes 2 1 ++ zeros 38 ++ toBytes 8 0x10000 ++ toBytes 4 0x81 ++ toBytes 2 32 ++ toBytes 2 1 ++ [8] ++ zeros 175
theorem witness_launch_descriptor : launchBadDesc desc0 (launchIn launchPkt desc0) = false ∧ (launchIn launchPkt desc0).argn = 0 ∧ fieldOf desc0 1 1 ≤ 8 ∧
    (launchIn launchPkt desc0).recs.any recTooLarge = false ∧ desc0.length = 256 := by decide
def launches : State := { serving 1 launchPkt with mem := { mem.mem with bytes := msetAll (serving 1 launchPkt).mem.bytes 0x106000 desc0 } }
theorem witness_launch : (∃ s1, Serves launches 0 0x100000 s1 launchPkt) ∧
    (match consumerGet launches 0x100000 (nextVa launches 0x100000) 64 with
      | (s1, _) => (match consumerGet (turned s1 0) 0x100000 0x106000 256 with | (_, .ok b) => decide (b = desc0) | _ => false)) = true := ⟨serves_of (by decide), by decide⟩
/-- A feed of the queue's VD at 0x104000, its ring at 0x107000, one record at 0x105000. -/
def feeds : State := { serving 1 feedPkt with mem := { mem.mem with bytes := msetAll (msetAll (serving 1 feedPkt).mem.bytes 0x104000 (toBytes 8 0x107000 ++ [4])) 0x105000 (upTo 1 64 |>.map (BitVec.ofNat 8)) } }
theorem witness_feed_packet : (∃ s1, Serves feeds 0 0x100000 s1 feedPkt) ∧ feedOk feeds 0x104000 = true ∧ feedRoom feeds 0x104000 = true ∧ (queueOf feeds 0x100000).fed = 0 ∧
    (match xlatePieces (fun a => { consumerReq feeds 0x100000 a true with read := true }) 4 feeds [(0x105000, 64)] with | .ok _ ps _ => decide (ps = [(0x105000, 64)]) | _ => false) = true :=
  ⟨serves_of (by decide), by decide, by decide, by decide, by decide⟩
theorem witness_wait_satisfied : slotDesc (serving 1 (waitPkt 1)) 0 = some 0x100000 ∧ waitOpen (serving 1 (waitPkt 1)) 0x100000 = true ∧
    (queueOf { serving 1 (waitPkt 1) with queues := [{ QueueFE.fresh 0x100000 with wait := some (0x105000, 1) }] } 0x100000).wait = some (0x105000, 1) := ⟨by decide, by decide, by decide⟩

/-- A packet of queue 0x100000, not yet accepted, accepted, its chunk landed; COPY+ARRAY's command; SIGNAL. -/
def btePkt (bs : List Byte) : BtePkt :=
  { id := 9, desc := 0x100000, slot := 0, seq := 0, vd := 0, ctx := 0, mill := 0, bte := 0, host := false, bytes := bs, accepted := false, promise := 0, st := .waiting,
    done := [], landed := [], chunks := 0, moved := 0, data := [], skein := none, fin := none }
def moving (bs : List Byte) (landed : List (Nat × BitVec 64)) : State :=
  { serving 0 bs with pkts := [{ btePkt bs with accepted := true, st := .moving, chunks := 1, landed := landed }], vds := updIf (fun v => v.num == 0) (fun v => { v with bte := v.bte.map (fun b => { b with lvl := 1000 }) }) mem.vds }
def gatherPkt : List Byte := packet ([3, 0, 0, 0] ++ toBytes 4 4 ++ zeros 8 ++ toBytes 8 0x103000 ++ toBytes 8 0x102000 ++ toBytes 8 0x104000 ++ toBytes 4 2)
def fillPkt : List Byte := packet ([4, 0, 0, 0] ++ toBytes 4 128 ++ zeros 8 ++ toBytes 8 0x103000 ++ zeros 8 ++ toBytes 8 0xAB)
def remotePkt : List Byte := packet ([6, 0, 0, 0] ++ toBytes 4 128 ++ zeros 8 ++ toBytes 8 0x103000 ++ toBytes 8 0x102000)
def decompPkt : List Byte := packet ([5, 0, 0, 0] ++ toBytes 4 8 ++ zeros 8 ++ toBytes 8 0x103000 ++ toBytes 8 0x102000)
def arrayPkt (dst row : Nat) : List Byte := packet ([2, 0, 0, 0] ++ toBytes 4 6 ++ zeros 8 ++ toBytes 8 dst ++ toBytes 8 0x102000 ++ toBytes 4 0 ++ toBytes 4 8 ++ toBytes 8 row)
def signalPkt : List Byte := packet ([7, 1, 0, 0] ++ zeros 12 ++ toBytes 8 0x103000 ++ zeros 8 ++ toBytes 8 5)
theorem witness_packet_starts : ∀ bs ∈ [copyPkt, arrayPkt 0 0, gatherPkt, fillPkt, decompPkt, remotePkt, signalPkt], pkt? { serving 0 bs with pkts := [btePkt bs] } 9 = some (btePkt bs) ∧
    pktServed (serving 0 bs) (btePkt bs) = true ∧ mayStart { serving 0 bs with pkts := [btePkt bs] } (btePkt bs) = true := by decide
theorem witness_packet_prep : (match prepCopyArray (serving 0 (arrayPkt 0 0)) (btePkt (arrayPkt 0 0)) with | .go _ p => decide (p.skein = some 2) | _ => false) = true ∧
    (match prepRemote (serving 0 remotePkt) (btePkt remotePkt) with | .go _ p => decide (p = btePkt remotePkt) | _ => false) = true ∧ 0 < (btePkt copyPkt).tile ∧
    0 < (btePkt gatherPkt).tile := by decide
def movedB (m : State → BtePkt → Nat → MoveOut) (bs : List Byte) : Bool :=
  match (moving bs []).pkts with
  | p :: _ => (chunkBucket (moving bs []) 0 0 (chunkLen p 0)).isSome && (match m (moving bs []) p 0 with | .moved v _ => (pkt? v 9).isSome | _ => false)
  | [] => false
theorem witness_chunks : movedB copyChunk copyPkt = true ∧ movedB copyArrayChunk (arrayPkt 0 0) = true ∧ movedB gatherChunk gatherPkt = true ∧ movedB fillChunk fillPkt = true ∧
    movedB copyChunk remotePkt = true := by decide
theorem witness_chunk_landed : ∀ bs ∈ [copyPkt, arrayPkt 0 0, gatherPkt, fillPkt, remotePkt], (moving bs [(0, 0)]).pkts.map (fun p => (p.landed.find? (fun e => e.1 == 0), p.cmpl)) =
    [(some (0, 0), 0)] := by decide
theorem witness_copy_array : targetSkein { serving 0 (arrayPkt 0 0) with skeins := [] } (btePkt (arrayPkt 0 0)) = none ∧ targetSkein (serving 0 (arrayPkt 0x80000 0)) (btePkt (arrayPkt 0x80000 0)) =
      some (xOf mem) ∧ scrDest (serving 0 (arrayPkt 0x80000 0)) (xOf mem) (btePkt (arrayPkt 0x80000 0)) 0 (btePkt (arrayPkt 0x80000 0)).len = none := by decide
theorem witness_follow_on : followReady (latched 0) (xOf (latched 0)) = true ∧ (followOp (btePkt (arrayPkt 0 0x8000000))).isSome = true ∧
    (match followOp (btePkt (arrayPkt 0 0x8000000)) with | some (row, _) => (match rowCheck (latched 0) (xOf (latched 0)) row with | .ok ps => decide (ps = [2 * 2 ^ 32]) | _ => false) | none => false) =
      true := by decide
theorem witness_signal : (queueOf (moving signalPkt []) 0x100000).gw.toNat < (moving signalPkt []).gtb.toNat ∧ (btePkt signalPkt).cmpl = 0 ∧ (btePkt signalPkt).dst.toNat % 8 = 0 ∧
    (match xlatePieces (fun va => { pktReq (moving signalPkt []) (btePkt signalPkt) true va with read := true }) 1 (moving signalPkt []) [((btePkt signalPkt).dst, 8)] with
      | .ok u ps _ => decide (ps = [(0x103000, 8)]) && !poisoned u 0x103000 8 | _ => false) = true := by decide

/-- A hank that quiesces with a store not begun; a context that offers a fresh hank, and a saved one. -/
def quiescing : State := { storing mem with hanks := [{ imageHank with st := .quiescing }] }
theorem witness_halt : haltReady quiescing { imageHank with st := .quiescing } = true ∧ hank? quiescing 1 = some { imageHank with st := .quiescing } := ⟨by decide, rfl⟩
theorem witness_runahead_entry : raCanEnter heldState (tOf { heldState with cur := some 3 }) (xOf heldState) = true := by decide
def rec0 : SkeinRec := { entry := 0x10000, pw := 0x81, fmax := 32, finit := 1, w := 8 }
def offers (saved : Bool) : State :=
  let lot : Lot := { imageLot with recs := [rec0], hanks := 2, nback := 2, live := if saved then 1 else 0 }
  { mem with strands := [], lots := [lot], skeins := if saved then mem.skeins else [], hanks := if saved then [{ imageHank with st := .saved }] else []
             mills := mem.mills.map (fun m => { m with part := 0x10100 }) }
theorem witness_scheduler : (match firstPlace (settleRunnable (offers false)) with | some (_, .fresh l, _, _) => decide (l.id = 0) | _ => false) = true ∧
    (match firstPlace (settleRunnable (offers true)) with | some (_, .saved h _, _, _) => decide (h.id = 1) | _ => false) = true := by decide
theorem witness_contexts : (vdOf mem 0).bound = true ∧ (vdOf mem 0).ending = false ∧ ctx? mem 0 5 = none ∧ ctx? mem 0 0 = some imageCtx ∧ (∃ x ∈ mem.vds, x.num = 0) ∧
    mem.ctxs = [imageCtx] := by decide
/-- A tick is due; a reading is; a grant lapses; the firmware runs and the pod's message has not come. -/
def ticking : State := { mem with cp := { mem.cp with gtbRun := true }, gtb := BitVec.ofNat 64 Config.tickLen }
theorem witness_tick : tickDue ticking = true ∧ ∀ d ∈ ticking.vds, d.ending = false := by decide
def reads (final : Bool) : State :=
  { ticking with tick := 1, gtb := 0x4000000000000000, vds := updIf (fun v => v.num == 0) (fun v => { v with mtrcfg := 0x1000, reading := { v.reading with final := final } }) mem.vds }
theorem witness_reading : ∀ f ∈ [true, false], (match (reads f).vds.find? (fun x => x.num == 0) with | some d => readingDue (reads f) d && (d.reading.final == f) | none => false) = true := by decide
theorem witness_lapse : lapseDue { ticking with tick := 1, fab := { mem.fab with pgrant := 5, pgexp := 0, psafe := 3, grants := [] } } = true := by decide
def grantFlit (seq : Nat) : List Byte := [0x31, 1, 0, 0] ++ toBytes 4 seq ++ zeros 120
theorem witness_grant : fieldOf (padTo 128 (grantFlit 1)) 0 1 = 0x31 ∧ fieldOf (padTo 128 (grantFlit 1)) 1 1 = 1 ∧ fieldOf (padTo 128 (grantFlit 1)) 2 2 = 0 ∧
    fieldOf (padTo 128 (grantFlit 1)) 32 96 = 0 ∧ fieldOf (padTo 128 (grantFlit 1)) 4 4 = 1 ∧ ((1 : BitVec 32) - 0).toNat ≤ 2 ^ 31 := by decide
/-- A change of point in its first step and in its last; a cap below the point, a floor above it. -/
def change0 (volt first : Bool) : OpChange := { pid := 0, mills := [0], gather := false, from_ := 0, target := 4, volt := volt, first := first, req := none }
theorem witness_changes : ∀ volt ∈ [true, false], ∀ first ∈ [true, false],
    ({ dedicated 4 5 0 with changes := [change0 volt first] } : State).changes.find? (fun c => c.pid == 0 && c.volt == volt) = some (change0 volt first) ∧ 4 ≤ effMax (dedicated 4 5 0) 0 := by decide
theorem witness_limits : (let s := { dedicated 4 5 0 with mills := updIf (fun m => m.num == 0) (fun m => { m with oppt := 4 }) (dedicated 4 5 0).mills }
    decide (effMax (updMill s 0 (fun m => { m with opcap := 2 &&& 0xF })) 0 < pointOf s 0) && decide (limitPoint (updMill s 0 (fun m => { m with opcap := 2 &&& 0xF })) 0 ≠ pointOf s 0)) = true ∧
    pointOf (dedicated 4 5 0) 0 < floorOf (updMill (dedicated 4 5 0) 0 (fun m => { m with opfloor := 3 &&& 0xF })) 0 := by decide
/-- An invalidation that nothing holds; a token; a waiting record; a frozen context, queue, channel and logical device; a skipped buffer. -/
def inv0 : Inv := { id := 7, vd := 0, stage2 := false, ctx := none, lo := 0, len := none, reg := false }
theorem witness_invalidation : invReady { mem with invs := [inv0] } inv0 = true := by decide
def tokened (host : Bool) : State :=
  { mem with tokens := [{ value := 77, host := host, stops := .strand 3 }], strands := [{ imageStrand 3 .parked none with wait := some (.token 77) }] }
theorem witness_token (host : Bool) : (tokened host).tokens = [{ value := 77, host := host, stops := .strand 3 }] ∧ strand? (tokened host) 3 =
    some { imageStrand 3 .parked none with wait := some (.token 77) } := ⟨rfl, rfl⟩
theorem witness_record : (fltRing { mem with cp := { mem.cp with hfltq := { mem.cp.hfltq with cfg := 0x20000000C01 } } } .host).full = false := by decide
theorem witness_thaw : (ctx? { mem with ctxs := [{ imageCtx with st := 2 }] } (0 / 1024) (0 % 1024)).map (fun c => c.st) = some 2 ∧
    frozenQueue { serving 0 copyPkt with mem := { mem.mem with bytes := msetAll (serving 0 copyPkt).mem.bytes 0x100023 [1] } } 0 = some 0x100000 ∧
    normSpa mem (0x100000 + 35) = 0x100000 + 35 ∧ frozenOn { mem with pkts := [{ btePkt copyPkt with st := .frozen 0x31 }] } (chanId (btePkt copyPkt)) ≠ [] := by decide
theorem witness_kick : ({ serving 1 ibPkt with queues := [{ QueueFE.fresh 0x100000 with skipIb := true }] } : State).queues.find?
    (fun q => q.skipIb && descQid (serving 1 ibPkt) q.desc == (bits (0 : BitVec 64) 0 16).toNat && !descFlag (serving 1 ibPkt) q.desc 0) = some { QueueFE.fresh 0x100000 with skipIb := true } := by decide
def late : State :=
  { working (.tmma 1 2 4 false false 2 2 2) with gtb := 0x100000, array := [{ work (.tmma 1 2 4 false false 2 2 2) with begun := true }] }
theorem witness_array_late : arrayLate late 0 = true := by decide
theorem witness_spares : sparesLeft (millOf mem 0) ≠ 0 ∧ sparesLeft (millOf { mem with mills := mem.mills.map (fun m => { m with spare := 0x400 }) } 0) = 0 ∧
    occupants mem 0 ≠ [] ∧ (∃ m ∈ mem.mills, m.num = 0) := by decide
/-- Device memory: a stack lost; the layout of fifteen; a window enabled and one that zeroes; a shrinking share; a pinning window that moves. -/
theorem witness_memory : stackState mem 3 = 0 ∧ ({ mem.hbm with stack := 1 } : Hbm).relevel.getLsbD 61 = false ∧
    ((List.range 16).filter (fun n => stackState { mem with hbm := { mem.hbm with stack := 1 } } n == 1)).length = 1 ∧ mem.hbm.layout.getLsbD 0 = false ∧
    winSize (mget mem.hbm.cmpwin 0) = 0 ∧ winSize ((0x10 : BitVec 64) &&& 0xFFFFFFFFFC) ≠ 0 := by decide
theorem witness_share : shareBusy (vdOf { mem with vds := updIf (fun v => v.num == 0) (fun v => { v with l2share := v.l2share ||| 0x10000 }) mem.vds } 0) = true ∨
    ∃ b : BitVec 64, shareBusy { (vdOf mem 0) with l2share := b } = true := .inr ⟨BitVec.allOnes 64, by decide⟩
theorem witness_fabric : replayDue { mem with gtb := 5000 } { linkOf mem 0 0 with unacked := [(1, 0)] } = true ∧ hostVd mem 0x1000 ≠ none ∧ normSpa mem 0x1000 = 0x1000 ∧
    foreignMayWrite mem 0 0x1000 = true := by decide
theorem witness_host_reaches : HostReaches mem 0x1000 8 := by
  refine ⟨by decide, .inr ?_⟩
  have h : (hostVd mem (normSpa mem 0x1000)).isSome = true ∧ (hostVd mem (normSpa mem (0x1000 + 8 - 1))) = hostVd mem (normSpa mem 0x1000) ∧
      (hostVd mem (normSpa mem 0x1000)).map (fun d => d.ldFrozen) = some false ∧ normSpa mem 0x1000 + 8 ≤ capacity mem := by decide
  obtain ⟨d, hd⟩ := Option.isSome_iff_exists.mp h.1
  exact ⟨d, d, hd, h.2.1.trans hd, rfl, by simpa [hd] using h.2.2.1, h.2.2.2⟩
/-- Bring-up: no image, and one without a body of the format, are refused; power stands; a bound VD; an unbound one after bring-up; a BTE of a VD. -/
theorem witness_bring_up : imageCode State.reset.cp.fuses none = 1 ∧ mem.cp.power = true ∧ (∀ e ∈ mem.mem.bytes, e.2 ≠ 0) ∧ (vdOf mem 0).bound = true ∧
    (vdOf mem 1).bound = false ∧ (vdOf mem 1).ending = false ∧ (∃ d ∈ mem.vds, d.num = 0 ∧ ∃ b ∈ d.bte, b.mill = (bits d.btesel 0 3).toNat) ∧
    (mget mem.cp.qslot 0).getLsbD 0 = false ∧ (∃ x ∈ mem.doms, x.num = 0) := by decide

/-- Bring-up that has failed: only the command processor's registers answer; and a VD that is not bound answers through no page of its own. -/
def bootFailed : State := { mem with cp := { mem.cp with boot := 0x100 } }
theorem witness_regs_answer : regsAnswer mem = true ∧ regsAnswer bootFailed = false ∧ regsAnswer (dedicated 4 5 0) = true ∧ regsAnswer (tokened false) = true ∧
    regReached mem (.vdSave 0) false = true ∧ regReached mem (.vdSave 1) false = false ∧ regReached mem (.vdSave 1) true = true ∧
    regReached bootFailed (.vdSave 0) true = false ∧ regReached bootFailed .cprFwaddr true = true ∧ bootFailed.cp.power = true := by decide
theorem witness_regs_reached : regReached mem (.vdBte 0) false = true ∧ (∃ d ∈ mem.vds, d.num = 0 ∧ ∃ b ∈ d.bte, b.mill = (bits d.btesel 0 3).toNat) ∧
    (∀ a ∈ mem.vds, ∀ b ∈ mem.vds, a.num = b.num → a = b) ∧ regReached mem (.ctxSel 0 0 0x100) false = true ∧ (ctx? mem 0 0).isSome = true := by decide

/-! Decoding. -/

theorem witness_round_trip : (Instr.nop { c := k0 }).wf = true ∧ needPriv { priv := false, handler := false } (.nop { c := k0 }) = false ∧
    (encodeBytes (.nop { c := k0 })).isSome = true ∧ (match decode { priv := false, handler := false } (leBytes 8 0x3C01 ++ zeros 8) with | .ok i => decide (i = .nop { c := k0 }) | .error _ => false) = true :=
  ⟨by decide, by decide, by decide, by decide⟩

/-! What the statements ask that the states above leave out. -/

/-- A skein with 64 accesses unsent, none of which can be sent. -/
def crowded : State := { mem with array := List.replicate 64 (work (.tmma 1 2 4 false false 2 2 2)) }
theorem witness_unsent : (isaShape (.ld ld0) = some (shOf (.ld ld0)) ∧ AtIssue crowded (tOf crowded) (xOf crowded)) ∧
    decodeCheck (shOf (.ld ld0)) (privOf crowded (tOf crowded) (xOf crowded)) (tOf crowded) (xOf crowded) = none ∧
    issueState (shOf (.ld ld0)) (tOf crowded) (xOf crowded) crowded = .ok (uOf (.ld ld0) crowded) ∧ (uOf (.ld ld0) crowded).undo = none ∧
    64 ≤ unsentOf (uOf (.ld ld0) crowded) (xOf crowded) ∧ sendOldest (uOf (.ld ld0) crowded) (xOf crowded) = none ∧ (shOf (.ld ld0)).access = true :=
  ⟨arrives_spec (by decide), by decide, okState_spec (by decide), by decide, by decide, by decide, by decide⟩
/-- A line that is being invalidated back: an access of the host to it waits, another does not. -/
def invalidating : State := { mem with fab := { mem.fab with invs := [(0x20, true)] } }
theorem witness_host_waits : hostHeld invalidating (.hostMemoryAccess 0x1000 none) = true ∧ hostHeld invalidating (.hostMemoryAccess 0x2000 none) = false := by decide
theorem witness_no_word : nextTurn runs (turns runs) = some (.strand 3) ∧ nextTurn atStart (turns atStart) = some (.strand 3) := by decide
def touchedB (r : Except Flt State) : Bool := match r with | .ok _ => true | .error _ => false
theorem witness_spawn_lines : canonical (clauseStart (tOf (one [(3, 3)])) + (2 : BitVec 32).signExtend 64 * 32) = true ∧
    (match spawn0 with
     | .fspawn o => let u := uOf spawn0 (one [(3, 3)])
       let r := spawnAll o (eOf spawn0 (one [(3, 3)])) u
       touchedB (touchAll (setSkein u r.1) 2 true (spawnKeys r.1 o r.2))
     | _ => false) = true := by decide
theorem witness_live_lines : (match (Instr.live { c := k0, mask := 0xFFFF0000000F }) with
     | .live o => touchedB (touchAll (uOf (.live o) (one [])) 2 true (liveKeys o (xOf (one [])) (eOf (.live o) (one [])).act))
     | _ => false) = true := by decide
/-- The same skein, retired: what is stored to its scratchpad changes nothing. -/
def gone : State := { flying .sts [lane0 (2 * 2 ^ 32) [1, 2, 3, 4]] with skeins := [{ imageSkein with retired := true }] }
theorem witness_store_retired : (pend? gone 9).map (fun p => performing gone p [0]) = some [(0, lane0 (2 * 2 ^ 32) [1, 2, 3, 4])] ∧
    (skein? gone (2 * 2 ^ 32 / 2 ^ 32)).map (fun y => y.retired) = some true := by decide
theorem witness_rstf_far : (flagPart (rstfing 0 [])).length = 1 ∧
    (∀ l ∈ flagPart (rstfing 0 []), (∀ q ∈ ({ mem with pend := [rstfing 0 []] } : State).pend, holdsBack q (rstfing 0 []) l = false) ∧
      lineBusy { mem with pend := [rstfing 0 []] } (l.spa / 128) = false) ∧ fabAcked { mem with pend := [rstfing 0 []] } (tOf mem) = true := by decide
/-- A strand whose fabric write is not acknowledged. -/
def unacked : State :=
  { mem with strands := [{ imageStrand 3 .ready none with acks := [(0, 0, 7)], h := 0 }], fab := { mem.fab with links := [{ linkOf mem 0 0 with unacked := [(7, 0)] }] } }
theorem witness_fence_far : IssuesIn (.fence { c := k0, sc := .group }) unacked ∧ fenceMet (uOf (.fence { c := k0, sc := .group }) unacked) (tOf unacked) .group = false ∧
    fenceMet (uOf (.fence { c := k0, sc := .group }) unacked) (tOf unacked) .device = true ∧ fabAcked unacked (tOf unacked) = false :=
  ⟨(issues_of (by decide)).2, by decide, by decide, by decide⟩
/-- A line that is pinned, and is unpinned. -/
theorem witness_unpin : (pinLines (pend0 (.pin true 6) []) false 0x100000 (rangeLines 0x100000 128) (pinning 0 0x118)).2 = ([0x2000], true) := by decide
/-- CPIN installs the line it pins: none is unpinned after it; without ways of its own it cannot be had. -/
theorem witness_pin_held : pinnedBy (Machine.pinLine (pend0 (.pin false 6) []) (Sys2Proof.Tests.pinLine (pinning 0 0x118) 0x100000).1 0x2000) 0 0 0x2000 = true ∧
    pinnedBy (Machine.pinLine (pend0 (.pin false 6) []) (Sys2Proof.Tests.pinLine (pinning 0 0) 0x100000).1 0x2000) 0 0 0x2000 = false := by decide
theorem witness_register_room : ∃ u, makeRoom noQuad 2 false = .ok (u, true) := ⟨noQuad, rfl⟩
theorem witness_tick_placed : (∀ h ∈ ticking.hanks, h.st ≠ .saved) ∧ ticking.cp.cpstat.getLsbD 1 = false := by decide
/-- A change whose floor has passed its target meanwhile, and one that gathers. -/
def floored (floor : BitVec 64) (g : Bool) : State := { dedicated 4 11 floor with changes := [{ change0 true true with gather := g }] }
theorem witness_floor_moved : 4 < floorOf (floored 6 false) 0 ∧ floorOf (floored 2 false) 0 ≤ 4 ∧ 4 ≤ effMax (floored 2 false) 0 ∧
    (∀ g, ((floored 2 g).changes.find? (fun c => c.pid == 0 && c.volt == true)).map (fun c => c.gather) = some g) :=
  ⟨by decide, by decide, by decide, fun _ => rfl⟩
/-- SIGNAL of a launch queue, whose VD runs. -/
def launchSignal : State := { serving 1 signalPkt with pkts := [btePkt signalPkt] }
theorem witness_signal_launch : pkt? launchSignal 9 = some (btePkt signalPkt) ∧ pktServed launchSignal (btePkt signalPkt) = true ∧ mayStart launchSignal (btePkt signalPkt) = true ∧
    qKind launchSignal 0x100000 = 1 ∧ descVd launchSignal 0x100000 = 0 ∧ (vdOf launchSignal 0).stopped = false ∧
    (vdOf launchSignal 0).empty = false ∧ (vdOf launchSignal 0).withheld = [] :=
  ⟨by decide, by decide, by decide, by decide, by decide, by decide, by decide, by decide⟩
theorem witness_foreign : foreignReaches mem 16 0x1000 8 = true ∧ normSpa mem (normSpa mem 0x1000) = normSpa mem 0x1000 ∧ poisoned mem (normSpa mem 0x1000) 8 = false := by decide
theorem witness_foreign_room : (linkOf (drainPort mem 0) 0 16).quota + 1 ≤ quotaOf mem 0 16 ∨ poolHeld (drainPort mem 0) 0 + 1 ≤ poolOf mem 0 := by decide
theorem witness_late : gwctBytes mem (normSpa mem 0x1000) 8 ≠ 0 := by
  have h : gwctBytes mem (normSpa mem 0x1000) 8 = if (0#64).toNat < (gwctOf mem 32).toNat then gwctOf mem 32 else 0 := rfl
  have e : gwctOf mem 32 = BitVec.ofNat 64 (1 + Config.gwct mem.steps 32 % 4097) := rfl
  have n : (gwctOf mem 32).toNat = 1 + Config.gwct mem.steps 32 % 4097 := by
    rw [e, BitVec.toNat_ofNat, Nat.mod_eq_of_lt (by omega)]
  rw [h, if_pos (by rw [n]; exact Nat.lt_of_lt_of_le Nat.zero_lt_one (Nat.le_add_right _ _))]
  intro z
  rw [z] at n
  have m : 0 = 1 + Config.gwct mem.steps 32 % 4097 := n
  omega
theorem witness_vd_run : (∃ d ∈ mem.vds, d.num = 0) ∧ (vdOf mem 0).ldFrozen = false ∧ vdCtxs mem 0 ≠ [] ∧ (vdOf mem 0).ownHeld = [] ∧ (∀ p ∈ mem.pend, p.dlogHeld = false) ∧
    regsAnswer mem = true ∧ (vdOf mem 0).bound = true ∧ (vdOf mem 0).empty = false ∧ (vdOf { mem with vds := updIf (fun v => v.num == 0) (fun v => { v with ldFrozen := true }) mem.vds } 0).ldFrozen = true := by decide
/-- CTEST and CWAIT while their fibre loads the words they read, and without; QPUT and its like while a load of the strand is not performed. -/
def loadingWord : State := { request 0 with pend := [pend0 (.load 20 .z32 false false .normal false) [lane0 0x100040 [0, 0, 0, 0]]] }
theorem witness_own_work : ∀ i ∈ [Instr.cwait cw, .ctest cw], IssuesIn i loadingWord ∧ acquiring (uOf i loadingWord) (tOf loadingWord) = none ∧
    checkedB (Need.plain true false) (tOf loadingWord) (xOf loadingWord) (uOf i loadingWord) (cwLanes (eOf i loadingWord)) = true ∧
    ownWork (eOf i loadingWord) [(0x100040, 8), (0x100008, 4)] (uOf i loadingWord) = [9] ∧ ownWork (eOf i (request 0)) [(0x100040, 8), (0x100008, 4)] (uOf i (request 0)) = [] := fun i h => by
  have := List.all_eq_true.mp (by decide : ([Instr.cwait cw, .ctest cw].all fun i => issuesB i loadingWord && (acquiring (uOf i loadingWord) (tOf loadingWord)).isNone &&
    checkedB (Need.plain true false) (tOf loadingWord) (xOf loadingWord) (uOf i loadingWord) (cwLanes (eOf i loadingWord)) &&
    decide (ownWork (eOf i loadingWord) [(0x100040, 8), (0x100008, 4)] (uOf i loadingWord) = [9]) &&
    decide (ownWork (eOf i (request 0)) [(0x100040, 8), (0x100008, 4)] (uOf i (request 0)) = [])) = true) i h
  simp only [Bool.and_eq_true, decide_eq_true_eq, Option.isNone_iff_eq_none] at this
  exact ⟨(issues_of this.1.1.1.1).2, this.1.1.1.2, this.1.1.2, this.1.2, this.2⟩
def loaded : State := { mem with pend := [pend0 (.load 20 .z32 false false .normal false) [lane0 0x100040 [0, 0, 0, 0]]] }
theorem witness_put_loads : ∀ p ∈ puts, IssuesIn p.1 loaded ∧ acquiring (uOf p.1 loaded) (tOf loaded) = none ∧ loadsOf (uOf p.1 loaded) (tOf loaded) = [9] ∧
    loadsOf (uOf p.1 (storing mem)) (tOf (storing mem)) = [] ∧ ∀ w ∈ [0, 16], loadsOf (uOf p.1 (queue p.2 4 w 0)) (tOf (queue p.2 4 w 0)) = [] := fun p h => by
  have := List.all_eq_true.mp (by decide : (puts.all fun p => issuesB p.1 loaded && (acquiring (uOf p.1 loaded) (tOf loaded)).isNone &&
    decide (loadsOf (uOf p.1 loaded) (tOf loaded) = [9]) && decide (loadsOf (uOf p.1 (storing mem)) (tOf (storing mem)) = []) &&
    [0, 16].all (fun w => decide (loadsOf (uOf p.1 (queue p.2 4 w 0)) (tOf (queue p.2 4 w 0)) = []))) = true) p h
  simp only [Bool.and_eq_true, decide_eq_true_eq, Option.isNone_iff_eq_none] at this
  exact ⟨(issues_of this.1.1.1.1).2, this.1.1.1.2, this.1.1.2, this.1.2, fun w hw => of_decide_eq_true (List.all_eq_true.mp this.2 w hw)⟩
/-- FEEDPOP issued again after a sleep: its first issue read its address; records to be delivered again, one whose fault is still waited for. -/
def popped : State :=
  { queue 0 4 1 0 with pend := [{ pend0 (.feedpop 16 true 0x100000) [Lane.mk0 0 0 0] with pc := (tOf mem).pc, ops := [(0, 0x100000, 0, 0)] }] }
theorem witness_pop_again : IssuesIn (.feedpop fp0) popped ∧ (openPop (uOf (.feedpop fp0) popped) (tOf popped)).isSome = true ∧
    popAddr fp0 (eOf (.feedpop fp0) popped) (uOf (.feedpop fp0) popped) = 0x100000 ∧
    checkedB (Need.plain true true) (tOf popped) (xOf popped) (uOf (.feedpop fp0) popped) (atDesc (eOf (.feedpop fp0) popped)) = true :=
  ⟨(issues_of (by decide)).2, by decide, by decide, by decide⟩
theorem witness_requeued : (popIndex { queue 0 4 1 0 with requeued := [(0x100000, 7, some 77)], tokens := [{ value := 77, host := false, stops := .strand 3 }] } 0x100000).map (fun r => r.2) = some 0 ∧
    (popIndex { queue 0 4 1 0 with requeued := [(0x100000, 7, some 77)] } 0x100000).map (fun r => r.2) = some 7 := by decide
/-- SYSRD of the GTB behind an acquire; WLD's line at rest. -/
theorem witness_sysrd_acquires : IssuesIn (.sysrd { c := k0, d := 6, sel := 0 }) acquiring0 ∧
    (acquiring (uOf (.sysrd { c := k0, d := 6, sel := 0 }) acquiring0) (tOf acquiring0)).isSome = true := ⟨(issues_of (by decide)).2, by decide⟩
theorem witness_lines_rest : lineBusy (arFlying (.wld 16 .normal false) [lane0 0x100000 []]) (0x100000 / 128) = false ∧ (xOf mem).retired = false ∧
    lineBusy (moving copyPkt []) (0x103000 / 128) = false := by decide
/-- The pieces of a copy of 128 bytes: a whole line. -/
theorem witness_whole_lines : WholeLines [0x103000 / 128] [(0x103000, 128)] ∧ ([(0x103000, 128)].map (fun q => q.2)).sum = 128 ∧
    [(0x103000, 128)].Pairwise (fun q r => q.1 + q.2 ≤ r.1 ∨ r.1 + r.2 ≤ q.1) := ⟨fun l h => ⟨(0x103000, 128), by simp, by simp_all⟩, rfl, by simp⟩

end Sys2Proof.Tests
end

section
/-! SUPPORT. Reset values (O22), and how a step comes to the instruction that it executes (O20). -/
namespace Sys2Proof.Machine

/-- Settles O22: each value is read off the reset records; what holds of every mill or VD is checked on each of them. -/
theorem resetValues : Obligations.ResetValues := by
  unfold Obligations.ResetValues
  have contexts : ∀ v n, let c := Ctx.create v n
      c.fpctl = 0 ∧ c.ractl = 0x0100000000000000 ∧ c.fair = 0x200 ∧ c.lease = 0x400 ∧ c.sched = 0x10000 ∧ c.tvec = 0 ∧ c.dbg = 0 ∧
        c.array = 0 ∧ c.pin = 0 ∧ c.save = 1 ∧ c.jacc = 0 ∧ c.mtr = 0 ∧ c.bkt.lvl = 0 :=
    fun _ _ => ⟨rfl, rfl, rfl, rfl, rfl, rfl, rfl, rfl, rfl, rfl, rfl, rfl, rfl⟩
  have noStrand : ∀ r ∈ State.reset.strands, r.active = true → r.st = .ready := fun r h => absurd h List.not_mem_nil
  refine ⟨⟨contexts, ?mills, ?vds, rfl, rfl, rfl, ?ports, rfl, rfl, rfl, rfl, rfl, rfl, rfl, rfl⟩, noStrand⟩
  case mills => decide
  case vds => decide
  case ports => decide

/-! ### What a step turns out to do -/

/-- With nothing due and no input that can be taken now, the package itself decides. -/
theorem pick_own {s : State} (hdue : dueFirst s = none) (hin : ∀ ev, s.inputs.head? = some ev → hostHeld s ev = true) : pick s = pickOwn s := by
  unfold pick
  rw [hdue]
  cases h : s.inputs with
  | nil => rfl
  | cons ev rest => simp [hin ev (by simp [h])]

theorem pickOwn_strand {s : State} {k : Nat} (h : nextTurn s (turns s) = some (.strand k)) :
    pickOwn s = turn { s with passed := passedBy s (turns s) (.strand k) } k := by
  unfold pickOwn
  rw [h]

theorem nowSkein_of_found {s : State} {k : Nat} {x : Skein} (h : skein? s k = some x) : nowSkein s x = x := by
  simp [nowSkein, skein?_id s k x h, h]

/-- A strand in runahead, or to which no access has left a trap, takes none at its turn. -/
theorem no_trap_left {t : Strand} (h : t.ra = none → t.arith = []) : (if t.ra.isNone then t.arith else []) = [] := by
  cases hra : t.ra <;> simp [h, hra]

/-- A strand inside a clause, with no trap left to it: the instruction at its PC is executed. -/
theorem turn_in_clause {s : State} {k : Nat} {t : Strand} {x : Skein} {c : Clause} {v : State} {i : Instr} (hf : fetchDecode s t x = (v, some i))
    (ht : strand? s k = some t) (hx : skein? s t.skein = some x) (harith : t.ra = none → t.arith = []) (hc : t.clause = some c) :
    turn s k = .exec i (noWait (dropFaulted { v with cur := some t.id } t) t.id) := by
  unfold turn
  simp only [ht, hx, no_trap_left harith, hc, nowSkein_of_found hx, hf]

/-- A strand at a clause start whose header lets it pass, as r in u: the instruction at r's PC is executed. -/
theorem turn_at_header {s : State} {k : Nat} {t r : Strand} {x : Skein} {u v : State} {i : Instr} (ht : strand? s k = some t)
    (hx : skein? s t.skein = some x) (harith : t.ra = none → t.arith = []) (hc : t.clause = none) (hp : passHeader s t x = (u, some r))
    (hf : fetchDecode u r (nowSkein u x) = (v, some i)) :
    turn s k = .exec i (noWait (dropFaulted { v with cur := some r.id } r) r.id) := by
  unfold turn
  simp only [ht, hx, no_trap_left harith, hc, hp, hf]

/-- Bytes at the PC that make up an instruction: it is the one decoded, and its word is recorded. -/
theorem fetchDecode_ok {s u : State} {t : Strand} {x : Skein} {block : List Byte} {i : Instr} (hb : blockAt s t x = (u, .ok block))
    (hlen : lenBytes (BitVec.ofNat 2 (leNat ((fetchFrom t.pc block).take 8))) ≤ (fetchFrom t.pc block).length)
    (hd : decode (privOf u t x) (fetchFrom t.pc block) = .ok i) :
    fetchDecode s t x =
      ({ u with word := (fetchFrom t.pc block).take (lenBytes (BitVec.ofNat 2 (leNat ((fetchFrom t.pc block).take 8)))) }, some i) := by
  unfold fetchDecode
  simp only [hb, hd, if_neg (Nat.not_lt.mpr hlen)]

theorem step_exec {s w : State} {i : Instr} (h : pick s = .exec i w) : step s = stepOut s w (exec i w) := by
  unfold step
  rw [h]

/-- Settles O20: `pick` comes to the strand's turn, `turn` to `fetchDecode`, and that to the decoded instruction. -/
theorem stepRunsTheDecodedInstruction : Obligations.StepRunsTheDecodedInstruction := by
  unfold Obligations.StepRunsTheDecodedInstruction
  refine ⟨?word, ?header, ?input, ?due, fun _ _ _ => rfl, fun _ _ _ => rfl⟩
  case word =>
    intro s t x c u block i hdue hin hnext ht hx harith hc hb bs n hlen hd w
    refine step_exec ((pick_own hdue hin).trans ((pickOwn_strand hnext).trans ?_))
    exact turn_in_clause (fetchDecode_ok hb hlen hd) ht hx harith hc
  case header =>
    intro s t x u r v i hdue hin hnext ht hx harith hc hp hf w
    refine step_exec ((pick_own hdue hin).trans ((pickOwn_strand hnext).trans ?_))
    exact turn_at_header ht hx harith hc hp hf
  case input =>
    intro s ev rest hdue hin hheld
    exact step_exec (by simp [pick, hdue, hin, hheld])
  case due =>
    intro s i hdue
    exact step_exec (by simp [pick, hdue])
end Sys2Proof.Machine
end


section
/-! SUPPORT. Which VDs there are, which are bound and which are ending (17 R388, R390): no access, translation, fault record, end of a packet, of a context or of a
lot changes it. -/
namespace Sys2Proof.Machine

/-- A VD's number, whether it is bound and whether it is ending. -/
def Vd.standing (v : Vd) : Nat × Bool × Bool := (v.num, v.bound, v.ending)
def standings (l : List Vd) : List (Nat × Bool × Bool) := l.map Vd.standing

theorem standings_updIf (p : Vd → Bool) (f : Vd → Vd) (l : List Vd) (hf : ∀ v, (f v).standing = v.standing) : standings (updIf p f l) = standings l :=
  map_updIf_bare Vd.standing p f l hf

theorem standings_map (f : Vd → Vd) (l : List Vd) (hf : ∀ v, (f v).standing = v.standing) : standings (l.map f) = standings l := by
  simp [standings, Function.comp_def, hf]

theorem standings_updVd (s : State) (n : Nat) (f : Vd → Vd) (hf : ∀ v, (f v).standing = v.standing) : standings (updVd s n f).vds = standings s.vds :=
  standings_updIf _ f s.vds hf

/-- What no round of a fold changes, the fold does not change. -/
theorem foldl_keeps {σ α β : Type} (g : σ → β) (f : σ → α → σ) (hf : ∀ s a, g (f s a) = g s) (l : List α) : ∀ s, g (l.foldl f s) = g s := by
  induction l with
  | nil => exact fun s => rfl
  | cons a l ih => exact fun s => (ih (f s a)).trans (hf s a)

theorem standings_foldl {α : Type} (f : State → α → State) (hf : ∀ s a, standings (f s a).vds = standings s.vds) (l : List α) (s : State) :
    standings (l.foldl f s).vds = standings s.vds := foldl_keeps (fun u => standings u.vds) f hf l s

/-- What a VD of a number stands as, by the standings alone. -/
theorem vdOf_standing (s : State) (n : Nat) : (vdOf s n).standing = ((standings s.vds).find? (fun e => e.1 == n)).getD (n, false, false) := by
  have hfind : (standings s.vds).find? (fun e => e.1 == n) = (s.vds.find? (fun v => v.num == n)).map Vd.standing := List.find?_map
  unfold vdOf
  rw [hfind]
  cases s.vds.find? (fun v => v.num == n) <;> rfl

theorem vdOf_standing_congr {s u : State} (h : standings u.vds = standings s.vds) (n : Nat) : (vdOf u n).standing = (vdOf s n).standing := by
  rw [vdOf_standing, vdOf_standing, h]

/-! ### Charges and memory -/

@[simp] theorem standings_charge (s : State) (a : Acct) (d c n : Nat) : standings (charge s a d c n).vds = standings s.vds := by
  obtain ⟨v, k⟩ := a
  unfold charge
  dsimp only
  split
  · rfl
  · cases k with
    | none =>
      refine (standings_updIf _ _ _ ?_).trans (standings_updIf _ _ _ ?_)
      · exact fun _ => rfl
      · exact fun _ => rfl
    | some k =>
      refine standings_updIf _ _ _ ?_
      exact fun _ => rfl

@[simp] theorem writeSpa_vds (s : State) (a : Nat) (bs : List Byte) : (writeSpa s a bs).vds = s.vds := by
  unfold writeSpa
  split <;> rfl

@[simp] theorem ringWrite_vds (s : State) (r : Ring) (n : Nat) (bs : List Byte) : (ringWrite s r n bs).vds = s.vds := writeSpa_vds s _ bs

@[simp] theorem standings_fabSend (s : State) (a : Acct) (n : Nat) : standings (fabSend s a n).1.vds = standings s.vds := by
  unfold fabSend
  dsimp only
  split <;> simp [setLink]

@[simp] theorem standings_fabTrip (s : State) (a : Acct) : standings (fabTrip s a).vds = standings s.vds := by simp [fabTrip]

@[simp] theorem standings_hbmRead (s : State) (a : Acct) (line : Nat) : standings (hbmRead s a line).vds = standings s.vds := by
  unfold hbmRead
  dsimp only
  split
  · exact standings_foldl _ (fun u n => standings_charge u _ _ _ _) _ s
  · simp

@[simp] theorem standings_hbmPut (s : State) (a : Acct) (line : Nat) (full : Bool) : standings (hbmPut s a line full).vds = standings s.vds := by
  unfold hbmPut
  dsimp only
  repeat' split
  all_goals simp

@[simp] theorem standings_writeBack (s : State) (a : Acct) (x : L2Line) : standings (writeBack s a x).vds = standings s.vds := by
  unfold writeBack
  split
  · dsimp only [updL2]
    split <;> simp [hbmWrite]
  · rfl

@[simp] theorem standings_l2Evict (s : State) (a : Acct) (line : Nat) : standings (l2Evict s a line).vds = standings s.vds := by
  unfold l2Evict
  split <;> simp [l2Drop]

@[simp] theorem standings_l2Fill (s : State) (a : Acct) (line : Nat) (noal : Bool) (ep : Ep) (ra : Bool) :
    standings (l2Fill s a line noal ep ra).vds = standings s.vds := by
  unfold l2Fill
  dsimp only
  split
  · split <;> simp
  · dsimp only
    split <;> simp

@[simp] theorem hintL2_vds (s : State) (line : Nat) (ep : Ep) : (hintL2 s line ep).vds = s.vds := by
  unfold hintL2
  split <;> rfl

@[simp] theorem standings_l2Access (s : State) (a : Acct) (line : Nat) (write noal : Bool) (ep : Ep) (ra : Bool) :
    standings (l2Access s a line write noal ep ra).1.vds = standings s.vds := by
  unfold l2Access
  dsimp only
  split
  · simp only [hintL2_vds, updL2]
    repeat' split
    all_goals simp
  · split
    · simp
    · split
      · dsimp only
        split <;> simp [hbmWrite]
      · dsimp only
        split <;> simp

@[simp] theorem standings_engineLine (s : State) (a : Acct) (line : Nat) (write uncached : Bool) :
    standings (engineLine s a line write uncached).vds = standings s.vds := by
  unfold engineLine
  split <;> simp

@[simp] theorem standings_writePieces (a : Acct) (uncached : Bool) (ps : List (Nat × Nat)) :
    ∀ (s : State) (bs : List Byte) (g : BitVec 64), standings (writePieces a uncached s ps bs g).1.vds = standings s.vds := by
  induction ps with
  | nil => exact fun _ _ _ => rfl
  | cons p ps ih =>
    intro s bs g
    rw [writePieces]
    simp [ih]

/-! ### Halting and stopping -/

@[simp] theorem raEnd_vds (s : State) (t : Strand) (st : StrandState) : (raEnd s t st).vds = s.vds := by
  unfold raEnd
  split <;> rfl

@[simp] theorem standings_haltHank (s : State) (id : Nat) (why : HaltWhy) (mig : Bool) : standings (haltHank s id why mig).vds = standings s.vds := by
  unfold haltHank
  split
  · rfl
  · dsimp only
    split
    · exact standings_foldl _ (fun u t => congrArg standings (raEnd_vds u t .held)) _ _
    · rfl
    · rfl

@[simp] theorem standings_haltCtx (s : State) (vd ctx : Nat) (why : HaltWhy) : standings (haltCtx s vd ctx why).vds = standings s.vds :=
  standings_foldl _ (fun u h => standings_haltHank u h why false) _ s

@[simp] theorem standings_stopVd (s : State) (vd reason : Nat) : standings (stopVd s vd reason).vds = standings s.vds := by
  unfold stopVd haltVd
  exact (standings_foldl _ (fun u h => standings_haltHank u h _ _) _ _).trans (standings_updVd s vd _ fun _ => rfl)

/-! ### Translation -/

@[simp] theorem pteSet_vds (s : State) (a b : Nat) : (pteSet s a b).vds = s.vds := by
  unfold pteSet
  dsimp only
  split <;> simp

@[simp] theorem pteAccess_vds (s : State) (pf : Bool) (a : Nat) : (pteAccess s pf a).vds = s.vds := by
  unfold pteAccess
  split <;> simp

@[simp] theorem standings_s2Dirty (s : State) (vd l g lg : Nat) : standings (s2Dirty s vd l g lg).1.vds = standings s.vds := by
  unfold s2Dirty
  dsimp only
  split
  · rfl
  · split
    · simp
    · split
      · dsimp only
        split <;> simp
      · refine (standings_updVd _ vd _ ?_).trans ?_
        · exact fun _ => rfl
        · simp

@[simp] theorem standings_walkEnd (s : State) (q : XReq) (used : List (Nat × Nat × Nat)) (l1 l2 : Leaf) (gpa : Nat) :
    standings (walkEnd s q used l1 l2 gpa).1.vds = standings s.vds := by
  have hdirty : ∀ (u : State) (g : Nat) (r : State × Bool), s2Dirty u q.vd l2.at_ g l2.lg = r → standings r.1.vds = standings u.vds :=
    fun u g r he => he ▸ standings_s2Dirty u _ _ _ _
  unfold walkEnd
  dsimp only
  split
  · split
    · rename_i he
      simpa using hdirty _ _ _ he
    · rename_i he
      simpa using hdirty _ _ _ he
  · simp

@[simp] theorem standings_walk (s : State) (q : XReq) : standings (walk s q).1.vds = standings s.vds := by
  have hlocks : (walkLocks s).vds = s.vds := by unfold walkLocks; split <;> rfl
  have hused : ∀ (l : List (Nat × Nat × Nat)) (u : State), standings (l.foldl (fun u a => pteAccess u q.pf a.1) u).vds = standings u.vds :=
    standings_foldl _ fun u a => congrArg standings (pteAccess_vds u _ _)
  rw [← hlocks]
  unfold walk
  generalize walkLocks s = s
  unfold walkIn
  dsimp only
  split
  · simp [hused]
  · split <;> simp [hused]

@[simp] theorem standings_xlate (s : State) (q : XReq) : standings (xlate s q none none).1.vds = standings s.vds := by
  unfold xlate
  split <;> simp

/-- The state that a translation of pieces leaves. -/
def PiecesOut.state : PiecesOut → State
  | .ok s _ _ | .held s | .bad s _ => s

@[simp] theorem standings_xlatePieces (q : BitVec 64 → XReq) (path : Nat) (ps : List (BitVec 64 × Nat)) :
    ∀ s, standings (xlatePieces q path s ps).state.vds = standings s.vds := by
  induction ps with
  | nil => exact fun _ => rfl
  | cons p ps ih =>
    intro s
    have hx := standings_xlate s (q p.1)
    rw [xlatePieces]
    generalize xlate s (q p.1) none none = r at hx ⊢
    obtain ⟨s1, o⟩ := r
    cases o with
    | err e => exact hx
    | ok a t held w =>
      dsimp only
      split
      · exact hx
      · have hi := ih s1
        generalize xlatePieces q path s1 ps = o at hi ⊢
        cases o <;> exact hi.trans hx

/-! ### Fault records -/

@[simp] theorem standings_setFltRing (s : State) (q : FltQueue) (r : Ring) : standings (setFltRing s q r).vds = standings s.vds := by
  cases q with
  | vd n => exact standings_updVd s n _ fun _ => rfl
  | host => rfl

@[simp] theorem standings_fltWrite (s : State) (w : FltWait) : standings (fltWrite s w).vds = standings s.vds := by
  unfold fltWrite
  dsimp only
  repeat' split
  all_goals simp

@[simp] theorem standings_fltPost (s : State) (vd : Nat) (w : FltWait) : standings (fltPost s vd w).vds = standings s.vds := by
  unfold fltPost
  dsimp only
  split
  · split
    · exact standings_updVd _ vd _ fun _ => rfl
    · rfl
  · simp [bbox]

@[simp] theorem logData_vds (s : State) (f : Flt) : (logData s f).vds = s.vds := by
  unfold logData
  split <;> rfl

@[simp] theorem standings_postEngine (s : State) (m : Master) (f : Flt) : standings (postEngine s m f).vds = standings s.vds := by
  unfold postEngine
  dsimp only
  split <;> simp

@[simp] theorem standings_postPage (s : State) (m : Master) (f : Flt) (st : Stopped) : standings (postPage s m f st).1.vds = standings s.vds := by
  simp [postPage]

@[simp] theorem standings_errqPut (s : State) (vd code qid slot detail : Nat) : standings (errqPut s vd code qid slot detail).vds = standings s.vds := by
  unfold errqPut
  dsimp only
  split
  · rfl
  · split
    · exact standings_updVd s vd _ fun _ => rfl
    · refine (standings_updVd _ vd _ ?_).trans ?_
      · exact fun _ => rfl
      · simp

/-! ### The end of a packet -/

@[simp] theorem putQueue_vds (s : State) (q : QueueFE) : (putQueue s q).vds = s.vds := by
  unfold putQueue
  split <;> rfl

@[simp] theorem pktGone_vds (s : State) (p : BtePkt) : (pktGone s p).vds = s.vds := by simp [pktGone]

@[simp] theorem standings_errPkt (s : State) (p : BtePkt) (st : BitVec 32) : standings (errPkt s p st).vds = standings s.vds := by simp [errPkt]

/-- The state that a write of a completion block leaves. -/
def BlockOut.state : BlockOut → State
  | .ok s | .held s | .bad s _ => s

@[simp] theorem standings_blockWrite (s : State) (p : BtePkt) (off : Nat) (bs : List Byte) (or : Bool) :
    standings (blockWrite s p off bs or).state.vds = standings s.vds := by
  have hx := standings_xlatePieces (pktReq s p true) 1 (piecesOf (p.cmpl + BitVec.ofNat 64 off) bs.length) s
  unfold blockWrite
  dsimp only
  generalize xlatePieces (pktReq s p true) 1 s (piecesOf (p.cmpl + BitVec.ofNat 64 off) bs.length) = o at hx ⊢
  cases o with
  | held s1 => exact hx
  | bad s1 f => exact hx
  | ok s1 ps u =>
    dsimp only
    split
    · exact hx
    · exact (by simp [BlockOut.state, noteGw] : _ = standings s1.vds).trans hx

@[simp] theorem standings_pktFinish (s : State) (p : BtePkt) (st : BitVec 32) : standings (pktFinish s p st).vds = standings s.vds := by
  unfold pktFinish
  dsimp only
  split
  · split <;> simp
  · have hb := standings_blockWrite s p 8 (toBytes 4 st.toNat) false
    generalize blockWrite s p 8 (toBytes 4 st.toNat) false = o at hb ⊢
    cases o with
    | ok s1 => exact (congrArg standings (pktGone_vds s1 p)).trans hb
    | held s1 => exact hb
    | bad s1 f =>
      have hb : standings s1.vds = standings s.vds := hb
      rw [← hb]
      dsimp only
      split <;> simp [setPkt, bboxFree, bbox]

/-! ### The end of contexts and lots -/

@[simp] theorem noteGran_vds (s : State) (h : Hank) (upto : BitVec 64) : (noteGran s h upto).vds = s.vds := by
  unfold noteGran
  split
  · rfl
  · split <;> rfl

@[simp] theorem dropHank_vds (s : State) (h : Hank) (retired : Bool) : (dropHank s h retired).vds = s.vds := by simp [dropHank]

@[simp] theorem standings_endCtx (s : State) (vd n : Nat) : standings (endCtx s vd n).vds = standings s.vds := by
  unfold endCtx
  split
  · rfl
  · exact (standings_foldl _ (fun u h => by simp) _ _).trans (by simp)

@[simp] theorem standings_cpWrite (s : State) (d : Nat) (va : BitVec 64) (bs : List Byte) (add : Option (BitVec 64)) :
    standings (cpWrite s d va bs add).vds = standings s.vds := by
  unfold cpWrite
  dsimp only
  split
  · exact standings_updVd _ _ _ fun _ => rfl
  · rfl

@[simp] theorem standings_lotReport (s : State) (d : Nat) (cmpl sig val : BitVec 64) (add : Bool) (rec : List Byte) :
    standings (lotReport s d cmpl sig val add rec).vds = standings s.vds := by
  unfold lotReport
  dsimp only
  repeat' split
  all_goals simp

@[simp] theorem standings_settleEnding (s : State) : standings (settleEnding s).vds = standings s.vds := by
  refine standings_foldl _ (fun u c => ?_) _ s
  split
  · exact standings_foldl _ (fun w l => by simp [lotComplete]) _ u
  · split <;> rfl

@[simp] theorem standings_unmapVd (s : State) (vd : Nat) : standings (unmapVd s vd).vds = standings s.vds := by
  unfold unmapVd
  dsimp only
  refine (standings_updVd _ vd _ ?_).trans (standings_foldl _ ?_ _ s)
  · exact fun _ => rfl
  · exact fun u e => by simp [setDescFlag]

end Sys2Proof.Machine
end


section
/-! SUPPORT. What a register reads after a field of it, a VD, a mill, a domain or a context is written; and what is left of memory where keys are thrown away. -/
namespace Sys2Proof.Machine

/-! ### Fields of a word -/

theorem getLsbD_setBits {w n : Nat} (x : BitVec w) (lo : Nat) (v : BitVec n) (i : Nat) (hi : i < w) :
    (setBits x lo v).getLsbD i = if lo ≤ i ∧ i < lo + n then v.getLsbD (i - lo) else x.getLsbD i := by
  unfold setBits
  simp only [BitVec.getLsbD_or, BitVec.getLsbD_and, BitVec.getLsbD_not, BitVec.getLsbD_shiftLeft, BitVec.getLsbD_setWidth, BitVec.getLsbD_allOnes, hi]
  by_cases hlo : lo ≤ i
  · by_cases hn : i - lo < n
    · have : lo ≤ i ∧ i < lo + n := by omega
      simp [this, hn, show ¬ i < lo by omega, show i - lo < w by omega]
    · have : ¬ (lo ≤ i ∧ i < lo + n) := by omega
      simpa [this, hn, show ¬ i < lo by omega] using fun _ hv => absurd (BitVec.lt_of_getLsbD hv) hn
  · simp [hlo, show i < lo by omega]

theorem bits_setBits {w n : Nat} (x : BitVec w) (lo : Nat) (v : BitVec n) (h : lo + n ≤ w) : bits (setBits x lo v) lo n = v := by
  refine BitVec.eq_of_getLsbD_eq fun i hi => ?_
  rw [bits, BitVec.getLsbD_extractLsb', getLsbD_setBits _ _ _ _ (by omega)]
  simp [hi]

/-! ### Parts of the state -/

/-- What is found under a key after every element under that key has been rewritten, its key kept. -/
theorem find?_updIf_self {α : Type} (p : α → Bool) (f : α → α) (hp : ∀ a, p (f a) = p a) (l : List α) : (updIf p f l).find? p = (l.find? p).map f := by
  rw [find?_updIf p p f hp]
  cases h : l.find? p with
  | none => rfl
  | some a => simp [List.find?_some h]

/-- Replacing every element that p holds of by one that it holds of. -/
theorem find?_updIf_const {α : Type} (p : α → Bool) (d : α) (hd : p d = true) (l : List α) (h : ∃ x ∈ l, p x = true) :
    (updIf p (fun _ => d) l).find? p = some d := by
  induction l with
  | nil => simp at h
  | cons y l ih =>
    by_cases hy : p y = true
    · simp [updIf, hy, hd]
    · have : ∃ x ∈ l, p x = true := by simpa [hy] using h
      simpa [updIf, hy] using ih this

theorem vdOf_updVd {s : State} {n : Nat} {f : Vd → Vd} (h : ∃ d ∈ s.vds, d.num = n) (hf : ∀ v, (f v).num = v.num) : vdOf (updVd s n f) n = f (vdOf s n) := by
  have hfind : (updVd s n f).vds.find? (fun v => v.num == n) = (s.vds.find? (fun v => v.num == n)).map f :=
    find?_updIf_self _ f (fun v => by simp [hf]) s.vds
  obtain ⟨d, hd, hn⟩ := h
  have hsome : (s.vds.find? (fun v => v.num == n)).isSome = true := List.find?_isSome.mpr ⟨d, hd, by simp [hn]⟩
  obtain ⟨v, hv⟩ := Option.isSome_iff_exists.mp hsome
  unfold vdOf
  rw [hfind, hv]
  rfl

theorem domOf_setDom {s : State} {d : Dom} (h : ∃ x ∈ s.doms, x.num = d.num) : domOf (setDom s d) d.num = d := by
  have hfind : (setDom s d).doms.find? (fun u => u.num == d.num) = some d := find?_updIf_const _ d (by simp) s.doms (by simpa using h)
  simp [domOf, hfind]

theorem ctx?_updCtx {s : State} {v n : Nat} {c : Ctx} {f : Ctx → Ctx} (h : ctx? s v n = some c) (hf : ∀ c, (f c).vd = c.vd ∧ (f c).num = c.num) :
    ctx? (updCtx s v n f) v n = some (f c) := by
  unfold ctx? at h ⊢
  rw [updCtx_ctxs, find?_updIf_self _ _ (fun a => by simp [hf a]), h]
  rfl

/-- A VD that is bound is one of the state's. -/
theorem exists_of_bound {s : State} {n : Nat} (h : (vdOf s n).bound = true) : ∃ d ∈ s.vds, d.num = n := by
  unfold vdOf at h
  cases hf : s.vds.find? (fun v => v.num == n) with
  | none => simp [hf, Vd.reset] at h
  | some v => exact ⟨v, List.mem_of_find?_eq_some hf, by simpa using List.find?_some hf⟩

/-! ### Keys thrown away -/

theorem mget_filter_key {w : Nat} (p : Nat → Bool) (m : SMap w) (k : Nat) : mget (m.filter (fun e => p e.1)) k = if p k then mget m k else 0 := by
  induction m with
  | nil => simp [mget]
  | cons e t ih =>
    obtain ⟨a, v⟩ := e
    by_cases hk : k = a
    · subst hk
      by_cases hp : p k <;> simp [hp, mget, ih]
    · by_cases hp : p a <;> simp [hp, mget, ih, hk]

theorem mget_foreignBytes (m : SMap 8) (a : Nat) : mget (foreignBytes m) a = if 2 ^ 50 ≤ a then mget m a else 0 := by
  rw [foreignBytes, mget_filter_key (fun k => decide (2 ^ 50 ≤ k)) m a]
  simp only [decide_eq_true_eq]

/-- What is not device memory reads after a reset as before. -/
theorem mget_afterReset (n : Nat) (m : SMap 8) (hm : ∀ e ∈ m, e.2 ≠ 0) (a : Nat) (ha : 2 ^ 50 ≤ a) : mget (afterReset n m) a = mget m a := by
  induction m with
  | nil => rfl
  | cons e t ih =>
    obtain ⟨k, v⟩ := e
    have ht := ih fun e he => hm e (List.mem_cons_of_mem _ he)
    unfold afterReset at ht ⊢
    by_cases hk : a = k
    · subst hk
      have hv : v ≠ 0 := hm (a, v) List.mem_cons_self
      simp only [List.filterMap_cons, if_neg (Nat.not_lt.mpr ha), hv, if_false, mget, if_true]
    · by_cases hz : (if k < 2 ^ 50 then Config.afterReset n k else v) = 0
      · simp only [List.filterMap_cons, hz, if_true, ht, mget, hk, if_false]
      · simp only [List.filterMap_cons, hz, if_false, mget, hk, ht]

end Sys2Proof.Machine
end


section
/-! SUPPORT. Bring-up (18 R406 to R408): what each of its steps keeps, and how far it comes by the outcome of the image. -/
namespace Sys2Proof.Machine

/-- What no step of bring-up touches: strands, skeins and contexts, the GTB, memory, parity commits, the fuses, the boot count and READY. -/
structure BootKeeps (s v : State) : Prop where
  strands : v.strands = s.strands
  skeins : v.skeins = s.skeins
  ctxs : v.ctxs = s.ctxs
  gtb : v.gtb = s.gtb
  mem : v.mem = s.mem
  parity : v.hbm.parity = s.hbm.parity
  fuses : v.cp.fuses = s.cp.fuses
  count : v.cp.bootCount = s.cp.bootCount
  gtbRun : v.cp.gtbRun = s.cp.gtbRun
  ready : v.cp.boot.getLsbD 0 = s.cp.boot.getLsbD 0

theorem BootKeeps.refl (s : State) : BootKeeps s s := ⟨rfl, rfl, rfl, rfl, rfl, rfl, rfl, rfl, rfl, rfl⟩

theorem BootKeeps.trans {s u v : State} (h : BootKeeps s u) (k : BootKeeps u v) : BootKeeps s v :=
  ⟨k.strands.trans h.strands, k.skeins.trans h.skeins, k.ctxs.trans h.ctxs, k.gtb.trans h.gtb, k.mem.trans h.mem, k.parity.trans h.parity,
    k.fuses.trans h.fuses, k.count.trans h.count, k.gtbRun.trans h.gtbRun, k.ready.trans h.ready⟩

theorem BootKeeps.foldl {α : Type} (f : State → α → State) (h : ∀ s a, BootKeeps s (f s a)) (l : List α) : ∀ s, BootKeeps s (l.foldl f s) := by
  induction l with
  | nil => exact fun s => .refl s
  | cons a l ih => exact fun s => (h s a).trans (ih _)

theorem BootKeeps.bboxFree (s : State) (event : Nat) : BootKeeps s (bboxFree s event) := ⟨rfl, rfl, rfl, rfl, rfl, rfl, rfl, rfl, rfl, rfl⟩

/-- CODE of CPR_BOOT takes a value: READY stays. -/
theorem getLsbD_zero_setCode (x : BitVec 64) (c : BitVec 8) : (setBits x 8 c).getLsbD 0 = x.getLsbD 0 := by
  rw [getLsbD_setBits _ _ _ _ (by omega)]
  simp

theorem BootKeeps.setCode (s : State) (c : BitVec 8) : BootKeeps s { s with cp := { s.cp with boot := setBits s.cp.boot 8 c } } :=
  ⟨rfl, rfl, rfl, rfl, rfl, rfl, rfl, rfl, rfl, getLsbD_zero_setCode s.cp.boot c⟩

theorem BootKeeps.substitute (s : State) (n : Nat) : BootKeeps s (substitute s n) := by
  unfold Machine.substitute
  dsimp only
  split <;> exact ⟨rfl, rfl, rfl, rfl, rfl, rfl, rfl, rfl, rfl, rfl⟩

theorem BootKeeps.startCp (s : State) : BootKeeps s (startCp s) := ⟨rfl, rfl, rfl, rfl, rfl, rfl, rfl, rfl, rfl, rfl⟩

theorem BootKeeps.selfTest (s : State) (boot : BootInput) : BootKeeps s (selfTest s boot) := by
  have replaced : BootKeeps s ((sortNat (boot.failed.filter (fun n => decide (n < 576)))).foldl Machine.substitute s) := .foldl _ .substitute _ s
  unfold Machine.selfTest
  dsimp only
  generalize (sortNat (boot.failed.filter (fun n => decide (n < 576)))).foldl Machine.substitute s = u at replaced ⊢
  refine replaced.trans ?_
  split
  · exact ⟨rfl, rfl, rfl, rfl, rfl, rfl, rfl, rfl, rfl, getLsbD_zero_setCode u.cp.boot 6⟩
  · exact ⟨rfl, rfl, rfl, rfl, rfl, rfl, rfl, rfl, rfl, rfl⟩

/-! ### The image (steps 3 and 4) -/

/-- The image that a bring-up reads. -/
def bootImage (boot : BootInput) (fromHost : Bool) : Option FwImage := if fromHost then boot.host else boot.flash

theorem imageCode_lt (fu : Fuses) (img : Option FwImage) : imageCode fu img < 256 := by
  unfold imageCode
  split
  · omega
  · repeat' split
    all_goals omega

theorem exists_of_imageCode_zero {fu : Fuses} {img : Option FwImage} (h : imageCode fu img = 0) : ∃ f, img = some f := by
  cases img with
  | none => simp [imageCode] at h
  | some f => exact ⟨f, rfl⟩

/-- Loading changes the command processor only. -/
theorem loadFirmware_eq (s : State) (boot : BootInput) (h : Bool) : loadFirmware s boot h = { s with cp := (loadFirmware s boot h).cp } := by
  unfold loadFirmware
  dsimp only
  split <;> rfl

theorem loadFirmware_boot (s : State) (boot : BootInput) (h : Bool) :
    (loadFirmware s boot h).cp.boot = setBits s.cp.boot 8 (BitVec.ofNat 8 (imageCode s.cp.fuses (bootImage boot h))) := by
  unfold loadFirmware bootImage
  dsimp only
  split <;> rfl

theorem loadFirmware_cpstat (s : State) (boot : BootInput) (h : Bool) : (loadFirmware s boot h).cp.cpstat = s.cp.cpstat := by
  unfold loadFirmware
  dsimp only
  split <;> rfl

theorem BootKeeps.loadFirmware (s : State) (boot : BootInput) (h : Bool) : BootKeeps s (loadFirmware s boot h) := by
  have kept := BootKeeps.setCode s (BitVec.ofNat 8 (imageCode s.cp.fuses (bootImage boot h)))
  unfold Machine.loadFirmware
  dsimp only
  split
  · exact kept.trans ⟨rfl, rfl, rfl, rfl, rfl, rfl, rfl, rfl, rfl, rfl⟩
  · exact kept

/-- An accepted image stands in the TCM, and the CP's ENTRY is its own. -/
theorem loadFirmware_loaded (s : State) (boot : BootInput) (h : Bool) (hc : imageCode s.cp.fuses (bootImage boot h) = 0) :
    ∃ f, bootImage boot h = some f ∧ (loadFirmware s boot h).cp.entry = f.entry ∧ (loadFirmware s boot h).cp.tcm = msetAll s.cp.tcm 0 f.body := by
  obtain ⟨f, hf⟩ := exists_of_imageCode_zero hc
  refine ⟨f, hf, ?_⟩
  rw [hf] at hc
  unfold bootImage at hf
  simp [loadFirmware, hf, hc]

theorem bits_loadFirmware_boot (s : State) (boot : BootInput) (h : Bool) :
    bits (loadFirmware s boot h).cp.boot 8 8 = BitVec.ofNat 8 (imageCode s.cp.fuses (bootImage boot h)) := by
  rw [loadFirmware_boot, bits_setBits _ _ _ (by omega)]

theorem bootCode_loadFirmware (s : State) (boot : BootInput) (h : Bool) : bootCode (loadFirmware s boot h) = imageCode s.cp.fuses (bootImage boot h) := by
  rw [bootCode, bits_loadFirmware_boot, BitVec.toNat_ofNat, Nat.mod_eq_of_lt (imageCode_lt _ _)]

/-! ### Bring-up -/

/-- A bring-up begins: it is counted. -/
def countBoot (s : State) : State := { s with cp := { s.cp with bootCount := s.cp.bootCount + 1 } }

/-- Step 5: the device's identity is derived from its secret. -/
def identify (s : State) : State :=
  { s with cp := { s.cp with meterPub := Config.slhPublic s.cp.fuses.secret, devid := Config.shake256 (toBytes 64 (Config.slhPublic s.cp.fuses.secret).toNat) } }
/-- A bring-up as far as the image, and as far as the self-test. -/
def imageRead (s : State) (boot : BootInput) (h : Bool) : State := loadFirmware (bboxFree (countBoot s) 8) boot h
def imageTested (s : State) (boot : BootInput) (h : Bool) : State := selfTest (identify (imageRead s boot h)) boot

theorem bringUp_eq (s : State) (boot : BootInput) (h : Bool) :
    bringUp s boot h = if bootCode (imageRead s boot h) ≠ 0 then imageRead s boot h
      else if bootCode (imageTested s boot h) ≠ 0 then imageTested s boot h else startCp (imageTested s boot h) := rfl

theorem BootKeeps.identify (s : State) : BootKeeps s (identify s) := ⟨rfl, rfl, rfl, rfl, rfl, rfl, rfl, rfl, rfl, rfl⟩

theorem BootKeeps.bringUp (s : State) (boot : BootInput) (h : Bool) : BootKeeps (countBoot s) (bringUp s boot h) := by
  have read : BootKeeps (countBoot s) (imageRead s boot h) := (BootKeeps.bboxFree (countBoot s) 8).trans (.loadFirmware _ boot h)
  have tested : BootKeeps (countBoot s) (imageTested s boot h) := (read.trans (.identify _)).trans (.selfTest _ boot)
  rw [bringUp_eq]
  split
  · exact read
  · split
    · exact tested
    · exact tested.trans (.startCp _)

/-- A refused image: CODE says why and the CP does not run. -/
theorem bringUp_refused (s : State) (boot : BootInput) (h : Bool) (hc : imageCode s.cp.fuses (bootImage boot h) ≠ 0) :
    (bringUp s boot h).cp.cpstat = s.cp.cpstat ∧ bits (bringUp s boot h).cp.boot 8 8 = BitVec.ofNat 8 (imageCode s.cp.fuses (bootImage boot h)) := by
  have failed : bootCode (imageRead s boot h) ≠ 0 := by rwa [imageRead, bootCode_loadFirmware]
  rw [bringUp_eq, if_pos failed]
  exact ⟨loadFirmware_cpstat _ _ _, bits_loadFirmware_boot _ _ _⟩

/-- The self-test when no spindle has failed: CODE stays. -/
theorem selfTest_boot (s : State) (boot : BootInput) (hf : boot.failed = []) : (selfTest s boot).cp.boot = s.cp.boot := by
  unfold selfTest
  rw [hf]
  rfl

/-- An accepted image and no failed spindle: the CP runs and CODE is 0. -/
theorem bringUp_accepted (s : State) (boot : BootInput) (h : Bool) (hc : imageCode s.cp.fuses (bootImage boot h) = 0) (hf : boot.failed = []) :
    (bringUp s boot h).cp.cpstat = 1 ∧ bits (bringUp s boot h).cp.boot 8 8 = 0 := by
  have read : bits (imageRead s boot h).cp.boot 8 8 = 0 := (bits_loadFirmware_boot _ _ _).trans (congrArg (BitVec.ofNat 8) hc)
  have tested : (imageTested s boot h).cp.boot = (imageRead s boot h).cp.boot := selfTest_boot _ boot hf
  rw [bringUp_eq, if_neg (by simp [bootCode, read]), if_neg (by simp [bootCode, tested, read])]
  exact ⟨rfl, (congrArg (bits · 8 8) tested).trans read⟩

end Sys2Proof.Machine
end


section
/-! SUPPORT. What the host's accesses leave of memory and send back (17 R373, R374, R388, R389), and the binding of a VD (17 R388, R390). -/
namespace Sys2Proof.Machine

/-! ### Writes from outside -/

/-- An address in its local form stays as it is. -/
theorem normSpa_normSpa (s : State) (a : Nat) : normSpa s (normSpa s a) = normSpa s a := by
  have small : ¬ (a % 2 ^ 40 / 2 ^ 50 = 1 ∧ a % 2 ^ 40 / 2 ^ 40 % 1024 = ownPkg s) := by omega
  by_cases h : a / 2 ^ 50 = 1 ∧ a / 2 ^ 40 % 1024 = ownPkg s
  · have : normSpa s a = a % 2 ^ 40 := if_pos h
    rw [this]
    exact if_neg small
  · have : normSpa s a = a := if_neg h
    rw [this, this]

theorem normSpa_congr {s u : State} (h : u.fab = s.fab) (a : Nat) : normSpa u a = normSpa s a := by
  unfold normSpa ownPkg
  rw [h]

/-- What a write from outside does to a line before its bytes: a copy in L2 becomes dirty, or the line's stripe is locked. -/
def outsideMark (s : State) (l : Nat) : State :=
  if (l2Find s l).isSome then updL2 s l (fun x => { x with dirty := true })
  else if decide (l * 128 < 2 ^ 50) && stackState s (parityOf s (l * 128)) != 1 then
    { s with hbm := { s.hbm with parity := insNat (stripeOf s (l * 128)) s.hbm.parity } }
  else s

/-- What a write from outside leaves as it is but for its bytes. -/
def seenOutside (s : State) : SMap 8 × Fab × List Msg := (s.mem.bytes, s.fab, s.sent)

theorem seenOutside_outsideMark (s : State) (l : Nat) : seenOutside (outsideMark s l) = seenOutside s := by
  unfold outsideMark
  split
  · rfl
  · split <;> rfl

/-- A write from outside marks its lines, which leaves bytes, fabric and messages, and then writes its bytes. -/
theorem outsideWrite_eq (s : State) (a : Nat) (bs : List Byte) :
    ∃ u, u.mem.bytes = s.mem.bytes ∧ u.fab = s.fab ∧ u.sent = s.sent ∧ outsideWrite s a bs = writeSpa u a bs := by
  have kept := foldl_keeps seenOutside outsideMark seenOutside_outsideMark (upTo (a / 128) ((a + bs.length - 1) / 128 + 1 - a / 128)) s
  obtain ⟨hbytes, hfab, hsent⟩ : _ ∧ _ ∧ _ := by simpa [seenOutside] using kept
  exact ⟨_, hbytes, hfab, hsent, rfl⟩

theorem writeSpa_sent (s : State) (a : Nat) (bs : List Byte) : (writeSpa s a bs).sent = s.sent := by
  unfold writeSpa
  split <;> rfl

theorem outsideWrite_sent (s : State) (a : Nat) (bs : List Byte) : (outsideWrite s a bs).sent = s.sent := by
  obtain ⟨u, -, -, hs, he⟩ := outsideWrite_eq s a bs
  rw [he, writeSpa_sent, hs]

/-- Bytes written one after another: those are what they hold, every other byte is as before. -/
theorem BytesPut.of_msetAll {s v : State} {a : Nat} {bs : List Byte} (h : ∀ j, mget v.mem.bytes j = mget (msetAll s.mem.bytes a bs) j) : BytesPut s v a bs := by
  refine ⟨fun k b hk => ?_, fun k hk => ?_⟩
  · obtain ⟨hlt, hb⟩ := List.getElem?_eq_some_iff.mp hk
    rw [h, mget_msetAll, if_pos (by omega)]
    simp [hlt, hb]
  · rw [h, mget_msetAll, if_neg (by omega)]

theorem BytesPut.writeSpa (s : State) (a : Nat) (bs : List Byte) : BytesPut s (writeSpa s a bs) (normSpa s a) bs :=
  .of_msetAll fun j => writeSpa_get s a j bs

theorem BytesPut.outsideWrite (s : State) (a : Nat) (bs : List Byte) : BytesPut s (outsideWrite s a bs) (normSpa s a) bs := by
  obtain ⟨u, hm, hf, -, he⟩ := outsideWrite_eq s a bs
  refine .of_msetAll fun j => ?_
  rw [he, writeSpa_get, hm, normSpa_congr hf]

/-- A write of the host at an address in its local form. -/
theorem BytesPut.hostWrite (s : State) (a : Nat) (bs : List Byte) : BytesPut s (hostWrite s (normSpa s a) bs) (normSpa s a) bs := by
  have put : BytesPut s (Machine.hostWrite s (normSpa s a) bs) (normSpa s (normSpa s a)) bs := BytesPut.outsideWrite _ _ bs
  rwa [normSpa_normSpa] at put

theorem hostWrite_sent (s : State) (a : Nat) (bs : List Byte) : (hostWrite s a bs).sent = s.sent := outsideWrite_sent _ a bs

/-- The bytes of a number are those of what is left of it in as many bytes. -/
theorem toBytes_mod (n : Nat) : ∀ v, toBytes n (v % 2 ^ (8 * n)) = toBytes n v := by
  induction n with
  | zero => exact fun v => rfl
  | succ n ih =>
    intro v
    have hpow : 2 ^ (8 * (n + 1)) = 256 * 2 ^ (8 * n) := by rw [Nat.mul_add, Nat.pow_add]; omega
    have hlow : BitVec.ofNat 8 (v % 2 ^ (8 * (n + 1))) = BitVec.ofNat 8 v := by
      apply BitVec.eq_of_toNat_eq
      rw [BitVec.toNat_ofNat, BitVec.toNat_ofNat, hpow, Nat.mod_mul_right_mod]
    rw [toBytes, toBytes, hlow, hpow, Nat.mod_mul_right_div_self, ih]

/-! ### The host's requests -/

/-- A request that reaches memory is performed. -/
theorem hostGo_of_reaches {s : State} {a n : Nat} (h : HostReaches s a n) (write : Bool) (go : State → State) : hostGo s a n write go = .next (go s) := by
  obtain ⟨hend, hreach⟩ := h
  unfold hostGo
  rw [if_neg (Nat.not_lt.mpr hend)]
  by_cases hfar : 2 ^ 50 ≤ normSpa s a
  · exact if_pos hfar
  · obtain ⟨d, e, hd, he, hnum, hfrozen, hcap⟩ := hreach.resolve_left hfar
    rw [if_neg hfar, hd, he]
    simp [hnum, hfrozen, Nat.not_lt.mpr hcap]

/-- One that ends beyond the address space stops the machine. -/
theorem hostGo_beyond {s : State} {a n : Nat} (h : 2 ^ 52 < a + n) (write : Bool) (go : State → State) : hostGo s a n write go = .fault (.noSuchAddress a) :=
  if_pos h

/-- One to a local address that no bound VD holds is unsupported. -/
theorem hostGo_unbound {s : State} {a n : Nat} (hend : a + n ≤ 2 ^ 52) (hlocal : normSpa s a < 2 ^ 50) (hvd : hostVd s (normSpa s a) = none) (write : Bool)
    (go : State → State) : hostGo s a n write go = .next (unsupported s) := by
  unfold hostGo
  rw [if_neg (Nat.not_lt.mpr hend), if_neg (Nat.not_le.mpr hlocal), hvd]

/-! ### Binding -/

/-- A VD that begins to end is no longer bound, and is ending. -/
theorem vdOf_beginVdEnd {s : State} {n : Nat} (h : (vdOf s n).bound = true) :
    (vdOf (beginVdEnd s n) n).bound = false ∧ (vdOf (beginVdEnd s n) n).ending = true := by
  have unmapped : (vdOf (unmapVd s n) n).bound = true := (congrArg (fun e => e.2.1) (vdOf_standing_congr (standings_unmapVd s n) n)).trans h
  have ended := vdOf_updVd (f := fun v => { v with bound := false, ending := true, unmapped := [], withheld := [], ownHeld := [] })
    (exists_of_bound unmapped) (fun _ => rfl)
  have kept : standings (beginVdEnd s n).vds =
      standings (updVd (unmapVd s n) n (fun v => { v with bound := false, ending := true, unmapped := [], withheld := [], ownHeld := [] })).vds := by
    unfold beginVdEnd
    dsimp only
    rw [standings_settleEnding]
    refine (standings_foldl _ (fun u (c : Ctx) => standings_endCtx u n c.num) _ _).trans (standings_foldl _ (fun u p => ?_) _ _)
    split
    · exact standings_pktFinish _ _ _
    · rfl
  have standing := vdOf_standing_congr kept n
  rw [ended] at standing
  exact ⟨congrArg (fun e => e.2.1) standing, congrArg (fun e => e.2.2) standing⟩

end Sys2Proof.Machine
end


section
/-! SUPPORT. Writes of registers (17 R388, R389; 18 R408): which of them reach their register, what one that does comes to, and what some registers hold after it. -/
namespace Sys2Proof.Machine

/-! ### Which writes reach their register -/

theorem cpr_iff (reg : RegName) : RegName.cpr reg = true ↔ (∃ n, reg = .cprQslot n) ∨ reg = .cprBoot ∨ reg = .cprFwaddr := by
  cases reg <;> simp [RegName.cpr]

theorem regReached_iff (s : State) (reg : RegName) (fm : Bool) : regReached s reg fm = true ↔ s.cp.power = true ∧
    ((∃ n, reg = .cprQslot n) ∨ reg = .cprBoot ∨ reg = .cprFwaddr ∨ s.cp.boot.getLsbD 0 = true ∨ bits s.cp.boot 8 8 = 0) ∧
    (fm = true ∨ ∀ n, RegName.vd? reg = some n → (vdOf s n).bound = true) := by
  cases hpower : s.cp.power with
  | false =>
    have off : regReached s reg fm = false := by unfold regReached; rw [hpower, Bool.false_and, Bool.false_and]
    rw [off]
    exact ⟨fun h => absurd h Bool.false_ne_true, fun ⟨h, _⟩ => h⟩
  | true =>
    have block : (RegName.cpr reg || regsAnswer s) = true ↔
        (∃ n, reg = .cprQslot n) ∨ reg = .cprBoot ∨ reg = .cprFwaddr ∨ s.cp.boot.getLsbD 0 = true ∨ bits s.cp.boot 8 8 = 0 := by
      unfold regsAnswer
      rw [hpower, Bool.true_and, Bool.or_eq_true, Bool.or_eq_true, cpr_iff, beq_iff_eq, or_assoc, or_assoc]
    unfold regReached
    rw [hpower, Bool.true_and, Bool.and_eq_true, block, Bool.or_eq_true]
    cases RegName.vd? reg with
    | none => exact ⟨fun ⟨hblock, _⟩ => ⟨rfl, hblock, .inr nofun⟩, fun ⟨_, hblock, _⟩ => ⟨hblock, .inr rfl⟩⟩
    | some n =>
      refine ⟨fun ⟨hblock, hpage⟩ => ⟨rfl, hblock, hpage.imp_right fun hb k hk => ?_⟩, fun ⟨_, hblock, hpage⟩ => ⟨hblock, hpage.imp_right fun hb => hb n rfl⟩⟩
      cases hk
      exact hb

/-- While the device answers, what the FM-owned logical device or CP firmware writes reaches every register. -/
theorem regReached_of_answers {s : State} (h : regsAnswer s = true) (reg : RegName) : regReached s reg true = true := by
  have power : s.cp.power = true := by simp_all [regsAnswer]
  simp [regReached, power, h]

/-! ### What a write comes to -/

theorem registerWrite_unreached {s : State} {reg : RegName} {fm : Bool} (h : regReached s reg fm = false) (value : BitVec 64) :
    exec (.registerWrite reg value fm) s = .next s := by
  show execRegisterWrite reg value fm s = _
  simp [execRegisterWrite, h]

/-- A write that reaches a register of a VD's control page. -/
theorem registerWrite_vd {s u : State} {reg : RegName} {value : BitVec 64} {fm : Bool} (h : regReached s reg fm = true) (hu : vdRegWrite s fm value reg = some u) :
    exec (.registerWrite reg value fm) s = .next u := by
  show execRegisterWrite reg value fm s = _
  simp [execRegisterWrite, h, hu]

/-- A write that reaches a register of BAR2. -/
theorem registerWrite_bar2 {s : State} {reg : RegName} {value : BitVec 64} (h : regReached s reg true = true) (hu : vdRegWrite s true value reg = none) :
    exec (.registerWrite reg value true) s = .next (bar2Write s value reg) := by
  show execRegisterWrite reg value true s = _
  simp [execRegisterWrite, h, hu]

/-- What a VD's own driver writes to a register that is read-only to it, or that no page of its own holds, changes nothing. -/
theorem registerWrite_driver {s : State} {reg : RegName} {value : BitVec 64} (hu : vdRegWrite s false value reg = some s ∨ vdRegWrite s false value reg = none) :
    exec (.registerWrite reg value false) s = .next s := by
  show execRegisterWrite reg value false s = _
  obtain hu | hu := hu <;> simp [execRegisterWrite, hu]

/-- A register that the host writes and a VD's driver does not. -/
theorem registerWrite_hostOnly {s u : State} {reg : RegName} {value : BitVec 64} (h : regsAnswer s = true) (hhost : vdRegWrite s true value reg = some u)
    (hdriver : vdRegWrite s false value reg = some s) :
    Completes (.registerWrite reg value true) s (fun v => v = u) ∧ Completes (.registerWrite reg value false) s (fun v => v = s) :=
  ⟨⟨u, registerWrite_vd (regReached_of_answers h reg) hhost, rfl⟩, ⟨s, registerWrite_driver (.inl hdriver), rfl⟩⟩

/-- A register of BAR2. -/
theorem registerWrite_bar2Only {s : State} {reg : RegName} {value : BitVec 64} (h : regsAnswer s = true) (hvd : ∀ fm, vdRegWrite s fm value reg = none) :
    Completes (.registerWrite reg value true) s (fun v => v = bar2Write s value reg) ∧ Completes (.registerWrite reg value false) s (fun v => v = s) :=
  ⟨⟨_, registerWrite_bar2 (regReached_of_answers h reg) (hvd true), rfl⟩, ⟨s, registerWrite_driver (.inr (hvd false)), rfl⟩⟩

theorem answering_off {s : State} (h : regsAnswer s = false) (u : State) : answering s u = .next s := by simp [answering, h]

/-! ### An energy domain's weights -/

theorem domOf_num (s : State) (n : Nat) : (domOf s n).num = n := by
  unfold domOf
  cases h : s.doms.find? (fun d => d.num == n) with
  | none => rfl
  | some d => simpa using List.find?_some h

theorem domOf_weighted {s : State} {n : Nat} {w : SMap 32} (h : ∃ x ∈ s.doms, x.num = n) :
    domOf (setDom s { domOf s n with nextW := w }) n = { domOf s n with nextW := w } := by
  have stored := domOf_setDom (s := s) (d := { domOf s n with nextW := w }) (by simpa [domOf_num] using h)
  rwa [domOf_num] at stored

/-! ### A VD's BTE bandwidth -/

theorem bteOf_mill (s : State) (n m : Nat) : (bteOf s n m).mill = m := by
  unfold bteOf
  cases h : (vdOf s n).bte.find? (fun b => b.mill == m) with
  | none => rfl
  | some b => simpa using List.find?_some h

theorem bteOf_setBte {s : State} {n : Nat} {b : BteBkt} (h : ∃ d ∈ s.vds, d.num = n) (hb : ∃ c ∈ (vdOf s n).bte, c.mill = b.mill) :
    bteOf (setBte s n b) n b.mill = b := by
  have hbte : (vdOf (setBte s n b) n).bte = updIf (fun c => c.mill == b.mill) (fun _ => b) (vdOf s n).bte := by
    unfold setBte
    rw [vdOf_updVd h]
    exact fun _ => rfl
  unfold bteOf
  rw [hbte, find?_updIf_const _ b (by simp) _ (by simpa using hb)]
  rfl

/-- A level kept below a new rate. -/
theorem ite_lt_eq_min (a b : Int) : (if a < b then a else b) = min a b := by
  split <;> omega

/-- The bandwidth of the mill that VD_BTESEL names, after a new one of that mill is stored. -/
theorem bteOf_rated {s : State} {n rate : Nat} {lvl : Int} (h : ∃ d ∈ s.vds, d.num = n)
    (hb : ∃ c ∈ (vdOf s n).bte, c.mill = (bits (vdOf s n).btesel 0 3).toNat) :
    bteOf (setBte s n { bteOf s n (bits (vdOf s n).btesel 0 3).toNat with rate := rate, lvl := lvl }) n (bits (vdOf s n).btesel 0 3).toNat =
      { bteOf s n (bits (vdOf s n).btesel 0 3).toNat with rate := rate, lvl := lvl } := by
  have same := bteOf_mill s n (bits (vdOf s n).btesel 0 3).toNat
  have stored := bteOf_setBte (b := { bteOf s n (bits (vdOf s n).btesel 0 3).toNat with rate := rate, lvl := lvl }) h (by simpa [same] using hb)
  rwa [same] at stored

/-- Where VDs have different numbers, the VD of a number is the one that has it. -/
theorem vdOf_of_mem {s : State} {d : Vd} (hd : d ∈ s.vds) (huniq : ∀ a ∈ s.vds, ∀ b ∈ s.vds, a.num = b.num → a = b) : vdOf s d.num = d := by
  have hsome : (s.vds.find? (fun v => v.num == d.num)).isSome = true := List.find?_isSome.mpr ⟨d, hd, by simp⟩
  obtain ⟨v, hv⟩ := Option.isSome_iff_exists.mp hsome
  have same : v = d := huniq v (List.mem_of_find?_eq_some hv) d hd (by simpa using List.find?_some hv)
  simp [vdOf, hv, same]

/-! ### Flags of a queue descriptor, slots of CPR_QSLOT -/

theorem writeSpa_fab (s : State) (a : Nat) (bs : List Byte) : (writeSpa s a bs).fab = s.fab := by
  unfold writeSpa
  split <;> rfl
theorem writeSpa_cp (s : State) (a : Nat) (bs : List Byte) : (writeSpa s a bs).cp = s.cp := by
  unfold writeSpa
  split <;> rfl

/-- A byte written reads back. -/
theorem readNat_writeSpa_byte (s : State) (a : Nat) (b : Byte) : readNat (writeSpa s a [b]) a 1 = b.toNat := by
  have put := (BytesPut.writeSpa s a [b]).1 0 b rfl
  rw [Nat.add_zero] at put
  simp [readNat, readSpa, mgetAll, ofBytes, normSpa_congr (writeSpa_fab s a [b]), put]

theorem descFlag_setDescFlag (s : State) (desc bit : Nat) (v : Bool) (hbit : bit < 8) : descFlag (setDescFlag s desc bit v) desc bit = v := by
  unfold descFlag setDescFlag
  dsimp only
  rw [readNat_writeSpa_byte, BitVec.ofNat_toNat, BitVec.setWidth_eq]
  have mask : (BitVec.ofNat 8 (2 ^ bit)).getLsbD bit = true := by
    rw [BitVec.getLsbD_ofNat, Nat.testBit_two_pow_self, decide_eq_true hbit, Bool.and_self]
  cases v
  · simp only [Bool.false_eq_true, if_false, BitVec.getLsbD_and, BitVec.getLsbD_not, mask]
    simp
  · simp only [if_true, BitVec.getLsbD_or, mask, Bool.or_true]

/-- The bits of a slot's word that are res0 hold no part of its descriptor address. -/
theorem bits_address_masked (x : BitVec 64) : bits (x &&& ~~~0x3E) 6 58 = bits x 6 58 := by
  refine BitVec.eq_of_getLsbD_eq fun i hi => ?_
  have low : (0x3E : BitVec 64).getLsbD (6 + i) = false := by
    have narrow : (0x3E : BitVec 64) = (0x3E : BitVec 6).setWidth 64 := rfl
    rw [narrow, BitVec.getLsbD_setWidth, BitVec.getLsbD_of_ge _ _ (by omega), Bool.and_false]
  have high : 6 + i < 64 := by omega
  simp only [bits, BitVec.getLsbD_extractLsb', BitVec.getLsbD_and, BitVec.getLsbD_not, low, high, Bool.not_false, decide_true, Bool.and_true]

theorem getLsbD_zero_masked (x : BitVec 64) : (x &&& ~~~0x3E).getLsbD 0 = x.getLsbD 0 := by
  have low : (0x3E : BitVec 64).getLsbD 0 = false := rfl
  simp only [BitVec.getLsbD_and, BitVec.getLsbD_not, low, Bool.not_false, Nat.zero_lt_succ, decide_true, Bool.and_true]

/-- A word written to a slot that was not mapped. -/
theorem qslotWrite_unmapped {s : State} {n : Nat} (value : BitVec 64) (hold : (mget s.cp.qslot n).getLsbD 0 = false) :
    mget (qslotWrite s n value).cp.qslot n = value &&& ~~~0x3E ∧
      (value.getLsbD 0 = true → descFlag (qslotWrite s n value) ((bits value 6 58).toNat * 64) 1 = true) ∧
      (value.getLsbD 0 = false → (qslotWrite s n value).mem = s.mem) := by
  unfold qslotWrite
  simp only [hold, Bool.false_eq_true, if_false, getLsbD_zero_masked, bits_address_masked]
  cases hv : value.getLsbD 0
  · simp [mget_mset]
  · simp only [if_true]
    exact ⟨by simp [setDescFlag, writeSpa_cp, mget_mset], fun _ => descFlag_setDescFlag _ _ 1 true (by omega), fun h => absurd h (by simp)⟩

/-! ### A context's registers -/

@[simp] theorem setReg_vd (c : Ctx) (sel : Nat) (v : BitVec 64) : (c.setReg sel v).vd = c.vd := by
  simp only [Ctx.setReg, Ctx.setSched, apply_ite Ctx.vd, ite_self]
@[simp] theorem setReg_num (c : Ctx) (sel : Nat) (v : BitVec 64) : (c.setReg sel v).num = c.num := by
  simp only [Ctx.setReg, Ctx.setSched, apply_ite Ctx.num, ite_self]

/-- The selectors of a descriptor whose write does no more than to set the register. -/
def plainSels : List Nat := [0x100, 0x101, 0x102, 0x103, 0x200, 0x201, 0x011, 0x00D, 0x001]

theorem plainSels_spec {k : Nat} (h : k ∈ plainSels) : descriptorSels.contains k = true ∧ k ≠ 0x203 ∧ k ≠ 0x204 :=
  (by decide : ∀ k ∈ plainSels, descriptorSels.contains k = true ∧ k ≠ 0x203 ∧ k ≠ 0x204) k h

theorem ctxWrite_plain {s : State} {vd n k : Nat} (h : k ∈ plainSels) (value : BitVec 64) :
    ctxWrite s vd n k value = updCtx s vd n (fun c => c.setReg k value) := by
  obtain ⟨-, hsave, hptbase⟩ := plainSels_spec h
  simp [ctxWrite, hsave, hptbase]

/-! ### Reads -/

theorem bar0Read_save (s : State) (n : Nat) : bar0Read s n 0x10 = (vdOf s n).save := rfl

end Sys2Proof.Machine
end


section
/-! SUPPORT. The events of resets, of the host's accesses, and O58. -/
namespace Sys2Proof.Machine

/-! ### Resets and bring-up -/

/-- Once bring-up begins from a machine with nothing running, an accepted or refused image ends it as CODE and CPSTAT say. -/
theorem bringUp_outcome {s : State} (boot : BootInput) (h : Bool) (hstopped : s.cp.cpstat = 0) :
    let code := imageCode s.cp.fuses (bootImage boot h)
    (code ≠ 0 → (bringUp s boot h).cp.cpstat = 0 ∧ bits (bringUp s boot h).cp.boot 8 8 = BitVec.ofNat 8 code) ∧
      (code = 0 → boot.failed = [] → (bringUp s boot h).cp.cpstat = 1 ∧ bits (bringUp s boot h).cp.boot 8 8 = 0) := by
  refine ⟨fun hc => ?_, bringUp_accepted s boot h⟩
  obtain ⟨hstat, hcode⟩ := bringUp_refused s boot h hc
  exact ⟨hstat.trans hstopped, hcode⟩

/-- The package as a reset of it leaves it before bring-up: of the machine memory's bytes, the parity commits and the command processor are given. -/
def restarted (s : State) (bytes : SMap 8) (parity : List Nat) (cp : Cp) : State :=
  { s.restart with mem := { Mem.reset with bytes := bytes }, cp := cp, hbm := { Hbm.reset with parity := parity } }

theorem exec_powerOnReset (boot : BootInput) (s : State) :
    exec (.powerOnReset boot) s = .next (bringUp (restarted s (foreignBytes s.mem.bytes) [] { Cp.resetRegs with fuses := s.cp.fuses }) boot false) := rfl

theorem exec_deviceReset (boot : BootInput) {s : State} (h : s.cp.power = true) :
    exec (.deviceReset boot) s = .next (bringUp (restarted s (afterReset s.steps s.mem.bytes) s.hbm.parity s.cp.deviceReset) boot (s.cp.boot.getLsbD 16)) := by
  show execDeviceReset boot s = _
  unfold execDeviceReset
  rw [h]
  rfl

/-- CP_RESET with the CP halted and its TCM empty; and steps 3 and 4 from there. -/
def cpHalted (s : State) : State := { s with cp := { s.cp with tcm := [], entry := 0, cpstat := 0 } }
def cpReloaded (s : State) (boot : BootInput) : State := loadFirmware (cpHalted s) boot (s.cp.boot.getLsbD 16)

theorem exec_cpReset (boot : BootInput) {s : State} (h : s.cp.power = true) :
    exec (.cpReset boot) s = .next (if bootCode (cpReloaded s boot) ≠ 0 then cpReloaded s boot else startCp (cpReloaded s boot)) := by
  show execCpReset boot s = _
  unfold execCpReset
  rw [h]
  rfl

/-- Firmware that reads back in an empty TCM. -/
theorem mget_tcm (body : List Byte) (k : Nat) (b : Byte) (h : body[k]? = some b) : mget (msetAll [] 0 body) k = b := by
  obtain ⟨hlt, hb⟩ := List.getElem?_eq_some_iff.mp h
  rw [mget_msetAll, if_pos (by omega)]
  simp [hlt, hb]

/-- CP_RESET changes the command processor only; CODE and the TCM follow the image. -/
theorem completes_cpReset (boot : BootInput) {s : State} (h : s.cp.power = true) :
    let img := bootImage boot (s.cp.boot.getLsbD 16)
    let code := imageCode s.cp.fuses img
    Completes (.cpReset boot) s (fun v => v = { s with cp := v.cp } ∧ v.cp.boot.getLsbD 0 = s.cp.boot.getLsbD 0 ∧ bits v.cp.boot 8 8 = BitVec.ofNat 8 code ∧
      (code ≠ 0 → v.cp.cpstat = 0) ∧ (code = 0 → v.cp.cpstat = 1 ∧
        ∃ f, img = some f ∧ v.cp.entry = f.entry ∧ ∀ k b, f.body[k]? = some b → mget v.cp.tcm k = b)) := by
  intro img code
  refine ⟨_, exec_cpReset boot h, ?_⟩
  have cpOnly : cpReloaded s boot = { cpHalted s with cp := (cpReloaded s boot).cp } := loadFirmware_eq _ _ _
  have ready : (cpReloaded s boot).cp.boot.getLsbD 0 = s.cp.boot.getLsbD 0 := (BootKeeps.loadFirmware (cpHalted s) _ _).ready
  have stored : bits (cpReloaded s boot).cp.boot 8 8 = BitVec.ofNat 8 code := bits_loadFirmware_boot _ _ _
  have coded : bootCode (cpReloaded s boot) = code := bootCode_loadFirmware _ _ _
  rw [coded]
  by_cases hc : code = 0
  · obtain ⟨f, himg, hentry, htcm⟩ := loadFirmware_loaded (cpHalted s) boot (s.cp.boot.getLsbD 16) hc
    have loaded : (cpReloaded s boot).cp.tcm = msetAll [] 0 f.body := htcm
    rw [if_neg (not_not_intro hc), cpOnly]
    exact ⟨rfl, ready, stored, absurd hc, fun _ => ⟨rfl, f, himg, hentry, fun k b hk => (congrArg (mget · k) loaded).trans (mget_tcm f.body k b hk)⟩⟩
  · rw [if_pos hc, cpOnly]
    exact ⟨rfl, ready, stored, fun _ => loadFirmware_cpstat _ _ _, fun h0 => absurd h0 hc⟩

/-! ### The host's accesses -/

/-- What a PCIe AtomicOp on n bytes leaves where it found a number. -/
def hostAtomNew (op : HostAtomOp) (n old : Nat) (val cmp : BitVec 64) : Nat :=
  match op with
  | .fetchAdd => old + val.toNat
  | .swap => val.toNat
  | .cas => if old = cmp.toNat % 2 ^ (8 * n) then val.toNat else old

/-- HOST_ATOMIC as it is performed. -/
def hostAtomDone (op : HostAtomOp) (addr n : Nat) (val cmp : BitVec 64) (s : State) : State :=
  let v := hostWrite s (normSpa s addr) (toBytes n (hostAtomNew op n (readNat s addr n) val cmp % 2 ^ (8 * n)))
  { v with sent := v.sent ++ [.atomicResult (BitVec.ofNat 64 (readNat s addr n))] }

theorem exec_hostAtomic (op : HostAtomOp) (addr : Nat) (wide : Bool) (val cmp : BitVec 64) (s : State) :
    exec (.hostAtomic op addr wide val cmp) s =
      if addr % (if wide then 8 else 4) ≠ 0 then .next (unsupported s)
      else hostGo s addr (if wide then 8 else 4) true (hostAtomDone op addr (if wide then 8 else 4) val cmp) := by
  cases op <;> rfl

theorem hostAtomDone_spec (op : HostAtomOp) (addr n : Nat) (val cmp : BitVec 64) (s : State) :
    (hostAtomDone op addr n val cmp s).sent = s.sent ++ [.atomicResult (BitVec.ofNat 64 (readNat s addr n))] ∧
      BytesPut s (hostAtomDone op addr n val cmp s) (normSpa s addr) (toBytes n (hostAtomNew op n (readNat s addr n) val cmp)) := by
  unfold hostAtomDone
  rw [toBytes_mod]
  exact ⟨congrArg (· ++ _) (hostWrite_sent s _ _), BytesPut.hostWrite s addr _⟩

/-- A posted write of the host as it is performed. -/
def hostStoreDone (addr : Nat) (bs : List Byte) (s : State) : State :=
  if normSpa s addr < 2 ^ 50 then hostWrite s (normSpa s addr) bs else writeSpa s addr bs

theorem exec_hostStore (addr : Nat) {bs : List Byte} (h : bs ≠ []) (s : State) :
    exec (.hostMemoryAccess addr (some bs)) s = hostGo s addr bs.length true (hostStoreDone addr bs) := by
  show execHostMemoryAccess addr (some bs) s = _
  simp [execHostMemoryAccess, h]
  rfl

theorem hostStoreDone_spec (addr : Nat) (bs : List Byte) (s : State) :
    BytesPut s (hostStoreDone addr bs s) (normSpa s addr) bs ∧ (hostStoreDone addr bs s).sent = s.sent := by
  unfold hostStoreDone
  split
  · exact ⟨BytesPut.hostWrite s addr bs, hostWrite_sent s _ bs⟩
  · exact ⟨BytesPut.writeSpa s addr bs, writeSpa_sent s addr bs⟩

theorem exec_hostLoad (addr : Nat) (s : State) : exec (.hostMemoryAccess addr none) s =
    hostGo s addr (128 - addr % 128) false (fun u => { u with sent := u.sent ++ [.readData (outsideRead u addr (128 - addr % 128))] }) := rfl

/-! ### The obligation -/

/-- Settles O58. Resets and bring-up go by `BootKeeps` and the outcome of the image; the end of a VD by the standings, which nothing in it changes;
the host's accesses by `hostGo`; a register write by whether it reaches its register. -/
theorem bringUpAndHost : Obligations.BringUpAndHost := by
  unfold Obligations.BringUpAndHost
  refine ⟨⟨?powerOn, ?deviceReset, ?cpReset, ?powerLoss, ?watchdog, ?bind, ?unbind, ?atomic, ?access⟩,
    ⟨?unreached, regReached_iff, ?unanswered, ?driverRegs, ?hostRegs, ?s2base, ?bte, ?millRegs, ?fabRegs, ?weight, ?qslot, ?ctxSel, ?readOnly, ?readSave,
      ?readPkgid, fun _ => ⟨rfl, rfl⟩⟩⟩
  case powerOn =>
    intro s boot code
    have kept := BootKeeps.bringUp (restarted s (foreignBytes s.mem.bytes) [] { Cp.resetRegs with fuses := s.cp.fuses }) boot false
    obtain ⟨refused, accepted⟩ := bringUp_outcome (s := restarted s (foreignBytes s.mem.bytes) [] { Cp.resetRegs with fuses := s.cp.fuses }) boot false rfl
    refine ⟨_, exec_powerOnReset boot s, kept.strands, kept.skeins, kept.ctxs, kept.gtb, kept.gtbRun, kept.fuses, kept.count, fun a => ?_,
      kept.ready.trans BitVec.getLsbD_zero, refused, accepted⟩
    rw [kept.mem]
    exact mget_foreignBytes s.mem.bytes a
  case deviceReset =>
    intro s boot hpower hbytes code
    have kept := BootKeeps.bringUp (restarted s (afterReset s.steps s.mem.bytes) s.hbm.parity s.cp.deviceReset) boot (s.cp.boot.getLsbD 16)
    obtain ⟨refused, accepted⟩ :=
      bringUp_outcome (s := restarted s (afterReset s.steps s.mem.bytes) s.hbm.parity s.cp.deviceReset) boot (s.cp.boot.getLsbD 16) rfl
    refine ⟨_, exec_deviceReset boot hpower, kept.strands, kept.skeins, kept.ctxs, kept.gtb, kept.gtbRun, kept.fuses, kept.count, kept.parity, fun a ha => ?_,
      refused, accepted⟩
    rw [kept.mem]
    exact mget_afterReset s.steps s.mem.bytes hbytes a ha
  case cpReset => exact fun s boot hpower => completes_cpReset boot hpower
  case powerLoss => exact fun s => ⟨_, rfl, rfl, rfl, rfl, rfl, rfl, mget_foreignBytes s.mem.bytes⟩
  case watchdog =>
    intro s
    refine ⟨fun hrun => ⟨_, congrArg Host.Outcome.next (if_pos hrun), ?_, rfl⟩,
      fun hrun => ⟨s, congrArg Host.Outcome.next (if_neg (ne_true_of_eq_false hrun)), rfl⟩⟩
    have bit : (2 : BitVec 64).getLsbD 1 = true := rfl
    simp only [BitVec.getLsbD_or, bit, Bool.or_true]
  case bind =>
    intro s ld hready hld hvd hbound hending
    have enabled : (s.cp.boot.getLsbD 0 && decide (ld < 16) && !(vdOf s ld).bound && !(vdOf s ld).ending) = true := by simp [hready, hld, hbound, hending]
    refine ⟨_, congrArg Host.Outcome.next (if_pos enabled), ?_⟩
    dsimp only
    rw [vdOf_updVd hvd]
    · exact ⟨rfl, rfl⟩
    · exact fun _ => rfl
  case unbind => exact fun s ld hbound => ⟨_, congrArg Host.Outcome.next (if_pos hbound), vdOf_beginVdEnd hbound⟩
  case atomic =>
    intro s op addr wide val cmp n old new
    have hnew : new = hostAtomNew op n old val cmp := by cases op <;> rfl
    refine ⟨fun halign hreach => ?_, fun halign => ⟨_, (exec_hostAtomic ..).trans (if_pos halign), rfl⟩, fun halign hend => ?_⟩
    · rw [hnew]
      exact ⟨_, (exec_hostAtomic ..).trans ((if_neg (not_not_intro halign)).trans (hostGo_of_reaches hreach _ _)), hostAtomDone_spec op addr n val cmp s⟩
    · exact (exec_hostAtomic ..).trans ((if_neg (not_not_intro halign)).trans (hostGo_beyond hend _ _))
  case access =>
    intro s addr n
    refine ⟨fun hreach hclean => ⟨_, (exec_hostLoad addr s).trans (hostGo_of_reaches hreach _ _), ?_⟩,
      fun hend => (exec_hostLoad addr s).trans (hostGo_beyond hend _ _),
      fun hend hlocal hvd => ⟨_, (exec_hostLoad addr s).trans (hostGo_unbound hend hlocal hvd _ _), rfl⟩,
      fun bs hbs hreach => ⟨_, (exec_hostStore addr hbs s).trans (hostGo_of_reaches hreach _ _), hostStoreDone_spec addr bs s⟩⟩
    have readable : outsideRead s addr (128 - addr % 128) = readSpa s addr n := if_neg (by simpa using hclean)
    rw [readable]
  case unreached => exact fun s reg value fm h => ⟨s, registerWrite_unreached h value, rfl⟩
  case unanswered =>
    intro s n m value d h i hi
    simp only [List.mem_cons, List.not_mem_nil, or_false] at hi
    obtain rfl | rfl | rfl | rfl | rfl | rfl | rfl | rfl | rfl | rfl | rfl | rfl | rfl | rfl | rfl | rfl | rfl := hi
    all_goals exact ⟨s, answering_off h _, rfl⟩
  case driverRegs =>
    intro p hp s n value fm h
    simp only [List.mem_cons, List.not_mem_nil, or_false] at hp
    obtain rfl | rfl | rfl | rfl | rfl | rfl | rfl | rfl := hp
    case inr.inr.inr.inr.inr.inl => exact ⟨_, registerWrite_vd h rfl, by simp only [ringWord, Nat.mul_comm]⟩
    case inr.inr.inr.inr.inr.inr.inl => exact ⟨_, registerWrite_vd h rfl, by simp only [Nat.mul_comm]⟩
    all_goals exact ⟨_, registerWrite_vd h rfl, rfl⟩
  case hostRegs =>
    intro p hp s n value h
    simp only [List.mem_cons, List.not_mem_nil, or_false] at hp
    obtain rfl | rfl | rfl | rfl | rfl | rfl := hp
    all_goals exact registerWrite_hostOnly h rfl rfl
  case s2base =>
    intro s n value h hvd
    refine ⟨_, registerWrite_vd (regReached_of_answers h _) rfl, ?_, _, rfl, rfl, rfl, rfl⟩
    exact congrArg Vd.s2base (vdOf_updVd (f := fun v => { v with s2base := value &&& 0x000FFFFFFFFFF000 }) hvd fun _ => rfl)
  case bte =>
    intro s n value fm h hvd huniq m
    obtain ⟨d, hd, hnum, hbte⟩ := hvd
    have found : vdOf s n = d := hnum ▸ vdOf_of_mem hd huniq
    refine ⟨_, registerWrite_vd h rfl, ?_⟩
    dsimp only
    rw [bteOf_rated ⟨d, hd, hnum⟩ (found ▸ hbte)]
    exact ⟨rfl, ite_lt_eq_min _ _⟩
  case millRegs =>
    intro p hp s n value h
    simp only [List.mem_cons, List.not_mem_nil, or_false] at hp
    obtain rfl | rfl | rfl | rfl | rfl | rfl := hp
    all_goals exact registerWrite_bar2Only h fun _ => rfl
  case fabRegs =>
    intro p hp s value h
    simp only [List.mem_cons, List.not_mem_nil, or_false] at hp
    obtain rfl | rfl | rfl | rfl | rfl | rfl | rfl := hp
    all_goals exact registerWrite_bar2Only h fun _ => rfl
  case weight =>
    intro s d row cls value h hrow hcls hdom hd
    refine ⟨_, registerWrite_bar2 (regReached_of_answers h _) rfl, ?_⟩
    rw [bar2Write, if_pos ⟨hrow, hcls, hdom⟩]
    show mget (domOf _ d).nextW (40 * row + cls) = bits value 0 32 ∧ (domOf _ d).weights = (domOf s d).weights
    rw [domOf_weighted hd]
    exact ⟨by simp [mget_mset], rfl⟩
  case qslot =>
    intro s n value hpower hn hold
    have reached : regReached s (.cprQslot n) true = true := by simp [regReached, hpower, RegName.cpr]
    refine ⟨_, registerWrite_bar2 reached rfl, ?_⟩
    rw [bar2Write, if_pos hn]
    exact qslotWrite_unmapped value hold
  case ctxSel =>
    intro s vd n c sel value fm h hc hsel
    obtain ⟨held, -, -⟩ := plainSels_spec hsel
    have writes : vdRegWrite s fm value (.ctxSel vd n sel) = some (updCtx s vd n (fun c => c.setReg sel.toNat value)) := by
      simp only [vdRegWrite, held, hc, ctxWrite_plain hsel]
      rfl
    exact ⟨_, registerWrite_vd h writes, ctx?_updCtx hc fun c => ⟨setReg_vd c _ _, setReg_num c _ _⟩⟩
  case readOnly =>
    intro s value fm
    cases fm with
    | false => exact ⟨s, registerWrite_driver (.inr rfl), rfl⟩
    | true =>
      cases h : regReached s .readOnly true with
      | false => exact ⟨s, registerWrite_unreached h value, rfl⟩
      | true => exact ⟨s, registerWrite_bar2 h rfl, rfl⟩
  case readSave =>
    intro s n value fm h hvd
    refine ⟨_, registerWrite_vd h rfl, ?_⟩
    dsimp only
    rw [bar0Read_save, vdOf_updVd hvd]
    exact fun _ => rfl
  case readPkgid => exact fun s value h => ⟨_, registerWrite_bar2 (regReached_of_answers h _) rfl, rfl⟩

end Sys2Proof.Machine
end

section
/-! SUPPORT. What an instruction that takes effect leaves alone and where its strand then stands: registers and predicates, bytes of memory, and the
two ways in which an effect is settled most often, going on to the next word and waiting at this one (03 R70 to R72; 05 R122, R131). -/
namespace Sys2Proof.Machine

/-! ### Registers and predicates -/

/-- Skeins that differ at most in their register-line directory and operand caches. -/
theorem skein?_bare {u v : State} (h : v.skeins.map Skein.bare = u.skeins.map Skein.bare) (k : Nat) :
    (skein? v k).map Skein.bare = (skein? u k).map Skein.bare := by
  have found := find?_map_bare Skein.bare (fun x => x.id == k) (fun x => x.id == k) (fun _ => rfl)
  unfold skein?
  rw [← found u.skeins, ← h, found v.skeins]

theorem vreg_bare (s : State) (k f n : Nat) : vreg s k f n =
    match (skein? s k).map Skein.bare with | some x => (match x.fibre? f with | some y => y.read n | none => 0) | none => 0 := by
  unfold vreg
  cases skein? s k <;> rfl
theorem greg_bare (s : State) (k n : Nat) : greg s k n = match (skein? s k).map Skein.bare with | some x => mget x.g n | none => 0 := by
  unfold greg
  cases skein? s k <;> rfl
theorem preg_bare (s : State) (k f : Nat) (p : BitVec 4) : preg s k f p =
    match (skein? s k).map Skein.bare with | some x => (match x.fibre? f with | some y => y.pred p | none => p == 15) | none => p == 15 := by
  unfold preg
  cases skein? s k <;> rfl

theorem KeepsRegs.of_bare {x : Skein} {act vd gd marks : List Nat} {pd : List (BitVec 4)} {u v : State}
    (h : v.skeins.map Skein.bare = u.skeins.map Skein.bare) : KeepsRegs x act vd gd marks pd u v := by
  have hv : ∀ k f n, vreg v k f n = vreg u k f n := fun k f n => by rw [vreg_bare, vreg_bare, skein?_bare h]
  have hg : ∀ k n, greg v k n = greg u k n := fun k n => by rw [greg_bare, greg_bare, skein?_bare h]
  have hp : ∀ k f p, preg v k f p = preg u k f p := fun k f p => by rw [preg_bare, preg_bare, skein?_bare h]
  exact ⟨fun k _ f n => ⟨hv k f n, hg k n, hp k f⟩, fun f n _ _ _ => hv x.id f n, fun n _ => hg x.id n, fun f p _ => hp x.id f p⟩

theorem KeepsRegs.trans {x : Skein} {act vd gd marks : List Nat} {pd : List (BitVec 4)} {u v r : State} (h : KeepsRegs x act vd gd marks pd u v)
    (k : KeepsRegs x act vd gd marks pd v r) : KeepsRegs x act vd gd marks pd u r where
  others j hj f n := by
    obtain ⟨hv, hg, hp⟩ := h.others j hj f n
    obtain ⟨kv, kg, kp⟩ := k.others j hj f n
    exact ⟨kv.trans hv, kg.trans hg, fun p => (kp p).trans (hp p)⟩
  vregs f n hn hvd hm := (k.vregs f n hn hvd hm).trans (h.vregs f n hn hvd hm)
  gregs n hn := (k.gregs n hn).trans (h.gregs n hn)
  preds f p hp := (k.preds f p hp).trans (h.preds f p hp)

/-- An update of one skein that keeps what the frame says of its registers and predicates. -/
theorem KeepsRegs.updSkein {x : Skein} {act vd gd marks : List Nat} {pd : List (BitVec 4)} {u : State} {g : Skein → Skein} (hid : ∀ y, (g y).id = y.id)
    (hv : ∀ y f n, n < 192 → (n ∉ vd ∨ f ∉ act) → (((g y).fibre? f).map (fun c => c.read n)) = ((y.fibre? f).map (fun c => c.read n)))
    (hg : ∀ y n, n ∉ gd → mget (g y).g n = mget y.g n) (hp : ∀ y f, ((g y).fibre? f).map Fibre.preds = (y.fibre? f).map Fibre.preds) :
    KeepsRegs x act vd gd marks pd u (updSkein u x.id g) where
  others k hk f n := by
    have same : skein? (Machine.updSkein u x.id g) k = skein? u k := skein?_updSkein_of_ne u x.id k g hid hk
    exact ⟨by simp only [vreg, same], by simp only [greg, same], fun p => by simp only [preg, same]⟩
  vregs f n hn hvd _ := by
    have now := skein?_updSkein_self u x.id g hid
    cases hy : skein? u x.id with
    | none => simp [vreg, hy, now]
    | some y => rw [vreg_map _ _ _ _ _ hy, vreg_map _ _ _ _ (g y) (by rw [now, hy]; rfl), hv y f n hn hvd]
  gregs n hn := by
    have now := skein?_updSkein_self u x.id g hid
    cases hy : skein? u x.id with
    | none => simp [greg, hy, now]
    | some y => rw [greg_of _ _ _ _ hy, greg_of _ _ _ (g y) (by rw [now, hy]; rfl), hg y n hn]
  preds f p _ := by
    have now := skein?_updSkein_self u x.id g hid
    cases hy : skein? u x.id with
    | none => simp [preg, hy, now]
    | some y => rw [preg_map _ _ _ _ _ hy, preg_map _ _ _ _ (g y) (by rw [now, hy]; rfl), hp y f]

theorem RegsBut.then_bare {sh : Shape} {x : Skein} {act : List Nat} {u v r : State} (h : RegsBut sh x act u v)
    (k : r.skeins.map Skein.bare = v.skeins.map Skein.bare) : RegsBut sh x act u r := KeepsRegs.trans h (.of_bare k)

/-! ### Bytes of memory -/

theorem SameBytes.of_mem {u v : State} (hm : v.mem = u.mem) (hf : v.fab = u.fab) : SameBytes u v := fun a => by
  unfold byteAt
  rw [hm, normSpa_congr hf]

@[simp] theorem leaveActive_mem (s : State) (t : Strand) : (leaveActive s t).mem = s.mem := by
  unfold leaveActive
  split <;> simp
@[simp] theorem leaveActive_fab (s : State) (t : Strand) : (leaveActive s t).fab = s.fab := by
  unfold leaveActive
  split <;> simp

/-- Joining the active set comes to nothing, to the strand's mark, or to another's leaving it too (03 R84). -/
theorem joinActive_cases (s : State) (t : Strand) (x : Skein) :
    let joined := updStrand s t.id (fun v => { v with active := true })
    joinActive s t x = s ∨ joinActive s t x = joined ∨ ∃ r, joinActive s t x = leaveActive joined r := by
  unfold joinActive
  split
  · exact .inl rfl
  · dsimp only
    split
    · exact .inr (.inl rfl)
    · split
      · split
        · exact .inl rfl
        · exact .inr (.inr ⟨_, rfl⟩)
      · exact .inl rfl

@[simp] theorem joinActive_mem (s : State) (t : Strand) (x : Skein) : (joinActive s t x).mem = s.mem := by
  obtain h | h | ⟨r, h⟩ := joinActive_cases s t x <;> simp [h]
@[simp] theorem joinActive_fab (s : State) (t : Strand) (x : Skein) : (joinActive s t x).fab = s.fab := by
  obtain h | h | ⟨r, h⟩ := joinActive_cases s t x <;> simp [h]

/-! ### Where the strand stands -/

theorem Issues.stands {sh : Shape} {s : State} {t : Strand} {x : Skein} {u : State} {y : Skein} {w : Strand} (h : Issues sh s t x u y w) : Stands u t :=
  ⟨w, h.strandNow, h.place⟩
theorem Issues.nowStrand {sh : Shape} {s : State} {t : Strand} {x : Skein} {u : State} {y : Skein} {w : Strand} (h : Issues sh s t x u y w) :
    nowStrand u t = w := by simp [Machine.nowStrand, h.strandNow]
theorem Issues.nowSkein {sh : Shape} {s : State} {t : Strand} {x : Skein} {u : State} {y : Skein} {w : Strand} (h : Issues sh s t x u y w) :
    nowSkein u x = y := by simp [Machine.nowSkein, h.skeinNow]

theorem bare_holds {q r : Strand} (h : q.bare = r.bare) : q.pc = r.pc ∧ q.clause = r.clause ∧ q.region = r.region ∧ q.held = r.held := by
  simp only [Strand.bare, Strand.mk.injEq] at h
  simp [h]

theorem Stands.alike {u v : State} {t : Strand} (h : Stands u t) (a : Alike u v) : Stands v t := by
  obtain ⟨r, hr, hpc, hclause⟩ := h
  obtain ⟨q, hq, same⟩ := a.strand_some _ _ hr
  obtain ⟨spc, sclause, -, -⟩ := bare_holds same
  exact ⟨q, hq, spc.trans hpc, sclause.trans hclause⟩

theorem strand?_updStrand_some {s : State} {k : Nat} {r : Strand} {f : Strand → Strand} (h : strand? s k = some r) (hf : ∀ q, (f q).id = q.id) :
    strand? (updStrand s k f) k = some (f r) := by
  rw [strand?_updStrand_self s k f hf, h]
  rfl

/-- An update of the strand that leaves its place. -/
theorem Stands.updStrand {u : State} {t : Strand} (h : Stands u t) {f : Strand → Strand}
    (hf : ∀ r, (f r).id = r.id ∧ (f r).pc = r.pc ∧ (f r).clause = r.clause) : Stands (updStrand u t.id f) t := by
  obtain ⟨r, hr, hpc, hclause⟩ := h
  obtain ⟨-, fpc, fclause⟩ := hf r
  exact ⟨f r, strand?_updStrand_some hr (fun q => (hf q).1), fpc.trans hpc, fclause.trans hclause⟩

/-- Going on to the next word changes of a strand its place alone. -/
theorem advance_eq (t : Strand) (n : Nat) : t.advance n = { t with pc := (t.advance n).pc, clause := (t.advance n).clause } := by
  unfold Strand.advance
  dsimp only
  split
  · rfl
  · split <;> rfl

@[simp] theorem advance_id (t : Strand) (n : Nat) : (t.advance n).id = t.id := by rw [advance_eq]
@[simp] theorem advance_region (t : Strand) (n : Nat) : (t.advance n).region = t.region := by rw [advance_eq]
@[simp] theorem advance_held (t : Strand) (n : Nat) : (t.advance n).held = t.held := by rw [advance_eq]
@[simp] theorem advance_holds (t : Strand) (n : Nat) : (t.advance n).holds = t.holds := by rw [advance_eq]

/-- The place of a strand at the next word depends on its place alone. -/
theorem advance_place {r t : Strand} (hpc : r.pc = t.pc) (hclause : r.clause = t.clause) (n : Nat) :
    (r.advance n).pc = (t.advance n).pc ∧ (r.advance n).clause = (t.advance n).clause := by
  unfold Strand.advance
  simp only [hpc, hclause]
  split
  · exact ⟨rfl, rfl⟩
  · split <;> exact ⟨rfl, rfl⟩

theorem strand?_advanceStrand {s : State} {k : Nat} {r : Strand} (h : strand? s k = some r) (n : Nat) :
    strand? (advanceStrand s k n) k = some { r.advance n with wait := none, again := false, st := .ready } :=
  strand?_updStrand_some h (fun q => advance_id q n)

theorem WentOn.of_stands {v : State} {t : Strand} (h : Stands v t) (n : Nat) : WentOn (advanceStrand v t.id n) t n := by
  obtain ⟨r, hr, hpc, hclause⟩ := h
  obtain ⟨apc, aclause⟩ := advance_place hpc hclause n
  exact ⟨_, strand?_advanceStrand hr n, apc, aclause, rfl, rfl⟩

/-- Going on keeps what a strand holds: its region, its records and its flags. -/
theorem strand_goes_on {v : State} {k : Nat} {r : Strand} (hr : strand? v k = some r) (n : Nat) :
    ∃ q, strand? (advanceStrand v k n) k = some q ∧ q.region = r.region ∧ q.held = r.held ∧ q.holds = r.holds :=
  ⟨_, strand?_advanceStrand hr n, advance_region r n, advance_held r n, advance_holds r n⟩

/-! ### Settling an effect of an instruction that reads no register -/

theorem markedRegs_of_no_reads {sh : Shape} (h : sh.reads = []) : markedRegs sh = [] := by
  simp [markedRegs, h, vecRegs]

theorem settle_ok_of_no_reads {sh : Shape} (h : sh.reads = []) (e : Env) (v : State) : settle sh e (.ok v) = advanceStrand v e.t.id sh.len := by
  simp [settle, afterUse, markedRegs_of_no_reads h]

theorem Waits.of_stall {v : State} {e : Env} (h : Stands v e.t) (sh : Shape) (st : StrandState) (wt : Wait) :
    Waits (settle sh e (.stall v st wt)) e.t st wt := by
  obtain ⟨r, hr, hpc, hclause⟩ := h
  exact ⟨{ r with st := st, wait := some wt, again := true }, strand?_updStrand_some hr (fun _ => rfl), hpc, hclause, rfl, rfl, rfl⟩

theorem Quiet.of_stall (v : State) (sh : Shape) (e : Env) (st : StrandState) (wt : Wait) : Quiet sh e.x e.act v (settle sh e (.stall v st wt)) :=
  ⟨.of_bare rfl, .of_mem rfl rfl⟩

/-! ### One destination -/

theorem mem_vecRegs_single (d : Field8) (wid : Wid) (n : Nat) : n ∈ vecRegs [(d, wid)] ↔ d.toNat < 192 ∧ d.toNat ≤ n ∧ n < d.toNat + wid.len := by
  by_cases hd : d.toNat < 192 <;> simp [vecRegs, hd, mem_upTo]

theorem dest_ne_of_not_uniform {d : Field8} {wid : Wid} {n : Nat}
    (h : n ∉ ([{ reg := d, wid := wid }].filter (fun w : Wr => decide (192 ≤ w.reg.toNat))).map (fun w => w.reg.toNat - 192)) : d.toNat ≠ n + 192 := by
  intro e
  exact h (by simp [e])

/-- A 32-bit result leaves every register but its destination. -/
theorem RegsBut.putD32 {sh : Shape} {d : Field8} (hw : sh.writes = [{ reg := d, wid := .one }]) (s : State) (e : Env) (v : BitVec 32) :
    RegsBut sh e.x e.act s (putD32 s e d v) := by
  unfold RegsBut
  rw [hw]
  refine .updSkein (fun y => put32_id y _ _ _) (fun y f n hn h => put32_read _ _ _ _ _ _ hn ?_)
    (fun y n h => put32_g_other _ _ _ _ _ (dest_ne_of_not_uniform h)) (fun y f => put32_preds _ _ _ _ _)
  intro hd
  exact h.resolve_left (fun hnot => hnot ((mem_vecRegs_single _ _ _).mpr (by simp only [Wid.len]; omega)))

/-- A 64-bit result leaves every register but its destination. -/
theorem RegsBut.putD64 {sh : Shape} {d : Field8} (hw : sh.writes = [{ reg := d, wid := .two }]) (s : State) (e : Env) (v : BitVec 64) :
    RegsBut sh e.x e.act s (putD64 s e d v) := by
  unfold RegsBut
  rw [hw]
  refine .updSkein (fun y => put64_id y _ _ _) (fun y f n hn h => ?_) (fun y n h => put64_g_other _ _ _ _ _ (dest_ne_of_not_uniform h))
    (fun y f => put64_preds _ _ _ _ _)
  by_cases hd : d.toNat < 192
  · refine put64_read _ _ _ _ _ _ hn (fun hdn => h.resolve_left (fun hnot => hnot ((mem_vecRegs_single _ _ _).mpr ?_)))
    simp only [Wid.len]
    omega
  · exact put64_read _ _ _ _ _ _ hn (fun hdn => by omega)

/-- What the skein holds after a 32-bit result. -/
theorem holds32_putD32 {s : State} {e : Env} {y : Skein} {d : Field8} {f : Nat} (hy : skein? s e.x.id = some y) (hf : (y.fibre? f).isSome = true)
    (hw : Writes e d f) (v : BitVec 32) : Holds32 (putD32 s e d v) e.x.id f d v := by
  have now : skein? (putD32 s e d v) e.x.id = some (y.put32 d e.act (fun _ => v)) := by
    unfold putD32
    rw [skein?_updSkein_self _ _ _ (fun y => put32_id y _ _ _), hy]
    rfl
  obtain ⟨hact, -⟩ := hw
  unfold Holds32
  split
  next hd =>
    obtain ⟨q, hq⟩ := Option.isSome_iff_exists.mp hf
    rw [vreg_map _ _ _ _ _ now, put32_fibre? _ _ _ _ _ hd, hq]
    simp [fibre?_id _ _ _ hq, hact, read_write_self _ _ _ hd]
  next hd =>
    obtain ⟨l, hl⟩ := lead_cons e (List.ne_nil_of_mem hact)
    rw [greg_of _ _ _ _ now, hl, put32_g _ _ _ _ _ _ hd, if_pos rfl]

/-- What the skein holds after a 64-bit result; a pair lies below v192. -/
theorem holds64_putD64 {s : State} {e : Env} {y : Skein} {d : Field8} {f : Nat} (hy : skein? s e.x.id = some y) (hf : (y.fibre? f).isSome = true)
    (hw : Writes e d f) (pair : d.toNat < 192 → d.toNat + 1 < 192) (v : BitVec 64) : Holds64 (putD64 s e d v) e.x.id f d v := by
  have now : skein? (putD64 s e d v) e.x.id = some (y.put64 d e.act (fun _ => v)) := by
    unfold putD64
    rw [skein?_updSkein_self _ _ _ (fun y => put64_id y _ _ _), hy]
    rfl
  obtain ⟨hact, -⟩ := hw
  unfold Holds64
  split
  next hd =>
    obtain ⟨q, hq⟩ := Option.isSome_iff_exists.mp hf
    rw [vreg_map _ _ _ _ _ now, vreg_map _ _ _ _ _ now, put64_fibre? _ _ _ _ _ hd, hq]
    have low := read_write_ne (q.write d.toNat (bits v 0 32)) (d.toNat + 1) d.toNat (bits v 32 32) hd (by omega)
    simp [fibre?_id _ _ _ hq, hact, low, read_write_self _ _ _ hd, read_write_self _ _ _ (pair hd)]
  next hd =>
    obtain ⟨l, hl⟩ := lead_cons e (List.ne_nil_of_mem hact)
    rw [greg_of _ _ _ _ now, hl, put64_g _ _ _ _ _ _ hd, if_pos rfl]

end Sys2Proof.Machine
end

section
/-! SUPPORT. Idempotent regions (01 R17; 10 R256 to R258) and JREAD (10 R259): what IDEM, COMMIT and JREAD come to. -/
namespace Sys2Proof.Machine

/-! ### IDEM -/

abbrev shIdem (o : OpD) : Shape := leadShape 8 o.c [] [{ reg := o.d, wid := .one }] true

/-- The region that an IDEM opens. -/
def openedRegion (o : OpD) (e : Env) (s : State) : IdemRegion :=
  { opened := s.key, start := e.t.pc, clause := e.t.clause.getD { start := e.t.pc, size := 0, fa := 15, fb := 15, rastop := false }, dest := o.d,
    act := e.act, used := 0, stores := [] }
/-- The state in which the strand of an IDEM goes on: D is 0 and the region open. -/
def withRegion (o : OpD) (e : Env) (s : State) : State :=
  updStrand (putD32 s e o.d 0) e.t.id (fun t => { t with region := some (openedRegion o e s) })

/-- What IDEM does, by the region buffers of the skein as it stands (10 R256). -/
theorem idemBody_eq (o : OpD) (e : Env) (s : State) : idemBody o e s =
    if regionCap (nowSkein s e.x) = 0 then .fault s (Flt.plain .execute 0x17 e.lead e.t.pc)
    else if regionCap (nowSkein s e.x) ≤ regionsHeld s (nowSkein s e.x) then .stall s .ready .regionBuf
    else .ok (withRegion o e s) := rfl

section Idem
variable {o : OpD} {s : State} {t : Strand} {x : Skein} {u : State} {y : Skein} {w : Strand} (h : Issues (shIdem o) s t x u y w)
include h

theorem exec_idem : exec (.idem o) s = .next (settle (shIdem o) (issueEnv (shIdem o) t x s)
    (if regionCap y = 0 then .fault u (Flt.plain .execute 0x17 (issueEnv (shIdem o) t x s).lead t.pc)
     else if regionCap y ≤ regionsHeld u x then .stall u .ready .regionBuf
     else .ok (withRegion o (issueEnv (shIdem o) t x s) u))) := by
  have issued : exec (.idem o) s = .next (settle (shIdem o) (issueEnv (shIdem o) t x s) (idemBody o (issueEnv (shIdem o) t x s) u)) :=
    issue_of_issues h _ _
  have found : nowSkein u (issueEnv (shIdem o) t x s).x = y := h.nowSkein
  have sameHeld : regionsHeld u y = regionsHeld u x := by simp [regionsHeld, skein?_id _ _ _ h.skeinNow]
  rw [issued, idemBody_eq, found, sameHeld]
  rfl

theorem idem_without_buffers (noBuffers : regionCap y = 0) :
    exec (.idem o) s = .next (deliver u w y (Flt.plain .execute 0x17 (issueEnv (shIdem o) t x s).lead t.pc)) := by
  rw [exec_idem h, if_pos noBuffers, ← h.nowStrand, ← h.nowSkein]
  rfl

theorem idem_waits (buffers : regionCap y ≠ 0) (full : regionCap y ≤ regionsHeld u x) :
    Completes (.idem o) s (fun v => Waits v t .ready .regionBuf ∧ Quiet (shIdem o) x (issueEnv (shIdem o) t x s).act u v) :=
  ⟨_, by rw [exec_idem h, if_neg buffers, if_pos full], .of_stall (e := issueEnv (shIdem o) t x s) h.stands _ _ _,
    .of_stall u _ (issueEnv (shIdem o) t x s) _ _⟩

theorem idem_opens (free : regionsHeld u x < regionCap y) :
    Completes (.idem o) s (fun v => WentOn v t 8 ∧ QuietBut (shIdem o) x (issueEnv (shIdem o) t x s).act u v ∧
      (∀ f, Writes (issueEnv (shIdem o) t x s) o.d f → Holds32 v x.id f o.d 0) ∧
      ∃ r g, strand? v t.id = some r ∧ r.region = some g ∧ g.start = t.pc ∧ g.dest = o.d ∧ g.act = (issueEnv (shIdem o) t x s).act ∧ g.used = 0 ∧
        g.stores = []) := by
  have runs : exec (.idem o) s = .next (advanceStrand (withRegion o (issueEnv (shIdem o) t x s) u) t.id 8) := by
    rw [exec_idem h, if_neg (by omega), if_neg (by omega), settle_ok_of_no_reads rfl]
    rfl
  have stands : Stands (withRegion o (issueEnv (shIdem o) t x s) u) t := h.stands.updStrand (fun _ => ⟨rfl, rfl, rfl⟩)
  obtain ⟨q, hq, hregion, -, -⟩ := strand_goes_on (strand?_updStrand_some (s := putD32 u (issueEnv (shIdem o) t x s) o.d 0) h.strandNow
    (f := fun t' => { t' with region := some (openedRegion o (issueEnv (shIdem o) t x s) u) }) (fun _ => rfl)) 8
  exact ⟨_, runs, .of_stands stands 8, ⟨.then_bare (.putD32 rfl u (issueEnv (shIdem o) t x s) 0) rfl, .of_mem rfl rfl⟩,
    fun f hf => holds32_putD32 h.skeinNow (h.fibres f hf.1) hf 0, q, _, hq, hregion, rfl, rfl, rfl, rfl, rfl⟩

end Idem

/-! ### COMMIT -/

theorem writeSpa_pend (s : State) (a : Nat) (bs : List Byte) : (writeSpa s a bs).pend = s.pend := by
  unfold writeSpa
  split <;> rfl
theorem writeSpa_key (s : State) (a : Nat) (bs : List Byte) : (writeSpa s a bs).key = s.key := by
  unfold writeSpa
  split <;> rfl

/-- FREE advances by a write of memory, or not at all. -/
theorem advanceFree_cases (s : State) (d : Nat) : advanceFree s d = s ∨ ∃ a bs, advanceFree s d = writeSpa s a bs := by
  unfold advanceFree
  dsimp only
  split
  · exact .inl rfl
  · exact .inr ⟨_, _, rfl⟩

theorem Alike.advanceFree (s : State) (d : Nat) : Alike s (advanceFree s d) := by
  obtain h | ⟨a, bs, h⟩ := advanceFree_cases s d <;> rw [h]
  · exact .refl s
  · exact .writeSpa s a bs
theorem advanceFree_pend (s : State) (d : Nat) : (Machine.advanceFree s d).pend = s.pend := by
  obtain h | ⟨a, bs, h⟩ := advanceFree_cases s d <;> simp [h, writeSpa_pend]
theorem advanceFree_key (s : State) (d : Nat) : (Machine.advanceFree s d).key = s.key := by
  obtain h | ⟨a, bs, h⟩ := advanceFree_cases s d <;> simp [h, writeSpa_key]

/-- Releasing a strand's records empties its list and, but for FREE in memory, changes nothing more. -/
theorem Alike.releaseHeld {s : State} {k : Nat} {r : Strand} (h : Machine.strand? s k = some r) :
    Alike (Machine.updStrand s k (fun t => { t with held := [] })) (releaseHeld s k) := by
  unfold Machine.releaseHeld
  rw [h]
  exact .foldl _ .advanceFree _ _
theorem releaseHeld_pend (s : State) (k : Nat) : (releaseHeld s k).pend = s.pend := by
  unfold releaseHeld
  split
  · rfl
  · exact foldl_keeps State.pend _ advanceFree_pend _ _
theorem releaseHeld_key (s : State) (k : Nat) : (releaseHeld s k).key = s.key := by
  unfold releaseHeld
  split
  · rfl
  · exact foldl_keeps State.key _ advanceFree_key _ _

theorem strand?_releaseHeld {s : State} {k : Nat} {r : Strand} (h : strand? s k = some r) :
    ∃ q, strand? (releaseHeld s k) k = some q ∧ q.pc = r.pc ∧ q.clause = r.clause ∧ q.region = r.region ∧ q.held = [] := by
  have emptied : strand? (updStrand s k (fun t => { t with held := [] })) k = some { r with held := [] } :=
    strand?_updStrand_some h (fun _ => rfl)
  obtain ⟨q, hq, same⟩ := (Alike.releaseHeld h).strand_some _ _ emptied
  exact ⟨q, hq, bare_holds same⟩

/-- The region of a strand closes and its records are released, which a COMMIT issued again after a halt does not do (10 R258; log 137). -/
def closeRegion (s : State) (k : Nat) : State :=
  let closed := updStrand s k (fun t => { t with region := none })
  if s.undo.isSome then closed else releaseHeld closed k

theorem closeRegion_pend (s : State) (k : Nat) : (closeRegion s k).pend = s.pend := by
  simp only [closeRegion]
  split
  · rfl
  · exact releaseHeld_pend _ _
theorem closeRegion_key (s : State) (k : Nat) : (closeRegion s k).key = s.key := by
  simp only [closeRegion]
  split
  · rfl
  · exact releaseHeld_key _ _

theorem closeRegion_strand {s : State} {k : Nat} {r : Strand} (h : strand? s k = some r) :
    ∃ q, strand? (closeRegion s k) k = some q ∧ q.pc = r.pc ∧ q.clause = r.clause ∧ q.region = none ∧ (s.undo = none → q.held = []) := by
  have closed : strand? (updStrand s k (fun t => { t with region := none })) k = some { r with region := none } :=
    strand?_updStrand_some h (fun _ => rfl)
  simp only [closeRegion]
  split
  next again => exact ⟨_, closed, rfl, rfl, rfl, fun first => by simp [first] at again⟩
  next =>
    obtain ⟨q, hq, hpc, hclause, hregion, hheld⟩ := strand?_releaseHeld closed
    exact ⟨q, hq, hpc, hclause, hregion, fun _ => hheld⟩

theorem closeRegion_bare {s : State} {k : Nat} {r : Strand} (h : strand? s k = some r) :
    (closeRegion s k).skeins.map Skein.bare = s.skeins.map Skein.bare := by
  have closed : strand? (updStrand s k (fun t => { t with region := none })) k = some { r with region := none } :=
    strand?_updStrand_some h (fun _ => rfl)
  simp only [closeRegion]
  split
  · rfl
  · exact (Alike.releaseHeld closed).skeins

/-! ### Putting an access in flight -/

theorem dropLines_keeps (s : State) (sp : Nat) (ls : List Lane) :
    (dropLines s sp ls).strands = s.strands ∧ (dropLines s sp ls).skeins = s.skeins ∧ (dropLines s sp ls).pend = s.pend ∧ (dropLines s sp ls).key = s.key :=
  have kept : ∀ {β : Type} (g : State → β), (∀ u l, g (dropL1 u sp l) = g u) → g (dropLines s sp ls) = g s := fun g hg => foldl_keeps g _ hg _ _
  ⟨kept State.strands (fun _ _ => rfl), kept State.skeins (fun _ _ => rfl), kept State.pend (fun _ _ => rfl), kept State.key (fun _ _ => rfl)⟩

/-- An access put in flight leaves its strand as it is but for the flags held. -/
theorem strand?_inFlight {s : State} {e : Env} {r : Strand} (h : strand? s e.t.id = some r) (setf : BitVec 2) (acc : Acc) (lanes : List Lane)
    (miss held : Bool) (fl : Flags) : strand? (inFlight s e setf acc lanes miss held fl) e.t.id =
      some { r with holds := r.holds ++ (flagsOf e.t setf).map (fun f => (f, s.key)) } := by
  exact strand?_updStrand_some (s := { s with pend := _, key := _ }) h (fun _ => rfl)

/-- An access put in flight is in flight once its strand has gone on. -/
theorem Flying.of_inFlight {s s1 : State} {e : Env} {r : Strand} (h : strand? s e.t.id = some r) (hkey : s.key = s1.key) (setf : BitVec 2) (acc : Acc)
    (lanes : List Lane) (miss held : Bool) (fl : Flags) (n : Nat) :
    Flying (advanceStrand (inFlight s e setf acc lanes miss held fl) e.t.id n) s1 e.t e.x setf acc lanes fl := by
  obtain ⟨q, hq, -, -, hholds⟩ := strand_goes_on (strand?_inFlight h setf acc lanes miss held fl) n
  refine ⟨⟨_, List.mem_append_right _ (List.mem_singleton_self _), hkey, rfl, rfl, rfl, rfl, rfl, rfl⟩, fun f hf => ⟨q, hq, ?_⟩⟩
  rw [hholds, ← hkey]
  exact List.mem_append_right _ (List.mem_map_of_mem hf)

/-! ### What COMMIT comes to -/

theorem afterAcquire_of_none {e : Env} {s : State} (h : acquiring s e.t = none) (k : State → Res) : afterAcquire e s k = k s := by
  simp [afterAcquire, h]

abbrev shCommit (o : OpC) : Shape := leadShape 8 o.c [] [] false

/-- The state in which the strand of a COMMIT in a region goes on: the region closed, its stores in flight. -/
def committed (o : OpC) (e : Env) (g : IdemRegion) (s1 : State) (ls : List Lane) (held : Bool) : State :=
  if ls.isEmpty then closeRegion s1 e.t.id
  else inFlight (dropLines (closeRegion s1 e.t.id) e.x.spindle ls) e o.c.setf (.commitStore g.stores) ls false held 0

theorem commitBody_outside {o : OpC} {e : Env} {s : State} (free : acquiring s e.t = none) (outside : e.t.region = none) :
    commitBody o e s = .ok (releaseHeld s e.t.id) := by
  simp only [commitBody, afterAcquire_of_none free, outside]

theorem commitBody_inside {o : OpC} {e : Env} {s s1 : State} {g : IdemRegion} {ls : List Lane} {held walked : Bool} (free : acquiring s e.t = none)
    (inside : e.t.region = some g) (out : checkLanes (Need.plain false true) e.x.id e.x e.t.pc s (commitLanes g) = (s1, .ok (ls, held, walked))) :
    commitBody o e s = .ok (committed o e g s1 ls held) := by
  simp only [commitBody, afterAcquire_of_none free, inside, out, committed, closeRegion]
  split <;> rfl

/-- Where the strand of a COMMIT stands once its stores are in flight. -/
theorem committed_strand {s1 : State} {e : Env} {r : Strand} (hr : strand? s1 e.t.id = some r) (o : OpC) (g : IdemRegion) (ls : List Lane) (held : Bool) :
    ∃ q, strand? (committed o e g s1 ls held) e.t.id = some q ∧ q.pc = r.pc ∧ q.clause = r.clause ∧ q.region = none ∧ (s1.undo = none → q.held = []) := by
  obtain ⟨q, hq, kept⟩ := closeRegion_strand hr
  unfold committed
  split
  · exact ⟨q, hq, kept⟩
  · obtain ⟨strands, -, -, -⟩ := dropLines_keeps (closeRegion s1 e.t.id) e.x.spindle ls
    have dropped : strand? (dropLines (closeRegion s1 e.t.id) e.x.spindle ls) e.t.id = some q := by rw [strand?, strands]; exact hq
    exact ⟨_, strand?_inFlight dropped _ _ _ _ _ _, kept⟩

theorem committed_bare {s1 : State} {e : Env} {r : Strand} (hr : strand? s1 e.t.id = some r) (o : OpC) (g : IdemRegion) (ls : List Lane) (held : Bool) :
    (committed o e g s1 ls held).skeins.map Skein.bare = s1.skeins.map Skein.bare := by
  unfold committed
  split
  · exact closeRegion_bare hr
  · obtain ⟨-, skeins, -, -⟩ := dropLines_keeps (closeRegion s1 e.t.id) e.x.spindle ls
    exact (congrArg (List.map Skein.bare) skeins).trans (closeRegion_bare hr)

/-- With no store buffered, a COMMIT puts nothing in flight. -/
theorem committed_nothing (o : OpC) (e : Env) (g : IdemRegion) (s1 : State) (held : Bool) : (committed o e g s1 [] held).pend = s1.pend :=
  closeRegion_pend s1 e.t.id

theorem committed_flying {s1 : State} {e : Env} {r : Strand} (hr : strand? s1 e.t.id = some r) (o : OpC) (g : IdemRegion) {ls : List Lane} (stores : ls ≠ [])
    (held : Bool) (n : Nat) : Flying (advanceStrand (committed o e g s1 ls held) e.t.id n) s1 e.t e.x o.c.setf (.commitStore g.stores) ls 0 := by
  obtain ⟨q, hq, -⟩ := closeRegion_strand hr
  obtain ⟨strands, -, -, key⟩ := dropLines_keeps (closeRegion s1 e.t.id) e.x.spindle ls
  have dropped : strand? (dropLines (closeRegion s1 e.t.id) e.x.spindle ls) e.t.id = some q := by rw [strand?, strands]; exact hq
  rw [committed, if_neg (by simpa using stores)]
  exact .of_inFlight dropped (key.trans (closeRegion_key s1 e.t.id)) _ _ _ _ _ _ n

section Commit
variable {o : OpC} {s : State} {t : Strand} {x : Skein} {u : State} {y : Skein} {w : Strand} (h : Issues (shCommit o) s t x u y w)
include h

theorem exec_commit {v : State} (body : commitBody o (issueEnv (shCommit o) t x s) u = .ok v) :
    exec (.commit o) s = .next (advanceStrand v t.id 8) := by
  have issued : exec (.commit o) s = .next (settle (shCommit o) (issueEnv (shCommit o) t x s) (commitBody o (issueEnv (shCommit o) t x s) u)) :=
    issue_of_issues h _ _
  rw [issued, body, settle_ok_of_no_reads rfl]
  rfl

theorem commit_outside_region (free : acquiring u t = none) (outside : t.region = none) :
    Completes (.commit o) s (fun v => WentOn v t 8 ∧ KeepsRegs x (issueEnv (shCommit o) t x s).act [] [] [] [] u v ∧ v.pend = u.pend ∧
      ∃ r, strand? v t.id = some r ∧ r.held = []) := by
  obtain ⟨q, hq, hpc, hclause, -, hheld⟩ := strand?_releaseHeld h.strandNow
  obtain ⟨wpc, wclause⟩ := h.place
  obtain ⟨r, hr, -, heldKept, -⟩ := strand_goes_on hq 8
  exact ⟨_, exec_commit h (commitBody_outside free outside), .of_stands ⟨q, hq, hpc.trans wpc, hclause.trans wclause⟩ 8,
    .of_bare (v := advanceStrand (releaseHeld u t.id) t.id 8) (Alike.releaseHeld h.strandNow).skeins, releaseHeld_pend u t.id, r, hr, heldKept.trans hheld⟩

theorem commit_in_region {g : IdemRegion} {s1 : State} {ls : List Lane} {held walked : Bool} (free : acquiring u t = none) (inside : t.region = some g)
    (checked : Checked (Need.plain false true) t x u (commitLanes g) s1 ls held walked) :
    Completes (.commit o) s (fun v => WentOn v t 8 ∧ KeepsRegs x (issueEnv (shCommit o) t x s).act [] [] [] [] s1 v ∧
      (∃ r, strand? v t.id = some r ∧ r.region = none ∧ (s1.undo = none → r.held = [])) ∧
      (ls = [] → v.pend = s1.pend) ∧ (ls ≠ [] → Flying v s1 t x o.c.setf (.commitStore g.stores) ls 0)) := by
  obtain ⟨r, hr, rpc, rclause⟩ := checked.stands
  obtain ⟨q, hq, hpc, hclause, hregion, hheld⟩ := committed_strand (e := issueEnv (shCommit o) t x s) hr o g ls held
  obtain ⟨q', hq', regionKept, heldKept, -⟩ := strand_goes_on hq 8
  refine ⟨_, exec_commit h (commitBody_inside free inside checked.out), .of_stands ⟨q, hq, hpc.trans rpc, hclause.trans rclause⟩ 8,
    .of_bare (v := advanceStrand _ t.id 8) (committed_bare (e := issueEnv (shCommit o) t x s) hr o g ls held),
    ⟨q', hq', regionKept.trans hregion, fun first => heldKept.trans (hheld first)⟩, ?_, ?_⟩
  · rintro rfl
    exact committed_nothing o (issueEnv (shCommit o) t x s) g s1 held
  · exact fun stores => committed_flying (e := issueEnv (shCommit o) t x s) hr o g stores held 8

end Commit

/-! ### JREAD -/

abbrev shJread (o : OpJread) : Shape := leadShape 8 o.c [] [{ reg := o.d, wid := .two }] false

theorem strandWork_eq_nil (s : State) (k : Nat) :
    strandWork s k = [] ↔ (∀ p ∈ s.pend, k ∉ p.strands) ∧ ∀ a ∈ s.array, k ∉ a.strands := by
  simp [strandWork, List.filter_eq_nil_iff]

theorem jreadValue_eq (c : Ctx) (sel : JSel) : jreadValue c sel =
    match sel with | .acc => c.jacc | .mlo => c.mtr.setWidth 64 | .mhi => BitVec.ofNat 64 (c.mtr.toNat / 2 ^ 64) | .bkt => c.bkt.lvl := by
  cases sel
  case acc => rfl
  case mlo => exact BitVec.eq_of_toNat_eq (by simp [jreadValue, bits])
  case mhi => exact BitVec.eq_of_toNat_eq (by simp [jreadValue, bits, Nat.shiftRight_eq_div_pow])
  case bkt => rfl

/-- JREAD's own charge, taken as its wait for outstanding work ends (log 106). -/
def jreadCharged (o : OpJread) (t : Strand) (x : Skein) (s : State) : State :=
  joinActive (charge s (acctOf x) (millOfSpindle x.spindle) (issueClass (shJread o)) 1) t x

theorem Alike.jreadCharged (o : OpJread) (t : Strand) (x : Skein) (s : State) : Alike s (jreadCharged o t x s) :=
  (Alike.charge s _ _ _ _).trans (.joinActive _ _ _)

/-- With no work of its strand outstanding JREAD reads the context as it issues, before its charge; issued again, as it stands then. -/
theorem jreadBody_idle {o : OpJread} {e : Env} {s : State} (idle : strandWork s e.t.id = []) :
    (e.t.wait = none → ∀ c, ctxOf e.s e.x = some c → jreadBody o e s = .ok (putD64 s e o.d (jreadValue c o.sel))) ∧
    (e.t.wait ≠ none → ∀ c, ctxOf s e.x = some c →
      ∃ v, (v = s ∨ v = jreadCharged o e.t e.x s) ∧ jreadBody o e s = .ok (putD64 v e o.d (jreadValue c o.sel))) := by
  refine ⟨fun first c hc => by simp [jreadBody, idle, first, hc], fun again c hc => ?_⟩
  obtain ⟨wt, hwt⟩ := Option.ne_none_iff_exists'.mp again
  by_cases work : ∃ l, wt = .skeinWork l
  · obtain ⟨l, rfl⟩ := work
    exact ⟨_, .inr rfl, by simp [jreadBody, jreadCharged, idle, hwt, hc]⟩
  · refine ⟨s, .inl rfl, ?_⟩
    cases wt <;> simp_all [jreadBody]

/-- With work of its strand outstanding JREAD waits for it. -/
theorem jreadBody_busy {o : OpJread} {e : Env} {s : State} (busy : strandWork s e.t.id ≠ []) :
    (e.t.wait = none → jreadBody o e s = .stall e.s .ready (.skeinWork (strandWork s e.t.id))) ∧
    (∀ l, e.t.wait = some (.skeinWork l) → jreadBody o e s = .stall s .ready (.skeinWork (strandWork s e.t.id))) :=
  ⟨fun first => by simp [jreadBody, first, busy], fun l again => by simp [jreadBody, again, busy]⟩

section Jread
variable {o : OpJread} {s : State} {t : Strand} {x : Skein} {u : State} {y : Skein} {w : Strand} (h : Issues (shJread o) s t x u y w)
include h

theorem exec_jread : exec (.jread o) s = .next (settle (shJread o) (issueEnv (shJread o) t x s) (jreadBody o (issueEnv (shJread o) t x s) u)) :=
  issue_of_issues h _ _

/-- A JREAD that reads its value in u, or in u charged, goes on with the value in D. -/
theorem jread_completes {v : State} {r : BitVec 64} (hv : v = u ∨ v = jreadCharged o t x u)
    (body : jreadBody o (issueEnv (shJread o) t x s) u = .ok (putD64 v (issueEnv (shJread o) t x s) o.d r)) :
    Completes (.jread o) s (fun v => WentOn v t 8 ∧ QuietBut (shJread o) x (issueEnv (shJread o) t x s).act u v ∧
      ∀ f, Writes (issueEnv (shJread o) t x s) o.d f → Holds64 v x.id f o.d r) := by
  have runs : exec (.jread o) s = .next (advanceStrand (putD64 v (issueEnv (shJread o) t x s) o.d r) t.id 8) := by
    rw [exec_jread h, body, settle_ok_of_no_reads rfl]
    rfl
  have alike : Alike u v := by
    obtain rfl | rfl := hv
    · exact .refl _
    · exact .jreadCharged o t x u
  have mem : v.mem = u.mem ∧ v.fab = u.fab := by obtain rfl | rfl := hv <;> simp [jreadCharged]
  obtain ⟨z, hz, same⟩ := alike.skein_some _ _ h.skeinNow
  have stands : Stands v t := h.stands.alike alike
  have regs : RegsBut (shJread o) x (issueEnv (shJread o) t x s).act u (putD64 v (issueEnv (shJread o) t x s) o.d r) :=
    KeepsRegs.trans (.of_bare alike.skeins) (RegsBut.putD64 rfl v (issueEnv (shJread o) t x s) r)
  refine ⟨_, runs, .of_stands (v := putD64 v _ o.d r) stands 8, ⟨regs.then_bare rfl, .of_mem mem.1 mem.2⟩, fun f hf => ?_⟩
  have sameFibre : z.fibre? f = y.fibre? f := show z.bare.fibre? f = y.bare.fibre? f by rw [same]
  exact holds64_putD64 hz (sameFibre ▸ h.fibres f hf.1) hf (fun hd => wide_pair _ _ _ _ _ rfl hd h.legal) r

theorem jread_reads_first (first : t.wait = none) (idle : strandWork u t.id = []) {c : Ctx} (hc : ctxOf s x = some c) {r : BitVec 64}
    (hr : jreadValue c o.sel = r) :
    Completes (.jread o) s (fun v => WentOn v t 8 ∧ QuietBut (shJread o) x (issueEnv (shJread o) t x s).act u v ∧
      ∀ f, Writes (issueEnv (shJread o) t x s) o.d f → Holds64 v x.id f o.d r) :=
  hr ▸ jread_completes h (.inl rfl) ((jreadBody_idle idle).1 first c hc)

theorem jread_reads_again (again : t.wait ≠ none) (idle : strandWork u t.id = []) {c : Ctx} (hc : ctxOf u x = some c) {r : BitVec 64}
    (hr : jreadValue c o.sel = r) :
    Completes (.jread o) s (fun v => WentOn v t 8 ∧ QuietBut (shJread o) x (issueEnv (shJread o) t x s).act u v ∧
      ∀ f, Writes (issueEnv (shJread o) t x s) o.d f → Holds64 v x.id f o.d r) := by
  obtain ⟨v, hv, body⟩ := (jreadBody_idle (o := o) (e := issueEnv (shJread o) t x s) idle).2 again c hc
  exact jread_completes h hv (hr ▸ body)

theorem jread_waits (busy : strandWork u t.id ≠ []) (wait : t.wait = none ∨ ∃ l, t.wait = some (.skeinWork l)) :
    ∃ v ids, exec (.jread o) s = .next v ∧ ids ≠ [] ∧ ∃ r, strand? v t.id = some r ∧ r.pc = t.pc ∧ r.wait = some (.skeinWork ids) := by
  obtain ⟨bodyFirst, bodyAgain⟩ := jreadBody_busy (o := o) (e := issueEnv (shJread o) t x s) busy
  have stalled : ∃ v, Stands v t ∧ jreadBody o (issueEnv (shJread o) t x s) u = .stall v .ready (.skeinWork (strandWork u t.id)) := by
    obtain first | ⟨l, again⟩ := wait
    · exact ⟨s, ⟨t, h.strand, rfl, rfl⟩, bodyFirst first⟩
    · exact ⟨u, h.stands, bodyAgain l again⟩
  obtain ⟨v, stands, body⟩ := stalled
  obtain ⟨r, hr, hpc, -, -, hwait, -⟩ := Waits.of_stall (e := issueEnv (shJread o) t x s) stands (shJread o) .ready (.skeinWork (strandWork u t.id))
  exact ⟨_, _, by rw [exec_jread h, body], busy, r, hr, hpc, hwait⟩

end Jread

/-! ### The statement -/

/-- Settles O47: IDEM by the region buffers of its skein, COMMIT by the region of its strand, JREAD by the work of its strand and by whether it waited. -/
theorem regions : Obligations.Regions := by
  unfold Obligations.Regions
  refine ⟨fun o s t x u y w h => ?idem, fun o s t x u y w h free => ?commit, fun o s t x u y w h => ?jread⟩
  case idem =>
    exact ⟨fun noBuffers => idem_without_buffers h noBuffers, fun buffers full => idem_waits h buffers full, fun free => idem_opens h free⟩
  case commit =>
    exact ⟨fun outside => commit_outside_region h free outside,
      fun g inside s1 ls held walked checked => commit_in_region h free inside checked⟩
  case jread =>
    exact ⟨fun first idle c hc => jread_reads_first h first ((strandWork_eq_nil u t.id).mpr idle) hc (jreadValue_eq c o.sel),
      fun again idle c hc => jread_reads_again h again ((strandWork_eq_nil u t.id).mpr idle) hc (jreadValue_eq c o.sel),
      fun wait busy => jread_waits h (mt (strandWork_eq_nil u t.id).mp busy) wait⟩

end Sys2Proof.Machine
end


section
/-! SUPPORT. Issue and operand delivery leave each skein its VD and its context, whatever the other strands do meanwhile (an episode of runahead may end); and
what a computing instruction comes to when an arithmetic trap may follow it (04 R107, R109; 03 R75). -/
namespace Sys2Proof.Machine

/-! ### Whose a skein is -/

/-- A skein's number, VD and context. -/
def Skein.home (x : Skein) : Nat × Nat × Nat := (x.id, x.vd, x.ctx)
def homes (s : State) : List (Nat × Nat × Nat) := s.skeins.map Skein.home

theorem Alike.homes {s u : State} (a : Alike s u) : homes u = homes s := by
  have h := congrArg (List.map Skein.home) a.skeins
  rw [List.map_map, List.map_map] at h
  exact h

theorem homes_updSkein (s : State) (k : Nat) (f : Skein → Skein) (h : ∀ y, (f y).home = y.home) : homes (updSkein s k f) = homes s :=
  map_updIf_bare Skein.home _ f s.skeins h

theorem homes_raEnd (s : State) (t : Strand) (st : StrandState) : homes (raEnd s t st) = homes s := by
  unfold raEnd
  split
  · rfl
  · exact homes_updSkein s t.skein _ fun _ => rfl

theorem homes_haltHank (s : State) (id : Nat) (why : HaltWhy) (mig : Bool) : homes (haltHank s id why mig) = homes s := by
  unfold haltHank
  split
  · rfl
  · dsimp only
    split
    · exact foldl_keeps homes _ (fun u t => homes_raEnd u t .held) _ _
    · rfl
    · rfl

theorem homes_stopVd (s : State) (vd reason : Nat) : homes (stopVd s vd reason) = homes s :=
  foldl_keeps homes _ (fun u h => homes_haltHank u h .preempt false) _ _

theorem homes_s2Dirty (s : State) (vd l g lg : Nat) : homes (s2Dirty s vd l g lg).1 = homes s := by
  unfold s2Dirty
  dsimp only
  split
  · rfl
  · split
    · exact (Alike.pteSet s l 6).homes
    · split
      · dsimp only
        split
        · rfl
        · exact homes_stopVd s vd 1
      · exact ((Alike.pteSet s l 6).trans (.writeSpa _ _ _)).homes

theorem homes_walkEnd (s : State) (q : XReq) (used : List (Nat × Nat × Nat)) (l1 l2 : Leaf) (gpa : Nat) :
    homes (walkEnd s q used l1 l2 gpa).1 = homes s := by
  have accessed : homes (pteAccess (pteAccess s q.pf l1.at_) q.pf l2.at_) = homes s := ((Alike.pteAccess _ _ _).trans (.pteAccess _ _ _)).homes
  have dirtied : ∀ (g : Nat) (r : State × Bool), s2Dirty (pteAccess (pteAccess s q.pf l1.at_) q.pf l2.at_) q.vd l2.at_ g l2.lg = r → homes r.1 = homes s :=
    fun g r he => he ▸ (homes_s2Dirty _ _ _ _ _).trans accessed
  unfold walkEnd
  dsimp only
  split
  · split
    · rename_i he
      exact dirtied _ _ he
    · rename_i he
      exact (Alike.pteSet _ _ _).homes.trans (dirtied _ _ he)
  · exact accessed

theorem homes_walk (s : State) (q : XReq) : homes (walk s q).1 = homes s := by
  have locks := (Alike.walkLocks s).homes
  have used : ∀ (l : List (Nat × Nat × Nat)) (u : State), homes (l.foldl (fun u a => pteAccess u q.pf a.1) u) = homes u :=
    foldl_keeps homes _ fun u a => (Alike.pteAccess u q.pf a.1).homes
  rw [← locks]
  unfold walk
  generalize walkLocks s = s
  have charged := (Alike.charge s q.acct q.mill 20 (walkOf s q).steps).homes
  unfold walkIn
  dsimp only
  split
  · exact (used _ _).trans charged
  · split
    · exact (used _ _).trans charged
    · exact (homes_walkEnd _ _ _ _ _ _).trans ((used _ _).trans charged)

theorem homes_xlate (s : State) (q : XReq) (last : Option Trans) (sp : Option Nat) : homes (xlate s q last sp).1 = homes s := by
  have walked : ∀ r, walk s q = r → homes r.1 = homes s := fun r he => he ▸ homes_walk s q
  have put : ∀ n, homes (match walk s q with
      | (s1, .ok a t1 h w) => ((tlbPut s1 n t1, XOut.ok a t1 h w) : State × XOut)
      | r => r).1 = homes s := by
    intro n
    split
    · rename_i he
      exact (Alike.tlbPut _ _ _).homes.trans (walked _ he)
    · exact homes_walk s q
  have chosen : ∀ (kept : Bool) (o : XOut) (r : State × XOut), homes r.1 = homes s → homes (if kept = true then (s, o) else r).1 = homes s := by
    intro kept o r hr
    cases kept
    · exact hr
    · rfl
  unfold xlate
  split
  · rfl
  · split
    · exact (Alike.charge _ _ _ _ _).homes
    · split
      · exact homes_walk s q
      · split
        · exact chosen _ _ _ (put _)
        · exact put _

/-! ### Register lines and operands -/

theorem homes_backing {s u : State} {x : Skein} {off : Nat} {data : Option (List (Option Byte))} (h : backing s x off data = .ok u) :
    homes u = homes s := by
  have accessed : ∀ (a : Nat) (v : State),
      homes ((upTo 0 4).foldl (fun u i => (l2Access u (acctOf x) (a / 128 + i) data.isSome false .normal false).1) v) = homes v :=
    fun a => foldl_keeps homes _ (fun u i => (Alike.l2Access u _ _ _ _ _ _).homes) _
  unfold backing at h
  dsimp only at h
  split at h
  · cases h
  · rename_i he
    have translated := congrArg (fun r => homes r.1) he
    injection h with h
    subst h
    refine Eq.trans ?_ (translated.symm.trans (homes_xlate s _ none _))
    split
    · exact (Alike.writeSome _ _ _).homes.trans (accessed _ _)
    · exact accessed _ _

theorem homes_makeRoom {s u : State} {xk : Nat} {ra b : Bool} (h : makeRoom s xk ra = .ok (u, b)) : homes u = homes s := by
  have erased : ∀ l, homes (updSkein s xk (fun y => { y with lines := y.lines.erase l })) = homes s := fun l => homes_updSkein s xk _ fun _ => rfl
  unfold makeRoom at h
  split at h
  · cases h; rfl
  · split at h
    · cases h; rfl
    · split at h
      · cases h; rfl
      · dsimp only at h
        split at h
        · split at h
          · cases h; exact erased _
          · split at h
            · cases h
            · rename_i he
              cases h
              exact ((Alike.charge _ _ _ _ _).trans (.updCtx _ _ _ _)).homes.trans ((homes_backing he).trans (erased _))
        · cases h; exact erased _
        · cases h; exact erased _

theorem homes_bringLine {s u : State} {x : Skein} {k : LineKey} {write whole : Bool} (h : bringLine s x k write whole = .ok u) : homes u = homes s := by
  unfold bringLine at h
  split at h
  · cases h; exact (Alike.addLine _ _ _ _).homes
  · split at h
    · cases h
    · rename_i he
      cases h
      exact (((Alike.charge _ _ _ _ _).trans (.updCtx _ _ _ _)).trans (.addLine _ _ _ _)).homes.trans (homes_backing he)

theorem homes_touchLine {s u : State} {xk : Nat} {k : LineKey} {write whole : Bool} (h : touchLine s xk k write whole = .ok u) : homes u = homes s := by
  have noted : homes (if write then updSkein s xk (fun y => if y.written.contains k then y else { y with written := y.written ++ [k] }) else s) = homes s := by
    split
    · exact homes_updSkein s xk _ fun y => by split <;> rfl
    · rfl
  unfold touchLine at h
  dsimp only at h
  split at h
  · cases h; exact noted
  · split at h
    · cases h
      refine (homes_updSkein _ xk _ ?_).trans noted
      exact fun _ => rfl
    · split at h
      · cases h
      · rename_i he
        cases h
        exact (homes_makeRoom he).trans noted
      · rename_i he
        exact (homes_bringLine h).trans ((homes_makeRoom he).trans noted)

theorem homes_touchAll {xk : Nat} {write : Bool} {l : List (LineKey × Bool)} : ∀ {s u : State}, touchAll s xk write l = .ok u → homes u = homes s := by
  induction l with
  | nil => intro s u h; cases h; rfl
  | cons a l ih =>
    intro s u h
    unfold touchAll at h
    split at h
    · cases h
    · rename_i he
      exact (ih h).trans (homes_touchLine he)

theorem homes_deliverOperands {s u : State} {t : Strand} {x : Skein} {act rf : List Nat} {reads : List Rd} {writes : List Wr}
    (h : deliverOperands s t x act rf reads writes = .ok u) : homes u = homes s := by
  unfold deliverOperands at h
  dsimp only at h
  split at h
  · cases h
  · rename_i read
    split at h
    · cases h
    · rename_i written
      cases h
      refine Eq.trans ?_ ((homes_touchAll written).trans (homes_touchAll read))
      exact (((Alike.foldl _ (fun u r => .opcRead u _ _ r) _ _).trans (.charge _ _ _ _ _)).trans (Alike.foldl _ (fun u r => .opcPut u _ _ r _) _ _)).homes

theorem homes_issueState {sh : Shape} {t : Strand} {x : Skein} {s u : State} (h : issueState sh t x s = .ok u) : homes u = homes s := by
  have charged := (Alike.chargeIssue s sh t x).homes
  unfold issueState at h
  dsimp only at h
  split at h
  · cases h; exact charged
  · split at h
    · cases h
    · rename_i he
      cases h
      refine Eq.trans ?_ ((homes_deliverOperands he).trans charged)
      split <;> rfl

/-- A skein's VD and context go by the homes alone. -/
theorem skein?_home_congr {s u : State} (h : homes u = homes s) (k : Nat) : (skein? u k).map Skein.home = (skein? s k).map Skein.home := by
  have found := find?_map_bare Skein.home (fun x => x.id == k) (fun e => e.1 == k) (fun _ => rfl)
  unfold skein?
  rw [← found s.skeins, ← found u.skeins]
  exact congrArg (fun l => l.find? (fun e => e.1 == k)) h

/-- An instruction's operands delivered, its skein is still of its VD and its context. -/
theorem Issues.skein_home {sh : Shape} {s : State} {t : Strand} {x : Skein} {u : State} {y : Skein} {w : Strand} (h : Issues sh s t x u y w) :
    y.home = x.home := by
  have hid : x.id = t.skein := skein?_id s _ x h.skein
  have now := skein?_home_congr (homes_issueState h.state) x.id
  rw [h.skeinNow, hid, h.skein] at now
  exact Option.some.inj now

/-! ### A computing instruction, and the trap after it -/

/-- Every computing instruction's meaning is an issue whose effect is `compute`. -/
theorem exec_computes {i : Instr} {sh : Shape} (h : computeShape i = some sh) : ∃ ra f, ∀ s, exec i s = issue sh ra (compute sh f) s := by
  cases i
  case cvtb o =>
    cases hd : o.dir with
    | false =>
      obtain rfl : sh = shCvtbTo o := by simpa [computeShape, hd, eq_comm] using h
      exact ⟨_, _, fun s => by show execCvtb o s = _; unfold execCvtb; simp only [hd]; rfl⟩
    | true =>
      obtain rfl : sh = shCvtbFrom o := by simpa [computeShape, hd, eq_comm] using h
      exact ⟨_, _, fun s => by show execCvtb o s = _; unfold execCvtb; simp only [hd]; rfl⟩
  all_goals cases h
  all_goals exact ⟨_, _, fun _ => rfl⟩

/-- The flags that a computing instruction raises in a fibre; on the scalar path every fibre's are the lead fibre's. -/
def flagsIn (sh : Shape) (f : Env → Nat → FOut) (e : Env) (i : Nat) : Flags := (f e (whose sh e i)).flags

theorem raisedBy_eq_orFlags (sh : Shape) (f : Env → Nat → FOut) (e : Env) : raisedBy (computed sh f e) = orFlags e.act (flagsIn sh f e) := by
  unfold raisedBy computed orFlags
  rw [List.foldl_map]
  rfl

/-- The flags that can trap: with uniform destinations alone those of the lead fibre, whose result is stored (03 R75). -/
theorem keptFlags_computed (sh : Shape) (f : Env → Nat → FOut) {e : Env} (hact : e.act ≠ []) (all : Flags) :
    keptFlags sh (computed sh f e) all = if sh.writes ≠ [] ∧ ∀ w ∈ sh.writes, 192 ≤ w.reg.toNat then flagsIn sh f e e.lead else all := by
  obtain ⟨l, hl⟩ := lead_cons e hact
  have first : computed sh f e = (e.lead, f e (whose sh e e.lead)) :: l.map (fun i => (i, f e (whose sh e i))) :=
    congrArg (List.map fun i => (i, f e (whose sh e i))) hl
  have uniform : (!sh.writes.isEmpty && sh.writes.all (fun w => decide (192 ≤ w.reg.toNat))) = true ↔
      sh.writes ≠ [] ∧ ∀ w ∈ sh.writes, 192 ≤ w.reg.toNat := by simp
  unfold keptFlags
  simp only [uniform, first]
  rfl

theorem compute_flags (sh : Shape) (f : Env → Nat → FOut) (e : Env) (u : State) :
    compute sh f e u = .flags (updSkein u e.x.id (fun x => x.putOuts sh e.act (computed sh f e))) (raisedBy (computed sh f e))
      (keptFlags sh (computed sh f e) (raisedBy (computed sh f e))) := by
  unfold compute raisedBy computed whose
  simp only [beq_iff_eq]

/-- Whether flags meet TE does not depend on FLAGS. -/
theorem trapsOn_flagsRaised {x : Skein} {u v : State} {fl : Flags} (h : FlagsRaised x u v fl) {c : Ctx} (hc : ctx? u x.vd x.ctx = some c) (kept : Flags) :
    trapsOn v x.vd x.ctx kept = (kept &&& fpTe c.fpctl != 0) := by
  simp only [trapsOn, h c hc, fpTe_or]

/-- FLAGS of one context takes raised flags. -/
theorem raise_ctxs (s : State) (v c : Nat) (f : Flags) :
    (raise s v c f).ctxs = updIf (fun d => d.vd == v && d.num == c) (fun d => { d with fpctl := d.fpctl ||| f.setWidth 64 }) s.ctxs := by
  unfold raise
  split
  · rename_i h0
    subst h0
    simp [updIf]
  · rfl

theorem raise_rest (s : State) (v c : Nat) (f : Flags) : raise s v c f = { s with ctxs := (raise s v c f).ctxs } := by
  unfold raise
  split <;> rfl

theorem afterUse_rest (sh : Shape) (e : Env) (s : State) : afterUse sh e s = { s with skeins := (afterUse sh e s).skeins } := by
  unfold afterUse
  split <;> rfl

theorem advance_pc (t : Strand) (n : Nat) : (t.advance n).pc = t.pc + BitVec.ofNat 64 n := by
  unfold Strand.advance
  dsimp only
  split
  · rfl
  · split <;> rfl

theorem home_put32 (x : Skein) (d : Field8) (fs : List Nat) (v : Nat → BitVec 32) : (x.put32 d fs v).home = x.home := by
  unfold Skein.put32
  split
  · rfl
  · split <;> rfl
theorem home_put64 (x : Skein) (d : Field8) (fs : List Nat) (v : Nat → BitVec 64) : (x.put64 d fs v).home = x.home := by
  unfold Skein.put64
  split
  · rfl
  · split <;> rfl
theorem home_putPreds (x : Skein) (fs : List Nat) (v : Nat → List Bool) (ps : List (BitVec 4)) : (x.putPreds fs v ps).home = x.home := by
  unfold Skein.putPreds
  split <;> rfl
theorem homes_afterUse (sh : Shape) (e : Env) (s : State) : homes (afterUse sh e s) = homes s := by
  unfold afterUse
  split
  · rfl
  · refine homes_updSkein s _ _ fun y => ?_
    unfold Skein.used Skein.free Skein.release
    split <;> rfl

section
variable {sh : Shape} {s : State} {t : Strand} {x : Skein} {u : State} {y : Skein} {w : Strand} (h : Issues sh s t x u y w)
include h

/-- What a computing instruction leaves as it was, trap or no trap. -/
theorem computeFrame_computedState (f : Env → Nat → FOut) :
    ComputeFrame sh t x (issueEnv sh t x s).act u (computedState sh f (issueEnv sh t x s) u) where
  rest := by
    unfold computedState advanceStrand
    rw [afterUse_rest, raise_rest]
    rfl
  strands := by
    unfold computedState advanceStrand
    rw [updStrand_strands, afterUse_strands, raise_strands]
    rfl
  ctxs := ⟨raisedBy (computed sh f (issueEnv sh t x s)), by
    unfold computedState
    rw [advanceStrand_ctxs, afterUse_ctxs, raise_ctxs]
    rfl⟩
  skeins k hk := computedState_skein_ne sh f _ u k hk
  vregs := (computedState_frame h f).1
  gregs := (computedState_frame h f).2.1
  preds := (computedState_frame h f).2.2

theorem homes_computedState (f : Env → Nat → FOut) : homes (computedState sh f (issueEnv sh t x s) u) = homes u := by
  have results : ∀ (z : Skein) outs, (z.putOuts sh (issueEnv sh t x s).act outs).home = z.home := by
    intro z outs
    have words := putWords_keeps (fun q => q.home = z.home) (issueEnv sh t x s).act (fun i => (outOf outs i).words) sh.writes
      (runsLow_of_legal _ _ _ _ h.legal) (fun q d v hq _ => (home_put32 q d _ v).trans hq) (fun q d v hq _ => (home_put64 q d _ v).trans hq) z 0 rfl
    exact (home_putPreds _ _ _ _).trans words
  have raised : ∀ (v : State) (n k : Nat) (fl : Flags), homes (raise v n k fl) = homes v := fun v n k fl => congrArg (List.map Skein.home) (raise_skeins v n k fl)
  exact (homes_afterUse _ _ _).trans ((raised _ _ _ _).trans (homes_updSkein _ _ _ fun z => results z _))

/-- The strand stands at the next word. -/
theorem computedState_strand (f : Env → Nat → FOut) :
    ∃ r, strand? (computedState sh f (issueEnv sh t x s) u) t.id = some r ∧ r.pc = t.pc + BitVec.ofNat 64 sh.len := by
  obtain ⟨hpc, -⟩ := h.place
  have before : ∀ v : State, v.strands = u.strands → strand? v t.id = some w := fun v hv => by
    have found := h.strandNow
    unfold strand? at found ⊢
    rwa [hv]
  refine ⟨_, strand?_advanceStrand (before _ ?_) sh.len, ?_⟩
  · rw [afterUse_strands, raise_strands]
    rfl
  · exact (advance_pc w sh.len).trans (congrArg (· + _) hpc)

/-- The skein is still of the VD and context that it was of as the instruction issued. -/
theorem computedState_home (f : Env → Nat → FOut) :
    ∃ z, skein? (computedState sh f (issueEnv sh t x s) u) x.id = some z ∧ z.vd = x.vd ∧ z.ctx = x.ctx := by
  have now := skein?_home_congr (homes_computedState h f) x.id
  rw [h.skeinNow] at now
  obtain ⟨z, hz, same⟩ := Option.map_eq_some_iff.mp now
  have home : z.home = x.home := same.trans h.skein_home
  simp only [Skein.home, Prod.mk.injEq] at home
  exact ⟨z, hz, home.2⟩

/-- What a computing instruction comes to: its whole effect, and ARITH-TRAP when the flags that it keeps meet TE (04 R109). -/
theorem compute_settled (ra : Env → State → RaRes) (f : Env → Nat → FOut) {c : Ctx} (hc : ctx? u x.vd x.ctx = some c) :
    let e := issueEnv sh t x s
    let v := computedState sh f e u
    let kept := keptFlags sh (computed sh f e) (raisedBy (computed sh f e))
    issue sh ra (compute sh f) s =
      .next (if sh.traps = true ∧ kept &&& fpTe c.fpctl ≠ 0 then Machine.arithTrap v (nowStrand v t) (nowSkein v x) kept else v) := by
  intro e v kept
  have meets : trapsOn v x.vd x.ctx kept = (kept &&& fpTe c.fpctl != 0) := trapsOn_flagsRaised (computedState_flags sh f e u) hc kept
  rw [issue_of_issues h, compute_flags]
  show Host.Outcome.next (if (sh.traps && trapsOn v x.vd x.ctx kept) = true then Machine.arithTrap v (nowStrand v t) (nowSkein v x) kept else v) = _
  rw [meets]
  simp only [Bool.and_eq_true, bne_iff_ne]

end

end Sys2Proof.Machine

namespace Sys2Proof
open Machine

/-- Settles O19: the effect and its frame are `computedState`'s; the trap is settled at the strand's next word, with the flags that `compute` keeps. -/
theorem arithTrap : Obligations.ArithTrap := by
  unfold Obligations.ArithTrap
  intro i sh hi s t x u y w h c hc e
  obtain ⟨ra, f, hexec⟩ := exec_computes hi
  have raised : raisedBy (computed sh f e) = orFlags e.act (flagsIn sh f e) := raisedBy_eq_orFlags sh f e
  have kept := keptFlags_computed sh f (e := e) h.active (raisedBy (computed sh f e))
  obtain ⟨r, hr, hpc⟩ := computedState_strand h f
  obtain ⟨z, hz, hvd, hctx⟩ := computedState_home h f
  refine ⟨flagsIn sh f e, computedState sh f e u, r, z, computeFrame_computedState h f, raised ▸ computedState_flags sh f e u, hr, hpc, hz, ?_⟩
  have hnow : nowStrand (computedState sh f e u) t = r := congrArg (Option.getD · t) hr
  have hskein : nowSkein (computedState sh f e u) x = z := congrArg (Option.getD · x) hz
  rw [hexec, compute_settled h ra f hc, hnow, hskein, kept, raised, Machine.arithTrap, hvd, hctx, hpc]
end Sys2Proof
end


section
/-! SUPPORT. Table records of SLUT (09 R229, R230): what lies where in a record, and that the two look-ups of a group come to the group's sum of products. -/
namespace Sys2Proof.Machine

/-! ### Sums over an interval -/

theorem upTo_eq_range' (n : Nat) : ∀ lo, upTo lo n = List.range' lo n := by
  induction n with
  | zero => exact fun _ => rfl
  | succ n ih => exact fun lo => by rw [upTo, ih, List.range'_succ]

theorem upTo_zero_eq_range (n : Nat) : upTo 0 n = List.range n := by rw [upTo_eq_range', List.range_eq_range']

/-- The sum of f i over the i below n. -/
def sumBelow (f : Nat → Int) : Nat → Int
  | 0 => 0
  | n + 1 => sumBelow f n + f n

/-- Adding up in turn is the sum. -/
theorem foldl_upTo_add (f : Nat → Int) (n : Nat) : (upTo 0 n).foldl (fun (acc : Int) i => acc + f i) 0 = sumBelow f n := by
  rw [upTo_zero_eq_range]
  induction n with
  | zero => rfl
  | succ n ih => rw [List.range_succ, List.foldl_append, ih]; rfl

theorem sumBelow_congr {f g : Nat → Int} {n : Nat} (h : ∀ i, i < n → f i = g i) : sumBelow f n = sumBelow g n := by
  induction n with
  | zero => rfl
  | succ n ih => rw [sumBelow, sumBelow, ih fun i hi => h i (by omega), h n (by omega)]

theorem sumBelow_sub_two_mul (f g : Nat → Int) (n : Nat) : sumBelow f n - 2 * sumBelow g n = sumBelow (fun i => f i - 2 * g i) n := by
  induction n with
  | zero => rfl
  | succ n ih => simp only [sumBelow]; omega

/-- Terms that are 0 from n on add nothing. -/
theorem sumBelow_of_zero {f : Nat → Int} {n : Nat} (h : ∀ i, n ≤ i → f i = 0) {m : Nat} (hm : n ≤ m) : sumBelow f m = sumBelow f n := by
  induction m with
  | zero => rw [Nat.le_zero.mp hm]
  | succ m ih =>
    obtain hn | hn := Nat.lt_or_eq_of_le hm
    · rw [sumBelow, ih (by omega), h m (by omega), Int.add_zero]
    · rw [hn]

theorem sumBelow_bounds {f : Nat → Int} {lo hi : Int} (h : ∀ i, lo ≤ f i ∧ f i ≤ hi) : 4 * lo ≤ sumBelow f 4 ∧ sumBelow f 4 ≤ 4 * hi := by
  have := h 0; have := h 1; have := h 2; have := h 3
  simp only [sumBelow]
  omega

/-- Four groups of four are sixteen. -/
theorem sumBelow_groups (f : Nat → Int) : sumBelow (fun g => sumBelow (fun i => f (4 * g + i)) 4) 4 = sumBelow f 16 := by
  simp only [sumBelow, Nat.reduceMul, Nat.reduceAdd]
  omega

theorem dot_eq_sum (w q : List Int) (n : Nat) : dot w q n = sumBelow (fun i => w.getD i 0 * q.getD i 0) n := foldl_upTo_add _ n

/-! ### Places in a record -/

/-- In a list of chunks of one length, the bytes at a place inside a chunk are that chunk's. -/
theorem take_drop_flatMap {α β : Type} (f : α → List β) {c : Nat} (hf : ∀ a, (f a).length = c) {r m : Nat} (hr : r + m ≤ c) :
    ∀ (l : List α) (i : Nat) (a : α), l[i]? = some a → ((l.flatMap f).drop (c * i + r)).take m = ((f a).drop r).take m := by
  intro l
  induction l with
  | nil => intro i a h; simp at h
  | cons b l ih =>
    intro i a h
    cases i with
    | zero =>
      obtain rfl : b = a := by simpa using h
      rw [List.flatMap_cons, Nat.mul_zero, Nat.zero_add, List.drop_append_of_le_length (by rw [hf]; omega),
        List.take_append_of_le_length (by rw [List.length_drop, hf]; omega)]
    | succ i =>
      have past : c * (i + 1) + r = (f b).length + (c * i + r) := by rw [hf, Nat.mul_succ]; omega
      rw [List.flatMap_cons, past, List.drop_append, ← ih i a (by simpa using h), List.drop_of_length_le (by omega)]
      simp

theorem ofNat_wrapBits_toInt {v : Int} (hlo : -2 ^ 15 ≤ v) (hhi : v < 2 ^ 15) : (BitVec.ofNat 16 (wrapBits 16 v % 256 ^ 2)).toInt = v := by
  unfold wrapBits
  rw [BitVec.toInt_ofNat']
  simp only [Int.bmod_def]
  omega

/-- The sum of a group's mantissas whose bits are set in x. -/
def groupSum (q : List Int) (x : Nat) : Int := (upTo 0 4).foldl (fun (acc : Int) i => if x / 2 ^ i % 2 = 1 then acc + q.getD i 0 else acc) 0

theorem groupSum_eq_sum (q : List Int) (x : Nat) : groupSum q x = sumBelow (fun i => if x / 2 ^ i % 2 = 1 then q.getD i 0 else 0) 4 := by
  have round : ∀ (acc : Int) (i : Nat), (if x / 2 ^ i % 2 = 1 then acc + q.getD i 0 else acc) = acc + if x / 2 ^ i % 2 = 1 then q.getD i 0 else 0 := by
    intro acc i
    split
    · rfl
    · exact (Int.add_zero acc).symm
  unfold groupSum
  simp only [round]
  exact foldl_upTo_add _ 4

theorem getD_bounds {q : List Int} (hq : ∀ v ∈ q, -256 ≤ v ∧ v ≤ 255) (i : Nat) : -256 ≤ q.getD i 0 ∧ q.getD i 0 ≤ 255 := by
  rw [List.getD_eq_getElem?_getD]
  cases h : q[i]? with
  | none => decide
  | some v => exact hq v (List.mem_of_getElem? h)

/-- A group's sum is an s16. -/
theorem groupSum_bounds {q : List Int} (hq : ∀ v ∈ q, -256 ≤ v ∧ v ≤ 255) (x : Nat) : -2 ^ 15 ≤ groupSum q x ∧ groupSum q x < 2 ^ 15 := by
  have term : ∀ i, -256 ≤ (if x / 2 ^ i % 2 = 1 then q.getD i 0 else 0) ∧ (if x / 2 ^ i % 2 = 1 then q.getD i 0 else 0) ≤ 255 := by
    intro i
    split
    · exact getD_bounds hq i
    · decide
  have bounds := sumBelow_bounds term
  rw [← groupSum_eq_sum] at bounds
  omega

/-- The index of a look-up, from one bit of each weight of the group. -/
def bitsIndex (b : Nat → Nat) : Nat := (upTo 0 4).foldl (fun n i => n + b i * 2 ^ i) 0

theorem bitsIndex_lt {b : Nat → Nat} (hb : ∀ i, b i < 2) : bitsIndex b < 16 := by
  have := hb 0; have := hb 1; have := hb 2; have := hb 3
  simp only [bitsIndex, upTo, List.foldl_cons, List.foldl_nil, Nat.zero_add, Nat.reduceAdd]
  omega

theorem bitsIndex_bit {b : Nat → Nat} (hb : ∀ i, b i < 2) {i : Nat} (hi : i < 4) : bitsIndex b / 2 ^ i % 2 = b i := by
  have := hb 0; have := hb 1; have := hb 2; have := hb 3
  simp only [bitsIndex, upTo, List.foldl_cons, List.foldl_nil, Nat.zero_add, Nat.reduceAdd]
  obtain rfl | rfl | rfl | rfl : i = 0 ∨ i = 1 ∨ i = 2 ∨ i = 3 := by omega
  all_goals omega

/-- The sum at an index whose bits are given. -/
theorem groupSum_bits (q : List Int) {b : Nat → Nat} (hb : ∀ i, b i < 2) :
    groupSum q (bitsIndex b) = sumBelow (fun i => (b i : Int) * q.getD i 0) 4 := by
  rw [groupSum_eq_sum]
  refine sumBelow_congr fun i hi => ?_
  rw [bitsIndex_bit hb hi]
  obtain h | h : b i = 0 ∨ b i = 1 := by have := hb i; omega
  · rw [h, if_neg (by decide), Int.natCast_zero, Int.zero_mul]
  · rw [h, if_pos rfl, Int.natCast_one, Int.one_mul]

/-- The mantissas of a block of which n elements are in use. -/
def usedMantissas (q : List Int) (n : Nat) : List Int := (upTo 0 16).map (fun i => if n ≤ i then 0 else q.getD i 0)
def mantissaGroup (q : List Int) (n g : Nat) : List Int := ((usedMantissas q n).drop (4 * g)).take 4

theorem usedMantissas_mem {q : List Int} (hq : ∀ v ∈ q, -256 ≤ v ∧ v ≤ 255) (n : Nat) : ∀ v ∈ usedMantissas q n, -256 ≤ v ∧ v ≤ 255 := by
  intro v hv
  obtain ⟨i, -, rfl⟩ := List.mem_map.mp hv
  split
  · decide
  · exact getD_bounds hq i

theorem mantissaGroup_mem {q : List Int} (hq : ∀ v ∈ q, -256 ≤ v ∧ v ≤ 255) (n g : Nat) : ∀ v ∈ mantissaGroup q n g, -256 ≤ v ∧ v ≤ 255 :=
  fun v hv => usedMantissas_mem hq n v (List.mem_of_mem_drop (List.mem_of_mem_take hv))

theorem mantissaGroup_getD (q : List Int) (n : Nat) {g i : Nat} (hg : g < 4) (hi : i < 4) :
    (mantissaGroup q n g).getD i 0 = if n ≤ 4 * g + i then 0 else q.getD (4 * g + i) 0 := by
  have hk : 4 * g + i < 16 := by omega
  unfold mantissaGroup usedMantissas
  rw [upTo_zero_eq_range, List.getD_eq_getElem?_getD, List.getElem?_take_of_lt hi, List.getElem?_drop, List.getElem?_map, List.getElem?_range hk]
  rfl

/-- The bytes of a group's sums in a table record (R230). -/
def sumBytes (q : List Int) : List Byte := (groupSums q).flatMap (fun v => toBytes 2 (wrapBits 16 v))

theorem groupSums_getElem? (q : List Int) {x : Nat} (hx : x < 16) : (groupSums q)[x]? = some (groupSum q x) := by
  have sums : groupSums q = (List.range 16).map (groupSum q) := rfl
  rw [sums, List.getElem?_map, List.getElem?_range hx]
  rfl

theorem length_sumBytes (q : List Int) : (sumBytes q).length = 32 := by
  have sums : groupSums q = (List.range 16).map (groupSum q) := rfl
  unfold sumBytes
  rw [sums, List.length_flatMap]
  simp only [length_toBytes, List.map_map, Function.comp_def]
  rfl

theorem tableRec_eq {e : Nat} (he : e < 255) (q : List Int) (ma n : Nat) :
    tableRec ma { e := e, q := q } n = (toBytes 1 e ++ toBytes 1 (ma - 2) ++ zeros 6) ++ (upTo 0 4).flatMap (fun g => sumBytes (mantissaGroup q n g)) := by
  have hne : e ≠ 255 := by omega
  simp [tableRec, hne, sumBytes, mantissaGroup, usedMantissas]

/-- The entry x of the group g in a table record. -/
def recordEntry (tab : List Byte) (g x : Nat) : Int := (BitVec.ofNat 16 (fieldOf tab (8 + 32 * g + 2 * x) 2)).toInt

/-- The entry of a group in a table record is the group's sum (R230). -/
theorem recordEntry_tableRec {q : List Int} (hq : ∀ v ∈ q, -256 ≤ v ∧ v ≤ 255) {e : Nat} (he : e < 255) (ma n : Nat) {g x : Nat} (hg : g < 4)
    (hx : x < 16) : recordEntry (tableRec ma { e := e, q := q } n) g x = groupSum (mantissaGroup q n g) x := by
  have group := take_drop_flatMap (fun g => sumBytes (mantissaGroup q n g)) (c := 32) (r := 2 * x) (m := 2) (fun _ => length_sumBytes _) (by omega) (upTo 0 4)
    g g (by rw [upTo_zero_eq_range, List.getElem?_range hg])
  have entry := take_drop_flatMap (fun v => toBytes 2 (wrapBits 16 v)) (c := 2) (r := 0) (m := 2) (fun _ => length_toBytes 2 _) (by omega)
    (groupSums (mantissaGroup q n g)) x _ (groupSums_getElem? _ hx)
  have past : 8 + 32 * g + 2 * x = (toBytes 1 e ++ toBytes 1 (ma - 2) ++ zeros 6).length + (32 * g + 2 * x) := by
    have header : (toBytes 1 e ++ toBytes 1 (ma - 2) ++ zeros 6).length = 8 := rfl
    omega
  obtain ⟨lower, upper⟩ := groupSum_bounds (mantissaGroup_mem hq n g) x
  have whole : ∀ v, (((toBytes 2 v).drop 0).take 2) = toBytes 2 v := fun _ => rfl
  unfold recordEntry fieldOf
  rw [tableRec_eq he, past, List.drop_length_add_append, group, sumBytes, ← Nat.add_zero (2 * x), entry, whole, ofBytes_toBytes,
    ofNat_wrapBits_toInt lower upper]

/-! ### The look-ups -/

/-- A weight's two bits. -/
def weightBits (w : List Int) (k : Nat) : Nat := ((w.getD k 0) % 4).toNat

/-- SLUT's sum, group by group: the look-up by the weights' high bits counts twice, against the one by their low bits. -/
theorem lutSum_eq_sum (w : List Int) (tab : List Byte) :
    lutSum w tab = sumBelow (fun g => recordEntry tab g (bitsIndex fun i => weightBits w (4 * g + i) % 2) -
      2 * recordEntry tab g (bitsIndex fun i => weightBits w (4 * g + i) / 2)) 4 := by
  have round : ∀ acc high low : Int, acc - 2 * high + low = acc + (low - 2 * high) := fun _ _ _ => by omega
  rw [← foldl_upTo_add]
  unfold lutSum
  simp only [round]
  rfl

/-- A weight of two bits is its low bit less twice its high bit. -/
theorem weightBits_value {w : List Int} (hw : ∀ v ∈ w, v = -2 ∨ v = -1 ∨ v = 0 ∨ v = 1) (k : Nat) :
    ((weightBits w k % 2 : Nat) : Int) - 2 * ((weightBits w k / 2 : Nat) : Int) = w.getD k 0 := by
  have weight : w.getD k 0 = -2 ∨ w.getD k 0 = -1 ∨ w.getD k 0 = 0 ∨ w.getD k 0 = 1 := by
    rw [List.getD_eq_getElem?_getD]
    cases h : w[k]? with
    | none => exact .inr (.inr (.inl rfl))
    | some v => exact hw v (List.mem_of_getElem? h)
  unfold weightBits
  rcases weight with h | h | h | h <;> rw [h] <;> rfl

/-- A product, of an element in use. -/
def usedProduct (w q : List Int) (n k : Nat) : Int := w.getD k 0 * if n ≤ k then 0 else q.getD k 0

theorem sum_usedProduct (w q : List Int) {n : Nat} (hn : n ≤ 16) : sumBelow (usedProduct w q n) 16 = dot w q n := by
  have unused : ∀ k, n ≤ k → usedProduct w q n k = 0 := fun k hk => by rw [usedProduct, if_pos hk, Int.mul_zero]
  rw [sumBelow_of_zero unused hn, dot_eq_sum]
  exact sumBelow_congr fun k hk => by rw [usedProduct, if_neg (Nat.not_le.mpr hk)]

/-- SLUT's sum from the table record of an activation block is the sum of products over the elements in use (09 R229, R230). -/
theorem lutSum_tableRec {q : List Int} {e n : Nat} (ma : Nat) {w : List Int} (he : e < 255) (hq : ∀ v ∈ q, -256 ≤ v ∧ v ≤ 255)
    (hw : ∀ v ∈ w, v = -2 ∨ v = -1 ∨ v = 0 ∨ v = 1) (hn : n ≤ 16) : lutSum w (tableRec ma { e := e, q := q } n) = dot w q n := by
  rw [lutSum_eq_sum, ← sum_usedProduct w q hn, ← sumBelow_groups]
  refine sumBelow_congr fun g hg => ?_
  have low : ∀ i, weightBits w (4 * g + i) % 2 < 2 := fun i => Nat.mod_lt _ (by decide)
  have high : ∀ i, weightBits w (4 * g + i) / 2 < 2 := fun i => by unfold weightBits; omega
  rw [recordEntry_tableRec hq he ma n hg (bitsIndex_lt low), recordEntry_tableRec hq he ma n hg (bitsIndex_lt high), groupSum_bits _ low, groupSum_bits _ high,
    sumBelow_sub_two_mul]
  refine sumBelow_congr fun i hi => ?_
  rw [mantissaGroup_getD q n hg hi, usedProduct, ← weightBits_value hw, Int.sub_mul, Int.mul_assoc]

end Sys2Proof.Machine
end


section
/-! SUPPORT. Steps of the array (04 R111 to R115; 09 R211, R217, R223): which step comes next, and what a step of TMMA and one of a stream of rows leave. O42. -/
namespace Sys2Proof.Machine

/-! ### Which step comes next -/

/-- The element found has the least rank. -/
theorem leastBy_spec {α : Type} {rank : α → Nat} : ∀ {l : List α} {a : α}, leastBy rank l = some a → a ∈ l ∧ ∀ b ∈ l, rank a ≤ rank b := by
  intro l
  induction l with
  | nil => intro a h; cases h
  | cons x xs ih =>
    intro a h
    unfold leastBy at h
    cases hxs : leastBy rank xs with
    | none =>
      obtain rfl : x = a := by simpa [hxs] using h
      have none_left : xs = [] := by
        cases xs with
        | nil => rfl
        | cons y ys =>
          unfold leastBy at hxs
          split at hxs
          · cases hxs
          · split at hxs <;> cases hxs
      simp [none_left]
    | some y =>
      obtain ⟨hy, least⟩ := ih hxs
      simp only [hxs] at h
      split at h <;> cases h
      · rename_i lt
        exact ⟨List.mem_cons_of_mem _ hy, fun b hb => by
          obtain rfl | hb := List.mem_cons.mp hb
          · omega
          · exact least b hb⟩
      · exact ⟨List.mem_cons_self .., fun b hb => by
          obtain rfl | hb := List.mem_cons.mp hb
          · exact Nat.le_refl _
          · have := least b hb
            omega⟩

/-- Whether work is of a skein of a spindle. -/
def workOn (s : State) (sp : Nat) (w : ArrayWork) : Bool := match skein? s w.skein with | some x => x.spindle == sp | none => false
/-- The place of work in the array's order: by its skein's class, the highest first, then in issue order (R223). -/
def workRank (s : State) (w : ArrayWork) : Nat := (match skein? s w.skein with | some x => 3 - x.cls.toNat | none => 4) * 2 ^ 64 + w.id

theorem nextWork_eq (s : State) (sp : Nat) : nextWork s sp =
    if inReset s sp then none
    else match s.array.find? (fun w => w.begun && workOn s sp w) with
      | some w => some w
      | none => leastBy (workRank s) (s.array.filter (fun w => workOn s sp w && workReady s w)) := rfl

/-- The work that comes next is begun, or it is ready, none is begun, and none that is ready comes before it. -/
theorem nextWork_some {s : State} {sp : Nat} {w : ArrayWork} (h : nextWork s sp = some w) : inReset s sp = false ∧ w ∈ s.array ∧
    (w.begun = true ∨ (∀ a ∈ s.array, workOn s sp a = true → a.begun = false) ∧ workReady s w = true ∧
      ∀ a ∈ s.array, workOn s sp a = true → workReady s a = true → workRank s w ≤ workRank s a) := by
  rw [nextWork_eq] at h
  split at h
  · cases h
  · rename_i hreset
    refine ⟨by simpa using hreset, ?_⟩
    split at h
    · rename_i begun
      cases h
      have hw := List.find?_some begun
      exact ⟨List.mem_of_find?_eq_some begun, .inl (by simp_all)⟩
    · rename_i fresh
      obtain ⟨hw, least⟩ := leastBy_spec h
      obtain ⟨mem, ready⟩ := List.mem_filter.mp hw
      refine ⟨mem, .inr ⟨fun a ha on => ?_, (Bool.and_eq_true_iff.mp ready).2, fun a ha on hr => least a (List.mem_filter.mpr ⟨ha, by simp [on, hr]⟩)⟩⟩
      have := List.find?_eq_none.mp fresh a ha
      simpa [on] using this

theorem workRank_of {s : State} {w : ArrayWork} {x : Skein} (h : skein? s w.skein = some x) : workRank s w = (3 - x.cls.toNat) * 2 ^ 64 + w.id := by
  simp only [workRank, h]

/-- Of two ranks, the lesser is of the higher class, or of the same and issued earlier. -/
theorem rank_le {c d : BitVec 2} {i j : Nat} (hj : j < 2 ^ 64) (h : (3 - c.toNat) * 2 ^ 64 + i ≤ (3 - d.toNat) * 2 ^ 64 + j) :
    d.toNat ≤ c.toNat ∧ (d = c → i ≤ j) := by
  have hd := d.isLt
  refine ⟨by omega, fun hdc => ?_⟩
  subst hdc
  omega

/-! ### A fold that writes cells -/

/-- What the rounds for a list's members leave alone, the fold leaves alone. -/
theorem foldl_keeps_of_mem {α β γ : Type} (P : β → γ) (g : β → α → β) (l : List α) :
    (∀ a ∈ l, ∀ b, P (g b a) = P b) → ∀ b, P (l.foldl g b) = P b := by
  induction l with
  | nil => exact fun _ _ => rfl
  | cons a l ih =>
    intro h b
    exact (ih (fun c hc => h c (List.mem_cons_of_mem _ hc)) _).trans (h a (List.mem_cons_self ..) b)

/-- What one member's round sets, and no other member's round changes, the fold sets. -/
theorem foldl_sets {α β γ : Type} (P : β → γ) (g : β → α → β) {a : α} {v : γ} (sets : ∀ b, P (g b a) = v) :
    ∀ (l : List α), a ∈ l → (∀ c ∈ l, c ≠ a → ∀ b, P (g b c) = P b) → ∀ b, P (l.foldl g b) = v := by
  intro l
  induction l with
  | nil => intro h; cases h
  | cons c l ih =>
    intro ha keeps b
    have keeps' : ∀ d ∈ l, d ≠ a → ∀ b, P (g b d) = P b := fun d hd => keeps d (List.mem_cons_of_mem _ hd)
    by_cases hin : a ∈ l
    · exact ih hin keeps' _
    · obtain rfl : a = c := (List.mem_cons.mp ha).resolve_right hin
      exact (foldl_keeps_of_mem P g l (fun d hd => keeps' d hd fun e => hin (e ▸ hd)) _).trans (sets b)

/-! ### TMMA -/

/-- An element's sum of products in TMMA (R111, R112). -/
def tmmaSum (x : Skein) (d a b : Nat) (bf zc : Bool) (depth i j : Nat) : Nat × Flags :=
  let k := if bf then FF.bf16 else FF.f16
  let el := fun (t i j : Nat) => k.decodeFlush (mget x.tiles (256 * t + 16 * i + j)).toNat
  tmmaElem ((List.range depth).map (fun q => el a i q)) ((List.range depth).map (fun q => el b q j))
    (if zc then 0 else (mget x.accs (256 * d + 16 * i + j)).toNat)

/-- The round of an element, and of a row, in TMMA. -/
def tmmaCell (x : Skein) (d a b : Nat) (bf zc : Bool) (depth i : Nat) (acc : SMap 32 × Flags) (j : Nat) : SMap 32 × Flags :=
  (mset acc.1 (256 * d + 16 * i + j) (BitVec.ofNat 32 (tmmaSum x d a b bf zc depth i j).1), acc.2 ||| (tmmaSum x d a b bf zc depth i j).2)
def tmmaRow (x : Skein) (d a b : Nat) (bf zc : Bool) (cols depth : Nat) (acc : SMap 32 × Flags) (i : Nat) : SMap 32 × Flags :=
  (List.range cols).foldl (tmmaCell x d a b bf zc depth i) acc

theorem tmmaAll_eq (x : Skein) (d a b : Nat) (bf zc : Bool) (rows cols depth : Nat) :
    tmmaAll x d a b bf zc rows cols depth = (List.range rows).foldl (tmmaRow x d a b bf zc cols depth) (x.accs, 0) := by
  unfold tmmaAll
  simp only [upTo_zero_eq_range]
  rfl

section Tmma
variable (x : Skein) (d a b : Nat) (bf zc : Bool) (depth : Nat)

theorem mget_tmmaCell (i j : Nat) (acc : SMap 32 × Flags) (k : Nat) : mget (tmmaCell x d a b bf zc depth i acc j).1 k =
    if k = 256 * d + 16 * i + j then BitVec.ofNat 32 (tmmaSum x d a b bf zc depth i j).1 else mget acc.1 k := mget_mset _ _ _ _

theorem mget_tmmaRow_other {i k : Nat} {cols : Nat} (h : ∀ j, j < cols → k ≠ 256 * d + 16 * i + j) (acc : SMap 32 × Flags) :
    mget (tmmaRow x d a b bf zc cols depth acc i).1 k = mget acc.1 k :=
  foldl_keeps_of_mem (fun acc => mget acc.1 k) _ _ (fun j hj acc => by rw [mget_tmmaCell, if_neg (h j (List.mem_range.mp hj))]) acc

theorem mget_tmmaRow {i j : Nat} {cols : Nat} (hj : j < cols) (acc : SMap 32 × Flags) :
    mget (tmmaRow x d a b bf zc cols depth acc i).1 (256 * d + 16 * i + j) = BitVec.ofNat 32 (tmmaSum x d a b bf zc depth i j).1 := by
  refine foldl_sets (fun acc => mget acc.1 (256 * d + 16 * i + j)) _ (a := j) (fun acc => ?_) _ (List.mem_range.mpr hj) (fun c _ hc acc => ?_) acc
  · rw [mget_tmmaCell, if_pos rfl]
  · rw [mget_tmmaCell, if_neg (by omega)]

/-- An element outside the rows and columns of a TMMA is kept. -/
theorem mget_tmmaAll_other {rows cols k : Nat} (h : ∀ i j, i < rows → j < cols → k ≠ 256 * d + 16 * i + j) :
    mget (tmmaAll x d a b bf zc rows cols depth).1 k = mget x.accs k := by
  rw [tmmaAll_eq]
  exact foldl_keeps_of_mem (fun acc => mget acc.1 k) _ _
    (fun i hi acc => mget_tmmaRow_other x d a b bf zc depth (fun j hj => h i j (List.mem_range.mp hi) hj) acc) _

/-- An element of its rows and columns takes its sum of products. -/
theorem mget_tmmaAll {rows cols i j : Nat} (hcols : cols ≤ 16) (hi : i < rows) (hj : j < cols) :
    mget (tmmaAll x d a b bf zc rows cols depth).1 (256 * d + 16 * i + j) = BitVec.ofNat 32 (tmmaSum x d a b bf zc depth i j).1 := by
  rw [tmmaAll_eq]
  exact foldl_sets (fun acc => mget acc.1 (256 * d + 16 * i + j)) _ (a := i) (fun acc => mget_tmmaRow x d a b bf zc depth hj acc) _ (List.mem_range.mpr hi)
    (fun c _ hc acc => mget_tmmaRow_other x d a b bf zc depth (fun j' hj' => by omega) acc) _

end Tmma

/-! ### What a step leaves of the state -/

@[simp] theorem chargeScr_mem (s : State) (x : Skein) (l : List (Nat × Nat)) : (chargeScr s x l).mem = s.mem := by simp [chargeScr]
@[simp] theorem chargeScr_fab (s : State) (x : Skein) (l : List (Nat × Nat)) : (chargeScr s x l).fab = s.fab := by simp [chargeScr]
@[simp] theorem chargeScr_array (s : State) (x : Skein) (l : List (Nat × Nat)) : (chargeScr s x l).array = s.array := by simp [chargeScr]
@[simp] theorem chargeScr_skeins (s : State) (x : Skein) (l : List (Nat × Nat)) : (chargeScr s x l).skeins = s.skeins := by simp [chargeScr]

theorem setSpindle_rest (s : State) (x : Spindle) : setSpindle s x = { s with spindles := (setSpindle s x).spindles } := by
  unfold setSpindle
  split <;> rfl

/-- Two states hold the same memory, fabric, array work and skeins. -/
structure SameWork (s u : State) : Prop where
  mem : u.mem = s.mem
  fab : u.fab = s.fab
  array : u.array = s.array
  skeins : u.skeins = s.skeins

theorem SameWork.trans {s u v : State} (h : SameWork s u) (k : SameWork u v) : SameWork s v :=
  ⟨k.mem.trans h.mem, k.fab.trans h.fab, k.array.trans h.array, k.skeins.trans h.skeins⟩
theorem SameWork.charge (s : State) (a : Acct) (d c n : Nat) : SameWork s (charge s a d c n) := ⟨by simp, by simp, by simp, by simp⟩
theorem SameWork.chargeScr (s : State) (x : Skein) (l : List (Nat × Nat)) : SameWork s (chargeScr s x l) := ⟨by simp, by simp, by simp, by simp⟩
theorem SameWork.raise (s : State) (v c : Nat) (f : Flags) : SameWork s (raise s v c f) := by
  rw [raise_rest]
  exact ⟨rfl, rfl, rfl, rfl⟩

theorem SameWork.relatch (s : State) (x : Skein) : SameWork s (relatch s x) := by
  unfold Machine.relatch
  dsimp only
  split
  · exact ⟨rfl, rfl, rfl, rfl⟩
  · split
    · exact ⟨rfl, rfl, rfl, rfl⟩
    · rw [setSpindle_rest]
      exact (SameWork.charge _ _ _ _ _).trans ⟨rfl, rfl, rfl, rfl⟩

/-- Work that is over is gone, no strand holds a flag for it, and memory and skeins are as they were. -/
structure WorkOver (s v : State) (w : ArrayWork) : Prop where
  mem : v.mem = s.mem
  fab : v.fab = s.fab
  skeins : v.skeins = s.skeins
  gone : ∀ q ∈ v.array, q.id ≠ w.id
  free : ∀ t ∈ v.strands, ∀ h ∈ t.holds, h.2 ≠ w.id

theorem releaseFlags_free (s : State) (k : Nat) : ∀ t ∈ (releaseFlags s k).strands, ∀ h ∈ t.holds, h.2 ≠ k := by
  intro t ht h hh
  obtain ⟨r, -, rfl⟩ := List.mem_map.mp ht
  split at hh
  · simpa using (List.mem_filter.mp hh).2
  · rename_i none_held
    intro hk
    exact none_held (List.any_eq_true.mpr ⟨h, hh, by simpa using hk⟩)

theorem workOver_workDone {s : State} {w : ArrayWork} (hp : w.pkt = none) (x : Skein) : WorkOver s (workDone s x w) w := by
  have raised := SameWork.raise s x.vd x.ctx w.flags
  have unfolded : workDone s x w = releaseFlags
      { raise s x.vd x.ctx w.flags with array := (raise s x.vd x.ctx w.flags).array.filter (fun a => a.id != w.id) } w.id := by
    simp [workDone, hp]
  rw [unfolded]
  refine ⟨raised.mem, raised.fab, raised.skeins, fun q hq => ?_, releaseFlags_free _ _⟩
  simpa using (List.mem_filter.mp hq).2

theorem skein?_congr {s u : State} (h : u.skeins = s.skeins) (k : Nat) : skein? u k = skein? s k := by
  unfold skein?
  rw [h]

theorem skein?_updSkein_some {s : State} {k : Nat} {x : Skein} {f : Skein → Skein} (h : skein? s k = some x) (hf : ∀ y, (f y).id = y.id) :
    skein? (updSkein s k f) k = some (f x) := by
  rw [skein?_updSkein_self s k f hf, h]
  rfl

theorem exec_arrayStep {s : State} {sp : Nat} {w : ArrayWork} {x : Skein} (h : nextWork s sp = some w) (hx : skein? s w.skein = some x) :
    exec (.arrayStep sp) s = .next (workStep s x w) := by
  show execArrayStep sp s = _
  simp only [execArrayStep, h, hx]

/-! ### A step of TMMA -/

/-- A skein's accumulators take their elements. -/
def putAccs (s : State) (k : Nat) (m : SMap 32) : State := updSkein s k (fun y => { y with accs := m })

theorem skein?_putAccs {s : State} {k : Nat} {x : Skein} (h : skein? s k = some x) (m : SMap 32) :
    skein? (putAccs s k m) k = some { x with accs := m } := skein?_updSkein_some h fun _ => rfl

theorem workStep_tmma {s : State} {x : Skein} {w : ArrayWork} {d a b : Nat} {bf zc : Bool} {rows cols depth : Nat}
    (hop : w.op = .tmma d a b bf zc rows cols depth) :
    workStep s x w = workDone (charge (putAccs s x.id (tmmaAll x d a b bf zc rows cols depth).1) (acctOf x)
      (millOfSpindle x.spindle) 21 (divUp (rows * cols * depth) 256)) x { w with flags := w.flags ||| (tmmaAll x d a b bf zc rows cols depth).2 } := by
  simp only [workStep, hop, putAccs]

/-- A step of TMMA ends its work, with the accumulator's elements as the sums. -/
theorem workStep_tmma_over {s : State} {x : Skein} {w : ArrayWork} {d a b : Nat} {bf zc : Bool} {rows cols depth : Nat}
    (hop : w.op = .tmma d a b bf zc rows cols depth) (hp : w.pkt = none) :
    WorkOver (putAccs s x.id (tmmaAll x d a b bf zc rows cols depth).1) (workStep s x w) w := by
  rw [workStep_tmma hop]
  have charged := SameWork.charge (putAccs s x.id (tmmaAll x d a b bf zc rows cols depth).1) (acctOf x)
    (millOfSpindle x.spindle) 21 (divUp (rows * cols * depth) 256)
  obtain ⟨mem, fab, skeins, gone, free⟩ := workOver_workDone (s := charge (putAccs s x.id _) _ _ _ _)
    (w := { w with flags := w.flags ||| (tmmaAll x d a b bf zc rows cols depth).2 }) hp x
  exact ⟨mem.trans charged.mem, fab.trans charged.fab, skeins.trans charged.skeins, gone, free⟩

theorem ArrayKeeps.of_accs {x : Skein} {m : SMap 32} {d : Nat} (h : ∀ n, n / 256 ≠ d → mget m n = mget x.accs n) :
    ArrayKeeps x { x with accs := m } [] [d] := ⟨fun _ _ => rfl, fun n hn => h n (by simpa using hn), rfl, rfl, rfl, rfl⟩

/-! ### A step of a stream of rows -/

/-- The accumulator row that a block is added to; each column's element after the block; the flags raised. -/
def streamAcc (x : Skein) (w : ArrayWork) (nc : Nat) (zero : Bool) (orow : Nat) : List (BitVec 32) :=
  if w.b = 0 then (if zero then List.replicate nc 0 else mgetAll x.out (128 * (orow + w.r)) nc) else w.sums
def streamSums (s : State) (x : Skein) (w : ArrayWork) (nc : Nat) (zero : Bool) (orow : Nat) : List (BitVec 32) :=
  (streamBlock s x w.op w.r w.b (streamAcc x w nc zero orow)).map (fun q => q.1)
def streamFlags (s : State) (x : Skein) (w : ArrayWork) (nc : Nat) (zero : Bool) (orow : Nat) : Flags :=
  (streamBlock s x w.op w.r w.b (streamAcc x w nc zero orow)).foldl (fun (f : Flags) q => f ||| q.2) 0
/-- The state with a block's step charged. -/
def streamCharged (s : State) (x : Skein) (w : ArrayWork) (n : Nat) : State :=
  let s1 := chargeScr (relatch s x) x [(w.op.at_ w.r w.b, n)]
  match w.op with
  | .slut .. => charge s1 (acctOf x) (millOfSpindle x.spindle) 23 1
  | _ => charge s1 (acctOf x) (millOfSpindle x.spindle) 22 (match x.latch with | some l => l.m | none => 0)
/-- Array work stays, as v and with flags. -/
def putWork (s : State) (id : Nat) (v : ArrayWork) (fl : Flags) : State :=
  { s with array := updIf (fun a => a.id == id) (fun _ => { v with started := true, begun := false, flags := fl }) s.array }
/-- A row of sums goes to the output region of a skein. -/
def putRow (s : State) (k : Nat) (row : Nat) (sums : List (BitVec 32)) : State := updSkein s k (fun y => { y with out := msetAll y.out (128 * row) sums })

theorem SameWork.streamCharged (s : State) (x : Skein) (w : ArrayWork) (n : Nat) : SameWork s (streamCharged s x w n) := by
  have before := (SameWork.relatch s x).trans (.chargeScr _ x [(w.op.at_ w.r w.b, n)])
  unfold Machine.streamCharged
  dsimp only
  split
  · exact before.trans (.charge _ _ _ _ _)
  · exact before.trans (.charge _ _ _ _ _)

theorem workStep_stream {s : State} {x : Skein} {w : ArrayWork} {rows kb nc : Nat} {zero : Bool} {orow n : Nat}
    (hop : w.op.stream = some (rows, kb, nc, zero, orow, n)) :
    let sums := streamSums s x w nc zero orow
    let fl := w.flags ||| streamFlags s x w nc zero orow
    workStep s x w =
      if w.b + 1 < kb then putWork (streamCharged s x w n) w.id { w with b := w.b + 1, sums := sums } fl
      else if w.r + 1 < rows then putRow (putWork (streamCharged s x w n) w.id { w with r := w.r + 1, b := 0, sums := [] } fl) x.id (orow + w.r) sums
      else workDone (putRow (streamCharged s x w n) x.id (orow + w.r) sums) x { w with flags := fl } := by
  cases hw : w.op with
  | tmma d a b bf zc rows cols depth => simp [hw, ArrayOp.stream] at hop
  | sstep src kb klast nc zero ma orow =>
    rw [hw] at hop
    unfold workStep streamSums streamFlags streamCharged
    simp only [hw, hop] <;> rfl
  | slut src kb nc zero orow =>
    rw [hw] at hop
    unfold workStep streamSums streamFlags streamCharged
    simp only [hw, hop] <;> rfl

/-- Work that stands in the array stands there afterwards as it was put. -/
theorem mem_putWork {s : State} {w v : ArrayWork} (hw : w ∈ s.array) (fl : Flags) :
    { v with started := true, begun := false, flags := fl } ∈ (putWork s w.id v fl).array :=
  List.mem_map.mpr ⟨w, hw, by simp⟩

/-- The skein after a row of sums has gone to its output region. -/
theorem skein?_putRow {s : State} {k : Nat} {x : Skein} (h : skein? s k = some x) (row : Nat) (sums : List (BitVec 32)) :
    skein? (putRow s k row sums) k = some { x with out := msetAll x.out (128 * row) sums } := skein?_updSkein_some h fun _ => rfl

theorem ArrayKeeps.of_out (x : Skein) (m : SMap 32) : ArrayKeeps x { x with out := m } [] [] := ⟨fun _ _ => rfl, fun _ _ => rfl, rfl, rfl, rfl, rfl⟩

/-- A row that is written reads as the sums. -/
theorem mget_row {m : SMap 32} {base j : Nat} {sums : List (BitVec 32)} {q : BitVec 32} (h : sums[j]? = some q) : mget (msetAll m base sums) (base + j) = q := by
  obtain ⟨hj, -⟩ := List.getElem?_eq_some_iff.mp h
  rw [mget_msetAll, if_pos (by omega), Nat.add_sub_cancel_left, List.getD_eq_getElem?_getD, h]
  rfl
theorem mget_row_other {m : SMap 32} {base k : Nat} {sums : List (BitVec 32)} (h : ∀ j, j < sums.length → k ≠ base + j) :
    mget (msetAll m base sums) k = mget m k := by
  rw [mget_msetAll, if_neg]
  rintro ⟨hlo, hhi⟩
  exact h (k - base) (by omega) (by omega)

/-- What the step of a block leaves: the row's sums kept for the next block, or written to the output region, with the next row or nothing to follow. -/
structure StreamStepped (s v : State) (x z : Skein) (w : ArrayWork) (rows kb orow : Nat) (sums : List (BitVec 32)) : Prop where
  bytes : SameBytes s v
  skein : skein? v x.id = some z
  keeps : ArrayKeeps x z [] []
  block : w.b + 1 < kb → z.out = x.out ∧ ∃ q ∈ v.array, q.id = w.id ∧ q.op = w.op ∧ q.r = w.r ∧ q.b = w.b + 1 ∧ q.sums = sums
  row : kb ≤ w.b + 1 → z.out = msetAll x.out (128 * (orow + w.r)) sums
  next : kb ≤ w.b + 1 → w.r + 1 < rows → ∃ q ∈ v.array, q.id = w.id ∧ q.op = w.op ∧ q.r = w.r + 1 ∧ q.b = 0
  last : kb ≤ w.b + 1 → rows ≤ w.r + 1 → ∀ q ∈ v.array, q.id ≠ w.id

theorem streamStepped_workStep {s : State} {x : Skein} {w : ArrayWork} {rows kb nc : Nat} {zero : Bool} {orow n : Nat} (hx : skein? s x.id = some x)
    (hw : w ∈ s.array) (hop : w.op.stream = some (rows, kb, nc, zero, orow, n)) (hp : w.pkt = none) :
    ∃ z, StreamStepped s (workStep s x w) x z w rows kb orow (streamSums s x w nc zero orow) := by
  have charged := SameWork.streamCharged s x w n
  have hw' : w ∈ (streamCharged s x w n).array := charged.array ▸ hw
  have hx' : skein? (streamCharged s x w n) x.id = some x := (skein?_congr charged.skeins x.id).trans hx
  rw [workStep_stream hop]
  by_cases hb : w.b + 1 < kb
  · rw [if_pos hb]
    exact ⟨x, .of_mem charged.mem charged.fab, hx', .of_out x x.out, fun _ => ⟨rfl, _, mem_putWork hw' _, rfl, rfl, rfl, rfl, rfl⟩,
      fun h => by omega, fun h => by omega, fun h => by omega⟩
  · rw [if_neg hb]
    by_cases hr : w.r + 1 < rows
    · rw [if_pos hr]
      exact ⟨_, .of_mem charged.mem charged.fab, skein?_putRow (s := putWork _ _ _ _) hx' _ _, .of_out x _, fun h => absurd h hb, fun _ => rfl,
        fun _ _ => ⟨_, mem_putWork hw' _, rfl, rfl, rfl, rfl⟩, fun _ h => by omega⟩
    · rw [if_neg hr]
      have ended := workOver_workDone (s := putRow (streamCharged s x w n) x.id (orow + w.r) (streamSums s x w nc zero orow))
        (w := { w with flags := w.flags ||| streamFlags s x w nc zero orow }) hp x
      exact ⟨_, .of_mem (ended.mem.trans charged.mem) (ended.fab.trans charged.fab), (skein?_congr ended.skeins x.id).trans (skein?_putRow hx' _ _),
        .of_out x _, fun h => absurd h hb, fun _ => rfl, fun _ h => absurd h hr, fun _ _ => ended.gone⟩

/-! ### The statement -/

/-- Settles O42: the order by the ranks of the work that is ready, TMMA by the cells that its rounds write, a stream of rows by the place of the block in its
row and of the row in the stream, SLUT's sums by the table records. -/
theorem arraySteps : Obligations.ArraySteps := by
  unfold Obligations.ArraySteps
  refine ⟨?order, ?tmma, ?stream, fun q e ma n w he hq _ hw hn => lutSum_tableRec ma he hq hw hn⟩
  case order =>
    intro s sp w h small
    obtain ⟨free, mem, begun | ⟨fresh, ready, least⟩⟩ := nextWork_some h
    · exact ⟨free, mem, .inl begun⟩
    have on : ∀ a y, skein? s a.skein = some y → y.spindle = sp → workOn s sp a = true := fun a y hy hsp => by simp [workOn, hy, hsp]
    refine ⟨free, mem, .inr ⟨ready, fun a ha y hy hsp => fresh a ha (on a y hy hsp), fun a ha hready x y hx hy hsp => ?_⟩⟩
    have rank := least a ha (on a y hy hsp) hready
    rw [workRank_of hx, workRank_of hy] at rank
    exact rank_le (small a ha) rank
  case tmma =>
    intro s sp w x d a b bf zc rows cols depth h hx hop hrows hcols hp k el r
    have hid : x.id = w.skein := skein?_id s _ x hx
    have ended := workStep_tmma_over (s := s) (x := x) hop hp
    have hz := (skein?_congr ended.skeins x.id).trans (skein?_putAccs (hid ▸ hx) _)
    refine ⟨_, exec_arrayStep h hx, .of_mem ended.mem ended.fab, ended.gone, ended.free, _, hz, ?_, rfl, fun i j hi hj => ?_⟩
    · exact .of_accs fun n hn => mget_tmmaAll_other x d a b bf zc depth fun i j hi hj => by omega
    · split
      · rename_i inside
        exact mget_tmmaAll x d a b bf zc depth hcols inside.1 inside.2
      · rename_i outside
        exact mget_tmmaAll_other x d a b bf zc depth fun i' j' hi' hj' => by omega
  case stream =>
    intro s sp w x rows kb nc zero orow n h hx hop hp acc sums
    have hid : x.id = w.skein := skein?_id s _ x hx
    obtain ⟨-, mem, -⟩ := nextWork_some h
    obtain ⟨z, bytes, hz, keeps, block, row, next, last⟩ := streamStepped_workStep (hid ▸ hx) mem hop hp
    refine ⟨_, exec_arrayStep h hx, bytes, z, hz, keeps, block, fun hb => ⟨fun j q hq => ?_, fun k hk => ?_, next hb, last hb⟩⟩
    · rw [row hb]
      exact mget_row hq
    · rw [row hb]
      exact mget_row_other hk

end Sys2Proof.Machine
end


section
/-! SUPPORT. The bytes of a word (05 R116, R118): its fields are read back from them, and they are put together again from its fields. -/
namespace Sys2Proof

/-! ### Numbers and their bytes -/

theorem length_leBytes (n : Nat) : ∀ v, (leBytes n v).length = n := by
  induction n with
  | zero => exact fun _ => rfl
  | succ n ih => exact fun v => congrArg (· + 1) (ih (v / 256))

theorem leNat_leBytes (n : Nat) : ∀ v, leNat (leBytes n v) = v % 256 ^ n := by
  induction n with
  | zero => exact fun v => (Nat.mod_one v).symm
  | succ n ih => exact fun v => by rw [leBytes, leNat, ih, BitVec.toNat_ofNat, Nat.pow_succ' (m := 256), Nat.mod_mul (x := v) (a := 256)]

theorem leNat_lt {bs : List Byte} {n : Nat} (h : bs.length = n) : leNat bs < 256 ^ n := by
  subst h
  induction bs with
  | nil => exact Nat.one_pos
  | cons b bs ih =>
    have hb := b.isLt
    rw [leNat, List.length_cons, Nat.pow_succ]
    omega

theorem leBytes_leNat {bs : List Byte} {n : Nat} (h : bs.length = n) : leBytes n (leNat bs) = bs := by
  subst h
  induction bs with
  | nil => rfl
  | cons b bs ih =>
    have hb := b.isLt
    have low : BitVec.ofNat 8 (b.toNat + 256 * leNat bs) = b := BitVec.eq_of_toNat_eq (by rw [BitVec.toNat_ofNat]; omega)
    have high : (b.toNat + 256 * leNat bs) / 256 = leNat bs := by omega
    rw [List.length_cons, leNat, leBytes, low, high, ih]

/-! ### A word and its fields -/

theorem bit_of_mod_two {n : Nat} {z : Bool} (h : n % 2 = z.toNat) : (n % 2 == 1) = z := by
  cases z <;> simp [h]

theorem toNat_mod_two (n : Nat) : (n % 2 == 1).toNat = n % 2 := by
  rcases Nat.mod_two_eq_zero_or_one n with h | h <;> simp [h]

theorem word_lt (r : Raw) : r.word < 2 ^ 64 := by
  have hfn := r.fn.isLt; have hc := r.c.isLt; have hb := r.b.isLt; have ha := r.a.isLt; have hd := r.d.isLt
  have hsetf := r.setf.isLt; have hguard := r.guard.isLt; have hop := r.op.isLt; have hlen := r.len.isLt
  have hla := r.la.toNat_lt; have hlb := r.lb.toNat_lt; have hlc := r.lc.toNat_lt
  rw [Raw.word]
  omega

/-- The fields of a word are read back from it, the extension from the number beside it. -/
theorem rawOf_word (r : Raw) (x : Nat) (hx : BitVec.ofNat 64 (if lenBytes r.len = 16 then x else 0) = r.ext) : rawOf r.word x = r := by
  obtain ⟨fn, c, lc, lb, la, b, a, d, setf, guard, op, len, ext⟩ := r
  have hfn := fn.isLt; have hc := c.isLt; have hb := b.isLt; have ha := a.isLt; have hd := d.isLt
  have hsetf := setf.isLt; have hguard := guard.isLt; have hop := op.isLt; have hlen := len.isLt
  have hla := la.toNat_lt; have hlb := lb.toNat_lt; have hlc := lc.toNat_lt
  have len_eq : BitVec.ofNat 2 (Raw.word ⟨fn, c, lc, lb, la, b, a, d, setf, guard, op, len, ext⟩) = len :=
    BitVec.eq_of_toNat_eq (by simp only [Raw.word, BitVec.toNat_ofNat]; omega)
  rw [rawOf, len_eq, hx]
  congr 1
  case' e_lc | e_lb | e_la => refine bit_of_mod_two ?_
  case' e_fn | e_c | e_b | e_a | e_d | e_setf | e_guard | e_op => refine BitVec.eq_of_toNat_eq ?_
  all_goals simp only [Raw.word, BitVec.toNat_ofNat]
  all_goals omega

/-- The fields of a number's low 64 bits put together again. -/
theorem word_rawOf {w : Nat} (hw : w < 2 ^ 64) (x : Nat) : (rawOf w x).word = w := by
  simp only [Raw.word, rawOf, BitVec.toNat_ofNat, toNat_mod_two]
  omega

theorem ext_rawOf {w x : Nat} (hlen : lenBytes (rawOf w x).len = 16) (hx : x < 2 ^ 64) : (rawOf w x).ext.toNat = x := by
  have ext : (rawOf w x).ext = BitVec.ofNat 64 (if lenBytes (rawOf w x).len = 16 then x else 0) := rfl
  rw [ext, if_pos hlen, BitVec.toNat_ofNat, Nat.mod_eq_of_lt hx]

/-! ### A word and its bytes -/

/-- A word has a length, and one of 8 bytes no extension (R116). -/
def Raw.closed (r : Raw) : Bool := r.len != 0 && (lenBytes r.len == 16 || r.ext == 0)

/-- The base word and the extension that stand first in some bytes. -/
def headWord (bs : List Byte) : Nat := leNat (bs.take 8)
def headExt (bs : List Byte) : Nat := leNat ((bs.drop 8).take 8)

theorem leNat_leBytes_eight {v : Nat} (h : v < 2 ^ 64) : leNat (leBytes 8 v) = v := (leNat_leBytes 8 v).trans (Nat.mod_eq_of_lt h)

theorem headWord_bytes (r : Raw) (rest : List Byte) : headWord (r.bytes ++ rest) = r.word := by
  unfold headWord Raw.bytes
  rw [List.append_assoc, List.take_left' (length_leBytes 8 _), leNat_leBytes_eight (word_lt r)]

theorem headExt_bytes {r : Raw} (h : lenBytes r.len = 16) (rest : List Byte) : headExt (r.bytes ++ rest) = r.ext.toNat := by
  have cut : (leBytes 8 r.word ++ (leBytes 8 r.ext.toNat ++ rest)).drop 8 = leBytes 8 r.ext.toNat ++ rest := List.drop_left' (length_leBytes 8 _)
  unfold headExt Raw.bytes
  rw [if_pos h, List.append_assoc, cut, List.take_left' (length_leBytes 8 _), leNat_leBytes_eight r.ext.isLt]

/-- A closed word is read back from its bytes, whatever stands after them. -/
theorem rawOf_bytes {r : Raw} (h : r.closed = true) (rest : List Byte) : rawOf (headWord (r.bytes ++ rest)) (headExt (r.bytes ++ rest)) = r := by
  simp only [Raw.closed, Bool.and_eq_true, Bool.or_eq_true, beq_iff_eq] at h
  rw [headWord_bytes]
  refine rawOf_word r _ ?_
  by_cases hlen : lenBytes r.len = 16
  · rw [if_pos hlen, headExt_bytes hlen, BitVec.ofNat_toNat, BitVec.setWidth_eq]
  · rw [if_neg hlen]
    exact (h.2.resolve_left hlen).symm

/-- The fields read from 16 bytes or more make up the bytes that they were read from. -/
theorem bytes_rawOf {bs : List Byte} (h : 16 ≤ bs.length) :
    let r := rawOf (headWord bs) (headExt bs)
    bs.take r.bytes.length = r.bytes := by
  intro r
  have first : (bs.take 8).length = 8 := List.length_take_of_le (by omega)
  have second : ((bs.drop 8).take 8).length = 8 := List.length_take_of_le (by rw [List.length_drop]; omega)
  have base : leBytes 8 r.word = bs.take 8 := (congrArg _ (word_rawOf (leNat_lt first) _)).trans (leBytes_leNat first)
  by_cases hlen : lenBytes r.len = 16
  · have ext : leBytes 8 r.ext.toNat = (bs.drop 8).take 8 :=
      (congrArg _ (ext_rawOf hlen (leNat_lt second))).trans (leBytes_leNat second)
    have whole : r.bytes = bs.take 16 := by
      rw [Raw.bytes, if_pos hlen, base, ext]
      exact (List.take_add (i := 8) (j := 8)).symm
    rw [whole, List.length_take_of_le h]
  · have whole : r.bytes = bs.take 8 := by rw [Raw.bytes, if_neg hlen, base, List.append_nil]
    rw [whole, first]

end Sys2Proof
end


section
/-! SUPPORT. The rows of the grid (05 R134, R137): what a row reads from a word that encodes it again is well formed. -/
namespace Sys2Proof

/-- What is read from a word, when the word is its encoding and it names no undefined selector, is well formed. -/
def RowSound (f : Raw → Instr) : Prop := ∀ r, encode (f r) = some r → selOk (f r) = true → (f r).wf = true

/-! ### Reserved values are read as allowed ones -/

theorem getSpawn_wf (r : Raw) : (getSpawn r).wf = true := by
  have small : (getSpawn r).k.toNat ≤ 32 := by
    unfold getSpawn
    dsimp only
    split
    · assumption
    · decide
  have unused : (getSpawn r).k = 0 → (getSpawn r).b.unused = true := by
    unfold getSpawn
    dsimp only
    intro h
    split at h
    · exact congrArg Src.unused (if_pos h)
    · exact absurd h (by decide)
  simp only [OpSpawn.wf, small, decide_true, Bool.true_and, Bool.or_eq_true, bne_iff_ne]
  exact (Classical.em _).symm.imp_right unused

theorem toNat_up4 (v : BitVec 4) : (up4 v).toNat = v.toNat := by
  rw [up4, BitVec.toNat_append]
  exact Nat.zero_or _

theorem getVote_wf (r : Raw) : (getVote r).wf = true := by
  have predicate (v : BitVec 4) : (up4 v).toNat < 16 := (toNat_up4 v).symm ▸ v.isLt
  unfold getVote OpVote.wf
  cases voteOf (r.f 0 2) <;> simp [predicate, Src.unused]

theorem getMovw_wf (r : Raw) : (getMovw r).wf = true := by
  have small : ∀ v : BitVec 1, (0#1 ++ v : BitVec 2).toNat < 2 := by decide
  unfold getMovw OpMovw.wf
  cases r.ty.wide <;> simp [small]

theorem getCvt_wf (r : Raw) : (getCvt r).wf = true := by
  unfold getCvt OpCvt.wf
  dsimp only
  generalize fmtOf (r.f 8 4) = dst, fmtOf (r.f 4 4) = src
  cases cvtExact dst src <;> cases dst.isFloat <;> cases src.isFloat <;> simp

theorem bwOk_bwOf (v : BitVec 3) : bwOk (bwOf v) = true := by revert v; decide

theorem casC_unused (r : Raw) (op : AtomOp) : (op == .cas || (r.casC op).unused) = true := by cases op <;> rfl

theorem redOf_wf (fl : Bool) (ty : BitVec 2) (aop : BitVec 4) : (redOf fl ty aop).wf = true := by revert fl ty aop; decide

theorem getTileXfer_wf (store : Bool) (r : Raw) : (getTileXfer store r).wf = true := by
  unfold getTileXfer OpTileXfer.wf
  cases r.fb 0 <;> rfl

theorem getAccXfer_wf (store : Bool) (r : Raw) : (getAccXfer store r).wf = true := by
  unfold getAccXfer OpAccXfer.wf
  cases r.fb 0 <;> rfl

theorem getSleep_wf (r : Raw) : (getSleep r).wf = true := by
  unfold getSleep OpSleep.wf
  cases r.fb 0 <;> rfl

theorem getAclr_all (r : Raw) : (!(getAclr r).all || (getAclr r).d == 0) = true := by
  unfold getAclr
  cases r.fb 0 <;> rfl

theorem getSdrain_rm (r : Raw) : ((getSdrain r).ofmt != .f32 || (getSdrain r).rm == .rne) = true := by
  unfold getSdrain
  cases drainOf (r.f 0 2) <;> rfl

theorem getSclass_wg (r : Raw) : decide ((getSclass r).wg.toNat ≤ 16) = true := by
  unfold getSclass
  dsimp only
  split
  · exact decide_eq_true ‹_›
  · decide

theorem getFencex_sets (r : Raw) : ((getFencex r).src != 0 && (getFencex r).dst != 0) = true := by
  have set : ∀ v : BitVec 5, ((if v = 0#5 then 1 else v) != 0) = true := by decide
  exact Bool.and_eq_true_iff.mpr ⟨set _, set _⟩

/-- A word that is the encoding of the TLBINV read from it holds no reserved KIND, so the fields that KIND does not use were left unread. -/
theorem getTlbinv_wf {op : BitVec 8} {r : Raw} (h : encTlbinv op (getTlbinv r) = r) : (getTlbinv r).wf = true := by
  have written : (encTlbinv op (getTlbinv r)).f 1 3 = invCode (getTlbinv r).kind := by simp [encTlbinv]
  have kind : r.f 1 3 = invCode (invOf (r.f 1 3)) := (congrArg (Raw.f · 1 3) h).symm.trans written
  unfold getTlbinv OpTlbinv.wf
  generalize r.f 1 3 = v at kind
  cases hv : invOf v with
  | page => simp [Src.unused]
  | range => rfl
  | all =>
    rw [hv] at kind
    subst kind
    rfl

theorem trapCell_sound : RowSound getTrapCell := by
  intro r _ _
  unfold getTrapCell
  split
  · rfl
  · split <;> rfl

theorem ffCell_sound : RowSound getFFCell := by
  intro r word _
  unfold getFFCell at word ⊢
  split
  · rfl
  · rename_i tlbinv
    rw [if_neg tlbinv] at word
    exact getTlbinv_wf (Option.some.inj word)

/-! ### Every row -/

/-- A row whose instruction is well formed as it is read. -/
theorem RowSound.of_wf {f : Raw → Instr} (h : ∀ r, (f r).wf = true) : RowSound f := fun r _ _ => h r

theorem opTable_sound : ∀ e ∈ opTable, RowSound e.2 := by
  have fspawn : RowSound fun r => .fspawn (getSpawn r) := .of_wf getSpawn_wf
  have vote : RowSound fun r => .vote (getVote r) := .of_wf getVote_wf
  have movw : RowSound fun r => .movw (getMovw r) := .of_wf getMovw_wf
  have cvt : RowSound fun r => .cvt (getCvt r) := .of_wf getCvt_wf
  have cvtb : RowSound fun r => .cvtb (getCvtb r) := .of_wf fun _ => bwOk_bwOf _
  have wlatch : RowSound fun r => .wlatch (getWlatch r) := .of_wf fun _ => bwOk_bwOf _
  have sbuild : RowSound fun r => .sbuild (getSbuild r) := .of_wf fun _ => bwOk_bwOf _
  have sstep : RowSound fun r => .sstep (getSstep r) := .of_wf fun _ => bwOk_bwOf _
  have atom : RowSound fun r => .atom (getAtom r) := .of_wf fun r => casC_unused r _
  have atomImm32 : RowSound fun r => .atomImm32 (getAtomImm r) := .of_wf fun r => casC_unused r _
  have ratom : RowSound fun r => .ratom (getRatom r) := .of_wf fun r => casC_unused r _
  have red : RowSound fun r => .red (getRed r) := .of_wf fun _ => redOf_wf _ _ _
  have redImm32 : RowSound fun r => .redImm32 (getRedImm r) := .of_wf fun _ => redOf_wf _ _ _
  have tld : RowSound fun r => .tld (getTileXfer false r) := .of_wf (getTileXfer_wf _)
  have tst : RowSound fun r => .tst (getTileXfer true r) := .of_wf (getTileXfer_wf _)
  have ald : RowSound fun r => .ald (getAccXfer false r) := .of_wf (getAccXfer_wf _)
  have ast : RowSound fun r => .ast (getAccXfer true r) := .of_wf (getAccXfer_wf _)
  have aclr : RowSound fun r => .aclr (getAclr r) := .of_wf getAclr_all
  have sdrain : RowSound fun r => .sdrain (getSdrain r) := .of_wf getSdrain_rm
  have sclass : RowSound fun r => .sclass (getSclass r) := .of_wf getSclass_wg
  have sleep : RowSound fun r => .sleep (getSleep r) := .of_wf getSleep_wf
  have sleepuntil : RowSound fun r => .sleepuntil (getSleep r) := .of_wf getSleep_wf
  have fencex : RowSound fun r => .fencex (getFencex r) := .of_wf getFencex_sets
  have sysrd : RowSound fun r => .sysrd (getSysrd r) := fun _ _ sel => sel
  have syswr : RowSound fun r => .syswr (getSyswr r) := fun _ _ sel => sel
  simp only [opTable, opRow0, opRow1, opRow2, opRow4, opRow5, opRow6, opRow7, opRow8, opRow9, opRowA, opRowB, opRowC, opRowD, opRowE, opRowF,
    List.forall_mem_append, List.forall_mem_cons, List.not_mem_nil, false_imp_iff, implies_true, trapCell_sound, ffCell_sound, fspawn, vote, movw, cvt,
    cvtb, wlatch, sbuild, sstep, atom, atomImm32, ratom, red, redImm32, tld, tst, ald, ast, aclr, sdrain, sclass, sleep, sleepuntil, fencex, sysrd, syswr, true_and, and_true]
  and_intros
  all_goals exact fun _ _ _ => rfl

end Sys2Proof
end


section
/-! SUPPORT. Decoding and encoding (05 R116 to R121, R132, R134 to R138): the decoder accepts a word exactly when its row of the grid reads from it an
instruction that encodes to it. O60. -/
namespace Sys2Proof

namespace Laws.RoundTrip

/-- The lemmas of the constructors together, in their order: the words, then the events. -/
theorem all : ∀ i, Statement i :=
  Instr.rec (motive := Statement)
    nop bra brc brx call callx ret fspawn fend fyield fid barSk barHk bara barw vote shfl shflImm32 live pset psetImm32 plop
    pmov pmovImm32 iadd iaddImm32 iadd3 iaddc iaddcImm32 isub isubImm32 imul imulImm32 imulh imulhImm32 imad imadImm32 idiv
    idivImm32 irem iremImm32 imin iminImm32 imax imaxImm32 iabs ineg isad isadImm32 and andImm32 or orImm32 xor xorImm32 not lop3
    lop3Imm32 shl shlImm32 shr shrImm32 sra sraImm32 rotl rotlImm32 bfe bfeImm32 bfi bfiImm32 popc clz ctz brev sel selImm32 mov
    moviImm32 moviX64 movw lea leaImm32 icmp icmpImm32 fadd faddImm32 fsub fsubImm32 fmul fmulImm32 ffma ffmaImm32 fdiv fdivImm32
    fmin fminImm32 fmax fmaxImm32 fabs fneg frcp frsq fsqrt fexp2 flog2 fsin fcos frnd fcmp fcmpImm32 fclass hadd2 hadd2Imm32
    hmul2 hmul2Imm32 hfma2 hfma2Imm32 hmin2 hmin2Imm32 hmax2 hmax2Imm32 vadd2 vadd2Imm32 vsub2 vsub2Imm32 vmin2 vmin2Imm32 vmax2
    vmax2Imm32 acs2 cvt cvtb ld ldImm32 st stImm32 lds ldsImm32 sts stsImm32 ldc ldcImm32 atom atomImm32 atomf atomfImm32 red
    redImm32 pft cctl cctlImm32 cpin cpinImm32 cunpin cunpinImm32 icinv icinvImm32 tld tst tzero tmov tmma ald ast aclr acvt
    afrag wld wlatch sbuild sstep slut sdrain sclass qput cwait ctest sleep sleepuntil fence fencex ldaq ldaqImm32 strl strlImm32
    rstf ratom publish launch feedput feedpop idem commit jread opreq trap ebrk tret sysrd syswr tlbinv ramode
    loadDataReturn writeComplete globallyComplete cacheOpComplete arTransferComplete fairnessPromotion runaheadEntry runaheadExit sleepWake
    sleepuntilWake cwaitSatisfied feedpopReissue arrayStep skeinRetire slotConsume copy copyArray followOnArrayCommand gather fill decomp
    remoteCopy signal waitSatisfied halt resume tickClose readingForm voltageStepEnd frequencyStepEnd invalidationComplete arrayWatchdog
    uncorrectableError correctedError parityCommit shrinkComplete pinwinComplete cmpwinZeroComplete fabricReplayTimeout schedulerRun
    grantLapse relevelComplete registerFill launchPacket feedPacket ib waitPacket cprPreemptGo powerGrant vdOpreq millOpcap millOpfloor
    vdOpallow millPart supplyDroop marginWarning powerOnReset deviceReset cpReset cpWatchdog tsyncLost fabricPacketReceive fabricNack
    fabricAck coherenceInvalidate backInvalidation switchFailure homeonlyClear capabilityAdvertise vdInvcmdGo vdRunGo vdFltres cprHfltres
    faultQueueHead thawResume thawEnd cprQkick cprAreset spindleLost millEinj stackLost hbmRelevelGo hbmCmpwin vdL2share vdPinwin
    contextCreate contextEnd bktAdj ctxSchedWeight ldBind ldUnbind hostAtomic hostMemoryAccess registerWrite portDegrade powerLoss
    droopPasses podTimebaseMessage

end Laws.RoundTrip

@[simp] theorem Raw.setCS_ext (r : Raw) (x : CSrc) : (r.setCS x).ext = r.ext := by cases x <;> rfl

theorem encode_closed {i : Instr} {r : Raw} (h : encode i = some r) : r.closed = true := by
  cases i
  case iadd3 | imad | imadImm32 | isad | isadImm32 | bfi | bfiImm32 | lop3 | lop3Imm32 =>
    cases h
    simp [Raw.closed, lenBytes, encInt3, encInt3Imm, encLop3, encLop3Imm]
  all_goals cases h
  all_goals rfl

theorem wf_of_lookup {r : Raw} {i : Instr} (row : lookup r = some i) (word : encode i = some r) (sel : selOk i = true) : i.wf = true := by
  unfold lookup at row
  split at row
  · rename_i e found
    obtain rfl := Option.some.inj row
    exact opTable_sound e (List.mem_of_find?_eq_some found) r word sel
  · cases row

theorem selOk_of_wf {i : Instr} (h : i.wf = true) : selOk i = true := by
  unfold selOk
  split
  · exact h
  · exact h
  · rfl

/-! ### The decoder -/

theorem sameBits_self (r : Raw) : sameBits r r = true := by simp [sameBits]

/-- What decodes to an instruction: the word that its row reads it from and that encodes it, with the privilege and the selector it needs. -/
theorem decodeRaw_ok_iff {p : Privilege} {r : Raw} {i : Instr} :
    decodeRaw p r = .ok i ↔ lookup r = some i ∧ needPriv p i = false ∧ encode i = some r ∧ selOk i = true := by
  constructor
  · intro h
    unfold decodeRaw at h
    split at h
    · cases h
    · rename_i j row
      split at h
      · cases h
      · rename_i priv
        split at h
        · cases h
        · rename_i e word
          split at h
          · cases h
          · split at h
            · rename_i same
              obtain ⟨rfl, sel⟩ : e = r ∧ selOk j = true := by simpa using same
              obtain rfl : j = i := by injection h
              exact ⟨row, by simpa using priv, word, sel⟩
            · cases h
  · rintro ⟨row, priv, word, sel⟩
    simp [decodeRaw, row, priv, word, sel, sameBits_self]

theorem decode_ok_iff {p : Privilege} {bs : List Byte} {i : Instr} :
    decode p bs = .ok i ↔ headWord bs % 4 ≠ 0 ∧ decodeRaw p (rawOf (headWord bs) (headExt bs)) = .ok i := by
  have step : decode p bs = if headWord bs % 4 = 0 then .error .badClause else decodeRaw p (rawOf (headWord bs) (headExt bs)) := rfl
  rw [step]
  split
  · rename_i header
    exact ⟨nofun, fun h => absurd header h.1⟩
  · rename_i word
    exact ⟨fun h => ⟨word, h⟩, fun h => h.2⟩

theorem len_rawOf (w x : Nat) : (rawOf w x).len = BitVec.ofNat 2 w := rfl

theorem headWord_of_closed {r : Raw} (h : r.closed = true) (rest : List Byte) : headWord (r.bytes ++ rest) % 4 ≠ 0 := by
  intro header
  have len : r.len = BitVec.ofNat 2 (headWord (r.bytes ++ rest)) := (congrArg Raw.len (rawOf_bytes h rest)).symm.trans (len_rawOf _ _)
  have zero : r.len = 0 := len.trans (BitVec.eq_of_toNat_eq ((BitVec.toNat_ofNat _ _).trans header))
  simp [Raw.closed, zero] at h

/-- The bytes of a well-formed instruction decode to it, whatever stands after them. -/
theorem decode_encode {i : Instr} {p : Privilege} {r : Raw} (wf : i.wf = true) (priv : needPriv p i = false) (word : encode i = some r) (rest : List Byte) :
    decode p (r.bytes ++ rest) = .ok i := by
  have closed := encode_closed word
  rw [decode_ok_iff, rawOf_bytes closed, decodeRaw_ok_iff]
  exact ⟨headWord_of_closed closed rest, Laws.RoundTrip.all i wf r word, priv, word, selOk_of_wf wf⟩

theorem encode_isSome (i : Instr) : (encode i).isSome = (Machine.isaShape i).isSome := by cases i <;> rfl

/-- Settles O60: a word is closed under reading its bytes back (`rawOf_bytes`, `bytes_rawOf`), and the decoder accepts a word exactly when its row reads an
instruction from it that encodes to it (`decodeRaw_ok_iff`). -/
theorem decodeEncode : Obligations.DecodeEncode := by
  unfold Obligations.DecodeEncode
  refine ⟨encode_isSome, fun i p bs rest wf priv bytes => ?_, fun i p bs long decoded => ?_⟩
  · obtain ⟨r, word, rfl⟩ := Option.map_eq_some_iff.mp bytes
    exact decode_encode wf priv word rest
  · obtain ⟨-, decoded⟩ := decode_ok_iff.mp decoded
    obtain ⟨row, priv, word, sel⟩ := decodeRaw_ok_iff.mp decoded
    exact ⟨wf_of_lookup row word sel, priv, _, Option.map_eq_some_iff.mpr ⟨_, word, rfl⟩, bytes_rawOf long⟩

end Sys2Proof
end


section
/-! SUPPORT. The words that the spec spells out (05 R116 to R121, R138), the active fibres of an instruction (05 R130), and the frame of a computing
instruction (05 R131). O59, O12, O11. -/
namespace Sys2Proof.Machine

/-! ### Guards and active fibres -/

/-- p15 reads as 1 (03 R70). -/
theorem pred_fifteen (y : Fibre) : y.pred 15 = true := rfl
theorem guard_always (y : Fibre) : y.guard 0x0F = true := rfl
theorem guard_never (y : Fibre) : y.guard 0x1F = false := rfl

theorem mem_activeOf {t : Strand} {x : Skein} {g : BitVec 5} {f : Nat} :
    f ∈ activeOf t x g ↔ f ∈ t.fibres ∧ ∃ y, x.fibre? f = some y ∧ y.guard g = true := by
  unfold activeOf
  rw [List.mem_filter]
  cases x.fibre? f <;> simp

end Sys2Proof.Machine

namespace Sys2Proof
open Machine

/-- Settles O12: p15, which 0x0F and 0x1F name, reads as 1. -/
theorem activeFibres : Obligations.ActiveFibres := by
  unfold Obligations.ActiveFibres
  intro t x g f
  have all (hf : f ∈ t.fibres) (hx : (x.fibre? f).isSome = true) : f ∈ activeOf t x 0x0F := by
    obtain ⟨y, hy⟩ := Option.isSome_iff_exists.mp hx
    exact mem_activeOf.mpr ⟨hf, y, hy, guard_always y⟩
  have never : f ∉ activeOf t x 0x1F := by
    intro hf
    obtain ⟨-, y, -, hy⟩ := mem_activeOf.mp hf
    cases (guard_never y).symm.trans hy
  exact ⟨mem_activeOf, fun y _ => pred_fifteen y, all, never⟩

/-- Settles O59: the decoder is evaluated on each word. -/
theorem decodeWords : Obligations.DecodeWords := by
  unfold Obligations.DecodeWords
  intro p k kA
  and_intros
  all_goals rfl

/-- Settles O11: with no trap enabled a computing instruction comes to `computedState`, which keeps the frame. -/
theorem computeFrames : Obligations.ComputeFrames := by
  unfold Obligations.ComputeFrames
  intro i sh s t x u y w hi h untrapped
  obtain ⟨ra, f, hexec⟩ := exec_computes hi
  exact ⟨_, (hexec s).trans (compute_eq h untrapped ra f), computeFrame_computedState h f⟩

end Sys2Proof
end


section
/-! SUPPORT. The issue of an instruction word up to its effect: with no active fibre, with a decode-class fault, and with a flag, a region or the
skein's unsent accesses in its way (05 R125, R131 to R133; 10 R257; 15 R342). O14, O17. -/
namespace Sys2Proof.Machine

/-! ### What a charge and the active sets leave alone -/

/-- Each context's FLAGS, CAUSE, TE and RM. -/
def fpctls (s : State) : List (Nat × Nat × BitVec 64) := s.ctxs.map (fun c => (c.vd, c.num, c.fpctl))

theorem ctx?_fpctl_congr {u v : State} (h : fpctls v = fpctls u) (a b : Nat) :
    (ctx? v a b).map (fun c => (c.vd, c.num, c.fpctl)) = (ctx? u a b).map (fun c => (c.vd, c.num, c.fpctl)) := by
  have found := find?_map_bare (fun c : Ctx => (c.vd, c.num, c.fpctl)) (fun c => c.vd == a && c.num == b) (fun q => q.1 == a && q.2.1 == b) (fun _ => rfl)
  unfold ctx?
  rw [← found, ← found]
  exact congrArg (List.find? _) h

theorem fpctls_charge (s : State) (a : Acct) (d c n : Nat) : fpctls (charge s a d c n) = fpctls s := by
  unfold charge
  dsimp only
  split
  · rfl
  · obtain ⟨v, _ | k⟩ := a
    · rfl
    · refine (map_updIf_bare _ _ _ _ ?_).trans (map_updIf_bare _ _ _ _ ?_)
      · exact fun _ => rfl
      · exact fun _ => rfl

/-- From s to u energy has been charged and active sets may have changed: registers, predicates, memory, accesses, array work, the arithmetic controls,
and of a strand all but its wait and its mark, are as they were. -/
structure Charged (s u : State) : Prop where
  alike : Alike s u
  mem : u.mem = s.mem
  fab : u.fab = s.fab
  pend : u.pend = s.pend
  array : u.array = s.array
  fpctls : fpctls u = fpctls s

theorem Charged.refl (s : State) : Charged s s := ⟨.refl s, rfl, rfl, rfl, rfl, rfl⟩
theorem Charged.trans {s u v : State} (h : Charged s u) (k : Charged u v) : Charged s v :=
  ⟨h.alike.trans k.alike, k.mem.trans h.mem, k.fab.trans h.fab, k.pend.trans h.pend, k.array.trans h.array, k.fpctls.trans h.fpctls⟩
theorem Charged.charge (s : State) (a : Acct) (d c n : Nat) : Charged s (charge s a d c n) :=
  ⟨.charge s a d c n, by simp, by simp, by simp, by simp, fpctls_charge s a d c n⟩
theorem Charged.mark (s : State) (k : Nat) (b : Bool) : Charged s (updStrand s k (fun r => { r with active := b })) :=
  ⟨.updStrand s k _ fun _ => rfl, rfl, rfl, rfl, rfl, rfl⟩
theorem Charged.opc (s : State) (k : Nat) (f : Skein → List OpcEntry) : Charged s (updSkein s k (fun y => { y with opc := f y })) :=
  ⟨.updSkein s k _ fun _ => rfl, rfl, rfl, rfl, rfl, rfl⟩

theorem Charged.leaveActive (s : State) (t : Strand) : Charged s (leaveActive s t) := by
  unfold Machine.leaveActive
  split
  · exact .mark _ _ _
  · exact ((opc _ _ _).trans (.charge _ _ _ _ _)).trans (.mark _ _ _)

theorem Charged.joinActive (s : State) (t : Strand) (x : Skein) : Charged s (joinActive s t x) := by
  obtain h | h | ⟨r, h⟩ := joinActive_cases s t x <;> rw [h]
  · exact .refl s
  · exact .mark _ _ _
  · exact (mark _ _ _).trans (.leaveActive _ _)

theorem Charged.chargeIssue (s : State) (sh : Shape) (t : Strand) (x : Skein) : Charged s (chargeIssue s sh t x) := by
  unfold Machine.chargeIssue
  split
  · exact .refl s
  · dsimp only
    split
    · exact .charge _ _ _ _ _
    · exact (charge _ _ _ _ _).trans (.joinActive _ _ _)

theorem Charged.fpctl_eq {s u : State} (h : Charged s u) {a b : Nat} {c d : Ctx} (hc : ctx? s a b = some c) (hd : ctx? u a b = some d) :
    d.fpctl = c.fpctl := by
  have same := ctx?_fpctl_congr h.fpctls a b
  rw [hc, hd] at same
  simp only [Option.map_some, Option.some.injEq, Prod.mk.injEq] at same
  obtain ⟨-, -, fpctl⟩ := same
  exact fpctl

/-! ### The checks of an issue -/

section
variable {sh : Shape} {s : State} {t : Strand} {x : Skein} (h : AtIssue s t x) (ra : Env → State → RaRes) (body : Env → State → Res)
include h

theorem AtIssue.stands : Stands s t := ⟨t, h.strand, rfl, rfl⟩

theorem AtIssue.issue_of_legal (legal : decodeCheck sh (privOf s t x) t x = none) : issue sh ra body s = .next (issueReal sh body t x s) := by
  unfold issue
  simp [h.cur, h.strand, h.skein, h.real, legal]

theorem AtIssue.issue_of_illegal {d : DecodeFault} (illegal : decodeCheck sh (privOf s t x) t x = some d) :
    issue sh ra body s = .next (failHank s x { Flt.plain .decode (decodeCode d) (t.fibres.headD 0xFFFF) t.pc with access := 4 }) := by
  unfold issue
  simp [h.cur, h.strand, h.skein, h.real, illegal, decodeFail]

end

theorem issueReal_of_inactive {sh : Shape} {t : Strand} {x : Skein} (inactive : activeOf t x sh.ctl.guard = []) (body : Env → State → Res) (s : State) :
    issueReal sh body t x s = advanceStrand (chargeIssue s sh t x) t.id sh.len := by
  unfold issueReal
  simp [issueEnv, inactive]

/-- PRIVILEGED comes before every other fault that needs more than the word (05 R132). -/
theorem decodeCheck_privileged_iff {sh : Shape} {p : Privilege} {t : Strand} {x : Skein} {d : DecodeFault} (h : decodeCheck sh p t x = some d) :
    d = .privileged ↔ sh.priv p = true := by
  unfold decodeCheck at h
  dsimp only at h
  split at h
  next privileged => simp_all
  next plain =>
    have other : d ≠ .privileged := by
      rintro rfl
      split at h
      · cases h
      · split at h
        · cases h
        · split at h <;> cases h
    exact iff_of_false other plain

/-! ### A hank that fails -/

theorem writeSpa_hanks (s : State) (a : Nat) (bs : List Byte) : (writeSpa s a bs).hanks = s.hanks := by
  unfold writeSpa
  split <;> rfl

/-- Writing a fault record ends no hank and no access. -/
theorem fltWrite_keeps (s : State) (w : FltWait) : (fltWrite s w).hanks = s.hanks ∧ (fltWrite s w).pend = s.pend := by
  have kept (r : Ring) : (setFltRing (ringWrite s (fltRing s w.queue) 64 w.bytes) w.queue r).hanks = s.hanks ∧
      (setFltRing (ringWrite s (fltRing s w.queue) 64 w.bytes) w.queue r).pend = s.pend := by
    unfold setFltRing ringWrite
    cases w.queue <;> exact ⟨writeSpa_hanks _ _ _, writeSpa_pend _ _ _⟩
  unfold fltWrite
  dsimp only
  cases w.after <;> dsimp only <;> split <;> exact kept _

theorem fltPost_keeps (s : State) (vd : Nat) (w : FltWait) : (fltPost s vd w).hanks = s.hanks ∧ (fltPost s vd w).pend = s.pend := by
  unfold fltPost
  dsimp only
  split
  · cases w.queue <;> exact ⟨rfl, rfl⟩
  · exact fltWrite_keeps _ w

theorem logData_keeps (s : State) (f : Flt) : (logData s f).hanks = s.hanks ∧ (logData s f).pend = s.pend := by
  unfold logData
  split <;> exact ⟨rfl, rfl⟩

/-- A hank that ends with a fault has failed and has no strand left; its accesses are still in flight (16 R364). -/
theorem endHank_ends {s : State} {k : Nat} {g : Hank} (hg : hank? s k = some g) (live : g.failed = false) (code detail : Nat) :
    hank? (endHank s k code detail) k = some { g with failed := true } ∧ (∀ r ∈ (endHank s k code detail).strands, r.skein ∉ g.skeins) ∧
      (endHank s k code detail).pend = s.pend := by
  unfold endHank
  simp only [hg, live, Bool.false_eq_true, if_false]
  refine ⟨?_, by simp, trivial⟩
  have found := find?_updIf_self (fun q : Hank => q.id == k) (fun q => { q with failed := true }) (fun _ => rfl) s.hanks
  exact found.trans (congrArg (Option.map _) hg)

theorem failHank_ends {s : State} {x : Skein} {g : Hank} (hg : hank? s x.hank = some g) (live : g.failed = false) (f : Flt) :
    hank? (failHank s x f) x.hank = some { g with failed := true } ∧ (∀ r ∈ (failHank s x f).strands, r.skein ∉ g.skeins) ∧
      (failHank s x f).pend = s.pend := by
  obtain ⟨loggedHanks, loggedPend⟩ := logData_keeps s f
  obtain ⟨postedHanks, postedPend⟩ := fltPost_keeps (logData s f) x.vd
    { queue := .vd x.vd, bytes := fltBytes (logData s f) (Master.ofSkein x) f 0, stops := .nothing, after := none }
  have found : hank? (postPlain (logData s f) x f) x.hank = some g := by
    unfold hank? at hg ⊢
    rwa [postPlain, postedHanks, loggedHanks]
  obtain ⟨failed, gone, pend⟩ := endHank_ends found live 6 f.code
  exact ⟨failed, gone, pend.trans (postedPend.trans loggedPend)⟩

/-! ### What an issue whose operands are delivered meets -/

/-- An instruction issues and its operands are delivered in u; a full flag, an open region and unsent accesses are still to be looked at. -/
structure Delivered (sh : Shape) (s : State) (t : Strand) (x : Skein) (u : State) : Prop where
  here : AtIssue s t x
  legal : decodeCheck sh (privOf s t x) t x = none
  active : activeOf t x sh.ctl.guard ≠ []
  uniform : divergentWrite x (activeOf t x sh.ctl.guard) sh.writes = false
  fresh : staleTraps (chargeIssue s sh t x) x = false
  state : issueState sh t x s = .ok u

section
variable {sh : Shape} {s : State} {t : Strand} {x : Skein} {u : State} (h : Delivered sh s t x u) (ra : Env → State → RaRes) (body : Env → State → Res)
include h

theorem Delivered.issue_of_flagFull {f : Nat} (full : fullFlag t sh.ctl.setf = some f) :
    issue sh ra body s = .next (settle sh (issueEnv sh t x s) (.stall u .ready (.flagFull f))) := by
  rw [h.here.issue_of_legal ra body h.legal]
  unfold issueReal
  simp [issueEnv, h.active, h.uniform, h.fresh, h.state, full]

theorem Delivered.issue_of_forbidden (idle : fullFlag t sh.ctl.setf = none) (forbidden : sh.noIdem = true) (opened : t.region.isSome = true) :
    issue sh ra body s = .next (deliver u t x (Flt.plain .execute 0x1B ((activeOf t x sh.ctl.guard).headD 0) t.pc)) := by
  rw [h.here.issue_of_legal ra body h.legal]
  unfold issueReal
  simp [issueEnv, h.active, h.uniform, h.fresh, h.state, idle, forbidden, opened, Env.lead]

theorem Delivered.issue_of_unsent (idle : fullFlag t sh.ctl.setf = none) (allowed : sh.noIdem = true → t.region = none) (access : sh.access = true)
    (running : u.undo = none) (full : 64 ≤ unsentOf u x) (unsent : sendOldest u x = none) :
    issue sh ra body s = .next (settle sh (issueEnv sh t x s) (.stall u .ready .unsent)) := by
  have noRegion : (sh.noIdem && t.region.isSome) = false := by
    cases hn : sh.noIdem with
    | false => rfl
    | true => simp [allowed hn]
  rw [h.here.issue_of_legal ra body h.legal]
  unfold issueReal
  simp [-Bool.and_eq_true, issueEnv, h.active, h.uniform, h.fresh, h.state, idle, noRegion, access, running, full, unsent]

end

/-- An instruction that stalls waits where it stands, and nothing of it has taken effect. -/
theorem stall_waits {u : State} {e : Env} (h : Stands u e.t) (sh : Shape) (st : StrandState) (wt : Wait) :
    let v := settle sh e (.stall u st wt)
    Waits v e.t st wt ∧ KeepsRegs e.x [] [] [] [] [] u v ∧ SameBytes u v ∧ v.pend = u.pend :=
  ⟨.of_stall h sh st wt, .of_bare rfl, .of_mem rfl rfl, rfl⟩

theorem mem_of_mem_dedup {α : Type} [BEq α] {l : List α} {a : α} (h : a ∈ dedup l) : a ∈ l := by
  refine List.foldlRecOn l _ (motive := fun acc => ∀ b ∈ acc, b ∈ l) (by simp) (fun acc kept b hb c hc => ?_) a h
  split at hc
  · exact kept c hc
  · obtain old | new := List.mem_append.mp hc
    · exact kept c old
    · exact List.mem_singleton.mp new ▸ hb

/-- A full flag is one of the 16, and 255 instructions hold it already. -/
theorem fullFlag_some {t : Strand} {setf : BitVec 2} {f : Nat} (h : fullFlag t setf = some f) : 255 ≤ t.holders f ∧ f < 16 := by
  have selected : f ∈ flagsOf t setf := List.mem_of_find?_eq_some h
  refine ⟨by simpa using List.find?_some h, ?_⟩
  unfold flagsOf at selected
  split at selected
  next => cases selected
  next c _ =>
    have low : f = c.fa.toNat ∨ f = c.fb.toNat := by
      refine (List.mem_append.mp (mem_of_mem_dedup selected)).imp (fun ha => ?_) (fun hb => ?_)
      · split at ha <;> simp_all
      · split at hb <;> simp_all
    obtain rfl | rfl := low
    · exact c.fa.isLt
    · exact c.fb.isLt

end Sys2Proof.Machine

namespace Sys2Proof
open Machine

/-- Settles O14: with no active fibre the issue is charged and the strand goes on; the first decode-class fault fails the hank of the state before. -/
theorem issueChecks : Obligations.IssueChecks := by
  unfold Obligations.IssueChecks
  constructor
  case left =>
    intro i sh hi s t x h legal inactive
    obtain ⟨ra, body, hexec⟩ := exec_isa i sh hi
    have charged : Charged s (chargeIssue s sh t x) := .chargeIssue s sh t x
    refine ⟨_, (hexec s).trans ((h.issue_of_legal ra body legal).trans (congrArg _ (issueReal_of_inactive inactive body s))),
      .of_stands (h.stands.alike charged.alike) sh.len, .of_bare charged.alike.skeins, .of_mem charged.mem charged.fab, charged.pend, charged.array, ?_,
      fun a b c d hc hd => charged.fpctl_eq hc hd⟩
    intro r hr
    obtain ⟨q, hq, same⟩ := charged.alike.strand_some _ _ h.strand
    obtain ⟨r', hr', -, -, holds⟩ := strand_goes_on hq sh.len
    obtain rfl : r = r' := Option.some.inj (hr.symm.trans hr')
    have unheld : q.bare.holds = t.bare.holds := congrArg _ same
    exact holds.trans unheld
  case right =>
    intro i sh hi s t x d h illegal
    obtain ⟨ra, body, hexec⟩ := exec_isa i sh hi
    have fails := (hexec s).trans (h.issue_of_illegal ra body illegal)
    refine ⟨fails, decodeCheck_privileged_iff illegal, fun g hg live => ?_⟩
    obtain ⟨failed, gone, pend⟩ := failHank_ends hg live { Flt.plain .decode (decodeCode d) (t.fibres.headD 0xFFFF) t.pc with access := 4 }
    exact ⟨_, fails, ⟨_, failed, rfl⟩, gone, pend⟩

/-- Settles O17: each of the three is one branch of the issue once its operands are delivered, and a stall changes the strand's wait alone. -/
theorem fullFlag : Obligations.FullFlag := by
  unfold Obligations.FullFlag
  refine ⟨?full, ?forbidden, ?unsent⟩
  case full =>
    intro i sh hi s t x u w f h legal active uniform fresh state hw hpc hclause full
    obtain ⟨ra, body, hexec⟩ := exec_isa i sh hi
    have d : Delivered sh s t x u := ⟨h, legal, active, uniform, fresh, state⟩
    have stands : Stands u t := ⟨w, hw, hpc, hclause⟩
    obtain ⟨held, low⟩ := fullFlag_some full
    exact ⟨held, low, _, (hexec s).trans (d.issue_of_flagFull ra body full), stall_waits (e := issueEnv sh t x s) stands sh _ _⟩
  case forbidden =>
    intro i sh hi forbidden s t x u h legal active uniform fresh state idle opened
    obtain ⟨ra, body, hexec⟩ := exec_isa i sh hi
    have d : Delivered sh s t x u := ⟨h, legal, active, uniform, fresh, state⟩
    exact (hexec s).trans (d.issue_of_forbidden ra body idle forbidden opened)
  case unsent =>
    intro i sh hi access s t x u w h legal active uniform fresh state hw hpc hclause idle allowed running full unsent
    obtain ⟨ra, body, hexec⟩ := exec_isa i sh hi
    have d : Delivered sh s t x u := ⟨h, legal, active, uniform, fresh, state⟩
    have stands : Stands u t := ⟨w, hw, hpc, hclause⟩
    exact ⟨_, (hexec s).trans (d.issue_of_unsent ra body idle allowed access running full unsent),
      stall_waits (e := issueEnv sh t x s) stands sh _ _⟩

end Sys2Proof
end
